-- ==== Sys2Proof/Word.lean ====
section
/-! DEFINITION. The word types of the SZ880 (00 R9: a byte is 8 bits, a word 32 bits, little-endian) and their plainest arithmetic. -/

namespace Sys2Proof

/-- A byte (00 R9). -/
abbrev Byte := BitVec 8
/-- A word, the width of one register (00 R9, 01 R13). -/
abbrev Word := BitVec 32
/-- A 64-bit value: a register pair, an address, a system register (01 R13). -/
abbrev DWord := BitVec 64

/-- Bits [h:l] of a natural number, as a natural number (00 R9: both ends included). -/
def bits (x h l : Nat) : Nat := x / 2 ^ l % 2 ^ (h + 1 - l)

/-- Bit i of a natural number. -/
def bit (x i : Nat) : Bool := x.testBit i

/-- sext(x, n) of 04 R85: the low n bits of x read as a signed n-bit integer. -/
def sext (x : Int) (n : Nat) : Int :=
  let m := x % (2 ^ n : Int)
  if 2 * m < 2 ^ n then m else m - 2 ^ n

/-- zext(x, n) of 04 R85: the low n bits of x read as a natural number. -/
def zext (x : Int) (n : Nat) : Int := x % (2 ^ n : Int)

end Sys2Proof
end

