-- ==== Sys2Proof/Syntax.lean ====
section
/-! DEFINITION. The syntax of Hexund: operand fields, function fields, the instructions of 06 R125 to R132, and the hardware
steps of spec/95 (every row of spec/opcode_table.json is a constructor of Instr). A hardware step names, by numbers, where it
happens and what the outside world supplies to it; a message step names the message. -/

namespace Sys2Proof

/-- The numeric formats of 04 R91. -/
inductive Fmt
  | s8 | n8 | s16 | n16 | s32 | n32 | s64 | n64 | f16 | bf16 | f32 | f64 | s4
  deriving DecidableEq, Repr, Inhabited

/-- Rounding modes (04 R87): to nearest even, toward zero, toward +inf, toward -inf. -/
inductive Rm | rne | rtz | rup | rdn
  deriving DecidableEq, Repr, Inhabited

/-- The four scopes (03 R54, 05 R115). -/
inductive Scope | grp | die | pkg | sys
  deriving DecidableEq, Repr, Inhabited

/-- Cache policies of 05 R115: all levels, marked first for eviction, not in L1, not in L1 or L2, not in L1, L2 or LLC. -/
inductive Policy | all | strm | nl1 | nl2 | nllc
  deriving DecidableEq, Repr, Inhabited

/-- Integer comparison conditions (06 R125). -/
inductive Cond | eq | ne | lt | le | gt | ge
  deriving DecidableEq, Repr, Inhabited

/-- Floating comparison conditions (06 R126, 07 R151). -/
inductive FCond | eq | ne | lt | le | gt | ge | uno | ord
  deriving DecidableEq, Repr, Inhabited

/-- Predicate logic operations (06 R125, 07 R147). -/
inductive PlogOp | and | or | xor | andn
  deriving DecidableEq, Repr, Inhabited

/-- Shuffle modes (06 R127). -/
inductive ShflMode | idx | up | down | xor
  deriving DecidableEq, Repr, Inhabited

/-- Vote kinds (06 R127). -/
inductive VoteKind | all | any | ballot | uni
  deriving DecidableEq, Repr, Inhabited

/-- Reduction operations (06 R127). -/
inductive RedOp | add | min | max | and | or | xor
  deriving DecidableEq, Repr, Inhabited

/-- Atomic operations (06 R129). -/
inductive AtomOp | add | min | max | and | or | xor | exch | cas
  deriving DecidableEq, Repr, Inhabited

/-- Barrier levels (06 R129): squad, workgroup, gang. -/
inductive Level | sq | wg | gang
  deriving DecidableEq, Repr, Inhabited

/-- Kinds of triggered operation (05 R115). -/
inductive TrigKind | send | sendsig | fetch | red | copy | task
  deriving DecidableEq, Repr, Inhabited

/-- Plane codes of a stationary format (04 R94). -/
inductive Planes | tern | int4 | int8
  deriving DecidableEq, Repr, Inhabited

/-- Structure codes of a stationary format (04 R94). -/
inductive Sparsity | dense | sp8 | sp4
  deriving DecidableEq, Repr, Inhabited

/-- What an operand field names (05 R110): a v register, a k register, a latch, the zero operand, or a predicate. -/
inductive Fld
  | v (n : BitVec 8)
  | k (n : BitVec 6)
  | b (n : BitVec 2)
  | zero
  | pred (n : BitVec 4)
  deriving DecidableEq, Repr, Inhabited

/-- Source B: a field, imm32 of a 96-bit form, imm61 of a generic extension word with present set, the 48-bit offset of a memory
extension word in place of B, or B and that offset together (WMAP; 05 R112, R114, R115). -/
inductive Src
  | fld (f : Fld)
  | imm32 (i : BitVec 32)
  | imm61 (i : BitVec 61)
  | off48 (i : BitVec 48)
  | fldOff (f : Fld) (i : BitVec 48)
  deriving DecidableEq, Repr, Inhabited

/-- The fields of the base word that every instruction has (05 R108). long: the 128-bit form with a generic extension word
whose present bit is 0 (05 R114), or with no extension field in use. -/
structure Hdr where
  guard : BitVec 4
  gneg  : Bool
  chain : Bool
  wbs   : Bool
  latch : BitVec 2
  long  : Bool
  deriving DecidableEq, Repr, Inhabited

/-- The header and the four operand fields of an instruction (05 R108). -/
structure Ops where
  h : Hdr
  d : Fld
  a : Fld
  b : Src
  c : Fld
  deriving DecidableEq, Repr, Inhabited

/-- Function field of the integer group: format, sat, sub (06 R125). -/
structure IntFn where
  fmt : Fmt
  sat : Bool
  sub : BitVec 4
  deriving DecidableEq, Repr, Inhabited

/-- Function field of the floating-point group: format, rounding, packed (06 R126). -/
structure FltFn where
  fmt    : Fmt
  rm     : Rm
  packed : Bool
  deriving DecidableEq, Repr, Inhabited

/-- Function field of FCMP (06 R126). -/
structure FcmpFn where
  fmt  : Fmt
  cond : FCond
  deriving DecidableEq, Repr, Inhabited

/-- Function field of SHFL; BCAST uses the width only (06 R127). seg is the exponent: segments of 2^seg lanes. -/
structure ShflFn where
  mode : ShflMode
  seg  : BitVec 3
  wide : Bool
  deriving DecidableEq, Repr, Inhabited

/-- Function field of SRED and SSCAN (06 R127). -/
structure RedFn where
  fmt : Fmt
  op  : RedOp
  rm  : Rm
  deriving DecidableEq, Repr, Inhabited

/-- Function field and source-format field of CVT (06 R127, 07 R155). -/
structure CvtFn where
  tgt : Fmt
  src : Fmt
  sat : Bool
  rm  : Rm
  deriving DecidableEq, Repr, Inhabited

/-- Scope, policy and size of a load, store or prefetch, from the function field or the extension word (06 R128, 05 R115). -/
structure MemFn where
  scope  : Scope
  policy : Policy
  size   : Fmt
  deriving DecidableEq, Repr, Inhabited

/-- Scope, operation and size of an atomic (06 R129). -/
structure AtomFn where
  scope : Scope
  op    : AtomOp
  size  : Fmt
  deriving DecidableEq, Repr, Inhabited

/-- The matrix extension word (05 R115). -/
structure MatFn where
  acc       : BitVec 2
  planes    : Planes
  structure' : Sparsity
  fmt       : Fmt
  bias      : Bool
  relu      : Bool
  rows      : BitVec 16
  offset    : BitVec 32
  deriving DecidableEq, Repr, Inhabited

/-- Function field of LPBEG: length code of the end instruction, rotate, stage count (06 R131). -/
structure LpbegFn where
  len    : BitVec 2
  rotate : Bool
  stages : BitVec 4
  deriving DecidableEq, Repr, Inhabited

/-- The triggered extension word (05 R115). -/
structure TrigFn where
  kind      : TrigKind
  scope     : Scope
  cen       : Bool
  trigger   : BitVec 12
  done      : BitVec 12
  threshold : BitVec 32
  deriving DecidableEq, Repr, Inhabited

/-- Every row of spec/opcode_table.json: the Hexund instructions with their decoded fields, then the hardware steps of spec/95.
In a hardware step p is a package (by its place in the domain), c a core of it (0-255 Loam, 256-351 Marl), d a die, m a message. -/
inductive Instr
  -- integer and address group (06 R125)
  | add (o : Ops) (f : IntFn)
  | sub (o : Ops) (f : IntFn)
  | mul (o : Ops) (f : IntFn)
  | mulhi (o : Ops) (f : IntFn)
  | mad (o : Ops) (f : IntFn)
  | div (o : Ops) (f : IntFn)
  | rem (o : Ops) (f : IntFn)
  | neg (o : Ops) (f : IntFn)
  | abs (o : Ops) (f : IntFn)
  | min (o : Ops) (f : IntFn)
  | max (o : Ops) (f : IntFn)
  | and (o : Ops) (f : IntFn)
  | or (o : Ops) (f : IntFn)
  | xor (o : Ops) (f : IntFn)
  | andn (o : Ops) (f : IntFn)
  | shl (o : Ops) (f : IntFn)
  | shr (o : Ops) (f : IntFn)
  | rol (o : Ops) (f : IntFn)
  | popc (o : Ops) (f : IntFn)
  | clz (o : Ops) (f : IntFn)
  | ctz (o : Ops) (f : IntFn)
  | brev (o : Ops) (f : IntFn)
  | bfx (o : Ops) (f : IntFn)
  | bfi (o : Ops) (f : IntFn)
  | cmp (o : Ops) (f : IntFn) (cond : Cond)
  | sel (o : Ops) (f : IntFn)
  | mov (o : Ops) (f : IntFn)
  | lea (o : Ops) (f : IntFn)
  | plog (o : Ops) (op : PlogOp)
  -- floating-point group (06 R126)
  | fadd (o : Ops) (f : FltFn)
  | fsub (o : Ops) (f : FltFn)
  | fmul (o : Ops) (f : FltFn)
  | ffma (o : Ops) (f : FltFn)
  | fmin (o : Ops) (f : FltFn)
  | fmax (o : Ops) (f : FltFn)
  | fabs (o : Ops) (f : FltFn)
  | fneg (o : Ops) (f : FltFn)
  | fcpsgn (o : Ops) (f : FltFn)
  | fdiv (o : Ops) (f : FltFn)
  | fsqrt (o : Ops) (f : FltFn)
  | frcp (o : Ops) (f : FltFn)
  | frsq (o : Ops) (f : FltFn)
  | fexp2 (o : Ops) (f : FltFn)
  | flog2 (o : Ops) (f : FltFn)
  | fsin (o : Ops) (f : FltFn)
  | fcos (o : Ops) (f : FltFn)
  | ftanh (o : Ops) (f : FltFn)
  | fcmp (o : Ops) (f : FcmpFn)
  | frint (o : Ops) (f : FltFn)
  | fclass (o : Ops) (f : FltFn)
  | fscale (o : Ops) (f : FltFn)
  -- lane and convert group (06 R127)
  | shfl (o : Ops) (f : ShflFn)
  | bcast (o : Ops) (wide : Bool)
  | vote (o : Ops) (kind : VoteKind)
  | sred (o : Ops) (f : RedFn)
  | sscan (o : Ops) (f : RedFn)
  | cvt (o : Ops) (f : CvtFn)
  | cvtpk (o : Ops) (f : FltFn)
  -- memory and scope group (06 R128)
  | ld (o : Ops) (f : MemFn)
  | st (o : Ops) (f : MemFn)
  | stRel (o : Ops) (f : MemFn)
  | ldl (o : Ops) (f : MemFn)
  | stl (o : Ops) (f : MemFn)
  | pref (o : Ops) (f : MemFn)
  | region (o : Ops)
  | acq (o : Ops) (scope : Scope)
  | rel (o : Ops) (scope : Scope)
  | fence (o : Ops) (scope : Scope)
  -- sync, atomic and window group (06 R129)
  | atom (o : Ops) (f : AtomFn)
  | atoml (o : Ops) (f : AtomFn)
  | atoms (o : Ops) (f : AtomFn)
  | wmap (o : Ops)
  | wunmap (o : Ops)
  | wfill (o : Ops)
  | wdrain (o : Ops)
  | wstat (o : Ops)
  | barinit (o : Ops) (lvl : Level)
  | bararv (o : Ops) (lvl : Level)
  | barwait (o : Ops) (lvl : Level)
  | barsync (o : Ops) (lvl : Level)
  | qcfg (o : Ops)
  | qpush (o : Ops)
  | qpop (o : Ops)
  | copy (o : Ops)
  | cbseal (o : Ops)
  | cbwait (o : Ops)
  | cbpoll (o : Ops)
  -- matrix group (06 R130)
  | mald (o : Ops) (f : MatFn)
  | mwld (o : Ops) (f : MatFn)
  | mstrm (o : Ops) (f : MatFn)
  | macc (o : Ops) (isNew : Bool) (f : MatFn)
  | mdrn (o : Ops) (f : MatFn)
  | mzero (o : Ops) (f : MatFn)
  | mqsc (o : Ops)
  | mwait (o : Ops) (f : MatFn)
  | mrmap (o : Ops)
  -- control and loop group (06 R131)
  | nop (o : Ops)
  | bra (o : Ops)
  | brx (o : Ops)
  | call (o : Ops)
  | callx (o : Ops)
  | ret (o : Ops)
  | exit (o : Ops)
  | yield (o : Ops)
  | lpbeg (o : Ops) (f : LpbegFn)
  | lpbrk (o : Ops) (dm1 : BitVec 2)
  | lpsave (o : Ops)
  | lprest (o : Ops)
  -- fabric, task and system group (06 R132)
  | trigpost (o : Ops) (f : TrigFn)
  | tcadd (o : Ops) (scope : Scope)
  | tcrd (o : Ops)
  | tcwait (o : Ops)
  | tcset (o : Ops)
  | trigcan (o : Ops)
  | trigprb (o : Ops)
  | launch (o : Ops)
  | tready (o : Ops)
  | tdec (o : Ops)
  | trap (o : Ops)
  | eret (o : Ops)
  | bkpt (o : Ops)
  | sysrd (o : Ops)
  | syswr (o : Ops)
  | shootdn (o : Ops)
  | cntcfg (o : Ops)
  | cntrd (o : Ops)
  -- hardware steps: issue and traps (01)
  | issueCk (p c : Nat)
  | entryAged (p c pc : Nat)
  | yieldWindowEnd (p c pc : Nat)
  | trapDelivery (p c squad : Nat)
  -- hardware steps: coherence (03)
  | registrationRequest (m : Nat)
  | registrationGrant (m : Nat)
  | loadRequest (m : Nat)
  | forwardedLoad (m : Nat)
  | loadAnswer (m : Nat)
  | invalidateNotice (m : Nat)
  | revocation (m : Nat)
  | writeBack (m : Nat)
  | writeBackAck (m : Nat)
  | homeAtomic (m : Nat)
  | remoteWrite (m : Nat)
  | llcEvict (line : Nat)
  | levelEvict (level word : Nat)
  | regionEntryTaken (p ctx r : Nat)
  -- hardware steps: windows, copies, matrix (08, 09)
  | windowSectorFetchDone (m : Nat)
  | wfillComplete (p c slot : Nat)
  | wdrainComplete (p c slot : Nat)
  | copyCommandStart (cmd : Nat)
  | copyCommandComplete (cmd : Nat)
  | copyCommandFail (cmd : Nat)
  | matrixAccept (p c : Nat)
  | maldComplete (p c op : Nat)
  | mwldShadowComplete (p c : Nat) (corrected uncorrectable : List Nat)
  | mstrmRowRetire (p c op : Nat)
  | mstrmComplete (p c op : Nat)
  | mdrnComplete (p c op : Nat)
  | maccComplete (p c op : Nat)
  | mzeroComplete (p c op : Nat)
  -- hardware steps: Aster units (10, 15) and aggregator (12)
  | trigOpStart (p d : Nat)
  | trigOpComplete (p d slot : Nat)
  | trigOpFail (p d slot cause : Nat)
  | signal (m : Nat)
  | aggregatorMergeTimeout (p d merge : Nat)
  -- hardware steps: scheduler (19)
  | doorbell (p j : Nat) (tail : BitVec 32)
  | launchCommand (p j : Nat)
  | mstart (p j : Nat)
  | ctxcreate (p j : Nat)
  | ctxdestroy (p j : Nat)
  | toksig (p j : Nat)
  | taskarm (p j : Nat)
  | halt (p j : Nat)
  | resume (p j : Nat)
  | launchLogicCk (p d : Nat)
  | quiescePoint (gang : Nat)
  | workgroupComplete (p c : Nat)
  | launchComplete (l : Nat)
  | clusterAdvert (p d : Nat)
  | migrationOffer (p d : Nat)
  | migrationOfferReceive (p d : Nat)
  | contextFaultMessage (p ctx : Nat) (fault : BitVec 16)
  -- hardware steps: translation and faults (20)
  | translationFault (p c squad lane : Nat) (va : BitVec 64) (kind : BitVec 3)
  | faultRecordWrite (p : Nat)
  | frdoneRetry (p : Nat) (id : BitVec 32)
  | frdoneDeliver (p : Nat) (id : BitVec 32)
  | shootdownReceive (p sd : Nat)
  | negativeReply (m : Nat)
  | heartbeat (p d : Nat)
  | dieLostDetect (p d : Nat) (error hostReset : Bool)
  | dieLossBroadcast (p d : Nat)
  | fatalError (p item socket : Nat) (valid : BitVec 64)
  -- hardware steps: links and fabric (21)
  | flitReceive (p socket : Nat) (noise : BitVec 640)
  | ringCycle (p : Nat)
  | requestReceive (m : Nat)
  | requestTimeout (m : Nat)
  | moduleLaneFail (p socket md lane : Nat)
  | moduleRetrainDone (p socket md : Nat)
  | lineRetrainStart (p plane line : Nat) (lostLock : Bool)
  | retrainNotice (p plane line : Nat)
  | lineRetrainDone (p plane line : Nat) (good : Bool)
  -- hardware steps: host registers, power and temperature (21, 22)
  | flrst (p : Nat) (v : BitVec 32)
  | pkgnum (p : Nat) (v : BitVec 32)
  | pwrcmdRun (p : Nat) (v : BitVec 32)
  | pwrcmdTrim (p : Nat) (v : BitVec 32)
  | pwrcmdHold (p : Nat) (v : BitVec 32)
  | pwrcmdOff (p : Nat) (v : BitVec 32)
  | powerTransitionDone (p : Nat)
  | thermalSample (p : Nat) (sensors : List (BitVec 32)) (inlet outlet : BitVec 32)
  | thalarm (p : Nat) (v : BitVec 32)
  | registerWrite (p off : Nat) (v : BitVec 128)
  -- hardware steps: storage, boot, identity, die return, host memory window (20, 21, 22)
  | storageDmaWrite (p port : Nat) (va : BitVec 64) (data : List (BitVec 8))
  | boot (p : Nat)
  | recoveryImage (p md : Nat) (image : List (BitVec 8))
  | rollbackFuse (p : Nat)
  | attestation (p : Nat) (nonce : BitVec 384)
  | dieReturnToService (p d : Nat)
  | powerRemoved (p : Nat)
  | storageDmaRead (p port : Nat) (va : BitVec 64) (n : Nat)
  | storageLinkRetrain (p port : Nat) (width gen : BitVec 4)
  | hostLinkDmaAccess (p pa : Nat) (write : Bool) (data : List (BitVec 8))
  | atomicAnswer (m : Nat)
  deriving DecidableEq, Repr, Inhabited

end Sys2Proof
end

