-- ==== Sys2Proof/Config.lean ====
section
/-! DEFINITION. What the spec leaves open: free values, constants with no body, so that nothing can evaluate them. Each is applied to the operands
it depends on or to a counter of the state (State.freeCount, State.tick). -/

namespace Sys2Proof.Config

/-- The candidate for the n-th f32 transcendental result (07 R153, log 5). -/
opaque freeTransc : Nat → BitVec 32
/-- What happens next when nothing is due: the t-th free step (01 R21, 03 R61, 21 R370; log 1). -/
opaque nextEvent : Nat → Instr
/-- Where the native code of every WPE image stands (11 R258 to R260): one place, so that an image's native bytes do not depend on where it lies (log 56). -/
def nativeBase : Nat := 0xF0000000000000
/-- A scratchpad byte that nothing has written since a gang was dispatched (12 R270): by the dispatch's number and the byte's key (log 7). -/
opaque freeScratch : Nat → Nat → BitVec 8
/-- A byte of the Adobe layer that no MALD has written since the matrix unit was set up (09 R203): by the dispatch's number and place (log 7). -/
opaque freeAdobe : Nat → Nat → BitVec 8
/-- What a load from a storage drive's registers returns (22 R390): by a counter (log 8). -/
opaque freeDevice : Nat → BitVec 64

/-- What the n-th read of a slice row of the Adobe layer outside a shadow load meets (14 R288): 0 and 3 no error, 1 a corrected one, 2 an uncorrectable one (log 37). -/
opaque softError : Nat → Nat → BitVec 2

/-- A byte of a fatal-error dump whose layout, or of a report whose value, the spec does not give (20 R365, 21 R381): by the counter and the place (log 18). -/
opaque freeDump : Nat → Nat → BitVec 8

/-- SHA-384 (21 R379, R382), the two signature checks of R379 over a digest, and the two signatures of R382 with a key, and with a seed and a leaf index: standard
algorithms that the spec names and does not state (log 9). -/
opaque sha384 : List (BitVec 8) → BitVec 384
opaque ecdsaOk : List (BitVec 8) → List (BitVec 8) → BitVec 384 → Bool
opaque hssOk : List (BitVec 8) → List (BitVec 8) → BitVec 384 → Bool
opaque ecdsaSign : BitVec 384 → BitVec 384 → BitVec 768
opaque hssSign : BitVec 256 → Nat → BitVec 384 → BitVec 23712
/-- A package's fused device secret, and what the firmware derives from it: the ECDSA P-384 identity key and the seed of the HSS identity key (21 R381; log 9). -/
opaque deviceSecret : Nat → BitVec 256
opaque identityKey : BitVec 256 → BitVec 384
opaque hssSeed : BitVec 256 → BitVec 256
/-- The key hashes fused in a Marl die, for ecpub and hsspub (21 R379), and the digest of a package's firmware translator (21 R382; log 9). -/
opaque fusedHash : Nat → Bool → BitVec 384
opaque translatorDigest : Nat → BitVec 384

end Sys2Proof.Config
end

