-- ==== Sys2Proof/Decode.lean ====
section
/-! DEFINITION. The decoder (05 R104 to R116, 06 R123 to R133) and the encoder, both written from the encoding tables of 05 and 06.
decode answers the instruction, or the number of the check of 05 R116 that fails (3, 4 or 5; checks 1 and 2 are the fetch's,
checks 6, 7 and 8 need the thread and stand in Machine/Operands.lean). -/

namespace Sys2Proof

/-- The code of a Fmt (04 R91). -/
def Fmt.code : Fmt → Nat
  | .s8 => 0
  | .n8 => 1
  | .s16 => 2
  | .n16 => 3
  | .s32 => 4
  | .n32 => 5
  | .s64 => 6
  | .n64 => 7
  | .f16 => 8
  | .bf16 => 9
  | .f32 => 10
  | .f64 => 11
  | .s4 => 12

/-- The Fmt of a code; none for a code 04 R91 leaves out. -/
def Fmt.ofCode : Nat → Option Fmt
  | 0 => some .s8
  | 1 => some .n8
  | 2 => some .s16
  | 3 => some .n16
  | 4 => some .s32
  | 5 => some .n32
  | 6 => some .s64
  | 7 => some .n64
  | 8 => some .f16
  | 9 => some .bf16
  | 10 => some .f32
  | 11 => some .f64
  | 12 => some .s4
  | _ => none

/-- The code of a Rm (04 R87). -/
def Rm.code : Rm → Nat
  | .rne => 0
  | .rtz => 1
  | .rup => 2
  | .rdn => 3

/-- The Rm of a code; none for a code 04 R87 leaves out. -/
def Rm.ofCode : Nat → Option Rm
  | 0 => some .rne
  | 1 => some .rtz
  | 2 => some .rup
  | 3 => some .rdn
  | _ => none

/-- The code of a Scope (05 R115). -/
def Scope.code : Scope → Nat
  | .grp => 0
  | .die => 1
  | .pkg => 2
  | .sys => 3

/-- The Scope of a code; none for a code 05 R115 leaves out. -/
def Scope.ofCode : Nat → Option Scope
  | 0 => some .grp
  | 1 => some .die
  | 2 => some .pkg
  | 3 => some .sys
  | _ => none

/-- The code of a Policy (05 R115). -/
def Policy.code : Policy → Nat
  | .all => 0
  | .strm => 1
  | .nl1 => 2
  | .nl2 => 3
  | .nllc => 4

/-- The Policy of a code; none for a code 05 R115 leaves out. -/
def Policy.ofCode : Nat → Option Policy
  | 0 => some .all
  | 1 => some .strm
  | 2 => some .nl1
  | 3 => some .nl2
  | 4 => some .nllc
  | _ => none

/-- The code of a Cond (06 R125). -/
def Cond.code : Cond → Nat
  | .eq => 0
  | .ne => 1
  | .lt => 2
  | .le => 3
  | .gt => 4
  | .ge => 5

/-- The Cond of a code; none for a code 06 R125 leaves out. -/
def Cond.ofCode : Nat → Option Cond
  | 0 => some .eq
  | 1 => some .ne
  | 2 => some .lt
  | 3 => some .le
  | 4 => some .gt
  | 5 => some .ge
  | _ => none

/-- The code of a FCond (06 R126). -/
def FCond.code : FCond → Nat
  | .eq => 0
  | .ne => 1
  | .lt => 2
  | .le => 3
  | .gt => 4
  | .ge => 5
  | .uno => 6
  | .ord => 7

/-- The FCond of a code; none for a code 06 R126 leaves out. -/
def FCond.ofCode : Nat → Option FCond
  | 0 => some .eq
  | 1 => some .ne
  | 2 => some .lt
  | 3 => some .le
  | 4 => some .gt
  | 5 => some .ge
  | 6 => some .uno
  | 7 => some .ord
  | _ => none

/-- The code of a PlogOp (06 R125). -/
def PlogOp.code : PlogOp → Nat
  | .and => 0
  | .or => 1
  | .xor => 2
  | .andn => 3

/-- The PlogOp of a code; none for a code 06 R125 leaves out. -/
def PlogOp.ofCode : Nat → Option PlogOp
  | 0 => some .and
  | 1 => some .or
  | 2 => some .xor
  | 3 => some .andn
  | _ => none

/-- The code of a ShflMode (06 R127). -/
def ShflMode.code : ShflMode → Nat
  | .idx => 0
  | .up => 1
  | .down => 2
  | .xor => 3

/-- The ShflMode of a code; none for a code 06 R127 leaves out. -/
def ShflMode.ofCode : Nat → Option ShflMode
  | 0 => some .idx
  | 1 => some .up
  | 2 => some .down
  | 3 => some .xor
  | _ => none

/-- The code of a VoteKind (06 R127). -/
def VoteKind.code : VoteKind → Nat
  | .all => 0
  | .any => 1
  | .ballot => 2
  | .uni => 3

/-- The VoteKind of a code; none for a code 06 R127 leaves out. -/
def VoteKind.ofCode : Nat → Option VoteKind
  | 0 => some .all
  | 1 => some .any
  | 2 => some .ballot
  | 3 => some .uni
  | _ => none

/-- The code of a RedOp (06 R127). -/
def RedOp.code : RedOp → Nat
  | .add => 0
  | .min => 1
  | .max => 2
  | .and => 3
  | .or => 4
  | .xor => 5

/-- The RedOp of a code; none for a code 06 R127 leaves out. -/
def RedOp.ofCode : Nat → Option RedOp
  | 0 => some .add
  | 1 => some .min
  | 2 => some .max
  | 3 => some .and
  | 4 => some .or
  | 5 => some .xor
  | _ => none

/-- The code of a AtomOp (06 R129). -/
def AtomOp.code : AtomOp → Nat
  | .add => 0
  | .min => 1
  | .max => 2
  | .and => 3
  | .or => 4
  | .xor => 5
  | .exch => 6
  | .cas => 7

/-- The AtomOp of a code; none for a code 06 R129 leaves out. -/
def AtomOp.ofCode : Nat → Option AtomOp
  | 0 => some .add
  | 1 => some .min
  | 2 => some .max
  | 3 => some .and
  | 4 => some .or
  | 5 => some .xor
  | 6 => some .exch
  | 7 => some .cas
  | _ => none

/-- The code of a Level (06 R129). -/
def Level.code : Level → Nat
  | .sq => 0
  | .wg => 1
  | .gang => 2

/-- The Level of a code; none for a code 06 R129 leaves out. -/
def Level.ofCode : Nat → Option Level
  | 0 => some .sq
  | 1 => some .wg
  | 2 => some .gang
  | _ => none

/-- The code of a TrigKind (05 R115). -/
def TrigKind.code : TrigKind → Nat
  | .send => 0
  | .sendsig => 1
  | .fetch => 2
  | .red => 3
  | .copy => 4
  | .task => 5

/-- The TrigKind of a code; none for a code 05 R115 leaves out. -/
def TrigKind.ofCode : Nat → Option TrigKind
  | 0 => some .send
  | 1 => some .sendsig
  | 2 => some .fetch
  | 3 => some .red
  | 4 => some .copy
  | 5 => some .task
  | _ => none

/-- The code of a Planes (04 R94). -/
def Planes.code : Planes → Nat
  | .tern => 0
  | .int4 => 1
  | .int8 => 2

/-- The Planes of a code; none for a code 04 R94 leaves out. -/
def Planes.ofCode : Nat → Option Planes
  | 0 => some .tern
  | 1 => some .int4
  | 2 => some .int8
  | _ => none

/-- The code of a Sparsity (04 R94). -/
def Sparsity.code : Sparsity → Nat
  | .dense => 0
  | .sp8 => 1
  | .sp4 => 2

/-- The Sparsity of a code; none for a code 04 R94 leaves out. -/
def Sparsity.ofCode : Nat → Option Sparsity
  | 0 => some .dense
  | 1 => some .sp8
  | 2 => some .sp4
  | _ => none

/-! ### Operand fields (05 R110) -/

/-- The 9-bit code of an operand field. -/
def Fld.code : Fld → Nat
  | .v n => n.toNat
  | .k n => 256 + n.toNat
  | .b n => 320 + n.toNat
  | .zero => 324
  | .pred n => n.toNat

/-- The kinds of operand field of 05 R110; none: a field the instruction does not use. -/
inductive Kind | reg | pred | konst | none
  deriving DecidableEq, Repr, Inhabited

/-- The field of a 9-bit code, read at its kind; none where check 5 of 05 R116 fails. A small constant and an unused field hold nothing the machine reads. -/
def Fld.ofCode (k : Kind) (c : Nat) : Option Fld :=
  match k with
  | .reg =>
    if c < 256 then some (.v (BitVec.ofNat 8 c))
    else if c < 320 then some (.k (BitVec.ofNat 6 (c - 256)))
    else if c < 324 then some (.b (BitVec.ofNat 2 (c - 320)))
    else if c = 324 then some .zero else Option.none
  | .pred => if c < 16 then some (.pred (BitVec.ofNat 4 c)) else Option.none
  | .konst => if c < 16 then some .zero else Option.none
  | .none => if c = 324 then some .zero else Option.none

/-- The extension layouts of 05 R114, R115. -/
inductive ExtKind | generic | memory | matrix | trig
  deriving DecidableEq, Repr, Inhabited

/-- One row of the opcode map: the kinds of D, A, B and C, the lengths allowed, whether an immediate may replace B, the extension layout. -/
structure Row where
  d : Kind
  a : Kind
  b : Kind
  c : Kind
  l64 : Bool
  l96 : Bool
  l128 : Bool
  imm : Bool
  ext : ExtKind
  deriving DecidableEq, Repr

/-- The opcode map (06 R125 to R132); none for an unassigned code (06 R123). VOTE's D and MDRN's B depend on the function and extension, see kinds. -/
def rowOf : Nat → Option Row
  | 0x01 => some ⟨.reg, .reg, .reg, .none, true, true, true, true, .generic⟩  -- add
  | 0x02 => some ⟨.reg, .reg, .reg, .none, true, true, true, true, .generic⟩  -- sub
  | 0x03 => some ⟨.reg, .reg, .reg, .none, true, true, true, true, .generic⟩  -- mul
  | 0x04 => some ⟨.reg, .reg, .reg, .none, true, true, true, true, .generic⟩  -- mulhi
  | 0x05 => some ⟨.reg, .reg, .reg, .reg, true, true, true, true, .generic⟩  -- mad
  | 0x06 => some ⟨.reg, .reg, .reg, .none, true, true, true, true, .generic⟩  -- div
  | 0x07 => some ⟨.reg, .reg, .reg, .none, true, true, true, true, .generic⟩  -- rem
  | 0x08 => some ⟨.reg, .reg, .none, .none, true, false, false, false, .generic⟩  -- neg
  | 0x09 => some ⟨.reg, .reg, .none, .none, true, false, false, false, .generic⟩  -- abs
  | 0x0A => some ⟨.reg, .reg, .reg, .none, true, true, true, true, .generic⟩  -- min
  | 0x0B => some ⟨.reg, .reg, .reg, .none, true, true, true, true, .generic⟩  -- max
  | 0x0C => some ⟨.reg, .reg, .reg, .none, true, true, true, true, .generic⟩  -- and
  | 0x0D => some ⟨.reg, .reg, .reg, .none, true, true, true, true, .generic⟩  -- or
  | 0x0E => some ⟨.reg, .reg, .reg, .none, true, true, true, true, .generic⟩  -- xor
  | 0x0F => some ⟨.reg, .reg, .reg, .none, true, true, true, true, .generic⟩  -- andn
  | 0x10 => some ⟨.reg, .reg, .reg, .none, true, true, true, true, .generic⟩  -- shl
  | 0x11 => some ⟨.reg, .reg, .reg, .none, true, true, true, true, .generic⟩  -- shr
  | 0x12 => some ⟨.reg, .reg, .reg, .none, true, true, true, true, .generic⟩  -- rol
  | 0x13 => some ⟨.reg, .reg, .none, .none, true, false, false, false, .generic⟩  -- popc
  | 0x14 => some ⟨.reg, .reg, .none, .none, true, false, false, false, .generic⟩  -- clz
  | 0x15 => some ⟨.reg, .reg, .none, .none, true, false, false, false, .generic⟩  -- ctz
  | 0x16 => some ⟨.reg, .reg, .none, .none, true, false, false, false, .generic⟩  -- brev
  | 0x17 => some ⟨.reg, .reg, .reg, .reg, true, false, false, false, .generic⟩  -- bfx
  | 0x18 => some ⟨.reg, .reg, .reg, .reg, true, false, false, false, .generic⟩  -- bfi
  | 0x19 => some ⟨.pred, .reg, .reg, .none, true, true, true, true, .generic⟩  -- cmp
  | 0x1A => some ⟨.reg, .reg, .reg, .pred, true, false, false, false, .generic⟩  -- sel
  | 0x1B => some ⟨.reg, .none, .reg, .none, true, true, true, true, .generic⟩  -- mov
  | 0x1C => some ⟨.reg, .reg, .reg, .none, true, true, true, true, .generic⟩  -- lea
  | 0x1D => some ⟨.pred, .pred, .pred, .none, true, false, false, false, .generic⟩  -- plog
  | 0x20 => some ⟨.reg, .reg, .reg, .none, true, true, true, true, .generic⟩  -- fadd
  | 0x21 => some ⟨.reg, .reg, .reg, .none, true, true, true, true, .generic⟩  -- fsub
  | 0x22 => some ⟨.reg, .reg, .reg, .none, true, true, true, true, .generic⟩  -- fmul
  | 0x23 => some ⟨.reg, .reg, .reg, .reg, true, true, true, true, .generic⟩  -- ffma
  | 0x24 => some ⟨.reg, .reg, .reg, .none, true, true, true, true, .generic⟩  -- fmin
  | 0x25 => some ⟨.reg, .reg, .reg, .none, true, true, true, true, .generic⟩  -- fmax
  | 0x26 => some ⟨.reg, .reg, .none, .none, true, false, false, false, .generic⟩  -- fabs
  | 0x27 => some ⟨.reg, .reg, .none, .none, true, false, false, false, .generic⟩  -- fneg
  | 0x28 => some ⟨.reg, .reg, .reg, .none, true, true, true, true, .generic⟩  -- fcpsgn
  | 0x29 => some ⟨.reg, .reg, .reg, .none, true, true, true, true, .generic⟩  -- fdiv
  | 0x2A => some ⟨.reg, .reg, .none, .none, true, false, false, false, .generic⟩  -- fsqrt
  | 0x2B => some ⟨.reg, .reg, .none, .none, true, false, false, false, .generic⟩  -- frcp
  | 0x2C => some ⟨.reg, .reg, .none, .none, true, false, false, false, .generic⟩  -- frsq
  | 0x2D => some ⟨.reg, .reg, .none, .none, true, false, false, false, .generic⟩  -- fexp2
  | 0x2E => some ⟨.reg, .reg, .none, .none, true, false, false, false, .generic⟩  -- flog2
  | 0x2F => some ⟨.reg, .reg, .none, .none, true, false, false, false, .generic⟩  -- fsin
  | 0x30 => some ⟨.reg, .reg, .none, .none, true, false, false, false, .generic⟩  -- fcos
  | 0x31 => some ⟨.reg, .reg, .none, .none, true, false, false, false, .generic⟩  -- ftanh
  | 0x32 => some ⟨.pred, .reg, .reg, .none, true, true, true, true, .generic⟩  -- fcmp
  | 0x33 => some ⟨.reg, .reg, .none, .none, true, false, false, false, .generic⟩  -- frint
  | 0x34 => some ⟨.reg, .reg, .none, .none, true, false, false, false, .generic⟩  -- fclass
  | 0x35 => some ⟨.reg, .reg, .reg, .none, true, true, true, true, .generic⟩  -- fscale
  | 0x40 => some ⟨.reg, .reg, .reg, .none, true, true, true, true, .generic⟩  -- shfl
  | 0x41 => some ⟨.reg, .reg, .reg, .none, true, true, true, true, .generic⟩  -- bcast
  | 0x42 => some ⟨.pred, .pred, .none, .none, true, false, false, false, .generic⟩  -- vote
  | 0x43 => some ⟨.reg, .reg, .none, .none, true, false, false, false, .generic⟩  -- sred
  | 0x44 => some ⟨.reg, .reg, .none, .none, true, false, false, false, .generic⟩  -- sscan
  | 0x54 => some ⟨.reg, .reg, .konst, .none, true, false, false, false, .generic⟩  -- cvt
  | 0x55 => some ⟨.reg, .reg, .reg, .none, true, false, false, false, .generic⟩  -- cvtpk
  | 0x60 => some ⟨.reg, .reg, .reg, .none, true, true, true, true, .memory⟩  -- ld
  | 0x61 => some ⟨.none, .reg, .reg, .reg, true, true, true, true, .memory⟩  -- st
  | 0x62 => some ⟨.none, .reg, .reg, .reg, true, true, true, true, .memory⟩  -- stRel
  | 0x63 => some ⟨.reg, .reg, .reg, .none, true, true, true, true, .memory⟩  -- ldl
  | 0x64 => some ⟨.none, .reg, .reg, .reg, true, true, true, true, .memory⟩  -- stl
  | 0x65 => some ⟨.none, .reg, .reg, .none, true, true, true, true, .memory⟩  -- pref
  | 0x68 => some ⟨.none, .reg, .reg, .reg, true, false, false, false, .generic⟩  -- region
  | 0x69 => some ⟨.none, .none, .reg, .none, true, true, false, true, .generic⟩  -- acq
  | 0x6A => some ⟨.none, .none, .none, .none, true, false, false, false, .generic⟩  -- rel
  | 0x6B => some ⟨.none, .none, .none, .none, true, false, false, false, .generic⟩  -- fence
  | 0x80 => some ⟨.reg, .reg, .reg, .reg, true, true, true, true, .memory⟩  -- atom
  | 0x81 => some ⟨.reg, .reg, .reg, .reg, true, true, true, true, .memory⟩  -- atoml
  | 0x82 => some ⟨.reg, .reg, .reg, .reg, true, true, true, true, .memory⟩  -- atoms
  | 0x88 => some ⟨.none, .reg, .reg, .reg, true, false, true, false, .memory⟩  -- wmap
  | 0x89 => some ⟨.none, .reg, .none, .none, true, false, false, false, .generic⟩  -- wunmap
  | 0x8A => some ⟨.none, .reg, .none, .none, true, false, false, false, .generic⟩  -- wfill
  | 0x8B => some ⟨.none, .reg, .none, .none, true, false, false, false, .generic⟩  -- wdrain
  | 0x8C => some ⟨.reg, .reg, .none, .none, true, false, false, false, .generic⟩  -- wstat
  | 0x90 => some ⟨.none, .reg, .reg, .none, true, true, true, true, .generic⟩  -- barinit
  | 0x91 => some ⟨.reg, .none, .reg, .none, true, true, true, true, .generic⟩  -- bararv
  | 0x92 => some ⟨.pred, .reg, .reg, .none, true, true, true, true, .generic⟩  -- barwait
  | 0x93 => some ⟨.pred, .none, .reg, .none, true, true, true, true, .generic⟩  -- barsync
  | 0x94 => some ⟨.none, .reg, .reg, .none, true, true, true, true, .generic⟩  -- qcfg
  | 0x95 => some ⟨.none, .reg, .reg, .none, true, true, true, true, .generic⟩  -- qpush
  | 0x96 => some ⟨.reg, .none, .reg, .none, true, true, true, true, .generic⟩  -- qpop
  | 0x98 => some ⟨.none, .reg, .reg, .none, true, false, false, false, .generic⟩  -- copy
  | 0x99 => some ⟨.reg, .none, .none, .none, true, false, false, false, .generic⟩  -- cbseal
  | 0x9A => some ⟨.none, .none, .reg, .none, true, true, true, true, .generic⟩  -- cbwait
  | 0x9B => some ⟨.pred, .none, .reg, .none, true, true, true, true, .generic⟩  -- cbpoll
  | 0xA0 => some ⟨.none, .reg, .reg, .none, false, false, true, false, .matrix⟩  -- mald
  | 0xA1 => some ⟨.none, .reg, .none, .none, false, false, true, false, .matrix⟩  -- mwld
  | 0xA2 => some ⟨.none, .reg, .none, .none, false, false, true, false, .matrix⟩  -- mstrm
  | 0xA3 => some ⟨.none, .none, .none, .none, false, false, true, false, .matrix⟩  -- macc
  | 0xA4 => some ⟨.none, .reg, .reg, .none, false, false, true, false, .matrix⟩  -- mdrn
  | 0xA5 => some ⟨.none, .none, .none, .none, false, false, true, false, .matrix⟩  -- mzero
  | 0xA6 => some ⟨.none, .none, .none, .none, true, false, false, false, .generic⟩  -- mqsc
  | 0xA7 => some ⟨.none, .none, .none, .none, false, false, true, false, .matrix⟩  -- mwait
  | 0xA8 => some ⟨.reg, .none, .none, .none, true, false, false, false, .generic⟩  -- mrmap
  | 0xC0 => some ⟨.none, .none, .none, .none, true, true, true, false, .generic⟩  -- nop
  | 0xC1 => some ⟨.none, .none, .none, .none, false, true, true, true, .generic⟩  -- bra
  | 0xC2 => some ⟨.none, .reg, .none, .none, true, false, false, false, .generic⟩  -- brx
  | 0xC3 => some ⟨.none, .none, .none, .none, false, true, true, true, .generic⟩  -- call
  | 0xC4 => some ⟨.none, .reg, .none, .none, true, false, false, false, .generic⟩  -- callx
  | 0xC5 => some ⟨.none, .none, .none, .none, true, false, false, false, .generic⟩  -- ret
  | 0xC6 => some ⟨.none, .none, .reg, .none, true, true, true, true, .generic⟩  -- exit
  | 0xC7 => some ⟨.none, .none, .none, .none, true, false, false, false, .generic⟩  -- yield
  | 0xC8 => some ⟨.none, .reg, .none, .none, false, true, true, true, .generic⟩  -- lpbeg
  | 0xC9 => some ⟨.none, .none, .none, .none, true, false, false, false, .generic⟩  -- lpbrk
  | 0xCA => some ⟨.none, .reg, .reg, .none, true, true, true, true, .generic⟩  -- lpsave
  | 0xCB => some ⟨.none, .reg, .reg, .none, true, true, true, true, .generic⟩  -- lprest
  | 0xE0 => some ⟨.none, .reg, .reg, .reg, false, false, true, false, .trig⟩  -- trigpost
  | 0xE1 => some ⟨.none, .reg, .reg, .none, true, true, true, true, .generic⟩  -- tcadd
  | 0xE2 => some ⟨.reg, .reg, .none, .none, true, false, false, false, .generic⟩  -- tcrd
  | 0xE3 => some ⟨.none, .reg, .reg, .none, true, true, true, true, .generic⟩  -- tcwait
  | 0xE4 => some ⟨.none, .reg, .reg, .none, true, true, true, true, .generic⟩  -- tcset
  | 0xE5 => some ⟨.none, .reg, .none, .none, true, false, false, false, .generic⟩  -- trigcan
  | 0xE6 => some ⟨.reg, .reg, .none, .none, true, false, false, false, .generic⟩  -- trigprb
  | 0xE8 => some ⟨.none, .reg, .none, .none, true, false, false, false, .generic⟩  -- launch
  | 0xE9 => some ⟨.none, .none, .reg, .none, true, true, true, true, .generic⟩  -- tready
  | 0xEA => some ⟨.none, .none, .reg, .none, true, true, true, true, .generic⟩  -- tdec
  | 0xF0 => some ⟨.none, .none, .reg, .none, true, true, true, true, .generic⟩  -- trap
  | 0xF1 => some ⟨.none, .none, .none, .none, true, false, false, false, .generic⟩  -- eret
  | 0xF2 => some ⟨.none, .none, .none, .none, true, false, false, false, .generic⟩  -- bkpt
  | 0xF3 => some ⟨.reg, .none, .reg, .none, true, true, true, true, .generic⟩  -- sysrd
  | 0xF4 => some ⟨.none, .reg, .reg, .none, true, true, true, true, .generic⟩  -- syswr
  | 0xF5 => some ⟨.none, .reg, .none, .none, true, false, false, false, .generic⟩  -- shootdn
  | 0xF6 => some ⟨.none, .reg, .reg, .none, true, true, true, true, .generic⟩  -- cntcfg
  | 0xF7 => some ⟨.reg, .none, .reg, .none, true, true, true, true, .generic⟩  -- cntrd
  | _ => none

/-! ### Function fields -/

/-- Integer group (06 R125): format in f[8:5], sat in f[4], sub in f[3:0]. -/
def intFn (fn : Nat) : Option IntFn :=
  (Fmt.ofCode (bits fn 8 5)).map fun m => ⟨m, fn.testBit 4, BitVec.ofNat 4 fn⟩

/-- Floating-point group (06 R126): format, rounding in f[4:3], packed in f[2], f[1:0] zero. -/
def fltFn (fn : Nat) : Option FltFn :=
  if bits fn 1 0 = 0 then
    (Fmt.ofCode (bits fn 8 5)).bind fun m => (Rm.ofCode (bits fn 4 3)).map fun r => ⟨m, r, fn.testBit 2⟩
  else none

/-- FCMP (06 R126): condition in f[4:2]. -/
def fcmpFn (fn : Nat) : Option FcmpFn :=
  if bits fn 1 0 = 0 then
    (Fmt.ofCode (bits fn 8 5)).bind fun m => (FCond.ofCode (bits fn 4 2)).map fun c => ⟨m, c⟩
  else none

/-- SHFL (06 R127): mode in f[8:7], segment in f[6:4] (7 is not assigned), width in f[3], f[2:0] zero. -/
def shflFn (fn : Nat) : Option ShflFn :=
  if bits fn 2 0 = 0 ∧ bits fn 6 4 < 7 then
    (ShflMode.ofCode (bits fn 8 7)).map fun m => ⟨m, BitVec.ofNat 3 (bits fn 6 4), fn.testBit 3⟩
  else none

/-- SRED and SSCAN (06 R127): format in f[8:5], operation in f[4:2], rounding in f[1:0]. -/
def redFn (fn : Nat) : Option RedFn :=
  (Fmt.ofCode (bits fn 8 5)).bind fun m => (RedOp.ofCode (bits fn 4 2)).bind fun p =>
    (Rm.ofCode (bits fn 1 0)).map fun r => ⟨m, p, r⟩

/-- CVT (06 R127): target in f[8:5], rounding in f[4:3], sat in f[2]; the source format is the constant in B. A constant above 15 is left to check 5. -/
def cvtFn (fn bcode : Nat) : Option CvtFn :=
  if bits fn 1 0 = 0 then
    (Fmt.ofCode (bits fn 8 5)).bind fun t => (Fmt.ofCode (bits bcode 3 0)).bind fun m =>
      (Rm.ofCode (bits fn 4 3)).map fun r => ⟨t, m, fn.testBit 2, r⟩
  else none

/-- Loads, stores and prefetch (06 R128): scope, policy and size in f, or in the memory extension word with f zero (05 R115). -/
def memFn (wide : Bool) (fn ext : Nat) : Option MemFn :=
  if wide then
    if fn = 0 ∧ bits ext 54 48 = 0 then
      (Scope.ofCode (bits ext 63 62)).bind fun s => (Policy.ofCode (bits ext 61 59)).bind fun p =>
        (Fmt.ofCode (bits ext 58 55)).map fun z => ⟨s, p, z⟩
    else none
  else
    (Scope.ofCode (bits fn 8 7)).bind fun s => (Policy.ofCode (bits fn 6 4)).bind fun p =>
      (Fmt.ofCode (bits fn 3 0)).map fun z => ⟨s, p, z⟩

/-- Atomics (06 R129): scope in f[8:7], operation in f[6:4], size in f[3:0]; at 128 bits scope and size come from the extension, whose policy is 0. -/
def atomFn (wide : Bool) (fn ext : Nat) : Option AtomFn :=
  if wide then
    if bits fn 8 7 = 0 ∧ bits fn 3 0 = 0 ∧ bits ext 61 59 = 0 ∧ bits ext 54 48 = 0 then
      (Scope.ofCode (bits ext 63 62)).bind fun s => (AtomOp.ofCode (bits fn 6 4)).bind fun p =>
        (Fmt.ofCode (bits ext 58 55)).map fun z => ⟨s, p, z⟩
    else none
  else
    (Scope.ofCode (bits fn 8 7)).bind fun s => (AtomOp.ofCode (bits fn 6 4)).bind fun p =>
      (Fmt.ofCode (bits fn 3 0)).map fun z => ⟨s, p, z⟩

/-- A scope in f[8:7] with f[6:0] zero (06 R128, R132). -/
def scopeFn (fn : Nat) : Option Scope := if bits fn 6 0 = 0 then Scope.ofCode (bits fn 8 7) else none

/-- The barrier layout (06 R129): level in f[8:7], f[6:0] zero. -/
def levelFn (fn : Nat) : Option Level := if bits fn 6 0 = 0 then Level.ofCode (bits fn 8 7) else none

/-- The matrix extension word (05 R115). -/
def matFn (ext : Nat) : Option MatFn :=
  if bits ext 51 48 = 0 then
    (Planes.ofCode (bits ext 61 60)).bind fun p => (Sparsity.ofCode (bits ext 59 58)).bind fun s =>
      (Fmt.ofCode (bits ext 57 54)).map fun m =>
        ⟨BitVec.ofNat 2 (bits ext 63 62), p, s, m, ext.testBit 53, ext.testBit 52, BitVec.ofNat 16 (bits ext 47 32), BitVec.ofNat 32 (bits ext 31 0)⟩
  else none

/-- The triggered extension word (05 R115): reserved bits zero, done zero without cen. -/
def trigFn (ext : Nat) : Option TrigFn :=
  if bits ext 57 56 = 0 ∧ (ext.testBit 58 ∨ bits ext 43 32 = 0) then
    (TrigKind.ofCode (bits ext 63 61)).bind fun k => (Scope.ofCode (bits ext 60 59)).map fun s =>
      ⟨k, s, ext.testBit 58, BitVec.ofNat 12 (bits ext 55 44), BitVec.ofNat 12 (bits ext 43 32), BitVec.ofNat 32 (bits ext 31 0)⟩
  else none

/-- The instruction that an opcode, a function field, the B code and an extension word stand for, up to its operand fields. -/
def buildOp (op fn bcode ext : Nat) (wide : Bool) : Option (Ops → Instr) :=
  match op with
  | 0x01 => intFn fn |>.map fun f o => .add o f
  | 0x02 => intFn fn |>.map fun f o => .sub o f
  | 0x03 => intFn fn |>.map fun f o => .mul o f
  | 0x04 => intFn fn |>.map fun f o => .mulhi o f
  | 0x05 => intFn fn |>.map fun f o => .mad o f
  | 0x06 => intFn fn |>.map fun f o => .div o f
  | 0x07 => intFn fn |>.map fun f o => .rem o f
  | 0x08 => intFn fn |>.map fun f o => .neg o f
  | 0x09 => intFn fn |>.map fun f o => .abs o f
  | 0x0A => intFn fn |>.map fun f o => .min o f
  | 0x0B => intFn fn |>.map fun f o => .max o f
  | 0x0C => intFn fn |>.map fun f o => .and o f
  | 0x0D => intFn fn |>.map fun f o => .or o f
  | 0x0E => intFn fn |>.map fun f o => .xor o f
  | 0x0F => intFn fn |>.map fun f o => .andn o f
  | 0x10 => intFn fn |>.map fun f o => .shl o f
  | 0x11 => intFn fn |>.map fun f o => .shr o f
  | 0x12 => intFn fn |>.map fun f o => .rol o f
  | 0x13 => intFn fn |>.map fun f o => .popc o f
  | 0x14 => intFn fn |>.map fun f o => .clz o f
  | 0x15 => intFn fn |>.map fun f o => .ctz o f
  | 0x16 => intFn fn |>.map fun f o => .brev o f
  | 0x17 => intFn fn |>.map fun f o => .bfx o f
  | 0x18 => intFn fn |>.map fun f o => .bfi o f
  | 0x19 => (intFn fn).bind fun f => (Cond.ofCode f.sub.toNat).map fun c o => .cmp o f c
  | 0x1A => intFn fn |>.map fun f o => .sel o f
  | 0x1B => intFn fn |>.map fun f o => .mov o f
  | 0x1C => intFn fn |>.map fun f o => .lea o f
  | 0x1D => if bits fn 8 4 = 0 then (PlogOp.ofCode (bits fn 3 0)).map fun p o => .plog o p else none
  | 0x20 => fltFn fn |>.map fun f o => .fadd o f
  | 0x21 => fltFn fn |>.map fun f o => .fsub o f
  | 0x22 => fltFn fn |>.map fun f o => .fmul o f
  | 0x23 => fltFn fn |>.map fun f o => .ffma o f
  | 0x24 => fltFn fn |>.map fun f o => .fmin o f
  | 0x25 => fltFn fn |>.map fun f o => .fmax o f
  | 0x26 => fltFn fn |>.map fun f o => .fabs o f
  | 0x27 => fltFn fn |>.map fun f o => .fneg o f
  | 0x28 => fltFn fn |>.map fun f o => .fcpsgn o f
  | 0x29 => fltFn fn |>.map fun f o => .fdiv o f
  | 0x2A => fltFn fn |>.map fun f o => .fsqrt o f
  | 0x2B => fltFn fn |>.map fun f o => .frcp o f
  | 0x2C => fltFn fn |>.map fun f o => .frsq o f
  | 0x2D => fltFn fn |>.map fun f o => .fexp2 o f
  | 0x2E => fltFn fn |>.map fun f o => .flog2 o f
  | 0x2F => fltFn fn |>.map fun f o => .fsin o f
  | 0x30 => fltFn fn |>.map fun f o => .fcos o f
  | 0x31 => fltFn fn |>.map fun f o => .ftanh o f
  | 0x32 => fcmpFn fn |>.map fun f o => .fcmp o f
  | 0x33 => fltFn fn |>.map fun f o => .frint o f
  | 0x34 => fltFn fn |>.map fun f o => .fclass o f
  | 0x35 => fltFn fn |>.map fun f o => .fscale o f
  | 0x40 => shflFn fn |>.map fun f o => .shfl o f
  | 0x41 => if bits fn 8 4 = 0 ∧ bits fn 2 0 = 0 then some fun o => .bcast o (fn.testBit 3) else none
  | 0x42 => if bits fn 6 0 = 0 then (VoteKind.ofCode (bits fn 8 7)).map fun k o => .vote o k else none
  | 0x43 => redFn fn |>.map fun f o => .sred o f
  | 0x44 => redFn fn |>.map fun f o => .sscan o f
  | 0x54 => cvtFn fn bcode |>.map fun f o => .cvt o f
  | 0x55 => if bits fn 2 0 = 0 then (fltFn fn).map fun f o => .cvtpk o f else none
  | 0x60 => memFn wide fn ext |>.map fun f o => .ld o f
  | 0x61 => memFn wide fn ext |>.map fun f o => .st o f
  | 0x62 => memFn wide fn ext |>.map fun f o => .stRel o f
  | 0x63 => memFn wide fn ext |>.map fun f o => .ldl o f
  | 0x64 => memFn wide fn ext |>.map fun f o => .stl o f
  | 0x65 => memFn wide fn ext |>.map fun f o => .pref o f
  | 0x68 => if fn = 0 then some fun o => .region o else none
  | 0x69 => scopeFn fn |>.map fun f o => .acq o f
  | 0x6A => scopeFn fn |>.map fun f o => .rel o f
  | 0x6B => scopeFn fn |>.map fun f o => .fence o f
  | 0x80 => atomFn wide fn ext |>.map fun f o => .atom o f
  | 0x81 => atomFn wide fn ext |>.map fun f o => .atoml o f
  | 0x82 => atomFn wide fn ext |>.map fun f o => .atoms o f
  | 0x88 => if fn = 0 ∧ (wide = false ∨ bits ext 63 48 = 0) then some fun o => .wmap o else none
  | 0x89 => if fn = 0 then some fun o => .wunmap o else none
  | 0x8A => if fn = 0 then some fun o => .wfill o else none
  | 0x8B => if fn = 0 then some fun o => .wdrain o else none
  | 0x8C => if fn = 0 then some fun o => .wstat o else none
  | 0x90 => levelFn fn |>.map fun f o => .barinit o f
  | 0x91 => levelFn fn |>.map fun f o => .bararv o f
  | 0x92 => levelFn fn |>.map fun f o => .barwait o f
  | 0x93 => levelFn fn |>.map fun f o => .barsync o f
  | 0x94 => if fn = 0 then some fun o => .qcfg o else none
  | 0x95 => if fn = 0 then some fun o => .qpush o else none
  | 0x96 => if fn = 0 then some fun o => .qpop o else none
  | 0x98 => if fn = 0 then some fun o => .copy o else none
  | 0x99 => if fn = 0 then some fun o => .cbseal o else none
  | 0x9A => if fn = 0 then some fun o => .cbwait o else none
  | 0x9B => if fn = 0 then some fun o => .cbpoll o else none
  | 0xA0 => if fn = 0 then (matFn ext).map fun f o => .mald o f else none
  | 0xA1 => if fn = 0 then (matFn ext).map fun f o => .mwld o f else none
  | 0xA2 => if fn = 0 then (matFn ext).map fun f o => .mstrm o f else none
  | 0xA3 => if bits fn 8 1 = 0 then (matFn ext).map fun f o => .macc o (fn.testBit 0) f else none
  | 0xA4 => if fn = 0 then (matFn ext).map fun f o => .mdrn o f else none
  | 0xA5 => if fn = 0 then (matFn ext).map fun f o => .mzero o f else none
  | 0xA6 => if fn = 0 then some fun o => .mqsc o else none
  | 0xA7 => if fn = 0 then (matFn ext).map fun f o => .mwait o f else none
  | 0xA8 => if fn = 0 then some fun o => .mrmap o else none
  | 0xC0 => if fn = 0 then some fun o => .nop o else none
  | 0xC1 => if fn = 0 then some fun o => .bra o else none
  | 0xC2 => if fn = 0 then some fun o => .brx o else none
  | 0xC3 => if fn = 0 then some fun o => .call o else none
  | 0xC4 => if fn = 0 then some fun o => .callx o else none
  | 0xC5 => if fn = 0 then some fun o => .ret o else none
  | 0xC6 => if fn = 0 then some fun o => .exit o else none
  | 0xC7 => if fn = 0 then some fun o => .yield o else none
  | 0xC8 => if bits fn 8 7 = 0 then some fun o => .lpbeg o ⟨BitVec.ofNat 2 (bits fn 6 5), fn.testBit 4, BitVec.ofNat 4 (bits fn 3 0)⟩ else none
  | 0xC9 => if bits fn 8 2 = 0 then some fun o => .lpbrk o (BitVec.ofNat 2 fn) else none
  | 0xCA => if fn = 0 then some fun o => .lpsave o else none
  | 0xCB => if fn = 0 then some fun o => .lprest o else none
  | 0xE0 => if fn = 0 then (trigFn ext).map fun f o => .trigpost o f else none
  | 0xE1 => scopeFn fn |>.map fun f o => .tcadd o f
  | 0xE2 => if fn = 0 then some fun o => .tcrd o else none
  | 0xE3 => if fn = 0 then some fun o => .tcwait o else none
  | 0xE4 => if fn = 0 then some fun o => .tcset o else none
  | 0xE5 => if fn = 0 then some fun o => .trigcan o else none
  | 0xE6 => if fn = 0 then some fun o => .trigprb o else none
  | 0xE8 => if fn = 0 then some fun o => .launch o else none
  | 0xE9 => if fn = 0 then some fun o => .tready o else none
  | 0xEA => if fn = 0 then some fun o => .tdec o else none
  | 0xF0 => if fn = 0 then some fun o => .trap o else none
  | 0xF1 => if fn = 0 then some fun o => .eret o else none
  | 0xF2 => if fn = 0 then some fun o => .bkpt o else none
  | 0xF3 => if fn = 0 then some fun o => .sysrd o else none
  | 0xF4 => if fn = 0 then some fun o => .syswr o else none
  | 0xF5 => if fn = 0 then some fun o => .shootdn o else none
  | 0xF6 => if fn = 0 then some fun o => .cntcfg o else none
  | 0xF7 => if fn = 0 then some fun o => .cntrd o else none
  | _ => none

/-! ### What an instruction's constructor fixes -/

/-- The major opcode of an instruction (06); none for a hardware step. -/
def Instr.opcode : Instr → Option Nat
  | .add _ _ => some 0x01
  | .sub _ _ => some 0x02
  | .mul _ _ => some 0x03
  | .mulhi _ _ => some 0x04
  | .mad _ _ => some 0x05
  | .div _ _ => some 0x06
  | .rem _ _ => some 0x07
  | .neg _ _ => some 0x08
  | .abs _ _ => some 0x09
  | .min _ _ => some 0x0A
  | .max _ _ => some 0x0B
  | .and _ _ => some 0x0C
  | .or _ _ => some 0x0D
  | .xor _ _ => some 0x0E
  | .andn _ _ => some 0x0F
  | .shl _ _ => some 0x10
  | .shr _ _ => some 0x11
  | .rol _ _ => some 0x12
  | .popc _ _ => some 0x13
  | .clz _ _ => some 0x14
  | .ctz _ _ => some 0x15
  | .brev _ _ => some 0x16
  | .bfx _ _ => some 0x17
  | .bfi _ _ => some 0x18
  | .cmp _ _ _ => some 0x19
  | .sel _ _ => some 0x1A
  | .mov _ _ => some 0x1B
  | .lea _ _ => some 0x1C
  | .plog _ _ => some 0x1D
  | .fadd _ _ => some 0x20
  | .fsub _ _ => some 0x21
  | .fmul _ _ => some 0x22
  | .ffma _ _ => some 0x23
  | .fmin _ _ => some 0x24
  | .fmax _ _ => some 0x25
  | .fabs _ _ => some 0x26
  | .fneg _ _ => some 0x27
  | .fcpsgn _ _ => some 0x28
  | .fdiv _ _ => some 0x29
  | .fsqrt _ _ => some 0x2A
  | .frcp _ _ => some 0x2B
  | .frsq _ _ => some 0x2C
  | .fexp2 _ _ => some 0x2D
  | .flog2 _ _ => some 0x2E
  | .fsin _ _ => some 0x2F
  | .fcos _ _ => some 0x30
  | .ftanh _ _ => some 0x31
  | .fcmp _ _ => some 0x32
  | .frint _ _ => some 0x33
  | .fclass _ _ => some 0x34
  | .fscale _ _ => some 0x35
  | .shfl _ _ => some 0x40
  | .bcast _ _ => some 0x41
  | .vote _ _ => some 0x42
  | .sred _ _ => some 0x43
  | .sscan _ _ => some 0x44
  | .cvt _ _ => some 0x54
  | .cvtpk _ _ => some 0x55
  | .ld _ _ => some 0x60
  | .st _ _ => some 0x61
  | .stRel _ _ => some 0x62
  | .ldl _ _ => some 0x63
  | .stl _ _ => some 0x64
  | .pref _ _ => some 0x65
  | .region _ => some 0x68
  | .acq _ _ => some 0x69
  | .rel _ _ => some 0x6A
  | .fence _ _ => some 0x6B
  | .atom _ _ => some 0x80
  | .atoml _ _ => some 0x81
  | .atoms _ _ => some 0x82
  | .wmap _ => some 0x88
  | .wunmap _ => some 0x89
  | .wfill _ => some 0x8A
  | .wdrain _ => some 0x8B
  | .wstat _ => some 0x8C
  | .barinit _ _ => some 0x90
  | .bararv _ _ => some 0x91
  | .barwait _ _ => some 0x92
  | .barsync _ _ => some 0x93
  | .qcfg _ => some 0x94
  | .qpush _ => some 0x95
  | .qpop _ => some 0x96
  | .copy _ => some 0x98
  | .cbseal _ => some 0x99
  | .cbwait _ => some 0x9A
  | .cbpoll _ => some 0x9B
  | .mald _ _ => some 0xA0
  | .mwld _ _ => some 0xA1
  | .mstrm _ _ => some 0xA2
  | .macc _ _ _ => some 0xA3
  | .mdrn _ _ => some 0xA4
  | .mzero _ _ => some 0xA5
  | .mqsc _ => some 0xA6
  | .mwait _ _ => some 0xA7
  | .mrmap _ => some 0xA8
  | .nop _ => some 0xC0
  | .bra _ => some 0xC1
  | .brx _ => some 0xC2
  | .call _ => some 0xC3
  | .callx _ => some 0xC4
  | .ret _ => some 0xC5
  | .exit _ => some 0xC6
  | .yield _ => some 0xC7
  | .lpbeg _ _ => some 0xC8
  | .lpbrk _ _ => some 0xC9
  | .lpsave _ => some 0xCA
  | .lprest _ => some 0xCB
  | .trigpost _ _ => some 0xE0
  | .tcadd _ _ => some 0xE1
  | .tcrd _ => some 0xE2
  | .tcwait _ => some 0xE3
  | .tcset _ => some 0xE4
  | .trigcan _ => some 0xE5
  | .trigprb _ => some 0xE6
  | .launch _ => some 0xE8
  | .tready _ => some 0xE9
  | .tdec _ => some 0xEA
  | .trap _ => some 0xF0
  | .eret _ => some 0xF1
  | .bkpt _ => some 0xF2
  | .sysrd _ => some 0xF3
  | .syswr _ => some 0xF4
  | .shootdn _ => some 0xF5
  | .cntcfg _ => some 0xF6
  | .cntrd _ => some 0xF7
  | _ => none

/-- The operand fields of an instruction; none for a hardware step. -/
def Instr.ops : Instr → Option Ops
  | .add o _ => some o
  | .sub o _ => some o
  | .mul o _ => some o
  | .mulhi o _ => some o
  | .mad o _ => some o
  | .div o _ => some o
  | .rem o _ => some o
  | .neg o _ => some o
  | .abs o _ => some o
  | .min o _ => some o
  | .max o _ => some o
  | .and o _ => some o
  | .or o _ => some o
  | .xor o _ => some o
  | .andn o _ => some o
  | .shl o _ => some o
  | .shr o _ => some o
  | .rol o _ => some o
  | .popc o _ => some o
  | .clz o _ => some o
  | .ctz o _ => some o
  | .brev o _ => some o
  | .bfx o _ => some o
  | .bfi o _ => some o
  | .cmp o _ _ => some o
  | .sel o _ => some o
  | .mov o _ => some o
  | .lea o _ => some o
  | .plog o _ => some o
  | .fadd o _ => some o
  | .fsub o _ => some o
  | .fmul o _ => some o
  | .ffma o _ => some o
  | .fmin o _ => some o
  | .fmax o _ => some o
  | .fabs o _ => some o
  | .fneg o _ => some o
  | .fcpsgn o _ => some o
  | .fdiv o _ => some o
  | .fsqrt o _ => some o
  | .frcp o _ => some o
  | .frsq o _ => some o
  | .fexp2 o _ => some o
  | .flog2 o _ => some o
  | .fsin o _ => some o
  | .fcos o _ => some o
  | .ftanh o _ => some o
  | .fcmp o _ => some o
  | .frint o _ => some o
  | .fclass o _ => some o
  | .fscale o _ => some o
  | .shfl o _ => some o
  | .bcast o _ => some o
  | .vote o _ => some o
  | .sred o _ => some o
  | .sscan o _ => some o
  | .cvt o _ => some o
  | .cvtpk o _ => some o
  | .ld o _ => some o
  | .st o _ => some o
  | .stRel o _ => some o
  | .ldl o _ => some o
  | .stl o _ => some o
  | .pref o _ => some o
  | .region o => some o
  | .acq o _ => some o
  | .rel o _ => some o
  | .fence o _ => some o
  | .atom o _ => some o
  | .atoml o _ => some o
  | .atoms o _ => some o
  | .wmap o => some o
  | .wunmap o => some o
  | .wfill o => some o
  | .wdrain o => some o
  | .wstat o => some o
  | .barinit o _ => some o
  | .bararv o _ => some o
  | .barwait o _ => some o
  | .barsync o _ => some o
  | .qcfg o => some o
  | .qpush o => some o
  | .qpop o => some o
  | .copy o => some o
  | .cbseal o => some o
  | .cbwait o => some o
  | .cbpoll o => some o
  | .mald o _ => some o
  | .mwld o _ => some o
  | .mstrm o _ => some o
  | .macc o _ _ => some o
  | .mdrn o _ => some o
  | .mzero o _ => some o
  | .mqsc o => some o
  | .mwait o _ => some o
  | .mrmap o => some o
  | .nop o => some o
  | .bra o => some o
  | .brx o => some o
  | .call o => some o
  | .callx o => some o
  | .ret o => some o
  | .exit o => some o
  | .yield o => some o
  | .lpbeg o _ => some o
  | .lpbrk o _ => some o
  | .lpsave o => some o
  | .lprest o => some o
  | .trigpost o _ => some o
  | .tcadd o _ => some o
  | .tcrd o => some o
  | .tcwait o => some o
  | .tcset o => some o
  | .trigcan o => some o
  | .trigprb o => some o
  | .launch o => some o
  | .tready o => some o
  | .tdec o => some o
  | .trap o => some o
  | .eret o => some o
  | .bkpt o => some o
  | .sysrd o => some o
  | .syswr o => some o
  | .shootdn o => some o
  | .cntcfg o => some o
  | .cntrd o => some o
  | _ => none

/-- True of the 128-bit forms. -/
def Ops.isWide (o : Ops) : Bool :=
  match o.b with
  | .imm61 _ => true
  | .off48 _ => true
  | .fldOff _ _ => true
  | .imm32 _ => false
  | .fld _ => o.h.long

/-- The length code of 05 R104: 0, 1 or 2. -/
def Ops.lenCode (o : Ops) : Nat :=
  match o.b with
  | .imm32 _ => 1
  | _ => if o.isWide then 2 else 0

/-- The length in bytes (05 R104). -/
def Instr.length (i : Instr) : Nat :=
  match i.ops with
  | some o => 8 + 4 * o.lenCode
  | none => 0

/-- True of the hardware steps. -/
def Instr.isEvent (i : Instr) : Bool := i.opcode.isNone

/-- The row of an instruction with the kinds that depend on its function and extension: D of VOTE (06 R127), B of MDRN (09 R211). -/
def Instr.row (i : Instr) : Option Row :=
  (i.opcode.bind rowOf).map fun r =>
    match i with
    | .vote _ .ballot => { r with d := .reg }
    | .mdrn _ f => if f.bias then r else { r with b := .none }
    | _ => r

/-! ### Check 4: function, reserved bits, immediates (05 R112 to R116) -/

/-- Width in bits of a format (04 R84, R86). -/
def Fmt.width : Fmt → Nat
  | .s8 => 8 | .n8 => 8 | .s16 => 16 | .n16 => 16 | .s32 => 32 | .n32 => 32 | .s64 => 64 | .n64 => 64
  | .f16 => 16 | .bf16 => 16 | .f32 => 32 | .f64 => 64 | .s4 => 4

/-- The eight integer formats, int of 06 R125. -/
def Fmt.isInt : Fmt → Bool
  | .s8 => true | .n8 => true | .s16 => true | .n16 => true | .s32 => true | .n32 => true | .s64 => true | .n64 => true
  | _ => false

/-- The signed integer formats (06 R125). -/
def Fmt.isSigned : Fmt → Bool
  | .s8 => true | .s16 => true | .s32 => true | .s64 => true | .s4 => true
  | _ => false

/-- The four floating-point formats (04 R86). -/
def Fmt.isFloat : Fmt → Bool
  | .f16 => true | .bf16 => true | .f32 => true | .f64 => true
  | _ => false

/-- The formats of 06 R125's sets wide and bits. -/
def Fmt.isWideSet (m : Fmt) : Bool := m = .s32 || m = .n32 || m = .s64 || m = .n64
/-- n32 and n64, which hexas writes as .b32 and .b64. -/
def Fmt.isBits (m : Fmt) : Bool := m = .n32 || m = .n64

/-- An integer-group function: allowed format, sat only where allowed, sub zero. -/
def intOk (f : IntFn) (fmtOk sat : Bool) : Bool := fmtOk && (sat || !f.sat) && f.sub = 0

/-- A floating-point-group function: float format in the allowed set, rounding and packed only where the table says. -/
def fltOk (f : FltFn) (fmtOk rm packed : Bool) : Bool :=
  f.fmt.isFloat && fmtOk && (rm || f.rm = .rne) && (!f.packed || (packed && (f.fmt = .f16 || f.fmt = .bf16)))

/-- SRED and SSCAN (06 R127): formats by operation; rounding only for a floating .add. -/
def redOk (f : RedFn) : Bool :=
  (match f.op with
   | .and => f.fmt.isBits | .or => f.fmt.isBits | .xor => f.fmt.isBits
   | .min => f.fmt.isWideSet || f.fmt = .f32 || f.fmt = .f64
   | .max => f.fmt.isWideSet || f.fmt = .f32 || f.fmt = .f64
   | .add => f.fmt.isWideSet || f.fmt = .f16 || f.fmt = .f32 || f.fmt = .f64)
  && (f.rm = .rne || (f.fmt.isFloat && f.op = .add))

/-- CVT (06 R127): different formats, neither s4; sat only between integers; no rounding between integers or when a float widens.
Between f16 and bf16 neither is wider (04 R90): the conversion rounds, in any mode (log 86). -/
def cvtOk (f : CvtFn) : Bool :=
  f.tgt ≠ .s4 && f.src ≠ .s4 && f.tgt ≠ f.src && (!f.sat || (f.tgt.isInt && f.src.isInt)) &&
  (f.rm = .rne || !((f.tgt.isInt && f.src.isInt) || (f.tgt.isFloat && f.src.isFloat && f.src.width < f.tgt.width)))

/-- Sizes of an atomic (06 R129): four integer sizes; f32 and f64 with .add, .min, .max only. -/
def atomOk (f : AtomFn) : Bool :=
  f.size.isWideSet || ((f.size = .f32 || f.size = .f64) && (f.op = .add || f.op = .min || f.op = .max))

/-- The fields of a matrix extension word that an instruction names may be set; every other one is 0 (06 R130). -/
def matOk (f : MatFn) (acc planes fmt drain rows offset : Bool) : Bool :=
  (acc || f.acc = 0) && (planes || (f.planes = .tern && f.structure' = .dense)) && (fmt || f.fmt = .s8) &&
  (drain || (!f.bias && !f.relu)) && (rows || f.rows = 0) && (offset || f.offset = 0)

/-- The function-field and extension-field part of check 4 of 05 R116, instruction by instruction (06 R125 to R132). -/
def Instr.fnOk : Instr → Bool
  | .add _ f => intOk f f.fmt.isInt true
  | .sub _ f => intOk f f.fmt.isInt true
  | .mul _ f => intOk f f.fmt.isInt true
  | .mulhi _ f => intOk f f.fmt.isInt false
  | .mad _ f => intOk f f.fmt.isInt true
  | .div _ f => intOk f f.fmt.isInt false
  | .rem _ f => intOk f f.fmt.isInt false
  | .neg _ f => intOk f (f.fmt.isInt && f.fmt.isSigned) true
  | .abs _ f => intOk f (f.fmt.isInt && f.fmt.isSigned) true
  | .min _ f => intOk f f.fmt.isInt false
  | .max _ f => intOk f f.fmt.isInt false
  | .and _ f => intOk f f.fmt.isBits false
  | .or _ f => intOk f f.fmt.isBits false
  | .xor _ f => intOk f f.fmt.isBits false
  | .andn _ f => intOk f f.fmt.isBits false
  | .shl _ f => intOk f f.fmt.isWideSet true
  | .shr _ f => intOk f f.fmt.isWideSet false
  | .rol _ f => intOk f f.fmt.isBits false
  | .popc _ f => intOk f f.fmt.isBits false
  | .clz _ f => intOk f f.fmt.isBits false
  | .ctz _ f => intOk f f.fmt.isBits false
  | .brev _ f => intOk f f.fmt.isBits false
  | .bfx _ f => intOk f f.fmt.isWideSet false
  | .bfi _ f => intOk f f.fmt.isBits false
  | .cmp _ f c => f.fmt.isInt && !f.sat && f.sub = BitVec.ofNat 4 c.code
  | .sel _ f => intOk f f.fmt.isBits false
  | .mov _ f => intOk f f.fmt.isBits false
  | .lea _ f => (f.fmt = .s32 || f.fmt = .s64) && !f.sat
  | .fadd _ f => fltOk f true true true
  | .fsub _ f => fltOk f true true true
  | .fmul _ f => fltOk f true true true
  | .ffma _ f => fltOk f true true true
  | .fmin _ f => fltOk f true false true
  | .fmax _ f => fltOk f true false true
  | .fabs _ f => fltOk f true false true
  | .fneg _ f => fltOk f true false true
  | .fcpsgn _ f => fltOk f true false true
  | .fdiv _ f => fltOk f (f.fmt = .f32 || f.fmt = .f64) true false
  | .fsqrt _ f => fltOk f (f.fmt = .f32 || f.fmt = .f64) true false
  | .frcp _ f => fltOk f (f.fmt = .f16 || f.fmt = .f32) false false
  | .frsq _ f => fltOk f (f.fmt = .f16 || f.fmt = .f32) false false
  | .fexp2 _ f => fltOk f (f.fmt = .f16 || f.fmt = .f32) false false
  | .flog2 _ f => fltOk f (f.fmt = .f16 || f.fmt = .f32) false false
  | .fsin _ f => fltOk f (f.fmt = .f16 || f.fmt = .f32) false false
  | .fcos _ f => fltOk f (f.fmt = .f16 || f.fmt = .f32) false false
  | .ftanh _ f => fltOk f (f.fmt = .f16 || f.fmt = .f32) false false
  | .fcmp _ f => f.fmt.isFloat
  | .frint _ f => fltOk f true true true
  | .fclass _ f => fltOk f true false false
  | .fscale _ f => fltOk f true true false
  | .shfl _ f => f.seg ≠ 7
  | .sred _ f => redOk f
  | .sscan _ f => redOk f
  | .cvt _ f => cvtOk f
  | .cvtpk _ f => fltOk f (f.fmt = .f16 || f.fmt = .bf16) true false
  | .ld _ f => f.size ≠ .s4
  | .st _ f => f.size ≠ .s4
  | .stRel _ f => f.size ≠ .s4
  | .ldl _ f => f.size ≠ .s4 && f.scope = .grp && f.policy = .all
  | .stl _ f => f.size ≠ .s4 && f.scope = .grp && f.policy = .all
  | .pref _ f => f.size = .s8
  | .atom _ f => atomOk f
  | .atoml _ f => atomOk f
  | .atoms _ f => atomOk f && f.scope = .grp
  | .mald _ f => matOk f false false false false false true
  | .mwld _ f => matOk f false true false false false true
  | .mstrm _ f => matOk f true false true false true true && (f.fmt = .s8 || f.fmt = .s4)
  | .macc _ _ f => matOk f true false false false false false
  | .mdrn _ f => matOk f true false true true true true &&
      (f.fmt = .f32 || f.fmt = .bf16 || f.fmt = .f16 || f.fmt = .s32 || f.fmt = .s8)
  | .mzero _ f => matOk f true false false false false false
  | .mwait _ f => matOk f true false false false false false
  | .lpbeg _ f => f.stages ≤ 8 && f.len ≠ 3
  | .trigpost _ f => f.cen || f.done = 0
  | _ => true

/-- The immediate's part of check 4 (05 R113, R114, R117, 09 R218): a half-precision scalar keeps its upper bits zero, a float in imm61
has bits [60:32] zero, a branch offset has bits [1:0] zero, NOP's imm32 is zero and NOP's guard, gneg, chain, wbs and latch are 0,
which R117 asks and for which R116 names no check (log 84). -/
def Instr.immOk (i : Instr) : Bool :=
  let flt (f : FltFn) (b : Src) : Bool :=
    match b with
    | .imm32 v => (f.fmt ≠ .f16 && f.fmt ≠ .bf16) || f.packed || v.toNat < 2 ^ 16
    | .imm61 v => if (f.fmt = .f16 || f.fmt = .bf16) && !f.packed then v.toNat < 2 ^ 16 else v.toNat < 2 ^ 32
    | _ => true
  let offs (b : Src) : Bool :=
    match b with
    | .imm32 v => v.toNat % 4 = 0
    | .imm61 v => v.toNat % 4 = 0
    | _ => false
  match i with
  | .fadd o f => flt f o.b
  | .fsub o f => flt f o.b
  | .fmul o f => flt f o.b
  | .ffma o f => flt f o.b
  | .fmin o f => flt f o.b
  | .fmax o f => flt f o.b
  | .fcpsgn o f => flt f o.b
  | .fdiv o f => flt f o.b
  | .fcmp o f => flt ⟨f.fmt, .rne, false⟩ o.b
  | .bra o => offs o.b
  | .call o => offs o.b
  | .lpbeg o _ => offs o.b
  | .nop o => (match o.b with | .imm32 v => v = 0 | .fld _ => true | _ => false) &&
      o.h.guard = 0 && !o.h.gneg && !o.h.chain && !o.h.wbs && o.h.latch = 0
  | _ => true

/-! ### Check 5: operand fields (05 R110, R111, 01 R25) -/

/-- True of the instructions whose result has a variable latency (01 R28): memory, window, atomic, barrier, queue, copy, matrix, control,
triggered, task, launch and system. On these the latch field, a latch destination and wbs are illegal (01 R25, 05 R111, 09 R217). -/
def variableLatency (op : Nat) : Bool := 0x60 ≤ op

/-- A field holds what its kind allows. -/
def Kind.okFld : Kind → Fld → Bool
  | .reg, .pred _ => false
  | .reg, _ => true
  | .pred, .pred _ => true
  | .pred, _ => false
  | .konst, f => f = .zero
  | .none, f => f = .zero

/-- True of a v or k field. -/
def Fld.isVK : Fld → Bool
  | .v _ => true
  | .k _ => true
  | _ => false

/-- True of a latch field. -/
def Fld.isLatch : Fld → Bool
  | .b _ => true
  | _ => false

/-- Check 5 of 05 R116: each field valid for its kind, 324 in unused fields, and the latch rules of 01 R25 and 05 R111. The six-register
operands of COPY and SHOOTDN and TRIGPOST's A, and the D of MRMAP and of VOTE.ballot, name v or k registers (log 11). -/
def Instr.operOk (i : Instr) : Bool :=
  match i.opcode, i.row, i.ops with
  | some op, some r, some o =>
    r.d.okFld o.d && r.a.okFld o.a && r.c.okFld o.c &&
    (match o.b with | .fld f => r.b.okFld f | .fldOff f _ => r.b.okFld f | _ => true) &&
    (if variableLatency op then o.h.latch = 0 && !o.h.wbs && !o.d.isLatch
     else !o.d.isLatch || (o.h.latch = 0 && !o.h.wbs)) &&
    (match i with
     | .vote _ .ballot => o.d.isVK
     | .mrmap _ => o.d.isVK
     | .copy _ => o.a.isVK
     | .shootdn _ => o.a.isVK
     | .trigpost _ _ => (match o.a with | .v _ => true | _ => false)
     | _ => true)
  | _, _, _ => false

/-- The length and extension forms an instruction may take (06, 05 R112, R114, R115): the length allowed by its row, an immediate only where
the row names one, the offset form only with a memory extension word, no long form beside imm32. -/
def Instr.lenOk (i : Instr) : Bool :=
  match i.row, i.ops with
  | some r, some o =>
    (match o.lenCode with | 0 => r.l64 | 1 => r.l96 | _ => r.l128) &&
    (match o.b with
     | .fld _ => !(o.h.long && r.ext = .memory) && (!o.h.long || r.l64 || !r.imm)
     | .imm32 _ => !o.h.long && (r.imm || (match i with | .nop _ => true | _ => false))
     | .imm61 _ => !o.h.long && r.imm && r.ext = .generic
     | .off48 _ => !o.h.long && r.ext = .memory && r.imm
     | .fldOff _ _ => !o.h.long && r.ext = .memory && !r.imm)
  | _, _ => false

/-! ### Decoding -/

/-- What the decoder answers: the instruction, or the number of the first failing check of 05 R116. -/
inductive Decoded
  | ok (i : Instr)
  | bad (check : Nat)
  deriving DecidableEq, Repr

/-- The header fields of a base word (05 R108). -/
def hdrOf (w : Nat) (long : Bool) : Hdr :=
  ⟨BitVec.ofNat 4 (bits w 13 10), w.testBit 14, w.testBit 15, w.testBit 16, BitVec.ofNat 2 (bits w 18 17), long⟩

/-- Source B before its code is read: the immediate or offset that stands in its place, or none; outer none where check 4 fails (05 R112, R114, R115). -/
def immOf (r : Row) (op w : Nat) : Option (Option Src) :=
  let bcode := bits w 45 37
  match w % 4 with
  | 0 => some none
  | 1 =>
    if r.imm then (if bcode = 324 then some (some (.imm32 (BitVec.ofNat 32 (bits w 95 64)))) else none)
    else if op = 0xC0 ∧ bits w 95 64 = 0 then some (some (.imm32 0)) else none
  | _ =>
    let ext := bits w 127 64
    match r.ext with
    | .memory =>
      if r.imm ∧ bcode ≠ 324 then none else some (some (.off48 (BitVec.ofNat 48 (bits ext 47 0))))
    | .generic =>
      if bits ext 62 61 ≠ 0 then none
      else if ext.testBit 63 then
        (if r.imm ∧ bcode = 324 then some (some (.imm61 (BitVec.ofNat 61 (bits ext 60 0)))) else none)
      else if bits ext 60 0 = 0 ∧ (r.l64 ∨ ¬ r.imm) then some none else none
    | _ => some none

/-- The operand fields of a word, read at their kinds (check 5). A 128-bit WMAP keeps its B register beside the extension's offset. -/
def opsOf (r : Row) (w : Nat) (imm : Option Src) (h : Hdr) : Option Ops :=
  (Fld.ofCode r.d (bits w 27 19)).bind fun d => (Fld.ofCode r.a (bits w 36 28)).bind fun a =>
    (Fld.ofCode r.c (bits w 54 46)).bind fun c =>
      match imm with
      | some (.off48 v) =>
        if r.imm then some ⟨h, d, a, .off48 v, c⟩
        else (Fld.ofCode r.b (bits w 45 37)).map fun b => ⟨h, d, a, .fldOff b v, c⟩
      | some s => if bits w 45 37 = 324 then some ⟨h, d, a, s, c⟩ else none
      | none => (Fld.ofCode r.b (bits w 45 37)).map fun b => ⟨h, d, a, .fld b, c⟩

/-- Decoding of a whole instruction whose bits are w (at most 128, numbered as 05 R104 numbers them) and whose length code w mod 4 is 0, 1 or 2.
Checks 3, 4 and 5 of 05 R116 in their order. -/
def decode (w : Nat) : Decoded :=
  let op := bits w 9 2
  match rowOf op with
  | none => .bad 3
  | some r =>
    let len := w % 4
    if !(match len with | 0 => r.l64 | 1 => r.l96 | 2 => r.l128 | _ => false) then .bad 3
    else
      let ext := bits w 127 64
      match buildOp op (bits w 63 55) (bits w 45 37) ext (len = 2), immOf r op w with
      | some mk, some imm =>
        let h := hdrOf w (len = 2 && imm.isNone)
        let i0 := mk ⟨h, .zero, .zero, imm.getD (.fld .zero), .zero⟩
        if !(i0.fnOk && (i0.immOk)) then .bad 4
        else
          match opsOf ((i0.row).getD r) w imm h with
          | none => .bad 5
          | some o => if (mk o).operOk then .ok (mk o) else .bad 5
      | _, _ => .bad 4

/-! ### Encoding -/

/-- f of the integer group (07: format x 32 + sat x 16 + sub). -/
def intBits (f : IntFn) : Nat := f.fmt.code * 32 + f.sat.toNat * 16 + f.sub.toNat
/-- f of the floating-point group (06 R126). -/
def fltBits (f : FltFn) : Nat := f.fmt.code * 32 + f.rm.code * 8 + f.packed.toNat * 4
/-- The memory extension word without its offset (05 R115). -/
def memExt (s : Scope) (p : Policy) (z : Fmt) : Nat := s.code * 2 ^ 62 + p.code * 2 ^ 59 + z.code * 2 ^ 55
/-- The matrix extension word (05 R115). -/
def matExt (f : MatFn) : Nat :=
  f.acc.toNat * 2 ^ 62 + f.planes.code * 2 ^ 60 + f.structure'.code * 2 ^ 58 + f.fmt.code * 2 ^ 54 + f.bias.toNat * 2 ^ 53 +
  f.relu.toNat * 2 ^ 52 + f.rows.toNat * 2 ^ 32 + f.offset.toNat
/-- The triggered extension word (05 R115). -/
def trigExt (f : TrigFn) : Nat :=
  f.kind.code * 2 ^ 61 + f.scope.code * 2 ^ 59 + f.cen.toNat * 2 ^ 58 + f.trigger.toNat * 2 ^ 44 + f.done.toNat * 2 ^ 32 + f.threshold.toNat

/-- The function field of an instruction. -/
def Instr.fnBits : Instr → Nat
  | .add _ f => intBits f
  | .sub _ f => intBits f
  | .mul _ f => intBits f
  | .mulhi _ f => intBits f
  | .mad _ f => intBits f
  | .div _ f => intBits f
  | .rem _ f => intBits f
  | .neg _ f => intBits f
  | .abs _ f => intBits f
  | .min _ f => intBits f
  | .max _ f => intBits f
  | .and _ f => intBits f
  | .or _ f => intBits f
  | .xor _ f => intBits f
  | .andn _ f => intBits f
  | .shl _ f => intBits f
  | .shr _ f => intBits f
  | .rol _ f => intBits f
  | .popc _ f => intBits f
  | .clz _ f => intBits f
  | .ctz _ f => intBits f
  | .brev _ f => intBits f
  | .bfx _ f => intBits f
  | .bfi _ f => intBits f
  | .cmp _ f c => intBits { f with sub := BitVec.ofNat 4 c.code }
  | .sel _ f => intBits f
  | .mov _ f => intBits f
  | .lea _ f => intBits f
  | .plog _ p => p.code
  | .fadd _ f => fltBits f
  | .fsub _ f => fltBits f
  | .fmul _ f => fltBits f
  | .ffma _ f => fltBits f
  | .fmin _ f => fltBits f
  | .fmax _ f => fltBits f
  | .fabs _ f => fltBits f
  | .fneg _ f => fltBits f
  | .fcpsgn _ f => fltBits f
  | .fdiv _ f => fltBits f
  | .fsqrt _ f => fltBits f
  | .frcp _ f => fltBits f
  | .frsq _ f => fltBits f
  | .fexp2 _ f => fltBits f
  | .flog2 _ f => fltBits f
  | .fsin _ f => fltBits f
  | .fcos _ f => fltBits f
  | .ftanh _ f => fltBits f
  | .fcmp _ f => f.fmt.code * 32 + f.cond.code * 4
  | .frint _ f => fltBits f
  | .fclass _ f => fltBits f
  | .fscale _ f => fltBits f
  | .shfl _ f => f.mode.code * 128 + f.seg.toNat * 16 + f.wide.toNat * 8
  | .bcast _ w => w.toNat * 8
  | .vote _ k => k.code * 128
  | .sred _ f => f.fmt.code * 32 + f.op.code * 4 + f.rm.code
  | .sscan _ f => f.fmt.code * 32 + f.op.code * 4 + f.rm.code
  | .cvt _ f => f.tgt.code * 32 + f.rm.code * 8 + f.sat.toNat * 4
  | .cvtpk _ f => fltBits f
  | .ld o f => if o.isWide then 0 else f.scope.code * 128 + f.policy.code * 16 + f.size.code
  | .st o f => if o.isWide then 0 else f.scope.code * 128 + f.policy.code * 16 + f.size.code
  | .stRel o f => if o.isWide then 0 else f.scope.code * 128 + f.policy.code * 16 + f.size.code
  | .ldl o f => if o.isWide then 0 else f.scope.code * 128 + f.policy.code * 16 + f.size.code
  | .stl o f => if o.isWide then 0 else f.scope.code * 128 + f.policy.code * 16 + f.size.code
  | .pref o f => if o.isWide then 0 else f.scope.code * 128 + f.policy.code * 16 + f.size.code
  | .acq _ s => s.code * 128
  | .rel _ s => s.code * 128
  | .fence _ s => s.code * 128
  | .atom o f => if o.isWide then f.op.code * 16 else f.scope.code * 128 + f.op.code * 16 + f.size.code
  | .atoml o f => if o.isWide then f.op.code * 16 else f.scope.code * 128 + f.op.code * 16 + f.size.code
  | .atoms o f => if o.isWide then f.op.code * 16 else f.scope.code * 128 + f.op.code * 16 + f.size.code
  | .barinit _ l => l.code * 128
  | .bararv _ l => l.code * 128
  | .barwait _ l => l.code * 128
  | .barsync _ l => l.code * 128
  | .macc _ n _ => n.toNat
  | .lpbeg _ f => f.len.toNat * 32 + f.rotate.toNat * 16 + f.stages.toNat
  | .lpbrk _ d => d.toNat
  | .tcadd _ s => s.code * 128
  | _ => 0

/-- The extension word that an instruction's function takes in its 128-bit form, apart from immediate and offset. -/
def Instr.extBits : Instr → Nat
  | .ld _ f => memExt f.scope f.policy f.size
  | .st _ f => memExt f.scope f.policy f.size
  | .stRel _ f => memExt f.scope f.policy f.size
  | .ldl _ f => memExt f.scope f.policy f.size
  | .stl _ f => memExt f.scope f.policy f.size
  | .pref _ f => memExt f.scope f.policy f.size
  | .atom _ f => memExt f.scope .all f.size
  | .atoml _ f => memExt f.scope .all f.size
  | .atoms _ f => memExt f.scope .all f.size
  | .mald _ f => matExt f
  | .mwld _ f => matExt f
  | .mstrm _ f => matExt f
  | .macc _ _ f => matExt f
  | .mdrn _ f => matExt f
  | .mzero _ f => matExt f
  | .mwait _ f => matExt f
  | .trigpost _ f => trigExt f
  | _ => 0

/-- The code in the B field: the register's, CVT's source format, or 324 where an immediate stands in its place. -/
def Instr.bCode (i : Instr) (o : Ops) : Nat :=
  match i with
  | .cvt _ f => f.src.code
  | _ => match o.b with | .fld f => f.code | .fldOff f _ => f.code | _ => 324

/-- The bits of an instruction (05 R108 and the extension words); 0 for a hardware step, which has none. -/
def encode (i : Instr) : Nat :=
  match i.opcode, i.ops with
  | some op, some o =>
    let base := o.lenCode + op * 2 ^ 2 + o.h.guard.toNat * 2 ^ 10 + o.h.gneg.toNat * 2 ^ 14 + o.h.chain.toNat * 2 ^ 15 +
      o.h.wbs.toNat * 2 ^ 16 + o.h.latch.toNat * 2 ^ 17 + o.d.code * 2 ^ 19 + o.a.code * 2 ^ 28 + i.bCode o * 2 ^ 37 +
      o.c.code * 2 ^ 46 + i.fnBits * 2 ^ 55
    let upper :=
      match o.b with
      | .imm32 v => v.toNat
      | .imm61 v => 2 ^ 63 + v.toNat
      | .off48 v => i.extBits + v.toNat
      | .fldOff _ v => i.extBits + v.toNat
      | .fld _ => if o.h.long then i.extBits else 0
    base + upper * 2 ^ 64
  | _, _ => 0

/-- The instruction that the host's word stands for: the bits above nbits are 0, and the words lie as the hardware stores them
(little-endian, 05 R104), so bit n of the instruction is bit n of w. -/
def decodeTableWord (nbits w : Nat) : Option Instr :=
  let x := w % 2 ^ nbits % 2 ^ 128
  if x % 4 = 3 then none
  else
    match decode (x % 2 ^ (64 + 32 * (x % 4))) with
    | .ok i => some i
    | .bad _ => none

end Sys2Proof
end

