-- ==== Sys2Proof/Machine/Num.lean ====
section
/-! DEFINITION. Exact arithmetic and number formats (04 R84 to R103): the helpers of R85 under their own names, the floating-point
formats, rounding, the transcendental functions, trits and Tilth blocks. A real is a sign and a quotient of natural numbers. -/

namespace Sys2Proof.Machine

/-! ### Integers (R84, R85) -/

/-- sat8 to sat64 of R85: x clamped to the signed range of n bits. -/
def sat (x : Int) (n : Nat) : Int := max (-(2 ^ (n - 1) : Int)) (min x (2 ^ (n - 1) - 1))
/-- satn8 to satn64 of R85: x clamped to the natural range of n bits. -/
def satn (x : Int) (n : Nat) : Int := max 0 (min x (2 ^ n - 1))
/-- The n low bits of an integer as a natural number: what a register of n bits holds of it. -/
def lowBits (x : Int) (n : Nat) : Nat := (x % (2 ^ n : Int)).toNat
/-- fit(r, f, sat) of R85, for an integer format f. -/
def fit (r : Int) (f : Fmt) (s : Bool) : Int :=
  match f.isSigned, s with
  | true, true => sat r f.width
  | true, false => sext r f.width
  | false, true => satn r f.width
  | false, false => zext r f.width
/-- An operand of an integer format (R134): sext for signed formats, zext for natural ones. -/
def readInt (f : Fmt) (x : Nat) : Int := if f.isSigned then sext x f.width else zext x f.width
/-- satw(x, w) of R85. -/
def satw (x : Int) (w : Nat) : Int := sat x w
/-- exit(end, len) of R85. -/
def exitPc (e len : Nat) : Nat := e * 4 + 8 + 4 * len
/-- max_mod(a, b) of R85. -/
def maxMod (a b : Nat) : Nat := if (b + 2 ^ 16 - a) % 2 ^ 16 < 2 ^ 15 then b else a

/-! ### Floating-point formats (R86) -/

/-- Exponent width of a float format. -/
def Fmt.expBits : Fmt → Nat
  | .f16 => 5 | .bf16 => 8 | .f32 => 8 | .f64 => 11 | _ => 8
/-- Fraction width of a float format. -/
def Fmt.fracBits : Fmt → Nat
  | .f16 => 10 | .bf16 => 7 | .f32 => 23 | .f64 => 52 | _ => 23
/-- Exponent bias. -/
def Fmt.bias (f : Fmt) : Nat := 2 ^ (Fmt.expBits f - 1) - 1
/-- Bit pattern of +inf. -/
def Fmt.infBits (f : Fmt) : Nat := (2 ^ Fmt.expBits f - 1) * 2 ^ Fmt.fracBits f
/-- The sign bit's weight. -/
def Fmt.signBit (f : Fmt) : Nat := 2 ^ (Fmt.expBits f + Fmt.fracBits f)
/-- cnan(f) of R85: the canonical NaN (R86). -/
def cnan (f : Fmt) : Nat := Fmt.infBits f + 2 ^ (Fmt.fracBits f - 1)
/-- The exponent of the smallest spacing: emin - p + 1. -/
def Fmt.kmin (f : Fmt) : Int := 1 - (Fmt.bias f : Int) - (Fmt.fracBits f : Int)

/-- A value: NaN, an infinity, or a signed finite real num/den (a zero keeps its sign). -/
inductive Val
  | nan
  | inf (neg : Bool)
  | fin (neg : Bool) (num den : Nat)
  deriving DecidableEq, Repr, Inhabited

/-- num/den times 2^k, as a numerator and a denominator. -/
def scale2 (num den : Nat) (k : Int) : Nat × Nat :=
  match k with
  | .ofNat n => (num * 2 ^ n, den)
  | .negSucc n => (num, den * 2 ^ (n + 1))

/-- val(b, f) of R85. -/
def val (b : Nat) (f : Fmt) : Val :=
  let neg := b / Fmt.signBit f % 2 = 1
  let e := b / 2 ^ Fmt.fracBits f % 2 ^ Fmt.expBits f
  let m := b % 2 ^ Fmt.fracBits f
  if e = 2 ^ Fmt.expBits f - 1 then (if m = 0 then .inf neg else .nan)
  else if e = 0 then
    let s := scale2 m 1 (Fmt.kmin f); .fin neg s.1 s.2
  else
    let s := scale2 (m + 2 ^ Fmt.fracBits f) 1 (Fmt.kmin f + e - 1); .fin neg s.1 s.2

/-- The rounding of a magnitude num/den to an integer under mode m (R87), with the sign of the value. -/
def rintMag (neg : Bool) (num den : Nat) (m : Rm) : Nat :=
  let q := num / den
  let r := num % den
  let up : Bool :=
    match m with
    | .rne => decide (2 * r > den) || (decide (2 * r = den) && decide (q % 2 = 1))
    | .rtz => false
    | .rup => decide (r > 0) && !neg
    | .rdn => decide (r > 0) && neg
  q + up.toNat

/-- rint(x, m) of R85 for a finite value. -/
def rint (neg : Bool) (num den : Nat) (m : Rm) : Int :=
  if neg then -(rintMag neg num den m : Int) else rintMag neg num den m

/-- floor(log2(num/den)) for a non-zero num. -/
def floorLog2 (num den : Nat) : Int :=
  let l : Int := (Nat.log2 num : Int) - (Nat.log2 den : Int)
  let s := scale2 den 1 l
  if num * s.2 ≥ s.1 then l else l - 1

/-- The exponent of the spacing q of R87 near num/den. -/
def spacing (f : Fmt) (num den : Nat) : Int := max (floorLog2 num den - Fmt.fracBits f) (Fmt.kmin f)

/-- rnd(x, f, m) of R85 and R87, as a bit pattern. The pattern of y x 2^k is (k - kmin) x 2^fracBits + y, for normal and subnormal alike. -/
def rnd (v : Val) (f : Fmt) (m : Rm) : Nat :=
  match v with
  | .nan => cnan f
  | .inf neg => neg.toNat * Fmt.signBit f + Fmt.infBits f
  | .fin neg num den =>
    let s := neg.toNat * Fmt.signBit f
    if num = 0 then s
    else
      let k := spacing f num den
      let x := scale2 num den (-k)
      let y := rintMag neg x.1 x.2 m
      let b := (k - Fmt.kmin f).toNat * 2 ^ Fmt.fracBits f + y
      if b ≥ Fmt.infBits f then
        (if m = .rne ∨ (m = .rup ∧ neg = false) ∨ (m = .rdn ∧ neg = true) then s + Fmt.infBits f else s + (Fmt.infBits f - 1))
      else s + b

/-! ### Exact operations on values (R88, R148) -/

/-- -x, on the value. -/
def Val.neg : Val → Val
  | .nan => .nan
  | .inf s => .inf !s
  | .fin s n d => .fin (!s) n d

/-- x + y exactly; an exact zero takes its sign from R87 and R148. -/
def Val.add (m : Rm) : Val → Val → Val
  | .nan, _ => .nan
  | _, .nan => .nan
  | .inf a, .inf b => if a = b then .inf a else .nan
  | .inf a, .fin _ _ _ => .inf a
  | .fin _ _ _, .inf b => .inf b
  | .fin sa na da, .fin sb nb db =>
    let x := na * db
    let y := nb * da
    if sa = sb then .fin sa (x + y) (da * db)
    else if x > y then .fin sa (x - y) (da * db)
    else if y > x then .fin sb (y - x) (da * db)
    else .fin (decide (m = .rdn)) 0 1

/-- x times y exactly. -/
def Val.mul : Val → Val → Val
  | .nan, _ => .nan
  | _, .nan => .nan
  | .inf a, .inf b => .inf (a ^^ b)
  | .inf a, .fin b n _ => if n = 0 then .nan else .inf (a ^^ b)
  | .fin a n _, .inf b => if n = 0 then .nan else .inf (a ^^ b)
  | .fin sa na da, .fin sb nb db => .fin (sa ^^ sb) (na * nb) (da * db)

/-- x divided by y exactly. -/
def Val.div : Val → Val → Val
  | .nan, _ => .nan
  | _, .nan => .nan
  | .inf _, .inf _ => .nan
  | .inf a, .fin b _ _ => .inf (a ^^ b)
  | .fin a _ _, .inf b => .fin (a ^^ b) 0 1
  | .fin sa na da, .fin sb nb db =>
    if nb = 0 then (if na = 0 then .nan else .inf (sa ^^ sb)) else .fin (sa ^^ sb) (na * db) (da * nb)

/-- x times 2^b; b is taken between -5000 and 5000, beyond which every rounding into a format gives the same result. -/
def Val.scale (v : Val) (b : Int) : Val :=
  match v with
  | .fin s n d => let x := scale2 n d (max (-5000) (min b 5000)); .fin s x.1 x.2
  | x => x

/-- The integer square root, bit by bit from bit i down. -/
def isqrtFrom : Nat → Nat → Nat → Nat
  | 0, n, r => if (r + 1) * (r + 1) ≤ n then r + 1 else r
  | i + 1, n, r => isqrtFrom i n (if (r + 2 ^ (i + 1)) * (r + 2 ^ (i + 1)) ≤ n then r + 2 ^ (i + 1) else r)

/-- floor of the square root. -/
def isqrt (n : Nat) : Nat := isqrtFrom (Nat.log2 n / 2 + 1) n 0

/-- A value whose rounding into every format of R86 is the rounding of the square root of num/den: the root to 200 further bits, moved half a
unit up when it is not exact. -/
def sqrtMag (num den : Nat) : Nat × Nat :=
  let t := Nat.log2 den + 200
  let n := num * 4 ^ t / den
  let r := isqrt n
  if num * 4 ^ t % den = 0 ∧ r * r = n then (r, 2 ^ t) else (2 * r + 1, 2 ^ (t + 1))

/-- The square root of a value (R88, R148). -/
def Val.sqrt : Val → Val
  | .nan => .nan
  | .inf s => if s then .nan else .inf false
  | .fin s n d => if n = 0 then .fin s 0 1 else if s then .nan else let r := sqrtMag n d; .fin false r.1 r.2

/-- x < y; -0 and +0 are equal. False with a NaN. -/
def Val.lt : Val → Val → Bool
  | .nan, _ => false
  | _, .nan => false
  | .inf a, .inf b => a && !b
  | .inf a, .fin _ _ _ => a
  | .fin _ _ _, .inf b => !b
  | .fin sa na da, .fin sb nb db =>
    let x : Int := if sa then -(na * db : Nat) else (na * db : Nat)
    let y : Int := if sb then -(nb * da : Nat) else (nb * da : Nat)
    decide (x < y)

/-- x = y as reals. False with a NaN. -/
def Val.eq (x y : Val) : Bool :=
  match x, y with
  | .nan, _ => false
  | _, .nan => false
  | _, _ => !x.lt y && !y.lt x

/-- True of a NaN. -/
def Val.isNan : Val → Bool
  | .nan => true
  | _ => false

/-- True of a negative sign. -/
def Val.signOf : Val → Bool
  | .nan => false
  | .inf s => s
  | .fin s _ _ => s

/-- The order of maxnum and minnum: as the reals, with -0 below +0 (R89). -/
def Val.below (x y : Val) : Bool := x.lt y || (x.eq y && x.signOf && !y.signOf)

/-- maxnum of R89, on bit patterns. -/
def maxnum (f : Fmt) (a b : Nat) : Nat :=
  match val a f, val b f with
  | .nan, .nan => cnan f
  | .nan, _ => b
  | _, .nan => a
  | x, y => if x.below y then b else a
/-- minnum of R89, on bit patterns. -/
def minnum (f : Fmt) (a b : Nat) : Nat :=
  match val a f, val b f with
  | .nan, .nan => cnan f
  | .nan, _ => b
  | _, .nan => a
  | x, y => if y.below x then b else a

/-- fma32 and fma64 of R85, in format f: one rounding, to nearest even. -/
def fma (f : Fmt) (a b c : Val) : Nat := rnd ((a.mul b).add .rne c) f .rne

/-- float(i) of R85. -/
def ofInt (i : Int) : Val := .fin (decide (i < 0)) i.natAbs 1

/-- A float converted to an integer format (R90): NaN gives 0, infinities saturate. -/
def toIntSat (v : Val) (f : Fmt) (m : Rm) : Int :=
  let lim : Int → Int := fun x => if f.isSigned then sat x f.width else satn x f.width
  match v with
  | .nan => 0
  | .inf s => lim (if s then -(2 ^ 70 : Int) else 2 ^ 70)
  | .fin s n d => lim (rint s n d m)

/-! ### Arithmetic of the floating-point group (R148 to R152) -/

/-- FRINT (R150): the integral value, a zero keeps the sign of a. -/
def frintBits (f : Fmt) (a : Nat) (m : Rm) : Nat :=
  match val a f with
  | .nan => cnan f
  | .inf _ => a
  | .fin s n d => rnd (.fin s (rintMag s n d m) 1) f m

/-- FCLASS (R152): the bit of the class. -/
def fclassBit (f : Fmt) (a : Nat) : Nat :=
  let e := a / 2 ^ Fmt.fracBits f % 2 ^ Fmt.expBits f
  let m := a % 2 ^ Fmt.fracBits f
  let neg := a / Fmt.signBit f % 2 = 1
  if e = 2 ^ Fmt.expBits f - 1 then
    (if m = 0 then (if neg then 0 else 7) else if m / 2 ^ (Fmt.fracBits f - 1) = 0 then 8 else 9)
  else if e = 0 then
    (if m = 0 then (if neg then 3 else 4) else (if neg then 2 else 5))
  else (if neg then 1 else 6)

/-- FCMP's condition (R151). -/
def fcond (c : FCond) (a b : Val) : Bool :=
  match c with
  | .eq => a.eq b
  | .ne => !a.eq b
  | .lt => a.lt b
  | .le => a.lt b || a.eq b
  | .gt => b.lt a
  | .ge => b.lt a || a.eq b
  | .uno => a.isNan || b.isNan
  | .ord => !a.isNan && !b.isNan

/-! ### Transcendental functions (R153, R154)

Each is computed in fixed point with 2^-256 as its unit, far below every distance that decides a rounding of a binary16 argument. -/

/-- The fixed-point unit's exponent. -/
def fixP : Nat := 256

/-- The exponential series of x / 2^P with 0 ≤ x: term t at index k. -/
def expSeries (x : Nat) : Nat → Nat → Nat → Nat
  | 0, _, _ => 0
  | n + 1, k, t => t + expSeries x n (k + 1) (t * x / 2 ^ fixP / (k + 1))
/-- The alternating series of sine (k odd start) and cosine (k even start), as an integer. -/
def sinSeries (x2 : Nat) : Nat → Nat → Nat → Int
  | 0, _, _ => 0
  | n + 1, k, t => (t : Int) - sinSeries x2 n (k + 2) (t * x2 / 2 ^ fixP / ((k + 1) * (k + 2)))
/-- The series of the inverse hyperbolic tangent of z: z^(2i+1)/(2i+1). -/
def atanhSeries (z2 : Nat) : Nat → Nat → Nat → Nat
  | 0, _, _ => 0
  | n + 1, k, t => t / k + atanhSeries z2 n (k + 2) (t * z2 / 2 ^ fixP)
/-- The series of the arctangent of 1/q. -/
def atanSeries (q2 : Nat) : Nat → Nat → Nat → Int
  | 0, _, _ => 0
  | n + 1, k, t => (t / k : Nat) - atanSeries q2 n (k + 2) (t / q2)

/-- The natural logarithm of 2 and pi, in units of 2^-256. -/
def ln2Fix : Nat := 2 * atanhSeries (2 ^ fixP / 9) 90 1 (2 ^ fixP / 3)
def piFix : Nat :=
  (16 * atanSeries 25 120 1 (2 ^ fixP / 5) - 4 * atanSeries 57121 40 1 (2 ^ fixP / 239)).toNat

/-- exp of x / 2^P, 0 ≤ x < 2^P. -/
def expFix (x : Nat) : Nat := expSeries x 70 0 (2 ^ fixP)
/-- The natural logarithm of m / 2^P, 2^P ≤ m < 2^(P+1). -/
def lnFix (m : Nat) : Nat :=
  let z := (m - 2 ^ fixP) * 2 ^ fixP / (m + 2 ^ fixP)
  2 * atanhSeries (z * z / 2 ^ fixP) 90 1 z
/-- sin and cos of pi × r / 2^P for 0 ≤ r ≤ 2^P / 2. -/
def sinPiFix (r : Nat) : Int := let x := piFix * r / 2 ^ fixP; sinSeries (x * x / 2 ^ fixP) 40 1 x
def cosPiFix (r : Nat) : Int := let x := piFix * r / 2 ^ fixP; sinSeries (x * x / 2 ^ fixP) 40 0 (2 ^ fixP)

/-- The seven transcendental operations. -/
inductive Transc | rcp | rsq | exp2 | log2 | sin | cos | tanh
  deriving DecidableEq, Repr, Inhabited

/-- num/den in units of 2^-P. -/
def toFix (num den : Nat) : Nat := num * 2 ^ fixP / den

/-- 2^x for a finite x, as a quotient. |x| is taken at most 4096: beyond it every rounding is the same. -/
def exp2Val (neg : Bool) (n d : Nat) : Val :=
  let ip := min (n / d) 4096
  let fr := toFix (n % d) d
  if neg then
    if fr = 0 then let s := scale2 1 1 (-(ip : Int)); .fin false s.1 s.2
    else let s := scale2 (expFix ((2 ^ fixP - fr) * ln2Fix / 2 ^ fixP)) (2 ^ fixP) (-(ip : Int) - 1); .fin false s.1 s.2
  else let s := scale2 (expFix (fr * ln2Fix / 2 ^ fixP)) (2 ^ fixP) ip; .fin false s.1 s.2

/-- log2 of a positive finite value. The zero of log2 1 is +0, whose sign R153 does not give (log 100). -/
def log2Val (n d : Nat) : Val :=
  let e := floorLog2 n d
  let m := scale2 n d (-e)
  let l := lnFix (toFix m.1 m.2) * 2 ^ fixP / ln2Fix
  let x : Int := e * 2 ^ fixP + l
  .fin (decide (x < 0)) x.natAbs (2 ^ fixP)

/-- sin(pi a): a = sign, n/d. The zeros of integral a keep the sign of a (R153). -/
def sinVal (neg : Bool) (n d : Nat) : Val :=
  if n % d = 0 then .fin neg 0 1
  else
    let odd := n / d % 2 = 1
    let r := n % d
    let r' := if 2 * r > d then d - r else r
    let x := sinPiFix (toFix r' d)
    .fin (neg ^^ decide odd) x.natAbs (2 ^ fixP)

/-- cos(pi a): +0 at a half-integer (R153). -/
def cosVal (n d : Nat) : Val :=
  let odd := n / d % 2 = 1
  let r := n % d
  if r = 0 then .fin (decide odd) 1 1
  else if 2 * r = d then .fin false 0 1
  else
    let low := 2 * r < d
    let r' := if low then r else d - r
    let x := cosPiFix (toFix r' d)
    .fin (decide odd ^^ !decide low) x.natAbs (2 ^ fixP)

/-- tanh a for a finite non-zero a. -/
def tanhVal (neg : Bool) (n d : Nat) : Val :=
  if n ≥ 128 * d then .fin neg (2 ^ 300 - 1) (2 ^ 300)
  else
    let x := toFix (2 * n) d
    let k := x / ln2Fix
    let e := expFix (x % ln2Fix) * 2 ^ k
    .fin neg (e - 2 ^ fixP) (e + 2 ^ fixP)

/-- The exact result of a transcendental operation (R153, R154), to the fixed-point unit where it is irrational. -/
def transc (op : Transc) (v : Val) : Val :=
  match op, v with
  | _, .nan => .nan
  | .rcp, .inf s => .fin s 0 1
  | .rcp, .fin s n d => if n = 0 then .inf s else .fin s d n
  | .rsq, .inf s => if s then .nan else .fin false 0 1
  | .rsq, .fin s n d => if n = 0 then .inf s else if s then .nan else let r := sqrtMag d n; .fin false r.1 r.2
  | .exp2, .inf s => if s then .fin false 0 1 else .inf false
  | .exp2, .fin s n d => if n = 0 then .fin false 1 1 else exp2Val s n d
  | .log2, .inf s => if s then .nan else .inf false
  | .log2, .fin s n d => if n = 0 then .inf true else if s then .nan else log2Val n d
  | .sin, .inf _ => .nan
  | .sin, .fin s n d => sinVal s n d
  | .cos, .inf _ => .nan
  | .cos, .fin _ n d => cosVal n d
  | .tanh, .inf s => .fin s 1 1
  | .tanh, .fin s n d => if n = 0 then .fin s 0 1 else tanhVal s n d

/-- |x - y| ≤ num/den for finite x and y. -/
def within (x y : Val) (num den : Nat) : Bool :=
  match Val.add .rne x y.neg with
  | .fin _ n d => decide (n * den ≤ num * d)
  | _ => false

/-- True of a positive quotient that is a power of two. -/
def isPow2 (n d : Nat) : Bool := let s := scale2 1 1 (floorLog2 n d); decide (n * s.2 = s.1 * d)

/-- The bound of R153's table for a finite f32 result x of operation op on argument a, as a quotient; 0 where the result is exact. -/
def transcBound (op : Transc) (a x : Val) : Nat × Nat :=
  match a, x with
  | .fin _ na da, .fin _ n d =>
    let ulp := scale2 1 1 (if n = 0 then Fmt.kmin .f32 else spacing .f32 n d)
    let two := (2 * ulp.1, ulp.2)
    let orAbs (k : Nat) : Nat × Nat := if two.1 * 2 ^ k ≥ two.2 then two else (1, 2 ^ k)
    match op with
    | .rcp => ulp
    | .rsq => two
    | .exp2 => if na % da = 0 ∧ decide (floorLog2 n d ≥ -149) then (0, 1) else two
    | .log2 =>
      if isPow2 na da then (0, 1)
      else if na < 2 * da ∧ 2 * na > da then orAbs 22 else two
    | .sin => if na % da = 0 then (0, 1) else orAbs 23
    | .cos => if na * 2 % da = 0 then (0, 1) else orAbs 23
    | .tanh => if na = 0 then (0, 1) else two
  | _, _ => (0, 1)

/-- The f32 result (R153): the candidate (a free value) if it is finite, of magnitude at most 1 for sine, cosine and tanh, within the bound (widened by the
fixed-point unit), of the result's sign where it is a subnormal or a zero, and one of these where the result underflows (R154); the correctly rounded value
otherwise, and where the result overflows. -/
def transcF32 (op : Transc) (a : Nat) (cand : BitVec 32) : Nat :=
  let v := val a .f32
  let x := transc op v
  let c := val cand.toNat .f32
  let b := transcBound op v x
  let near := b.1 ≠ 0 && within x c (b.1 * 2 ^ 240 + b.2) (b.2 * 2 ^ 240)
  let unit := match op, c with
    | .sin, .fin _ n d => decide (n ≤ d)
    | .cos, .fin _ n d => decide (n ≤ d)
    | .tanh, .fin _ n d => decide (n ≤ d)
    | _, .fin _ _ _ => true
    | _, _ => false
  let r := rnd x .f32 .rne
  let tiny := match x with | .fin _ n d => decide (n * 2 ^ 126 < d) | _ => false
  let small := decide (cand.toNat % 2 ^ 31 < 2 ^ 23)
  let sign := if small then decide (c.signOf = x.signOf) else !tiny
  if near && unit && sign && r % 2 ^ 31 ≠ Fmt.infBits .f32 then cand.toNat else r

/-! ### Trits, scales and the K block (R92 to R100) -/

/-- trit(c) of R85 and R92; the reserved code reads 0. -/
def trit (c : Nat) : Int := if c = 1 then 1 else if c = 3 then -1 else 0

/-- True of a scale that R97 uses at its value. -/
def scaleOk (b : Nat) : Bool :=
  match val b .bf16 with
  | .fin s n _ => !s || n = 0
  | _ => false

/-- The value R97 uses a scale at. -/
def scaleVal (b : Nat) : Val := if scaleOk b then val b .bf16 else .fin false 0 1

/-- One step of R99: the accumulator element after the block with this partial sum and these scales. -/
def blockStep (acc : Nat) (partialSum : Int) (strip square : Nat) : Nat :=
  let s := rnd ((scaleVal strip).mul (scaleVal square)) .f32 .rne
  fma .f32 (ofInt partialSum) (val s .f32) (val acc .f32)

/-- MDRN's epilogue (R100): the drained element, as the low bits of the target. -/
def drainElem (acc : Nat) (bias : Option Nat) (relu : Bool) (t : Fmt) : Nat :=
  let y := match bias with
    | some b => rnd ((val acc .f32).add .rne (val b .f32)) .f32 .rne
    | none => acc
  let y := if relu then maxnum .f32 y 0 else y
  match t with
  | .f32 => y
  | .bf16 => rnd (val y .f32) .bf16 .rne
  | .f16 => rnd (val y .f32) .f16 .rne
  | .s32 => lowBits (toIntSat (val y .f32) .s32 .rne) 32
  | _ => lowBits (toIntSat (val y .f32) .s8 .rne) 8

/-! ### Tilth blocks (R101 to R103) -/

/-- The biased exponent of a binary32 pattern. -/
def exp32 (v : Nat) : Nat := bits v 30 23

/-- A block's shared exponent E (R102). -/
def tilthExp (vs : List Nat) : Nat :=
  vs.foldl (fun e v => if exp32 v = 255 then e else max e (exp32 v)) 1

/-- One mantissa of R102. -/
def tilthMant (e w : Nat) (v : Nat) : Int :=
  match val v .f32 with
  | .nan => 2 ^ (w - 1) - 1
  | .inf false => 2 ^ (w - 1) - 1
  | .inf true => -(2 ^ (w - 1) : Int)
  | .fin s n d =>
    let x := scale2 n d (127 + ((w : Int) - 2) - e)
    satw (rint s x.1 x.2 .rne) w

/-- The number of non-finite values of a block (R102). -/
def tilthNonfinite (vs : List Nat) : Nat := (vs.filter fun v => exp32 v = 255).length

/-- The bytes of a block (R101): 2 + 8w bytes, then zeros up to 96, 128 or 160. -/
def tilthEncode (w : Nat) (vs : List Nat) : List Byte :=
  let e := tilthExp vs
  let code := if w = 8 then 0 else if w = 12 then 1 else 2
  let body := vs.foldr (fun v acc => lowBits (tilthMant e w v) w + acc * 2 ^ w) 0
  let x := e + code * 2 ^ 8 + body * 2 ^ 16
  (List.range (if w = 8 then 96 else if w = 12 then 128 else 160)).map fun i => BitVec.ofNat 8 (x / 2 ^ (8 * i))

/-- True of a block that R103 decodes as format error. -/
def tilthBad (b0 b1 : Nat) : Bool := b0 = 255 || b1 % 4 = 3 || b1 / 4 ≠ 0

/-- The 64 binary32 patterns of a block (R103), and whether it counts as a format error. The width is the header's, whatever width the command gives the block's
size; bytes that the block does not hold read 0 (log 82). -/
def tilthDecode (bytes : List Byte) : List Nat × Bool :=
  let x := bytes.foldr (fun b acc => b.toNat + acc * 256) 0
  let e := bits x 7 0
  let c := bits x 15 8
  if tilthBad e c then (List.replicate 64 0, true)
  else
    let w := 8 + 4 * (c % 4)
    ((List.range 64).map fun i =>
      let m := sext (bits x (16 + w * i + w - 1) (16 + w * i)) w
      let s := scale2 m.natAbs 1 ((max e 1 : Int) - 127 - ((w : Int) - 2))
      rnd (.fin (decide (m < 0)) s.1 s.2) .f32 .rne, false)

/-- Size in bytes of a block of width w (R101). -/
def tilthSize (w : Nat) : Nat := if w = 8 then 96 else if w = 12 then 128 else 160

end Sys2Proof.Machine
end

