-- ==== Sys2Proof/WellFormed.lean ====
section
/-! DEFINITION. Well-formed instructions: what checks 3, 4 and 5 of 05 R116 accept. Every hardware step is well-formed. -/

namespace Sys2Proof

/-- An instruction the encoding rules accept: length and extension form, function and extension fields, immediate, operands. A
hardware step has no encoding and is well-formed. -/
def Instr.WellFormed (i : Instr) : Bool := i.isEvent || (i.lenOk && i.fnOk && i.immOk && i.operOk)

end Sys2Proof
end

