-- ==== Sys2Proof/Machine/State.lean ====
section
/-! DEFINITION. The machine's state as plain data: a domain of packages with all the spec gives them. Tables are sparse: a list of
(key, value) pairs sorted by key, an absent key standing for the reset value. Keys: core = package x 512 + core number (0-255 Loam, 256-351
Marl), squad = core x 32 + slot, thread = squad x 64 + lane, cluster = package x 64 + package cluster number, die = package x 8 + die. -/

namespace Sys2Proof.Machine

/-- A sparse table, sorted by key. -/
abbrev Tab (α : Type) := List (Nat × α)

/-- Why a run stops with a fault. -/
inductive Fault
  /-- A memory access to a system physical address that no rule of the spec places (log 6). Raised by the memory operations. Safe: the machine
  stops where the hardware's behaviour is not given. -/
  | physicalHole
  deriving DecidableEq, Repr, Inhabited

/-- Why a step is refused. -/
inductive Refusal
  /-- An instruction that has no meaning in the model. Raised by the dispatch's refused arms. Safe: the machine stops. -/
  | notModelled (mnemonic : String)
  deriving DecidableEq, Repr, Inhabited

/-! ### Threads and squads (01, 02) -/

/-- A loop-control set (02 R35). -/
structure Lc where
  start : Nat := 0
  stop : Nat := 0
  len : Nat := 0
  count : Nat := 0
  feed : Nat := 0
  stages : Nat := 0
  rotate : Bool := false
  frame : Nat := 0
  deriving DecidableEq, Repr, Inhabited

/-- What a blocked thread waits for (01 R17). -/
inductive Wait
  /-- a named barrier: the key of the core that holds it, its number, the token (08 R190) -/
  | barrier (core bar token : Nat)
  /-- QPUSH or QPOP: cluster and queue (08 R193) -/
  | queue (cluster q : Nat)
  /-- COPY at a full ring (08 R198): the core of the ring -/
  | copyRing (core : Nat)
  /-- CBWAIT (08 R201): the batch -/
  | batch (b : Nat)
  /-- a window sector: core and slot (08 R182) -/
  | window (core slot : Nat)
  /-- TCWAIT (10 R235): die and counter -/
  | counter (die c : Nat)
  /-- requests in flight whose end the instruction waits for -/
  | msgs
  /-- any other condition that the instruction itself tests when it is executed again -/
  | again
  deriving DecidableEq, Repr, Inhabited

/-- A thread's state (01 R17). Ready includes operand wait and unplaced, which the issue table and the scoreboard decide. -/
inductive Run
  | ready
  | hold
  | blocked (w : Wait)
  | parked (record : Nat)
  | trapPending
  | exited
  deriving DecidableEq, Repr, Inhabited

/-- An operand in flight (01 R28): a resource (physical v register, 2048 + predicate) and the ck at which a dependent may issue; msg: the
request that delivers it, when its latency is variable. -/
structure Busy where
  res : Nat
  ready : Nat
  msg : Option Nat := none
  deriving DecidableEq, Repr, Inhabited

/-- The copy failure note (08 R201). -/
structure CopyNote where
  batch : Nat
  index : Nat
  cause : Nat
  deriving DecidableEq, Repr, Inhabited

/-- What an instruction that has issued keeps for a thread that has not left it (08 R168): whether the thread writes the k destination (01 R15), its source
latches (R26), the head of the chain, the slot and the ck of the issue, which name the group; done: the thread has had its effect and waits for its
group, whose chain is open. -/
structure First where
  kw : Bool := false
  latch : Tab Nat := []
  head : Nat := 0
  slot : Nat := 0
  ck : Nat := 0
  done : Bool := false
  deriving DecidableEq, Repr, Inhabited

/-- A thread (01 R13 to R17, 02 R34, 10 R248). -/
structure Thread where
  run : Run := .ready
  pc : Nat := 0
  preds : BitVec 16 := 0
  depth : Nat := 0
  rot : Nat := 0
  callDepth : Nat := 0
  lc0 : Lc := {}
  lc1 : Lc := {}
  lc2 : Lc := {}
  lc3 : Lc := {}
  supervisor : Bool := false
  inHandler : Bool := false
  sscratch : List (BitVec 64) := [0, 0, 0, 0]
  astsel : Nat := 0
  /-- last sealed batch number (08 R200) -/
  sealed : Nat := 0
  /-- copy commands of the unsealed batch and of sealed batches that have not ended: (batch, command) -/
  copies : List (Nat × Nat) := []
  note : Option CopyNote := none
  busy : List Busy := []
  /-- words written since the last release that are not yet acknowledged (03 R68): physical word numbers -/
  written : List Nat := []
  /-- requests in flight (03 R67, R68) -/
  pending : List Nat := []
  /-- progress of an instruction that is executed again after a wait (08 R168) and its internal token -/
  phase : Nat := 0
  token : Nat := 0
  first : Option First := none
  /-- end of the YIELD window of the entry it goes to (09 R221) -/
  yieldUntil : Nat := 0
  /-- operands and guard supplied on arrival at a collective (01 R30, 07 R157) -/
  heldA : Nat := 0
  heldB : Nat := 0
  heldC : Nat := 0
  heldGuard : Bool := false
  /-- the trap that a request's answer raised at this access (race, negative reply): code, cause, address, access kind -/
  failed : Option (Nat × Nat × Nat × Nat) := none
  /-- the trap of a lost die waits for the thread's next instruction (20 R364) -/
  lossPend : Bool := false
  deriving DecidableEq, Repr, Inhabited

/-- A trap record (10 R242). -/
structure TrapRec where
  code : Nat
  cause : Nat
  ck : Nat := 0
  pc : Nat
  epc : Nat
  data : Nat := 0
  kind : Nat := 0
  nbytes : Nat := 0
  bytes : Nat := 0
  mask : BitVec 64
  deriving DecidableEq, Repr, Inhabited

/-- A squad (01 R16, 12 R271). -/
structure Squad where
  /-- entry PC of its role; the code it runs, which with its context is the kernel's identity (01 R16): all roles of a launch share it -/
  entry : Nat := 0
  kernel : Nat := 0
  /-- the translation that its launch's code is: none for native code (11 R260) -/
  native : Option Nat := none
  ctx : Nat := 0
  role : Nat := 0
  budget : Nat := 256
  base : Nat := 0
  gang : Nat := 0
  k : Tab Word := []
  /-- k registers in flight (01 R28) -/
  kbusy : List Busy := []
  trec : List (BitVec 64) := [0, 0, 0, 0, 0, 0, 0, 0]
  /-- threads whose trap is being served -/
  handling : BitVec 64 := 0
  trapped : List TrapRec := []
  /-- the first ck in which its next pending trap may be delivered (01 R32) -/
  freeAt : Nat := 0
  deriving DecidableEq, Repr, Inhabited

/-! ### The core's issue logic (01 R18 to R28) -/

/-- An entry of the issue table (01 R18): members with the ck since which each has stood there. -/
structure Entry where
  pc : Nat
  kernel : Nat
  alloc : Nat
  wait : Nat := 0
  aged : Bool := false
  members : List (Nat × Nat) := []
  /-- end of a YIELD window (09 R221) -/
  yieldUntil : Nat := 0
  deriving DecidableEq, Repr, Inhabited

/-- An open chain of a slot (01 R26). -/
structure Chain where
  head : Nat
  alloc : Nat
  count : Nat
  members : List Nat
  deriving DecidableEq, Repr, Inhabited

/-- An issue slot (01 R24, R26): latches by latch x 64 + lane, the valid ones, their ready ck, the open chain, the ck until which it is taken. -/
structure Slot where
  latch : Tab (BitVec 64) := []
  valid : BitVec 4 := 0
  lbusy : List Busy := []
  chain : Option Chain := none
  until' : Nat := 0
  deriving DecidableEq, Repr, Inhabited

/-- A named barrier (08 R187). -/
structure Barrier where
  expected : Nat := 0
  arrivals : Nat := 0
  phase : Nat := 0
  deriving DecidableEq, Repr, Inhabited

/-- Window states (08 R186). -/
inductive WinState | unbound | empty | filling | full | draining
  deriving DecidableEq, Repr, Inhabited

/-- A window slot (08 R180): range [off, off + size) of the workgroup's scratchpad, the global base and what the range's words hold. -/
structure Window where
  st : WinState := .unbound
  off : Nat := 0
  size : Nat := 0
  base : Nat := 0
  /-- who started the fill: thread, context key, user mode -/
  filler : Nat := 0
  /-- words present (word number in the range, region tag), and those owned -/
  present : Tab Nat := []
  owned : List Nat := []
  /-- words stored in part whose registration has not been granted yet (03 R57) -/
  part : List Nat := []
  /-- a drain started from FULL and no word was dropped since (08 R184) -/
  wasFull : Bool := false
  /-- sectors a fill has still to fetch, and fetches in flight -/
  fillLeft : List Nat := []
  fills : List Nat := []
  /-- write-backs in flight (08 R184) -/
  drains : List Nat := []
  deriving DecidableEq, Repr, Inhabited

/-- Operations of a core's matrix unit (09 R205 to R214), with their operands as the leader lane gave them; acc: the accumulator name. -/
inductive MatOp
  /-- gang offset, Adobe offset, bytes -/
  | mald (src dst n : Nat)
  | mwld (off : Nat) (planes : Planes) (sp : Sparsity)
  | mstrm (acc src rows : Nat) (fmt : Fmt)
  | macc (acc : Nat) (isNew : Bool)
  | mdrn (acc dst bias rows : Nat) (fmt : Fmt) (useBias relu : Bool)
  | mzero (acc : Nat)
  | mqsc
  | mwait (acc : Nat)
  | mrmap (o : Ops)
  deriving DecidableEq, Repr, Inhabited

/-- A matrix operation: its number in the order of completion of the collectives, its squad, length in bytes; once accepted the physical tile it
updates or reads and, for a copy, the tile it copies from; rows retired. waits: the operations an MWAIT or MQSC still waits for. -/
structure MatEntry where
  id : Nat
  squad : Nat
  len : Nat
  op : MatOp
  tile : Nat := 0
  old : Nat := 0
  rows : Nat := 0
  waits : List Nat := []
  deriving DecidableEq, Repr, Inhabited

/-- A set of weights (09 R203): format, plane bytes by plane x 8,192 + column x 32 + byte, index bytes by column x 64 + byte, square scales; absent
bytes are 0. -/
structure Weights where
  planes : Planes := .tern
  sp : Sparsity := .dense
  trits : Tab Byte := []
  idx : Tab Byte := []
  squares : List (BitVec 16) := []
  deriving DecidableEq, Repr, Inhabited

/-- A core's matrix unit (09 R203, 14). -/
structure MatUnit where
  map : List Nat := [0, 1, 2, 3]
  /-- accumulator elements by tile x 65,536 + row x 256 + column; absent: +0 -/
  tiles : Tab Word := []
  /-- Adobe bytes written since the set-up; absent: a free value -/
  adobe : Tab Byte := []
  active : Weights := {}
  shadow : Weights := {}
  /-- the MWLD whose weights the shadow set awaits or holds, and whether its load is complete -/
  loading : Option Nat := none
  loaded : Bool := false
  /-- Adobe offset, planes and structure of the last MWLD whose weights are active, and of the one in the shadow set (09 R216) -/
  last : Option (Nat × Planes × Sparsity) := none
  next : Option (Nat × Planes × Sparsity) := none
  /-- gathered and not accepted; accepted and not complete -/
  queue : List MatEntry := []
  ops : List MatEntry := []
  /-- MWAIT and MQSC instructions accepted whose squads still wait -/
  holds : List MatEntry := []
  corrected : Nat := 0
  uncorrectable : Nat := 0
  deriving DecidableEq, Repr, Inhabited

/-- A thread blocked at a queue or a copy ring (08 R193, R198): what it pushes, or where its pop goes; the PC it continues at. -/
structure Waiter where
  tid : Nat
  push : Bool := false
  value : Nat := 0
  /-- COPY: src, dst, layout, control word -/
  copy : List Nat := []
  dest : List Nat := []
  kdest : Option (Nat × Nat) := none
  next : Nat := 0
  deriving DecidableEq, Repr, Inhabited

/-- A named queue of a cluster (08 R192): ring in local memory, counts, blocked threads in order. -/
structure Queue where
  cap : Nat := 0
  base : Nat := 0
  head : Nat := 0
  tail : Nat := 0
  waiters : List Waiter := []
  deriving DecidableEq, Repr, Inhabited

/-- A copy command (08 R195, 10 R233): its ring entry (core, index) or the Aster slot that posted it, the entry's fields, the issuing thread. -/
structure CopyCmd where
  ring : Option (Nat × Nat) := none
  aster : Option (Nat × Nat) := none
  cluster : Nat := 0
  core : Nat := 0
  ctx : Nat := 0
  user : Bool := true
  tid : Nat := 0
  batch : Nat := 0
  src : Nat := 0
  dst : Nat := 0
  layout : Nat := 0
  ctl : Nat := 0
  active : Bool := false
  /-- the scope at which it reads: GROUP, or that at which the firing of the operation that handed it over acquires (03 R80, R81, 10 R230) -/
  scope : Scope := .grp
  /-- words of its layout record and of its global source that have come, by word number of the virtual address, each with the cause that ends the command there; its
  requests on their way -/
  record : Tab (Word × Nat) := []
  words : Tab (Word × Nat) := []
  msgs : List Nat := []
  /-- the bytes it moves (destination, byte or cause), once its sources have been read; the destination sectors to write; what each block counts (04 R102, R103) -/
  moves : Option (List (Int × (Nat ⊕ Nat))) := none
  left : List Nat := []
  tally : List (Nat × Nat) := []
  /-- the cause with which a request of it was turned away -/
  cause : Nat := 0
  deriving DecidableEq, Repr, Inhabited

/-- States of a named task (19 R332). -/
inductive TaskState | free | armed | ready
  deriving DecidableEq, Repr, Inhabited

/-- A named task. -/
structure Task where
  st : TaskState := .free
  count : Nat := 0
  record : Nat := 0
  ctx : Nat := 0
  deriving DecidableEq, Repr, Inhabited

/-- A core. -/
structure Core where
  ck : Nat := 0
  entries : List Entry := []
  /-- ready threads without an entry, with the ck since which (01 R17) -/
  unplaced : List (Nat × Nat) := []
  slot0 : Slot := {}
  slot1 : Slot := {}
  /-- arithmetic pipes' first free ck (01 R22) -/
  pipe0 : Nat := 0
  pipe1 : Nat := 0
  bars : Tab Barrier := []
  windows : Tab Window := []
  /-- the gang whose workgroup the core holds, and that workgroup's index (12) -/
  gang : Option Nat := none
  wg : Nat := 0
  ringNext : Nat := 0
  /-- issue has stopped for the quiesce point of the core's gang (19 R338) -/
  stop : Bool := false
  mat : MatUnit := {}
  /-- number of the dispatch that last set the core up: scratchpad bytes unwritten since then are free values (12 R270) -/
  epoch : Nat := 0
  /-- the same number for the bytes of a pin slot, which keep theirs over set-ups (13 R285, 20 R350) -/
  pinEpoch : Tab Nat := []
  /-- threads blocked at the copy ring, in order (08 R198) -/
  ringWait : List Waiter := []
  /-- EXIT codes contributed to the completion record (12 R275) -/
  exits : List Nat := []
  /-- squad x 64 + lane of the thread that exited last (12 R276) -/
  lastExit : Nat := 0
  deriving DecidableEq, Repr, Inhabited

/-! ### Contexts (19 R320 to R323) -/

/-- A resident context on one package. -/
structure Ctx where
  ptroot : Nat := 0
  tvec : Nat := 0
  racebuf : Nat := 0
  racecap : Nat := 0
  raceMode : Nat := 0
  packages : Nat := 0
  savepool : Nat := 0
  savegangs : Nat := 0
  /-- the grant entry of each die (19 R322) -/
  grants : List Nat := []
  /-- RACECNT (10 R248) -/
  racecnt : Nat := 0
  /-- regions 0 to 62: base and length (03 R66) -/
  regions : Tab (Nat × Nat) := []
  /-- signalled tokens and their placements: cores, or the host link as 2^40 (19 R330) -/
  tokens : Tab (List Nat) := []
  /-- the scope of each token's completion release (19 R331) -/
  tokenScope : Tab Scope := []
  touched : Nat := 0
  faulted : Bool := false
  faultCode : Nat := 0
  faultClock : Nat := 0
  /-- what a token's consumer still waits for (19 R331): requests, and words written by core whose registration may be pending -/
  tokenPend : Tab (List Nat × List (Nat × Nat)) := []
  /-- the CTXDESTROY that waits (19 R347): queue and index -/
  destroying : Option (Nat × Nat) := none
  /-- the lost die of a context that faulted with 16 (20 R364) -/
  lostDie : Nat := 0
  deriving DecidableEq, Repr, Inhabited

/-! ### Launches and gangs (12, 19) -/

/-- Where a launch comes from (19 R333): command i of queue j of the package, LAUNCH through a die's aggregator, a named task of a die. -/
inductive Source
  | queue (j i : Nat)
  | child (die : Nat)
  | task (die n : Nat)
  deriving DecidableEq, Repr, Inhabited

/-- A launch: taken, every gang dispatched, complete, ended in an error. -/
inductive LaunchState | taken | dispatched | complete | failed
  deriving DecidableEq, Repr, Inhabited

/-- A launch (19 R327, R328): package and context, the die whose launch logic took it, its launch record address, its record's 64 bytes, the level
descriptors and entry offsets of its table. -/
structure Launch where
  pkg : Nat
  ctx : Nat
  die : Nat
  addr : Nat
  source : Source
  body : Nat
  levels : List Nat := []
  entries : List Nat := []
  /-- the package index of a system launch (19 R329) -/
  index : Nat := 0
  marl : Bool := false
  st : LaunchState := .taken
  /-- cores on which its workgroups ran -/
  placed : List Nat := []
  /-- base address of its code: the record's, or of the translation of its WPE image (11), and that translation -/
  base : Nat := 0
  native : Option Nat := none
  /-- gangs dispatched, in ascending order; since when its next gang is ready and has no place; teams that have moved, with their die (19 R346) -/
  next : Nat := 0
  since : Option Nat := none
  moved : List (Nat × Nat) := []
  /-- the writes of its threads that are not acknowledged: requests, and words by core -/
  pend : List Nat := []
  words : List (Nat × Nat) := []
  deriving DecidableEq, Repr, Inhabited

/-- A gang's place in its life (12 R269, R270, 19 R333 to R347). stopping: on its way to the quiesce point. -/
inductive GangState | waiting | running | stopping | suspended | halted | retired | ended
  deriving DecidableEq, Repr, Inhabited

/-- What a suspended workgroup keeps beside its gang record (08 R168, 09 R220, R216, 08 R199): EXIT codes, its threads (by squad x 64 + lane), queued copy commands, whether an MWLD's weights are active. -/
structure Frozen where
  exits : List Nat := []
  lastExit : Nat := 0
  threads : List (Nat × Thread) := []
  cmds : List CopyCmd := []
  mwld : Bool := false
  deriving DecidableEq, Repr, Inhabited

/-- A gang: launch, linear index, the die it is assigned to (die key), cores in workgroup order, CLOCK of its last dispatch, resumption or suspension
or since when it is ready; why it stops. -/
structure Gang where
  launch : Nat
  index : Nat
  die : Nat
  st : GangState := .waiting
  cores : List Nat := []
  since : Nat := 0
  /-- workgroups that have completed -/
  completed : List Nat := []
  /-- it halts at its quiesce point: HALT, or BKPT with its PC -/
  halt : Bool := false
  bkpt : Nat := 0
  /-- the HALT command that waits for the quiesce point (queue, index) -/
  haltCmd : Option (Nat × Nat) := none
  /-- it ends at its quiesce point with this error: 9 or 10 -/
  doom : Nat := 0
  /-- its place in the save pool -/
  record : Option Nat := none
  dbgctl : Word := 0
  frozen : List Frozen := []
  /-- it has its cores and waits to start (19 R335): the scope of its acquire, the requests and words of its producers (19 R331) -/
  waits : Option (Scope × List Nat × List (Nat × Nat)) := none
  deriving DecidableEq, Repr, Inhabited

/-- An open merge of an aggregator (12 R273): the children's launches. -/
structure Merge where
  id : Nat
  die : Nat
  opened : Nat
  children : List Launch
  deriving DecidableEq, Repr, Inhabited

/-- A message offering a team to another die (19 R346). -/
structure Offer where
  src : Nat
  dst : Nat
  launch : Nat
  team : Nat
  deriving DecidableEq, Repr, Inhabited

/-- The translation of a WPE image (11 R258 to R260): package, context, address of the image, native bytes from there, native offset by WPE offset
div 16. -/
structure Native where
  id : Nat
  pkg : Nat
  ctx : Nat
  base : Nat
  bytes : Nat
  size : Nat
  map : List Nat
  /-- the bytes of the image, whose digest is the key of the translation (11 R260) -/
  image : Nat := 0
  deriving DecidableEq, Repr, Inhabited

/-! ### Aster units (10, 15) -/

/-- States of an operation slot (10 R226). -/
inductive SlotState | free | armed | fired | done | failed
  deriving DecidableEq, Repr, Inhabited

/-- An operation slot (10 R227) and how far a fired operation has come. -/
structure AsterSlot where
  src : Nat := 0
  dst : Nat := 0
  param : Nat := 0
  value : Nat := 0
  threshold : Nat := 0
  seq : Nat := 0
  ctx : Nat := 0
  trigger : Nat := 0
  done : Nat := 0
  kind : TrigKind := .send
  scope : Scope := .grp
  cen : Bool := false
  cause : Nat := 0
  st : SlotState := .free
  /-- started; requests in flight; its signal sent and applied; the copy cause with which its command ended; the cause it fails with -/
  started : Bool := false
  msgs : List Nat := []
  signalled : Bool := false
  copyEnd : Option Nat := none
  failing : Nat := 0
  /-- the scope at which its firing acquires: the declared one, at least DIE for a Loam poster, PACKAGE for a Marl poster (10 R230) -/
  reach : Scope := .grp
  deriving DecidableEq, Repr, Inhabited

/-- What an arrival does to its counter or its named task. -/
inductive Arrive | add (v : Nat) | set (v : Nat) | ready | dec
  deriving DecidableEq, Repr, Inhabited

/-- An update that has arrived at an Aster unit or a task scheduler (10 R236, 15 R290, 19 R332): the ck in which it arrived, a thread's by its own core; the die,
the counter or task, its class there and its place in the class; the signal's request. -/
structure Arrival where
  die : Nat
  num : Nat
  cls : Nat
  key : Nat
  act : Arrive
  ck : Nat := 0
  msg : Option Nat := none
  deriving DecidableEq, Repr, Inhabited

/-! ### Coherence (03) -/

/-- A word held at a level (03 R55): valid or owned, its tag, and for an owned word the holder below (at an L2 a cluster 0-7, or 8 for the die
itself; at an L1 a core 0-3). win: the word's data lies in a scratchpad window, at this scratchpad key. -/
structure Copy where
  val : Word := 0
  owned : Bool := false
  holder : Nat := 0
  region : Nat := 63
  win : Option Nat := none
  /-- marked first for eviction (05 R115); the policy that holds once a pending registration is granted -/
  first : Bool := false
  pol : Policy := .all
  /-- a store has written the bytes of mask here and its registration has not been granted yet (03 R56, R57) -/
  pend : Bool := false
  mask : Nat := 15
  deriving DecidableEq, Repr, Inhabited

/-- An owner entry of a line (03 R55): registered words by mask, the agent, its release count at registration. -/
structure OwnerEntry where
  relcount : Nat
  mask : Nat
  agent : Nat
  deriving DecidableEq, Repr, Inhabited

/-- Kinds of request (03 R59 to R62, 21 R372): registration, load, forwarded load, grant, invalidate notice, revocation, write-back, home atomic,
remote write, signal. -/
inductive MsgKind | reg | load | fwd | grant | inv | rev | wb | atomic | remote | signal
  deriving DecidableEq, Repr, Inhabited

/-- A word of a request: its number, the bytes concerned, data. -/
structure Item where
  w : Nat
  bm : Nat := 15
  val : Word := 0
  deriving DecidableEq, Repr, Inhabited

/-- Where a request stands: waiting for room in its sender's 64 (21 R372), on its way, accepted by its destination's window (21 R373), answered
(the answer on its way back, or at the requester), finished. -/
inductive Flight | queued | flying | accepted | answered | finished
  deriving DecidableEq, Repr, Inhabited

/-- What an atomic does for one lane: thread, operand, comparand, destination register keys (low first). A lane of a joined store has its thread alone; that of a window
sector's fetch has the touching address as c, and cmp 1 where the thread waits for it. -/
structure AtomLane where
  tid : Nat
  c : Nat
  cmp : Nat
  dest : List Nat
  kdest : Option (Nat × Nat) := none
  deriving DecidableEq, Repr, Inhabited

/-- What happens when a request that failed or ended concerns a thread, a window, a copy command, an Aster slot. -/
inductive Client
  | none
  | thread (t : Nat)
  | window (core slot : Nat)
  | copy (cmd : Nat)
  | aster (die slot : Nat)
  deriving DecidableEq, Repr, Inhabited

/-- A request in flight. -/
structure Msg where
  kind : MsgKind
  /-- sender and destination endpoints: agents by number, homes as 2^16 + package x 32 + socket (21 R394) -/
  src : Nat
  dst : Nat
  seq : Nat := 0
  st : Flight := .flying
  /-- copies of the request on their way (reissues, 21 R374) and reissues so far -/
  flying : Nat := 1
  tries : Nat := 0
  /-- copies that stand at the destination and have not been taken yet, the lwm fields that they carry, in order -/
  arrived : Nat := 0
  lwms : List Nat := []
  /-- passed the requester's L2 (03 R56, R58) -/
  past : Bool := false
  /-- the agent the request acts for (03 R53), its level, its place below its L2 -/
  agent : Nat
  level : Nat := 0
  holder : Nat := 0
  items : List Item := []
  /-- the request this one serves -/
  orig : Nat := 0
  client : Client := .none
  ctx : Nat := 0
  va : Nat := 0
  pc : Nat := 0
  pa : Nat := 0
  scope : Scope := .grp
  policy : Policy := .all
  region : Nat := 63
  size : Fmt := .n32
  op : AtomOp := .add
  lanes : List AtomLane := []
  /-- destination registers of a load (register keys, low first; or a k register) and the answer -/
  dest : List Nat := []
  kdest : Option (Nat × Nat) := none
  ans : List Word := []
  /-- words of a load that the home or an owner has read already -/
  got : List Item := []
  /-- ck of the core when its group issued: with the PC it names the group (08 R165) -/
  ck : Nat := 0
  win : Option Nat := none
  /-- an access that does not go to a Cached page: 1 pinned to a core (pa is the scratchpad key), 2 pinned to a die (on die pinDie), 3 never cached, 4 a virtual address that
  its destination translates (10 R229) -/
  attr : Nat := 0
  pinDie : Nat := 0
  /-- the access waits for its end and may be refused: race mode TRAP (03 R75), or a word homed on another package (20 R359) -/
  strict : Bool := false
  /-- its bytes are written only when the grant comes (03 R75, R77) -/
  late : Bool := false
  raceTrap : Bool := false
  negative : Bool := false
  /-- why the negative reply came: a cause of 20 R355, or 18, 19 for a third package's -/
  cause : Nat := 0
  /-- answered, and the answer has not come to the requester yet -/
  away : Bool := false
  /-- forwarded once by the remote frame filter (20 R358) -/
  rerouted : Bool := false
  /-- a store-release: the grant raises the home agent's release count once more (03 R69) -/
  bump : Bool := false
  /-- a revocation that carries no verdict (03 R60) -/
  quiet : Bool := false
  /-- an element of a triggered RED is added, of format size (10 R233) -/
  red : Bool := false
  /-- the turn of a piece of a started operation among its unit's (15 R291) -/
  turn : Nat := 0
  /-- the release count that a home's message to an owner carries (03 R59) -/
  rel : Nat := 0
  /-- bytes of a store that lie at words which its level owned when it was sent: they are written with the grant of the others (03 R56, R77) -/
  held : List Item := []
  /-- verdicts that the request has had: word, agent, the entry's release count (03 R75) -/
  judged : List (Nat × Nat × Nat) := []
  deriving DecidableEq, Repr, Inhabited

/-- A sequence window (21 R373): base, numbers executed. -/
structure SeqWin where
  base : Nat := 0
  executed : List Nat := []
  /-- the stored answers: words, and whether the answer is a negative reply -/
  answers : Tab (List Word × Bool) := []
  deriving DecidableEq, Repr, Inhabited

/-- A parked fault (20 R353, R356): context key, virtual page, cause, the first access, the threads joined, each with its address, access kind
and PC; id: FRTAIL when its record was written. -/
structure ParkedFault where
  num : Nat
  ctx : Nat
  page : Nat
  cause : Nat
  va : Nat
  pc : Nat
  kind : Nat
  source : Nat
  squad : Nat
  threads : List (Nat × Nat × Nat × Nat)
  id : Option Nat := none
  deriving DecidableEq, Repr, Inhabited

/-- A translation cache entry (20 R352): context key, page base, log2 of the page size, the leaf. -/
structure TcEntry where
  ctx : Nat
  base : Nat
  log : Nat
  leaf : Nat
  deriving DecidableEq, Repr, Inhabited

/-! ### Links and rings (21) -/

/-- What a multicast tells a package (21 R369): a shootdown by its number, or the loss of a die. -/
inductive CastOf | shootdown (sd : Nat) | dieLoss (die : Nat)
  deriving DecidableEq, Repr, Inhabited
structure Cast where
  what : CastOf
  pkg : Nat
  deriving DecidableEq, Repr, Inhabited

/-- A flit (21 R366): its header fields, the request it carries (type and payload), the fabric line on which it arrived (plane x 64 + line). -/
structure Flit where
  seq : Nat := 0
  lwm : Nat := 0
  agent : Nat := 0
  pkg : Nat := 0
  dst : Nat := 0
  src : Nat := 0
  mask : Nat := 0
  msg : Option Nat := none
  /-- it carries the answer to the request -/
  answer : Bool := false
  line : Option Nat := none
  /-- the ring of a multicast, which goes on both -/
  ring : Option Nat := none
  cast : Option Cast := none
  /-- message type (log 19), flits that follow in its packet, the number of a packet of two flits (0: of one), the module and the plane that carry the packet -/
  type : Nat := 0
  more : Nat := 0
  packet : Nat := 0
  md : Option Nat := none
  plane : Option Nat := none
  deriving DecidableEq, Repr, Inhabited

/-- A UCIe module (21 R371): failed lanes, in retraining. Its width and counts stand in its health counter. -/
structure Module where
  failed : BitVec 64 := 0
  training : Bool := false
  deriving DecidableEq, Repr, Inhabited

/-- Where a fabric line stands (21 R377): in service, tripped with its notice on the way, in training, held out of service. -/
inductive LinePhase | service | tripped | training | heldOut
  deriving DecidableEq, Repr, Inhabited

/-- A fabric line as its receiver knows it: the clocks of its last four drops, newest first, whether four lay within 10 us, the clocks of its failed
retrains; whether its sender sends on it. -/
structure Line where
  phase : LinePhase := .service
  drops : List Nat := []
  due : Bool := false
  fails : List Nat := []
  /-- trained on the host's order: one failure holds it out (22 R388) -/
  ordered : Bool := false
  sending : Bool := true
  deriving DecidableEq, Repr, Inhabited

/-! ### Packages (21, 22) -/

/-- Accepted firmware (21 R379, R380): security version and digest. -/
structure Firmware where
  svn : Nat
  digest : BitVec 384
  deriving DecidableEq, Repr, Inhabited

/-- What a package holds outside its passengers' memories: power removed; the dump being written (error, socket, clock); the thermal-trip signal; flash
(absent bytes 0xFF); boot SRAM of the two Marl dies; fused rollback count; running firmware of the Marl dies; the last attestation report; CLOCK of the
last heartbeat of each die. -/
structure Pkg where
  off : Bool := false
  dumping : Option (Nat × Nat × Nat) := none
  trip : Bool := false
  flash : Tab Byte := []
  sram : List (List Byte) := [[], []]
  fuse : Nat := 0
  firmware : List (Option Firmware) := [none, none]
  report : List Byte := []
  beats : Tab Nat := []
  deriving DecidableEq, Repr, Inhabited

/-! ### The machine -/

/-- A shootdown on its way (10 R249, 20 R357): context number, the range (all: the whole context), packages that have not finished it. -/
structure Shootdown where
  ctx : Nat
  all : Bool
  base : Nat
  size : Nat
  left : List Nat
  deriving DecidableEq, Repr, Inhabited

/-- The instruction group that is issuing: place, slot, PC, instruction bytes, threads in ascending lane order; again: it goes on with an instruction that
has issued before, and takes no slot. -/
structure Issue where
  core : Nat
  slot : Nat
  pc : Nat
  bytes : Nat := 0
  nbytes : Nat := 0
  threads : List Nat
  again : Bool := false
  deriving DecidableEq, Repr, Inhabited

/-- The machine. -/
structure State where
  regs : Tab Word := []
  threads : Tab Thread := []
  squads : Tab Squad := []
  cores : Tab Core := []
  scratch : Tab Byte := []
  /-- contexts by package x 64 + number -/
  ctxs : Tab Ctx := []
  /-- context fault messages on their way: package, context, fault (19 R347) -/
  faultMsgs : List (Nat × Nat × Nat) := []
  /-- CLOCK of each package (10 R248) -/
  clocks : Tab Nat := []
  /-- event counters (10 R250): core x 64 + number: event, enable and count -/
  evCfg : Tab (Nat × Bool) := []
  evCount : Tab Nat := []
  /-- FMTERR and SCLERR of each core (10 R248) -/
  fmterr : Tab Word := []
  sclerr : Tab Word := []
  mem : List Host.Cell := []
  /-- an access met a physical address that no rule places (log 6) -/
  hole : Bool := false
  /-- words held at levels, by level x 2^50 + word number: L1 of a cluster by its key, L2 4,096 + die, LLC 8,192 + package, Marl private
  caches 16,384 + package x 96 + Marl number -/
  copies : Tab Copy := []
  /-- owner entries by line number, oldest first (03 R55) -/
  owners : Tab (List OwnerEntry) := []
  /-- release counts by agent (03 R74) -/
  relcount : Tab Nat := []
  msgs : Tab Msg := []
  /-- next sequence number by source x 2^20 + destination (21 R372), and the windows by destination x 2^20 + source (21 R373) -/
  seqs : Tab Nat := []
  windows : Tab SeqWin := []
  /-- mirror entries of a die's owned words in its buddy, by die x 2^50 + word number: when the entry was made, the value (20 R361) -/
  mirror : Tab (Nat × Word) := []
  /-- translation caches (20 R352): core key, 2^20 + cluster, 2^21 + die, 2^22 + package x 8 + port -/
  tcs : Tab (List TcEntry) := []
  /-- instruction cache blocks (05 R106): (cluster or Marl core, context key x 2 + supervisor mode, block address, block) -/
  icache : List (Nat × Nat × Nat × Nat) := []
  /-- words of pages pinned to a die that its L2 holds (20 R350), by die x 2^50 + word -/
  pinned : Tab Word := []
  /-- pinned pages of each die: page base and size (20 R350) -/
  pinnedPages : Tab (List (Nat × Nat)) := []
  /-- queues by cluster x 64 + number; the gang that holds a cluster's queue unit (19 R334) -/
  queues : Tab Queue := []
  queueHolder : Tab Nat := []
  copyCmds : Tab CopyCmd := []
  /-- copy engine counts by cluster: non-finite values (04 R102), Tilth format errors (04 R103) -/
  nonfinite : Tab Nat := []
  tilthErrors : Tab Nat := []
  /-- named tasks by die x 4,096 + number; misuse counts and submitted tasks by die (19 R332, 10 R240) -/
  tasks : Tab Task := []
  misuse : Tab Nat := []
  submitted : Tab (List Nat) := []
  /-- launches and gangs by number; the source last served by die x 16 + priority (19 R333); open merges (12 R273); ck of each die's launch logic;
  advertised free clusters by die (19 R346); team offers on their way; translations of WPE images (11) -/
  launches : Tab Launch := []
  gangs : Tab Gang := []
  lastServed : Tab Source := []
  merges : List Merge := []
  logicCk : Tab Nat := []
  adverts : Tab Nat := []
  offers : List Offer := []
  natives : List Native := []
  /-- Aster units by die: counters (die x 4,096 + number), slots (die x 8,192 + number), next sequence number, AERRCNT, start queue, (CLOCK,
  operations started in it) -/
  counters : Tab Nat := []
  slots : Tab AsterSlot := []
  asterSeq : Tab Nat := []
  asterErr : Tab Nat := []
  startQueue : Tab (List Nat) := []
  startCk : Tab (Nat × Nat) := []
  /-- the updates of counters and tasks whose ck has not ended, in the order in which they are applied at its end -/
  arrivals : List Arrival := []
  /-- ASTSEL of threads is theirs; DBGCTL of a thread that belongs to no gang -/
  dbgctl : Word := 0
  /-- registers of the host control link by package x 2^20 + offset (19 R324, R337, 20, 21, 22) -/
  hostRegs : Tab Nat := []
  /-- faults being served, in the order in which they arrived (20 R354) -/
  faults : List ParkedFault := []
  /-- shootdowns on their way; pages pinned by a context: context key, virtual base, log2 of the size, leaf -/
  shootdowns : Tab Shootdown := []
  pins : List (Nat × Nat × Nat × Nat) := []
  /-- region entries on their way to the packages of a context (08 R173): package, context, number, base, length, thread -/
  regionMsgs : List (Nat × Nat × Nat × Nat × Nat × Nat) := []
  /-- lost dies, and dies declared lost whose loss has not been broadcast (20 R362) -/
  lost : List Nat := []
  dead : List Nat := []
  /-- flits that passengers send to their routers, that wait to enter a ring (package x 32 + socket), in the transit buffers (package x 64 + ring x 32 + socket), at their
  passengers; packets of two flits of which one has come, or one was lost (true) -/
  upward : Tab (List Flit) := []
  assembling : List (Nat × Bool) := []
  inject : Tab (List Flit) := []
  transit : Tab (List Flit) := []
  ingress : Tab (List Flit) := []
  /-- modules by package x 1,024 + socket x 32 + module; lines by receiver x 512 + plane x 64 + line; the next line of a Silt die for a peer
  (package x 128 + Silt die x 64 + peer) -/
  modules : Tab Module := []
  lines : Tab Line := []
  lineNext : Tab Nat := []
  pkgs : Tab Pkg := []
  /-- pin slots reserved (13 R285): core x 32 + slot, the context key -/
  pinSlots : Tab Nat := []
  agenda : List Instr := []
  picks : List Issue := []
  issue : Option Issue := none
  tick : Nat := 0
  freeCount : Nat := 0
  nextId : Nat := 1
  deriving DecidableEq, Repr, Inhabited

/-- The machine right after reset. -/
def State.reset : State := {}

end Sys2Proof.Machine
end

