-- ==== Sys2Proof/Machine/Ops.lean ====
section
/-! DEFINITION. The named operations over tables, registers, latches, predicates and traps: reading and writing a register (01 R13 to R15,
R24, 02 R41), raising and delivering a trap (01 R32, 10 R241 to R243), returning from one (10 R245), event counters (22 R392). -/

namespace Sys2Proof.Machine

/-! ### Tables -/

/-- The entry of a sorted table at a key. -/
def tget? {α : Type} : Tab α → Nat → Option α
  | [], _ => none
  | (k, v) :: t, i => if k = i then some v else tget? t i

/-- The entry, or the value an absent key stands for. -/
def tget {α : Type} (t : Tab α) (i : Nat) (d : α) : α := (tget? t i).getD d

/-- The table with a key set. -/
def tset {α : Type} : Tab α → Nat → α → Tab α
  | [], i, v => [(i, v)]
  | (k, w) :: t, i, v => if i < k then (i, v) :: (k, w) :: t else if k = i then (i, v) :: t else (k, w) :: tset t i v

/-- The table with a key removed. -/
def tdel {α : Type} : Tab α → Nat → Tab α
  | [], _ => []
  | (k, w) :: t, i => if k = i then tdel t i else (k, w) :: tdel t i

/-! ### Places -/

/-- The squad, core and lane of a thread key; the core, package and core number; and back. -/
def squadOf (t : Nat) : Nat := t / 64
def laneOf (t : Nat) : Nat := t % 64
def coreOfSquad (q : Nat) : Nat := q / 32
def coreOf (t : Nat) : Nat := coreOfSquad (squadOf t)
def pkgOf (c : Nat) : Nat := c / 512
def numOf (c : Nat) : Nat := c % 512
def coreKey (p c : Nat) : Nat := p * 512 + c
def squadKey (core slot : Nat) : Nat := core * 32 + slot
def threadKey (squad lane : Nat) : Nat := squad * 64 + lane
/-- True of a Marl core (01 R33). -/
def isMarl (core : Nat) : Bool := 256 ≤ numOf core
/-- The cluster key of a Loam core (00 R3). -/
def clusterOf (core : Nat) : Nat := pkgOf core * 64 + numOf core / 4
/-- The die key of a Loam core. -/
def dieOf (core : Nat) : Nat := pkgOf core * 8 + numOf core / 32

/-! ### Threads, squads, cores -/

def State.thread (s : State) (t : Nat) : Thread := tget s.threads t {}
def State.setThread (s : State) (t : Nat) (th : Thread) : State := { s with threads := tset s.threads t th }
def State.modThread (s : State) (t : Nat) (f : Thread → Thread) : State := s.setThread t (f (s.thread t))
def State.squad (s : State) (q : Nat) : Squad := tget s.squads q {}
def State.setSquad (s : State) (q : Nat) (x : Squad) : State := { s with squads := tset s.squads q x }
def State.modSquad (s : State) (q : Nat) (f : Squad → Squad) : State := s.setSquad q (f (s.squad q))
def State.core (s : State) (c : Nat) : Core := tget s.cores c {}
def State.setCore (s : State) (c : Nat) (x : Core) : State := { s with cores := tset s.cores c x }
def State.modCore (s : State) (c : Nat) (f : Core → Core) : State := s.setCore c (f (s.core c))

/-- The threads that stand in a squad, in ascending lane order. -/
def State.squadThreads (s : State) (q : Nat) : List Nat :=
  ((List.range 64).map (threadKey q)).filter fun t => (tget? s.threads t).isSome

/-- A slot of a core. -/
def Core.slot (c : Core) (i : Nat) : Slot := if i = 0 then c.slot0 else c.slot1
def Core.setSlot (c : Core) (i : Nat) (x : Slot) : Core := if i = 0 then { c with slot0 := x } else { c with slot1 := x }

/-- The context of a thread, its key among the package's contexts. -/
def State.ctxKey (s : State) (t : Nat) : Nat := pkgOf (coreOf t) * 64 + (s.squad (squadOf t)).ctx
def State.ctx (s : State) (k : Nat) : Ctx := tget s.ctxs k {}
def State.modCtx (s : State) (k : Nat) (f : Ctx → Ctx) : State := { s with ctxs := tset s.ctxs k (f (s.ctx k)) }

/-- CLOCK of a package (10 R248). -/
def State.clock (s : State) (p : Nat) : Nat := tget s.clocks p 0

/-! ### Registers of the host control link (19 R324, R337, 20, 21, 22) -/

/-- QUANTi of die d: the spec gives no offset, the model keeps it here (log 13). -/
def quantOff (d i : Nat) : Nat := 0x4000 + 64 * d + 4 * i
/-- Reset values: R374's, QUANT's, DOMSIZE 1 (log 3), the widths of modules and trained lines; 0 otherwise. -/
def hostDefault (off : Nat) : Nat :=
  if off = 0x2200 then 2000 else if off = 0x2204 then 20000 else if off = 0x2208 then 8 else if off = 0x2118 then 1
  else if 0x4000 ≤ off ∧ off < 0x4200 then 0xFFFF
  else if 0x10000 ≤ off ∧ off < 0x24000 ∧ off % 0x1000 / 8 ≥ 32 ∧ off % 0x1000 / 8 < 56 then 64
  else 0
def State.hreg (s : State) (p off : Nat) : Nat := tget s.hostRegs (p * 2 ^ 20 + off) (hostDefault off)
def State.setHreg (s : State) (p off v : Nat) : State := { s with hostRegs := tset s.hostRegs (p * 2 ^ 20 + off) v }
/-- PKGNUM (21 R395). -/
def State.pkgNum (s : State) (p : Nat) : Nat := s.hreg p 0x211C % 64
/-- True of packages of the domain as package p knows it: DOMSIZE (20 R358, 21 R375), with p's own number its port. -/
def State.inDomain (s : State) (p q : Nat) : Bool := q = p || (decide (q < s.hreg p 0x2118) && s.pkgNum p = p && s.pkgNum q = q)
/-- A package in D-HOLD or D-OFF (22 R383). -/
def State.held (s : State) (p : Nat) : Bool := decide (s.hreg p 0x2404 % 4 ≥ 2)

/-- A package on which a fatal error has stopped every context (20 R365), and one on which nothing runs. -/
def State.fatal (s : State) (p : Nat) : Bool := (tget s.pkgs p {}).dumping.isSome || (s.hreg p 0x2120).testBit 0
def State.rests (s : State) (p : Nat) : Bool := s.held p || s.fatal p

/-! ### Event counters (10 R250, 22 R392) -/

/-- Event ev happens n times on a core: every enabled counter configured for it rises, modulo 2^64. -/
def State.count (s : State) (core ev n : Nat) : State :=
  { s with evCount := (List.range 64).foldl (fun t i =>
      if tget? s.evCfg (core * 64 + i) = some (ev, true) then
        tset t (core * 64 + i) ((tget t (core * 64 + i) 0 + n) % 2 ^ 64)
      else t) s.evCount }

/-! ### Registers (01 R13 to R15, 02 R41) -/

/-- The rotation base in force: 0 inside a trap handler (02 R47). -/
def Thread.rotNow (th : Thread) : Nat := if th.inHandler then 0 else th.rot

/-- The physical register of vn: its base plus n, v192 to v255 renamed by rot (01 R14, 02 R41). -/
def physReg (base rot n : Nat) : Nat := base + if n < 192 then n else 192 + (n - 192 + rot) % 64

/-- The key of a thread's register n in the register file of its lane. -/
def State.regKey (s : State) (t n : Nat) : Nat :=
  (coreOf t * 64 + laneOf t) * 1024 + physReg (s.squad (squadOf t)).base (s.thread t).rotNow n % 1024

def State.readV (s : State) (t n : Nat) : Nat := (tget s.regs (s.regKey t n) 0).toNat
def State.writeV (s : State) (t n v : Nat) : State := { s with regs := tset s.regs (s.regKey t n) (BitVec.ofNat 32 v) }
def State.readK (s : State) (t n : Nat) : Nat := (tget (s.squad (squadOf t)).k n 0).toNat
def State.writeK (s : State) (t n v : Nat) : State :=
  s.modSquad (squadOf t) fun q => { q with k := tset q.k n (BitVec.ofNat 32 v) }

/-- Predicate n: p0 reads 1 (01 R13). -/
def Thread.pred (th : Thread) (n : Nat) : Bool := n = 0 || th.preds.toNat.testBit n
/-- Writing predicate n: a write of p0 is discarded (01 R13). -/
def Thread.setPred (th : Thread) (n : Nat) (v : Bool) : Thread :=
  if n = 0 then th
  else { th with preds := if v then th.preds ||| BitVec.ofNat 16 (2 ^ n) else th.preds &&& ~~~(BitVec.ofNat 16 (2 ^ n)) }

/-- A latch of a core's slot in one lane (01 R24). -/
def State.readLatch (s : State) (core slot b lane : Nat) : Nat := (tget ((s.core core).slot slot).latch (b * 64 + lane) 0).toNat
def State.latchValid (s : State) (core slot b : Nat) : Bool := ((s.core core).slot slot).valid.toNat.testBit b

/-- Writing a latch: the latch becomes valid; every lane holds zero until it is given a value (01 R24). -/
def State.clearLatch (s : State) (core slot b : Nat) : State :=
  s.modCore core fun c => let x := c.slot slot
    c.setSlot slot { x with latch := x.latch.filter fun e => e.1 / 64 ≠ b, valid := x.valid ||| BitVec.ofNat 4 (2 ^ b) }
def State.writeLatch (s : State) (core slot b lane v : Nat) : State :=
  s.modCore core fun c => let x := c.slot slot
    c.setSlot slot { x with latch := tset x.latch (b * 64 + lane) (BitVec.ofNat 64 v) }

/-- An operand field read by a thread, n registers wide (1 or 2): a v or k register or pair, a latch, the zero operand, a predicate. -/
def State.readFld (s : State) (iss : Issue) (t : Nat) (f : Fld) (n : Nat) : Nat :=
  match f with
  | .v r => s.readV t r.toNat + if n = 2 then s.readV t (r.toNat + 1) * 2 ^ 32 else 0
  | .k r => s.readK t r.toNat + if n = 2 then s.readK t (r.toNat + 1) * 2 ^ 32 else 0
  | .b b =>
    let x := match (s.thread t).first with
      | some f => tget f.latch b.toNat 0
      | none => s.readLatch iss.core iss.slot b.toNat (laneOf t)
    if n = 2 then x else x % 2 ^ 32
  | .zero => 0
  | .pred p => if (s.thread t).pred p.toNat then 1 else 0

/-- The latch that an instruction fills: the one its latch field names, or its destination code (01 R24). -/
def latchOf (o : Ops) : Option Nat :=
  match o.d with
  | .b n => some n.toNat
  | _ => if o.h.latch = 0 then none else some o.h.latch.toNat

/-- Writing a result of n registers (05 R111): the register unless wbs is set, the latch; kw: this thread writes a k destination (01 R15). A predicate
destination is treated alike: wbs drops the write, a latch field fills the latch with the bit (log 83). -/
def State.writeD (s : State) (iss : Issue) (o : Ops) (t v n : Nat) (kw : Bool) : State :=
  let s := match latchOf o with
    | some b => s.writeLatch iss.core iss.slot b (laneOf t) v
    | none => s
  if o.h.wbs then s
  else
    match o.d with
    | .v r =>
      let s := s.writeV t r.toNat v
      if n = 2 then s.writeV t (r.toNat + 1) (v / 2 ^ 32) else s
    | .k r =>
      if kw then
        let s := s.writeK t r.toNat v
        if n = 2 then s.writeK t (r.toNat + 1) (v / 2 ^ 32) else s
      else s
    | .pred p => s.modThread t fun th => th.setPred p.toNat (v % 2 = 1)
    | _ => s

/-- A thread in which nothing of an instruction is left. -/
def Thread.anew (th : Thread) : Thread := { th with phase := 0, token := 0, failed := none, first := none }
/-- True of a thread that has had its instruction's effect and waits for its group. -/
def Thread.done (th : Thread) : Bool := match th.first with | some f => f.done | none => false
/-- The group of an instruction that a thread has not left: none for a thread about to issue. -/
def Thread.origin (th : Thread) : Option (Nat × Nat × Nat) := th.first.map fun f => (f.head, f.slot, f.ck)

/-- The guard of a thread (05 R109). -/
def Thread.guard (th : Thread) (h : Hdr) : Bool := th.pred h.guard.toNat ^^ h.gneg

/-! ### Loop state (02 R34, R35) -/

def Thread.lc (th : Thread) (i : Nat) : Lc :=
  match i with | 0 => th.lc0 | 1 => th.lc1 | 2 => th.lc2 | _ => th.lc3
def Thread.setLc (th : Thread) (i : Nat) (x : Lc) : Thread :=
  match i with | 0 => { th with lc0 := x } | 1 => { th with lc1 := x } | 2 => { th with lc2 := x } | _ => { th with lc3 := x }

/-- The back edge's shift of p8 to p15 (02 R37): each takes the one below, p8 takes whether an iteration is left. -/
def shiftStages (p : BitVec 16) (more : Bool) : BitVec 16 :=
  let x := p.toNat
  BitVec.ofNat 16 (x % 2 ^ 8 + (x / 2 ^ 8 * 2 % 2 ^ 8 + more.toNat) * 2 ^ 8)

/-- The loop update that follows an instruction at pc (02 R37, R38) and the PC it goes to: no update in a handler (02 R47). The back
edge and the exit take the formulas start x 4 and end x 4 + 8 as they stand, whatever bit 56 of the PC is (log 81). -/
def Thread.loopUpdate (th : Thread) (pc next : Nat) : Thread × Nat :=
  if th.depth = 0 ∨ th.inHandler = true then (th, next)
  else
    let i := th.depth - 1
    let l := th.lc i
    if pc / 4 % 2 ^ 55 ≠ l.stop then (th, next)
    else if l.count > 1 then
      let feed := l.feed - 1
      let th := th.setLc i { l with count := l.count - 1, feed := feed }
      let th := if l.rotate then { th with rot := (th.rot + 63) % 64 } else th
      let th := if l.stages ≥ 1 then { th with preds := shiftStages th.preds (decide (feed > 0)) } else th
      (th, l.start * 4)
    else ({ th with depth := i }, exitPc l.stop l.len)

/-- The loop-nesting fault at issue (02 R37, R39): cause 3 for a control-port instruction at the end of an open level, cause 2 at an outer
level's end, 0 for none; where both hold, cause 3 (log 28). -/
def Thread.loopFault (th : Thread) (pc : Nat) (ctl : Bool) : Nat :=
  if th.inHandler then 0
  else
    let at' := pc / 4 % 2 ^ 55
    let hit (j : Nat) : Bool := decide (j < th.depth) && (th.lc j).stop = at'
    if !(hit 0 || hit 1 || hit 2 || hit 3) then 0
    else if ctl then 3
    else if (th.lc (th.depth - 1)).stop = at' then 0 else 2

/-! ### Taking a trap (01 R32, 10 R241 to R245, R347) -/

/-- Removing a thread from the core's issue table and unplaced list. -/
def State.unplace (s : State) (t : Nat) : State :=
  s.modCore (coreOf t) fun c =>
    { c with
      entries := c.entries.map fun e => { e with members := e.members.filter fun m => m.1 ≠ t }
      unplaced := c.unplaced.filter fun u => u.1 ≠ t }

/-- Bit sets of lanes. -/
def laneMask (ts : List Nat) : BitVec 64 := ts.foldl (fun m t => m ||| BitVec.ofNat 64 (2 ^ laneOf t)) 0
def lanes (m : BitVec 64) : List Nat := (List.range 64).filter fun l => m.toNat.testBit l

/-- The eight words of a delivered record (10 R242); pend: the traps still pending for the squad. -/
def TrapRec.words (r : TrapRec) (slot pend : Nat) : List (BitVec 64) :=
  [BitVec.ofNat 64 (r.nbytes * 2 ^ 35 + slot * 2 ^ 30 + (lanes r.mask).headD 0 * 2 ^ 24 + r.cause % 256 * 2 ^ 8 + r.code),
   r.mask, BitVec.ofNat 64 r.pc, BitVec.ofNat 64 r.epc, BitVec.ofNat 64 r.data,
   BitVec.ofNat 64 r.bytes, BitVec.ofNat 64 (r.bytes / 2 ^ 64), BitVec.ofNat 64 (pend % 2 ^ 16 * 2 ^ 16 + r.kind)]

/-- The pending trap to deliver next: the oldest, ties to the lower PC (01 R32). -/
def oldestTrap : List TrapRec → Option TrapRec
  | [] => none
  | r :: rs =>
    match oldestTrap rs with
    | none => some r
    | some x => if x.ck < r.ck ∨ (x.ck = r.ck ∧ x.pc < r.pc) then some x else some r

/-- Delivery of a squad's next pending trap (10 R243): TREC0 to TREC7 hold the record, the trapping threads enter supervisor mode at TVEC. Threads in
their handler are ready and take part in issue as 01 R17's ready threads do (log 79). The delivery of a copy fault clears the note (08 R201). -/
def State.deliverTrap (s : State) (q : Nat) : State :=
  match oldestTrap (s.squad q).trapped with
  | none => s
  | some r =>
    let rest := (s.squad q).trapped.erase r
    let tvec := (s.ctx (pkgOf (coreOfSquad q) * 64 + (s.squad q).ctx)).tvec
    let s := s.modSquad q fun x => { x with trec := r.words (q % 32) rest.length, handling := r.mask, trapped := rest }
    let s := s.count (coreOfSquad q) 13 1
    (lanes r.mask).foldl (fun s l => s.modThread (threadKey q l) fun th =>
      { th with run := .ready, pc := tvec, supervisor := true, inHandler := true, note := if r.code = 12 then none else th.note }) s

/-- The level's back edge follows an instruction at pc (02 R37). -/
def Thread.backEdge (th : Thread) (pc : Nat) : Bool :=
  let l := th.lc (th.depth - 1)
  decide (th.depth ≠ 0) && !th.inHandler && decide (pc / 4 % 2 ^ 55 = l.stop) && decide (l.count > 1)

/-- True while an issue group picked in this ck that holds threads of the squad has not executed yet. -/
def State.squadPicked (s : State) (q : Nat) : Bool := s.picks.any fun p => p.threads.any fun t => squadOf t = q

/-- Delivery at once where no trap of the squad is in its handler or has left it in this ck, every group of this ck has executed, and issue has not
stopped for a quiesce point (01 R32, 19 R338). -/
def State.settleTraps (s : State) (q : Nat) : State :=
  let c := s.core (coreOfSquad q)
  if (s.squad q).handling = 0 ∧ s.squadPicked q = false ∧ (s.squad q).freeAt ≤ c.ck ∧ c.stop = false then s.deliverTrap q else s

/-- A context stops on one package (19 R347): faulted, with the code and cause and the clock. -/
def State.stopContext (s : State) (p ctx fault : Nat) : State :=
  s.modCtx (p * 64 + ctx) fun c =>
    if c.faulted then c else { c with faulted := true, faultCode := fault, faultClock := s.clock p }

/-- A double trap (10 R243, 19 R347): the context stops on its package at once, and a context fault goes to every other package of it. -/
def State.doubleTrap (s : State) (q code cause : Nat) : State :=
  let p := pkgOf (coreOfSquad q)
  let x := (s.squad q).ctx
  let fault := code % 256 + cause % 256 * 2 ^ 8
  let others := (List.range 64).filter fun i => i ≠ p ∧ (s.ctx (p * 64 + x)).packages.testBit i
  { s.stopContext p x fault with
    faultMsgs := s.faultMsgs ++ (p :: others).map fun i => (i, x, fault)
    agenda := s.agenda ++ [.contextFaultMessage p x (BitVec.ofNat 16 fault)] }

/-- Taking a trap: the threads of the record leave the issue table and wait for delivery, which happens at once where it can; a trap raised in
supervisor mode is a double trap, and nothing is delivered. -/
def State.takeTrap (s : State) (q : Nat) (r : TrapRec) : State :=
  let ts := (lanes r.mask).map (threadKey q)
  if ts.any fun t => (s.thread t).supervisor then
    ts.foldl (fun s t => (s.unplace t).modThread t fun th => { th.anew with run := .trapPending }) (s.doubleTrap q r.code r.cause)
  else
    let s := ts.foldl (fun s t => (s.unplace t).modThread t fun th =>
      { th.anew with run := .trapPending, pc := r.epc, lossPend := th.lossPend && r.code ≠ 16 }) s
    let s := s.modSquad q fun x => { x with trapped := x.trapped ++ [{ r with ck := (s.core (coreOfSquad q)).ck }] }
    s.settleTraps q

/-- The end of one thread's handling (10 R245): the trap ends when the last thread of TREC1 has left; the next one is delivered in the next ck (01 R32). -/
def State.leaveHandler (s : State) (t : Nat) : State :=
  let s := s.modThread t fun th => { th with inHandler := false, supervisor := false }
  s.modSquad (squadOf t) fun x =>
    { x with handling := x.handling &&& ~~~(BitVec.ofNat 64 (2 ^ laneOf t)), freeAt := (s.core (coreOf t)).ck + 1 }

/-- Returning from a trap (10 R245): the thread goes to TREC3 in user mode. -/
def State.returnFromTrap (s : State) (t : Nat) : State :=
  let epc := (((s.squad (squadOf t)).trec[3]?).getD 0).toNat
  (s.leaveHandler t).modThread t fun th => { th with pc := epc }

end Sys2Proof.Machine
end

