-- ==== Sys2Proof/Machine/Operands.lean ====
section
/-! DEFINITION. Operand forms and the issue of one instruction by a group: widths of operands, immediates (05 R112, R113), checks 6 to 8 of
05 R116, the Marl profile's check (01 R396), loop faults and latch traps, guards (05 R109), chains (01 R26, R27), retirement with the loop
update (02 R37, R38), and the gathering of a squad at a collective (01 R29 to R31). -/

namespace Sys2Proof.Machine

/-! ### widthsOf, formats, ports, latencies -/

/-- Registers of a format's operand: 2 for a 64-bit format (01 R13). -/
def regsOf (f : Fmt) : Nat := if f.width = 64 then 2 else 1

/-- How many consecutive registers D, A, B and C name, instruction by instruction (07 to 10). -/
def widthsOf (i : Instr) : Nat × Nat × Nat × Nat :=
  match i with
  | .add _ f => (regsOf f.fmt, regsOf f.fmt, regsOf f.fmt, 1)
  | .sub _ f => (regsOf f.fmt, regsOf f.fmt, regsOf f.fmt, 1)
  | .mul _ f => (regsOf f.fmt, regsOf f.fmt, regsOf f.fmt, 1)
  | .mulhi _ f => (regsOf f.fmt, regsOf f.fmt, regsOf f.fmt, 1)
  | .mad _ f => (regsOf f.fmt, regsOf f.fmt, regsOf f.fmt, regsOf f.fmt)
  | .div _ f => (regsOf f.fmt, regsOf f.fmt, regsOf f.fmt, 1)
  | .rem _ f => (regsOf f.fmt, regsOf f.fmt, regsOf f.fmt, 1)
  | .neg _ f => (regsOf f.fmt, regsOf f.fmt, 1, 1)
  | .abs _ f => (regsOf f.fmt, regsOf f.fmt, 1, 1)
  | .min _ f => (regsOf f.fmt, regsOf f.fmt, regsOf f.fmt, 1)
  | .max _ f => (regsOf f.fmt, regsOf f.fmt, regsOf f.fmt, 1)
  | .and _ f => (regsOf f.fmt, regsOf f.fmt, regsOf f.fmt, 1)
  | .or _ f => (regsOf f.fmt, regsOf f.fmt, regsOf f.fmt, 1)
  | .xor _ f => (regsOf f.fmt, regsOf f.fmt, regsOf f.fmt, 1)
  | .andn _ f => (regsOf f.fmt, regsOf f.fmt, regsOf f.fmt, 1)
  | .shl _ f => (regsOf f.fmt, regsOf f.fmt, 1, 1)
  | .shr _ f => (regsOf f.fmt, regsOf f.fmt, 1, 1)
  | .rol _ f => (regsOf f.fmt, regsOf f.fmt, 1, 1)
  | .popc _ f => (1, regsOf f.fmt, 1, 1)
  | .clz _ f => (1, regsOf f.fmt, 1, 1)
  | .ctz _ f => (1, regsOf f.fmt, 1, 1)
  | .brev _ f => (regsOf f.fmt, regsOf f.fmt, 1, 1)
  | .bfx _ f => (regsOf f.fmt, regsOf f.fmt, 1, 1)
  | .bfi _ f => (regsOf f.fmt, regsOf f.fmt, regsOf f.fmt, 1)
  | .cmp _ f _ => (1, regsOf f.fmt, regsOf f.fmt, 1)
  | .sel _ f => (regsOf f.fmt, regsOf f.fmt, regsOf f.fmt, 1)
  | .mov _ f => (regsOf f.fmt, 1, regsOf f.fmt, 1)
  | .lea _ f => (2, 2, regsOf f.fmt, 1)
  | .fadd _ f => (regsOf f.fmt, regsOf f.fmt, regsOf f.fmt, 1)
  | .fsub _ f => (regsOf f.fmt, regsOf f.fmt, regsOf f.fmt, 1)
  | .fmul _ f => (regsOf f.fmt, regsOf f.fmt, regsOf f.fmt, 1)
  | .ffma _ f => (regsOf f.fmt, regsOf f.fmt, regsOf f.fmt, regsOf f.fmt)
  | .fmin _ f => (regsOf f.fmt, regsOf f.fmt, regsOf f.fmt, 1)
  | .fmax _ f => (regsOf f.fmt, regsOf f.fmt, regsOf f.fmt, 1)
  | .fabs _ f => (regsOf f.fmt, regsOf f.fmt, 1, 1)
  | .fneg _ f => (regsOf f.fmt, regsOf f.fmt, 1, 1)
  | .fcpsgn _ f => (regsOf f.fmt, regsOf f.fmt, regsOf f.fmt, 1)
  | .fdiv _ f => (regsOf f.fmt, regsOf f.fmt, regsOf f.fmt, 1)
  | .fsqrt _ f => (regsOf f.fmt, regsOf f.fmt, 1, 1)
  | .fcmp _ f => (1, regsOf f.fmt, regsOf f.fmt, 1)
  | .frint _ f => (regsOf f.fmt, regsOf f.fmt, 1, 1)
  | .fclass _ f => (1, regsOf f.fmt, 1, 1)
  | .fscale _ f => (regsOf f.fmt, regsOf f.fmt, 1, 1)
  | .shfl _ f => (if f.wide then 2 else 1, if f.wide then 2 else 1, 1, 1)
  | .bcast _ w => (if w then 2 else 1, if w then 2 else 1, 1, 1)
  | .vote _ .ballot => (2, 1, 1, 1)
  | .sred _ f => (regsOf f.fmt, regsOf f.fmt, 1, 1)
  | .sscan _ f => (regsOf f.fmt, regsOf f.fmt, 1, 1)
  | .cvt _ f => (regsOf f.tgt, regsOf f.src, 1, 1)
  | .ld _ f => (regsOf f.size, 2, 1, 1)
  | .st _ f => (1, 2, 1, regsOf f.size)
  | .stRel _ f => (1, 2, 1, regsOf f.size)
  | .ldl _ f => (regsOf f.size, 1, 1, 1)
  | .stl _ f => (1, 1, 1, regsOf f.size)
  | .pref _ _ => (1, 2, 1, 1)
  | .region _ => (1, 1, 2, 2)
  | .acq _ _ => (1, 1, 2, 1)
  | .atom _ f => (regsOf f.size, 2, 1, regsOf f.size)
  | .atoml _ f => (regsOf f.size, 2, 1, regsOf f.size)
  | .atoms _ f => (regsOf f.size, 1, 1, regsOf f.size)
  | .wmap _ => (1, 2, 1, 1)
  | .qcfg _ => (1, 2, 1, 1)
  | .copy _ => (1, 6, 1, 1)
  | .brx _ => (1, 2, 1, 1)
  | .callx _ => (1, 2, 1, 1)
  | .lpsave _ => (1, 2, 1, 1)
  | .lprest _ => (1, 2, 1, 1)
  | .trigpost _ _ => (1, 6, 1, 1)
  | .tcrd _ => (2, 1, 1, 1)
  | .launch _ => (1, 2, 1, 1)
  | .shootdn _ => (1, 4, 1, 1)
  | .cntrd _ => (2, 1, 1, 1)
  | _ => (1, 1, 1, 1)

/-- The format at which an immediate in place of source B is read (05 R113), and whether it is a packed pair. -/
def immFmt (i : Instr) : Fmt × Bool :=
  match i with
  | .add _ f => (f.fmt, false) | .sub _ f => (f.fmt, false) | .mul _ f => (f.fmt, false) | .mulhi _ f => (f.fmt, false)
  | .mad _ f => (f.fmt, false) | .div _ f => (f.fmt, false) | .rem _ f => (f.fmt, false) | .min _ f => (f.fmt, false)
  | .max _ f => (f.fmt, false) | .and _ f => (f.fmt, false) | .or _ f => (f.fmt, false) | .xor _ f => (f.fmt, false)
  | .andn _ f => (f.fmt, false) | .cmp _ f _ => (f.fmt, false) | .mov _ f => (f.fmt, false) | .lea _ f => (f.fmt, false)
  | .fadd _ f => (f.fmt, f.packed) | .fsub _ f => (f.fmt, f.packed) | .fmul _ f => (f.fmt, f.packed) | .ffma _ f => (f.fmt, f.packed)
  | .fmin _ f => (f.fmt, f.packed) | .fmax _ f => (f.fmt, f.packed) | .fcpsgn _ f => (f.fmt, f.packed) | .fdiv _ f => (f.fmt, f.packed)
  | .fcmp _ f => (f.fmt, false)
  | .fscale _ _ => (.s32, false)
  | .acq _ _ => (.n64, false)
  | _ => (.n32, false)

/-- An immediate read at a format (05 R113), as the bits of an operand of 32 or 64 bits. -/
def immBits (f : Fmt) (packed : Bool) (x32 : Bool) (v : Nat) : Nat :=
  if f.isInt then
    let x : Int := if x32 then (if f.isSigned then sext v 32 else v) else sext v 61
    lowBits x (max f.width 32)
  else if f = .f64 then rnd (val (v % 2 ^ 32) .f32) .f64 .rne
  else if (f = .f16 || f = .bf16) && !packed then v % 2 ^ 16
  else v % 2 ^ 32

/-- Source B as bits: a register field or the immediate that stands in its place. -/
def State.srcB (s : State) (iss : Issue) (t : Nat) (i : Instr) (b : Src) : Nat :=
  match b with
  | .fld f => s.readFld iss t f (widthsOf i).2.2.1
  | .fldOff f _ => s.readFld iss t f (widthsOf i).2.2.1
  | .imm32 v => immBits (immFmt i).1 (immFmt i).2 true v.toNat
  | .imm61 v => immBits (immFmt i).1 (immFmt i).2 false v.toNat
  | .off48 _ => 0

/-- Sources A and C as bits. -/
def State.srcA (s : State) (iss : Issue) (t : Nat) (i : Instr) (o : Ops) : Nat := s.readFld iss t o.a (widthsOf i).2.1
def State.srcC (s : State) (iss : Issue) (t : Nat) (i : Instr) (o : Ops) : Nat := s.readFld iss t o.c (widthsOf i).2.2.2

/-- The signed offset of a memory instruction (08 R163): B as .s32, sext(imm32, 32), or the extension word's 48 bits. -/
def State.offset (s : State) (iss : Issue) (t : Nat) (b : Src) : Int :=
  match b with
  | .fld f => sext (s.readFld iss t f 1) 32
  | .fldOff _ v => sext v.toNat 48
  | .imm32 v => sext v.toNat 32
  | .imm61 v => sext v.toNat 61
  | .off48 v => sext v.toNat 48

/-- A pair of consecutive registers read at code + n, for the six- and four-register operands (08 R198, 10 R228, R249). -/
def State.pairAt (s : State) (iss : Issue) (t : Nat) (f : Fld) (n : Nat) : Nat :=
  match f with
  | .v r => s.readFld iss t (.v (r + BitVec.ofNat 8 n)) 2
  | .k r => s.readFld iss t (.k (r + BitVec.ofNat 6 n)) 2
  | _ => 0

/-- The ports of 01 R22. -/
inductive Port | arith | sfu | lane | mem | sync | matrix | ctl
  deriving DecidableEq, Repr, Inhabited

/-- The port of an instruction (01 R22), from its major opcode. -/
def portOf (i : Instr) : Port :=
  match i.opcode with
  | none => .ctl
  | some op =>
    if op < 0x2B then .arith else if op < 0x32 then .sfu else if op < 0x40 then .arith
    else if op < 0x50 then .lane else if op < 0x60 then .arith else if op < 0x90 then .mem else if op < 0xA0 then .sync
    else if op < 0xC0 then .matrix else if op < 0xE0 then .ctl else if op < 0xF0 then .sync else .ctl

/-- True of the 64-bit formats of an arithmetic instruction that take 8 ck and occupy their pipe for 2 (01 R28, 07 R135). -/
def isDouble (i : Instr) : Bool :=
  match i with
  | .mul _ f => f.fmt.width = 64 | .mulhi _ f => f.fmt.width = 64 | .mad _ f => f.fmt.width = 64
  | .div _ f => f.fmt.width = 64 | .rem _ f => f.fmt.width = 64
  | .cvt _ f => f.tgt = .f64 || f.src = .f64
  | .cvtpk _ _ => false
  | _ => match i.opcode with
    | some op => decide (0x20 ≤ op ∧ op < 0x40) && (immFmt i).1 = .f64 || decide (0x20 ≤ op ∧ op < 0x40) && (widthsOf i).2.1 = 2
    | none => false

/-- The fixed latency of 01 R28 and 07 R135; none for a variable latency. The integer instructions that neither names take 2 ck (log 85). -/
def latencyOf (i : Instr) : Option Nat :=
  match i with
  | .mul _ _ => some (if isDouble i then 8 else 4)
  | .mulhi _ _ => some (if isDouble i then 8 else 4)
  | .mad _ _ => some (if isDouble i then 8 else 4)
  | .div _ _ => some (if isDouble i then 8 else 4)
  | .rem _ _ => some (if isDouble i then 8 else 4)
  | _ => match i.opcode with
    | none => none
    | some op =>
      if op < 0x20 then some 2
      else if op < 0x2B then some (if isDouble i then 8 else 4)
      else if op < 0x32 then some 12
      else if op < 0x40 then some (if isDouble i then 8 else 4)
      else if op < 0x50 then some 6
      else if op < 0x60 then some (if isDouble i then 8 else 4)
      else none

/-! ### Checks at decode and issue -/

/-- What a thread's execution raises: trap code, cause, data for TREC4, access kind (10 R241, R242). -/
structure Trap where
  code : Nat
  cause : Nat
  data : Nat := 0
  kind : Nat := 0
  deriving DecidableEq, Repr, Inhabited

/-- How one thread leaves an instruction: on to the next one, to another PC, in a state at the same PC, with a trap, or ended. -/
inductive Ret
  | next
  | jump (pc : Nat)
  | stay (r : Run)
  | trap (x : Trap)
  | gone
  deriving DecidableEq, Repr, Inhabited

/-- Check 6 on one field of n registers: every v code lies below the budget; a multi-register k operand stays within k63 (log 11). -/
def fldBudget (budget : Nat) (f : Fld) (n : Nat) : Bool :=
  match f with
  | .v r => decide (r.toNat + (if n > 2 then n - 1 else 0) < budget)
  | .k r => decide (r.toNat + (if n > 2 then n - 1 else 0) < 64)
  | _ => true

/-- Check 7 on one field: a pair is named by an even code (01 R13). -/
def fldEven (f : Fld) (n : Nat) : Bool :=
  match f with
  | .v r => n = 1 || r.toNat % 2 = 0
  | .k r => n = 1 || r.toNat % 2 = 0
  | _ => true

/-- The register field of source B. -/
def bFld (b : Src) : Fld :=
  match b with
  | .fld f => f
  | .fldOff f _ => f
  | _ => .zero

/-- CAS reads its comparand from D (08 R176); every other D is only written. -/
def readsD (i : Instr) : Bool :=
  match i with
  | .atom _ f => f.op = .cas
  | .atoml _ f => f.op = .cas
  | .atoms _ f => f.op = .cas
  | _ => false

/-- The operand fields of an instruction with their widths, destination first. -/
def fields (i : Instr) (o : Ops) : List (Fld × Nat) :=
  [(o.d, (widthsOf i).1), (o.a, (widthsOf i).2.1), (bFld o.b, (widthsOf i).2.2.1), (o.c, (widthsOf i).2.2.2)]

/-- The implied registers of CALL, CALLX and RET (09 R219): sources, destinations. -/
def impliedDst (i : Instr) : List (Fld × Nat) :=
  match i with
  | .call _ => [(.v 0, 2)]
  | .callx _ => [(.v 0, 2)]
  | _ => []
def impliedSrc (i : Instr) : List (Fld × Nat) :=
  match i with
  | .ret _ => [(.v 0, 2)]
  | _ => []

/-- The source fields. -/
def sources (i : Instr) (o : Ops) : List (Fld × Nat) :=
  (fields i o).tail ++ impliedSrc i ++ if readsD i then [(o.d, (widthsOf i).1)] else []

/-- Instructions that a Marl core refuses (01 R33, R396): matrix, windows, named barriers, queues, copies. -/
def marlIllegal (i : Instr) : Bool :=
  match i.opcode with
  | some op => decide (0xA0 ≤ op ∧ op < 0xC0) || decide (0x88 ≤ op ∧ op < 0xA0)
  | none => false

/-- Checks 6, 7 and 8 of 05 R116, the Marl check of 01 R396, and the loop-nesting fault at issue: the trap a thread takes whatever its guard; before
them, the trap of a lost die (20 R364), outside a handler and between instructions. -/
def State.preTrap (s : State) (iss : Issue) (i : Instr) (o : Ops) (count : Nat) (t : Nat) : Option Trap :=
  let b := (s.squad (squadOf t)).budget
  if (s.thread t).lossPend && !(s.thread t).supervisor && (s.thread t).phase = 0 then some ⟨16, 0, 0, 0⟩
  else if !((fields i o).all fun f => fldBudget b f.1 f.2) then some ⟨1, 6, 0, 0⟩
  else if !((fields i o).all fun f => fldEven f.1 f.2) then some ⟨1, 7, 0, 0⟩
  else if count ≥ 8 && o.h.chain then some ⟨1, 8, 0, 0⟩
  else if isMarl iss.core && marlIllegal i then some ⟨1, 9, 0, 0⟩
  else
    match (s.thread t).loopFault iss.pc (portOf i = .ctl) with
    | 0 => none
    | c => some ⟨5, c, ((s.thread t).lc ((s.thread t).depth - 1)).stop * 4, 0⟩

/-- A latch is valid for a thread: in the slot, or among those that an instruction it has not left found valid (01 R26). -/
def State.latchAt (s : State) (iss : Issue) (t b : Nat) : Bool :=
  match (s.thread t).first with
  | some f => (tget? f.latch b).isSome
  | none => s.latchValid iss.core iss.slot b
/-- A source latch that is not valid (01 R26). -/
def State.latchTrap (s : State) (iss : Issue) (i : Instr) (o : Ops) (t : Nat) : Bool :=
  (sources i o).any fun f => match f.1 with | .b n => !s.latchAt iss t n.toNat | _ => false

/-! ### Retirement -/

/-- The order of 05 R116 and 08 R166 among the traps of one group. -/
def Trap.rank (x : Trap) : Nat :=
  match x.code with
  | 1 => 0 | 5 => 1 | 4 => 1 | 3 => 2 | 13 => 3
  | 6 => if x.cause = 8 then 6 else 4
  | 7 => 5 | 8 => 6 | 9 => 7 | 10 => 8 | 11 => 9 | _ => 10

/-- Traps of one group gathered by squad, code and cause: the first thread's data, the mask of lanes (08 R166). -/
def gatherTraps : List (Nat × Trap) → List (Nat × Trap × List Nat)
  | [] => []
  | (t, x) :: r =>
    let rest := gatherTraps r
    match rest.find? fun y => y.1 = squadOf t ∧ y.2.1.code = x.code ∧ y.2.1.cause = x.cause with
    | some y => (squadOf t, x, t :: y.2.2) :: rest.erase y
    | none => (squadOf t, x, [t]) :: rest

/-- The gathered traps in the order of their checks. -/
def orderTraps (l : List (Nat × Trap × List Nat)) : List (Nat × Trap × List Nat) :=
  (List.range 11).flatMap fun r => l.filter fun y => y.2.1.rank = r

/-- The registers in flight that an instruction's result occupies (01 R28): v registers and predicates of the thread. -/
def State.destBusy (s : State) (t : Nat) (f : Fld) (n ready : Nat) : List Busy :=
  let b := (s.squad (squadOf t)).base
  let r := (s.thread t).rotNow
  match f with
  | .v x => ⟨physReg b r x.toNat, ready, none⟩ :: if n = 2 then [⟨physReg b r (x.toNat + 1), ready, none⟩] else []
  | .pred p => [⟨2048 + p.toNat, ready, none⟩]
  | _ => []

/-- The registers of a k destination in flight (01 R28): they are the squad's. -/
def kDest (f : Fld) (n ready : Nat) (msg : Option Nat) : List Busy :=
  match f with
  | .k r => (List.range n).map fun j => ⟨r.toNat + j, ready, msg⟩
  | _ => []

/-- A squad's k registers enter flight; those whose result has come leave the list. -/
def State.kFly (s : State) (q : Nat) (l : List Busy) (ck : Nat) : State :=
  if l = [] then s else s.modSquad q fun x => { x with kbusy := l ++ x.kbusy.filter fun b => b.ready > ck || b.msg.isSome }

/-- A thread moves on past the instruction at pc: the loop update, the next PC, ready again (02 R38). -/
def State.retire (s : State) (t pc next : Nat) : State :=
  let x := (s.thread t).loopUpdate pc next
  (s.unplace t).setThread t { x.1.anew with pc := x.2, run := .ready }

/-- A thread goes to a PC without a loop update. -/
def State.goto (s : State) (t pc : Nat) : State :=
  (s.unplace t).modThread t fun th => { th.anew with pc := pc, run := .ready }

/-- A thread leaves the issue table in a state, at its PC. -/
def State.hold (s : State) (t : Nat) (r : Run) : State := (s.unplace t).modThread t fun th => { th with run := r }

/-- The open chain that a group stands in: its slot's; a group that goes on outside the slots stands in none but its own. -/
def State.chainOf (s : State) (iss : Issue) : Option Chain :=
  ((s.core iss.core).slot iss.slot).chain.filter fun ch => !iss.again || decide (ch.members = iss.threads)
/-- The chain as the instruction at pc finds it: the open one with this member added, or a new one (01 R26), with the allocation ck of the entry it issues
from (R23); the head of a chain that has ended at this instruction stays its threads' head (R27). -/
def State.chainAt (s : State) (iss : Issue) : Chain :=
  match s.chainOf iss with
  | some ch => { ch with count := ch.count + 1 }
  | none =>
    let c := s.core iss.core
    let e := c.entries.find? fun e => e.pc = iss.pc && e.members.any fun m => iss.threads.contains m.1
    ⟨match (s.thread (iss.threads.headD 0)).first with | some f => f.head | none => iss.pc,
     match e with | some e => e.alloc | none => c.ck, 1, iss.threads⟩

/-- True of a way out that ends the group's chain from within: a trap, or a thread parked (01 R26, R27). -/
def Ret.strikes : Ret → Bool
  | .trap _ => true
  | .stay (.parked _) => true
  | _ => false

/-- True of a way out that only waits at the instruction, in no state of 01 R17's that ends a chain (log 98). -/
def Ret.waits : Ret → Bool
  | .stay (.blocked .msgs) => true
  | .stay (.blocked .again) => true
  | _ => false

/-- The trap of a way out. -/
def Ret.trapOf : Nat × Ret → Option (Nat × Trap)
  | (t, .trap x) => some (t, x)
  | _ => none

/-- True of a thread after whose way out the chain may go on: it goes to the next instruction in order, by no back edge (02 R40), or its access waits. -/
def State.through (s : State) (pc next : Nat) (x : Nat × Ret) : Bool :=
  match x.2 with
  | .next => !(s.thread x.1).backEdge pc && decide (((s.thread x.1).loopUpdate pc next).2 = next)
  | r => r.strikes || r.waits

/-- The first guard-true thread of each squad of the group writes a k destination (01 R15; of a group with threads of several squads each squad's own,
log 78): the group that issued, for a thread that has not left the instruction since. -/
def kWriter (s : State) (iss : Issue) (o : Ops) (t : Nat) : Bool :=
  match (s.thread t).first with
  | some f => f.kw
  | none => (iss.threads.find? fun u => squadOf u = squadOf t && (s.thread u).guard o.h) = some t

/-- What a thread keeps that does not leave the instruction: as its group issued. -/
def State.keeps (s : State) (iss : Issue) (o : Ops) (ch : Chain) (t : Nat) : First :=
  (s.thread t).first.getD
    { kw := kWriter s iss o t, head := ch.head, slot := iss.slot, ck := (s.core iss.core).ck
      latch := ((List.range 4).filter (s.latchValid iss.core iss.slot)).map fun b => (b, s.readLatch iss.core iss.slot b (laneOf t)) }
/-- A thread stays at its instruction; one that parks will execute it, or its chain, afresh (01 R27, 20 R353). -/
def State.stayAt (s : State) (t : Nat) (r : Run) (f : First) : State :=
  match r with
  | .parked _ => s.hold t r
  | _ => (s.hold t r).modThread t fun th => { th with first := some f }

/-- One thread of a group leaves an instruction: it retires, its result in flight unless nothing is written to the register (01 R28, 05 R111), or jumps, or
stays. s0: the state after the instruction's effect. -/
def State.leave (s0 : State) (iss : Issue) (i : Instr) (o : Ops) (ch : Chain) (s : State) (x : Nat × Ret) : State :=
  let ck := (s0.core iss.core).ck
  match x.2 with
  | .next =>
    let s := s.retire x.1 iss.pc ((iss.pc + i.length) % 2 ^ 64)
    match latencyOf i with
    | some n =>
      if (s0.thread x.1).guard o.h && !o.h.wbs then
        let s := s.modThread x.1 fun th =>
          { th with busy := (th.busy.filter fun b => b.ready > ck || b.msg.isSome) ++ s0.destBusy x.1 o.d (widthsOf i).1 (ck + n) }
        s.kFly (squadOf x.1) (kDest o.d (widthsOf i).1 (ck + n) none) ck
      else s
    | none => s
  | .jump pc => s.goto x.1 pc
  | .stay r => s.stayAt x.1 r (s0.keeps iss o ch x.1)
  | .trap _ => s
  | .gone => s
/-- One thread of a group whose chain stays open at an instruction, since an access of it waits: a thread that has had its effect waits for the others. -/
def State.linger (s0 : State) (iss : Issue) (o : Ops) (ch : Chain) (s : State) (x : Nat × Ret) : State :=
  match x.2 with
  | .next => s.modThread x.1 fun th => { th.anew with run := .ready, first := some { s0.keeps iss o ch x.1 with done := true } }
  | .stay r => s.stayAt x.1 r (s0.keeps iss o ch x.1)
  | _ => s

/-- A thread that went on or waits goes back to the chain's head (01 R27). -/
def State.backTo (head : Nat) (s : State) (x : Nat × Ret) : State :=
  match x.2 with
  | .next => s.goto x.1 head
  | r => if r.waits then s.goto x.1 head else s
/-- A parked thread will continue at the chain's head (01 R27), where it executes afresh. -/
def State.parkTo (head : Nat) (s : State) (x : Nat × Ret) : State :=
  match x.2 with
  | .stay (.parked _) => s.modThread x.1 fun th => { th.anew with pc := head }
  | _ => s

/-- The slot after an instruction: its chain goes on with the latch in flight, or ends (01 R26). -/
def Slot.after (x : Slot) (goes : Bool) (ck : Nat) (i : Instr) (o : Ops) (ch : Chain) : Slot :=
  if goes then
    { x with
      chain := some ch
      lbusy := match latchOf o, latencyOf i with
        | some b, some n => ⟨b, ck + n, none⟩ :: x.lbusy.filter fun y => y.ready > ck
        | _, _ => x.lbusy }
  else { x with chain := none, valid := 0, lbusy := [] }

/-- True of a state in which a thread's access or operation only waits at the instruction. -/
def Run.waits (r : Run) : Bool := (Ret.stay r).waits
/-- The open chain of a slot is abandoned: its threads stand at its head again, those too whose access waits, its latches are invalid (01 R27). -/
def State.breakSlot (s : State) (k slot : Nat) : State :=
  match ((s.core k).slot slot).chain with
  | none => s
  | some ch =>
    (ch.members.foldl (fun (s : State) t =>
        if (s.thread t).run = .ready ∨ (s.thread t).run.waits = true then s.goto t ch.head else s) s).modCore k fun c =>
      c.setSlot slot { c.slot slot with chain := none, valid := 0, lbusy := [] }
/-- The open chain that a thread is in. -/
def State.openChain (s : State) (t : Nat) : Option (Nat × Chain) :=
  (List.range 2).findSome? fun n =>
    match ((s.core (coreOf t)).slot n).chain with
    | some ch => if ch.members.contains t then some (n, ch) else none
    | none => none
/-- The PC at which a thread continues: the head of its open chain, or of the chain that ended at the instruction it has not left; else its own PC. -/
def State.chainHead (s : State) (t : Nat) : Nat :=
  match s.openChain t, (s.thread t).first with
  | some x, _ => x.2.head
  | none, some f => f.head
  | none, none => (s.thread t).pc
/-- A thread leaves its open chain between instructions: the whole group goes back to the head. -/
def State.breakChain (s : State) (t : Nat) : State := match s.openChain t with | some x => s.breakSlot (coreOf t) x.1 | none => s

/-- A gathered trap of a group is taken; the PC to continue at is the next one after a TRAP or BKPT, else the chain's head (10 R242). -/
def State.takeGathered (s : State) (iss : Issue) (next head : Nat) (y : Nat × Trap × List Nat) : State :=
  let x := y.2.1
  s.takeTrap y.1
    { code := x.code, cause := x.cause, pc := iss.pc, data := x.data, kind := x.kind
      epc := if x.code = 14 ∨ x.code = 15 then next else head
      nbytes := iss.nbytes, bytes := iss.bytes, mask := laneMask y.2.2 }

/-- The end of the instruction of one group: threads retire, stay or trap; the chain goes on or ends, and a trap or park before the last member
sends the whole group back to the chain's head (01 R26, R27). While an access of a member before the last waits, the group stays there with its chain
open. An instruction that a chain ended at begins no new one. -/
def State.finish (s : State) (iss : Issue) (i : Instr) (o : Ops) (ch : Chain) (outs : List (Nat × Ret)) : State :=
  let next := (iss.pc + i.length) % 2 ^ 64
  let strikes := outs.any fun x => x.2.strikes
  let mid := o.h.chain && decide (portOf i ≠ .ctl) && outs.all (s.through iss.pc next) &&
    ((s.chainOf iss).isSome || iss.threads.all fun t => (s.thread t).first = none)
  let waits := mid && !strikes && outs.any fun x => x.2.waits
  let s1 := outs.foldl (if waits then s.linger iss o ch else s.leave iss i o ch) s
  let s2 := if strikes && mid then outs.foldl (State.backTo ch.head) s1 else s1
  let s3 := outs.foldl (State.parkTo ch.head) s2
  let s4 := if iss.again && (s.chainOf iss).isNone then s3 else s3.modCore iss.core fun c =>
    c.setSlot iss.slot ((c.slot iss.slot).after (mid && !strikes) (s.core iss.core).ck i o { ch with count := ch.count - waits.toNat })
  (orderTraps (gatherTraps (outs.filterMap Ret.trapOf))).foldl (fun s y => s.takeGathered iss next ch.head y) s4

/-- An instruction's effect on one guard-true thread: the state before the group's instruction, the state so far, the thread. -/
abbrev Body := State → State → Nat → State × Ret

/-- The state as a group's instruction finds it: at the start of a chain every latch of the slot is invalid (01 R26). -/
def State.begun (s : State) (iss : Issue) : State :=
  if (s.chainAt iss).count = 1 ∧ iss.again = false then s.modCore iss.core fun c => c.setSlot iss.slot { c.slot iss.slot with valid := 0, latch := [] } else s

/-- One thread of a group at an instruction: nothing more for one that has had its effect; else the checks that hold whatever the guard, latch traps and the effect for a guard-true thread, nothing for
another (05 R109). s0: the state before; count: the instruction's place in its chain. -/
def runThread (i : Instr) (o : Ops) (body : Body) (s0 : State) (iss : Issue) (count : Nat) (acc : State × List (Nat × Ret)) (t : Nat) :
    State × List (Nat × Ret) :=
  if (s0.thread t).done then (acc.1, (t, .next) :: acc.2)
  else match s0.preTrap iss i o count t with
  | some y => (acc.1, (t, .trap y) :: acc.2)
  | none =>
    if (s0.thread t).guard o.h then
      if s0.latchTrap iss i o t then (acc.1, (t, .trap ⟨3, 0, 0, 0⟩) :: acc.2)
      else ((body s0 acc.1 t).1, (t, (body s0 acc.1 t).2) :: acc.2)
    else (acc.1, (t, .next) :: acc.2)

/-- The instruction of one group, thread by thread in ascending lane order, then retirement. -/
def runGroup (i : Instr) (o : Ops) (body : Issue → Body) (s : State) : State :=
  match s.issue with
  | none => s
  | some iss =>
    let ch := s.chainAt iss
    let s0 := s.begun iss
    let s1 := match latchOf o with | some b => s0.clearLatch iss.core iss.slot b | none => s0
    let x := iss.threads.foldl (runThread i o (body iss) s0 iss ch.count) (s1, [])
    x.1.finish iss i o ch x.2.reverse

/-- A fixed-latency instruction: D := f a b c, on bits (07 R134). -/
def alu (i : Instr) (o : Ops) (f : Nat → Nat → Nat → Nat) (s : State) : State :=
  runGroup i o (fun iss s0 s t =>
    (s.writeD iss o t (f (s0.srcA iss t i o) (s0.srcB iss t i o.b) (s0.srcC iss t i o)) (widthsOf i).1 (kWriter s0 iss o t), .next)) s

/-! ### Collectives (01 R29 to R31) -/

/-- How a completed collective leaves its squad: done, kept in hold until a later event, or a trap taken once for the lowest guard-true lane. -/
inductive Gathered
  | done
  | keep
  | trap (x : Trap)
  deriving DecidableEq, Repr, Inhabited

/-- The barrier of 01 R31's third case: a thread of the squad blocked at a named barrier. -/
def Thread.atBarrier (th : Thread) : Bool := match th.run with | .blocked (.barrier _ _ _) => true | _ => false

/-- R31's cases 1 and 3 for a squad whose group arrives at pc: cause and the other PC. -/
def State.convergence (s : State) (q pc : Nat) : Option Trap :=
  let ts := s.squadThreads q
  if ts.any fun t => (s.thread t).run = .exited then some ⟨4, 1, 0, 0⟩
  else
    match ts.find? fun t => (s.thread t).run = .hold && (s.thread t).pc ≠ pc || (s.thread t).atBarrier with
    | some t => some ⟨4, 3, (s.thread t).pc, 0⟩
    | none => none

/-- The leader of a gathered squad: the lowest guard-true lane (09 R202). -/
def State.leader (s : State) (ts : List Nat) : Option Nat := ts.find? fun t => (s.thread t).heldGuard

/-- The threads of a squad leave hold together and continue (01 R30); a fixed latency counts from here (01 R28). -/
def State.release (s : State) (i : Instr) (o : Ops) (ts : List Nat) : State :=
  ts.foldl (fun s t =>
    let th := s.thread t
    let ck := (s.core (coreOf t)).ck
    let fly (f : Nat → List Busy) : List Busy := match latencyOf i with
      | some n => if th.heldGuard && !o.h.wbs then f (ck + n) else []
      | none => []
    let busy := fly (s.destBusy t o.d (widthsOf i).1)
    let kbusy := fly fun r => kDest o.d (widthsOf i).1 r none
    let s := s.retire t th.pc ((th.pc + i.length) % 2 ^ 64)
    (s.modThread t fun th => { th with busy := th.busy ++ busy }).kFly (squadOf t) kbusy ck) s

/-- Completion of a collective for a squad whose threads all hold at it. -/
def State.gatherDone (s : State) (iss : Issue) (i : Instr) (o : Ops) (act : Issue → List Nat → State → State × Gathered) (ts : List Nat) : State :=
  let r := act iss ts s
  match r.2 with
  | .done => r.1.release i o ts
  | .keep => r.1
  | .trap x =>
    let lead := (s.leader ts).getD (ts.headD 0)
    let s := ts.foldl (fun s t => s.modThread t fun th => { th with run := .ready }) r.1
    s.takeTrap (squadOf lead)
      { code := x.code, cause := x.cause, pc := iss.pc, data := x.data, kind := x.kind, epc := s.chainHead lead
        nbytes := iss.nbytes, bytes := iss.bytes, mask := laneMask [lead] }

/-- One thread of a group at a collective: what early says, or a convergence trap (01 R31), or it enters hold with its operands (01 R30). A guard-false
thread takes no latch trap (05 R109) and supplies what an invalid latch holds, 0 (log 87). -/
def arriveThread (i : Instr) (o : Ops) (early : State → State → Nat → Option (State × Ret)) (s0 : State) (iss : Issue) (count : Nat)
    (acc : State × List (Nat × Ret)) (t : Nat) : State × List (Nat × Ret) :=
  match s0.preTrap iss i o count t with
  | some y => (acc.1, (t, .trap y) :: acc.2)
  | none =>
    match early s0 acc.1 t with
    | some r => (r.1, (t, r.2) :: acc.2)
    | none =>
      match (if isMarl iss.core then none else s0.convergence (squadOf t) iss.pc) with
      | some y => (acc.1, (t, .trap y) :: acc.2)
      | none =>
        let g := (s0.thread t).guard o.h
        if g && s0.latchTrap iss i o t then (acc.1, (t, .trap ⟨3, 0, 0, 0⟩) :: acc.2)
        else
          (acc.1.modThread t fun th =>
            { th with heldA := s0.srcA iss t i o, heldB := s0.srcB iss t i o.b, heldC := s0.srcC iss t i o, heldGuard := g },
           (t, .stay .hold) :: acc.2)

/-- A squad of the core completes its collective where every thread of it holds at this PC (01 R30). -/
def State.gatherSquad (iss : Issue) (i : Instr) (o : Ops) (act : Issue → List Nat → State → State × Gathered) (s : State) (q : Nat) : State :=
  let ts := s.squadThreads q
  if ts ≠ [] ∧ (ts.all fun t => (s.thread t).run = .hold && (s.thread t).pc = iss.pc) then s.gatherDone iss i o act ts else s

/-- A squad-collective instruction: each thread of the group arrives with its operands and enters hold; when every thread of its squad holds at
this PC, the operation takes effect once (01 R30, 07 R157). On a Marl core it completes at once over the single thread (01 R33). early: what a
thread does that is past its arrival or cannot arrive yet (08 R168); none for a thread that arrives. -/
def runGathered (i : Instr) (o : Ops) (early : Issue → State → State → Nat → Option (State × Ret))
    (act : Issue → List Nat → State → State × Gathered) (s : State) : State :=
  match s.issue with
  | none => s
  | some iss =>
    let ch := s.chainAt iss
    let s0 := s.begun iss
    let x := iss.threads.foldl (arriveThread i o (early iss) s0 iss ch.count) (s0, [])
    let s := x.1.finish iss i o ch x.2.reverse
    (((List.range 32).map (squadKey iss.core)).filter fun q => iss.threads.any fun t => squadOf t = q).foldl (State.gatherSquad iss i o act) s

/-- A squad-collective instruction at which every thread arrives when it issues. -/
def runCollective (i : Instr) (o : Ops) (act : Issue → List Nat → State → State × Gathered) (s : State) : State :=
  runGathered i o (fun _ _ _ _ => none) act s

/-- The value a collective writes to each guard-true thread of a gathered squad; a k destination takes the lowest guard-true lane's (07 R157). -/
def writeAll (iss : Issue) (o : Ops) (n : Nat) (v : Nat → Nat) (ts : List Nat) (s : State) : State :=
  let lead := s.leader ts
  ts.foldl (fun s' t => if (s.thread t).heldGuard then s'.writeD iss o t (v t) n (lead = some t) else s') s

end Sys2Proof.Machine
end

