-- ==== Sys2Proof/Machine/Mem.lean ====
section
/-! DEFINITION. Memory: the home values of all words in canonical form, scratchpads, the copies held at levels and the owner entries of homes
(03 R50 to R64), page walks and translation caches (20 R348 to R352). -/

namespace Sys2Proof.Machine

/-! ### Home memory (00 R5, R9) -/

/-- What an unlisted address reads as (log 2). -/
def memDefault : Byte := 0

/-- One byte of memory. -/
def memGet : List Host.Cell → Nat → Byte
  | [], _ => memDefault
  | (k, v) :: m, a => if k = a then v else memGet m a

/-- Memory with one byte written, in canonical form: addresses strictly rising, no entry equal to the default. -/
def memSet : List Host.Cell → Nat → Byte → List Host.Cell
  | [], a, v => if v = memDefault then [] else [(a, v)]
  | (k, w) :: m, a, v =>
    if a < k then (if v = memDefault then (k, w) :: m else (a, v) :: (k, w) :: m)
    else if k = a then (if v = memDefault then m else (a, v) :: m)
    else (k, w) :: memSet m a v

/-- The canonical form. -/
def memWf : List Host.Cell → Bool
  | [] => true
  | (k, v) :: m => decide (v ≠ memDefault) && (match m with | [] => true | (k', _) :: _ => decide (k < k')) && memWf m

/-- n bytes from an address, little-endian (00 R9). -/
def memRead (m : List Host.Cell) (a : Nat) : Nat → Nat
  | 0 => 0
  | n + 1 => (memGet m a).toNat + 256 * memRead m (a + 1) n
/-- n bytes written at an address. -/
def memWrite (m : List Host.Cell) (a : Nat) : Nat → Nat → List Host.Cell
  | 0, _ => m
  | n + 1, v => memWrite (memSet m a (BitVec.ofNat 8 v)) (a + 1) n (v / 256)

/-- True of a system physical address that a rule places: Kaolin memory (03 R51), the host link's register page (20 R354) and the windows of the
storage drives (22 R390). -/
def placed (pa : Nat) : Bool :=
  let l := pa % 2 ^ 46
  decide (l < 2 ^ 39) || decide (0x3F0000000000 ≤ l ∧ l < 0x3F0000010000) || decide (0x3F1000000000 ≤ l ∧ l < 0x3F1800000000)

/-- True of Kaolin memory; the other placed addresses are devices, which keep no bytes here. -/
def inRam (pa : Nat) : Bool := decide (pa % 2 ^ 46 < 2 ^ 39)

/-- The home's value of a word. -/
def State.homeWord (s : State) (w : Nat) : Word := BitVec.ofNat 32 (memRead s.mem (4 * w) 4)
/-- Writing the home's value of a word. -/
def State.setHomeWord (s : State) (w : Nat) (v : Word) : State :=
  if inRam (4 * w) then { s with mem := memWrite s.mem (4 * w) 4 v.toNat } else if placed (4 * w) then s else { s with hole := true }

/-- The bytes of a word that a 4-bit mask selects taken from the first, the others from the second (03 R57). -/
def mergeWord (bm : Nat) (x y : Word) : Word :=
  BitVec.ofNat 32 ((List.range 4).foldl (fun r i => r + (if bm.testBit i then x else y).toNat / 2 ^ (8 * i) % 256 * 2 ^ (8 * i)) 0)

/-! ### Scratchpads (03 R50) -/

/-- The key of a scratchpad byte. -/
def scratchKey (core off : Nat) : Nat := core * 2 ^ 21 + off
/-- One byte of a scratchpad: a free value until written after the core was set up (12 R270). -/
def State.scratchByte (s : State) (k : Nat) : Byte :=
  match tget? s.scratch k with
  | some b => b
  | none => Config.freeScratch (tget (s.core (k / 2 ^ 21)).pinEpoch (k % 2 ^ 21 / 2 ^ 16) (s.core (k / 2 ^ 21)).epoch) k
def State.setScratchByte (s : State) (k : Nat) (b : Byte) : State := { s with scratch := tset s.scratch k b }
/-- n bytes of a scratchpad, little-endian. -/
def State.scratchRead (s : State) (k : Nat) : Nat → Nat
  | 0 => 0
  | n + 1 => (s.scratchByte k).toNat + 256 * s.scratchRead (k + 1) n
def State.scratchWrite (s : State) (k : Nat) : Nat → Nat → State
  | 0, _ => s
  | n + 1, v => (s.setScratchByte k (BitVec.ofNat 8 v)).scratchWrite (k + 1) n (v / 256)

/-! ### Levels (03 R53 to R55) -/

/-- Level numbers of a cluster L1, a die L2, a package's LLC (for remote words) and a Marl core's private caches. -/
def l1Level (cluster : Nat) : Nat := cluster
def l2Level (die : Nat) : Nat := 4096 + die
def llcLevel (p : Nat) : Nat := 8192 + p
def marlLevel (core : Nat) : Nat := 16384 + pkgOf core * 96 + (numOf core - 256)
def copyKey (level w : Nat) : Nat := level * 2 ^ 50 + w
def State.copy (s : State) (level w : Nat) : Option Copy := tget? s.copies (copyKey level w)
def State.setCopy (s : State) (level w : Nat) (c : Copy) : State := { s with copies := tset s.copies (copyKey level w) c }
def State.delCopy (s : State) (level w : Nat) : State := { s with copies := tdel s.copies (copyKey level w) }

/-- The 16-bit agent of a Loam die, a Marl core, a copy engine, an Aster unit (03 R53). -/
def dieAgent (die : Nat) : Nat := die / 8 * 1024 + die % 8
def marlAgent (core : Nat) : Nat := pkgOf core * 1024 + 8 + (numOf core - 256)
def engineAgent (cluster : Nat) : Nat := cluster / 64 * 1024 + 104 + cluster % 64
def asterAgent (die : Nat) : Nat := die / 8 * 1024 + 168 + die % 8
def siltAgent (p port : Nat) : Nat := p * 1024 + 176 + port
def hostAgent (p : Nat) : Nat := p * 1024 + 184
/-- The home agent of a core's threads (03 R68). -/
def homeAgent (core : Nat) : Nat := if isMarl core then marlAgent core else dieAgent (dieOf core)
/-- The die key of a die agent, the core key of a Marl agent. -/
def agentDie (a : Nat) : Nat := a / 1024 * 8 + a % 1024
def agentMarl (a : Nat) : Nat := coreKey (a / 1024) (a % 1024 - 8 + 256)

/-- The stack of 03 R51's hash. -/
def stackOf (pa : Nat) : Nat :=
  (List.range 3).foldl (fun r i =>
    r + ((List.range 9).foldl (fun x j => x ^^ pa.testBit (12 + 3 * j + i)) false).toNat * 2 ^ i) 0
/-- The endpoint of a word's home (21 R394): sockets 10 to 17 hold the Kaolin stacks, 18 the host control link and storage root ports 0 to 3, 19 the
other ports (00 R2, 20 R354, 22 R390). -/
def homeEnd (w : Nat) : Nat :=
  let l := 4 * w % 2 ^ 46
  65536 + w / 2 ^ 44 * 32 +
    if inRam l then 10 + stackOf (4 * w) else if decide (0x3F1400000000 ≤ l ∧ l < 0x3F1800000000) then 19 else 18

/-! ### Owner entries (03 R55, R59) -/

def State.entries (s : State) (w : Nat) : List OwnerEntry := tget s.owners (w / 16) []
def State.setEntries (s : State) (w : Nat) (l : List OwnerEntry) : State :=
  { s with owners := if l = [] then tdel s.owners (w / 16) else tset s.owners (w / 16) l }
/-- The entry that a word is registered in. -/
def State.ownerOf (s : State) (w : Nat) : Option OwnerEntry := (s.entries w).find? fun e => e.mask.testBit (w % 16)
/-- The word's bit cleared from an agent's entry; an entry whose mask becomes zero is freed. -/
def State.unregister (s : State) (w a : Nat) : State :=
  s.setEntries w (((s.entries w).map fun e =>
    if e.agent = a ∧ e.mask.testBit (w % 16) = true then { e with mask := e.mask - 2 ^ (w % 16) } else e).filter fun e => e.mask ≠ 0)
/-- The current release count of an agent (03 R74). -/
def State.releases (s : State) (a : Nat) : Nat := tget s.relcount a 0
def State.bumpRelease (s : State) (a : Nat) : State := { s with relcount := tset s.relcount a ((s.releases a + 1) % 2 ^ 16) }
/-- The word registered to agent a with its present release count; the entry is found or made last in order of creation; a word that a owns already
changes nothing (03 R55, R59). -/
def State.register (s : State) (w a : Nat) : State :=
  let l := s.entries w
  let b := 2 ^ (w % 16)
  match l.find? fun e => e.agent = a with
  | some f =>
    if f.mask.testBit (w % 16) then s
    else
      s.setEntries w ((l.map fun e =>
        if e = f then { e with mask := e.mask + b, relcount := s.releases a }
        else if e.agent = a ∧ e.mask.testBit (w % 16) = true then { e with mask := e.mask - b } else e).filter fun e => e.mask ≠ 0)
  | none => s.setEntries w (l ++ [{ relcount := s.releases a, mask := b, agent := a }])

/-! ### Where owned data lies (03 R55, R58, R62) -/

/-- The data of a copy: its own, or the scratchpad's for a window word. -/
def State.copyVal (s : State) (c : Copy) : Word :=
  match c.win with
  | some k => BitVec.ofNat 32 (s.scratchRead k 4)
  | none => c.val

/-- The owned data of a die: at the L2, or in the L1 of the cluster that owns the word. -/
def State.dieData (s : State) (die w : Nat) : Option Word :=
  match s.copy (l2Level die) w with
  | some c =>
    if c.owned then
      if c.holder = 8 then some c.val
      else
        match s.copy (l1Level (die * 8 + c.holder)) w with
        | some d => if d.owned then some (s.copyVal d) else some c.val
        | none => some c.val
    else none
  | none => none

/-- The data of an agent's write-back that is still in its buffer (03 R62). -/
def State.buffered (s : State) (a w : Nat) : Option Word :=
  match s.msgs.find? fun m => m.2.kind = .wb && m.2.agent = a && m.2.st ≠ .finished && m.2.st ≠ .answered && m.2.items.any fun i => i.w = w with
  | some m => (m.2.items.find? fun i => i.w = w).map (·.val)
  | none => none

/-- The owned data of an agent: a die, a Marl core; other agents write their data with their registrations (20 R363). -/
def State.agentData (s : State) (a w : Nat) : Option Word :=
  let held :=
    if a % 1024 < 8 then s.dieData (agentDie a) w
    else if a % 1024 < 104 then
      match s.copy (marlLevel (agentMarl a)) w with
      | some c => if c.owned then some c.val else none
      | none => none
    else none
  match held with
  | some v => some v
  | none => s.buffered a w

/-- The latest value of a word: its owner's, or the home's. -/
def State.wordVal (s : State) (w : Nat) : Word :=
  match s.ownerOf w with
  | some e => (s.agentData e.agent w).getD (s.homeWord w)
  | none => s.homeWord w

/-- n bytes at a physical address as a load that uses no non-owned copy reads them (20 R351). -/
def State.cohRead (s : State) (pa : Nat) : Nat → Nat
  | 0 => 0
  | n + 1 => (s.wordVal (pa / 4)).toNat / 2 ^ (8 * (pa % 4)) % 256 + 256 * s.cohRead (pa + 1) n

/-! ### Window words (03 R70, 08 R180) -/

/-- The window slot of a core that a scratchpad offset lies in (08 R397): its number. -/
def State.windowAt (s : State) (core off : Nat) : Option Nat :=
  ((s.core core).windows.find? fun x => x.2.off ≤ off ∧ off < x.2.off + x.2.size).map (·.1)
def State.window (s : State) (core slot : Nat) : Window := tget (s.core core).windows slot {}
/-- A change to a window slot, which every thread of the workgroup sees at once (18 R313, log 104). -/
def State.modWindow (s : State) (core slot : Nat) (f : Window → Window) : State :=
  s.modCore core fun c => { c with windows := tset c.windows slot (f (tget c.windows slot {})) }
/-- A change to the word of a window at a scratchpad key. -/
def State.modWindowWord (s : State) (k : Nat) (f : Nat → Window → Window) : State :=
  let core := k / 2 ^ 21
  match s.windowAt core (k % 2 ^ 21) with
  | some i => s.modWindow core i fun x => f ((k % 2 ^ 21 - x.off) / 4) x
  | none => s
/-- A window word dropped: absent and not owned; a drain from FULL no longer ends FULL (08 R184). -/
def State.dropWindowWord (s : State) (k : Nat) : State :=
  s.modWindowWord k fun w x => { x with present := tdel x.present w, owned := x.owned.erase w, part := x.part.erase w, wasFull := false }
/-- A window word kept as a valid copy (03 R70). -/
def State.keepWindowWord (s : State) (k : Nat) : State := s.modWindowWord k fun w x => { x with owned := x.owned.erase w }

/-! ### Dropping and keeping an agent's words (03 R59 to R61) -/

/-- A level drops a word, in a window too; bytes whose registration has not been granted yet stay (03 R57). -/
def State.dropAt (s : State) (level w : Nat) : State :=
  match s.copy level w with
  | some c =>
    if c.pend then s else
    let s := match c.win with | some k => s.dropWindowWord k | none => s
    s.delCopy level w
  | none => s
/-- A level keeps a word as a valid copy with a value; a window word is kept in its window alone, which GROUP-scope loads do not read (03 R54, R70). -/
def State.keepAt (s : State) (level w : Nat) (v : Word) : State :=
  match s.copy level w with
  | some c =>
    if c.pend then s
    else
      match c.win with
      | some k => (s.keepWindowWord k).delCopy level w
      | none => s.setCopy level w { c with owned := false, val := v }
  | none => s
/-- The levels of an agent that hold a word: a die's L2 and L1s, a Marl core's caches. -/
def agentLevels (a : Nat) : List Nat :=
  if a % 1024 < 8 then l2Level (agentDie a) :: (List.range 8).map fun c => l1Level (agentDie a * 8 + c)
  else if a % 1024 < 104 then [marlLevel (agentMarl a)] else []
/-- An agent drops a word at all its levels, and a write-back of it that is on its way will be discarded (03 R59, R61). -/
def State.dropAgent (s : State) (a w : Nat) : State := (agentLevels a).foldl (fun s l => s.dropAt l w) s
/-- An agent keeps a word as a valid copy at all its levels (03 R60). -/
def State.keepAgent (s : State) (a w : Nat) (v : Word) : State := (agentLevels a).foldl (fun s l => s.keepAt l w v) s

/-- The buddy of a die (20 R361). -/
def buddyOf (die : Nat) : Nat := if die % 2 = 0 then die + 1 else die - 1
/-- The mirror entry of a word that a die owns, written or dropped; none is kept while the buddy is lost (20 R361). -/
def State.setMirror (s : State) (a w : Nat) (v : Word) : State :=
  if a % 1024 < 8 ∧ ¬ s.lost.contains (buddyOf (agentDie a)) then
    let k := copyKey (agentDie a) w
    match tget? s.mirror k with
    | some e => { s with mirror := tset s.mirror k (e.1, v) }
    | none => { s with mirror := tset s.mirror k (s.nextId, v), nextId := s.nextId + 1 }
  else s
def State.dropMirror (s : State) (a w : Nat) : State :=
  if a % 1024 < 8 then { s with mirror := tdel s.mirror (copyKey (agentDie a) w) } else s

/-- A revocation carried out (03 R60): the owner's data goes to the home, the word is unowned and kept as a valid copy. -/
def State.revokeWord (s : State) (w : Nat) : State :=
  match s.ownerOf w with
  | some e =>
    let v := s.wordVal w
    (((s.keepAgent e.agent w v).setHomeWord w v).unregister w e.agent).dropMirror e.agent w
  | none => s

/-! ### Page walks (20 R348 to R351) -/

/-- Where a translated access goes, by the page's home attribute (03 R52). -/
inductive Target
  | cached (pa : Nat)
  | pinCore (core off : Nat)
  | pinDie (die pa : Nat)
  | never (pa : Nat)
  deriving DecidableEq, Repr, Inhabited

/-- A page-table walk: the leaf and log2 of its page, or the cause of 20 R355. -/
inductive Walk
  | leaf (l log : Nat)
  | fault (cause : Nat)
  deriving DecidableEq, Repr, Inhabited

/-- True of a leaf that 20 R349, R351 and 03 R52 allow for pages of 2^log bytes. -/
def leafOk (e log : Nat) : Bool :=
  let home := bits e 7 6
  bits e 63 58 = 0 && bits e 54 52 = 0 && !e.testBit 5 && bits e 15 8 = 0 &&
  (home = 2 || bits e 57 55 = 0) &&
  (if home = 1 then log = 16 && bits e 45 29 = 0 && decide (bits e 28 24 ≤ 22)
   else bits e (log - 1) 16 = 0 || log = 16) &&
  (home ≠ 2 || log = 16 || log = 21)

/-- True of a table entry whose reserved bits are clear. -/
def tableOk (e : Nat) : Bool := bits e 63 52 = 0 && bits e 7 2 = 0

/-- A page number that names the package by its PKGNUM stands for its own memory, whatever its port (21 R395). -/
def State.ownPa (s : State) (p pa : Nat) : Nat := if pa / 2 ^ 46 = s.pkgNum p then p * 2 ^ 46 + pa % 2 ^ 46 else pa

/-- The walk of a package from a level down: its table's base. -/
def State.walkFrom (s : State) (p va : Nat) : Nat → Nat → Walk
  | 0, base =>
    let e := s.cohRead (base + 8 * bits va 20 16) 8
    if e % 2 = 0 then .fault 2
    else if e.testBit 1 && leafOk e 16 then .leaf e 16 else .fault 6
  | n + 1, base =>
    let e := s.cohRead (base + 8 * (va / 2 ^ (21 + 9 * n) % 2 ^ 9)) 8
    if e % 2 = 0 then .fault 2
    else if e.testBit 1 then
      (if n = 0 && leafOk e 21 then .leaf e 21 else if n = 1 && leafOk e 30 then .leaf e 30 else .fault 6)
    else if tableOk e then s.walkFrom p va n (s.ownPa p (bits e 51 8 * 256)) else .fault 6

/-- The page number and home of a leaf, for an address. -/
def targetOf (leaf log va : Nat) : Target :=
  let pa := bits leaf 51 16 * 2 ^ 16 + va % 2 ^ log
  match bits leaf 7 6 with
  | 0 => .cached pa
  | 1 => .pinCore (coreKey (bits leaf 51 46) (bits leaf 23 16)) (bits leaf 28 24 * 2 ^ 16 + va % 2 ^ 16)
  | 2 => .pinDie (bits leaf 51 46 * 8 + bits leaf 57 55) pa
  | _ => .never pa

/-- A target with its package's own memory as such. -/
def State.ownTarget (s : State) (p : Nat) : Target → Target
  | .cached pa => .cached (s.ownPa p pa)
  | .never pa => .never (s.ownPa p pa)
  | .pinCore c off => .pinCore (if pkgOf c = s.pkgNum p then coreKey p (numOf c) else c) off
  | .pinDie d pa => .pinDie (if d / 8 = s.pkgNum p then p * 8 + d % 8 else d) (s.ownPa p pa)

/-- True of a target that some rule places (log 6). -/
def Target.exists' : Target → Bool
  | .cached pa => placed pa
  | .never pa => placed pa
  | .pinDie _ pa => placed pa
  | .pinCore _ _ => true

/-- The entries of a table of n entries that some byte in memory or some copy of a word can have made other than 0. -/
def State.tableEntries (s : State) (base n : Nat) : List Nat :=
  let own := s.copies.filterMap fun c => if c.2.owned then some (4 * (c.1 % 2 ^ 50)) else none
  let at' := ((s.mem.map (·.1)) ++ own).filterMap fun a => if base ≤ a ∧ a < base + 8 * n then some ((a - base) / 8) else none
  at'.eraseDups.map fun i => s.cohRead (base + 8 * i) 8

/-- The valid leaves below a table that pin a page to a core (20 R348, R349). -/
def State.pinLeaves (s : State) (p : Nat) : Nat → Nat → List Nat
  | 0, base => (s.tableEntries base 32).filter fun e => e.testBit 0 && e.testBit 1 && leafOk e 16 && decide (bits e 7 6 = 1)
  | n + 1, base => (s.tableEntries base 512).flatMap fun e =>
    if e.testBit 0 && !e.testBit 1 && tableOk e then s.pinLeaves p n (s.ownPa p (bits e 51 8 * 256)) else []

/-- Canonical addresses (03 R50). -/
def canonical (va : Nat) : Bool := bits va 63 57 = 0 && !va.testBit 56 || bits va 63 57 = 127 && va.testBit 56

/-- Capacity of a translation cache (20 R352). -/
def tcSize (id : Nat) : Nat :=
  if id < 2 ^ 20 then (if isMarl id then 2048 else 64) else if id < 2 ^ 21 then 1024 else if id < 2 ^ 22 then 16384 else 512

def State.tcFind (s : State) (id ctx va : Nat) : Option TcEntry :=
  (tget s.tcs id []).find? fun e => e.ctx = ctx ∧ va / 2 ^ e.log = e.base / 2 ^ e.log
/-- A valid entry enters the caches of the path; the oldest leaves a full one. -/
def State.tcAdd (s : State) (id : Nat) (e : TcEntry) : State :=
  { s with tcs := tset s.tcs id ((e :: (tget s.tcs id []).filter fun x => ¬ (x.ctx = e.ctx ∧ x.base = e.base)).take (tcSize id)) }

/-- The translation caches of a core's threads, nearest first (20 R352). -/
def tcPath (core : Nat) : List Nat :=
  if isMarl core then [core] else [core, 2 ^ 20 + clusterOf core, 2 ^ 21 + dieOf core]

/-- The pin slots reserved on a core, with their contexts (13 R285): those that a resident context's page tables map, and those whose mapping a
translation has met and no shootdown has removed (log 88). -/
def State.pinnedOn (s : State) (core : Nat) : List (Nat × Nat) :=
  ((List.range 23).filterMap fun i => (tget? s.pinSlots (core * 32 + i)).map fun k => (i, k)) ++
  (s.ctxs.flatMap fun c =>
    (s.pinLeaves (c.1 / 64) 4 (c.1 / 64 * 2 ^ 46 + c.2.ptroot % 2 ^ 46)).filterMap fun e =>
      match s.ownTarget (c.1 / 64) (targetOf e 16 0) with
      | .pinCore k off => if k = core then some (off / 2 ^ 16, c.1) else none
      | _ => none)

/-- A page pinned to a die or a core, first met: the die's capacity of 16 MiB (cause 8), lost dies (cause 9), the pin slot's mapping as the
translation caches keep it (log 88). -/
def State.admitLeaf (s : State) (ctx leaf log va : Nat) : State × Option Nat :=
  match s.ownTarget (ctx / 64) (targetOf leaf log va) with
  | .pinCore core off =>
    if s.lost.contains (dieOf core) then (s, some 9)
    else ({ s with pinSlots := tset s.pinSlots (core * 32 + off / 2 ^ 16) ctx, pins := ((ctx, va - va % 2 ^ log, log, leaf) :: s.pins).eraseDups }, none)
  | .pinDie die pa =>
    let pages := tget s.pinnedPages die []
    let base := pa - pa % 2 ^ log
    if s.lost.contains die then (s, some 9)
    else if pages.contains (base, 2 ^ log) then (s, none)
    else if (pages.map (·.2)).sum + 2 ^ log > 2 ^ 24 then (s, some 8)
    else ({ s with pinnedPages := tset s.pinnedPages die (pages ++ [(base, 2 ^ log)]), pins := ((ctx, va - va % 2 ^ log, log, leaf) :: s.pins).eraseDups }, none)
  | _ => (s, none)

/-- A checked access of 20 R351: user mode, fetch, write. -/
structure Access where
  user : Bool
  fetch : Bool := false
  write : Bool := false
  deriving DecidableEq, Repr, Inhabited

/-- The leaf's checks against the access (20 R351); 0 for none. -/
def leafCause (leaf : Nat) (a : Access) : Nat :=
  if a.user && !leaf.testBit 4 then 5
  else if a.fetch && !leaf.testBit 3 then 4
  else if a.write && !leaf.testBit 2 then 3 else 0

/-- Translation of an address in a context through a path of caches (20 R348 to R352, R355): the target, or a cause. -/
def State.translate (s : State) (ctx : Nat) (path : List Nat) (va : Nat) (a : Access) : State × (Target ⊕ Nat) :=
  if !canonical va then (s, .inr 1)
  else
    let va := va % 2 ^ 57
    let hit := path.findSome? fun id => s.tcFind id ctx va
    let x : State × Walk := match hit with
      | some e => (s, .leaf e.leaf e.log)
      | none =>
        let root := ctx / 64 * 2 ^ 46 + (s.ctx ctx).ptroot % 2 ^ 46
        match s.walkFrom (ctx / 64) va 4 root with
        | .leaf l log =>
          (path.foldl (fun s id => s.tcAdd id { ctx := ctx, base := va - va % 2 ^ log, log := log, leaf := l }) s, .leaf l log)
        | .fault c => (s, .fault c)
    match x.2 with
    | .fault c => (x.1, .inr c)
    | .leaf l log =>
      match leafCause l a with
      | 0 =>
        let y := x.1.admitLeaf ctx l log va
        match y.2 with
        | some c => (y.1, .inr c)
        | none =>
          let tg := y.1.ownTarget (ctx / 64) (targetOf l log va)
          (if tg.exists' then y.1 else { y.1 with hole := true }, .inl tg)
      | c => (x.1, .inr c)

/-- The region of an address (03 R66). -/
def State.regionOf (s : State) (ctx va : Nat) : Nat :=
  (((s.ctx ctx).regions.find? fun r => r.2.1 ≤ va ∧ va < r.2.1 + r.2.2).map (·.1)).getD 63

end Sys2Proof.Machine
end

