-- ==== Sys2Proof/Machine/Coh.lean ====
section
/-! DEFINITION. What one agent does in memory at once: reading a word at the level that holds it, writing it at its own level, sending requests
(03 R56 to R58, R61), atomics where the registration places them (03 R71), acquire and release (03 R67, R68), race detection (03 R75). -/

namespace Sys2Proof.Machine

/-! ### Requests (21 R372, R394) -/

/-- The key of a sequence from a source to a destination. -/
def pairKey (a b : Nat) : Nat := a * 2 ^ 20 + b

/-- Requests of a source to a destination that are numbered and not finished. -/
def State.outstanding (s : State) (src dst : Nat) : List (Nat × Msg) :=
  s.msgs.filter fun m => m.2.past ∧ m.2.src = src ∧ m.2.dst = dst ∧ m.2.st ≠ .queued ∧ m.2.st ≠ .finished

/-- The oldest number still outstanding (21 R372). -/
def State.lwm (s : State) (m : Msg) : Nat :=
  match s.outstanding m.src m.dst with
  | [] => m.seq
  | x :: r => (r.foldl (fun (b : Nat) y => if (b + 2 ^ 16 - y.2.seq) % 2 ^ 16 < 2 ^ 15 then y.2.seq else b) x.2.seq)

/-- The package and socket of an endpoint (00 R2, 03 R53, 21 R394). -/
def endPkg (e : Nat) : Nat := if e ≥ 65536 then (e - 65536) / 32 else e / 1024
def endSocket (e : Nat) : Nat :=
  if e ≥ 65536 then (e - 65536) % 32
  else
    let a := e % 1024
    if a < 8 then a else if a < 104 then 8 + (a - 8) / 48 else if a < 168 then (a - 104) / 8 else if a < 176 then a - 168
    else if a < 184 then 18 + (a - 176) / 4 else 18

/-! ### Lines and packets (21 R366, R375, R376) -/

def lineKey (p plane k : Nat) : Nat := p * 512 + plane * 64 + k
def State.line (s : State) (p plane k : Nat) : Line := tget s.lines (lineKey p plane k) {}
def State.setLine (s : State) (p plane k : Nat) (x : Line) : State := { s with lines := tset s.lines (lineKey p plane k) x }
/-- True of a package whose PKGNUM no other package of its domain has trained with (21 R395). -/
def State.soleNum (s : State) (p : Nat) : Bool :=
  (List.range 64).all fun q => q = p || s.hreg q 0x2300 ≠ 1 || s.pkgNum q ≠ s.pkgNum p || decide (q ≥ s.hreg p 0x2118)
/-- A line on which package p receives from a package of the domain, after both have trained (21 R375, R395). -/
def State.lineLit (s : State) (p k : Nat) : Bool :=
  let q := (p + 64 - k % 64) % 64
  s.hreg p 0x2300 = 1 && s.hreg q 0x2300 = 1 && s.inDomain p q && s.inDomain q p && k % 64 ≠ 0 && s.soleNum p && s.soleNum q
/-- The lines by which a Silt die may send to a peer: planes, with the line number that the peer receives on (R375, R376). -/
def State.linesTo (s : State) (p silt q : Nat) : List Nat :=
  let k := (q + 64 - p) % 64
  ((List.range 4).map fun i => 4 * silt + i).filter fun plane => s.lineLit q k && (s.line q plane k).phase ≠ .heldOut && (s.line q plane k).sending &&
    ((s.line q plane k).phase = .service || (s.line q plane k).phase = .tripped)
/-- The Silt die that takes a packet for a peer: the two by turns, the other one where the turn's has no line to it (21 R376). n: a number whose parity gives the turn. -/
def State.siltFor (s : State) (p q n : Nat) : Nat := if (s.linesTo p (n % 2) q).isEmpty then (n + 1) % 2 else n % 2

/-- An agent's 16-bit number as it is shown: with its package's PKGNUM (21 R395). -/
def State.agentNum (s : State) (a : Nat) : Nat := s.pkgNum (a / 1024) * 1024 + a % 1024

/-- The type of a request's packet, or of its answer's (log 19); those of multicasts follow. -/
def MsgKind.code : MsgKind → Nat
  | .reg => 0 | .load => 1 | .fwd => 2 | .grant => 3 | .inv => 4 | .rev => 5 | .wb => 6 | .atomic => 7 | .remote => 8 | .signal => 9
def castType : Nat := 20
/-- True of a type that a receiver knows. -/
def typeKnown (c : Nat) : Bool := decide (c ≤ 20)
/-- Words that a request's packet carries. -/
def Msg.words (m : Msg) : Nat :=
  match m.kind with
  | .load => 0 | .fwd => 0 | .inv => 0 | .rev => 0
  | _ => m.items.length
/-- Flits of a packet with words of data: a flit's payload holds an address and 14 words (log 19). -/
def packetFlits (words : Nat) : Nat := if words ≤ 14 then 1 else 2

/-- A packet of a passenger goes to its router; a Silt die's own for another package stands at its fabric side. -/
def State.sendPacket (s : State) (p a : Nat) (away : Bool) (f : Flit) (words : Nat) : State :=
  let n := packetFlits words
  let fs := (List.range n).map fun i => { f with more := n - 1 - i, packet := if n > 1 then s.nextId else 0 }
  let s := if n > 1 then { s with nextId := s.nextId + 1 } else s
  if away ∧ a = f.dst then { s with ingress := tset s.ingress (p * 32 + a) (tget s.ingress (p * 32 + a) [] ++ fs) }
  else { s with upward := tset s.upward (p * 32 + a) (tget s.upward (p * 32 + a) [] ++ fs) }

/-- The flits of a multicast to every passenger of a package, one for each ring (21 R369). -/
def castFlits (num socket : Nat) (c : Option Cast) : List Flit :=
  [0, 1].map fun r => { pkg := num, src := socket, dst := 31, mask := 2 ^ 20 - 1 - 2 ^ socket, ring := some r, type := castType, cast := c }
/-- A notice to a peer package, on every plane that has a line in service to it (10 R249, 20 R362); a shootdown waits at the Silt die where no plane has one. -/
def State.castTo (s : State) (p q : Nat) (what : CastOf) : State :=
  let f : Flit := { pkg := s.pkgNum q, dst := 18, src := 18, type := castType, cast := some { what := what, pkg := q } }
  let k := (q + 64 - p) % 64
  let planes := s.linesTo p 0 q ++ s.linesTo p 1 q
  let wait (s : State) : State := { s with ingress := tset s.ingress (p * 32 + 18) (tget s.ingress (p * 32 + 18) [] ++ [f]) }
  match planes, what with
  | [], .shootdown _ => wait s
  | l, _ => l.foldl (fun s plane =>
    let i := q * 32 + 18 + plane / 4
    { s with ingress := tset s.ingress i (tget s.ingress i [] ++ [{ f with pkg := s.pkgNum p, line := some (plane * 64 + k) }]) }) s
/-- A multicast in its own package and to the packages named (21 R369). -/
def State.castOut (s : State) (p socket : Nat) (what : CastOf) (peers : List Nat) : State :=
  let i := p * 32 + socket
  let own := castFlits (s.pkgNum p) socket (some { what := what, pkg := p })
  (peers.filter fun q => q ≠ p).foldl (fun s q => s.castTo p q what) { s with upward := tset s.upward i (tget s.upward i [] ++ own) }
/-- True while a multicast has not come to every passenger that it is for, of one package or of any. -/
def State.castPending (s : State) (what : CastOf) (at' : Option Nat) : Bool :=
  [s.upward, s.inject, s.transit, s.ingress].any fun t => t.any fun e => e.2.any fun f =>
    match f.cast with
    | some c => decide (c.what = what) && (match at' with | some p => decide (c.pkg = p) | none => true)
    | none => false

/-- A copy of a request goes on its way (21 R366): at once within one passenger, else in a packet toward its passenger or, for another package, toward a Silt die. -/
def State.launchCopy (s : State) (id : Nat) (m : Msg) : State :=
  let p := endPkg m.src
  let a := endSocket m.src
  let b := endSocket m.dst
  let q := endPkg m.dst
  let lwm := s.lwm m
  if p = q ∧ a = b then { s with msgs := tset s.msgs id { m with arrived := m.arrived + 1, lwms := m.lwms ++ [lwm] } }
  else
    ({ s with msgs := tset s.msgs id m } : State).sendPacket p a (decide (p ≠ q))
      { seq := m.seq, lwm := lwm, agent := if m.src < 65536 then s.agentNum m.src else s.pkgNum p * 1024 + 1023, pkg := s.pkgNum q, src := a, msg := some id
        dst := if p = q then b else 18 + s.siltFor p q (id + m.tries), type := 2 * m.kind.code } m.words

/-- True of an endpoint at the requester's own passenger. -/
def Msg.near (m : Msg) (e : Nat) : Bool := endPkg e = endPkg m.src && endSocket e = endSocket m.src

/-- The stored answer of a request goes from an endpoint to the requester (21 R373). -/
def State.answerFlit (s : State) (id : Nat) (m : Msg) (e : Nat) : State :=
  let p := endPkg e
  let a := endSocket e
  let q := endPkg m.src
  if m.near e then s
  else
    s.sendPacket p a (decide (p ≠ q))
      { seq := m.seq, lwm := s.lwm m, agent := if m.src < 65536 then s.agentNum m.src else s.pkgNum q * 1024 + 1023, pkg := s.pkgNum q, src := a, msg := some id
        answer := true, dst := if p = q then endSocket m.src else 18 + s.siltFor p q (id + m.tries), type := 2 * m.kind.code + 1 } m.ans.length

/-- An executed request's answer is stored in the window of the endpoint that executed it (21 R373). -/
def State.storeAnswer (s : State) (m : Msg) : State :=
  let k := pairKey m.dst m.src
  let x := tget s.windows k {}
  { s with windows := tset s.windows k { x with answers := tset x.answers m.seq (m.ans, m.negative) } }

/-- A request answered by an endpoint: the answer is on its way, or at the requester where that is the same passenger. -/
def State.answer (s : State) (id : Nat) (m : Msg) (e : Nat) : State :=
  (({ s with msgs := tset s.msgs id { m with st := .answered, away := !m.near e } } : State).storeAnswer m).answerFlit id m e

/-- True where a source may number another request to a destination: fewer than 64 are outstanding, and the oldest of them is within 63 of the next number
(21 R372, R373). -/
def State.mayPost (s : State) (m : Msg) : Bool :=
  match s.outstanding m.src m.dst with
  | [] => true
  | l => decide (l.length < 64 ∧ (tget s.seqs (pairKey m.src m.dst) 0 + 2 ^ 16 - s.lwm m) % 2 ^ 16 < 64)

/-- A request leaves its sender: it takes the next number of its sequence, or waits. A registration on its way to its own L2 is no fabric request and has no number. -/
def State.post (s : State) (id : Nat) (m : Msg) : State :=
  if m.past = false then { s with msgs := tset s.msgs id { m with st := .flying, flying := 0, arrived := 0, lwms := [] } }
  else if s.mayPost m = false then { s with msgs := tset s.msgs id { m with st := .queued } }
  else
    let k := pairKey m.src m.dst
    let n := tget s.seqs k 0
    ({ s with seqs := tset s.seqs k ((n + 1) % 2 ^ 16) } : State).launchCopy id { m with st := .flying, seq := n, flying := 1, arrived := 0, lwms := [] }

/-- A new request is sent; its number in the table. -/
def State.send (s : State) (m : Msg) : State × Nat :=
  (({ s with nextId := s.nextId + 1 } : State).post s.nextId m, s.nextId)

def State.msg (s : State) (id : Nat) : Option Msg := tget? s.msgs id
def State.setMsg (s : State) (id : Nat) (m : Msg) : State := { s with msgs := tset s.msgs id m }

/-- The waiting request that goes next from one endpoint to another: the pieces of started operations by turns (15 R291), the others as they came. -/
def State.nextQueued (s : State) (id src dst : Nat) : Option (Nat × Msg) :=
  (s.msgs.filter fun x => x.1 ≠ id ∧ x.2.st = .queued ∧ x.2.src = src ∧ x.2.dst = dst).foldl
    (fun r x => match r with | some y => if x.2.turn < y.2.turn then some x else r | none => some x) none
/-- The waiting requests from one endpoint to another go while they may be numbered; fuel: 64. -/
def State.postQueued (s : State) (id src dst : Nat) : Nat → State
  | 0 => s
  | n + 1 =>
    match s.nextQueued id src dst with
    | some x => if s.mayPost x.2 then (s.post x.1 x.2).postQueued id src dst n else s
    | none => s

/-- A forward that its owner has answered is kept while the load that it serves may be reissued (21 R394). -/
def State.keepsForward (s : State) (m : Msg) : Bool :=
  m.kind = .fwd && (match s.msg m.orig with | some x => x.st ≠ .finished | none => false)

/-- A request ends: its place is free for those that wait. A finished request whose copies have all arrived leaves the table, with the forwards that served it. -/
def State.finishMsg (s : State) (id : Nat) : State :=
  match s.msg id with
  | none => s
  | some m =>
    let s := if m.flying ≤ m.arrived ∧ s.keepsForward m = false then { s with msgs := tdel s.msgs id }
      else s.setMsg id { m with st := .finished, flying := m.flying - m.arrived, arrived := 0, lwms := [] }
    let s := if m.kind = .load ∧ (s.msgs.any fun x => x.2.orig = id && x.2.kind = .fwd && x.2.st = .finished && x.2.flying = 0) = true then
        { s with msgs := s.msgs.filter fun x => !(x.2.orig = id && x.2.kind = .fwd && x.2.st = .finished && x.2.flying = 0) } else s
    s.postQueued id m.src m.dst 64

/-- A request of which nothing but an acknowledgement is expected has had its effect: it ends when the acknowledgement is back. -/
def State.ack (s : State) (id : Nat) : State :=
  match s.msg id with
  | none => s
  | some m => if m.near m.dst then (s.storeAnswer m).finishMsg id else s.answer id m m.dst

/-- True of a request whose answer is a grant, a request of its own (21 R372): a registration that is not turned away; a copy engine's is acknowledged. -/
def Msg.byGrant (m : Msg) : Bool := m.kind = .reg && !m.negative && (match m.client with | .copy _ => false | _ => true)

/-- An answer comes to its requester: an acknowledgement ends the request; the requester takes a value later. -/
def State.answerHere (s : State) (id : Nat) (m : Msg) : State :=
  if m.st ≠ .answered ∨ m.byGrant = true then s
  else if m.negative ∨ m.kind = .load ∨ m.kind = .atomic ∨ m.kind = .wb then s.setMsg id { m with away := false }
  else s.finishMsg id

/-- True of a request that is still to end. -/
def State.live (s : State) (id : Nat) : Bool :=
  match s.msg id with
  | some m => m.st ≠ .finished
  | none => false

/-- True of a request whose effect has happened at its destination: it is answered, or over. -/
def State.performed (s : State) (id : Nat) : Bool :=
  match s.msg id with
  | some m => m.st = .answered || m.st = .finished
  | none => true

/-! ### The requester -/

/-- Who accesses memory: core, context key, agent, level of its first cache, place below it, the user mode, the thread and its PC. -/
structure Who where
  core : Nat
  ctx : Nat
  agent : Nat
  level : Nat
  holder : Nat
  user : Bool
  tid : Nat
  pc : Nat
  deriving DecidableEq, Repr, Inhabited

/-- A thread as a requester. -/
def State.who (s : State) (t : Nat) : Who :=
  let core := coreOf t
  { core := core, ctx := s.ctxKey t, agent := homeAgent core
    level := if isMarl core then marlLevel core else l1Level (clusterOf core)
    holder := if isMarl core then 0 else numOf core % 4
    user := !(s.thread t).supervisor, tid := t, pc := (s.thread t).pc }

/-- True of a word homed on another package. -/
def Who.remote (x : Who) (w : Nat) : Bool := w / 2 ^ 44 ≠ pkgOf x.core

/-- Race mode TRAP (03 R75). -/
def State.trapsRaces (s : State) (ctx : Nat) : Bool := (s.ctx ctx).raceMode = 2

/-! ### Races (03 R75, 20 R360) -/

/-- The verdict of an owner on an entry: its release count has not risen since the registration. -/
def State.races (s : State) (e : OwnerEntry) : Bool := s.releases e.agent = e.relcount

/-! ### Loads that a level answers (03 R58) -/

/-- What a level has of a word: its value, nothing yet (a grant is pending), or that the level above must be asked. -/
inductive Found
  | val (v : Word)
  | wait
  | miss
  deriving DecidableEq, Repr, Inhabited

def Found.isVal : Found → Bool
  | .val _ => true
  | _ => false
def Found.get : Found → Word
  | .val v => v
  | _ => 0

def scopeRank : Scope → Nat
  | .grp => 0 | .die => 1 | .pkg => 2 | .sys => 3

/-- What one level of the requester's path has of a word for a load whose scope has rank r: 0 the L1 or a Marl core's caches, 1 the die L2, 2 the LLC for a
word homed elsewhere. A valid copy at a level that an acquire at the scope would invalidate is not used (03 R54); bm: the bytes needed. -/
def State.levelWord (s : State) (x : Who) (depth w bm r : Nat) : Found :=
  match depth with
  | 0 =>
    match s.copy x.level w with
    | some c =>
      if c.pend then (if r = 0 ∧ c.mask &&& bm = bm then .val (s.copyVal c) else .wait)
      else if c.owned ∨ r < (if isMarl x.core then 2 else 1) then .val (s.copyVal c)
      else .miss
    | none => .miss
  | 1 =>
    if isMarl x.core then .miss
    else
      match s.copy (l2Level (dieOf x.core)) w with
      | some c =>
        if c.owned then (match s.dieData (dieOf x.core) w with | some v => .val v | none => .miss)
        else if r < 2 then .val c.val else .miss
      | none => .miss
  | _ =>
    if x.remote w ∧ r < 3 then
      match s.copy (llcLevel (pkgOf x.core)) w with | some c => .val c.val | none => .miss
    else .miss

/-- What a requester's levels have that is newer than an answer from above: what its own level has stored, granted or not, or its die owns
(03 R57, R61). -/
def State.ownWord (s : State) (level agent w : Nat) (v : Word) : Word :=
  let v := if agent % 1024 < 8 then (s.dieData (agentDie agent) w).getD v else v
  match s.copy level w with
  | some c => if c.pend then mergeWord c.mask (s.copyVal c) v else if c.owned then s.copyVal c else v
  | none => v

/-- What a load finds for its words: all of them at one level, the first that has them all (03 R58, R77), a wait, or that the home must be asked. -/
inductive Lookup
  | hit (depth : Nat) (vs : List Word)
  | wait
  | miss
  deriving DecidableEq, Repr, Inhabited

def State.lookup (s : State) (x : Who) (items : List Item) (sc : Scope) : Lookup :=
  let at' (d : Nat) : List Found := items.map fun i => s.levelWord x d i.w i.bm (scopeRank sc)
  if (at' 0).any (· = .wait) then .wait
  else
    match (List.range 3).find? fun d => (at' d).all Found.isVal with
    | some d => .hit d ((items.zip (at' d)).map fun y => if d = 0 then y.2.get else s.ownWord x.level x.agent y.1.w y.2.get)
    | none => .miss

/-- One word read at the requester's levels. -/
def State.find (s : State) (x : Who) (w bm : Nat) (sc : Scope) : Found :=
  match s.lookup x [{ w := w, bm := bm }] sc with
  | .hit _ (v :: _) => .val v
  | .wait => .wait
  | _ => .miss

/-! ### Capacities and evictions (00 R3, 03 R61) -/

/-- Words that a level holds, of the LLC one slice of it (00 R3); the spec gives none for a Marl core's caches. -/
def levelRoom (level : Nat) : Option Nat :=
  if level < 4096 then some (2 ^ 18) else if level < 8192 then some (2 ^ 24) else if level < 16384 then some (12 * 2 ^ 20) else none
/-- The LLC slice of a word, of one homed on another package too (03 R51, R64). -/
def sliceOf (w : Nat) : Nat := stackOf (4 * w % 2 ^ 39)
/-- True of copies at a level that share a word's room: of the LLC, those in its slice. -/
def sharesRoom (level w v : Nat) : Bool := decide (level < 8192 ∨ level ≥ 16384) || sliceOf v = sliceOf w
/-- Lines of an LLC slice with owner entries, which it keeps (03 R59). -/
def State.ownedLines (s : State) (p w : Nat) : List Nat :=
  (s.owners.filter fun l => l.2 ≠ [] && l.1 / 2 ^ 40 = p && sliceOf (16 * l.1) = sliceOf w).map (·.1)
/-- Words that stand where a level would keep a word: its copies but those whose data lie in a window, at an L2 the words of pinned pages too (20 R350), in an LLC
slice the lines homed there that are registered. -/
def State.occupied (s : State) (level w : Nat) : Nat :=
  (s.copies.filter fun c => c.1 / 2 ^ 50 = level && c.2.win = none && sharesRoom level w (c.1 % 2 ^ 50)).length +
  (if 4096 ≤ level ∧ level < 8192 then (s.pinned.filter fun c => c.1 / 2 ^ 50 = level - 4096).length else 0) +
  (if 8192 ≤ level ∧ level < 16384 then 16 * (s.ownedLines (level - 8192) w).length else 0)
/-- True of a level without room for another word. -/
def State.full (s : State) (level w : Nat) : Bool :=
  match levelRoom level with
  | some n => decide (s.occupied level w ≥ n)
  | none => false

/-- True while a registration of a word by an agent is on its way. -/
def State.registering (s : State) (a w : Nat) : Bool :=
  s.msgs.any fun m => m.2.kind = .reg && m.2.st ≠ .finished && m.2.agent = a && m.2.items.any fun i => i.w = w

/-- A write-back of words of one line from an agent to their home; the data stays in the buffer until the acknowledgement (03 R62). orig: the request that
waits for it (03 R60). -/
def State.writeBack (s : State) (agent : Nat) (items : List Item) (client : Client) (orig : Nat := 0) : State × Nat :=
  s.send { kind := .wb, src := agent, dst := homeEnd ((items.headD ⟨0, 0, 0⟩).w), agent := agent, items := items, client := client, past := true
           pa := 4 * (items.headD ⟨0, 0, 0⟩).w, orig := orig }

/-- An owned word of an L2, or of a Marl core's caches, written back to the home (03 R61). -/
def State.evictAgent (s : State) (agent level w : Nat) : State :=
  match s.copy level w with
  | some c =>
    if c.owned then (((s.delCopy level w).writeBack agent [{ w := w, val := c.val }] .none)).1 else s.dropAt level w
  | none => s

/-- A level above the L1 gives up a word: an L2's or a Marl core's owned word goes to the home, another copy is dropped; a word that a cluster owns, or whose
registration is on its way, stays at the L2. -/
def State.giveUpHigh (s : State) (level w : Nat) : State :=
  if level < 8192 then
    let a := dieAgent (level - 4096)
    match s.copy level w with
    | some c => if (c.owned ∧ c.holder < 8) ∨ s.registering a w = true then s else s.evictAgent a level w
    | none => s
  else if level < 16384 then s.dropAt level w
  else
    let a := marlAgent (coreKey ((level - 16384) / 96) ((level - 16384) % 96 + 256))
    if s.registering a w then s else s.evictAgent a level w

/-- A full level gives up a word before it takes another: one marked first, else a valid copy, else an owned word, the lowest address first (log 89). -/
def State.roomBy (give : State → Nat → Nat → State) (s : State) (level w : Nat) : State :=
  if (s.copy level w).isSome ∨ s.full level w = false then s
  else
    let cs := s.copies.filter fun c => c.1 / 2 ^ 50 = level && !c.2.pend && c.2.win = none && sharesRoom level w (c.1 % 2 ^ 50) &&
      !(level ≥ 4096 && c.2.owned && c.2.holder < 8)
    match (cs.filter fun c => c.2.first) ++ (cs.filter fun c => !c.2.owned) ++ cs with
    | c :: _ => give s level (c.1 % 2 ^ 50)
    | [] => s

/-- An owned word of an L1 written upward: the L2 holds it owned by the die (03 R61); of a page pinned to the die, the L2 is its home (03 R52). -/
def State.evictL1 (s : State) (cluster w : Nat) : State :=
  match s.copy (l1Level cluster) w with
  | some c =>
    if c.owned then
      let v := s.copyVal c
      let l2 := l2Level (cluster / 8)
      let s := match c.win with | some k => s.keepWindowWord k | none => s
      let s := s.delCopy (l1Level cluster) w
      if (tget? s.pinned (copyKey (cluster / 8) w)).isSome then
        { s.delCopy l2 w with pinned := tset s.pinned (copyKey (cluster / 8) w) v }
      else
        match s.copy l2 w with
        | some d => s.setCopy l2 w { d with val := v, owned := true, holder := 8 }
        | none => (s.roomBy State.giveUpHigh l2 w).setCopy l2 w { val := v, owned := true, holder := 8, region := c.region }
    else s.dropAt (l1Level cluster) w
  | none => s

/-- A level gives up a word: an L1's owned word goes to the L2. -/
def State.giveUp (s : State) (level w : Nat) : State := if level < 4096 then s.evictL1 level w else s.giveUpHigh level w
def State.makeRoom (s : State) (level w : Nat) : State := s.roomBy State.giveUp level w

/-! ### Copies kept along a path (03 R58, 05 R115) -/

/-- A level keeps an answer as a valid copy, tagged, unless it owns the word or a store of its own is pending there; one with no room to make keeps none. -/
def State.fill (s : State) (level w : Nat) (v : Word) (region : Nat) (first : Bool) : State :=
  match s.copy level w with
  | some c => if c.owned || c.pend then s else s.setCopy level w { val := v, region := region, first := first }
  | none =>
    let s := s.makeRoom level w
    if s.full level w then s else s.setCopy level w { val := v, region := region, first := first }

/-- A copy marked first for eviction. -/
def State.markFirst (s : State) (level w : Nat) : State :=
  match s.copy level w with
  | some c => s.setCopy level w { c with first := true }
  | none => s

/-- What a policy leaves of a word after an access: a level that it excludes writes an owned word upward at once and holds nothing afterwards (05 R115). -/
def State.expel (s : State) (level agent w : Nat) (pol : Policy) : State :=
  let die := agent % 1024 < 8
  match pol with
  | .all => s
  | .strm =>
    let s := (s.markFirst level w).markFirst (llcLevel (agent / 1024)) w
    if die then s.markFirst (l2Level (agentDie agent)) w else s
  | _ =>
    let s := s.giveUp level w
    let s := if die ∧ pol ≠ .nl1 then s.giveUp (l2Level (agentDie agent)) w else s
    if pol = .nllc then s.dropAt (llcLevel (agent / 1024)) w else s

/-- The levels on a reader's path below the one that answered keep the word as the policy says; depth: 0 the first level answered, 1 the L2, 2 the LLC, 3 the
home. -/
def State.keepWord (s : State) (level agent depth w : Nat) (v : Word) (region : Nat) (pol : Policy) : State :=
  let first := decide (pol = .strm)
  let all := decide (pol = .all ∨ pol = .strm)
  let s := if depth > 2 ∧ w / 2 ^ 44 ≠ agent / 1024 ∧ pol ≠ .nllc then s.fill (llcLevel (agent / 1024)) w v region first else s
  let s := if depth > 1 ∧ agent % 1024 < 8 ∧ (all = true ∨ pol = .nl1) then s.fill (l2Level (agentDie agent)) w v region first else s
  let s := if depth > 0 ∧ all = true then s.fill level w v region first else s
  s.expel level agent w pol

/-! ### Stores at the core's own level (03 R56, R57, R61) -/

/-- The data of an owned copy replaced: in its scratchpad for a window word. -/
def State.putCopy (s : State) (level w : Nat) (c : Copy) (bm : Nat) (v : Word) : State :=
  match c.win with
  | some k => s.scratchWrite k 4 (mergeWord bm v (s.copyVal c)).toNat
  | none => s.setCopy level w { c with val := mergeWord bm v c.val }

/-- The data of a word that the level owns or has stored comes to lie where a holder's store puts it: in its window (win: the scratchpad key), or at the
L1; another holder's window word is dropped (03 R61). -/
def State.moveCopy (s : State) (holder : Nat) (c : Copy) (win : Option Nat) : State × Copy :=
  match c.win, win with
  | none, none => (s, { c with holder := holder })
  | some k, none =>
    if c.holder = holder then (s, c) else (s.dropWindowWord k, { c with win := none, val := s.copyVal c, holder := holder })
  | none, some k =>
    let v := if c.pend then mergeWord c.mask c.val (BitVec.ofNat 32 (s.scratchRead k 4)) else c.val
    (s.scratchWrite k 4 v.toNat, { c with win := some k, holder := holder })
  | some k, some j =>
    if k = j then (s, c) else ((s.dropWindowWord k).scratchWrite j 4 (s.copyVal c).toNat, { c with win := some j, holder := holder })

/-- How a store of bytes of one word begins: done at a level that owns the word, or a registration is needed. The bytes are written at the core's
own level at once, unless they wait for the grant (late). -/
inductive Stored
  | done (s : State)
  | register (s : State)

/-- The store of one word at the requester's level (03 R56, R61). win: the scratchpad key of a window word. -/
def State.storeWord (s : State) (x : Who) (w bm : Nat) (v : Word) (region : Nat) (win : Option Nat) (pol : Policy) (late : Bool) : Stored :=
  match s.copy x.level w with
  | some c =>
    if c.pend then
      let y := s.moveCopy x.holder c win
      let c' := { y.2 with mask := c.mask ||| bm, pol := pol }
      .register ((y.1.setCopy x.level w c').putCopy x.level w c' bm v)
    else if c.owned then
      let y := s.moveCopy x.holder c win
      .done (((y.1.setCopy x.level w y.2).putCopy x.level w y.2 bm v).expel x.level x.agent w pol)
    else if late then .register s
    else
      let c' : Copy := { pend := true, mask := bm, holder := x.holder, win := win, val := c.val, region := region, pol := pol }
      .register ((s.setCopy x.level w c').putCopy x.level w c' bm v)
  | none =>
    if late then .register s
    else
      let c' : Copy := { pend := true, mask := bm, holder := x.holder, win := win, region := region, pol := pol }
      .register (((s.makeRoom x.level w).setCopy x.level w c').putCopy x.level w c' bm v)

/-- True where the words of an access lie in part at a level that owns them: such a store is written when all of them are owned, in one step (03 R77). -/
def State.mixed (s : State) (level : Nat) (items : List Item) : Bool :=
  let own (i : Item) : Bool := match s.copy level i.w with | some c => c.owned | none => false
  items.any own && !items.all own
/-- True where a word of a store of two words has a registration pending at the level: the store waits for its grant (03 R77). -/
def State.splitPending (s : State) (level : Nat) (items : List Item) : Bool :=
  decide (items.length > 1) && items.any fun i => match s.copy level i.w with | some c => c.pend | none => false

/-! ### Atomics (03 R71, 08 R176) -/

/-- The new value of an atomic (08 R176) for old value, operand and comparand, as bits of its size. -/
def atomNew (op : AtomOp) (z : Fmt) (old c cmp : Nat) : Nat :=
  let w := z.width
  let o := old % 2 ^ w
  let c := c % 2 ^ w
  match op with
  | .add => if z.isFloat then rnd ((val o z).add .rne (val c z)) z .rne else (o + c) % 2 ^ w
  | .min => if z.isFloat then minnum z o c else if readInt z c < readInt z o then c else o
  | .max => if z.isFloat then maxnum z o c else if readInt z o < readInt z c then c else o
  | .and => o &&& c
  | .or => o ||| c
  | .xor => o ^^^ c
  | .exch => c
  | .cas => if o = cmp % 2 ^ w then c else o

/-- The lanes of one atomic in ascending order (03 R72, 08 R178): the fetched values and the final value. -/
def atomLanes (op : AtomOp) (z : Fmt) (old : Nat) : List AtomLane → List Nat × Nat
  | [] => ([], old)
  | l :: r =>
    let x := atomLanes op z (atomNew op z old l.c l.cmp) r
    (old :: x.1, x.2)

/-- The fetched value of one lane goes to its destination: an 8-byte one to a pair, a k register only for the lane chosen at issue. -/
def State.deliver (s : State) (dest : List Nat) (kdest : Option (Nat × Nat)) (regs v : Nat) : State :=
  let s := match dest with
    | [a] => { s with regs := tset s.regs a (BitVec.ofNat 32 v) }
    | a :: b :: _ => { s with regs := tset (tset s.regs a (BitVec.ofNat 32 v)) b (BitVec.ofNat 32 (v / 2 ^ 32)) }
    | [] => s
  match kdest with
  | some (q, n) => s.modSquad q fun x =>
      let k := tset x.k n (BitVec.ofNat 32 v)
      { x with k := if regs = 2 then tset k (n + 1) (BitVec.ofNat 32 (v / 2 ^ 32)) else k }
  | none => s

/-- The values of an atomic written to the destinations of its lanes. -/
def State.deliverLanes (s : State) (z : Fmt) (ls : List AtomLane) (vs : List Nat) : State :=
  (ls.zip vs).foldl (fun s y => s.deliver y.1.dest y.1.kdest (regsOf z) y.2) s

/-- The n words from w as one number, and n words from a number. -/
def joinWords (vs : List Word) : Nat := vs.foldr (fun v r => v.toNat + 2 ^ 32 * r) 0
def wordAt (x i : Nat) : Word := BitVec.ofNat 32 (x / 2 ^ (32 * i))

/-- True where every word of an atomic is owned at the requester's L1 or Marl core: it runs there. -/
def State.ownsHere (s : State) (x : Who) (ws : List Nat) : Bool :=
  ws.all fun w => match s.copy x.level w with | some c => c.owned | none => false
/-- True where every word is owned by the requester's die (03 R71). -/
def State.ownsDie (s : State) (x : Who) (ws : List Nat) : Bool :=
  !isMarl x.core && ws.all fun w => match s.copy (l2Level (dieOf x.core)) w with | some c => c.owned | none => false

/-- The words of an atomic at the L2: a cluster's copy is dropped and the die itself owns the word (03 R61, R71). -/
def State.pullToL2 (s : State) (die w : Nat) : State :=
  match s.dieData die w, s.copy (l2Level die) w with
  | some v, some c =>
    let s := if c.holder < 8 then s.dropAt (l1Level (die * 8 + c.holder)) w else s
    s.setCopy (l2Level die) w { c with val := v, holder := 8 }
  | _, _ => s

/-! ### Acquire and release (03 R67 to R70, 20 R361) -/

/-- The cores of a core's gang, itself among them. -/
def State.gangCores (s : State) (core : Nat) : List Nat :=
  match (s.core core).gang with
  | some g => (s.cores.filter fun c => c.2.gang = some g).map (·.1)
  | none => [core]

/-- The effect of an acquire on one window (03 R70): the named non-owned words are dropped; FULL becomes EMPTY if one is. -/
def Window.acquire (x : Window) (mask : Nat) : Window :=
  if x.st = .unbound then x
  else
    let gone := x.present.filter fun e => mask.testBit e.2 && !x.owned.contains e.1
    if gone = [] then x
    else
      { x with
        present := x.present.filter fun e => !(mask.testBit e.2 && !x.owned.contains e.1)
        st := if x.st = .full then .empty else x.st
        wasFull := false }

/-- Valid copies of a level dropped by tag (03 R67). -/
def State.dropTagged (s : State) (level mask : Nat) : State :=
  { s with copies := s.copies.filter fun c =>
      !(c.1 / 2 ^ 50 = level && !c.2.owned && !c.2.pend && mask.testBit c.2.region) }

/-- True of a window of whose words an acquire's mask names a region: regions are multiples of 256 bytes (03 R66, R70). -/
def State.names (s : State) (ctx : Nat) (x : Window) (mask : Nat) : Bool :=
  mask ≠ 0 && (List.range (x.size / 256)).any fun j => mask.testBit (s.regionOf ctx (x.base + 256 * j))

/-- True while an acquire must wait: a window of the gang that it names is filling (03 R70). -/
def State.fillsPending (s : State) (core ctx mask : Nat) : Bool :=
  (s.gangCores core).any fun c => (s.core c).windows.any fun x => x.2.st = .filling && s.names ctx x.2 mask

/-- Words of a gang's window sectors that were read before an acquire that names their region and are still on their way do not enter the windows. -/
def State.dropFetched (s : State) (core mask : Nat) : State :=
  let cs := s.gangCores core
  { s with msgs := s.msgs.map fun m =>
      match m.2.client with
      | .window c _ =>
        if m.2.kind = .load && cs.contains c && mask.testBit m.2.region then
          (m.1, if m.2.st = .answered then { m.2 with items := [], ans := [] } else { m.2 with got := [] })
        else m
      | _ => m }

/-- The levels of an acquire by a core's thread (03 R54, R67). -/
def State.acquire (s : State) (core : Nat) (sc : Scope) (mask : Nat) : State :=
  let r := scopeRank sc
  let s := if r = 3 then s.dropTagged (llcLevel (pkgOf core)) mask else s
  if isMarl core then (if r ≥ 2 then s.dropTagged (marlLevel core) mask else s)
  else
    let s := ((s.gangCores core).foldl (fun s c => s.modCore c fun x =>
      { x with windows := x.windows.map fun y => (y.1, y.2.acquire mask) }) s).dropFetched core mask
    let s := if r ≥ 1 then s.dropTagged (l1Level (clusterOf core)) mask else s
    if r ≥ 2 then s.dropTagged (l2Level (dieOf core)) mask else s

/-- True of a request that a thread's release at a scope waits for (03 R68): at GROUP scope loads and registrations have only to be sent; accesses of
never-cached pages homed on another package hold a SYSTEM release alone. -/
def Msg.holdsRelease (m : Msg) (p : Nat) (sc : Scope) : Bool :=
  if m.attr = 3 ∧ endPkg m.dst ≠ p ∧ m.kind ≠ .load then sc = .sys else sc ≠ .grp || (m.kind ≠ .reg && m.kind ≠ .load)

/-- True where a release by a thread may complete (03 R68): the requests that it waits for have ended, and at a scope above GROUP no registration of a word
the thread wrote is pending at its level. -/
def State.releaseReady (s : State) (t : Nat) (sc : Scope) : Bool :=
  let th := s.thread t
  let x := s.who t
  (th.pending.all fun id => !s.live id || (match s.msg id with | some m => !m.holdsRelease (pkgOf x.core) sc | none => true)) &&
  (sc = .grp || th.written.all fun w => match s.copy x.level w with | some c => !c.pend | none => true)

/-- A release performed (03 R68, 20 R361): the mirror takes the written words that the die owns; at PACKAGE and SYSTEM the home agent's release count
rises. -/
def State.doRelease (s : State) (t : Nat) (sc : Scope) : State :=
  let x := s.who t
  let ws := (s.thread t).written
  let s := if sc = .grp then s
    else ws.foldl (fun s w =>
      match s.ownerOf w with
      | some e => if e.agent = x.agent then s.setMirror e.agent w (s.wordVal w) else s
      | none => s) s
  let s := if scopeRank sc ≥ 2 then s.bumpRelease x.agent else s
  if sc = .grp then s
  else s.modThread t fun th => { th with written := [], pending := th.pending.filter fun id => s.live id }

end Sys2Proof.Machine
end

