-- ==== Sys2Proof/Machine/Access.lean ====
section
/-! DEFINITION. The memory and scope group (06 R128, 08 R163 to R175), the atomics (08 R176 to R179) and touches of windows (08 R182). -/

namespace Sys2Proof.Machine

/-- The end of a meaning that accesses memory: a fault where a physical address has no place (log 6). -/
def done (s : State) : Host.Outcome State Fault Refusal := if s.hole then .fault .physicalHole else .next s

/-! ### Faults of an access (08 R166, 20 R353) -/

/-- COREID (10 R248). -/
def State.coreId (s : State) (core : Nat) : Nat :=
  let c := numOf core
  if isMarl core then 2 ^ 31 + (c - 256) / 48 * 2 ^ 7 + (c - 256) % 48
  else c + c / 4 * 2 ^ 8 + c / 32 * 2 ^ 14 + s.pkgNum (pkgOf core) * 2 ^ 17

/-- A thread parks on a fault with cause 2 or 3: it joins the record of its page, or a new one is made (20 R353, R356). -/
def State.park (s : State) (t va cause kind : Nat) : State × Nat :=
  let ctx := s.ctxKey t
  let page := va / 2 ^ 16
  match s.faults.find? fun f => f.ctx = ctx ∧ f.page = page ∧ f.cause = cause with
  | some f => ({ s with faults := s.faults.map fun g => if g.num = f.num then { g with threads := g.threads ++ [(t, va, kind, (s.thread t).pc)] } else g }, f.num)
  | none =>
    let core := coreOf t
    ({ s with
       nextId := s.nextId + 1
       faults := s.faults ++ [{ num := s.nextId, ctx := ctx, page := page, cause := cause, va := va, pc := (s.thread t).pc, kind := kind
                                source := s.coreId core, squad := if isMarl core then 0 else squadOf t % 32, threads := [(t, va, kind, (s.thread t).pc)] }] }, s.nextId)

/-- A translation fault of a thread's access: parked for causes 2 and 3, a trap otherwise (20 R353, R355). -/
def State.xlateFault (s : State) (t va cause kind : Nat) : State × Ret :=
  if cause = 2 ∨ cause = 3 then let r := s.park t va cause kind; (r.1, .stay (.parked r.2)) else (s, .trap ⟨9, cause, va, kind⟩)

/-- The frame of a die's pinned page is read as the L2 first meets the word (20 R350). -/
def State.pinTouch (s : State) (die w : Nat) : State :=
  if (tget? s.pinned (copyKey die w)).isSome then s else { s with pinned := tset s.pinned (copyKey die w) (s.homeWord w) }
/-- The first access of a word of a target (20 R350). -/
def State.pinMeet (s : State) (tg : Target) (i : Nat) : State := match tg with | .pinDie die pa => s.pinTouch die (pa / 4 + i) | _ => s

/-! ### Addresses and values (08 R163, R164) -/

/-- The global address. -/
def State.globalAddr (s : State) (iss : Issue) (t : Nat) (i : Instr) (o : Ops) : Nat :=
  lowBits (s.srcA iss t i o + s.offset iss t o.b) 64
/-- The local offset, exact. -/
def State.localAddr (s : State) (iss : Issue) (t : Nat) (i : Instr) (o : Ops) : Int :=
  (s.srcA iss t i o : Int) + s.offset iss t o.b

/-- Bytes of a size. -/
def sizeBytes (f : Fmt) : Nat := f.width / 8
/-- What a load writes for the bytes read (08 R164, 04 R84, R86). -/
def loadOut (f : Fmt) (x : Nat) : Nat :=
  if f.isInt then lowBits (readInt f x) (max f.width 32) else x % 2 ^ f.width

/-- The words of an access of n bytes at a physical address, with the bytes of each. -/
def itemsOf (pa n data : Nat) : List Item :=
  if n = 8 then [{ w := pa / 4, val := wordAt data 0 }, { w := pa / 4 + 1, val := wordAt data 1 }]
  else
    let b := pa % 4
    [{ w := pa / 4, bm := (2 ^ n - 1) * 2 ^ b % 16, val := BitVec.ofNat 32 (data * 2 ^ (8 * b)) }]
/-- The bytes of an access from its words. -/
def bytesOf (pa n : Nat) (vs : List Word) : Nat := joinWords vs / 2 ^ (8 * (pa % 4)) % 2 ^ (8 * n)

/-- The destination of a variable-latency result fixed at issue (02 R41): register keys, or a k register. -/
def State.destOf (s : State) (o : Ops) (t n : Nat) (kw : Bool) : List Nat × Option (Nat × Nat) :=
  match o.d with
  | .v r => (s.regKey t r.toNat :: if n = 2 then [s.regKey t (r.toNat + 1)] else [], none)
  | .k r => ([], if kw then some (squadOf t, r.toNat) else none)
  | _ => ([], none)

/-- The result registers wait for a request (01 R17, R28). -/
def State.awaitMsg (s : State) (o : Ops) (t n id : Nat) : State :=
  let b := (s.destBusy t o.d n 0).map fun x => { x with msg := some id }
  let s := s.modThread t fun th => { th with busy := th.busy ++ b, pending := id :: th.pending }
  s.kFly (squadOf t) (kDest o.d n 0 (some id)) (s.core (coreOf t)).ck

/-- The thread waits for a request that may be refused (03 R75, 20 R359). -/
def State.waitMsg (s : State) (t id : Nat) : State × Ret :=
  (s.modThread t fun th => { th with phase := 1, token := id, pending := id :: th.pending }, .stay (.blocked .msgs))

/-- True where an earlier request of the thread concerns one of the words: the access comes after it (08 R165). -/
def State.overlaps (s : State) (t : Nat) (ws : List Nat) : Bool :=
  (s.thread t).pending.any fun id =>
    match s.msg id with
    | some m => m.st ≠ .finished && m.kind ≠ .reg && m.attr = 0 && m.items.any fun i => ws.contains i.w
    | none => false
/-- True where a write-back of one of the words by the requester's agent is on its way: a store waits for its acknowledgement (log 12). -/
def State.wbPending (s : State) (agent : Nat) (ws : List Nat) : Bool := ws.any fun w => (s.buffered agent w).isSome
/-- True where a word homed on another package has a registration pending at the requester's level: another store of it waits, since the request may be
refused (20 R359). -/
def State.remotePending (s : State) (x : Who) (ws : List Nat) : Bool :=
  ws.any fun w => x.remote w && (match s.copy x.level w with | some c => c.pend | none => false)
/-- True where a Cached store of some words has to wait: for the thread's earlier requests, a write-back, a pending registration of one word of two (03 R77), of
a word homed on another package. -/
def State.storeWaits (s : State) (x : Who) (items : List Item) : Bool :=
  let ws := items.map (·.w)
  s.overlaps x.tid ws || s.wbPending x.agent ws || s.splitPending x.level items || s.remotePending x ws
/-- True where an earlier access of the thread outside Cached pages has not ended: they are performed in program order (03 R52). -/
def State.uncachedPending (s : State) (t : Nat) : Bool :=
  (s.thread t).pending.any fun id => match s.msg id with | some m => m.st ≠ .finished && m.attr ≠ 0 | none => false

/-- The request's fields that every access of a thread shares. -/
def State.baseMsg (s : State) (x : Who) (kind : MsgKind) (va pa : Nat) (items : List Item) : Msg :=
  let w := pa / 4
  { kind := kind, src := x.agent, dst := homeEnd w, agent := x.agent, level := x.level, holder := x.holder, items := items
    client := .thread x.tid, ctx := x.ctx, va := va, pc := x.pc, pa := pa, region := s.regionOf x.ctx va
    strict := s.trapsRaces x.ctx || x.remote w, raceTrap := s.trapsRaces x.ctx, ck := (s.core x.core).ck }

/-- A request on a page that is not Cached: to the core that holds a pin slot, to a die's L2, or to the memory controller (03 R52). The thread waits where the
access may still fault: a pinned page's home may be lost, another package may refuse it (20 R353, R355). -/
def uncachedMsg (m : Msg) (tg : Target) : Msg :=
  match tg with
  | .pinCore core off =>
    { m with attr := 1, pa := scratchKey core off, dst := dieAgent (dieOf core), raceTrap := false, past := true, strict := true }
  | .pinDie die pa => { m with attr := 2, pinDie := die, pa := pa, dst := dieAgent die, raceTrap := false, past := true, strict := true }
  | .never pa =>
    { m with attr := 3, pa := pa, dst := homeEnd (pa / 4), raceTrap := false, past := true, strict := m.src / 1024 ≠ pa / 2 ^ 46 }
  | .cached _ => m

/-! ### Pages pinned to a die, from that die's own clusters (03 R52, 20 R350) -/

/-- The home value of a word pinned to a die: the L2's, first filled from the backing frame. -/
def State.pinHome (s : State) (die w : Nat) : Word := (tget? s.pinned (copyKey die w)).getD (s.homeWord w)
/-- The latest value: an owning cluster's, or the L2's. -/
def State.pinWord (s : State) (die w : Nat) : Word := (s.dieData die w).getD (s.pinHome die w)
/-- A cluster's ownership dropped at every level, as an invalidate notice does; the L2's value written. -/
def State.setPinWord (s : State) (die w bm : Nat) (v : Word) : State :=
  let old := s.pinWord die w
  let owned : Bool := match s.copy (l2Level die) w with | some c => c.owned | none => false
  let s := if owned then (l2Level die :: (List.range 8).map fun c => l1Level (die * 8 + c)).foldl (fun s l => s.dropAt l w) s else s
  { s with pinned := tset s.pinned (copyKey die w) (mergeWord bm v old) }
/-- A word that a cluster owns comes to lie at the L2, unowned, for an atomic of the die; valid copies of other clusters stay (03 R52, R71). -/
def State.pinPull (s : State) (die w : Nat) : State :=
  let v := s.pinWord die w
  let s := match s.copy (l2Level die) w with
    | some c => if c.owned then (if c.holder < 8 then s.dropAt (l1Level (die * 8 + c.holder)) w else s).dropAt (l2Level die) w else s
    | none => s
  { s with pinned := tset s.pinned (copyKey die w) v }
/-- A store of one of the die's own clusters: it registers at the L2 and owns the word; another cluster's ownership is dropped, valid copies stay (03 R61). -/
def State.ownPinWord (s : State) (x : Who) (die w bm : Nat) (v : Word) (region : Nat) (pol : Policy) : State :=
  let old := s.pinWord die w
  let s := s.pinTouch die w
  let s := match s.copy (l2Level die) w with
    | some c => if c.owned ∧ c.holder < 8 ∧ c.holder ≠ x.level % 8 then s.dropAt (l1Level (die * 8 + c.holder)) w else s
    | none => s
  let s := (s.roomBy State.giveUpHigh (l2Level die) w).setCopy (l2Level die) w { val := old, owned := true, holder := x.level % 8, region := region }
  ((s.makeRoom x.level w).setCopy x.level w { val := mergeWord bm v old, owned := true, holder := x.holder, region := region }).expel x.level x.agent w
    (if pol = .all ∨ pol = .strm then pol else .nl1)

/-! ### Loads -/

/-- A load of a thread from a translated address: the value at once, or a request (03 R52, R58). -/
def State.loadAt (s : State) (x : Who) (tg : Target) (va n : Nat) (sc : Scope) (pol : Policy) : State × (Nat ⊕ Option Msg) :=
  match tg with
  | .cached pa =>
    let items := itemsOf pa n 0
    match s.lookup x items sc with
    | .wait => (s, .inr none)
    | .miss =>
      let s := if isMarl x.core then s else s.count x.core 6 1
      let m := s.baseMsg x .load va pa items
      (s, .inr (some { m with scope := sc, policy := pol, past := true }))
    | .hit d vs =>
      let s := if d = 0 ∨ isMarl x.core = true then s else s.count x.core 6 1
      let s := (items.zip vs).foldl (fun s y => s.keepWord x.level x.agent d y.1.w y.2 (s.regionOf x.ctx va) pol) s
      (s, .inl (bytesOf pa n vs))
  | .pinCore core off =>
    if core = x.core then (s, .inl (s.scratchRead (scratchKey core off) n))
    else (s, .inr (some (uncachedMsg (s.baseMsg x .load va off (itemsOf off n 0)) tg)))
  | .pinDie die pa =>
    if !isMarl x.core ∧ die = dieOf x.core then
      let items := itemsOf pa n 0
      let here : Bool := items.all fun i => match s.copy x.level i.w with | some c => c.owned || sc = .grp | none => false
      let vs := items.map fun i => match here, s.copy x.level i.w with | true, some c => s.copyVal c | _, _ => s.pinWord die i.w
      let s := (items.zip vs).foldl (fun s y =>
        (s.pinTouch die y.1.w).keepWord x.level x.agent (if here then 0 else 1) y.1.w y.2 (s.regionOf x.ctx va)
          (if pol = .all ∨ pol = .strm then pol else .nl1)) s
      (s, .inl (bytesOf pa n vs))
    else (s, .inr (some (uncachedMsg (s.baseMsg x .load va pa (itemsOf pa n 0)) tg)))
  | .never pa => (s, .inr (some (uncachedMsg (s.baseMsg x .load va pa (itemsOf pa n 0)) tg)))

/-- A thread's load (08 R169): checks in the order of 08 R166, then the value or a request. -/
def loadBody (i : Instr) (o : Ops) (size : Fmt) (sc : Scope) (pol : Policy) (iss : Issue) : Body := fun s0 s t =>
  let th := s0.thread t
  match th.failed with
  | some f => (s, .trap ⟨f.1, f.2.1, f.2.2.1, f.2.2.2⟩)
  | none =>
    if th.phase = 1 then (if s.live th.token then (s, .stay (.blocked .msgs)) else (s, .next))
    else
      let n := sizeBytes size
      let va := s0.globalAddr iss t i o
      if va % n ≠ 0 then (s, .trap ⟨7, 0, va, 1⟩)
      else
        let x := s0.who t
        match s.translate x.ctx (tcPath x.core) va { user := x.user } with
        | (s, .inr c) => s.xlateFault t va c 1
        | (s, .inl tg) =>
          let again : Bool := match tg with | .cached pa => s.overlaps t ((itemsOf pa n 0).map (·.w)) | _ => s.uncachedPending t
          if again then (s, .stay (.blocked .again))
          else
            let kw := kWriter s0 iss o t
            match s.loadAt x tg va n sc pol with
            | (s, .inl v) => (s.writeD iss o t (loadOut size v) (regsOf size) kw, .next)
            | (s, .inr none) => (s, .stay (.blocked .again))
            | (s, .inr (some m)) =>
              let d := s0.destOf o t (regsOf size) kw
              let r := s.send { m with size := size, dest := d.1, kdest := d.2 }
              if m.strict then r.1.waitMsg t r.2 else (r.1.awaitMsg o t (regsOf size) r.2, .next)

/-- 08 R169. -/
def execLd (o : Ops) (f : MemFn) (s : State) : Host.Outcome State Fault Refusal :=
  done (runGroup (.ld o f) o (loadBody (.ld o f) o f.size f.scope f.policy) s)

/-! ### Stores -/

/-- True of a request for the same words as a store's or for words next to them, sent for another lane of the same group into the same window (13 R280): one request
serves the run of consecutive words of a line. -/
def Msg.joins (m z : Msg) : Bool :=
  let w := (m.items.headD ⟨0, 0, 0⟩).w
  z.kind = .reg && z.st = .flying && !z.past && z.src = m.src && z.pc = m.pc && z.ck = m.ck && z.ctx = m.ctx &&
    z.late = m.late && decide ((z.items.headD ⟨0, 0, 0⟩).w / 16 = w / 16) &&
    (match z.win, m.win with | some k, some j => k + 4 * (m.pa / 4) = j + 4 * (z.pa / 4) | _, _ => false) &&
    z.items.any fun i => m.items.any fun j => i.w = j.w || i.w + 1 = j.w || i.w = j.w + 1
/-- A store's bytes join those of a request, the words in ascending order: a later lane's bytes of a word stand over an earlier one's (08 R165). -/
def joinItem (i : Item) : List Item → List Item
  | [] => [i]
  | j :: r =>
    if i.w < j.w then i :: j :: r
    else if i.w = j.w then { j with bm := j.bm ||| i.bm, val := mergeWord i.bm i.val j.val } :: r else j :: joinItem i r
def joinItems (old new : List Item) : List Item := new.foldl (fun l i => joinItem i l) old
/-- A thread's request goes on as another one. -/
def Thread.follow (th : Thread) (old new : Nat) : Thread :=
  { th with token := if th.token = old then new else th.token, pending := th.pending.map fun id => if id = old then new else id }
/-- The requests that a store joins become the first of them; none where it joins none. -/
def State.joinStore (s : State) (x : Who) (m : Msg) : Option (State × Nat) :=
  match s.msgs.filter fun y => m.joins y.2 with
  | [] => none
  | y :: r =>
    let lane : AtomLane := { tid := x.tid, c := 0, cmp := 0, dest := [] }
    let z := { y.2 with
      items := joinItems (r.foldl (fun l u => joinItems l u.2.items) y.2.items) m.items
      held := joinItems (r.foldl (fun l u => joinItems l u.2.held) y.2.held) m.held
      lanes := y.2.lanes ++ (r.flatMap fun u => (match u.2.client with | .thread t => [{ lane with tid := t }] | _ => []) ++ u.2.lanes) ++ [lane] }
    let s := { s with msgs := tset (s.msgs.filter fun u => !r.any fun v => v.1 = u.1) y.1 z
                      threads := if r = [] then s.threads else s.threads.map fun th => (th.1, r.foldl (fun h u => h.follow u.1 y.1) th.2) }
    -- one request less is sent for each that has joined the first
    some (if isMarl x.core then s else s.count x.core 8 ((2 ^ 64 - r.length) % 2 ^ 64), y.1)

/-- Words that a store writes are no longer fetched: a sector fetch that is on its way leaves them out (03 R57). -/
def State.stripFetch (s : State) (c slot : Nat) (ws : List Nat) : State :=
  let keep (i : Item) : Bool := !ws.contains i.w
  { s with msgs := s.msgs.map fun m =>
      if m.2.client = .window c slot ∧ m.2.kind = .load then
        (m.1, { m.2 with items := m.2.items.filter keep
                         ans := if m.2.st = .answered then ((m.2.items.zip m.2.ans).filter fun y => keep y.1).map (·.2) else m.2.ans })
      else m }
/-- A thread's write through a global address: the windows of its gang that map the address keep no older copy of the words, so that a local access of the thread that
comes after it finds them (08 R165, 03 R79). va: the address of the word at physical address pa, n: words. -/
def State.staleWindows (s : State) (core va pa n : Nat) : State :=
  if isMarl core then s
  else (s.gangCores core).foldl (fun s c => (s.core c).windows.foldl (fun s y =>
    let w := y.2
    if w.st = .unbound ∨ va < w.base ∨ w.base + w.size ≤ va then s
    else (List.range n).foldl (fun s j =>
      let k := (va - w.base) / 4 + j
      if (s.window c y.1).owned.contains k then s
      else
        let s := s.stripFetch c y.1 [pa / 4 + j]
        if (tget? (s.window c y.1).present k).isSome then s.dropWindowWord (scratchKey c (w.off + 4 * k)) else s) s) s) s

/-- The words of a Cached store at the requester's level; the words that need a registration, and the request for them (03 R56, R57). Where the level owns one
word of two, the other is asked for, and both are written when both are owned (R77). -/
def State.storeBy (s : State) (x : Who) (va pa : Nat) (items : List Item) (win : Option Nat) (pol : Policy) (bump mixed late strict : Bool) :
    State × Option Nat :=
  let region := s.regionOf x.ctx va
  let own (i : Item) : Bool := match s.copy x.level i.w with | some c => c.owned | none => false
  let r := if mixed then (s, items.filter fun i => !own i)
    else items.foldl (fun (acc : State × List Item) i =>
      match acc.1.storeWord x i.w i.bm i.val region (win.map (· + 4 * (i.w - pa / 4))) pol late with
      | .done s => (s, acc.2)
      | .register s => (s, acc.2 ++ [i])) (s, [])
  let s := r.1.modThread x.tid fun th => { th with written := (items.map (·.w) ++ th.written).eraseDups }
  let s := if win.isSome then s else s.staleWindows x.core va pa items.length
  if r.2 = [] then (s, none)
  else
    let m := s.baseMsg x .reg va pa r.2
    let m := { m with policy := pol, win := win, bump := bump, past := isMarl x.core, late := late, strict := strict
                      raceTrap := m.raceTrap && strict, held := if mixed then items.filter own else []
                      dst := if isMarl x.core then m.dst else m.src }
    match (if win.isSome then s.joinStore x m else none) with
    | some y => (y.1, some y.2)
    | none =>
      let y := (s.count x.core 8 1).send m
      (y.1, some y.2)

/-- A Cached store of a thread: it waits for its grant under race mode TRAP, where the word's home may refuse it, and where its bytes await the grant. -/
def State.storeAt (s : State) (x : Who) (va pa : Nat) (items : List Item) (win : Option Nat) (pol : Policy) (bump : Bool) : State × Option Nat :=
  let mixed := s.mixed x.level items
  let late := s.trapsRaces x.ctx || mixed
  s.storeBy x va pa items win pol bump mixed late (late || x.remote (pa / 4))

/-- A store whose request is on its way: the thread waits where the request may be refused or the bytes await the grant. -/
def State.afterStore (s : State) (t : Nat) : Option Nat → State × Ret
  | none => (s, .next)
  | some id =>
    if (match s.msg id with | some m => m.strict | none => false) then s.waitMsg t id
    else (s.modThread t fun th => { th with pending := id :: th.pending }, .next)

/-- A thread's store to a translated address (08 R170). -/
def State.storeTo (s : State) (x : Who) (tg : Target) (va n data : Nat) (pol : Policy) (bump : Bool) : State × Ret :=
  match tg with
  | .cached pa =>
    let r := s.storeAt x va pa (itemsOf pa n data) none pol bump
    r.1.afterStore x.tid r.2
  | .pinCore core off =>
    if core = x.core then (s.scratchWrite (scratchKey core off) n data, .next)
    else
      let r := s.send (uncachedMsg (s.baseMsg x .remote va off (itemsOf off n data)) tg)
      r.1.afterStore x.tid (some r.2)
  | .pinDie die pa =>
    if !isMarl x.core ∧ die = dieOf x.core then
      ((itemsOf pa n data).foldl (fun s i => s.ownPinWord x die i.w i.bm i.val (s.regionOf x.ctx va) pol) s, .next)
    else
      let r := s.send (uncachedMsg (s.baseMsg x .remote va pa (itemsOf pa n data)) tg)
      r.1.afterStore x.tid (some r.2)
  | .never pa =>
    let r := s.send (uncachedMsg (s.baseMsg x .remote va pa (itemsOf pa n data)) tg)
    r.1.afterStore x.tid (some r.2)

/-- The lanes of the group below a thread's that aim at the same address and are not past it: stores and atomics from several lanes to one byte take effect in
ascending lane order (08 R165). -/
def State.lowerLanes (s0 : State) (iss : Issue) (i : Instr) (o : Ops) (t : Nat) : List Nat :=
  iss.threads.filter fun u => decide (laneOf u < laneOf t) && (s0.thread u).guard o.h && decide ((s0.thread u).phase = 0) &&
    decide (s0.globalAddr iss u i o = s0.globalAddr iss t i o)
/-- True where every guard-true lane of the group up to a thread's that has not begun its instruction may act: one that may not holds up those above it, so that
the group's threads act in ascending lane order. -/
def State.lanesReady (s0 : State) (iss : Issue) (o : Ops) (t : Nat) (ready : Nat → Bool) : Bool :=
  iss.threads.all fun u => !(decide (laneOf u ≤ laneOf t) && (s0.thread u).guard o.h && decide ((s0.thread u).phase = 0)) || ready u
/-- The lanes' releases at a scope. -/
def State.laneWaits (s0 : State) (iss : Issue) (o : Ops) (t : Nat) (sc : Scope) : Bool := !s0.lanesReady iss o t fun u => s0.releaseReady u sc

/-- A thread's store; rel: a store-release at a scope (03 R69), whose release is performed before the store. -/
def storeBody (i : Instr) (o : Ops) (size : Fmt) (pol : Policy) (rel : Option Scope) (iss : Issue) : Body := fun s0 s t =>
  let th := s0.thread t
  match th.failed with
  | some f => (s, .trap ⟨f.1, f.2.1, f.2.2.1, f.2.2.2⟩)
  | none =>
    if th.phase = 1 then (if s.live th.token then (s, .stay (.blocked .msgs)) else (s, .next))
    else
      let n := sizeBytes size
      let va := s0.globalAddr iss t i o
      if va % n ≠ 0 then (s, .trap ⟨7, 0, va, 2⟩)
      else
        let x := s0.who t
        match s.translate x.ctx (tcPath x.core) va { user := x.user, write := true } with
        | (s, .inr c) => s.xlateFault t va c 2
        | (s, .inl tg) =>
          let again (s : State) (u : Nat) : Bool :=
            (match tg with
             | .cached pa => s.storeWaits { x with tid := u } (itemsOf pa n 0)
             | _ => s.uncachedPending u) || (match rel with | some sc => !s.releaseReady u sc | none => false)
          if again s t || (s0.lowerLanes iss i o t).any (again s0) then (s, .stay (.blocked .again))
          else
            let s := match rel with | some sc => s.doRelease t sc | none => s
            let bump := match rel with | some sc => decide (scopeRank sc ≥ 2) | none => false
            s.storeTo x tg va n (s0.srcC iss t i o % 2 ^ (8 * n)) pol bump

/-- 08 R170: the plain store. -/
def execSt (o : Ops) (f : MemFn) (s : State) : Host.Outcome State Fault Refusal :=
  done (runGroup (.st o f) o (storeBody (.st o f) o f.size f.policy none) s)
/-- 08 R170, 03 R69: the store-release. -/
def execStRel (o : Ops) (f : MemFn) (s : State) : Host.Outcome State Fault Refusal :=
  done (runGroup (.stRel o f) o (storeBody (.stRel o f) o f.size f.policy (some f.scope)) s)

/-- Words that a level of the requester's path has are kept at the levels below it that the policy keeps (03 R58). -/
def State.keepFound (s : State) (x : Who) (items : List Item) (sc : Scope) (pol : Policy) (va : Nat) : State :=
  items.foldl (fun s i =>
    match s.lookup x [i] sc with
    | .hit d (v :: _) => s.keepWord x.level x.agent d i.w v (s.regionOf x.ctx va) pol
    | _ => s) s

/-- 08 R172: a request for a valid copy of the sector, placed at each level that the policy keeps; no trap, no wait. -/
def execPref (o : Ops) (f : MemFn) (s : State) : Host.Outcome State Fault Refusal :=
  done (runGroup (.pref o f) o (fun iss s0 s t =>
    let va := s0.globalAddr iss t (.pref o f) o
    let x := s0.who t
    match s.translate x.ctx (tcPath x.core) va { user := x.user } with
    | (s, .inl (.cached pa)) =>
      let base := pa - pa % 32
      let items := (List.range 8).map fun j => ({ w := base / 4 + j } : Item)
      let miss := items.filter fun i => s.find x i.w 15 f.scope = .miss
      let s := if isMarl x.core ∨ (items.all fun i => (s.levelWord x 0 i.w 15 (scopeRank f.scope)).isVal) = true then s else s.count x.core 6 1
      let s := s.keepFound x items f.scope f.policy va
      if miss = [] then (s, .next)
      else
        let m := s.baseMsg x .load (va - va % 32) base miss
        ((s.send { m with scope := f.scope, policy := f.policy, past := true, client := .none, strict := false, raceTrap := false }).1, .next)
    | (s, _) => (s, .next)) s)

/-! ### Regions and scope operations (08 R173 to R175) -/

/-- 08 R173: the entry goes to every package of the context; the thread is held until each has taken it. -/
def execRegion (o : Ops) (s : State) : Host.Outcome State Fault Refusal :=
  .next (runGroup (.region o) o (fun iss s0 s t =>
    if (s0.thread t).phase = 1 then
      (if s.regionMsgs.any fun m => m.2.2.2.2.2 = t then (s, .stay (.blocked .again)) else (s, .next))
    else
      let r := s0.srcA iss t (.region o) o
      let base := s0.srcB iss t (.region o) o.b
      let len := s0.srcC iss t (.region o) o
      if r > 62 ∨ base % 256 ≠ 0 ∨ len % 256 ≠ 0 then (s, .trap ⟨6, 1, 0, 0⟩)
      else
        let k := s0.ctxKey t
        let ps := (List.range 64).filter fun p => p = k / 64 || (s0.ctx k).packages.testBit p
        ({ s.modThread t fun th => { th with phase := 1 } with
           regionMsgs := s.regionMsgs ++ ps.map fun p => (p, k % 64, r, base, len, t) }, .stay (.blocked .again))) s)

/-- Loads and atomics of the thread that have not returned (03 R67). -/
def State.loadsPending (s : State) (t : Nat) : Bool :=
  (s.thread t).pending.any fun id => match s.msg id with
    | some m => m.st ≠ .finished && (m.kind = .load || m.kind = .atomic)
    | none => false

/-- 08 R174, 03 R67, R70. -/
def execAcq (o : Ops) (sc : Scope) (s : State) : Host.Outcome State Fault Refusal :=
  .next (runGroup (.acq o sc) o (fun iss s0 s t =>
    let mask := s0.srcB iss t (.acq o sc) o.b
    if s.loadsPending t || (!isMarl iss.core && s.fillsPending iss.core (s0.ctxKey t) mask) then (s, .stay (.blocked .again))
    else (s.acquire iss.core sc mask, .next)) s)

/-- A release that holds the thread until it completes. -/
def relBody (sc : Scope) : Body := fun _ s t =>
  if s.releaseReady t sc then (s.doRelease t sc, .next) else (s, .stay (.blocked .again))

/-- 08 R175, 03 R68. -/
def execRel (o : Ops) (sc : Scope) (s : State) : Host.Outcome State Fault Refusal :=
  done (runGroup (.rel o sc) o (fun _ => relBody sc) s)
/-- 08 R175, 03 R69: a release and an acquire that names no region, which invalidates nothing. -/
def execFence (o : Ops) (sc : Scope) (s : State) : Host.Outcome State Fault Refusal :=
  done (runGroup (.fence o sc) o (fun _ s0 s t =>
    if s.loadsPending t then (s, .stay (.blocked .again)) else relBody sc s0 s t) s)

/-! ### Global atomics (08 R176 to R178) -/

/-- The lanes of the group that take part in one atomic: the thread alone, or for ATOML every guard-true lane at its address. -/
def atomGroup (i : Instr) (o : Ops) (iss : Issue) (s0 : State) (t : Nat) : List Nat :=
  match i with
  | .atoml _ _ =>
    let a := s0.globalAddr iss t i o
    iss.threads.filter fun u => (s0.thread u).guard o.h && (s0.thread u).phase = 0 && s0.globalAddr iss u i o = a
  | _ => [t]

/-- The lanes with operands, comparands and destinations. -/
def atomLanesOf (i : Instr) (o : Ops) (z : Fmt) (iss : Issue) (s0 : State) (ts : List Nat) : List AtomLane :=
  ts.map fun u =>
    let d := s0.destOf o u (regsOf z) (kWriter s0 iss o u)
    { tid := u, c := s0.srcC iss u i o, cmp := s0.readFld iss u o.d (regsOf z), dest := d.1, kdest := d.2 }

/-- An atomic performed on a value: the fetched values delivered, the new value. -/
def State.atomRun (s : State) (op : AtomOp) (z : Fmt) (ls : List AtomLane) (old : Nat) : State × Nat :=
  let r := atomLanes op z old ls
  (s.deliverLanes z ls r.1, r.2)

/-- The words of an atomic rewritten at a level that owns them. -/
def State.putWords (s : State) (level : Nat) (ws : List Nat) (v : Nat) : State :=
  (ws.zip (List.range ws.length)).foldl (fun s y =>
    match s.copy level y.1 with
    | some c => s.putCopy level y.1 c 15 (wordAt v y.2)
    | none => s) s
/-- The value of words owned at a level. -/
def State.getWords (s : State) (level : Nat) (ws : List Nat) : Nat :=
  joinWords (ws.map fun w => match s.copy level w with | some c => s.copyVal c | none => 0)

/-- An atomic where the registration places it (03 R71), or a request to the home. -/
def State.atomAt (s : State) (x : Who) (tg : Target) (va n : Nat) (op : AtomOp) (z : Fmt) (ls : List AtomLane) : State × Option Msg :=
  let ask (pa : Nat) : Msg :=
    { s.baseMsg x .atomic va pa (itemsOf pa n 0) with op := op, size := z, lanes := ls, past := true }
  match tg with
  | .cached pa =>
    let ws := (itemsOf pa n 0).map (·.w)
    let mark (s : State) : State :=
      (s.modThread x.tid fun th => { th with written := (ws ++ th.written).eraseDups }).staleWindows x.core va pa ws.length
    if s.ownsHere x ws then
      let r := s.atomRun op z ls (s.getWords x.level ws)
      (mark (r.1.putWords x.level ws r.2), none)
    else if s.ownsDie x ws then
      let s := if isMarl x.core then s else s.count x.core 6 1
      let s := ws.foldl (fun s w => (s.pullToL2 (dieOf x.core) w).dropAt x.level w) s
      let r := s.atomRun op z ls (s.getWords (l2Level (dieOf x.core)) ws)
      (mark (r.1.putWords (l2Level (dieOf x.core)) ws r.2), none)
    else (if isMarl x.core then s else s.count x.core 6 1, some (ask pa))
  | .pinCore core off =>
    if core = x.core then
      let r := s.atomRun op z ls (s.scratchRead (scratchKey core off) n)
      (r.1.scratchWrite (scratchKey core off) n r.2, none)
    else (s, some (uncachedMsg (ask off) tg))
  | .pinDie die pa =>
    if !isMarl x.core ∧ die = dieOf x.core then
      let ws := (itemsOf pa n 0).map (·.w)
      if s.ownsHere x ws then
        let r := s.atomRun op z ls (s.getWords x.level ws)
        (r.1.putWords x.level ws r.2, none)
      else
        let s := ws.foldl (fun s w => (s.pinPull die w).dropAt x.level w) s
        let r := s.atomRun op z ls (joinWords (ws.map fun w => s.pinHome die w))
        (ws.zipIdx.foldl (fun s y => { s with pinned := tset s.pinned (copyKey die y.1) (wordAt r.2 y.2) }) r.1, none)
    else (s, some (uncachedMsg (ask pa) tg))
  | .never pa => (s, some (uncachedMsg (ask pa) tg))

/-- A thread's atomic; for ATOML the lowest lane at an address acts for all of them, and the others wait for the same request. -/
def atomBody (i : Instr) (o : Ops) (f : AtomFn) (iss : Issue) : Body := fun s0 s t =>
  let th := s0.thread t
  match th.failed with
  | some g => (s, .trap ⟨g.1, g.2.1, g.2.2.1, g.2.2.2⟩)
  | none =>
    if th.phase = 1 then (if s.live th.token then (s, .stay (.blocked .msgs)) else (s, .next))
    else
      let z := f.size
      let n := sizeBytes z
      let va := s0.globalAddr iss t i o
      if va % n ≠ 0 then (s, .trap ⟨7, 0, va, 3⟩)
      else
        let x := s0.who t
        match s.translate x.ctx (tcPath x.core) va { user := x.user, write := true } with
        | (s, .inr c) => s.xlateFault t va c 3
        | (s, .inl tg) =>
          let ts := atomGroup i o iss s0 t
          let ws := match tg with | .cached pa => (itemsOf pa n 0).map (·.w) | _ => []
          let pend := ws.any fun w => match s0.copy x.level w with | some c => c.pend | none => false
          let again (u : Nat) : Bool := match tg with | .cached _ => s0.overlaps u ws | _ => s0.uncachedPending u
          if (ts ++ s0.lowerLanes iss i o t).any again || pend || s0.wbPending x.agent ws then (s, .stay (.blocked .again))
          else if ts.head? ≠ some t then
            -- a later lane of the same address: it follows the lane that acted for it
            match (s.thread (ts.headD t)).pending.head? with
            | some id =>
              match s.msg id with
              | some m =>
                if m.kind = .atomic ∧ m.st ≠ .finished ∧ m.lanes.any (fun l => l.tid = t) then
                  (if m.strict then s.waitMsg t id else (s.awaitMsg o t (regsOf z) id, .next))
                else (s, .next)
              | none => (s, .next)
            | none => (s, .next)
          else
            match s.atomAt x tg va n f.op z (atomLanesOf i o z iss s0 ts) with
            | (s, none) => (s, .next)
            | (s, some m) =>
              let r := s.send m
              if m.strict then r.1.waitMsg t r.2 else (r.1.awaitMsg o t (regsOf z) r.2, .next)

/-- 08 R177. -/
def execAtom (o : Ops) (f : AtomFn) (s : State) : Host.Outcome State Fault Refusal :=
  done (runGroup (.atom o f) o (atomBody (.atom o f) o f) s)
/-- 08 R178, 03 R72. -/
def execAtoml (o : Ops) (f : AtomFn) (s : State) : Host.Outcome State Fault Refusal :=
  done (runGroup (.atoml o f) o (atomBody (.atoml o f) o f) s)

/-! ### The local space (03 R50, 08 R171, R179, R182, 13 R285) -/

/-- The core of a gang's workgroup by its index. -/
def State.gangCore (s : State) (core w : Nat) : Option Nat :=
  match (s.core core).gang with
  | some _ => (s.gangCores core).find? fun c => (s.core c).wg = w
  | none => if w = 0 then some core else none

/-- The first offset of the copy-ring area in a scratchpad (08 R194), and a scratchpad's size. -/
def ringBase : Nat := 0x17F800
def scratchSize : Nat := 0x180000

/-- True of an offset in a pin slot that a page of another context holds (13 R285); a context has one number on all its packages. -/
def State.pinForeign (s : State) (c off ctx : Nat) : Bool :=
  match (s.pinnedOn c).filter fun x => x.1 = off / 2 ^ 16 with
  | [] => false
  | l => l.all fun x => decide (x.2 ≠ ctx) && !(x.2 % 64 = ctx % 64 && (s.ctx ctx).packages.testBit (x.2 / 64))

/-- A local access of n bytes: the scratchpad's core and the offset in it, or the trap (08 R166: alignment, span, pin slots, copy-ring area). -/
def State.localCheck (s : State) (core ctx : Nat) (o : Int) (n : Nat) (store : Bool) (kind : Nat) : (Nat × Nat) ⊕ Trap :=
  let data := lowBits o 64
  if o % n ≠ 0 then .inr ⟨7, 0, data, kind⟩
  else if isMarl core ∨ o < 0 then .inr ⟨8, 0, data, kind⟩
  else
    match s.gangCore core (o.toNat / scratchSize) with
    | none => .inr ⟨8, 0, data, kind⟩
    | some c =>
      let off := o.toNat % scratchSize
      if s.pinForeign c off ctx then .inr ⟨8, 0, data, kind⟩
      else if store ∧ off ≥ ringBase then .inr ⟨6, 8, data, kind⟩
      else .inl (c, off)

/-- A sector fetch into a window (08 R182): the absent words among those of the sector; the values at hand arrive as an answered request, the others
are asked for at the home. touch: a thread waits for it, and takes its failure, under race mode TRAP a race too (03 R75). An L1 miss counts as event 6. -/
def State.fetchSector (s : State) (x : Who) (core slot : Nat) (key va pa : Nat) (absent : List Nat) (touch : Bool) : State × Nat :=
  let base := pa - pa % 32
  let items := absent.map fun j => ({ w := base / 4 + j } : Item)
  let fs := items.map fun i => s.find x i.w 15 .grp
  let s := if items.any fun i => (s.levelWord x 0 i.w 15 0).isVal = false then s.count x.core 6 1 else s
  let s := s.keepFound x items .grp .all va
  let m := { s.baseMsg x .load (va - va % 32) base items with
    client := .window core slot, win := some (key - key % 32), strict := false, raceTrap := touch && s.trapsRaces x.ctx, past := true
    lanes := [{ tid := x.tid, c := va, cmp := touch.toNat, dest := [] }] }
  let r := if fs.all fun f => f ≠ .miss ∧ f ≠ .wait then
      (({ s with nextId := s.nextId + 1 } : State).setMsg s.nextId
        { m with st := .answered, flying := 0, ans := fs.map fun f => match f with | .val v => v | _ => 0 }, s.nextId)
    else s.send m
  (r.1.modWindow core slot fun w => { w with fills := r.2 :: w.fills }, r.2)

/-- True where a word of a window lacks bytes of mask bm that its store has not written and its grant will bring (03 R57). -/
def State.partAt (s : State) (core slot j bm : Nat) : Bool :=
  let w := s.window core slot
  let k := scratchKey core (w.off + 4 * j)
  w.part.contains j && !(s.copies.any fun c => c.2.pend && c.2.win = some k && decide (c.2.mask &&& bm = bm))

/-- The words of a window's sector that are absent, by place in the sector. -/
def Window.absent (x : Window) (off : Nat) : List Nat :=
  let w0 := (off - x.off) / 32 * 8
  (List.range 8).filter fun j => (tget? x.present (w0 + j)).isNone

/-- How a local access stands at its window (08 R182): plain scratchpad, present words, a wait for a sector, or a trap. -/
inductive Local
  | plain
  | ready (slot : Nat)
  | wait (s : State) (slot : Nat)
  | out (s : State) (r : Ret)

/-- The window rules of 08 R182 for an access of n bytes at a place; needs: the access needs the old words (a load, an atomic). A fetch that cannot be
translated is a window fill (20 R353, 10 R242). -/
def State.windowAccess (s : State) (x : Who) (c off n : Nat) (store needs : Bool) (kind : Nat) : Local :=
  match (s.thread x.tid).failed, s.windowAt c off with
  | some f, _ => .out s (.trap ⟨f.1, f.2.1, f.2.2.1, if f.2.2.2 = 5 then 5 else kind⟩)
  | none, none => .plain
  | none, some slot =>
    let w := s.window c slot
    let local' := scratchKey c off
    let at' := (s.core c).wg * scratchSize + off
    if w.st = .unbound then .out s (.trap ⟨10, 1, at', kind⟩)
    else
      let ws := (List.range ((n + 3) / 4)).map fun j => (off - w.off) / 4 + j
      let here := ws.all fun j => (tget? w.present j).isSome
      let partWait := needs && (itemsOf off n 0).any fun i => s.partAt c slot (i.w - w.off / 4) i.bm
      if partWait then .wait s slot
      else if here ∧ ¬ store then .ready slot
      else
        let va := (w.base + (off - w.off)) % 2 ^ 64
        match s.translate x.ctx (tcPath x.core) va { user := x.user, write := store } with
        | (s, .inr cause) => let r := s.xlateFault x.tid va cause (if store then kind else 5); .out r.1 r.2
        | (s, .inl tg) =>
          if store ∧ w.st = .filling then .out s (.trap ⟨10, 2, at', kind⟩)
          else if store ∧ w.st = .draining then .out s (.trap ⟨10, 3, at', kind⟩)
          else
            match tg with
            | .cached pa =>
              if needs ∧ ¬ here then
                let inFlight := w.fills.any fun id => match s.msg id with
                  | some m => m.st ≠ .finished && m.win = some (local' - local' % 32)
                  | none => false
                if inFlight then .wait s slot
                else
                  let s := s.count x.core 9 1
                  let r := s.fetchSector x c slot local' va pa (w.absent off) true
                  .wait (r.1.modWindow c slot fun y => { y with fillLeft := y.fillLeft.erase ((off - w.off) / 32) }) slot
              else .ready slot
            | _ => .out s (.trap ⟨10, 7, at', kind⟩)

/-- Words of a window become present and owned. -/
def Window.take (x : Window) (js : List Nat) (region : Nat) : Window :=
  { x with present := js.foldl (fun p j => tset p j region) x.present, owned := (js ++ x.owned).eraseDups }

/-- The store of an access's words into a window (03 R70, 13 R280): the words become owned by the core and register at their homes; bytes that await their
grant enter the window with it. -/
def State.windowStore (s : State) (x : Who) (c slot off n data : Nat) : State × Ret :=
  let w := s.window c slot
  let va := (w.base + (off - w.off)) % 2 ^ 64
  match s.translate x.ctx (tcPath x.core) va { user := x.user, write := true } with
  | (s, .inl (.cached pa)) =>
    let items := itemsOf pa n data
    let ws := items.map (·.w)
    if s.storeWaits x items then (s, .stay (.blocked .again))
    else
      let region := s.regionOf x.ctx va
      let r := s.storeAt { x with holder := numOf c % 4 } va pa items (some (scratchKey c (off - off % 4))) .all false
      let late : Bool := match r.2.bind r.1.msg with | some m => m.late | none => false
      if late then r.1.afterStore x.tid r.2
      else
        let js := ws.map fun v => (off - w.off) / 4 + (v - pa / 4)
        let s := (r.1.stripFetch c slot ws).modWindow c slot fun y =>
          { y.take js region with
            part := if r.2.isSome ∧ n < 4 then (js ++ y.part).eraseDups else y.part }
        s.afterStore x.tid r.2
  | (s, _) => (s, .next)

/-- The words of an atomic in a window are registered before it is performed where its bytes would have to wait for the grant (03 R75, R77); none where the
level owns them all. -/
def State.windowClaim (s : State) (x : Who) (c slot off n : Nat) : Option (State × Ret) :=
    let w := s.window c slot
    let va := (w.base + (off - w.off)) % 2 ^ 64
    match s.translate x.ctx (tcPath x.core) va { user := x.user, write := true } with
    | (s, .inl (.cached pa)) =>
      let items := (itemsOf pa n 0).map fun i => { i with bm := 0 }
      let own : Bool := items.all fun i => match s.copy x.level i.w with | some y => y.owned | none => false
      if own || !(s.trapsRaces x.ctx || s.mixed x.level items) then none
      else
        let r := s.storeAt { x with holder := numOf c % 4 } va pa items (some (scratchKey c (off - off % 4))) .all false
        some (r.1.afterStore x.tid r.2)
    | _ => none

/-! ### Scratchpad banks (13 R278) -/

/-- The ck that a group's local accesses lose to bank conflicts in one scratchpad: 8-byte words of one bank are served one in each ck, shared by the lanes
that address the same word; an atomic needs a service for each lane. -/
def bankLoss (atomic : Bool) (l : List (Nat × Nat)) : Nat :=
  let l := if atomic then l else l.eraseDups
  (l.map fun a => (l.filter fun b => a.1 = b.1 ∧ a.2 % 48 = b.2 % 48).length).foldl max 1 - 1
/-- Event 5 for a group of local accesses of n bytes when it issues (22 R392). -/
def State.countBanks (s : State) (i : Instr) (o : Ops) (n : Nat) (atomic : Bool) : State :=
  match s.issue with
  | none => s
  | some iss =>
    let l := (iss.threads.filter fun t => (s.thread t).guard o.h && decide ((s.thread t).first = none)).filterMap fun t =>
      match s.localCheck iss.core (s.ctxKey t) (s.localAddr iss t i o) n false 1 with
      | .inl (c, off) => some (c, off / 8)
      | .inr _ => none
    match bankLoss atomic l with
    | 0 => s
    | k => s.count iss.core 5 k

/-- 08 R171: a load from the local space. -/
def execLdl (o : Ops) (f : MemFn) (s : State) : Host.Outcome State Fault Refusal :=
  done (runGroup (.ldl o f) o (fun iss s0 s t =>
    let n := sizeBytes f.size
    match s0.localCheck iss.core (s0.ctxKey t) (s0.localAddr iss t (.ldl o f) o) n false 1 with
    | .inr x => (s, .trap x)
    | .inl (c, off) =>
      let give (s : State) : State × Ret :=
        (s.writeD iss o t (loadOut f.size (s.scratchRead (scratchKey c off) n)) (regsOf f.size) (kWriter s0 iss o t), .next)
      match s.windowAccess (s0.who t) c off n false true 1 with
      | .plain => give s
      | .ready _ => give s
      | .wait s slot => (s, .stay (.blocked (.window c slot)))
      | .out s r => (s, r)) (s.countBanks (.ldl o f) o (sizeBytes f.size) false))

/-- 08 R171: a store to the local space. -/
def execStl (o : Ops) (f : MemFn) (s : State) : Host.Outcome State Fault Refusal :=
  done (runGroup (.stl o f) o (fun iss s0 s t =>
    let th := s0.thread t
    let n := sizeBytes f.size
    let data := s0.srcC iss t (.stl o f) o % 2 ^ (8 * n)
    match s0.localCheck iss.core (s0.ctxKey t) (s0.localAddr iss t (.stl o f) o) n true 2 with
    | .inr x => (s, .trap x)
    | .inl (c, off) =>
      if th.failed = none ∧ th.phase = 1 then (s, if s.live th.token then .stay (.blocked .msgs) else .next)
      else
        match s.windowAccess (s0.who t) c off n true false 2 with
        | .plain => (s.scratchWrite (scratchKey c off) n data, .next)
        | .ready slot => s.windowStore (s0.who t) c slot off n data
        | .wait s slot => (s, .stay (.blocked (.window c slot)))
        | .out s r => (s, r)) (s.countBanks (.stl o f) o (sizeBytes f.size) false))

/-- 08 R179, 03 R73: an atomic in the bank that holds the word. In phase 2 it has been performed and its registration may still be refused: its result
is written once that is over (20 R359). -/
def execAtoms (o : Ops) (f : AtomFn) (s : State) : Host.Outcome State Fault Refusal :=
  done (runGroup (.atoms o f) o (fun iss s0 s t =>
    let th := s0.thread t
    let n := sizeBytes f.size
    match s0.localCheck iss.core (s0.ctxKey t) (s0.localAddr iss t (.atoms o f) o) n true 3 with
    | .inr x => (s, .trap x)
    | .inl (c, off) =>
      let ls := atomLanesOf (.atoms o f) o f.size iss s0 [t]
      if th.failed = none ∧ th.phase ≠ 0 ∧ s.live th.token = true then (s, .stay (.blocked .msgs))
      else if th.failed = none ∧ th.phase = 2 then (s.deliverLanes f.size ls [th.heldC], .next)
      else
        match s.windowAccess (s0.who t) c off n true true 3 with
        | .plain =>
          let r := s.atomRun f.op f.size ls (s.scratchRead (scratchKey c off) n)
          (r.1.scratchWrite (scratchKey c off) n r.2, .next)
        | .ready slot =>
          match s.windowClaim (s0.who t) c slot off n with
          | some r => r
          | none =>
            let old := s.scratchRead (scratchKey c off) n
            let r := atomLanes f.op f.size old ls
            match s.windowStore (s0.who t) c slot off n r.2 with
            | (s, .next) => (s.deliverLanes f.size ls r.1, .next)
            | (s, .stay (.blocked .msgs)) => (s.modThread t fun th => { th with phase := 2, heldC := old }, .stay (.blocked .msgs))
            | y => y
        | .wait s slot => (s, .stay (.blocked (.window c slot)))
        | .out s r => (s, r)) (s.countBanks (.atoms o f) o (sizeBytes f.size) true))

end Sys2Proof.Machine
end

