-- ==== Sys2Proof/Machine/Control.lean ====
section
/-! DEFINITION. The control and loop group (06 R131): branches, calls and exit (09 R217 to R221), loop control and the loop-state record (02 R36,
R42 to R48, 09 R222 to R224), NOP (05 R117). -/

namespace Sys2Proof.Machine

/-! ### Transfers -/

/-- PC[56:2]. -/
def pcField (pc : Nat) : Nat := pc / 4 % 2 ^ 55

/-- 02 R44: a taken branch in the innermost level's range goes out of it, to an address that is not one of [start × 4, end × 4]. -/
def Thread.leavesLoop (th : Thread) (pc target : Nat) : Bool :=
  let l := th.lc (th.depth - 1)
  !th.inHandler && decide (th.depth > 0) && decide (l.start ≤ pcField pc ∧ pcField pc ≤ l.stop) &&
    !decide (target / 2 ^ 57 = pc / 2 ^ 57 ∧ l.start * 4 ≤ target % 2 ^ 57 ∧ target % 2 ^ 57 ≤ l.stop * 4)

/-- A transfer to a target (09 R217): the loop check first, then bits [1:0], then the canonical form. -/
def Thread.transfer (th : Thread) (pc target : Nat) (branch : Bool) : Ret :=
  if branch && th.leavesLoop pc target then .trap ⟨5, 5, target, 0⟩
  else if target % 4 ≠ 0 then .trap ⟨2, 2, 0, 0⟩
  else if !canonical target then .trap ⟨9, 1, target, 4⟩
  else .jump target

/-- The target of BRA and CALL. -/
def State.relTarget (s : State) (iss : Issue) (t : Nat) (o : Ops) : Nat := lowBits (iss.pc + s.offset iss t o.b) 64

/-- 09 R218. -/
def execBra (o : Ops) (s : State) : Host.Outcome State Fault Refusal :=
  .next (runGroup (.bra o) o (fun iss s0 s t => (s, (s0.thread t).transfer iss.pc (s0.relTarget iss t o) true)) s)
/-- 09 R218. -/
def execBrx (o : Ops) (s : State) : Host.Outcome State Fault Refusal :=
  .next (runGroup (.brx o) o (fun iss s0 s t => (s, (s0.thread t).transfer iss.pc (s0.srcA iss t (.brx o) o) true)) s)

/-- CALL and CALLX (09 R219): the link pair holds the PC after the call, the call depth rises, in a handler as elsewhere (log 80). -/
def callBody (i : Instr) (target : Issue → State → Nat → Nat) : Issue → Body := fun iss s0 s t =>
  match (s0.thread t).transfer iss.pc (target iss s0 t) false with
  | .jump pc =>
    let ret := (iss.pc + i.length) % 2 ^ 64
    let s := (s.writeV t 0 ret).writeV t 1 (ret / 2 ^ 32)
    (s.modThread t fun th => { th with callDepth := (th.callDepth + 1) % 2 ^ 16 }, .jump pc)
  | r => (s, r)

/-- 09 R219. -/
def execCall (o : Ops) (s : State) : Host.Outcome State Fault Refusal :=
  .next (runGroup (.call o) o (callBody (.call o) fun iss s t => s.relTarget iss t o) s)
/-- 09 R219. -/
def execCallx (o : Ops) (s : State) : Host.Outcome State Fault Refusal :=
  .next (runGroup (.callx o) o (callBody (.callx o) fun iss s t => s.srcA iss t (.callx o) o) s)
/-- 09 R219, 02 R45; in a handler as elsewhere (log 80). -/
def execRet (o : Ops) (s : State) : Host.Outcome State Fault Refusal :=
  .next (runGroup (.ret o) o (fun iss s0 s t =>
    let th := s0.thread t
    let target := s0.readV t 0 + s0.readV t 1 * 2 ^ 32
    if th.depth > 0 ∧ (th.lc (th.depth - 1)).frame = th.callDepth then (s, .trap ⟨5, 6, target, 0⟩)
    else
      match th.transfer iss.pc target false with
      | .jump pc => (s.modThread t fun th => { th with callDepth := (th.callDepth + 2 ^ 16 - 1) % 2 ^ 16 }, .jump pc)
      | r => (s, r)) s)

/-! ### Exit, yield, nop -/

/-- The key of the instruction cache of a core: its cluster's, or a Marl core's own. -/
def fetchKey (core : Nat) : Nat := if isMarl core then 2 ^ 20 + core else clusterOf core

/-- The tag of a thread's blocks: its context and mode (log 14), and the translation that its launch's code is (11 R260). -/
def State.fetchTag (s : State) (t : Nat) : Nat :=
  s.ctxKey t * 2 + (s.thread t).supervisor.toNat + match (s.squad (squadOf t)).native with | some n => 2 ^ 20 * (n + 1) | none => 0

/-- The bytes of the instruction at a PC as the instruction cache holds them, and their number: 0 where the block is not held. -/
def State.bytesAt (s : State) (core tag pc : Nat) : Nat × Nat :=
  match s.icache.find? fun e => e.1 = fetchKey core ∧ e.2.1 = tag ∧ e.2.2.1 = pc - pc % 32 with
  | some e =>
    let x := e.2.2.2 / 2 ^ (8 * (pc % 32))
    let n := 8 + 4 * (x % 4)
    (x % 2 ^ (8 * n), n)
  | none => (0, 0)

/-- 01 R31's second case: threads of the squad in collective hold take the trap when a thread exits at a PC; each continues at its chain's head (R27). -/
def State.exitTrap (s : State) (q pc : Nat) : State :=
  let held := (s.squadThreads q).filter fun t => (s.thread t).run = .hold
  match held with
  | [] => s
  | t :: _ =>
    let p := (s.thread t).pc
    let b := s.bytesAt (coreOf t) (s.fetchTag t) p
    ((held.map s.chainHead).eraseDups).foldl (fun s' h => s'.takeTrap q
      { code := 4, cause := 2, pc := p, epc := h, data := pc, nbytes := b.2, bytes := b.1, mask := laneMask (held.filter fun u => s.chainHead u = h) }) s

/-- 09 R220: release(GROUP), the status code, the thread ends. -/
def exitBody (o : Ops) : Issue → Body := fun iss s0 s t =>
  if !s0.releaseReady t .grp then (s, .stay (.blocked .again))
  else
    let code := s0.srcB iss t (.exit o) o.b % 256
    let s := (s.unplace t).modCore iss.core fun c => { c with exits := c.exits ++ [code], lastExit := t % 2048 }
    let s := if (s0.thread t).inHandler then s.leaveHandler t else s
    (s.modThread t fun th =>
      { th with run := .exited, depth := 0, rot := 0, callDepth := 0, lc0 := {}, lc1 := {}, lc2 := {}, lc3 := {}, phase := 0, first := none, heldA := 0 }, .gone)

/-- 09 R220, 01 R31. -/
def execExit (o : Ops) (s : State) : Host.Outcome State Fault Refusal :=
  .next (
    let r := runGroup (.exit o) o (exitBody o) s
    match s.issue with
    | none => r
    | some iss =>
      let gone := iss.threads.filter fun t => (s.thread t).run ≠ .exited && (r.thread t).run = .exited
      if isMarl iss.core then r else ((gone.map squadOf).eraseDups).foldl (fun s q => s.exitTrap q iss.pc) r)

/-- 09 R221: the entry that the threads go to yields for 32 ck. -/
def execYield (o : Ops) (s : State) : Host.Outcome State Fault Refusal :=
  .next (runGroup (.yield o) o (fun iss _ s t =>
    (s.modThread t fun th => { th with yieldUntil := (s.core iss.core).ck + 33 }, .next)) s)

/-- 05 R117. -/
def execNop (o : Ops) (s : State) : Host.Outcome State Fault Refusal :=
  .next (runGroup (.nop o) o (fun _ _ s _ => (s, .next)) s)

/-! ### Loop control -/

/-- 02 R36: what LPBEG does for one thread at pc, with the end PC it names and the count n. TREC4 of a nesting fault is that end PC (log 28). -/
def Thread.lpbeg (th : Thread) (budget : Nat) (f : LpbegFn) (pcNext target n : Nat) : Thread × Ret :=
  let start := pcField pcNext
  let stop := pcField target
  let outer := th.lc (th.depth - 1)
  let s := f.stages.toNat
  if th.inHandler then (th, .trap ⟨1, 10, 0, 0⟩)
  else if th.depth = 4 then (th, .trap ⟨5, 1, target, 0⟩)
  else if f.rotate && decide (budget < 256) then (th, .trap ⟨1, 11, 0, 0⟩)
  else if th.depth > 0 ∧ outer.frame = th.callDepth ∧ ¬ (outer.start ≤ start ∧ stop < outer.stop) then (th, .trap ⟨5, 1, target, 0⟩)
  else if stop < start then (th, .trap ⟨5, 1, target, 0⟩)
  else if n = 0 then (th, .jump (exitPc stop f.len.toNat))
  else
    let th := th.setLc th.depth
      { start := start, stop := stop, len := f.len.toNat, count := n + max s 1 - 1, feed := n, stages := s, rotate := f.rotate
        frame := th.callDepth }
    let p := if s ≥ 1 then BitVec.ofNat 16 (th.preds.toNat % 2 ^ 8 + 2 ^ 8) else th.preds
    ({ th with depth := th.depth + 1, preds := p }, .jump pcNext)

/-- 09 R222. -/
def execLpbeg (o : Ops) (f : LpbegFn) (s : State) : Host.Outcome State Fault Refusal :=
  .next (runGroup (.lpbeg o f) o (fun iss s0 s t =>
    let r := (s0.thread t).lpbeg (s0.squad (squadOf t)).budget f ((iss.pc + (Instr.lpbeg o f).length) % 2 ^ 64) (s0.relTarget iss t o)
      (s0.srcA iss t (.lpbeg o f) o)
    (s.setThread t r.1, r.2)) s)

/-- 02 R42: LPBRK for one thread. TREC4 of a nesting fault is the innermost level's end PC (log 28). -/
def Thread.lpbrk (th : Thread) (d : Nat) : Thread × Ret :=
  if th.inHandler then (th, .trap ⟨1, 10, 0, 0⟩)
  else if d > th.depth then (th, .trap ⟨5, 4, if th.depth = 0 then 0 else (th.lc (th.depth - 1)).stop * 4, 0⟩)
  else
    let l := th.lc (th.depth - d)
    ({ th with depth := th.depth - d }, .jump (exitPc l.stop l.len))

/-- 09 R223. -/
def execLpbrk (o : Ops) (dm1 : BitVec 2) (s : State) : Host.Outcome State Fault Refusal :=
  .next (runGroup (.lpbrk o dm1) o (fun _ s0 s t =>
    let r := (s0.thread t).lpbrk (dm1.toNat + 1)
    (s.setThread t r.1, r.2)) s)

/-! ### The loop-state record (02 R48) -/

def Lc.word (l : Lc) : Nat :=
  l.start + l.stop * 2 ^ 64 + l.len * 2 ^ 119 + l.count * 2 ^ 128 + l.stages * 2 ^ 168 + l.rotate.toNat * 2 ^ 172 + l.frame * 2 ^ 174 +
    l.feed * 2 ^ 192
def Lc.ofWord (x : Nat) : Lc :=
  { start := bits x 54 0, stop := bits x 118 64, len := bits x 120 119, count := bits x 167 128, feed := bits x 223 192
    stages := bits x 171 168, rotate := x.testBit 172, frame := bits x 189 174 }

def Thread.loopHeader (th : Thread) : Nat := th.callDepth * 2 ^ 16 + th.rot * 2 ^ 8 + th.depth
/-- The 136 bytes, sets at or above the depth as zero. -/
def Thread.loopRecord (th : Thread) : Nat :=
  (List.range 4).foldl (fun r i => r + (if i < th.depth then (th.lc i).word else 0) * 2 ^ (64 + 256 * i)) th.loopHeader

/-- The header's checks; a set's checks; a set's reserved bits. -/
def headerOk (x : Nat) : Bool := bits x 63 32 = 0 && bits x 15 14 = 0 && bits x 7 3 = 0 && decide (bits x 2 0 ≤ 4)
def Lc.ok (l : Lc) : Bool := decide (l.stages ≤ 8) && l.len ≠ 3 && l.count ≠ 0
def setClear (x : Nat) : Bool := bits x 63 55 = 0 && bits x 127 121 = 0 && !x.testBit 173 && bits x 191 190 = 0 && bits x 255 224 = 0
def recordOk (x : Nat) : Bool :=
  headerOk x && (List.range 4).all fun i =>
    let w := x / 2 ^ (64 + 256 * i) % 2 ^ 256
    setClear w && (decide (bits x 2 0 ≤ i) || (Lc.ofWord w).ok)

def Thread.setHeader (th : Thread) (x : Nat) : Thread := { th with depth := bits x 2 0, rot := bits x 13 8, callDepth := bits x 31 16 }
def Thread.setRecord (th : Thread) (x : Nat) : Thread :=
  (List.range 4).foldl (fun th i => th.setLc i (Lc.ofWord (x / 2 ^ (64 + 256 * i) % 2 ^ 256))) (th.setHeader x)

/-- The first translation fault among the seventeen accesses from an address. -/
def State.recordFault (s : State) (x : Who) (va : Nat) (write : Bool) : Option (Nat × Nat) :=
  (List.range 17).findSome? fun k =>
    match (s.translate x.ctx (tcPath x.core) ((va + 8 * k) % 2 ^ 64) { user := x.user, write := write }).2 with
    | .inr c => some ((va + 8 * k) % 2 ^ 64, c)
    | .inl _ => none

/-- The thread waits within the sequence: the next access is number k, what it has read so far is acc. -/
def State.recordWait (s : State) (t k acc phase : Nat) : State := s.modThread t fun th => { th with heldA := k, heldB := acc, phase := phase }

/-- The stores of LPSAVE from number k on, in ascending address order; fuel: the stores left. -/
def State.saveRecord (s : State) (x : Who) (va data k : Nat) : Nat → State × Ret
  | 0 => if (s.thread x.tid).pending.any fun id => s.live id && (match s.msg id with | some m => m.attr ≠ 0 | none => false) then
      (s.recordWait x.tid k 0 5, .stay (.blocked .again)) else (s, .next)
  | n + 1 =>
    let a := (va + 8 * k) % 2 ^ 64
    match s.translate x.ctx (tcPath x.core) a { user := x.user, write := true } with
    | (s, .inr c) => (s.modThread x.tid fun th => { th with phase := 0 }).xlateFault x.tid a c 2
    | (s, .inl tg) =>
      let wait : Bool := match tg with
        | .cached pa => s.storeWaits x (itemsOf pa 8 0)
        | _ => s.uncachedPending x.tid
      if wait then (s.recordWait x.tid k 0 5, .stay (.blocked .again))
      else
        match s.storeTo x tg a 8 (data / 2 ^ (64 * k) % 2 ^ 64) .all false with
        | (s, .next) => s.saveRecord x va data (k + 1) n
        | (s, r) => (s.modThread x.tid fun th => { th with heldA := k + 1 }, r)

/-- The loads of LPREST from number k on; acc: what has been read. -/
def State.loadRecord (s : State) (x : Who) (va k acc : Nat) : Nat → State × Ret
  | 0 =>
    if recordOk acc then (s.modThread x.tid fun th => th.setRecord acc, .jump 0) else (s, .trap ⟨1, 10, 0, 0⟩)
  | n + 1 =>
    let a := (va + 8 * k) % 2 ^ 64
    match s.translate x.ctx (tcPath x.core) a { user := x.user } with
    | (s, .inr c) => (s.modThread x.tid fun th => { th with phase := 0 }).xlateFault x.tid a c 1
    | (s, .inl tg) =>
      let wait : Bool := match tg with
        | .cached pa => s.overlaps x.tid ((itemsOf pa 8 0).map (·.w))
        | _ => s.uncachedPending x.tid
      if wait then (s.recordWait x.tid k acc 5, .stay (.blocked .again))
      else
        match s.loadAt x tg a 8 .grp .all with
        | (s, .inl v) => s.loadRecord x va (k + 1) (acc + v * 2 ^ (64 * k)) n
        | (s, .inr none) => (s.recordWait x.tid k acc 5, .stay (.blocked .again))
        | (s, .inr (some m)) =>
          let r := s.send { m with size := .n64 }
          let w := r.1.waitMsg x.tid r.2
          (w.1.modThread x.tid fun th => { th with heldA := k, heldB := acc }, w.2)

/-- The checks that LPSAVE and LPREST share (09 R224, 08 R166), then their accesses from where they stand. -/
def recordBody (i : Instr) (o : Ops) (write : Bool) (run : State → Who → Nat → State × Ret) : Issue → Body := fun iss s0 s t =>
  let th := s0.thread t
  let va := s0.globalAddr iss t i o
  let x := s0.who t
  match th.failed with
  | some f => (s, .trap ⟨f.1, f.2.1, f.2.2.1, f.2.2.2⟩)
  | none =>
    if th.phase = 1 ∧ s.live th.token then (s, .stay (.blocked .msgs))
    else if th.phase ≠ 0 then run s x va
    else if va % 8 ≠ 0 then (s, .trap ⟨7, 0, va, if write then 2 else 1⟩)
    else
      match s.recordFault x va write with
      | some f => s.xlateFault t f.1 f.2 (if write then 2 else 1)
      | none => run (s.recordWait t 0 0 0) x va

/-- 09 R224: seventeen 8-byte stores. -/
def execLpsave (o : Ops) (s : State) : Host.Outcome State Fault Refusal :=
  done (runGroup (.lpsave o) o (recordBody (.lpsave o) o true fun s x va =>
    let th := s.thread x.tid
    s.saveRecord x va th.loopRecord th.heldA (17 - th.heldA)) s)

/-- 09 R224: seventeen 8-byte loads, then the record is checked and installed; the next instruction is the one after it. -/
def execLprest (o : Ops) (s : State) : Host.Outcome State Fault Refusal :=
  done (runGroup (.lprest o) o (fun iss s0 s t =>
    let r := recordBody (.lprest o) o false (fun s x va =>
      let th := s.thread x.tid
      let k := if th.phase = 1 then th.heldA + 1 else th.heldA
      let acc := if th.phase = 1 then th.heldB + th.heldC * 2 ^ (64 * th.heldA) else th.heldB
      s.loadRecord x va k acc (17 - k)) iss s0 s t
    match r.2 with
    | .jump _ => (r.1, .jump ((iss.pc + (Instr.lprest o).length) % 2 ^ 64))
    | _ => r) s)

end Sys2Proof.Machine
end

