-- ==== Sys2Proof/Machine/Home.lean ====
section
/-! DEFINITION. What homes do by themselves: coherent reads, writes of engines and devices (03 R59, R60, R81), physical writes of the launch logic, and
the named tasks of a die's task scheduler (19 R332). -/

namespace Sys2Proof.Machine

/-! ### Grants (03 R56, R57, R61, 20 R361) -/

/-- Where the bytes of a late store of a word go with the grant: into its window, whatever state its slot has come to since the store was accepted (08 R182, R184), or to
the L1. -/
def State.lateWin (s : State) (m : Msg) (w : Nat) : Option Nat :=
  match m.win with
  | some k =>
    let key := k + 4 * w - 4 * (m.pa / 4)
    match s.windowAt (key / 2 ^ 21) (key % 2 ^ 21) with
    | some i => let st := (s.window (key / 2 ^ 21) i).st; if st ≠ .unbound then some key else none
    | none => none
  | none => none

/-- One word of a registration m granted at the requester's levels, with the word's value v: the L2 records the cluster, the mirror takes the word, the
requester's own bytes stand, bytes that waited for the grant are written now. -/
def State.grantItem (s : State) (m : Msg) (w : Nat) (v : Word) : State :=
  let i := (m.items.find? fun i => i.w = w).getD { w := w, bm := 0 }
  let die := agentDie m.agent
  let s :=
    if m.agent % 1024 < 8 then
      let s := match s.copy (l2Level die) w with
        | some c => if c.owned ∧ c.holder < 8 ∧ c.holder ≠ m.level % 8 then s.dropAt (l1Level (die * 8 + c.holder)) w else s
        | none => s
      (s.roomBy State.giveUpHigh (l2Level die) w).setCopy (l2Level die) w { val := v, owned := true, holder := m.level % 8, region := m.region }
    else s
  let s := s.setMirror m.agent w (mergeWord i.bm i.val v)
  let put (s : State) (old : Word) (c : Copy) (win : Option Nat) : State :=
    let x := mergeWord i.bm i.val old
    let s := (if win.isSome then s else s.makeRoom m.level w).setCopy m.level w { c with val := x, owned := true, pend := false, holder := m.holder, pol := m.policy, win := win }
    match win with
    | some k => (s.scratchWrite k 4 x.toNat).modWindowWord k fun j y => y.take [j] m.region
    | none => s
  match s.copy m.level w with
  | some c =>
    if c.pend then
      let x := mergeWord c.mask (s.copyVal c) v
      let s := s.setCopy m.level w { c with pend := false, owned := true, mask := 15, val := if c.win.isSome then c.val else x }
      match c.win with
      | some k => (s.scratchWrite k 4 x.toNat).modWindowWord k fun j y => { y with part := y.part.erase j }
      | none => s
    else if c.owned then
      if m.late then let y := s.moveCopy m.holder c (s.lateWin m w); put y.1 (y.1.copyVal y.2) y.2 y.2.win else s
    else put s v { region := m.region } (s.lateWin m w)
  | none => put s v { region := m.region } (s.lateWin m w)

/-- What follows the grant of a word: the levels that the policy of its store excludes give it up (05 R115). -/
def State.afterGrant (s : State) (m : Msg) (w : Nat) : State :=
  match s.copy m.level w with
  | some c => if c.owned ∧ c.win = none then s.expel m.level m.agent w c.pol else s
  | none => s

/-- True of a word that the requester's level owns; the words of its own on which a mixed store counts that it has lost since. -/
def State.ownsItem (s : State) (m : Msg) (i : Item) : Bool := match s.copy m.level i.w with | some c => c.owned | none => false
def State.lostHeld (s : State) (m : Msg) : List Item := m.held.filter fun i => !s.ownsItem m i
/-- The bytes of a mixed store at a word that its level owned. -/
def State.putHeld (m : Msg) (s : State) (i : Item) : State :=
  match s.copy m.level i.w with
  | some c =>
    let z := s.moveCopy m.holder c (s.lateWin m i.w)
    (z.1.setCopy m.level i.w z.2).putCopy m.level i.w z.2 i.bm i.val
  | none => s
/-- A late store of a thread through a global address: windows keep no older copy (08 R165). -/
def State.staleAfter (s : State) (m : Msg) : State :=
  match m.client, m.win with
  | .thread t, none => if m.late then s.staleWindows (coreOf t) m.va m.pa (m.items.length + m.held.length) else s
  | _, _ => s

/-- A registration m ends with its words granted, values vs. Bytes at words that its level owned are written in the same step; where one of these words has been lost since,
no byte is written, and the lost words are asked for (03 R56, R77). -/
def State.granted (s : State) (id : Nat) (m : Msg) (vs : List (Nat × Word)) : State :=
  let lost := s.lostHeld m
  let y := if lost = [] then m else { m with items := m.items.map fun i => { i with bm := 0 } }
  let s := vs.foldl (fun s v => s.grantItem y v.1 v.2) s
  if lost = [] then ((m.held.foldl (State.putHeld m) s).staleAfter m).finishMsg id
  else
    let r := (s.finishMsg id).send { m with
      st := .flying, items := lost, held := m.items ++ m.held.filter (s.ownsItem m), past := decide (m.agent % 1024 ≥ 8)
      dst := if m.agent % 1024 < 8 then m.agent else m.dst }
    { r.1 with threads := r.1.threads.map fun th => (th.1, th.2.follow id r.2) }

/-- A grant message reaches its requester. A word that the home revoked meanwhile goes home and stays as a valid copy. -/
def State.applyGrant (s : State) (id : Nat) : State :=
  match s.msg id with
  | none => s
  | some g =>
    match s.msg g.orig with
    | none => s.ack id
    | some m =>
      let vs := g.items.map fun i => (i.w, (s.agentData g.agent i.w).getD i.val)
      let s := vs.foldl (fun s y =>
        match s.ownerOf y.1 with
        | some e => if e.agent = g.agent then s else s.keepAgent g.agent y.1 (s.wordVal y.1)
        | none =>
          let x := (s.agentData g.agent y.1).getD y.2
          ((s.keepAgent g.agent y.1 x).setHomeWord y.1 x).dropMirror g.agent y.1) ((s.ack id).granted g.orig m vs)
      g.items.foldl (fun s i => s.afterGrant m i.w) s

/-- A grant of a word that is on its way arrives before the home acts on the word for a device. -/
def State.settleWord (s : State) (w : Nat) : State :=
  match s.msgs.find? fun m => m.2.kind = .grant ∧ m.2.st ≠ .finished ∧ m.2.st ≠ .answered ∧ (m.2.items.any fun i => i.w = w) with
  | some m => s.applyGrant m.1
  | none => s

/-- True while a grant of a word to its owner is on its way. -/
def State.granting (s : State) (w : Nat) : Bool :=
  s.msgs.any fun m => m.2.kind = .grant && m.2.st ≠ .finished && m.2.st ≠ .answered && m.2.items.any fun i => i.w = w

/-- Words of a line whose bits stand in a mask. -/
def lineWords (line mask : Nat) : List Nat := ((List.range 16).filter fun j => mask.testBit j).map (line * 16 + ·)

/-- A full LLC slice gives up room for a line that is to be registered: valid copies of remote words first, then a registered line, the lowest address first
(00 R3, 03 R59, log 89): what is given up, if anything must be. -/
inductive LlcRoom
  | enough
  | copies (ws : List Nat)
  | line (l : Nat)
def State.llcRoom (s : State) (w : Nat) : LlcRoom :=
  let level := llcLevel (w / 2 ^ 44)
  if (s.entries w).isEmpty = false ∨ s.occupied level w + 16 ≤ 12 * 2 ^ 20 then .enough
  else
    match (s.copies.filter fun c => c.1 / 2 ^ 50 = level && sharesRoom level w (c.1 % 2 ^ 50)).take 16 with
    | [] => match s.ownedLines (w / 2 ^ 44) w with | l :: _ => .line l | [] => .enough
    | cs => .copies (cs.map fun c => c.1 % 2 ^ 50)

/-- Room for an entry of agent a in a word's line, made in one step for an engine's write: in the LLC slice, and with four entries in use by the revocation of the
oldest (03 R59). -/
def State.roomInLine (s : State) (w a : Nat) : State :=
  let give (s : State) (line mask : Nat) : State := (lineWords line mask).foldl (fun s v => (s.settleWord v).revokeWord v) s
  match s.entries w with
  | [] =>
    match s.llcRoom w with
    | .enough => s
    | .copies ws => ws.foldl (fun s v => s.dropAt (llcLevel (w / 2 ^ 44)) v) s
    | .line l => give s l (2 ^ 16 - 1)
  | e :: r => if (e :: r).length ≥ 4 ∧ ((e :: r).any fun x => x.agent = a) = false then give s (w / 16) e.mask else s

/-- A registration of an agent passes through its package's LLC, which drops its copy of a word homed elsewhere (03 R64). -/
def State.passLlc (s : State) (a w : Nat) : State := if w / 2 ^ 44 ≠ a / 1024 then s.dropAt (llcLevel (a / 1024)) w else s

/-! ### Races (03 R75, 20 R360) -/

/-- The thread that a request acts for: a window sector's fetch for the one that touched the sector, or started the fill. -/
def Msg.tid (m : Msg) : Option Nat :=
  match m.client with
  | .thread t => some t
  | .window _ _ => m.lanes.head?.map (·.tid)
  | _ => none
/-- The context that a race counts against (03 R75): of a fired operation, the one that posted it. -/
def State.raceCtx (s : State) (m : Msg) : Nat :=
  match m.client with
  | .aster die n => die / 8 * 64 + (tget s.slots (die * 8192 + n) {}).ctx
  | _ => m.ctx

/-- A race record's 16 words stored for the requesting agent (20 R360): a thread's as a store of its die or core, an engine's at the home with its registration. -/
def State.raceStore (s : State) (m : Msg) (va : Nat) (tg : Target) (rec' : Nat) : State :=
  let val (i : Nat) : Word := BitVec.ofNat 32 (rec' / 2 ^ (32 * i))
  match tg with
  | .cached pa =>
    let items := (List.range 16).map fun i => ({ w := pa / 4 + i, val := val i } : Item)
    match m.tid with
    | some t =>
      match s.storeBy (s.who t) va pa items none .all false false false false with
      | (s, some id) => s.modThread t fun th => { th with pending := id :: th.pending }
      | (s, none) => s
    | none => items.foldl (fun s i =>
        let s := (s.settleWord i.w).revokeWord i.w
        if m.agent % 1024 < 104 then s.setHomeWord i.w i.val else (((s.roomInLine i.w m.agent).setHomeWord i.w i.val).register i.w m.agent).passLlc m.agent i.w) s
  | .never pa => (List.range 16).foldl (fun s i => s.setHomeWord (pa / 4 + i) (val i)) s
  | .pinCore core off => s.scratchWrite (scratchKey core (off - off % 4)) 64 rec'
  | .pinDie die pa => (List.range 16).foldl (fun s i => s.setPinWord die (pa / 4 + i) 15 (val i)) s

/-- A detected race (03 R75, 20 R360): the requesting context's counter rises, saturating; under REPORT and TRAP a record is stored at racebuf, its
place taken from the count before it rises. rec: the record's 512 bits for a count, without clock, context and mode. -/
def State.race (s : State) (m : Msg) (w kind : Nat) (e : OwnerEntry) : State :=
  let ctx := s.raceCtx m
  let c := s.ctx ctx
  let p := ctx / 64
  let s := match m.tid with | some t => s.count (coreOf t) 14 1 | none => s
  let s' := s.modCtx ctx fun c => { c with racecnt := min (c.racecnt + 1) (2 ^ 64 - 1) }
  if c.raceMode = 0 ∨ c.racecap = 0 then s'
  else
    let tid := m.tid
    let bm := ((m.items.find? fun i => i.w = w).map (·.bm)).getD 15
    let coreid : Nat := match tid with
      | some t =>
        let n := numOf (coreOf t)
        if isMarl (coreOf t) then 2 ^ 31 + (n - 256) / 48 * 2 ^ 7 + (n - 256) % 48
        else n + n / 4 * 2 ^ 8 + n / 32 * 2 ^ 14 + s.pkgNum (pkgOf (coreOf t)) * 2 ^ 17
      | none => 0
    let lane := (tid.map laneOf).getD 0
    let slot := (tid.map fun t => squadOf t % 32).getD 0
    let rec' := s.clock p * 2 ^ 448 + (s.pkgNum (w / 2 ^ 44) * 2 ^ 46 + 4 * w % 2 ^ 46) * 2 ^ 384 + m.va * 2 ^ 320 + m.pc * 2 ^ 256 + s.agentNum m.agent * 2 ^ 240 + s.agentNum e.agent * 2 ^ 224 +
      e.relcount * 2 ^ 208 + kind * 2 ^ 200 + bm * 2 ^ 196 + ctx % 64 * 2 ^ 164 + coreid * 2 ^ 128 + lane * 2 ^ 122 + slot * 2 ^ 117
    let va := (c.racebuf + 64 * (c.racecnt % c.racecap)) % 2 ^ 64
    match s'.translate ctx [] va { user := true, write := true } with
    | (s', .inl tg) => s'.raceStore m va tg rec'
    | (s', _) => s'

/-! ### Words at their homes -/

/-- One word of a translated target as a load that uses no non-owned copy reads it. -/
def State.targetWord (s : State) (tg : Target) (i : Nat) : Word :=
  match tg with
  | .cached pa => s.wordVal (pa / 4 + i)
  | .never pa => if inRam pa then s.homeWord (pa / 4 + i) else BitVec.ofNat 32 (Config.freeDevice s.freeCount).toNat
  | .pinCore core off => BitVec.ofNat 32 (s.scratchRead (scratchKey core (off - off % 4 + 4 * i)) 4)
  | .pinDie die pa => s.pinWord die (pa / 4 + i)

/-- A word that its home writes itself (03 R59, R60): an owner is revoked, with its verdict where the write carries one; the word is left unowned. -/
def State.homeStore (s : State) (m : Msg) (verdict : Bool) (tg : Target) (i bm : Nat) (v : Word) : State :=
  match tg with
  | .cached pa =>
    let w := pa / 4 + i
    let s := s.settleWord w
    let s := match s.ownerOf w with
      | some e => if verdict && s.races e then s.race m w 1 e else s
      | none => s
    let s := s.revokeWord w
    s.setHomeWord w (mergeWord bm v (s.homeWord w))
  | .never pa => s.setHomeWord (pa / 4 + i) (mergeWord bm v (s.homeWord (pa / 4 + i)))
  | .pinCore core off =>
    let k := scratchKey core (off - off % 4 + 4 * i)
    s.scratchWrite k 4 (mergeWord bm v (BitVec.ofNat 32 (s.scratchRead k 4))).toNat
  | .pinDie die pa => s.setPinWord die (pa / 4 + i) bm v

/-- n bytes at a physical address written by the device, owners revoked without a verdict. -/
def State.homeByte (s : State) (pa : Nat) (b : Nat) : State :=
  let s := (s.settleWord (pa / 4)).revokeWord (pa / 4)
  if inRam pa then { s with mem := memSet s.mem pa (BitVec.ofNat 8 b) } else if placed pa then s else { s with hole := true }
def State.homePut (s : State) (pa : Nat) : Nat → Nat → State
  | 0, _ => s
  | n + 1, v => (s.homeByte pa v).homePut (pa + 1) n (v / 256)
/-- A record whose byte i is f i. -/
def State.homeFill (s : State) (pa n : Nat) (f : Nat → Nat) : State := (List.range n).foldl (fun s i => s.homeByte (pa + i) (f i)) s

/-- The home memory, the copies and owner entries of a word rest while a grant, a forward or a revocation of it is on its way to its owner. -/
def State.wordMoving (s : State) (w : Nat) : Bool :=
  s.msgs.any fun m => m.2.st ≠ .finished && (m.2.kind = .grant || m.2.kind = .fwd || m.2.kind = .rev || m.2.kind = .inv) &&
    m.2.items.any fun i => i.w = w

/-- A number's n low bytes read at a physical address. -/
def State.physRead (s : State) (pa n : Nat) : Nat := s.cohRead pa n

/-- n bytes of a virtual range for a device that never parks: the value, or the cause of 20 R355. -/
def State.virtRead (s : State) (ctx : Nat) (path : List Nat) (user : Bool) (va : Nat) : Nat → State × (Nat ⊕ Nat)
  | 0 => (s, .inl 0)
  | n + 1 =>
    match s.translate ctx path (va % 2 ^ 64) { user := user } with
    | (s, .inr c) => (s, .inr c)
    | (s, .inl tg) =>
      let s := s.pinMeet tg 0
      let b := (s.targetWord tg 0).toNat / 2 ^ (8 * (va % 4)) % 256
      match s.virtRead ctx path user (va + 1) n with
      | (s, .inl x) => (s, .inl (b + 256 * x))
      | r => r

/-! ### Named tasks (19 R332, 10 R240) -/

def State.task (s : State) (die n : Nat) : Task := tget s.tasks (die * 4096 + n) {}
def State.setTask (s : State) (die n : Nat) (x : Task) : State := { s with tasks := tset s.tasks (die * 4096 + n) x }
/-- The misuse count of a die's task scheduler: 64 bits, saturating (22 R388). -/
def State.misused (s : State) (die : Nat) : State := { s with misuse := tset s.misuse die (min (tget s.misuse die 0 + 1) (2 ^ 64 - 1)) }
/-- A task's launch record is submitted to its die. -/
def State.submitTask (s : State) (die n : Nat) : State :=
  let s := s.setTask die n { s.task die n with st := .ready }
  { s with submitted := tset s.submitted die (tget s.submitted die [] ++ [n]) }

/-- TREADY, or a fired TASK operation. -/
def State.taskReady (s : State) (die n : Nat) : State :=
  if (s.task die n).st = .armed then s.submitTask die n else s.misused die
/-- TDEC, or the completion of a copy with dep set. -/
def State.taskDec (s : State) (die n : Nat) : State :=
  let x := s.task die n
  if x.count = 0 then s.misused die
  else
    let s := s.setTask die n { x with count := x.count - 1 }
    if x.st = .armed ∧ x.count = 1 then s.submitTask die n else s

/-! ### Updates that arrive in one ck (10 R236, 15 R290, 19 R332) -/

/-- True of an update of a named task. -/
def Arrive.isTask : Arrive → Bool
  | .ready => true
  | .dec => true
  | _ => false
/-- The order of the updates that one die's unit takes: by ck, and in one ck by counter or task, by class, by place in the class. -/
def Arrival.before (a b : Arrival) : Bool :=
  let f (x : Arrival) : List Nat := [x.ck, x.die, x.act.isTask.toNat, x.num, x.cls, x.key]
  decide (f a < f b)
def insertArrival (a : Arrival) : List Arrival → List Arrival
  | [] => [a]
  | x :: r => if a.before x then a :: x :: r else x :: insertArrival a r
/-- An update arrives; it is applied, with the others of its ck, when the ck ends. -/
def State.arrives (s : State) (a : Arrival) : State := { s with arrivals := insertArrival a s.arrivals }
/-- A thread's class and place among the updates of a ck (10 R236): Loam threads by core and lane, then Marl threads. -/
def State.arrivalOf (s : State) (die num t : Nat) (act : Arrive) : Arrival :=
  { ck := (s.core (coreOf t)).ck, die := die, num := num, cls := (isMarl (coreOf t)).toNat, key := coreOf t * 64 + laneOf t, act := act }

/-! ### Grants of a context (19 R322) -/

/-- The grant entry of a context for a die. -/
def State.grant (s : State) (ctx die : Nat) : Nat := ((s.ctx ctx).grants[die % 8]?).getD 0
/-- True of a number in the range that starts at first x 64 and holds count x 64. -/
def inGrant (first count n : Nat) : Bool := decide (first * 64 ≤ n ∧ n < (first + count) * 64)
def State.hasCounter (s : State) (ctx die n : Nat) : Bool := let g := s.grant ctx die; inGrant (bits g 5 0) (bits g 12 6) n
def State.hasSlot (s : State) (ctx die n : Nat) : Bool := let g := s.grant ctx die; inGrant (bits g 19 13) (bits g 27 20) n
def State.hasTask (s : State) (ctx die n : Nat) : Bool := let g := s.grant ctx die; inGrant (bits g 33 28) (bits g 40 34) n

/-! ### Gangs of a context -/

def State.launch (s : State) (l : Nat) : Option Launch := tget? s.launches l
def State.gang (s : State) (g : Nat) : Option Gang := tget? s.gangs g
def State.setGang (s : State) (g : Nat) (x : Gang) : State := { s with gangs := tset s.gangs g x }
def State.setLaunch (s : State) (l : Nat) (x : Launch) : State := { s with launches := tset s.launches l x }
/-- The context key of a gang. -/
def State.gangCtx (s : State) (x : Gang) : Nat := match s.launch x.launch with | some l => l.pkg * 64 + l.ctx | none => 0
/-- 10 R238: suspended or halted gangs, and none dispatched, on the package of the key. -/
def State.ctxSuspended (s : State) (ctx : Nat) : Bool :=
  (s.gangs.any fun g => s.gangCtx g.2 = ctx && (g.2.st = .suspended || g.2.st = .halted)) &&
  !(s.gangs.any fun g => s.gangCtx g.2 = ctx && (g.2.st = .running || g.2.st = .stopping))

end Sys2Proof.Machine
end

