-- ==== Sys2Proof/Machine/HostReg.lean ====
section
/-! DEFINITION. The registers of the host control link: fault ring (20 R354, R356), remote frame filter (20 R358), timeouts (21 R374), doorbells (19 R324),
power and temperature (22 R383, R387), line reset and health counters (22 R388), PKGNUM (21 R395), storage ports (22 R390), and what a write of each does. -/

namespace Sys2Proof.Machine

/-! ### Stopping a gang (19 R338) -/

/-- Issue stops on a core; open chains are abandoned (01 R27). -/
def State.stopCore (s : State) (k : Nat) : State :=
  ((s.breakSlot k 0).breakSlot k 1).modCore k fun c => { c with stop := true }

/-- A gang goes to its quiesce point. -/
def State.stopGang (s : State) (g : Nat) (f : Gang → Gang) : State :=
  match s.gang g with
  | some x =>
    let s := s.setGang g (f { x with st := .stopping })
    { x.cores.foldl State.stopCore s with picks := s.picks.filter fun p => !x.cores.contains p.core }
  | none => s

def State.pkg (s : State) (p : Nat) : Pkg := tget s.pkgs p {}
def State.modPkg (s : State) (p : Nat) (f : Pkg → Pkg) : State := { s with pkgs := tset s.pkgs p (f (s.pkg p)) }

/-- The Loam clock of a package in MHz (22 R384), and a time in ns in its ck. -/
def State.mhz (s : State) (p : Nat) : Nat := if s.hreg p 0x2404 % 4 = 1 then 100 * bits (s.hreg p 0x2400) 12 8 else 3000
def State.ckOf (s : State) (p ns : Nat) : Nat := ns * s.mhz p / 1000

/-- True where the launch logic takes commands: booted, no hold, no fatal error (20 R365, 21 R380, 22 R385). -/
def State.takes (s : State) (p : Nat) : Bool :=
  s.hreg p 0x2300 = 1 && !s.held p && !(s.hreg p 0x2404).testBit 2 && !s.fatal p && !(s.pkg p).off

/-! ### Health counters (22 R388) -/

def healthOff (socket i : Nat) : Nat := 0x10000 + 0x1000 * socket + 8 * i
/-- A counter kept by the links: up by n, saturating at 64 bits. -/
def State.health (s : State) (p socket i n : Nat) : State :=
  s.setHreg p (healthOff socket i) (min (s.hreg p (healthOff socket i) + n) (2 ^ 64 - 1))

/-- A field [h:l] of a counter up by one, saturating. -/
def bumpField (x h l : Nat) : Nat := if bits x h l = 2 ^ (h + 1 - l) - 1 then x else x + 2 ^ l


/-- The health counter of a line. -/
def lineHealth (plane k : Nat) : Nat := healthOff (18 + plane / 4) (64 + 64 * (plane % 4) + k)
/-- What the parts count by themselves, for the counters of R388 that sum it. A counter that has been set stands 2^64 less its register above it. -/
def State.healthBase (s : State) (p socket i : Nat) : Option Nat :=
  let die := p * 8 + socket
  let cores := (List.range 32).map fun j => coreKey p (32 * socket + j)
  if socket ≥ 8 then none
  else if i = 4 then some ((cores.map fun c => (s.core c).mat.corrected).sum)
  else if i = 5 then some ((cores.map fun c => (s.core c).mat.uncorrectable).sum)
  else if i = 6 then some ((cores.map fun c => (tget s.fmterr c 0).toNat).sum)
  else if i = 7 then some ((cores.map fun c => (tget s.sclerr c 0).toNat).sum)
  else if i = 8 then some (tget s.asterErr die 0)
  else if i = 9 then some (tget s.misuse die 0)
  else if 16 ≤ i ∧ i < 24 then some (tget s.nonfinite (p * 64 + 8 * socket + (i - 16)) 0)
  else if 24 ≤ i ∧ i < 32 then some (tget s.tilthErrors (p * 64 + 8 * socket + (i - 24)) 0)
  else none

/-- A counter read in one step. -/
def State.healthRead (s : State) (p socket i : Nat) : Nat :=
  let r := s.hreg p (healthOff socket i)
  match s.healthBase p socket i with
  | some b => min (if r = 0 then b else b + r - 2 ^ 64) (2 ^ 64 - 1)
  | none =>
    if socket ≥ 18 ∧ 64 ≤ i ∧ i < 320 then
      let plane := (socket - 18) * 4 + (i - 64) / 64
      let k := (i - 64) % 64
      let x := s.line p plane k
      r % 2 ^ 32 + (if x.phase = .service && s.lineLit p k then 2 ^ 32 else 0) + (if x.phase = .heldOut then 2 ^ 33 else 0)
    else r
/-- A counter set to the value written. -/
def State.healthWrite (s : State) (p socket i v : Nat) : State :=
  match s.healthBase p socket i with
  | some b => s.setHreg p (healthOff socket i) (v + 2 ^ 64 - min b (2 ^ 64 - 1))
  | none => s.setHreg p (healthOff socket i) v

/-! ### The fault ring (20 R354, R356) -/

/-- The entries of the fault ring; 0 while it is not enabled. -/
def State.ringSize (s : State) (p : Nat) : Nat :=
  let c := s.hreg p 0x2008
  if c.testBit 4 ∧ 4 ≤ c % 16 ∧ c % 16 ≤ 14 then 2 ^ (c % 16) else 0

/-- The 256 bits of a fault record. -/
def ParkedFault.record (f : ParkedFault) (id : Nat) : Nat :=
  f.va * 2 ^ 192 + f.pc * 2 ^ 128 + id * 2 ^ 96 + f.source * 2 ^ 64 + f.squad * 2 ^ 43 + f.kind * 2 ^ 40 + f.cause * 2 ^ 32 + f.ctx % 64

/-- The record of the first fault without one is written where the ring is enabled and has room. -/
def State.faultRecord (s : State) (p : Nat) : State :=
  match s.faults.find? fun f => f.ctx / 64 = p ∧ f.id = none with
  | none => s
  | some f =>
    let n := s.ringSize p
    let tail := s.hreg p 0x200C
    if n = 0 ∨ (tail + 2 ^ 32 - s.hreg p 0x2010) % 2 ^ 32 ≥ n then s
    else
      let s := s.homePut (p * 2 ^ 46 + s.hreg p 0x2000 % 2 ^ 46 + 32 * (tail % n)) 32 (ParkedFault.record f tail)
      let s := s.setHreg p 0x200C ((tail + 1) % 2 ^ 32)
      { s with faults := s.faults.map fun g => if g.num = f.num then { g with id := some tail } else g }

/-- The outstanding record of an id. -/
def State.faultOf (s : State) (p id : Nat) : Option ParkedFault := s.faults.find? fun f => f.ctx / 64 = p ∧ f.id = some id
/-- The threads that are still parked on a record. -/
def State.parkedOn (s : State) (f : ParkedFault) : List (Nat × Nat × Nat × Nat) := f.threads.filter fun x => (s.thread x.1).run = .parked f.num
def State.endFault (s : State) (f : ParkedFault) : State := { s with faults := s.faults.filter fun g => g.num ≠ f.num }

/-- RETRY: the page's entries leave the caches on the threads' paths, and the threads execute their accesses again. -/
def State.retryFault (s : State) (f : ParkedFault) : State :=
  let s := (s.parkedOn f).foldl (fun s x =>
    let s := (tcPath (coreOf x.1)).foldl (fun s id =>
      { s with tcs := tset s.tcs id ((tget s.tcs id []).filter fun e =>
          !(e.ctx = f.ctx && decide (f.page * 2 ^ 16 % 2 ^ 57 / 2 ^ e.log = e.base / 2 ^ e.log))) }) s
    s.modThread x.1 fun th => { th with run := .ready }) s
  s.endFault f

/-- DELIVER: every thread takes trap code 9 with the record's cause. -/
def State.deliverFault (s : State) (f : ParkedFault) : State :=
  let ts := s.parkedOn f
  let s := s.endFault f
  ((ts.map fun x => (squadOf x.1, x.2.2.2)).eraseDups).foldl (fun s k =>
    match ts.filter fun x => squadOf x.1 = k.1 ∧ x.2.2.2 = k.2 with
    | [] => s
    | x :: r =>
      let b := s.bytesAt (coreOf x.1) (s.fetchTag x.1) k.2
      s.takeTrap k.1 { code := 9, cause := f.cause, pc := k.2, epc := (s.thread x.1).pc, data := x.2.1, kind := x.2.2.1
                       nbytes := b.2, bytes := b.1, mask := laneMask ((x :: r).map (·.1)) }) s

/-- A write of FRDONE: a PACKAGE-scope release of the host link agent; a record that is not outstanding is left. -/
def State.frdone (s : State) (p id : Nat) (deliver : Bool) : State :=
  let s := s.bumpRelease (hostAgent p)
  match s.faultOf p id with
  | none => s
  | some f => if deliver then s.deliverFault f else s.retryFault f

/-! ### Doorbells (19 R324) -/

/-- QTBASE's 32 bytes of a queue. -/
def State.queueDesc (s : State) (p j : Nat) : Nat := p * 2 ^ 46 + (s.hreg p 0x2800 + 32 * j) % 2 ^ 46
/-- A doorbell: a PACKAGE-scope release of the host link agent; the value goes to the tail field. -/
def State.doorbell (s : State) (p j v : Nat) : State :=
  (s.bumpRelease (hostAgent p)).homePut (s.queueDesc p j + 24) 4 v

/-! ### Line reset, PKGNUM, power -/

/-- FLRST (22 R388): a held-out line returns to training. -/
def State.lineReset (s : State) (p v : Nat) : State :=
  let plane := bits v 2 0
  let k := bits v 8 3
  let x := s.line p plane k
  if v.testBit 31 ∧ bits v 30 9 = 0 ∧ k ≠ 0 ∧ x.phase = .heldOut then
    s.setLine p plane k { x with phase := .training, ordered := true, fails := [] }
  else s

/-- PKGNUM (21 R395): no effect after the fabric has trained. -/
def State.setPkgNum (s : State) (p v : Nat) : State := if s.hreg p 0x2300 = 1 then s else s.setHreg p 0x211C (v % 64)

/-- The refusal code of a write of PWRCMD (22 R383); 0 for none. -/
def State.powerRefusal (s : State) (p v : Nat) : Nat :=
  let stat := s.hreg p 0x2404
  let target := v % 4
  if stat.testBit 2 then 1
  else if bits v 31 13 ≠ 0 ∨ bits v 7 2 ≠ 0 ∨ (target = 1 ∧ ¬ (10 ≤ bits v 12 8 ∧ bits v 12 8 ≤ 29)) then 2
  else if (s.pkg p).dumping.isSome ∧ (s.hreg p 0x2120).testBit 0 = false ∧ target ≠ 3 then 3
  else if target = stat % 4 ∧ (target ≠ 1 ∨ bits v 12 8 = bits (s.hreg p 0x2400) 12 8) then 4
  else 0

/-- The running gangs of a package. -/
def State.runningOn (s : State) (p : Nat) : List Nat :=
  (s.gangs.filter fun g => g.2.st = .running ∧ s.gangCtx g.2 / 64 = p).map (·.1)

/-- A write of PWRCMD: refused with its code, or the transition starts; for D-HOLD every dispatched gang goes to its quiesce point (22 R385). In D-OFF nothing takes it:
only the host's power controller leaves that state (22 R384). -/
def State.powerCommand (s : State) (p v : Nat) : State :=
  let stat := s.hreg p 0x2404
  if (s.pkg p).off then s
  else
  match s.powerRefusal p v with
  | 0 =>
    let s := (s.setHreg p 0x2400 (v % 4 + (if v % 4 = 1 then bits v 12 8 else bits (s.hreg p 0x2400) 12 8) * 2 ^ 8)).setHreg p 0x2404 (stat % 4 + 4)
    if v % 4 = 2 then (s.runningOn p).foldl (fun s g => s.stopGang g fun x => x) s else s
  | c => s.setHreg p 0x2404 (stat % 8 + c * 2 ^ 8)

/-- THALARM (22 R387): a 1 written to bit 31 clears it. -/
def State.clearAlarm (s : State) (p v : Nat) : State :=
  if v.testBit 31 then s.setHreg p 0x2560 (s.hreg p 0x2560 % 2 ^ 31) else s

/-! ### All registers -/

/-- Where a register starts and its bytes, for an offset in it. -/
def hostSpan (off : Nat) : Option (Nat × Nat) :=
  if 0x2000 ≤ off ∧ off < 0x2008 then some (0x2000, 8)
  else if 0x2018 ≤ off ∧ off < 0x2020 then some (0x2018, 8)
  else if 0x2108 ≤ off ∧ off < 0x2118 then some (0x2108, 16)
  else if 0x2600 ≤ off ∧ off < 0x2640 then some (off / 8 * 8, 8)
  else if 0x2800 ≤ off ∧ off < 0x2808 then some (0x2800, 8)
  else if 0x3000 ≤ off ∧ off < 0x3400 then (if off % 8 < 4 then some (off / 8 * 8, 4) else none)
  else if 0x4000 ≤ off ∧ off < 0x4200 then (if off % 64 < 48 then some (off / 4 * 4, 4) else none)
  else if 0x10000 ≤ off ∧ off < 0x24000 then some (off / 8 * 8, 8)
  else if [0x2008, 0x200C, 0x2010, 0x2100, 0x211C, 0x2120, 0x2200, 0x2204, 0x2208, 0x2300, 0x2400, 0x2404, 0x2550, 0x2554, 0x2560, 0x2570].contains
      (off / 4 * 4) ∨ (0x2500 ≤ off ∧ off < 0x2550) ∨ (0x2118 ≤ off ∧ off < 0x211C) then some (off / 4 * 4, 4)
  else none

/-- Where entry i of the remote frame filter is kept. -/
def frameOff (i : Nat) : Nat := 0x80000 + i % 4096

/-- A register's value; a write-only register, or none, gives a free value (20 R354, log 17). -/
def State.hostRead (s : State) (p off : Nat) : Nat :=
  if off = 0x2108 then s.hreg p (frameOff (s.hreg p 0x2100))
  else if off = 0x2018 ∨ off = 0x2570 ∨ (0x3000 ≤ off ∧ off < 0x3400) then (Config.freeDevice s.freeCount).toNat
  else if 0x10000 ≤ off ∧ off < 0x24000 then s.healthRead p ((off - 0x10000) / 0x1000) (off % 0x1000 / 8)
  else s.hreg p off

/-- A write of a register from its start. -/
def State.hostWrite (s : State) (p off v : Nat) : State :=
  if off = 0x2018 then (if bits v 63 33 = 0 then s.frdone p (v % 2 ^ 32) (v.testBit 32) else s)
  else if off = 0x200C ∨ off = 0x2120 ∨ off = 0x2300 ∨ off = 0x2404 ∨ (0x2500 ≤ off ∧ off < 0x2558) then s
  else if off = 0x2000 ∨ off = 0x2800 then s.setHreg p off (v % 2 ^ 64)
  else if off = 0x2008 ∨ off = 0x2010 then s.setHreg p off (v % 2 ^ 32)
  else if off = 0x2100 then s.setHreg p off (v % 2 ^ 12)
  else if off = 0x2108 then s.setHreg p (frameOff (s.hreg p 0x2100)) (v % 2 ^ 128)
  else if off = 0x2118 then (if 1 ≤ v ∧ v ≤ 64 then s.setHreg p off v else s)
  else if off = 0x211C then s.setPkgNum p v
  else if off = 0x2200 then (if 500 ≤ v ∧ v ≤ 1000000 then s.setHreg p off v else s)
  else if off = 0x2204 then (if 5000 ≤ v ∧ v ≤ 10000000 then s.setHreg p off v else s)
  else if off = 0x2208 then (if 1 ≤ v ∧ v ≤ 15 then s.setHreg p off v else s)
  else if off = 0x2400 then s.powerCommand p (v % 2 ^ 32)
  else if off = 0x2560 then s.clearAlarm p v
  else if off = 0x2570 then s.lineReset p v
  else if 0x2600 ≤ off ∧ off < 0x2640 then
    (if bits v 63 16 = 0 then s.setHreg p off (s.hreg p off / 2 ^ 7 * 2 ^ 7 % 2 ^ 16 + v % 2 ^ 7) else s)
  else if 0x3000 ≤ off ∧ off < 0x3400 then s.doorbell p ((off - 0x3000) / 8) (v % 2 ^ 32)
  else if 0x4000 ≤ off ∧ off < 0x4200 then s.setHreg p off (v % 2 ^ 16)
  else if 0x10000 ≤ off ∧ off < 0x24000 then s.healthWrite p ((off - 0x10000) / 0x1000) (off % 0x1000 / 8) (v % 2 ^ 64)
  else s

/-- The n bytes at an offset of the register page. -/
def State.hostLoad (s : State) (p off n : Nat) : Nat :=
  match hostSpan off with
  | some (r, _) => s.hostRead p r / 2 ^ (8 * (off - r)) % 2 ^ (8 * n)
  | none => (Config.freeDevice s.freeCount).toNat % 2 ^ (8 * n)
/-- n bytes stored at an offset: a store of a part of a register leaves its other bytes; a part of a write-only register has no effect, nor has a part of THALARM without
its bit 31 (22 R387). -/
def State.hostStore (s : State) (p off n v : Nat) : State :=
  match hostSpan off with
  | some (r, w) =>
    if off = r ∧ n ≥ w then s.hostWrite p r (v % 2 ^ (8 * w))
    else if off + n > r + w ∨ r = 0x2018 ∨ r = 0x2570 ∨ (0x3000 ≤ r ∧ r < 0x3400) then s
    else
      let old := if r = 0x2560 then 0 else s.hostRead p r
      let k := 8 * (off - r)
      s.hostWrite p r (old - bits old (k + 8 * n - 1) k * 2 ^ k + v % 2 ^ (8 * n) * 2 ^ k)
  | none => s

/-- True of a local physical address of the register page, of the storage drives' windows. -/
def inRegPage (pa : Nat) : Bool := let l := pa % 2 ^ 46; decide (0x3F0000000000 ≤ l ∧ l < 0x3F0000010000)
def inDrive (pa : Nat) : Bool := let l := pa % 2 ^ 46; decide (0x3F1000000000 ≤ l ∧ l < 0x3F1800000000)

/-! ### Words of other packages, as a package's own engines reach them (20 R358, R359, 21 R374, R376) -/

/-- The filter entry of a package for a local address; 0 for none. -/
def State.frameEntry (s : State) (p pa : Nat) : Nat :=
  (((List.range 4096).map fun i => s.hreg p (frameOff i)).find? fun e => e.testBit 127 && bits e 29 0 = bits pa 45 16).getD 0

/-- What the filter does with a request from another package to a home here, a die that holds a pinned page's words included: nothing, a negative reply, or the word moved
to another frame. -/
inductive Filtered
  | pass
  | negative
  | forward (pa : Nat)

def State.filter (s : State) (m : Msg) : Filtered :=
  let p := endPkg m.dst
  if endPkg m.src = p ∨ m.attr = 1 ∨ m.attr = 4 ∨ (m.dst < 65536 ∧ m.attr ≠ 2) then .pass
  else
    match m.items with
    | [] => .pass
    | i :: _ =>
      match s.frameEntry p (4 * i.w) with
      | 0 => .pass
      | e =>
        if e.testBit 126 ∨ s.hreg p 0x2118 > 16 ∨ m.rerouted = true then .negative
        else .forward (bits e 65 30 * 2 ^ 16 + 4 * i.w % 2 ^ 16)

/-- True where a package is unreachable from another: no line in service one way or the other, or it does not answer (21 R376, 22 R385). -/
def State.cutOff (s : State) (p q : Nat) : Bool :=
  p ≠ q && (s.held q || (s.linesTo p 0 q ++ s.linesTo p 1 q).isEmpty || (s.linesTo q 0 p ++ s.linesTo q 1 p).isEmpty)

/-- Where a request of an agent for an address ends: the address, that of the frame it is forwarded to, or cause 2 (a negative reply), 3 (no answer). -/
def State.fabricPa (s : State) (agent pa : Nat) : Nat ⊕ Nat :=
  if s.cutOff (agent / 1024) (pa / 2 ^ 46) then .inr 3
  else
    let m : Msg := { kind := .load, src := agent, dst := homeEnd (pa / 4), agent := agent, items := [{ w := pa / 4 }] }
    match s.filter m with
    | .pass => .inl pa
    | .negative => .inr 2
    | .forward q =>
      match s.filter { m with dst := homeEnd (q / 4), items := [{ w := q / 4 }], rerouted := true } with
      | .pass => .inl (q + pa % 4)
      | _ => .inr 2
/-- The same of a translated target. -/
def State.fabricTarget (s : State) (agent : Nat) (tg : Target) : Target ⊕ Nat :=
  let far (q : Nat) : Target ⊕ Nat := if s.cutOff (agent / 1024) q then .inr 3 else .inl tg
  match tg with
  | .cached pa => match s.fabricPa agent pa with | .inl q => .inl (.cached q) | .inr c => .inr c
  | .never pa => match s.fabricPa agent pa with | .inl q => .inl (.never q) | .inr c => .inr c
  | .pinCore core _ => far (pkgOf core)
  | .pinDie die pa =>
    match s.fabricPa agent pa with
    | .inl q => if s.cutOff (agent / 1024) (die / 8) then .inr 3 else .inl (.pinDie (q / 2 ^ 46 * 8 + die % 8) q)
    | .inr c => .inr c

/-- One word of a translated target as a device reads it, a register of the register page too (20 R354). -/
def State.readAt (s : State) (tg : Target) (i : Nat) : Word :=
  match tg with
  | .never pa => if inRegPage pa then BitVec.ofNat 32 (s.hostLoad (pa / 2 ^ 46) (pa % 2 ^ 46 - pa % 4 + 4 * i - 0x3F0000000000) 4) else s.targetWord tg i
  | _ => s.targetWord tg i
/-- The bytes of one word written by a device. -/
def State.writeAt (s : State) (m : Msg) (verdict : Bool) (tg : Target) (i bm : Nat) (v : Word) : State :=
  let store (s : State) (pa : Nat) : State :=
    match (List.range 4).filter fun j => bm.testBit j with
    | [] => s
    | j :: r => s.hostStore (pa / 2 ^ 46) (pa % 2 ^ 46 - pa % 4 + 4 * i + j - 0x3F0000000000) (r.length + 1) (v.toNat / 2 ^ (8 * j))
  match tg with
  | .never pa => if inRegPage pa then store s pa else s.homeStore m verdict tg i bm v
  | _ => s.homeStore m verdict tg i bm v

/-! ### The registers' steps -/

/-- 22 R388. -/
def execRegisterWrite (p off : Nat) (v : BitVec 128) (s : State) : Host.Outcome State Fault Refusal :=
  done (match hostSpan off with
    | some (r, w) => if off = r ∧ ¬ (s.pkg p).off then s.hostWrite p off (v.toNat % 2 ^ (8 * w)) else s
    | none => s)
/-- 19 R324. -/
def execDoorbell (p j : Nat) (tail : BitVec 32) (s : State) : Host.Outcome State Fault Refusal :=
  done (if j < 128 then s.doorbell p j tail.toNat else s)
/-- 22 R388. -/
def execFlrst (p : Nat) (v : BitVec 32) (s : State) : Host.Outcome State Fault Refusal := done (s.lineReset p v.toNat)
/-- 21 R395. -/
def execPkgnum (p : Nat) (v : BitVec 32) (s : State) : Host.Outcome State Fault Refusal := done (s.setPkgNum p v.toNat)
/-- 22 R387. -/
def execThalarm (p : Nat) (v : BitVec 32) (s : State) : Host.Outcome State Fault Refusal := done (s.clearAlarm p v.toNat)
/-- 22 R383: the four commands, each for the value whose [1:0] name its state. -/
def execPwrcmdRun (p : Nat) (v : BitVec 32) (s : State) : Host.Outcome State Fault Refusal := done (if v.toNat % 4 = 0 then s.powerCommand p v.toNat else s)
/-- 22 R383. -/
def execPwrcmdTrim (p : Nat) (v : BitVec 32) (s : State) : Host.Outcome State Fault Refusal := done (if v.toNat % 4 = 1 then s.powerCommand p v.toNat else s)
/-- 22 R383, R385. -/
def execPwrcmdHold (p : Nat) (v : BitVec 32) (s : State) : Host.Outcome State Fault Refusal := done (if v.toNat % 4 = 2 then s.powerCommand p v.toNat else s)
/-- 22 R383. -/
def execPwrcmdOff (p : Nat) (v : BitVec 32) (s : State) : Host.Outcome State Fault Refusal := done (if v.toNat % 4 = 3 then s.powerCommand p v.toNat else s)

/-- 20 R354, R356. -/
def execFaultRecordWrite (p : Nat) (s : State) : Host.Outcome State Fault Refusal := done (s.faultRecord p)
/-- 20 R356: a write of FRDONE with the verdict RETRY. -/
def execFrdoneRetry (p : Nat) (id : BitVec 32) (s : State) : Host.Outcome State Fault Refusal := done (s.frdone p id.toNat false)
/-- 20 R356: a write of FRDONE with the verdict DELIVER. -/
def execFrdoneDeliver (p : Nat) (id : BitVec 32) (s : State) : Host.Outcome State Fault Refusal := done (s.frdone p id.toNat true)

end Sys2Proof.Machine
end

