-- ==== Sys2Proof/Machine/Aster.lean ====
section
/-! DEFINITION. The Aster units: counters, slots, posting, firing (10 R225 to R238, R253, 15 R290 to R297), and TREADY and TDEC (10 R240). -/

namespace Sys2Proof.Machine

/-- The Aster unit of a thread (10 R225). -/
def State.asterOf (s : State) (t : Nat) : Nat :=
  let core := coreOf t
  if isMarl core then pkgOf core * 8 + (s.thread t).astsel else dieOf core

def State.counter (s : State) (die c : Nat) : Nat := tget s.counters (die * 4096 + c) 0
def State.aslot (s : State) (die n : Nat) : AsterSlot := tget s.slots (die * 8192 + n) {}
def State.setAslot (s : State) (die n : Nat) (x : AsterSlot) : State := { s with slots := tset s.slots (die * 8192 + n) x }

/-! ### Firing (10 R231, R232) -/

/-- A slot's place in the posting order: the numbers given since. -/
def State.slotAge (s : State) (die : Nat) (x : AsterSlot) : Nat := (tget s.asterSeq die 0 + 2 ^ 32 - x.seq) % 2 ^ 32
/-- Insertion by age, oldest first. -/
def insertAge (a n : Nat) : List (Nat × Nat) → List (Nat × Nat)
  | [] => [(a, n)]
  | x :: r => if x.1 ≥ a then x :: insertAge a n r else (a, n) :: x :: r
/-- The ARMED slots of a counter in posting order. -/
def State.armedOn (s : State) (die c : Nat) : List Nat :=
  ((s.slots.filter fun x => x.1 / 8192 = die ∧ x.2.st = .armed ∧ x.2.trigger = c).foldl
    (fun l x => insertAge (s.slotAge die x.2) (x.1 % 8192) l) []).map (·.2)

/-- The evaluation of a counter (10 R232): slots fire in posting order until one does not. -/
def State.fireFrom (s : State) (die c : Nat) : List Nat → State
  | [] => s
  | n :: r =>
    let x := s.aslot die n
    if s.counter die c < x.threshold ∨ s.ctxSuspended (die / 8 * 64 + x.ctx) ∨ s.rests (die / 8) then s
    else
      let s := s.setAslot die n { x with st := .fired, started := false, msgs := [], signalled := false, copyEnd := none, failing := 0 }
      { s with startQueue := tset s.startQueue die (tget s.startQueue die [] ++ [n]) }.fireFrom die c r
def State.evalCounter (s : State) (die c : Nat) : State := s.fireFrom die c (s.armedOn die c)

/-- A TCWAIT that a counter's value satisfies ends. -/
def Thread.observe (th : Thread) (die c v : Nat) : Thread :=
  match th.run with
  | .blocked (.counter d n) => if d = die ∧ n = c ∧ th.heldB ≤ v then { th with run := .ready, phase := 3 } else th
  | _ => th

/-- An update of a counter (10 R236): the waits that its value satisfies end, then the counter is evaluated. -/
def State.setCounter (s : State) (die c v : Nat) : State :=
  let v := v % 2 ^ 64
  let s := { s with counters := tset s.counters (die * 4096 + c) v }
  let s : State := { s with threads := s.threads.map fun x => (x.1, x.2.observe die c v) }
  s.evalCounter die c

/-- An update takes effect; a signal that has been applied is acknowledged (10 R234). -/
def State.applyArrival (s : State) (a : Arrival) : State :=
  let s := match a.act with
    | .add v => s.setCounter a.die a.num (s.counter a.die a.num + v)
    | .set v => s.setCounter a.die a.num v
    | .ready => s.taskReady a.die a.num
    | .dec => s.taskDec a.die a.num
  match a.msg with
  | some m => s.ack m
  | none => s
/-- A ck ends: the updates of a package's units that arrived in it or before are applied in their order (10 R236, 15 R290, 19 R332). -/
def State.settleArrivals (s : State) (p ck : Nat) : State :=
  let due (a : Arrival) : Bool := decide (a.die / 8 = p ∧ a.ck ≤ ck)
  (s.arrivals.filter due).foldl State.applyArrival { s with arrivals := s.arrivals.filter fun a => !due a }

/-- Every counter of a package that holds an ARMED slot of a context is evaluated (10 R238). -/
def State.evalCtx (s : State) (ctx : Nat) : State :=
  (s.slots.filter fun x => x.2.st = .armed ∧ x.1 / 8192 / 8 = ctx / 64 ∧ x.2.ctx = ctx % 64).foldl
    (fun s x => s.evalCounter (x.1 / 8192) x.2.trigger) s

/-! ### Counter instructions (10 R235) -/

/-- The counter operand of a thread: checked against the grant of its context. -/
def counterBody (i : Instr) (o : Ops) (f : Issue → State → State → Nat → Nat → Nat → State × Ret) : Issue → Body := fun iss s0 s t =>
  let c := s0.srcA iss t i o
  let die := s0.asterOf t
  if (s0.thread t).phase = 3 then (s, .next)
  else if c > 4095 ∨ ¬ s0.hasCounter (s0.ctxKey t) die c then (s, .trap ⟨6, 12, 0, 0⟩)
  else f iss s0 s t die c

/-- 10 R235. -/
def execTcadd (o : Ops) (sc : Scope) (s : State) : Host.Outcome State Fault Refusal :=
  .next (runGroup (.tcadd o sc) o (counterBody (.tcadd o sc) o fun iss s0 s t die c =>
    if s0.laneWaits iss o t sc then (s, .stay (.blocked .again))
    else ((s.doRelease t sc).arrives (s.arrivalOf die c t (.add (s0.srcB iss t (.tcadd o sc) o.b))), .next)) s)
/-- 10 R235. -/
def execTcrd (o : Ops) (s : State) : Host.Outcome State Fault Refusal :=
  .next (runGroup (.tcrd o) o (counterBody (.tcrd o) o fun iss s0 s t die c =>
    (s.writeD iss o t (s.counter die c) 2 (kWriter s0 iss o t), .next)) s)
/-- 10 R235: the thread waits until an update has produced a value of at least b. -/
def execTcwait (o : Ops) (s : State) : Host.Outcome State Fault Refusal :=
  .next (runGroup (.tcwait o) o (counterBody (.tcwait o) o fun iss s0 s t die c =>
    let b := s0.srcB iss t (.tcwait o) o.b
    if s.counter die c ≥ b then (s, .next)
    else (s.modThread t fun th => { th with heldB := b }, .stay (.blocked (.counter die c)))) s)
/-- 10 R235. -/
def execTcset (o : Ops) (s : State) : Host.Outcome State Fault Refusal :=
  .next (runGroup (.tcset o) o (counterBody (.tcset o) o fun iss s0 s t die c =>
    (s.arrives (s.arrivalOf die c t (.set (s0.srcB iss t (.tcset o) o.b))), .next)) s)

/-! ### Slots: TRIGCAN, TRIGPRB, TRIGPOST -/

/-- The slot operand: checked against the grant. -/
def slotBody (i : Instr) (o : Ops) (f : Issue → State → State → Nat → Nat → Nat → State × Ret) : Issue → Body := fun iss s0 s t =>
  let n := s0.srcA iss t i o
  let die := s0.asterOf t
  if n > 8191 ∨ ¬ s0.hasSlot (s0.ctxKey t) die n then (s, .trap ⟨6, 13, 0, 0⟩) else f iss s0 s t die n

/-- 10 R237. -/
def execTrigcan (o : Ops) (s : State) : Host.Outcome State Fault Refusal :=
  .next (runGroup (.trigcan o) o (slotBody (.trigcan o) o fun _ _ s _ die n =>
    let x := s.aslot die n
    if x.st = .armed then ((s.setAslot die n { x with st := .free }).evalCounter die x.trigger, .next) else (s, .next)) s)

def SlotState.code : SlotState → Nat
  | .free => 0 | .armed => 1 | .fired => 2 | .done => 3 | .failed => 4

/-- 10 R237. -/
def execTrigprb (o : Ops) (s : State) : Host.Outcome State Fault Refusal :=
  .next (runGroup (.trigprb o) o (slotBody (.trigprb o) o fun iss s0 s t die n =>
    let x := s.aslot die n
    (s.writeD iss o t (x.cause * 256 + SlotState.code x.st) 1 (kWriter s0 iss o t), .next)) s)

/-- The element format of RED (10 R229). -/
def redFmt (param : Nat) : Option Fmt :=
  match Fmt.ofCode (bits param 39 36) with
  | some f => if f = .s32 || f = .n32 || f = .s64 || f = .n64 || f = .f32 || f = .f64 then some f else none
  | none => none

/-- The limits of R229: parameter word, src, dst, value, kind and scope (cause 15). p: the issuing package. -/
def State.paramOk (s : State) (p : Nat) (f : TrigFn) (src dst param value : Nat) : Bool :=
  let len := bits param 23 0
  let peer := bits param 63 58
  let own := decide (peer = s.pkgNum p)
  let noDie := bits param 57 55 = 0
  let noSig := bits param 51 40 = 0
  let noFmt := bits param 39 36 = 0
  let clear := bits param 54 52 = 0 && bits param 35 24 = 0
  let far := (own || s.inDomain p peer) && (own || f.scope = .sys) && src % 4 = 0 && dst % 4 = 0 && len % 4 = 0
  clear && match f.kind with
    | .send => far && value = 0 && noDie && noSig && noFmt && decide (len ≥ 4)
    | .fetch => far && value = 0 && noDie && noSig && noFmt && decide (len ≥ 4)
    | .sendsig => far && noFmt
    | .red => far && match redFmt param with
      | some g => len % sizeBytes g = 0 && src % sizeBytes g = 0 && dst % sizeBytes g = 0
      | none => false
    | .copy => own && src % 32 = 0 && dst / 64 = 0 && len = 0 && value = 0 && noDie && noSig && noFmt
    | .task => own && src = 0 && dst = 0 && len = 0 && noSig && noFmt && decide (value < 4096)

/-- The operand checks of TRIGPOST (10 R253) in ascending cause; 0 for none. -/
def State.postCause (s : State) (ctx die : Nat) (f : TrigFn) (n src dst param value : Nat) : Nat :=
  if !s.hasCounter ctx die f.trigger.toNat || (f.cen && !s.hasCounter ctx die f.done.toNat) then 12
  else if n > 8191 || !s.hasSlot ctx die n then 13
  else if (s.aslot die n).st = .armed || (s.aslot die n).st = .fired then 14
  else if !s.paramOk (ctx / 64) f src dst param value then 15
  else if f.kind = .task && !s.hasTask ctx (ctx / 64 * 8 + bits param 57 55) (value % 4096) then 16
  else 0

/-- 10 R228 to R230. -/
def execTrigpost (o : Ops) (f : TrigFn) (s : State) : Host.Outcome State Fault Refusal :=
  .next (runGroup (.trigpost o f) o (fun iss s0 s t =>
    let src := s0.pairAt iss t o.a 0
    let dst := s0.pairAt iss t o.a 2
    let param := s0.pairAt iss t o.a 4
    let value := s0.srcB iss t (.trigpost o f) o.b
    let n := s0.srcC iss t (.trigpost o f) o
    let die := s0.asterOf t
    let ctx := s0.ctxKey t
    let sc : Scope := if isMarl iss.core then .pkg else .die
    match s.postCause ctx die f n src dst param value with
    | 0 =>
      if s0.laneWaits iss o t sc then (s, .stay (.blocked .again))
      else
        let s := s.doRelease t sc
        let seq := tget s.asterSeq die 0
        let reach := if scopeRank f.scope < scopeRank sc then sc else f.scope
        let s := s.setAslot die n
          { reach := reach, src := src, dst := dst, param := param, value := value, threshold := f.threshold.toNat, seq := seq, ctx := ctx % 64
            trigger := f.trigger.toNat, done := f.done.toNat, kind := f.kind, scope := f.scope, cen := f.cen, st := .armed }
        (({ s with asterSeq := tset s.asterSeq die ((seq + 1) % 2 ^ 32) } : State).evalCounter die f.trigger.toNat, .next)
    | c => (s, .trap ⟨6, c, 0, 0⟩)) s)

/-! ### Started operations (10 R233, 15 R291) -/

/-- Operations of a unit in flight. -/
def State.inFlight (s : State) (die : Nat) : Nat := (s.slots.filter fun x => x.1 / 8192 = die ∧ x.2.st = .fired ∧ x.2.started).length

/-- A translated source word of a fired operation, with the race check of a word that is forwarded (03 R81); a word that the die owns is answered there. -/
def State.asterWord (s : State) (die ctx va : Nat) : State × (Word ⊕ Nat) :=
  match s.translate ctx [2 ^ 21 + die] va { user := true } with
  | (s, .inr _) => (s, .inr 1)
  | (s, .inl tg) =>
    let near : Bool := match tg with
      | .cached pa => (match s.ownerOf (pa / 4) with | some e => e.agent = dieAgent die | none => false)
      | _ => false
    let s := s.pinMeet tg 0
    match if near then .inl tg else s.fabricTarget (asterAgent die) tg with
    | .inr c => (s, .inr c)
    | .inl (.cached pa) =>
      let v := s.wordVal (pa / 4)
      match s.ownerOf (pa / 4) with
      | some e =>
        if e.agent ≠ dieAgent die ∧ s.races e then
          (s.race { kind := .load, src := asterAgent die, dst := homeEnd (pa / 4), agent := asterAgent die, items := [{ w := pa / 4 }], ctx := ctx,
                    va := va } (pa / 4) 2 e, .inl v)
        else (s, .inl v)
      | none => (s, .inl v)
    | .inl tg => (s, .inl (s.readAt tg 0))

/-- n words from a virtual address. -/
def State.asterWords (s : State) (die ctx va : Nat) : Nat → State × (List Word ⊕ Nat)
  | 0 => (s, .inl [])
  | n + 1 =>
    match s.asterWord die ctx (va % 2 ^ 64) with
    | (s, .inr c) => (s, .inr c)
    | (s, .inl v) =>
      match s.asterWords die ctx (va + 4) n with
      | (s, .inl vs) => (s, .inl (v :: vs))
      | r => r

/-- True while a grant of one of n source words is on its way to its owner: the operation starts when it has come. -/
def State.asterMoving (s : State) (die ctx va n : Nat) : Bool :=
  (List.range n).any fun i =>
    match (s.translate ctx [2 ^ 21 + die] ((va + 4 * i) % 2 ^ 64) { user := true }).2 with
    | .inl (.cached pa) => s.granting (pa / 4)
    | _ => false
/-- Source words that a started operation reads at once: a FETCH reads at the peer, a TASK nothing. -/
def AsterSlot.reads (x : AsterSlot) : Nat :=
  match x.kind with
  | .task => 0 | .fetch => 0 | .copy => 8
  | _ => bits x.param 23 0 / 4

/-- An operation meets an error: it keeps its first cause, and no more of its requests are sent (10 R234). -/
def State.slotFails (s : State) (die n cause : Nat) : State :=
  let s := s.setAslot die n { s.aslot die n with failing := if (s.aslot die n).failing = 0 then cause else (s.aslot die n).failing }
  { s with msgs := s.msgs.filter fun m => !(m.2.client = .aster die n && m.2.st = .queued) }

/-- Words cut into pieces of at most 64 aligned bytes: (address, words). -/
def pieces (va : Nat) (vs : List Word) : List (Nat × List Word) :=
  (vs.zip (List.range vs.length)).foldr (fun x acc =>
    let a := va + 4 * x.2
    match acc with
    | (b, ws) :: r => if a / 64 = b / 64 then (a, x.1 :: ws) :: r else (a, [x.1]) :: acc
    | [] => [(a, [x.1])]) []

/-- A request of a slot to a package: addresses are virtual there (attr 4). -/
def slotMsg (kind : MsgKind) (die n ctx peer : Nat) (va : Nat) (ws : List Word) : Msg :=
  { kind := kind, src := asterAgent die, dst := asterAgent (peer * 8 + die % 8), agent := asterAgent die, past := true, attr := 4
    client := .aster die n, ctx := peer * 64 + ctx % 64, va := va, strict := true
    items := (ws.zip (List.range ws.length)).map fun x => { w := va % 2 ^ 64 / 4 + x.2, val := x.1 } }

/-- The slot's signal (10 R233): the counter, the addend. -/
def State.sendSignal (s : State) (die n : Nat) : State :=
  let x := s.aslot die n
  let peer := bits x.param 63 58
  let peer := if peer = s.pkgNum (die / 8) then die / 8 else peer
  let m := { slotMsg .signal die n (die / 8 * 64 + x.ctx) peer 0 [] with
    dst := asterAgent (peer * 8 + bits x.param 57 55), pa := bits x.param 51 40, items := [{ w := 0, val := BitVec.ofNat 32 x.value }] }
  let r := s.send m
  r.1.setAslot die n { x with signalled := true, msgs := r.2 :: x.msgs }

/-- The turn of a unit: the least among the pieces that wait (15 R291). -/
def State.unitTurn (s : State) (die : Nat) : Nat :=
  ((s.msgs.filter fun x => x.2.src = asterAgent die ∧ x.2.st = .queued).map (·.2.turn)).foldl (fun r n => match r with | some k => some (min k n) | none => some n) none |>.getD 0

/-- Requests of a started slot: one piece a turn, from the unit's present turn on. -/
def State.slotSend (s : State) (die n : Nat) (ms : List Msg) : State :=
  let now := s.unitTurn die
  (ms.zip (List.range ms.length)).foldl (fun s m =>
    let r := s.send { m.1 with turn := now + m.2 }
    r.1.setAslot die n { r.1.aslot die n with msgs := r.2 :: (r.1.aslot die n).msgs }) s

/-- The copy command at src of a triggered COPY (10 R233): a fault on its bytes is copy cause 1; a cluster of a lost die, cause 4 (R234). -/
def State.startCopy (s : State) (die n ctx : Nat) (x : AsterSlot) : State :=
  let cluster := die / 8 * 64 + x.dst
  if s.lost.contains (cluster / 8) then s.slotFails die n 4
  else
  match s.asterWords die ctx x.src 8 with
  | (s, .inr c) => if c = 1 then s.setAslot die n { s.aslot die n with copyEnd := some 1 } else s.slotFails die n c
  | (s, .inl ws) =>
    let e := joinWords ws
    let ctl := bits e 223 192
    if bits ctl 1 0 ≠ 0 ∨ bits ctl 31 20 ≠ 0 ∨ ctl.testBit 7 ∨ bits ctl 3 2 = 3 ∨ (bits ctl 5 4 = 3 ∧ bits ctl 3 2 ≠ 0) then
      s.setAslot die n { s.aslot die n with copyEnd := some 5 }
    else
      { s with
        nextId := s.nextId + 1
        copyCmds := tset s.copyCmds s.nextId
          { aster := some (die, n), cluster := cluster, scope := x.reach, core := coreKey (die / 8) (x.dst * 4), ctx := ctx, src := bits e 63 0
            dst := bits e 127 64, layout := bits e 191 128, ctl := ctl } }

/-- A fired operation starts (10 R233): its reads are performed, its writes are sent. One of a lost unit fails (15 R295). -/
def State.startSlot (s : State) (die n : Nat) : State :=
  let x := s.aslot die n
  let ctx := die / 8 * 64 + x.ctx
  let len := bits x.param 23 0
  let peer := if bits x.param 63 58 = s.pkgNum (die / 8) then die / 8 else bits x.param 63 58
  let s := s.setAslot die n { x with started := true }
  let fail (s : State) (c : Nat) : State := s.slotFails die n c
  if s.lost.contains die then fail s 4
  else
  match x.kind with
  | .task =>
    let d := die / 8 * 8 + bits x.param 57 55
    if s.lost.contains d then fail s 4 else s.arrives { ck := s.clock (die / 8), die := d, num := x.value % 4096, cls := 0, key := 2 ^ 40 + die * 8192 + n, act := .ready }
  | .copy => s.startCopy die n ctx x
  | .fetch =>
    if !s.inDomain (die / 8) peer then fail s 3
    else s.slotSend die n ((pieces x.src (List.replicate (len / 4) 0)).map fun y => slotMsg .load die n ctx peer y.1 y.2)
  | .red =>
    if !s.inDomain (die / 8) peer then fail s 3
    else
      match s.asterWords die ctx x.src (len / 4) with
      | (s, .inr c) => fail s c
      | (s, .inl vs) =>
        let f := (redFmt x.param).getD .s32
        let k := sizeBytes f / 4
        let s := s.slotSend die n ((List.range (vs.length / k)).map fun j =>
          { slotMsg .remote die n ctx peer (x.dst + 4 * k * j) ((vs.drop (k * j)).take k) with red := true, size := f })
        if vs = [] then s.sendSignal die n else s
  | _ =>
    if !s.inDomain (die / 8) peer then fail s 3
    else
      match s.asterWords die ctx x.src (len / 4) with
      | (s, .inr c) => fail s c
      | (s, .inl vs) =>
        let s := s.slotSend die n ((pieces x.dst vs).map fun y => slotMsg .remote die n ctx peer y.1 y.2)
        if vs = [] ∧ x.kind = .sendsig then s.sendSignal die n else s

/-- 15 R291: the head of the start queue starts, at most two in a ck, at most 256 in flight; one whose source words are on their way between agents waits. -/
def execTrigOpStart (p d : Nat) (s : State) : Host.Outcome State Fault Refusal :=
  let die := p * 8 + d
  done (match tget s.startQueue die [] with
    | [] => s
    | n :: r =>
      let ck := tget s.startCk die (0, 0)
      let started := if ck.1 = s.clock p then ck.2 else 0
      let x := s.aslot die n
      if s.inFlight die ≥ 256 ∨ started ≥ 2 ∨ s.rests p ∨ s.asterMoving die (p * 64 + x.ctx) x.src x.reads = true then s
      else
        ({ s with startQueue := tset s.startQueue die r, startCk := tset s.startCk die (s.clock p, started + 1) } : State).startSlot die n)

/-- True where a started slot's requests have all ended. -/
def State.slotQuiet (s : State) (x : AsterSlot) : Bool := x.msgs.all fun id => !s.live id

/-- 10 R234: a started operation whose work has ended completes; a SENDSIG or RED sends its signal first. -/
def execTrigOpComplete (p d slot : Nat) (s : State) : Host.Outcome State Fault Refusal :=
  let die := p * 8 + d
  let x := s.aslot die slot
  .next (
    if x.st ≠ .fired ∨ ¬ x.started ∨ x.failing ≠ 0 ∨ ¬ s.slotQuiet x then s
    else if (x.kind = .sendsig ∨ x.kind = .red) ∧ ¬ x.signalled then s.sendSignal die slot
    else if x.kind = .copy ∧ x.copyEnd ≠ some 0 then s
    else
      let s := (s.setAslot die slot { x with st := .done, msgs := [] }).bumpRelease (asterAgent die)
      if x.cen then s.arrives { ck := s.clock p, die := die, num := x.done, cls := 2, key := slot, act := .add 1 } else s)

/-- 10 R234: a started operation that met an error fails with its cause: AERRCNT rises, no done raise, no signal. -/
def execTrigOpFail (p d slot cause : Nat) (s : State) : Host.Outcome State Fault Refusal :=
  let die := p * 8 + d
  let x := s.aslot die slot
  let copyCause := if x.kind = .copy then x.copyEnd.getD 0 else 0
  let c := if copyCause ≠ 0 then 5 else x.failing
  .next (
    if x.st ≠ .fired ∨ ¬ x.started ∨ c = 0 ∨ c ≠ cause ∨ ¬ s.slotQuiet x then s
    else
      let s := s.setAslot die slot { x with st := .failed, cause := c, msgs := []
                                            value := if c = 5 then x.value / 8 * 8 + copyCause else x.value }
      { s with asterErr := tset s.asterErr die (min (tget s.asterErr die 0 + 1) (2 ^ 32 - 1)) })

/-! ### TREADY and TDEC (10 R240) -/

/-- The operand of TREADY and TDEC, the release, the update of the named task; cls: its class in its ck (19 R332). -/
def taskBody (i : Instr) (o : Ops) (cls : Nat) (act : Arrive) : Issue → Body := fun iss s0 s t =>
  let b := s0.srcB iss t i o.b
  let ctx := s0.ctxKey t
  let die := ctx / 64 * 8 + bits b 14 12
  if bits b 31 15 ≠ 0 ∨ ¬ s0.hasTask ctx die (b % 4096) then (s, .trap ⟨6, 16, 0, 0⟩)
  else if s0.laneWaits iss o t .pkg then (s, .stay (.blocked .again))
  else ((s.doRelease t .pkg).arrives { ck := (s.core (coreOf t)).ck, die := die, num := b % 4096, cls := cls, key := coreOf t * 64 + laneOf t, act := act }, .next)

/-- 10 R240. -/
def execTready (o : Ops) (s : State) : Host.Outcome State Fault Refusal :=
  .next (runGroup (.tready o) o (taskBody (.tready o) o 0 .ready) s)
/-- 10 R240. -/
def execTdec (o : Ops) (s : State) : Host.Outcome State Fault Refusal :=
  .next (runGroup (.tdec o) o (taskBody (.tdec o) o 1 .dec) s)

end Sys2Proof.Machine
end

