-- ==== Sys2Proof/Machine/Window.lean ====
section
/-! DEFINITION. Scratchpad windows: WMAP, WUNMAP, WFILL, WDRAIN, WSTAT (08 R180 to R186, R397, 13 R283, R284). -/

namespace Sys2Proof.Machine

/-- True where two ranges share a byte. -/
def rangesMeet (a n b m : Nat) : Bool := decide (n ≠ 0 ∧ m ≠ 0 ∧ a < b + m ∧ b < a + n)

/-- The configured queue rings that a core's gang holds, as local ranges (08 R192). -/
def State.queueRings (s : State) (core : Nat) : List (Nat × Nat) :=
  match (s.core core).gang with
  | some g =>
    if tget? s.queueHolder (clusterOf core) = some g then
      (s.queues.filter fun q => q.1 / 64 = clusterOf core ∧ q.2.cap ≠ 0).map fun q => (q.2.base, 4 * q.2.cap)
    else []
  | none => []

/-- WMAP's range checks (08 R181, 13 R285): aligned, in the workgroup's own scratchpad below the copy-ring area, clear of pin slots, other windows'
ranges and their global ranges while bound, and queue rings. -/
def State.wmapOk (s : State) (core slot base off size : Nat) : Bool :=
  let me := (s.core core).wg * scratchSize
  base % 256 = 0 && off % 256 = 0 && decide (me ≤ off) && decide (off - me + size ≤ ringBase) &&
  ((s.pinnedOn core).all fun x => !rangesMeet (off - me) size (x.1 * 2 ^ 16) (2 ^ 16)) &&
  ((s.core core).windows.all fun x => x.1 = slot ||
    (!rangesMeet (off - me) size x.2.off x.2.size && (x.2.st = .unbound || !rangesMeet base size x.2.base x.2.size))) &&
  ((s.queueRings core).all fun q => !rangesMeet off size q.1 q.2)

/-- 08 R181. A mapping of the copy-ring area is an operand fault, checked before the slot's state (08 R166, R167, R194); reserved bits of c come before the slot's
state too (log 90). -/
def execWmap (o : Ops) (s : State) : Host.Outcome State Fault Refusal :=
  .next (runGroup (.wmap o) o (fun iss s0 s t =>
    let c := s0.srcC iss t (.wmap o) o
    let slot := c % 32
    let size := c / 256 * 256
    let off := s0.srcB iss t (.wmap o) o.b
    let base := lowBits (s0.srcA iss t (.wmap o) o + match o.b with | .fldOff _ v => sext v.toNat 48 | _ => 0) 64
    let w := s.window iss.core slot
    if rangesMeet off size ((s.core iss.core).wg * scratchSize + ringBase) (scratchSize - ringBase) then (s, .trap ⟨6, 8, 0, 0⟩)
    else if bits c 7 5 ≠ 0 then (s, .trap ⟨10, 6, 0, 0⟩)
    else if w.st ≠ .unbound then (s, .trap ⟨10, 5, 0, 0⟩)
    else if size = 0 then (s.modWindow iss.core slot fun _ => {}, .next)
    else if s.wmapOk iss.core slot base off size then
      (s.modWindow iss.core slot fun _ =>
        { st := .empty, off := off - (s.core iss.core).wg * scratchSize, size := size, base := base, filler := t }, .next)
    else (s, .trap ⟨10, 6, 0, 0⟩)) s)

/-- The owned words of a window as the cluster's L1 records them: physical word numbers, in whose order a drain goes (log 102). -/
def State.ownedWords (s : State) (core slot : Nat) : List Nat :=
  let w := s.window core slot
  let lo := scratchKey core w.off
  (s.copies.filter fun c => c.1 / 2 ^ 50 = l1Level (clusterOf core) && c.2.owned &&
    (match c.2.win with | some k => decide (lo ≤ k ∧ k < lo + w.size) | none => false)).map fun c => c.1 % 2 ^ 50

/-- Runs of consecutive words within one line (13 R284). -/
def runsOf : List Nat → List (List Nat)
  | [] => []
  | w :: r =>
    match runsOf r with
    | (v :: vs) :: rest => if v = w + 1 ∧ v / 16 = w / 16 then (w :: v :: vs) :: rest else [w] :: (v :: vs) :: rest
    | rest => [w] :: rest

/-- A drain goes on: one write-back for each run of owned words, in ascending order, up to 32 at once (08 R184, 13 R284); a word whose grant is still on its
way follows when it is owned. -/
def State.pumpDrain (s : State) (core slot : Nat) : State :=
  let a := dieAgent (dieOf core)
  let ws := (s.ownedWords core slot).filter fun w => (s.buffered a w).isNone
  ((runsOf ws).take (32 - (s.window core slot).drains.length)).foldl (fun s r =>
    let x := s.writeBack a (r.map fun w => { w := w, val := s.wordVal w }) (.window core slot)
    x.1.modWindow core slot fun y => { y with drains := x.2 :: y.drains }) s

/-- A drain starts (08 R184). -/
def State.startDrain (s : State) (core slot : Nat) : State :=
  let full := decide ((s.window core slot).st = .full)
  (s.modWindow core slot fun x => { x with st := .draining, wasFull := full }).pumpDrain core slot

/-- The next sectors of a fill are requested, up to 32 at once (13 R283); a sector that cannot be translated or is not Cached is left absent
(08 R183). fuel: the sectors still listed. -/
def State.pumpFill (s : State) (core slot : Nat) : Nat → State
  | 0 => s
  | n + 1 =>
    let w := s.window core slot
    match w.fillLeft with
    | [] => s
    | j :: r =>
      if w.fills.length ≥ 32 then s
      else
        let s := s.modWindow core slot fun y => { y with fillLeft := r }
        let off := w.off + 32 * j
        let x := s.who w.filler
        let s := match w.absent off with
          | [] => s
          | ab =>
            match s.translate x.ctx (tcPath core) ((w.base + 32 * j) % 2 ^ 64) { user := x.user } with
            | (s, .inl (.cached pa)) => (s.fetchSector x core slot (scratchKey core off) ((w.base + 32 * j) % 2 ^ 64) pa ab false).1
            | (s, _) => s
        s.pumpFill core slot n

/-- The window instructions read their slot from A: above 31 a window fault (08 R180). -/
def windowBody (i : Instr) (o : Ops) (f : Issue → State → Nat → Nat → State × Ret) : Issue → Body := fun iss s0 s t =>
  let slot := s0.srcA iss t i o
  if slot > 31 then (s, .trap ⟨10, 4, 0, 0⟩) else f iss s slot t

/-- 08 R183. -/
def execWfill (o : Ops) (s : State) : Host.Outcome State Fault Refusal :=
  done (runGroup (.wfill o) o (windowBody (.wfill o) o fun iss s slot t =>
    let w := s.window iss.core slot
    match w.st with
    | .empty =>
      let n := w.size / 32
      ((s.modWindow iss.core slot fun y => { y with st := .filling, filler := t, fillLeft := List.range n }).pumpFill iss.core slot n, .next)
    | .filling => (s, .next)
    | .full => (s, .next)
    | _ => (s, .trap ⟨10, 5, 0, 0⟩)) s)

/-- 08 R184. -/
def execWdrain (o : Ops) (s : State) : Host.Outcome State Fault Refusal :=
  done (runGroup (.wdrain o) o (windowBody (.wdrain o) o fun iss s slot _ =>
    match (s.window iss.core slot).st with
    | .empty => (s.startDrain iss.core slot, .next)
    | .full => (s.startDrain iss.core slot, .next)
    | .draining => (s, .next)
    | _ => (s, .trap ⟨10, 5, 0, 0⟩)) s)

/-- Every word of a window dropped: the L1's copies that lie in it too. -/
def State.emptyWindow (s : State) (core slot : Nat) (st : WinState) : State :=
  let w := s.window core slot
  let lo := scratchKey core w.off
  let s := { s with copies := s.copies.filter fun c => !(c.1 / 2 ^ 50 = l1Level (clusterOf core) &&
    (match c.2.win with | some k => decide (lo ≤ k ∧ k < lo + w.size) | none => false)) }
  s.modWindow core slot fun y => { y with st := st, present := [], owned := [], part := [], fillLeft := [], fills := [], drains := [] }

/-- True while a store into the window has not been granted yet, one whose bytes await the grant too (03 R75, R77). -/
def State.windowPending (s : State) (core slot : Nat) : Bool :=
  let w := s.window core slot
  let lo := scratchKey core w.off
  let inside (k : Option Nat) : Bool := match k with | some k => decide (lo ≤ k ∧ k < lo + w.size) | none => false
  (s.copies.any fun c => c.1 / 2 ^ 50 = l1Level (clusterOf core) && c.2.pend && inside c.2.win) ||
  s.msgs.any fun m => m.2.kind = .reg && m.2.late && m.2.st ≠ .finished && inside m.2.win

/-- 08 R185: the fill ends, the owned words are drained, every word is dropped, the slot is UNBOUND and keeps its range. -/
def execWunmap (o : Ops) (s : State) : Host.Outcome State Fault Refusal :=
  done (runGroup (.wunmap o) o (windowBody (.wunmap o) o fun iss s slot t =>
    let w := s.window iss.core slot
    let begun := decide ((s.thread t).phase = 1)
    match w.st with
    | .unbound => if begun then (s, .next) else (s, .trap ⟨10, 5, 0, 0⟩)
    | .filling => (s.modThread t fun th => { th with phase := 1 }, .stay (.blocked .again))
    | .draining => (s.modThread t fun th => { th with phase := 1 }, .stay (.blocked .again))
    | _ =>
      if s.windowPending iss.core slot then (s.modThread t fun th => { th with phase := 1 }, .stay (.blocked .again))
      else if s.ownedWords iss.core slot = [] then (s.emptyWindow iss.core slot .unbound, .next)
      else ((s.startDrain iss.core slot).modThread t fun th => { th with phase := 1 }, .stay (.blocked .again))) s)

/-- The code of a window state (08 R186). -/
def WinState.code : WinState → Nat
  | .unbound => 0 | .empty => 1 | .filling => 2 | .full => 3 | .draining => 4

/-- 08 R186. -/
def execWstat (o : Ops) (s : State) : Host.Outcome State Fault Refusal :=
  .next (runGroup (.wstat o) o (fun iss s0 s t => windowBody (.wstat o) o (fun iss s slot t =>
    let w := s.window iss.core slot
    (s.writeD iss o t (w.owned.length * 256 + WinState.code w.st) 1 (kWriter s0 iss o t), .next)) iss s0 s t) s)

end Sys2Proof.Machine
end

