-- ==== Sys2Proof/Machine/Sync.lean ====
section
/-! DEFINITION. Named barriers (08 R187 to R191) and queues (08 R192, R193). -/

namespace Sys2Proof.Machine

/-! ### Named barriers -/

/-- The core that holds a level's barriers (08 R187). -/
def State.barCore (s : State) (core : Nat) : Level → Nat
  | .gang => (s.gangCore core 0).getD core
  | _ => core
def State.bar (s : State) (c b : Nat) : Barrier := tget (s.core c).bars b {}
def State.setBar (s : State) (c b : Nat) (x : Barrier) : State := s.modCore c fun y => { y with bars := tset y.bars b x }

/-- The operand faults of a barrier number, and of an uninitialised barrier (08 R187). -/
def State.barTrap (s : State) (c b : Nat) (used : Bool) : Option Trap :=
  if b > 511 then some ⟨6, 2, 0, 0⟩ else if used && (s.bar c b).expected = 0 then some ⟨6, 3, 0, 0⟩ else none

/-- 08 R188: the expected count set, or the operand fault; a bad count comes before arrivals pending (log 101). -/
def State.barInit (s : State) (c b a : Nat) : State ⊕ Trap :=
  match s.barTrap c b false with
  | some x => .inr x
  | none =>
    if a = 0 ∨ a > 65535 then .inr ⟨6, 3, 0, 0⟩
    else if (s.bar c b).arrivals ≠ 0 then .inr ⟨6, 4, 0, 0⟩
    else .inl (s.setBar c b { s.bar c b with expected := a })

/-- 08 R189: one arrival; the token is the phase before it. -/
def State.arrive (s : State) (c b : Nat) : State × Nat :=
  let x := s.bar c b
  if x.arrivals + 1 = x.expected then (s.setBar c b { x with phase := (x.phase + 1) % 2 ^ 16, arrivals := 0 }, x.phase)
  else (s.setBar c b { x with arrivals := x.arrivals + 1 }, x.phase)

/-- 08 R190: the phases that a token is behind. -/
def State.behind (s : State) (c b token : Nat) : Nat := ((s.bar c b).phase + 2 ^ 16 - token % 2 ^ 16) % 2 ^ 16

/-- A wait for a token (08 R190): blocked while the phase stands; then its acquire waits for the thread's earlier loads (03 R67), d kept (phase 4); then the stale flag;
g: the thread's guard. -/
def State.barWait (s : State) (iss : Issue) (o : Ops) (t c b token : Nat) (g : Bool) : State × Ret :=
  let d := if (s.thread t).phase = 4 then (s.thread t).heldC else s.behind c b token
  if d = 0 then (s, .stay (.blocked (.barrier c b (token % 2 ^ 16))))
  else if s.loadsPending t then (s.modThread t fun th => { th with phase := 4, heldC := d }, .stay (.blocked .again))
  else if g then (s.writeD iss o t (if d ≥ 2 then 1 else 0) 1 true, .next) else (s, .next)

/-- Under .wg and .gang: one arrival or wait for each guard-true thread. release(GROUP) and acquire(GROUP, mask 0) come first (08 R189, R190). -/
def barBody (i : Instr) (o : Ops) (lvl : Level) (used : Bool) (act : Nat → Nat → Issue → Body) : Issue → Body := fun iss s0 s t =>
  let c := s0.barCore iss.core lvl
  let b := s0.srcB iss t i o.b
  match s0.barTrap c b used with
  | some x => (s, .trap x)
  | none => if used && s0.laneWaits iss o t .grp then (s, .stay (.blocked .again)) else act c b iss s0 s t

/-- Under .sq: what a thread does before it arrives, and after the squad has gathered (phase 2: it waits for a token; 4: for its loads). -/
def barEarly (o : Ops) (used : Bool) (iss : Issue) (s0 s : State) (t : Nat) : Option (State × Ret) :=
  let th := s0.thread t
  if th.phase = 2 ∨ th.phase = 4 then some (s.barWait iss o t iss.core th.heldB th.token th.heldGuard)
  else if used && !s0.releaseReady t .grp then some (s, .stay (.blocked .again)) else none

/-- Under .sq: the barrier number of the lowest guard-true lane, and the collective's effect with it (08 R187). -/
def barAct (used : Bool) (act : Nat → Nat → Issue → List Nat → State → State × Gathered) (iss : Issue) (ts : List Nat) (s : State) :
    State × Gathered :=
  match s.leader ts with
  | none => (s, .done)
  | some l =>
    let b := (s.thread l).heldB
    match s.barTrap iss.core b used with
    | some x => (s, .trap x)
    | none => act l b iss ts s

/-- The squad waits for a token (08 R190): every thread is blocked at the barrier, or all go on with the stale flag, once the loads of each have returned. -/
def State.barSquadWait (s : State) (iss : Issue) (o : Ops) (b token : Nat) (ts : List Nat) : State × Gathered :=
  let d := s.behind iss.core b token
  if d = 0 then
    (ts.foldl (fun s t => s.modThread t fun th =>
      { th with run := .blocked (.barrier iss.core b (token % 2 ^ 16)), phase := 2, token := token, heldB := b }) s, .keep)
  else if ts.any s.loadsPending then
    (ts.foldl (fun s t => s.modThread t fun th => { th with run := .blocked .again, phase := 4, token := token, heldB := b, heldC := d }) s, .keep)
  else (writeAll iss o 1 (fun _ => if d ≥ 2 then 1 else 0) ts s, .done)

/-- 08 R188. -/
def execBarinit (o : Ops) (lvl : Level) (s : State) : Host.Outcome State Fault Refusal :=
  .next (match lvl with
    | .sq => runGathered (.barinit o lvl) o (barEarly o false) (barAct false fun l b iss _ s =>
        match s.barInit iss.core b (s.thread l).heldA with
        | .inl s => (s, .done)
        | .inr x => (s, .trap x)) s
    | _ => runGroup (.barinit o lvl) o (barBody (.barinit o lvl) o lvl false fun c b iss s0 s t =>
        match s.barInit c b (s0.srcA iss t (.barinit o lvl) o) with
        | .inl s => (s, .next)
        | .inr x => (s, .trap x)) s)

/-- 08 R189. -/
def execBararv (o : Ops) (lvl : Level) (s : State) : Host.Outcome State Fault Refusal :=
  .next (match lvl with
    | .sq => runGathered (.bararv o lvl) o (barEarly o true) (barAct true fun _ b iss ts s =>
        let r := s.arrive iss.core b
        (writeAll iss o 1 (fun _ => r.2) ts r.1, .done)) s
    | _ => runGroup (.bararv o lvl) o (barBody (.bararv o lvl) o lvl true fun c b iss s0 s t =>
        let r := s.arrive c b
        (r.1.writeD iss o t r.2 1 (kWriter s0 iss o t), .next)) s)

/-- 08 R190. -/
def execBarwait (o : Ops) (lvl : Level) (s : State) : Host.Outcome State Fault Refusal :=
  .next (match lvl with
    | .sq => runGathered (.barwait o lvl) o (barEarly o true) (barAct true fun l b iss ts s =>
        s.barSquadWait iss o b (s.thread l).heldA ts) s
    | _ => runGroup (.barwait o lvl) o (barBody (.barwait o lvl) o lvl true fun c b iss s0 s t =>
        s.barWait iss o t c b (s0.srcA iss t (.barwait o lvl) o) true) s)

/-- 08 R191: the arrival is made once, its token kept while the thread waits (08 R168). -/
def execBarsync (o : Ops) (lvl : Level) (s : State) : Host.Outcome State Fault Refusal :=
  .next (match lvl with
    | .sq => runGathered (.barsync o lvl) o (barEarly o true) (barAct true fun _ b iss ts s =>
        let r := s.arrive iss.core b
        r.1.barSquadWait iss o b r.2 ts) s
    | _ => runGroup (.barsync o lvl) o (fun iss s0 s t =>
        let th := s0.thread t
        if th.phase = 2 ∨ th.phase = 4 then s.barWait iss o t (s0.barCore iss.core lvl) th.heldB th.token true
        else
          barBody (.barsync o lvl) o lvl true (fun c b iss _ s t =>
            let r := s.arrive c b
            let s := r.1.modThread t fun th => { th with phase := 2, token := r.2, heldB := b }
            s.barWait iss o t c b r.2 true) iss s0 s t) s)

/-! ### Queues -/

/-- The queue of a core's cluster; none where the core's gang does not hold the cluster's queue unit (19 R334). -/
def State.queueKey (s : State) (core q : Nat) : Option Nat :=
  match (s.core core).gang with
  | some g => if tget? s.queueHolder (clusterOf core) = some g then some (clusterOf core * 64 + q) else none
  | none => none
def State.queue (s : State) (k : Nat) : Queue := tget s.queues k {}
def State.setQueue (s : State) (k : Nat) (x : Queue) : State := { s with queues := tset s.queues k x }
def Queue.count (x : Queue) : Nat := x.tail - x.head

/-- The scratchpad key of a gang's local offset. -/
def State.localKey (s : State) (core o : Nat) : Nat :=
  scratchKey ((s.gangCore core (o / scratchSize)).getD core) (o % scratchSize)

/-- An entry appended to a ring in local memory; the oldest one removed. -/
def State.qAppend (s : State) (core k v : Nat) : State :=
  let x := s.queue k
  (s.scratchWrite (s.localKey core (x.base + 4 * (x.tail % x.cap))) 4 v).setQueue k { x with tail := x.tail + 1 }
def State.qRemove (s : State) (core k : Nat) : State × Nat :=
  let x := s.queue k
  (s.setQueue k { x with head := x.head + 1 }, s.scratchRead (s.localKey core (x.base + 4 * (x.head % x.cap))) 4)

/-- The blocked threads of a queue served in order while their operations can be performed (08 R193); fuel: the threads that wait. -/
def State.qServe (s : State) (k : Nat) : Nat → State
  | 0 => s
  | n + 1 =>
    let x := s.queue k
    match x.waiters with
    | [] => s
    | w :: r =>
      let core := coreOf w.tid
      if w.push ∧ x.count < x.cap then
        let s := (s.setQueue k { x with waiters := r }).qAppend core k w.value
        (s.retire w.tid (s.thread w.tid).pc w.next).qServe k n
      else if ¬ w.push ∧ x.count > 0 then
        let y := (s.setQueue k { x with waiters := r }).qRemove core k
        let s := y.1.deliver w.dest w.kdest 1 y.2
        (s.retire w.tid (s.thread w.tid).pc w.next).qServe k n
      else s

/-- A ring's place in the gang's local space (08 R192): cause 5 outside its span, over a window range (R397) or over a pin
slot of any context (13 R285), cause 8 over a copy-ring area. -/
def State.ringTrap (s : State) (core base n : Nat) : Option Trap :=
  let cores := (s.gangCores core).filter fun c => (s.gangCore core (s.core c).wg) = some c
  if (List.range ((n + scratchSize - 1) / scratchSize + 1)).any fun j =>
      decide (base / scratchSize + j ≤ (base + n - 1) / scratchSize) && (s.gangCore core (base / scratchSize + j)).isNone then some ⟨6, 5, 0, 0⟩
  else if cores.any fun c => (s.core c).windows.any fun x =>
      rangesMeet base n ((s.core c).wg * scratchSize + x.2.off) x.2.size then some ⟨6, 5, 0, 0⟩
  else if cores.any fun c => (s.pinnedOn c).any fun x =>
      rangesMeet base n ((s.core c).wg * scratchSize + x.1 * 2 ^ 16) (2 ^ 16) then some ⟨6, 5, 0, 0⟩
  else if cores.any fun c => rangesMeet base n ((s.core c).wg * scratchSize + ringBase) 2048 then some ⟨6, 8, 0, 0⟩
  else none

/-- 08 R192; of several causes the one that log 31 puts first. -/
def execQcfg (o : Ops) (s : State) : Host.Outcome State Fault Refusal :=
  .next (runGroup (.qcfg o) o (fun iss s0 s t =>
    let q := s0.srcB iss t (.qcfg o) o.b
    let a := s0.srcA iss t (.qcfg o) o
    let cap := bits a 44 32
    let base := bits a 22 0
    match s.queueKey iss.core q with
    | none => (s, .trap ⟨6, if q > 63 then 2 else 5, 0, 0⟩)
    | some k =>
      if q > 63 then (s, .trap ⟨6, 2, 0, 0⟩)
      else if (s.queue k).count ≠ 0 ∨ (s.queue k).waiters ≠ [] then (s, .trap ⟨6, 4, 0, 0⟩)
      else if bits a 63 45 ≠ 0 ∨ bits a 31 23 ≠ 0 ∨ cap > 4096 ∨ base % 4 ≠ 0 then (s, .trap ⟨6, 5, 0, 0⟩)
      else if cap = 0 then (s.setQueue k {}, .next)
      else
        match s.ringTrap iss.core base (4 * cap) with
        | some x => (s, .trap x)
        | none => (s.setQueue k { cap := cap, base := base }, .next)) s)

/-- A queue operation's checks: the number, then an unconfigured queue (08 R192, R193); the threads act in ascending lane order. -/
def queueBody (i : Instr) (o : Ops) (ready : State → Nat → Bool) (act : Nat → Issue → Body) : Issue → Body := fun iss s0 s t =>
  let q := s0.srcB iss t i o.b
  match s.queueKey iss.core q with
  | none => (s, .trap ⟨6, if q > 63 then 2 else 5, 0, 0⟩)
  | some k =>
    if q > 63 then (s, .trap ⟨6, 2, 0, 0⟩)
    else if (s.queue k).cap = 0 then (s, .trap ⟨6, 5, 0, 0⟩)
    else if s0.lanesReady iss o t (ready s0) then act k iss s0 s t
    else (s, .stay (.blocked .again))

/-- 08 R193: release(GROUP), then the handle is appended, or the thread blocks. -/
def execQpush (o : Ops) (s : State) : Host.Outcome State Fault Refusal :=
  .next (runGroup (.qpush o) o (queueBody (.qpush o) o (fun s t => s.releaseReady t .grp) fun k iss s0 s t =>
    let v := s0.srcA iss t (.qpush o) o
    let x := s.queue k
    if x.count < x.cap ∧ (x.waiters.all fun w => !w.push) then
      ((s.qAppend iss.core k v).qServe k x.waiters.length, .next)
    else
      (s.setQueue k { x with waiters := x.waiters ++
        [{ tid := t, push := true, value := v, next := (iss.pc + (Instr.qpush o).length) % 2 ^ 64 }] },
       .stay (.blocked (.queue (clusterOf iss.core) (k % 64))))) s)

/-- 08 R193: the oldest handle is removed, then acquire(GROUP, mask 0), or the thread blocks. -/
def execQpop (o : Ops) (s : State) : Host.Outcome State Fault Refusal :=
  .next (runGroup (.qpop o) o (queueBody (.qpop o) o (fun s t => !s.loadsPending t) fun k iss s0 s t =>
    let x := s.queue k
    let kw := kWriter s0 iss o t
    if 0 < x.count ∧ (x.waiters.all fun w => w.push) then
      let y := s.qRemove iss.core k
      ((y.1.writeD iss o t y.2 1 kw).qServe k x.waiters.length, .next)
    else
      let d := s0.destOf o t 1 kw
      (s.setQueue k { x with waiters := x.waiters ++
        [{ tid := t, dest := d.1, kdest := d.2, next := (iss.pc + (Instr.qpop o).length) % 2 ^ 64 }] },
       .stay (.blocked (.queue (clusterOf iss.core) (k % 64))))) s)

end Sys2Proof.Machine
end

