-- ==== Sys2Proof/Machine/Copy.lean ====
section
/-! DEFINITION. Copies: COPY, CBSEAL, CBWAIT, CBPOLL and the copy engine (08 R194 to R201, 03 R80, 04 R101 to R103, 10 R233). -/

namespace Sys2Proof.Machine

/-! ### The ring (08 R194, R195, R198) -/

/-- The scratchpad key of a ring entry. -/
def ringKey (core i : Nat) : Nat := scratchKey core (ringBase + 32 * i)
/-- A command whose ring entry is queued or active. -/
def State.ringBusy (s : State) (core i : Nat) : Bool := s.copyCmds.any fun c => c.2.ring = some (core, i)

/-- A command is written at the ring's next index with state 1, and the index advances. -/
def State.postCopy (s : State) (t src dst layout ctl : Nat) : State :=
  let core := coreOf t
  let th := s.thread t
  let i := (s.core core).ringNext % 64
  let batch := (th.sealed + 1) % 2 ^ 16
  let entry := src + dst * 2 ^ 64 + layout * 2 ^ 128 + ctl * 2 ^ 192 + 1 * 2 ^ 224 + laneOf t * 2 ^ 229 + squadOf t % 32 * 2 ^ 235 + batch * 2 ^ 240
  let s := s.scratchWrite (ringKey core i) 32 entry
  let s := s.modCore core fun c => { c with ringNext := (i + 1) % 64 }
  let s := { s with
    nextId := s.nextId + 1
    copyCmds := tset s.copyCmds s.nextId
      { ring := some (core, i), cluster := clusterOf core, core := core, ctx := s.ctxKey t, user := !th.supervisor, tid := t, batch := batch
        src := src, dst := dst, layout := layout, ctl := ctl }
    threads := tset s.threads t { th with copies := th.copies ++ [(batch, s.nextId)] } }
  s

/-- The threads blocked at a ring served in order (08 R198); fuel: the threads that wait. -/
def State.ringServe (s : State) (core : Nat) : Nat → State
  | 0 => s
  | n + 1 =>
    match (s.core core).ringWait with
    | [] => s
    | w :: r =>
      if s.ringBusy core ((s.core core).ringNext % 64) then s
      else
        let s := s.modCore core fun c => { c with ringWait := r }
        let s := s.postCopy w.tid ((w.copy[0]?).getD 0) ((w.copy[1]?).getD 0) ((w.copy[2]?).getD 0) ((w.copy[3]?).getD 0)
        (s.retire w.tid (s.thread w.tid).pc w.next).ringServe core n

/-- A control word that COPY refuses (08 R198): reserved bits, codec 0b11, width 0b11 with a codec. -/
def ctlBad (b : Nat) : Bool := bits b 31 20 ≠ 0 || b.testBit 7 || bits b 3 2 = 3 || (bits b 5 4 = 3 && bits b 3 2 ≠ 0)

/-- 08 R198. -/
def execCopy (o : Ops) (s : State) : Host.Outcome State Fault Refusal :=
  .next (runGroup (.copy o) o (fun iss s0 s t =>
    let b := s0.srcB iss t (.copy o) o.b
    let src := s0.pairAt iss t o.a 0
    let dst := s0.pairAt iss t o.a 2
    let lay := s0.pairAt iss t o.a 4
    if ctlBad b then (s, .trap ⟨6, 6, 0, 0⟩)
    else if (s.core iss.core).ringWait ≠ [] ∨ s.ringBusy iss.core ((s.core iss.core).ringNext % 64) = true then
      (s.modCore iss.core fun c => { c with ringWait := c.ringWait ++
        [{ tid := t, copy := [src, dst, lay, b], next := (iss.pc + (Instr.copy o).length) % 2 ^ 64 }] }, .stay (.blocked (.copyRing iss.core)))
    else (s.postCopy t src dst lay b, .next)) s)

/-! ### Batches (08 R200, R201) -/

/-- 08 R200. -/
def execCbseal (o : Ops) (s : State) : Host.Outcome State Fault Refusal :=
  .next (runGroup (.cbseal o) o (fun iss s0 s t =>
    let n := ((s0.thread t).sealed + 1) % 2 ^ 16
    ((s.modThread t fun th => { th with sealed := n }).writeD iss o t n 1 (kWriter s0 iss o t), .next)) s)

/-- A batch number that has not been sealed. -/
def Thread.unsealed (th : Thread) (b : Nat) : Bool := let d := (b + 2 ^ 16 - th.sealed) % 2 ^ 16; decide (1 ≤ d ∧ d < 2 ^ 15)
/-- Batch a is b or an earlier one. -/
def upTo (a b : Nat) : Bool := decide ((b + 2 ^ 16 - a) % 2 ^ 16 < 2 ^ 15)
/-- A batch is complete when every command sealed in batches up to b has ended. -/
def Thread.batchEnded (th : Thread) (b : Nat) : Bool := th.copies.all fun c => !(upTo c.1 b && upTo c.1 th.sealed)

/-- 08 R201: waits for the batch; a failure noted for a batch up to b is taken as a copy fault, whose delivery clears the note. -/
def execCbwait (o : Ops) (s : State) : Host.Outcome State Fault Refusal :=
  .next (runGroup (.cbwait o) o (fun iss s0 s t =>
    let b := s0.srcB iss t (.cbwait o) o.b % 2 ^ 16
    let th := s0.thread t
    if th.unsealed b then (s, .trap ⟨6, 7, 0, 0⟩)
    else if !th.batchEnded b then (s, .stay (.blocked (.batch b)))
    else
      match th.note with
      | some n => if upTo n.batch b then (s, .trap ⟨12, n.cause, n.index, 6⟩) else (s, .next)
      | none => (s, .next)) s)

/-- 08 R201. -/
def execCbpoll (o : Ops) (s : State) : Host.Outcome State Fault Refusal :=
  .next (runGroup (.cbpoll o) o (fun iss s0 s t =>
    let b := s0.srcB iss t (.cbpoll o) o.b % 2 ^ 16
    let th := s0.thread t
    if th.unsealed b then (s, .trap ⟨6, 7, 0, 0⟩) else (s.writeD iss o t (th.batchEnded b).toNat 1 true, .next)) s)

/-! ### Layout records (08 R196, R197) -/

/-- The fields of a layout record. -/
structure Layout where
  esize : Nat
  dir : Bool
  order : Nat
  inner : Nat
  swizzle : Nat
  bx : Nat
  bY : Nat
  bz : Nat
  sx : Nat
  sy : Nat
  sz : Nat
  spy : Int
  spz : Int
  deriving DecidableEq, Repr, Inhabited

/-- The codec of a control word: 0 none, 1 encode, 2 decode; its mantissa width. -/
def ctlCodec (ctl : Nat) : Nat := bits ctl 3 2
def ctlWidth (ctl : Nat) : Nat := match bits ctl 5 4 with | 0 => 8 | 1 => 12 | _ => 16

/-- Packed bytes of a block. -/
def Layout.blockBytes (l : Layout) (ctl : Nat) : Nat :=
  if ctlCodec ctl = 0 then l.bx * l.bY * l.bz * 2 ^ l.esize else tilthSize (ctlWidth ctl)

/-- A layout record read and checked: none where the command fails with cause 3. -/
def layoutOf (x ctl : Nat) : Option Layout :=
  let l : Layout :=
    { esize := bits x 1 0, dir := x.testBit 2, order := bits x 6 4, inner := bits x 20 18, swizzle := bits x 23 21
      bx := 2 ^ bits x 10 8, bY := 2 ^ bits x 13 11, bz := 2 ^ bits x 16 14
      sx := bits x 119 100 + 1, sy := bits x 139 120 + 1, sz := bits x 159 140 + 1
      spy := sext (bits x 207 160) 48, spz := sext (bits x 255 208) 48 }
  let b := l.blockBytes ctl
  let c := ctlCodec ctl
  let ok := !x.testBit 3 && !x.testBit 7 && !x.testBit 17 && bits x 99 24 = 0 && decide (l.order ≤ 5 ∧ l.inner ≤ 5 ∧ l.swizzle ≤ 2) &&
    decide (bits x 10 8 ≤ 4 ∧ bits x 13 11 ≤ 4 ∧ bits x 16 14 ≤ 4) &&
    l.sx % l.bx = 0 && l.sy % l.bY = 0 && l.sz % l.bz = 0 &&
    (l.swizzle = 0 || decide (b ≥ 8)) &&
    (l.swizzle ≠ 2 || 2 ^ Nat.log2 (b / 8) = b / 8) &&
    (c = 0 || (l.esize = 2 && l.bx = 4 && l.bY = 4 && l.bz = 4 && l.inner = 0)) &&
    (c ≠ 1 || !l.dir) && (c ≠ 2 || l.dir)
  if ok then some l else none

/-- Item n counted with an order's fastest axis first over extents: its (x, y, z). -/
def unrank (order ex ey ez n : Nat) : Nat × Nat × Nat :=
  let digits (a b : Nat) : Nat × Nat × Nat := (n % a, n / a % b, n / a / b)
  match order with
  | 0 => let d := digits ex ey; (d.1, d.2.1, d.2.2)
  | 1 => let d := digits ex ez; (d.1, d.2.2, d.2.1)
  | 2 => let d := digits ey ex; (d.2.1, d.1, d.2.2)
  | 3 => let d := digits ey ez; (d.2.2, d.1, d.2.1)
  | 4 => let d := digits ez ex; (d.2.1, d.2.2, d.1)
  | _ => let d := digits ez ey; (d.2.2, d.2.1, d.1)

def Layout.blocks (l : Layout) : Nat := l.sx / l.bx * (l.sy / l.bY) * (l.sz / l.bz)
def Layout.elems (l : Layout) : Nat := l.bx * l.bY * l.bz
/-- The strided place of element e of block j, from the strided base. -/
def Layout.strided (l : Layout) (j e : Nat) : Int :=
  let b := unrank l.order (l.sx / l.bx) (l.sy / l.bY) (l.sz / l.bz) j
  let u := unrank l.inner l.bx l.bY l.bz e
  ((b.1 * l.bx + u.1) * 2 ^ l.esize : Nat) + ((b.2.1 * l.bY + u.2.1 : Nat) : Int) * l.spy + ((b.2.2 * l.bz + u.2.2 : Nat) : Int) * l.spz
/-- place(j, o): the packed place of byte o of block j, from the packed base. -/
def Layout.place (l : Layout) (bytes j o : Nat) : Nat :=
  let w := bytes / 8
  let word := o / 8
  let word := if l.swizzle = 1 then (word + j) % w else if l.swizzle = 2 then word ^^^ (j % w) else word
  j * bytes + word * 8 + o % 8

/-- Insertion into an ascending list without repeats. -/
def insertNat (a : Nat) : List Nat → List Nat
  | [] => [a]
  | b :: r => if a < b then a :: b :: r else if a = b then b :: r else b :: insertNat a r

/-! ### Movement (08 R197, R199, 03 R80) -/

/-- Who reads for a command: the issuing thread's place, or the cluster of a triggered COPY. -/
def CopyCmd.who (c : CopyCmd) : Who :=
  { core := c.core, ctx := c.ctx, agent := dieAgent (dieOf c.core), level := l1Level (clusterOf c.core), holder := 4, user := c.user, tid := c.tid, pc := 0 }

/-- A local side's byte: its scratchpad key, or cause 2 (outside the span, in a copy-ring area, in a window range, in another context's pin slot). -/
def State.copyLocal (s : State) (c : CopyCmd) (a : Int) : Nat ⊕ Nat :=
  if a < 0 then .inr 2
  else
    match s.gangCore c.core (a.toNat / scratchSize) with
    | none => .inr 2
    | some k =>
      let off := a.toNat % scratchSize
      if off ≥ ringBase ∨ (s.windowAt k off).isSome ∨ s.pinForeign k off c.ctx then .inr 2 else .inl (scratchKey k off)

/-- How a source word is read: its value, the cause with which the command ends, the place whose home has to give it, or not yet. -/
inductive Got
  | val (v : Word)
  | bad (cause : Nat)
  | ask (tg : Target)
  | wait
  deriving DecidableEq, Repr, Inhabited

/-- The translation of an engine's access. -/
def State.copyXlate (s : State) (c : CopyCmd) (va : Nat) (write : Bool) : State × (Target ⊕ Nat) :=
  s.translate c.ctx [2 ^ 20 + c.cluster, 2 ^ 21 + dieOf c.core] va { user := c.user, write := write }

/-- A source word of a global side, by word number of its virtual address: a GROUP-scope load (03 R80), for a triggered COPY one at the scope of its firing (R81, 10 R230);
what the engine's L1 and L2 do not answer is asked for at its home. -/
def State.copyLoad (s : State) (c : CopyCmd) (vw : Nat) : State × Got :=
  match s.copyXlate c (4 * vw) false with
  | (s, .inr _) => (s, .bad 1)
  | (s, .inl (.cached pa)) =>
    match s.find c.who (pa / 4) 15 c.scope with
    | .val v => (s, .val v)
    | .wait => (s, .wait)
    | .miss => (s, .ask (.cached pa))
  | (s, .inl tg) => (s, .ask tg)

/-- A request of an engine (21 R372): it names words of one sector. -/
def CopyCmd.request (c : CopyCmd) (id : Nat) (kind : MsgKind) (va : Nat) (tg : Target) (items : Nat → List Item) : Msg :=
  let pa := match tg with | .cached pa => pa | .never pa => pa | .pinDie _ pa => pa | .pinCore _ off => off
  let a := engineAgent c.cluster
  uncachedMsg { kind := kind, src := a, dst := homeEnd (pa / 4), agent := a, level := l1Level c.cluster, items := items (pa / 4), client := .copy id, ctx := c.ctx
                va := va, pa := pa, scope := c.scope, past := true, strict := true } tg

/-- Words to ask for, gathered by sector: the first word's number and place, the distances of the others from it. -/
def gather (l : List (Nat × Target)) : List (Nat × Target × List Nat) :=
  l.foldr (fun x acc =>
    match acc with
    | (v, _, ds) :: r => if v / 8 = x.1 / 8 then (x.1, x.2, 0 :: ds.map fun d => d + (v - x.1)) :: r else (x.1, x.2, [0]) :: acc
    | [] => [(x.1, x.2, [0])]) []

/-- What reading some words of a command's global side has come to: those that have come, each with its cause; the requests for others; whether one must be read again. -/
structure Fetch where
  words : Tab (Word × Nat)
  asked : List (Nat × Target) := []
  again : Bool := false
  deriving DecidableEq, Repr, Inhabited
/-- True where every word has come. -/
def Fetch.ready (f : Fetch) : Bool := f.asked = [] && !f.again

/-- The words that have not come yet, read. -/
def State.copyLoads (s : State) (c : CopyCmd) (f : Fetch) : List Nat → State × Fetch
  | [] => (s, f)
  | w :: r =>
    if (tget? f.words w).isSome then s.copyLoads c f r
    else
      match s.copyLoad c w with
      | (s, .val v) => s.copyLoads c { f with words := tset f.words w (v, 0) } r
      | (s, .bad e) => s.copyLoads c { f with words := tset f.words w (0, e) } r
      | (s, .ask tg) => s.copyLoads c { f with asked := f.asked ++ [(w, tg)] } r
      | (s, .wait) => s.copyLoads c { f with again := true } r

/-- The requests of a command for the words that its levels do not have; their numbers. -/
def State.copyAsk (s : State) (id : Nat) (c : CopyCmd) (f : Fetch) : State × List Nat :=
  (gather f.asked).foldl (fun acc g =>
    let r := acc.1.send (c.request id .load (4 * g.1) g.2.1 fun w => g.2.2.map fun d => { w := w + d })
    (r.1, acc.2 ++ [r.2])) (s, [])

/-- The answer to a command's request: its words come to the record or to the source. -/
def State.copyTake (s : State) (id : Nat) (x : Msg) (vs : List Word) : State :=
  match tget? s.copyCmds id with
  | none => s
  | some c =>
    let put (t : Tab (Word × Nat)) : Tab (Word × Nat) :=
      (x.items.zip vs).foldl (fun t y => tset t (x.va / 4 + (y.1.w % 2 ^ 14 - x.pa / 4 % 2 ^ 14)) (y.2, 0)) t
    { s with copyCmds := tset s.copyCmds id (if c.record.length < 8 then { c with record := put c.record } else { c with words := put c.words }) }
/-- A request of a command was turned away (20 R359, 21 R374): the copy ends with cause 1; the sector of a write was not written. -/
def State.copyRefused (s : State) (id : Nat) (x : Msg) : State :=
  match tget? s.copyCmds id with
  | none => s
  | some c => { s with copyCmds := tset s.copyCmds id { c with cause := 1, left := if x.kind = .load then c.left else x.va / 32 :: c.left } }

/-- A byte of the source side: from the words read, or from a scratchpad; or a cause. -/
def State.copyByte (s : State) (c : CopyCmd) (ws : Tab (Word × Nat)) (a : Int) : Nat ⊕ Nat :=
  if c.ctl.testBit 0 then
    match s.copyLocal c a with
    | .inl k => .inl (s.scratchByte k).toNat
    | .inr e => .inr e
  else
    let va := lowBits a 64
    match tget? ws (va / 4) with
    | some (v, 0) => .inl (v.toNat / 2 ^ (8 * (va % 4)) % 256)
    | some (_, e) => .inr e
    | none => .inr 1

/-- The bytes of an encoded block that a decoder reads: the header alone where it is in error, else the header and the mantissas of its width (04 R101, R103). -/
def tilthNeed (nb b0 b1 : Nat) : Nat := if tilthBad b0 b1 then 2 else min nb (2 + 8 * (8 + 4 * (b1 % 4)))
/-- The bytes of block j that a decoder reads, as far as its header is known. -/
def State.needOf (s : State) (c : CopyCmd) (l : Layout) (ws : Tab (Word × Nat)) (j : Nat) : Nat :=
  let nb := l.blockBytes c.ctl
  match s.copyByte c ws (c.src + (l.place nb j 0 : Nat)), s.copyByte c ws (c.src + (l.place nb j 1 : Nat)) with
  | .inl b0, .inl b1 => tilthNeed nb b0 b1
  | _, _ => 2

/-- The bytes that a command moves: destination address, and the byte or the failure cause of its source. -/
def State.copyMoves (s : State) (c : CopyCmd) (l : Layout) (ws : Tab (Word × Nat)) : List (Int × (Nat ⊕ Nat)) :=
  let es := 2 ^ l.esize
  let nb := l.blockBytes c.ctl
  let sbase : Int := if l.dir then c.dst else c.src
  let pbase : Int := if l.dir then c.src else c.dst
  (List.range l.blocks).flatMap fun j =>
    match ctlCodec c.ctl with
    | 0 => (List.range l.elems).flatMap fun e => (List.range es).map fun (i : Nat) =>
        let st : Int := sbase + l.strided j e + (i : Int)
        let pk : Int := pbase + ((l.place nb j (e * es + i) : Nat) : Int)
        if l.dir then (st, s.copyByte c ws pk) else (pk, s.copyByte c ws st)
    | 1 =>
      let src := (List.range 64).map fun e => (List.range 4).map fun i => s.copyByte c ws (sbase + l.strided j e + i)
      let bad := src.flatten.findSome? fun b => match b with | .inr e => some e | .inl _ => none
      let vs := src.map fun b => b.foldr (fun x r => (match x with | .inl v => v | .inr _ => 0) + 256 * r) 0
      let out := tilthEncode (ctlWidth c.ctl) vs
      (List.range nb).map fun o => (pbase + (l.place nb j o : Nat), match bad with | some e => .inr e | none => .inl ((out[o]?).getD 0).toNat)
    | _ =>
      let src := (List.range (s.needOf c l ws j)).map fun o => s.copyByte c ws (pbase + (l.place nb j o : Nat))
      let bad := src.findSome? fun b => match b with | .inr e => some e | .inl _ => none
      let bytes := src.map fun b => match b with | .inl v => BitVec.ofNat 8 v | .inr _ => 0
      let vs := (tilthDecode bytes).1
      (List.range 64).flatMap fun e => (List.range 4).map fun (i : Nat) =>
        (sbase + l.strided j e + (i : Int), match bad with | some x => .inr x | none => .inl ((vs[e]?).getD 0 / 2 ^ (8 * i) % 256))

/-- The source words of a command's global side, ascending: of encoded blocks those whose header has come (ws), without their padding (04 R103). -/
def State.sourceWords (s : State) (c : CopyCmd) (l : Layout) (ws : Tab (Word × Nat)) : List Nat :=
  if c.ctl.testBit 0 then []
  else
    let es := 2 ^ l.esize
    let nb := l.blockBytes c.ctl
    let as : List Int :=
      if l.dir then (List.range l.blocks).flatMap fun j =>
        (List.range (if ctlCodec c.ctl = 2 then s.needOf c l ws j else nb)).map fun o => (c.src : Int) + (l.place nb j o : Nat)
      else (List.range l.blocks).flatMap fun j => (List.range l.elems).flatMap fun e => (List.range es).map fun i => (c.src : Int) + l.strided j e + i
    as.foldl (fun r a => insertNat (lowBits a 64 / 4) r) []

/-- The copies of a written word that the issuing cluster's L1 and its die's L2 hold are dropped as the write passes, but not those in windows (03 R80). -/
def State.copyDrop (s : State) (cluster w : Nat) : State :=
  let drop (s : State) (level : Nat) : State :=
    match s.copy level w with
    | some x => if x.win.isSome || x.pend || x.owned then s else s.delCopy level w
    | none => s
  drop (drop s (l1Level cluster)) (l2Level (cluster / 8))

/-- A destination sector checked whole: the cause where it cannot be written. -/
def State.sectorOk (s : State) (c : CopyCmd) : List (Int × (Nat ⊕ Nat)) → Option Nat
  | [] => none
  | (a, x) :: r =>
    match x with
    | .inr e => some e
    | .inl _ =>
      let bad : Option Nat :=
        if c.ctl.testBit 1 then (match s.copyLocal c a with | .inr e => some e | .inl _ => none)
        else match (s.copyXlate c (lowBits a 64) true).2 with | .inr _ => some 1 | .inl _ => none
      match bad with
      | some e => some e
      | none => s.sectorOk c r

/-- A local destination sector written. -/
def State.sectorPut (s : State) (c : CopyCmd) (ms : List (Int × (Nat ⊕ Nat))) : State :=
  ms.foldl (fun s m =>
    match m.2 with
    | .inr _ => s
    | .inl b => match s.copyLocal c m.1 with | .inl k => s.setScratchByte k (BitVec.ofNat 8 b) | .inr _ => s) s

/-- The words of a global destination sector, the bytes of each that are written; w0: the sector's first word at its home. -/
def sectorItems (ms : List (Int × (Nat ⊕ Nat))) (k w0 : Nat) : List Item :=
  (List.range 8).filterMap fun j =>
    let bs := ms.filterMap fun m => match m.2 with | .inl b => (if lowBits m.1 64 / 4 = 8 * k + j then some (lowBits m.1 64 % 4, b) else none) | .inr _ => none
    if bs = [] then none
    else some { w := w0 + j, bm := (List.range 4).foldl (fun r i => if bs.any fun x => x.1 = i then r + 2 ^ i else r) 0
                val := BitVec.ofNat 32 ((List.range 4).foldl (fun r i => match bs.reverse.find? fun x => x.1 = i with | some x => r + 2 ^ (8 * i) * x.2 | none => r) 0) }

/-- A global destination sector goes to its home as one write, which registers its Cached words to the engine (03 R80, 08 R199). -/
def State.sectorSend (s : State) (id : Nat) (c : CopyCmd) (ms : List (Int × (Nat ⊕ Nat))) (k : Nat) : State × List Nat :=
  match s.copyXlate c (32 * k) true with
  | (s, .inl tg) =>
    let m := c.request id (match tg with | .cached _ => .reg | _ => .remote) (32 * k) tg (sectorItems ms k)
    let s := if m.attr = 0 ∨ m.attr = 2 then m.items.foldl (fun s i => s.copyDrop c.cluster i.w) s else s
    let r := s.send m
    (r.1, [r.2])
  | (s, .inr _) => (s, [])

/-- The destination sectors of moves in ascending order. -/
def sectorsOf (ms : List (Int × (Nat ⊕ Nat))) : List Nat := ms.foldl (fun r m => insertNat (lowBits m.1 64 / 32) r) []

/-- The blocks that the codec has taken: all, or those with a byte in a written sector where the command failed (log 91). left: the sectors not written. -/
def Layout.takenBlocks (l : Layout) (c : CopyCmd) (left : List Nat) : List Nat :=
  let nb := l.blockBytes c.ctl
  (List.range l.blocks).filter fun j => left = [] ||
    if l.dir then (List.range l.elems).any fun e => (List.range 4).any fun (i : Nat) => !left.contains (lowBits (c.dst + l.strided j e + i) 64 / 32)
    else (List.range nb).any fun o => !left.contains (lowBits ((c.dst + l.place nb j o : Nat) : Int) 64 / 32)

/-- What each block counts in the codec (04 R102, R103): non-finite values encoded, a format error decoded; s holds the bytes as they were read. -/
def State.codecTally (s : State) (c : CopyCmd) (l : Layout) (ws : Tab (Word × Nat)) : List (Nat × Nat) :=
  let nb := l.blockBytes c.ctl
  let byte (a : Int) : Nat := match s.copyByte c ws a with | .inl b => b | .inr _ => 0
  let count (j : Nat) : Nat :=
    match ctlCodec c.ctl with
    | 1 => tilthNonfinite ((List.range 64).map fun e => (List.range 4).foldr (fun i r => byte (c.src + l.strided j e + i) + 256 * r) 0)
    | 2 => (tilthBad (byte (c.src + (l.place nb j 0 : Nat))) (byte (c.src + (l.place nb j 1 : Nat)))).toNat
    | _ => 0
  if ctlCodec c.ctl = 0 then [] else (List.range l.blocks).map fun j => (j, count j)
/-- The engine's count rises. -/
def State.codecCounted (s : State) (c : CopyCmd) (n : Nat) : State :=
  let up (t : Tab Nat) : Tab Nat := if n = 0 then t else tset t c.cluster (min (tget t c.cluster 0 + n) (2 ^ 64 - 1))
  match ctlCodec c.ctl with
  | 1 => { s with nonfinite := up s.nonfinite }
  | 2 => { s with tilthErrors := up s.tilthErrors }
  | _ => s

/-- The layout of a command whose record has come. -/
def CopyCmd.form (c : CopyCmd) : Option Layout :=
  layoutOf (joinWords ((List.range 8).map fun i => ((tget? c.record (c.layout / 4 + i)).map (·.1)).getD 0)) c.ctl
/-- The engine's count rises by what the blocks that it has taken count. -/
def State.copyCounts (s : State) (c : CopyCmd) (left : List Nat) : State :=
  match CopyCmd.form c with
  | some l =>
    let js := l.takenBlocks c left
    s.codecCounted c ((c.tally.filter fun x => js.contains x.1).map (·.2)).sum
  | none => s

/-- How a command's movement goes on: it ends in a state with a cause (0: complete), it goes on with requests on their way, or it waits for them. -/
inductive Moved
  | ended (s : State) (cause : Nat)
  | on (s : State)
  | wait

/-- The sectors written in ascending order (03 R80): local ones at once, a global one by a write whose acknowledgement the next one waits for; the first that cannot be
written ends the command. -/
def State.copySectors (s : State) (id : Nat) (c : CopyCmd) (ms : List (Int × (Nat ⊕ Nat))) : List Nat → Moved
  | [] => .ended (s.copyCounts c []) 0
  | k :: r =>
    let x := ms.filter fun m => lowBits m.1 64 / 32 = k
    match s.sectorOk c x with
    | some e => .ended (s.copyCounts c (k :: r)) e
    | none =>
      if c.ctl.testBit 1 then (s.sectorPut c x).copySectors id c ms r
      else
        let y := s.sectorSend id c x k
        .on { y.1 with copyCmds := tset y.1.copyCmds id { c with left := r, msgs := y.2 } }

/-- A command goes on with some words on their way. -/
def State.copyGoes (s : State) (id : Nat) (c : CopyCmd) (f : Fetch) : Moved :=
  let r := s.copyAsk id c f
  .on { r.1 with copyCmds := tset r.1.copyCmds id { c with msgs := r.2 } }

/-- The source words of a command are read, the headers of encoded blocks first, and its bytes are moved. -/
def State.copySources (s : State) (id : Nat) (c : CopyCmd) (l : Layout) : Moved :=
  match s.copyLoads c { words := c.words } (s.sourceWords c l c.words) with
  | (s, f) =>
    if f.ready = false then s.copyGoes id { c with words := f.words } f
    else
      match s.copyLoads c f (s.sourceWords c l f.words) with
      | (s, f) =>
        let c := { c with words := f.words }
        if f.ready = false then s.copyGoes id c f
        else
          let ms := s.copyMoves c l f.words
          let c := { c with moves := some ms, left := sectorsOf ms, tally := s.codecTally c l f.words }
          s.copySectors id c ms c.left

/-- A command carried out as far as it can go (08 R197, R199): layout address, record, its fields, bases, sources, then the sectors; of several errors the first of these
counts (log 99). -/
def State.runCopy (s : State) (id : Nat) (c : CopyCmd) : Moved :=
  if c.msgs.any s.live then .wait
  else if c.cause ≠ 0 then .ended (s.copyCounts c c.left) c.cause
  else
    match c.moves with
    | some ms => s.copySectors id c ms c.left
    | none =>
      if c.layout % 32 ≠ 0 then .ended s 4
      else
        match s.copyLoads c { words := c.record } ((List.range 8).map fun i => c.layout / 4 + i) with
        | (s, f) =>
          let c := { c with record := f.words }
          if f.ready = false then s.copyGoes id c f
          else if f.words.any fun x => x.2.2 ≠ 0 then .ended s 1
          else
            match CopyCmd.form c with
            | none => .ended s 3
            | some l =>
              let sbase := if l.dir then c.dst else c.src
              let pbase := if l.dir then c.src else c.dst
              if sbase % 2 ^ l.esize ≠ 0 ∨ pbase % 8 ≠ 0 then .ended s 4
              else if (c.ctl.testBit 0 ∧ c.src / 2 ^ 23 ≠ 0) ∨ (c.ctl.testBit 1 ∧ c.dst / 2 ^ 23 ≠ 0) then .ended s 2
              else s.copySources id c l

/-- A write of an engine that registers the word to its own agent, with the data at the home (03 R80, 20 R363, 22 R391); a change of owner is checked for a
race. m: the request, for the race's record. -/
def State.engineStore (s : State) (m : Msg) (w bm : Nat) (v : Word) : State :=
  let old := s.wordVal w
  let s := match s.ownerOf w with
    | some e =>
      if e.agent = m.agent then s
      else
        let s := if s.races e then s.race m w 1 e else s
        ((s.dropAgent e.agent w).unregister w e.agent).dropMirror e.agent w
    | none => s
  (((s.roomInLine w m.agent).setHomeWord w (mergeWord bm v old)).register w m.agent).passLlc m.agent w

/-! ### The engine's steps -/

/-- The end of a command (08 R199, R201): ring entry, release count, dependence, failure note, the threads that wait for the entry; a triggered COPY
reports to its slot. -/
def State.endCopy (s : State) (id : Nat) (c : CopyCmd) (cause : Nat) : State :=
  let s := { s with copyCmds := tdel s.copyCmds id }
  let s := s.bumpRelease (engineAgent c.cluster)
  let s := if c.ctl.testBit 6 then s.arrives { ck := s.clock (pkgOf c.core), die := dieOf c.core, num := bits c.ctl 19 8, cls := 2, key := id, act := .dec } else s
  match c.ring, c.aster with
  | some (core, i), _ =>
    let s := s.setScratchByte (ringKey core i + 28) (BitVec.ofNat 8 ((s.scratchByte (ringKey core i + 28)).toNat / 32 * 32 + cause * 4 + 3))
    let s := if (tget? s.threads c.tid).isNone then s else s.modThread c.tid fun th =>
      { th with
        copies := th.copies.filter fun x => x.2 ≠ id
        note := if cause ≠ 0 ∧ th.note = none then some { batch := c.batch, index := i, cause := cause } else th.note }
    s.ringServe core (s.core core).ringWait.length
  | none, some (die, n) =>
    { s with slots := tset s.slots (die * 8192 + n) { (tget s.slots (die * 8192 + n) {}) with copyEnd := some cause } }
  | none, none => s

/-- 08 R199: the next queued entry of its ring becomes active; a ring whose gang has stopped starts none. -/
def execCopyCommandStart (cmd : Nat) (s : State) : Host.Outcome State Fault Refusal :=
  .next (match tget? s.copyCmds cmd with
    | some c =>
      if c.active ∨ (s.core c.core).stop ∨ s.rests (pkgOf c.core) then s
      else
        match c.ring with
        | some (core, i) =>
          if s.copyCmds.any fun x => decide (x.1 < cmd) && !x.2.active && (match x.2.ring with | some r => r.1 = core | none => false) then s
          else
            let k := ringKey core i + 28
            { s.setScratchByte k (BitVec.ofNat 8 ((s.scratchByte k).toNat / 4 * 4 + 2)) with copyCmds := tset s.copyCmds cmd { c with active := true } }
        | none => { s with copyCmds := tset s.copyCmds cmd { c with active := true } }
    | none => s)

/-- An active command goes on; it completes when it has moved all its bytes (log 77). -/
def execCopyCommandComplete (cmd : Nat) (s : State) : Host.Outcome State Fault Refusal :=
  done (match tget? s.copyCmds cmd with
    | some c =>
      if c.active = false then s
      else
        match s.runCopy cmd c with
        | .ended s' 0 => s'.endCopy cmd c 0
        | .on s' => s'
        | _ => s
    | none => s)

/-- An active command that meets an error stops with its cause; the sectors below stay written. -/
def execCopyCommandFail (cmd : Nat) (s : State) : Host.Outcome State Fault Refusal :=
  done (match tget? s.copyCmds cmd with
    | some c =>
      if c.active = false then s
      else
        match s.runCopy cmd c with
        | .ended s' cause => if cause = 0 then s else s'.endCopy cmd c cause
        | _ => s
    | none => s)

end Sys2Proof.Machine
end

