-- ==== Sys2Proof/Machine/System.lean ====
section
/-! DEFINITION. The system group: TRAP, BKPT, ERET, SYSRD, SYSWR, SHOOTDN, CNTCFG, CNTRD (10 R244 to R250). -/

namespace Sys2Proof.Machine

/-! ### Traps -/

/-- 10 R244. -/
def execTrap (o : Ops) (s : State) : Host.Outcome State Fault Refusal :=
  .next (runGroup (.trap o) o (fun iss s0 s t => (s, .trap ⟨14, 0, s0.srcB iss t (.trap o) o.b % 2 ^ 32, 0⟩)) s)

/-- DBGCTL of a thread's gang (10 R248). -/
def State.dbg (s : State) (t : Nat) : Word :=
  match (s.core (coreOf t)).gang.bind s.gang with
  | some g => g.dbgctl
  | none => s.dbgctl
def State.setDbg (s : State) (t : Nat) (v : Word) : State :=
  match (s.core (coreOf t)).gang with
  | some k => match s.gang k with
    | some g => s.setGang k { g with dbgctl := v }
    | none => { s with dbgctl := v }
  | none => { s with dbgctl := v }

/-- 10 R244: the gang halts with the thread standing after the BKPT, or trap 15; a thread whose BKPT traps before its effect halts nothing. -/
def execBkpt (o : Ops) (s : State) : Host.Outcome State Fault Refusal :=
  .next (
    let halts (t : Nat) : Bool := (s.dbg t).toNat.testBit 0 && ((s.core (coreOf t)).gang.bind s.gang).isSome
    let mark (s' : State) (g pc : Nat) : State := match s'.gang g with | some x => s'.setGang g { x with halt := true, bkpt := pc } | none => s'
    let r := runGroup (.bkpt o) o (fun iss _ s' t =>
      if halts t then (match (s'.core iss.core).gang with | some g => mark s' g iss.pc | none => s', .next) else (s', .trap ⟨15, 0, 0, 0⟩)) s
    match s.issue.bind fun iss => (r.core iss.core).gang with
    | some g => match r.gang g with
      | some x => if x.halt = true ∧ x.st = .running then r.stopGang g id else r
      | none => r
    | none => r)

/-- The privilege check (10 R246). -/
def privileged (f : Issue → Body) : Issue → Body := fun iss s0 s t =>
  if (s0.thread t).supervisor then f iss s0 s t else (s, .trap ⟨13, 0, 0, 0⟩)

/-- 10 R245. -/
def execEret (o : Ops) (s : State) : Host.Outcome State Fault Refusal :=
  .next (runGroup (.eret o) o (privileged fun _ s0 s t =>
    let epc := (((s0.squad (squadOf t)).trec[3]?).getD 0).toNat
    if epc % 4 ≠ 0 then (s, .trap ⟨2, 2, 0, 0⟩) else (s.leaveHandler t, .jump epc)) s)

/-! ### System registers (10 R247, R248) -/

/-- A system register by number: 64 bits wide, supervisor only to read, writable in supervisor mode, writable in any mode. -/
structure SysReg where
  wide : Bool
  superRead : Bool := false
  superWrite : Bool := false
  anyWrite : Bool := false
  deriving DecidableEq, Repr, Inhabited

def sysReg (n : Nat) : Option SysReg :=
  match n with
  | 0x000 => some { wide := false } | 0x001 => some { wide := false } | 0x002 => some { wide := true } | 0x003 => some { wide := false }
  | 0x004 => some { wide := false }
  | 0x008 => some { wide := false, superWrite := true } | 0x009 => some { wide := false, superWrite := true }
  | 0x010 => some { wide := true, superRead := true, superWrite := true }
  | 0x020 => some { wide := true, superRead := true } | 0x021 => some { wide := true, superRead := true }
  | 0x022 => some { wide := true, superRead := true } | 0x023 => some { wide := true, superRead := true, superWrite := true }
  | 0x024 => some { wide := true, superRead := true } | 0x025 => some { wide := true, superRead := true }
  | 0x026 => some { wide := true, superRead := true } | 0x027 => some { wide := true, superRead := true }
  | 0x028 => some { wide := true, superRead := true, superWrite := true }
  | 0x029 => some { wide := false }
  | 0x02C => some { wide := true, superRead := true, superWrite := true } | 0x02D => some { wide := true, superRead := true, superWrite := true }
  | 0x02E => some { wide := true, superRead := true, superWrite := true } | 0x02F => some { wide := true, superRead := true, superWrite := true }
  | 0x030 => some { wide := false, anyWrite := true }
  | 0x031 => some { wide := false, superWrite := true } | 0x032 => some { wide := true, superWrite := true }
  | 0x033 => some { wide := false }
  | 0x040 => some { wide := false, superRead := true, superWrite := true }
  | _ => none

/-- A register's value for a thread. -/
def State.sysGet (s : State) (t n : Nat) : Nat :=
  let core := coreOf t
  let th := s.thread t
  let q := s.squad (squadOf t)
  let ctx := s.ctx (s.ctxKey t)
  match n with
  | 0x000 => laneOf t + squadOf t % 32 * 64
  | 0x001 => s.coreId core
  | 0x002 => s.clock (pkgOf core)
  | 0x003 => q.ctx
  | 0x004 => q.budget
  | 0x008 => (tget s.fmterr core 0).toNat
  | 0x009 => (tget s.sclerr core 0).toNat
  | 0x010 => th.loopHeader
  | 0x028 => ctx.tvec
  | 0x029 => th.supervisor.toNat
  | 0x030 => if isMarl core then th.astsel else dieOf core % 8
  | 0x031 => tget s.asterErr (s.asterOf t) 0
  | 0x032 => ctx.racecnt
  | 0x033 => ctx.raceMode
  | 0x040 => (s.dbg t).toNat
  | _ => if n < 0x028 then ((q.trec[n - 0x020]?).getD 0).toNat else ((th.sscratch[n - 0x02C]?).getD 0).toNat

/-- True of a value that a register refuses (10 R247). -/
def State.sysBad (s : State) (t n v : Nat) : Bool :=
  let th := s.thread t
  match n with
  | 0x028 => v % 4 ≠ 0
  | 0x030 => isMarl (coreOf t) && decide (v ≥ 8)
  | 0x010 => !headerOk v || (List.range 4).any fun i => decide (th.depth ≤ i ∧ i < bits v 2 0) && !(th.lc i).ok
  | _ => false

/-- A register written. -/
def State.sysSet (s : State) (t n v : Nat) : State :=
  let core := coreOf t
  match n with
  | 0x008 => { s with fmterr := tset s.fmterr core (BitVec.ofNat 32 v) }
  | 0x009 => { s with sclerr := tset s.sclerr core (BitVec.ofNat 32 v) }
  | 0x010 => s.modThread t fun th => th.setHeader v
  | 0x023 => s.modSquad (squadOf t) fun q => { q with trec := q.trec.set 3 (BitVec.ofNat 64 v) }
  | 0x028 => s.modCtx (s.ctxKey t) fun c => { c with tvec := v }
  | 0x030 => if isMarl core then s.modThread t fun th => { th with astsel := v } else s
  | 0x031 => { s with asterErr := tset s.asterErr (s.asterOf t) v }
  | 0x032 => s.modCtx (s.ctxKey t) fun c => { c with racecnt := v }
  | 0x040 => s.setDbg t (BitVec.ofNat 32 (v % 2))
  | _ => s.modThread t fun th => { th with sscratch := th.sscratch.set (n - 0x02C) (BitVec.ofNat 64 v) }

/-- An even pair within the budget (10 R247). -/
def pairOk (budget : Nat) (f : Fld) : Bool :=
  match f with
  | .v r => r.toNat % 2 = 0 && decide (r.toNat + 1 < budget)
  | .k r => r.toNat % 2 = 0 && decide (r.toNat + 1 < 64)
  | _ => true

/-- 10 R247. -/
def execSysrd (o : Ops) (s : State) : Host.Outcome State Fault Refusal :=
  .next (runGroup (.sysrd o) o (fun iss s0 s t =>
    let n := s0.srcB iss t (.sysrd o) o.b
    match sysReg n with
    | none => (s, .trap ⟨6, 17, 0, 0⟩)
    | some r =>
      if r.superRead && !(s0.thread t).supervisor then (s, .trap ⟨13, 0, 0, 0⟩)
      else if r.wide && !pairOk (s0.squad (squadOf t)).budget o.d then (s, .trap ⟨6, 17, 0, 0⟩)
      else (s.writeD iss o t (s.sysGet t n) (if r.wide then 2 else 1) (kWriter s0 iss o t), .next)) s)

/-- 10 R247. -/
def execSyswr (o : Ops) (s : State) : Host.Outcome State Fault Refusal :=
  .next (runGroup (.syswr o) o (fun iss s0 s t =>
    let n := s0.srcB iss t (.syswr o) o.b
    match sysReg n with
    | none => (s, .trap ⟨6, 17, 0, 0⟩)
    | some r =>
      let v := s0.readFld iss t o.a (if r.wide then 2 else 1)
      if (r.superRead || r.superWrite) && !(s0.thread t).supervisor then (s, .trap ⟨13, 0, 0, 0⟩)
      else if !(r.superWrite || r.anyWrite) then (s, .trap ⟨6, 17, 0, 0⟩)
      else if r.wide && !pairOk (s0.squad (squadOf t)).budget o.a then (s, .trap ⟨6, 17, 0, 0⟩)
      else if s.sysBad t n v then (s, .trap ⟨6, 17, 0, 0⟩)
      else (s.sysSet t n v, .next)) s)

/-! ### Shootdown and event counters (10 R249, R250) -/

/-- log2 of a shootdown's page size. -/
def shootLog (ctl : Nat) : Nat := match bits ctl 7 6 with | 0 => 16 | 1 => 21 | _ => 30

/-- 10 R249: the invalidation is broadcast; the thread is held until every package of the domain has carried it out. -/
def execShootdn (o : Ops) (s : State) : Host.Outcome State Fault Refusal :=
  .next (runGroup (.shootdn o) o (privileged fun iss s0 s t =>
    let th := s0.thread t
    if th.phase = 1 then
      (if (tget? s.shootdowns th.token).isSome then (s, .stay (.blocked .again)) else (s, .next))
    else
      let base := s0.pairAt iss t o.a 0
      let ctl := s0.pairAt iss t o.a 2
      if bits ctl 63 33 ≠ 0 ∨ bits ctl 7 6 = 3 ∨ (¬ ctl.testBit 32 ∧ base % 2 ^ shootLog ctl ≠ 0) then (s, .trap ⟨6, 17, 0, 0⟩)
      else
        let p := pkgOf iss.core
        let sd : Shootdown :=
          { ctx := bits ctl 5 0, all := ctl.testBit 32, base := base, size := (bits ctl 31 8 + 1) * 2 ^ shootLog ctl
            left := (List.range 64).filter fun q => s.inDomain p q }
        let id := s.nextId
        ((({ s with nextId := id + 1, shootdowns := tset s.shootdowns id sd } : State).castOut p (endSocket (homeAgent iss.core)) (.shootdown id) sd.left).modThread t fun th => { th with phase := 1, token := id },
         .stay (.blocked .again))) s)

/-- 10 R250, 22 R392. -/
def execCntcfg (o : Ops) (s : State) : Host.Outcome State Fault Refusal :=
  .next (runGroup (.cntcfg o) o (privileged fun iss s0 s t =>
    let a := s0.srcA iss t (.cntcfg o) o
    let b := s0.srcB iss t (.cntcfg o) o.b
    let ev := bits a 15 0
    if b > 63 ∨ bits a 31 18 ≠ 0 ∨ ev = 0 ∨ ev > 14 then (s, .trap ⟨6, 17, 0, 0⟩)
    else
      let k := iss.core * 64 + b
      ({ s with evCfg := tset s.evCfg k (ev, a.testBit 16), evCount := if a.testBit 17 then tset s.evCount k 0 else s.evCount }, .next)) s)

/-- 10 R250. -/
def execCntrd (o : Ops) (s : State) : Host.Outcome State Fault Refusal :=
  .next (runGroup (.cntrd o) o (fun iss s0 s t =>
    let b := s0.srcB iss t (.cntrd o) o.b
    if b > 63 then (s, .trap ⟨6, 17, 0, 0⟩)
    else (s.writeD iss o t (tget s.evCount (iss.core * 64 + b) 0) 2 (kWriter s0 iss o t), .next)) s)

end Sys2Proof.Machine
end

