-- ==== Sys2Proof/Machine/CohEv.lean ====
section
/-! DEFINITION. The steps of coherence: requests received and reissued (21 R372 to R374, R394, 20 R358, R359), registrations, loads, atomics, write-backs,
revocations and remote writes at their homes and owners (03 R56 to R65, R71, R81), evictions (03 R59, R61), signals (10 R233), sector fetches (08 R182). -/

namespace Sys2Proof.Machine

/-! ### Receiving (21 R373, 20 R358) -/

/-- The window of an endpoint for a requester moves up to the oldest number that a copy of a request says is outstanding; the answers below are dropped. -/
def State.slide (s : State) (k lwm : Nat) : State :=
  let x := tget s.windows k {}
  let b := maxMod x.base lwm
  let keep (n : Nat) : Bool := decide ((n + 2 ^ 16 - b) % 2 ^ 16 < 2 ^ 15)
  { s with windows := tset s.windows k { base := b, executed := x.executed.filter keep, answers := x.answers.filter fun e => keep e.1 } }
/-- True of a number that the requester has retired. -/
def State.stale (s : State) (k seq : Nat) : Bool := decide ((seq + 2 ^ 16 - (tget s.windows k {}).base) % 2 ^ 16 ≥ 2 ^ 15)
/-- A request is executed once. -/
def State.executes (s : State) (m : Msg) : State :=
  let k := pairKey m.dst m.src
  let x := tget s.windows k {}
  { s with windows := tset s.windows k { x with executed := m.seq :: x.executed } }

/-- A copy of a request that has been executed: of a load that its home forwarded the forward is sent again, unchanged (21 R394); else the stored answer is, where there is one
by now. -/
def State.duplicate (s : State) (id : Nat) (m : Msg) : State :=
  let s := s.health (endPkg m.dst) (endSocket m.dst) 2 1
  match s.msgs.filter fun x => x.2.orig = id && x.2.kind = .fwd with
  | [] =>
    if m.kind = .fwd then (match s.msg m.orig with | some y => s.answerFlit m.orig y m.dst | none => s)
    else
      match tget? (tget s.windows (pairKey m.dst m.src) {}).answers m.seq with
      | some a => if m.byGrant then s else s.answerFlit id { m with ans := a.1, negative := a.2 } m.dst
      | none => s
  | fs => fs.foldl (fun s f => s.launchCopy f.1 { f.2 with flying := f.2.flying + 1 }) s

/-- A request reaches its destination. -/
def State.receive (s : State) (id : Nat) (m : Msg) : State :=
  if (tget s.windows (pairKey m.dst m.src) {}).executed.contains m.seq then s.duplicate id m
  else
    match s.filter m with
    | .negative => (s.executes m).answer id { m with negative := true } m.dst
    | .forward pa =>
      let w := pa / 4
      let items := m.items.map fun i => { i with w := i.w - (m.items.headD i).w + w }
      let die := pa / 2 ^ 46 * 8 + m.pinDie % 8
      s.launchCopy id { m with items := items, src := m.src, dst := if m.attr = 2 then dieAgent die else homeEnd w, pinDie := if m.attr = 2 then die else m.pinDie
                               rerouted := true, flying := m.flying + 1 }
    | .pass => (s.executes m).setMsg id { m with st := .accepted }

/-- True of a request to a die that does not answer (20 R362, R363); an operation's signal is refused, and its words go to the package. -/
def State.deaf (s : State) (m : Msg) : Bool :=
  let die := endPkg m.dst * 8 + endSocket m.dst
  decide (endSocket m.dst < 8) && (s.dead.contains die || (s.lost.contains die && m.attr ≠ 4 && m.kind ≠ .signal))

/-- 21 R373: a copy of a request stands at its destination: the first is executed; of another the answer is sent again. -/
def execRequestReceive (m : Nat) (s : State) : Host.Outcome State Fault Refusal :=
  .next (match s.msg m with
    | none => s
    | some x =>
      if x.arrived = 0 ∨ x.st = .queued then s
      else
        let y := { x with arrived := x.arrived - 1, flying := x.flying - 1, lwms := x.lwms.drop 1 }
        let k := pairKey x.dst x.src
        let s' := if x.st = .finished ∧ y.flying = 0 ∧ s.keepsForward y = false then { s with msgs := tdel s.msgs m } else s.setMsg m y
        if s.held (endPkg x.dst) ∨ s.deaf x = true then s'
        else if x.past = false then s
        else
          let s' := s'.slide k (x.lwms.headD x.seq)
          if s'.stale k x.seq then s'
          else if x.st = .flying then s'.receive m y
          else if x.st = .finished ∧ (tget s'.windows k {}).executed.contains x.seq = false then s'
          else s'.duplicate m y)

/-- True of a request that gives up across the fabric: of a thread, a copy engine or an Aster unit, without owned data (21 R374). -/
def Msg.givesUp (m : Msg) : Bool :=
  match m.kind with
  | .wb => false | .grant => false | .inv => false | .rev => false | .fwd => false
  | _ => true

/-- An access of a thread is refused: it takes the trap when it is executed again (03 R75, 20 R359). -/
def State.failThread (s : State) (t : Nat) (f : Nat × Nat × Nat × Nat) : State := s.modThread t fun th => { th with failed := some f }

/-- The access kind of a request (10 R242). -/
def Msg.accessKind (m : Msg) : Nat := match m.kind with | .load => 1 | .atomic => 3 | _ => 2

/-- The threads whose access a request of thread t carries: the lanes of a joined store or of an atomic too. -/
def Msg.threads (m : Msg) (t : Nat) : List Nat := (t :: (if m.kind = .reg ∨ m.kind = .atomic then m.lanes.map (·.tid) else [])).eraseDups
/-- The threads that wait for a request are refused their access. -/
def State.failWaiting (s : State) (id : Nat) (m : Msg) (t : Nat) (f : Nat × Nat × Nat × Nat) : State :=
  (m.threads t).foldl (fun (s : State) u => if (s.thread u).token = id then s.failThread u f else s) s
/-- The threads that touched a window's sector and wait for it are refused their access; f: from the address of the touch. -/
def State.failTouch (s : State) (core slot : Nat) (m : Msg) (f : Nat → Nat × Nat × Nat × Nat) : State :=
  m.lanes.foldl (fun (s : State) l => if l.cmp = 1 ∧ (s.thread l.tid).run = .blocked (.window core slot) then s.failThread l.tid (f l.c) else s) s

/-- The bytes of a store whose registration is refused leave the requester's level: the access has no effect (20 R359). -/
def State.undoStore (s : State) (m : Msg) : State :=
  if m.kind ≠ .reg then s
  else m.items.foldl (fun s i =>
    match s.copy m.level i.w with
    | some c => if c.pend then (match c.win with | some k => s.dropWindowWord k | none => s).delCopy m.level i.w else s
    | none => s) s

/-- The requester of a request that ends without its effect: cause 7 for a thread's access, cause 1 for a copy, the given cause for an Aster slot. -/
def State.failClient (s : State) (id : Nat) (m : Msg) (slotCause : Nat) : State :=
  match m.client with
  | .thread t => (s.undoStore m).failWaiting id m t (9, 7, m.va, m.accessKind)
  | .window core slot =>
    (s.failTouch core slot m fun va => (9, 7, va, 5)).modWindow core slot fun w => { w with fills := w.fills.erase id }
  | .copy cmd => s.copyRefused cmd m
  | .aster die n => s.slotFails die n slotCause
  | .none => s
/-- A request ends without its effect. -/
def State.failMsg (s : State) (id : Nat) (m : Msg) (slotCause : Nat) : State := (s.failClient id m slotCause).finishMsg id
/-- A requester gives up a request that its home has taken: what the home still does with it concerns nobody, and none of its bytes are written (21 R374). -/
def State.abandon (s : State) (id : Nat) (m : Msg) (slotCause : Nat) : State :=
  let s := s.failClient id m slotCause
  let s := match m.client with
    | .aster die n => s.setAslot die n { s.aslot die n with msgs := (s.aslot die n).msgs.erase id }
    | .copy cmd =>
      (match tget? s.copyCmds cmd with
       | some c => { s with copyCmds := tset s.copyCmds cmd { c with msgs := c.msgs.erase id } }
       | none => s)
    | _ => s
  let s : State := { s with threads := s.threads.map fun th => (th.1, th.2.follow id 0) }
  s.setMsg id { m with
    client := .none, dest := [], kdest := none, held := [], lanes := m.lanes.map fun l => { l with dest := [], kdest := none }
    items := if m.kind = .reg then m.items.map fun i => { i with bm := 0 } else m.items }

/-- 21 R374: a timeout passes with no answer: the request is reissued, to its original address; across the fabric it gives up after FABRETRY reissues,
or counts an expiry. -/
def execRequestTimeout (m : Nat) (s : State) : Host.Outcome State Fault Refusal :=
  .next (match s.msg m with
    | none => s
    | some x =>
      let p := endPkg x.src
      let far := decide (p ≠ endPkg x.dst) || x.rerouted
      if x.past = false ∨ x.st = .queued ∨ x.st = .finished ∨ (x.st = .answered ∧ x.away = false ∧ x.byGrant = false) ∨ (x.rerouted = true ∧ x.st ≠ .flying) then s
      else if far ∧ Msg.givesUp x = true ∧ x.tries ≥ s.hreg p 0x2208 then
        (if x.client = .none then s
         else if x.st = .flying ∨ x.kind = .load ∨ (x.st = .answered ∧ x.byGrant = false) then s.failMsg m x 3 else s.abandon m x 3)
      else
        let s := if far ∧ Msg.givesUp x = false then s.health p (endSocket x.src) 3 1 else s
        let s := s.health p (endSocket x.src) 1 1
        let x := if x.rerouted then
            let die := x.pa / 2 ^ 46 * 8 + x.pinDie % 8
            { x with rerouted := false, dst := if x.attr = 2 then dieAgent die else homeEnd (x.pa / 4), pinDie := if x.attr = 2 then die else x.pinDie
                     items := x.items.map fun i => { i with w := x.pa / 2 ^ 16 * 2 ^ 14 + i.w % 2 ^ 14 } }
          else x
        s.launchCopy m { x with tries := x.tries + 1, flying := x.flying + 1 })

/-- 20 R359: the negative reply reaches the requester. -/
def execNegativeReply (m : Nat) (s : State) : Host.Outcome State Fault Refusal :=
  .next (match s.msg m with
    | some x => if x.st = .answered ∧ x.negative = true ∧ x.away = false then s.failMsg m x (if x.ctx / 64 ≠ x.agent / 1024 then 2 else if x.cause ≥ 16 then x.cause - 16 else 1) else s
    | none => s)

/-! ### Messages between a home and an agent -/

/-- True while a request serves another one. -/
def State.serving (s : State) (orig : Nat) : Bool := s.msgs.any fun m => m.2.orig = orig && m.2.kind ≠ .grant && m.2.st ≠ .finished &&
  (m.2.kind = .inv || m.2.kind = .rev || m.2.kind = .fwd || m.2.kind = .wb)
/-- A home's message to an owner about words, for the request orig, with the release count that the owner's entry holds (03 R59). -/
def State.ask (s : State) (kind : MsgKind) (orig owner : Nat) (items : List Item) (quiet : Bool) : State :=
  let w := (items.headD ⟨0, 0, 0⟩).w
  (s.send { kind := kind, src := homeEnd w, dst := owner, agent := owner, items := items, orig := orig, quiet := quiet, past := true
            rel := ((s.ownerOf w).map (·.relcount)).getD 0 }).1

/-- A request on which a race was found under TRAP is refused: its threads take the race trap (03 R75). -/
def State.refuse (s : State) (id : Nat) (m : Msg) (owner : Nat) : State :=
  let x (_ : Nat) : Nat × Nat × Nat × Nat := (11, 0, s.agentNum owner, m.accessKind)
  let s := match m.client with
    | .thread t => s.failWaiting id m t (x 0)
    | .window core slot => (s.failTouch core slot m x).modWindow core slot fun w => { w with fills := w.fills.erase id }
    | _ => s
  s.finishMsg id

/-- A verdict reported for a request (03 R75) on an owner's entry with the release count that the home's message carried: a race is dealt with, once for an entry; under
TRAP the request is refused. -/
def State.verdict (s : State) (orig w kind : Nat) (e : OwnerEntry) : State × Bool :=
  match s.msg orig with
  | none => (s, false)
  | some m =>
    if e.agent = m.agent ∨ s.races e = false ∨ m.judged.contains (w, e.agent, e.relcount) = true then (s, false)
    else
      let m := { m with judged := (w, e.agent, e.relcount) :: m.judged }
      let s := (s.setMsg orig m).race m w kind e
      if m.raceTrap then (s.refuse orig m e.agent, true) else (s, false)

/-- The verdicts of an owner on the words that a message names, as far as the request stands: true where it has been refused. -/
def State.verdicts (s : State) (n : Msg) (kind : Nat) (act : State → Nat → State) : State × Bool :=
  n.items.foldl (fun (acc : State × Bool) i =>
    if acc.2 then acc
    else
      match acc.1.ownerOf i.w with
      | some e =>
        if e.agent ≠ n.agent then acc
        else
          let y := if n.quiet then (acc.1, false) else acc.1.verdict n.orig i.w kind { e with relcount := n.rel }
          if y.2 then y else (act y.1 i.w, false)
      | none => acc) (s, false)

/-! ### Registration (03 R56, R59, R63, R64) -/

/-- Every word registered to the agent, the grant sent with the words' values; a stale copy of a remote word in the requester's LLC is dropped; a
store-release raises its agent's release count once more (03 R69). -/
def State.grantAll (s : State) (id : Nat) (m : Msg) : State :=
  let s := m.items.foldl (fun s i =>
    (s.register i.w m.agent).passLlc m.agent i.w) s
  let s := (if m.bump then s.bumpRelease m.agent else s).setMsg id { m with st := .answered }
  (s.send { kind := .grant, src := m.dst, dst := m.agent, agent := m.agent, orig := id, past := true
            items := m.items.map fun i => { i with val := s.wordVal i.w } }).1

/-- The writes of a copy engine's sector in one step, with their registration (03 R80); the copies that the issuing cluster's L1 and L2 hold go. -/
def State.engineAll (s : State) (id : Nat) (m : Msg) : State :=
  (m.items.foldl (fun s i =>
    (((s.setHomeWord i.w (mergeWord i.bm i.val (s.homeWord i.w))).register i.w m.agent).passLlc m.agent i.w).copyDrop
      (m.agent / 1024 * 64 + (m.agent % 1024 - 104)) i.w) s).ack id

/-- A registration at the home: an owner is sent an invalidate notice; room is made in the LLC slice, and in a full line by the revocation of its oldest entry; with nothing
in the way every word moves to the agent, and the grant is sent, or a copy engine's bytes are written. -/
def State.homeRegister (s : State) (id : Nat) (m : Msg) : State :=
  let give (s : State) : State := match m.client with | .copy _ => s.engineAll id m | _ => s.grantAll id m
  if s.serving id then s
  else
    let other := m.items.find? fun i => match s.ownerOf i.w with | some e => e.agent ≠ m.agent | none => false
    match other with
    | some i =>
      match s.ownerOf i.w with
      | some e => s.ask .inv id e.agent (m.items.filter fun j => (s.ownerOf j.w).map (·.agent) = some e.agent) false
      | none => s
    | none =>
      let w0 := (m.items.headD ⟨0, 0, 0⟩).w
      let l := s.entries w0
      match l with
      | o :: _ =>
        if l.length ≥ 4 ∧ (l.any fun e => e.agent = m.agent) = false then
          s.ask .rev id o.agent ((lineWords (w0 / 16) o.mask).map fun w => { w := w }) true
        else give s
      | [] =>
        match s.llcRoom w0 with
        | .enough => give s
        | .copies ws => ws.foldl (fun s v => s.dropAt (llcLevel (w0 / 2 ^ 44)) v) s
        | .line n => (s.entries (16 * n)).foldl (fun s e => s.ask .rev id e.agent ((lineWords n e.mask).map fun w => { w := w }) true) s

/-- True where an access of a lower lane of the same group to a byte of a request's is still to be performed (08 R165); of a registration the grant must have come. -/
def State.laneBlocked (s : State) (id : Nat) (m : Msg) : Bool :=
  s.msgs.any fun y =>
    let n := y.2
    let mask (i : Item) : Nat := if i.bm = 0 then 15 else i.bm
    decide (y.1 < id) && n.client ≠ m.client && n.agent = m.agent && n.pc = m.pc && n.ck = m.ck && n.ctx = m.ctx && n.attr = m.attr &&
      (n.attr = 0 || n.dst = m.dst) && (n.st = .queued || n.st = .flying || n.st = .accepted || (n.kind = .reg && n.st = .answered)) &&
      (n.kind = .reg || n.kind = .remote || n.kind = .atomic) &&
      (match n.client, m.client with | .thread a, .thread b => coreOf a = coreOf b | _, _ => false) &&
      n.items.any fun i => m.items.any fun j => i.w = j.w && decide (mask i &&& mask j ≠ 0)

/-- True where a registration of one of the words by an agent with a lower number has reached the home too: it is served first (03 R63). -/
def State.lowerAgent (s : State) (id : Nat) (m : Msg) : Bool :=
  s.msgs.any fun y =>
    let n := y.2
    y.1 ≠ id && n.kind = .reg && n.past && n.st = .accepted && decide (n.agent < m.agent) && n.items.any fun i => m.items.any fun j => i.w = j.w

/-- 03 R56, R61: a registration at the die's L2, which passes the whole span on unless it owns it, then at the home. -/
def execRegistrationRequest (m : Nat) (s : State) : Host.Outcome State Fault Refusal :=
  done (match s.msg m with
    | none => s
    | some x =>
      if x.kind ≠ .reg then s
      else if x.past then (if x.st ≠ .accepted ∨ s.laneBlocked m x = true ∨ s.lowerAgent m x = true then s else s.homeRegister m x)
      else if x.st ≠ .flying ∨ (x.items.any fun i => (s.buffered x.agent i.w).isSome) = true ∨ s.laneBlocked m x = true then s
      else
        let die := agentDie x.agent
        let own (i : Item) : Bool := match s.copy (l2Level die) i.w with | some c => c.owned | none => false
        if x.items.all own then
          let vs := x.items.filterMap fun i => (s.dieData die i.w).map fun v => (i.w, v)
          x.items.foldl (fun s i => s.afterGrant x i.w) (s.granted m x vs)
        else s.post m { x with past := true, dst := homeEnd (x.items.headD ⟨0, 0, 0⟩).w })

/-- The mirror of a die has no room for the entries that some words still need (20 R361). -/
def State.mirrorFull (s : State) (die : Nat) (ws : List Nat) : Bool :=
  let new := (ws.filter fun w => (tget? s.mirror (copyKey die w)).isNone).length
  !s.lost.contains (buddyOf die) && decide (new ≠ 0 ∧ (s.mirror.filter fun e => e.1 / 2 ^ 50 = die).length + new > 2 ^ 20)
/-- The die's oldest owned word is written back. -/
def State.evictOldest (s : State) (die : Nat) : State :=
  match (s.mirror.filter fun e => e.1 / 2 ^ 50 = die).foldl (fun (b : Option (Nat × Nat)) e =>
      match b with | none => some (e.2.1, e.1 % 2 ^ 50) | some x => if e.2.1 < x.1 then some (e.2.1, e.1 % 2 ^ 50) else some x) none with
  | some (_, w) =>
    if (s.buffered (dieAgent die) w).isSome then s
    else
      let s := match s.copy (l2Level die) w with
        | some c => if c.holder < 8 then s.evictL1 (die * 8 + c.holder) w else s
        | none => s
      s.evictAgent (dieAgent die) (l2Level die) w
  | none => s

/-- 03 R56, R57, R61: the grant reaches the requester and goes down its levels. -/
def execRegistrationGrant (m : Nat) (s : State) : Host.Outcome State Fault Refusal :=
  done (match s.msg m with
    | some g =>
      if g.kind ≠ .grant ∨ g.st ≠ .accepted then s
      else if g.agent % 1024 < 8 ∧ s.mirrorFull (agentDie g.agent) (g.items.map (·.w)) = true then s.evictOldest (agentDie g.agent)
      else s.applyGrant m
    | none => s)

/-- 03 R59, R61: the owner drops the words at all its levels and returns its verdict; the home takes the words and goes on with the request. -/
def execInvalidateNotice (m : Nat) (s : State) : Host.Outcome State Fault Refusal :=
  done (match s.msg m with
    | some n =>
      if n.kind ≠ .inv ∨ n.st ≠ .accepted ∨ (n.items.any fun i => s.granting i.w) = true then s
      else
        let r := s.verdicts n 1 fun s w =>
          let v := s.wordVal w
          (((s.dropAgent n.agent w).setHomeWord w v).unregister w n.agent).dropMirror n.agent w
        let s := r.1.ack m
        match s.msg n.orig with
        | some x => if r.2 then s else s.homeRegister n.orig x
        | none => s
    | none => s)

/-- 03 R60, R62: the agent writes the words back, which its buffer holds until the home has them; from then on it keeps them as valid copies. -/
def execRevocation (m : Nat) (s : State) : Host.Outcome State Fault Refusal :=
  done (match s.msg m with
    | some n =>
      if n.kind ≠ .rev ∨ n.st ≠ .accepted ∨ (n.items.any fun i => s.granting i.w) = true then s
      else
        let kind := match s.msg n.orig with | some x => if x.kind = .atomic then 3 else 1 | none => 1
        let r := s.verdicts n kind fun s _ => s
        let own := n.items.filter fun i => match s.ownerOf i.w with | some e => e.agent = n.agent && (s.buffered n.agent i.w).isNone | none => false
        let s := r.1
        let vals := own.map fun i => { i with bm := 15, val := s.wordVal i.w }
        let s := if r.2 ∨ own = [] then s
          else (s.writeBack n.agent vals .none n.orig).1
        s.ack m
    | none => s)

/-! ### Write-backs (03 R59, R62) -/

/-- 03 R59: the home writes the words that the agent still owns, and acknowledges. -/
def execWriteBack (m : Nat) (s : State) : Host.Outcome State Fault Refusal :=
  done (match s.msg m with
    | some x =>
      if x.kind ≠ .wb ∨ x.st ≠ .accepted then s
      else
        let s := x.items.foldl (fun s i =>
          match s.ownerOf i.w with
          | some e =>
            if e.agent = x.agent then
              let v := s.wordVal i.w
              (((s.keepAgent x.agent i.w v).setHomeWord i.w v).unregister i.w x.agent).dropMirror x.agent i.w
            else s
          | none => s) s
        s.answer m x x.dst
    | none => s)

/-- 03 R62: the acknowledgement frees the write-back buffer. -/
def execWriteBackAck (m : Nat) (s : State) : Host.Outcome State Fault Refusal :=
  .next (match s.msg m with
    | some x =>
      if x.kind ≠ .wb ∨ x.st ≠ .answered ∨ x.away = true then s
      else
        let s := match x.client with
          | .window core slot => (s.modWindow core slot fun w => { w with drains := w.drains.erase m }).pumpDrain core slot
          | _ => s
        s.finishMsg m
    | none => s)

/-! ### Loads (03 R58) -/

/-- The place that a virtual address names at the package of its context, for a request of an Aster unit; or a cause of 20 R355, or 18 for a negative
reply and 19 for no answer of a third package. -/
def State.peerTarget (s : State) (m : Msg) (va : Nat) (write : Bool) : State × (Target ⊕ Nat) :=
  match s.translate m.ctx [2 ^ 21 + m.ctx / 64 * 8 + agentDie m.dst % 8] (va % 2 ^ 64) { user := true, write := write } with
  | (s, .inl tg) => match s.fabricTarget (m.ctx / 64 * 1024 + m.dst % 1024) tg with | .inl tg => (s, .inl tg) | .inr c => (s, .inr (16 + c))
  | (s, .inr c) => (s, .inr c)

/-- The words of a load that are not registered: of a pin slot, of a pinned page, at a memory controller, of a device. -/
def State.uncachedWords (s : State) (m : Msg) : List Word :=
  match m.attr with
  | 1 => let k := m.pa - m.pa % 4
    m.items.zipIdx.map fun x => BitVec.ofNat 32 (s.scratchRead (k + 4 * x.2) 4)
  | 2 => m.items.map fun i => s.pinWord m.pinDie i.w
  | _ =>
    if inRegPage m.pa then
      m.items.map fun i => BitVec.ofNat 32 (s.hostLoad (m.pa / 2 ^ 46) (4 * i.w % 2 ^ 46 - 0x3F0000000000) 4)
    else if inDrive m.pa then m.items.zipIdx.map fun x => BitVec.ofNat 32 ((Config.freeDevice s.freeCount).toNat / 2 ^ (32 * (x.2 % 2)))
    else m.items.map fun i => s.homeWord i.w

/-- The words of an answer kept along the reader's path, with their tags, as they are read (03 R58, 05 R115). -/
def State.keepAnswer (s : State) (x : Msg) (l : List Item) : State :=
  if x.attr ≠ 0 ∨ x.agent % 1024 ≥ 104 then s
  else l.foldl (fun s i => s.keepWord x.level x.agent 3 i.w i.val x.region x.policy) s

/-- Words of a load read by the home or an owner: kept for the answer, and along the reader's path. -/
def State.readWords (s : State) (id : Nat) (ws : List Nat) : State :=
  match s.msg id with
  | none => s
  | some x =>
    let l := ws.map fun w => ({ w := w, val := s.wordVal w } : Item)
    (s.setMsg id { x with got := x.got ++ l }).keepAnswer x l

/-- A load whose words have all been read is answered by an endpoint. -/
def State.answerLoad (s : State) (id e : Nat) : State :=
  match s.msg id with
  | none => s
  | some x => s.answer id { x with ans := x.items.map fun i => ((x.got.find? fun j => j.w = i.w).map (·.val)).getD (s.wordVal i.w), got := [] } e

/-- True of an agent whose words a load reads where it is: the reader's own, for an Aster unit on its package those of its die too (03 R81). -/
def Msg.reads (x : Msg) (a : Nat) : Bool := a = x.agent || (match x.client with | .aster die _ => a = dieAgent die | _ => false)

/-- A load of Cached words at their home: read in one step, or forwarded to the agents that own some of them (03 R58, R77). -/
def State.homeLoad (s : State) (id : Nat) (x : Msg) : State :=
  let owner (i : Item) : Option Nat := match s.ownerOf i.w with | some e => if x.reads e.agent then none else some e.agent | none => none
  let owners := (x.items.filterMap owner).eraseDups
  if x.items.any fun i => s.granting i.w then s
  else if owners = [] then (s.readWords id (x.items.map (·.w))).answerLoad id x.dst
  else
    let s2 := match x.client with | .thread t => s.count (coreOf t) 7 1 | _ => s
    owners.foldl (fun s a => s.ask .fwd id a (x.items.filter fun i => owner i = some a) false) s2

/-- 03 R58, R52: a load at its home: answered, or forwarded to the owners. A FETCH's piece names virtual addresses of the context at its package, and is a
load of the words they translate to (10 R233). -/
def execLoadRequest (m : Nat) (s : State) : Host.Outcome State Fault Refusal :=
  done (match s.msg m with
    | some x =>
      if x.kind ≠ .load ∨ x.st ≠ .accepted ∨ s.serving m = true then s
      else
        match x.attr with
        | 0 => s.homeLoad m x
        | 4 =>
          match s.peerTarget x (4 * (x.items.headD ⟨0, 0, 0⟩).w) false with
          | (s, .inl (.cached pa)) =>
            let y := { x with attr := 0, items := x.items.zipIdx.map fun i => { i.1 with w := pa / 4 + i.2 } }
            (s.setMsg m y).homeLoad m y
          | (s, .inl tg) =>
            let s := (List.range x.items.length).foldl (fun s i => s.pinMeet tg i) s
            s.answer m { x with ans := (List.range x.items.length).map fun i => s.readAt tg i } x.dst
          | (s, .inr c) => s.answer m { x with negative := true, cause := c } x.dst
        | 2 => (x.items.foldl (fun s i => s.pinTouch x.pinDie i.w) s).answer m { x with ans := s.uncachedWords x } x.dst
        | _ => ({ s with freeCount := s.freeCount + 1 } : State).answer m { x with ans := s.uncachedWords x } x.dst
    | none => s)

/-- True while an owner has not yet answered the reader. -/
def State.forwarding (s : State) (orig : Nat) : Bool :=
  s.msgs.any fun m => m.2.orig = orig && m.2.kind = .fwd && m.2.st ≠ .finished && m.2.st ≠ .answered

/-- 03 R58: an owner's verdict goes to the home, and the last owner to be reached answers the reader with all its words as they are now (R77). -/
def execForwardedLoad (m : Nat) (s : State) : Host.Outcome State Fault Refusal :=
  done (match s.msg m with
    | some n =>
      let words := match s.msg n.orig with | some x => x.items.map (·.w) | none => []
      if n.kind ≠ .fwd ∨ n.st ≠ .accepted ∨ ((n.items.map (·.w) ++ words).any fun w => s.granting w) = true then s
      else
        let r := s.verdicts n 2 fun s _ => s
        if r.2 then r.1.ack m
        else
          let s := r.1.ack m
          if s.forwarding n.orig then s
          else
            let ws := words.map s.wordVal
            ((s.readWords n.orig words).answerLoad n.orig n.dst).storeAnswer { n with ans := ws }
    | none => s)

/-- The answer's words as the reader takes them: what its own level has stored and not yet been granted, or what its die owns by now, is newer (03 R57,
R61). -/
def State.answerWords (s : State) (x : Msg) : Msg :=
  if x.attr ≠ 0 then x else { x with ans := (x.items.zip x.ans).map fun y => s.ownWord x.level x.agent y.1.w y.2 }

/-- The bytes of an answered load. -/
def Msg.bytes (x : Msg) : Nat := bytesOf x.pa (sizeBytes x.size) x.ans

/-- A fetched piece of a FETCH written at its destination on the unit's own package (10 R233). -/
def State.fetchPut (s : State) (die n : Nat) (x : Msg) : State :=
  let sl := s.aslot die n
  let va := sl.dst + (x.va - sl.src)
  s.slotSend die n ((pieces va x.ans).map fun y => slotMsg .remote die n (die / 8 * 64 + sl.ctx) (die / 8) y.1 y.2)

/-- 03 R58: the answer reaches the reader. -/
def execLoadAnswer (m : Nat) (s : State) : Host.Outcome State Fault Refusal :=
  done (match s.msg m with
    | some x =>
      if x.kind ≠ .load ∨ x.st ≠ .answered ∨ x.away = true ∨ x.negative = true then s
      else
        match x.client with
        | .window _ _ => s
        | .aster die n => (s.fetchPut die n x).finishMsg m
        | .copy cmd => (s.copyTake cmd x (s.answerWords x).ans).finishMsg m
        | .thread t =>
          let y := s.answerWords x
          let v := loadOut x.size (Msg.bytes y)
          let s := s.deliver x.dest x.kdest (regsOf x.size) v
          let s := if x.dest = [] ∧ x.kdest = none then s.modThread t fun th => { th with heldC := Msg.bytes y } else s
          s.finishMsg m
        | _ => s.finishMsg m
    | none => s)

/-- 08 R182: the fetched words of a window's sector arrive in the scratchpad; a mapping that has ended since takes none (R185). -/
def execWindowSectorFetchDone (m : Nat) (s : State) : Host.Outcome State Fault Refusal :=
  done (match s.msg m with
    | some x =>
      match x.client, x.win with
      | .window core slot, some key =>
        if x.st ≠ .answered ∨ x.away = true ∨ x.negative = true then s
        else if (s.window core slot).fills.contains m = false then s.finishMsg m
        else
          let w := s.window core slot
          let off := key % 2 ^ 21
          let s := (x.items.zip (s.answerWords x).ans).foldl (fun s y =>
            let j := y.1.w % 8
            let n := (off - w.off) / 4 + j
            if (tget? (s.window core slot).present n).isSome then s
            else (s.scratchWrite (key + 4 * j) 4 y.2.toNat).modWindow core slot fun z => { z with present := tset z.present n x.region }) s
          let s := s.modWindow core slot fun z => { z with fills := z.fills.erase m }
          (s.finishMsg m).pumpFill core slot w.fillLeft.length
      | _, _ => s
    | none => s)

/-! ### Atomics and writes performed at the home (03 R59, R71, R81) -/

/-- The new value of an atomic's words at the home. -/
def State.atomHome (s : State) (m : Nat) (x : Msg) (old : Nat) (put : State → Nat → Word → State) : State :=
  let new := (atomLanes x.op x.size old x.lanes).2
  let s := x.items.zipIdx.foldl (fun s y => put s y.1.w (wordAt new y.2)) s
  s.answer m { x with ans := x.items.zipIdx.map fun y => wordAt old y.2 } x.dst

/-- The requester's own copies of a word that the home has written for it are stale. -/
def State.dropPath (s : State) (x : Msg) (w : Nat) : State :=
  let drop (s : State) (level : Nat) : State := match s.copy level w with | some c => if c.owned then s else s.dropAt level w | none => s
  let s := drop (drop s x.level) (llcLevel (x.agent / 1024))
  if x.agent % 1024 < 8 then drop s (l2Level (agentDie x.agent)) else s

/-- 03 R71: an atomic at its home; an owner is revoked first. -/
def execHomeAtomic (m : Nat) (s : State) : Host.Outcome State Fault Refusal :=
  done (match s.msg m with
    | some x =>
      if x.kind ≠ .atomic ∨ x.st ≠ .accepted ∨ s.serving m = true ∨ s.laneBlocked m x = true then s
      else
        match x.attr with
        | 0 =>
          match x.items.find? fun i => (s.ownerOf i.w).isSome with
          | some i =>
            match s.ownerOf i.w with
            | some e => s.ask .rev m e.agent (x.items.filter fun j => (s.ownerOf j.w).map (·.agent) = some e.agent) false
            | none => s
          | none =>
            s.atomHome m x (joinWords (x.items.map fun i => s.homeWord i.w)) fun s w v => (s.setHomeWord w v).dropPath x w
        | 1 =>
          let n := sizeBytes x.size
          let old := s.scratchRead x.pa n
          (s.scratchWrite x.pa n (atomLanes x.op x.size old x.lanes).2).answer m
            { x with ans := x.items.zipIdx.map fun y => wordAt old y.2 } x.dst
        | 2 => s.atomHome m x (joinWords (x.items.map fun i => s.pinWord x.pinDie i.w)) fun s w v => s.setPinWord x.pinDie w 15 v
        | _ =>
          if inRegPage x.pa then
            let p := x.pa / 2 ^ 46
            let off := x.pa % 2 ^ 46 - 0x3F0000000000
            let n := sizeBytes x.size
            let old := s.hostLoad p off n
            (s.hostStore p off n (atomLanes x.op x.size old x.lanes).2).answer m
              { x with ans := x.items.zipIdx.map fun y => wordAt old y.2 } x.dst
          else if inDrive x.pa then
            ({ s with freeCount := s.freeCount + 1 } : State).answer m
              { x with ans := x.items.zipIdx.map fun y => BitVec.ofNat 32 ((Config.freeDevice s.freeCount).toNat / 2 ^ (32 * y.2)) } x.dst
          else s.atomHome m x (joinWords (x.items.map fun i => s.homeWord i.w)) fun s w v => s.setHomeWord w v
    | none => s)

/-- 03 R71, R72: each lane receives the value that it fetched. -/
def execAtomicAnswer (m : Nat) (s : State) : Host.Outcome State Fault Refusal :=
  .next (match s.msg m with
    | some x =>
      if x.kind ≠ .atomic ∨ x.st ≠ .answered ∨ x.away = true ∨ x.negative = true then s
      else (s.deliverLanes x.size x.lanes (atomLanes x.op x.size (joinWords x.ans) x.lanes).1).finishMsg m
    | none => s)

/-- The new words of an element added at its home (10 R233). -/
def State.redNew (s : State) (x : Msg) (tg : Target) : Nat :=
  let n := sizeBytes x.size / 4
  atomNew .add x.size (joinWords ((List.range n).map fun i => s.readAt tg i)) (joinWords (x.items.map (·.val))) 0

/-- A write of a fired operation at the words that its address names here (10 R233, 03 R59, R60, R81): owners are revoked first, with their verdicts; then it is performed in
one step and leaves the words unowned. -/
def State.firedWrite (s : State) (m : Nat) (x : Msg) : State :=
  match x.items with
  | [] => s.ack m
  | i :: _ =>
    match s.peerTarget x (4 * i.w) true with
    | (s, .inr c) => s.answer m { x with negative := true, cause := c } x.dst
    | (s, .inl tg) =>
      let n := x.items.length
      let ws := match tg with | .cached pa => (List.range n).map (pa / 4 + ·) | _ => []
      if s.serving m ∨ (ws.any fun w => s.granting w) = true then s
      else
        match ws.find? fun w => (s.ownerOf w).isSome with
        | some w =>
          match s.ownerOf w with
          | some e => s.ask .rev m e.agent ((ws.filter fun v => (s.ownerOf v).map (·.agent) = some e.agent).map fun v => { w := v }) false
          | none => s
        | none =>
          let s := (List.range n).foldl (fun s j => s.pinMeet tg j) s
          let vs := if x.red then let y := s.redNew x tg; (List.range n).map fun j => wordAt y j else x.items.map (·.val)
          (vs.zipIdx.foldl (fun s v => s.writeAt x false tg v.2 15 v.1) s).ack m

/-- 03 R59, R81: a write performed at its home, in a pin slot, at a device. -/
def execRemoteWrite (m : Nat) (s : State) : Host.Outcome State Fault Refusal :=
  done (match s.msg m with
    | some x =>
      if x.kind ≠ .remote ∨ x.st ≠ .accepted ∨ s.laneBlocked m x = true then s
      else
        match x.attr with
        | 1 =>
          let k (i : Item) : Nat := x.pa - x.pa % 4 + 4 * (i.w - (x.items.headD i).w)
          (x.items.foldl (fun s i => s.scratchWrite (k i) 4 (mergeWord i.bm i.val (BitVec.ofNat 32 (s.scratchRead (k i) 4))).toNat) s).ack m
        | 2 => (x.items.foldl (fun s i => (s.pinTouch x.pinDie i.w).setPinWord x.pinDie i.w i.bm i.val) s).ack m
        | 4 => s.firedWrite m x
        | _ =>
          if inRegPage x.pa then
            match x.client with
            | .copy _ => (x.items.foldl (fun s i => s.writeAt x false (.never (4 * i.w)) 0 i.bm i.val) s).ack m
            | _ =>
              let n := match x.items with | [i] => (((List.range 4).filter fun j => i.bm.testBit j).length) | _ => 8
              (s.hostStore (x.pa / 2 ^ 46) (x.pa % 2 ^ 46 - 0x3F0000000000) n (joinWords (x.items.map (·.val)) / 2 ^ (8 * (x.pa % 4)))).ack m
          else if inDrive x.pa then s.ack m
          else (x.items.foldl (fun s i => s.setHomeWord i.w (mergeWord i.bm i.val (s.homeWord i.w))) s).ack m
    | none => s)

/-- 10 R233, R236: a signal raises the counter where it is granted to the posting context (19 R320: the same number, with both packages in its mask); else
it is rejected. -/
def execSignal (m : Nat) (s : State) : Host.Outcome State Fault Refusal :=
  done (match s.msg m with
    | some x =>
      if x.kind ≠ .signal ∨ x.st ≠ .accepted then s
      else
        let die := x.dst / 1024 * 8 + (x.dst % 1024 - 168)
        let v := ((x.items.headD ⟨0, 0, 0⟩).val).toNat
        let k := die / 8 * 64 + x.ctx % 64
        let poster := x.agent / 1024
        if s.arrivals.any fun a => a.msg = some m then s
        else if s.hasCounter k die x.pa && (decide (poster = die / 8) || (s.ctx k).packages.testBit (s.pkgNum poster)) && !s.lost.contains die then
          s.arrives { ck := s.clock (die / 8), die := die, num := x.pa, cls := 3, key := x.agent, act := .add v, msg := some m }
        else
          match x.client with
          | .aster d n => (s.slotFails d n 4).ack m
          | _ => s.ack m
    | none => s)

/-! ### Evictions (03 R59, R61, 05 R106) -/

/-- 03 R59: the LLC evicts a line: every entry of it is revoked, without a verdict. -/
def execLlcEvict (line : Nat) (s : State) : Host.Outcome State Fault Refusal :=
  done (if ((List.range 16).map fun j => line * 16 + j).any s.wordMoving then s
    else (s.entries (16 * line)).foldl (fun s e => s.ask .rev 0 e.agent ((lineWords line e.mask).map fun w => { w := w }) true) s)

/-- 03 R61: a level gives up a word: an L1's owned word goes to the L2, an L2's or a Marl core's to the home, another copy is dropped; an instruction
cache gives up a block. -/
def execLevelEvict (level word : Nat) (s : State) : Host.Outcome State Fault Refusal :=
  done (
    if level < 32768 then s.giveUp level word
    else { s with icache := s.icache.filter fun e => !(e.1 = level - 32768 && e.2.2.1 = word) })

end Sys2Proof.Machine
end

