-- ==== Sys2Proof/Machine/Wpe.lean ====
section
/-! DEFINITION. The Weanos portable encoding (11 R254 to R260): the image, its load errors, and its translation to native code. -/

namespace Sys2Proof.Machine

/-! ### One WPE instruction -/

/-- Word i of a code section, 128 bits. -/
def wpeWord (code i : Nat) : Nat := code / 2 ^ (128 * i) % 2 ^ 128

/-- The instruction that a WPE word stands for, with no operand registers; none where its 128-bit form and its shorter ones fail check 3 or 4 of R116. -/
def wpeInstr (w : Nat) : Option (Instr × Option Src) :=
  match rowOf (bits w 9 2) with
  | none => none
  | some r =>
    let ext := bits w 127 64
    match buildOp (bits w 9 2) (bits w 63 55) (bits w 45 37) ext true, immOf { r with l64 := true } (bits w 9 2) w with
    | some mk, some imm =>
      let i := mk ⟨hdrOf w imm.isNone, .zero, .zero, imm.getD (.fld .zero), .zero⟩
      some (i, imm)
    | _, _ => none

/-- 11 R255: len, chain, wbs, latch, operand codes, the extension of an opcode that has no 128-bit form, LPBEG's length code. -/
def wpeOk (w : Nat) : Bool :=
  let ext := bits w 127 64
  let latchCode (c : Nat) : Bool := decide (320 ≤ c ∧ c ≤ 323)
  w % 4 = 2 && bits w 18 15 = 0 && !latchCode (bits w 27 19) && !latchCode (bits w 36 28) && !latchCode (bits w 45 37) &&
    !latchCode (bits w 54 46) &&
    (match rowOf (bits w 9 2) with
     | some r => r.l128 || ext = 0 || (r.imm && bits ext 63 61 = 4)
     | none => true) &&
    (bits w 9 2 ≠ 0xC8 || bits w 61 60 = 2)

/-- True of a word whose immediate is an imm61 (R255, R256). -/
def wpeImm61 (w : Nat) : Option Nat :=
  match wpeInstr w with
  | some (_, some (.imm61 v)) => some v.toNat
  | _ => none

/-- The imm61 that the words of a WPE instruction hold, one that traps natively included (R255, R257). -/
def wpeImmField (w : Nat) : Option Nat :=
  let ext := bits w 127 64
  match rowOf (bits w 9 2) with
  | some r => if (r.ext = .generic || !r.l128) && r.imm && ext.testBit 63 then some (bits ext 60 0) else none
  | none => none

/-- BRA, CALL and LPBEG: the WPE bytes from their own offset to their target. -/
def wpeBranch (w : Nat) : Option Int :=
  if [0xC1, 0xC3, 0xC8].contains (bits w 9 2) then (wpeImm61 w).map fun v => sext v 61 else none

/-! ### Load errors (11 R257) -/

/-- The load error that the header shows by itself: 1 and 2. An image that would pass the top of the address space is shorter than its header states (log 94). -/
def wpeHeaderError (addr header : Nat) : Nat :=
  let size := bits header 95 64
  if bits header 31 0 ≠ 0x5745504E ∨ bits header 47 32 ≠ 1 ∨ bits header 63 48 ≠ 0 ∨ bits header 255 128 ≠ 0 then 1
  else if size % 16 ≠ 0 ∨ addr + 32 + size + 8 * bits header 127 96 > 2 ^ 64 then 2
  else 0

/-- The code of the first load error behind a good header, lowest code first; 0 for none. code: the code section; recs: the record section. -/
def wpeError (header code recs : Nat) : Nat :=
  let size := bits header 95 64
  let ns := List.range (size / 16)
  let rs := (List.range (bits header 127 96)).map fun i => recs / 2 ^ (64 * i) % 2 ^ 64
  let known := rs.filter fun r => decide (1 ≤ bits r 63 56 ∧ bits r 63 56 ≤ 6)
  if ns.any fun i => !wpeOk (wpeWord code i) then 3
  else if ns.any fun i => match wpeBranch (wpeWord code i) with
      | some d => !decide (0 ≤ (16 * i : Int) + d ∧ (16 * i : Int) + d < size)
      | none => false then 4
  else if known.any fun r => bits r 31 0 % 16 ≠ 0 || !decide (bits r 31 0 < size) then 5
  else if rs.any fun r => bits r 63 56 = 1 && (match wpeImmField (wpeWord code (bits r 31 0 / 16)) with
      | some v => !decide (v < size)
      | none => true) then 6
  else 0

/-! ### Lengths (11 R258, 05 R120) -/

/-- True of a native word that passes checks 3 and 4 of R116. -/
def legalWord (w : Nat) : Bool :=
  match decode w with
  | .ok _ => true
  | .bad c => decide (c ≠ 3 ∧ c ≠ 4)

/-- The base word of the shorter forms: len 0, and for a memory layout scope, policy or operation, and size in the function field. -/
def wpeBase (w : Nat) : Nat :=
  let b := bits w 63 2 * 4
  let ext := bits w 127 64
  match rowOf (bits w 9 2) with
  | some r => if r.ext = .memory then b + (bits ext 63 62 * 128 + bits ext 61 59 * 16 + bits ext 58 55) * 2 ^ 55 else b
  | none => b

/-- A memory instruction whose B names a register: its 128-bit form is illegal for that alone, and a shorter one holds no offset beside the register (05 R112); its function
field and its extension are those of a legal 128-bit form (R115). -/
def wpeRegB (w : Nat) : Bool :=
  match rowOf (bits w 9 2) with
  | some r => r.ext = .memory && r.imm && bits w 45 37 ≠ 324 && bits w 118 64 = 0 &&
      (buildOp (bits w 9 2) (bits w 63 55) (bits w 45 37) (bits w 127 64) true).isSome
  | none => false

/-- The least length in bytes that a WPE instruction may have, wherever it stands (05 R120): a branch or a relocation that does not reach from imm32 is longer
(wpeLong). -/
def wpeLength (w : Nat) (reloc : Bool) : Nat :=
  let r64 := legalWord (wpeBase w)
  let ext := bits w 127 64
  match wpeInstr w with
  | none => if wpeRegB w && r64 then 8 else 16
  | some (i, imm) =>
    let fit32 (v32 : Nat) : Bool := legalWord (wpeBase w + 1 + v32 * 2 ^ 64)
    match imm with
    | none => if r64 then 8 else 16
    | some (.imm61 v) =>
      if reloc then (if fit32 0 then 12 else 16)
      else if (wpeBranch w).isSome then (if legalWord (wpeBase w + 1) && v.toNat % 4 = 0 then 12 else 16)
      else if i.immOk && immBits (immFmt i).1 (immFmt i).2 true (v.toNat % 2 ^ 32) = immBits (immFmt i).1 (immFmt i).2 false v.toNat &&
          fit32 (v.toNat % 2 ^ 32) then 12 else 16
    | some (.off48 v) =>
      if bits ext 54 48 ≠ 0 then 16
      else if v = 0 ∧ r64 = true then 8
      else if decide (sext v.toNat 48 = sext v.toNat 32) && fit32 (v.toNat % 2 ^ 32) && bits w 45 37 = 324 then 12 else 16
    | _ => 16

/-! ### Layout (05 R118) -/

/-- Instructions placed in order from p: (offset, length), the last first; an instruction that does not fit its fetch block goes to the next one, and
takes the one before with it where the gap would be 4 bytes. -/
def layInstrs (p : Nat) (done : List (Nat × Nat)) : List Nat → List (Nat × Nat)
  | [] => done
  | n :: ns =>
    let room := 32 - p % 32
    if n ≤ room then layInstrs (p + n) ((p, n) :: done) ns
    else
      let q := p + room
      match done with
      | (_, m) :: rest => if room = 4 then layInstrs (q + m + n) ((q + m, n) :: (q, m) :: rest) ns else layInstrs (q + n) ((q, n) :: done) ns
      | [] => layInstrs (q + n) [(q, n)] ns

/-- The NOPs of a gap as bytes: 8, 12 or 16 as one, 20, 24 or 28 as two, the longer first. -/
def nopWord : Nat → Nat
  | 8 => 0x005128944A200300
  | 12 => 0x005128944A200301
  | 16 => 0x005128944A200302
  | 20 => 0x005128944A200301 + 0x005128944A200300 * 2 ^ 96
  | 24 => 0x005128944A200302 + 0x005128944A200300 * 2 ^ 128
  | 28 => 0x005128944A200302 + 0x005128944A200301 * 2 ^ 128
  | _ => 0

/-! ### Translation -/

/-- The native offset of a WPE offset: that of the instruction that holds it, and the rest; of an offset outside the code section it is the rest alone (log 56). -/
def nativeOff (map : List Nat) (o : Nat) : Nat := (map[o / 16]?).getD 0 + o % 16

/-- A native word: the immediate or offset v in a form of n bytes. -/
def nativeWord (w n v : Nat) : Nat :=
  if n = 8 then wpeBase w
  else if n = 12 then wpeBase w + 1 + v % 2 ^ 32 * 2 ^ 64
  else w

/-- The address that a relocation names, of an offset in the middle of an instruction too (log 56), and the distance that a branch jumps, in the code as it is laid out. -/
def wpeAddr (base : Nat) (map : List Nat) (v : Nat) : Nat := base + nativeOff map v
def wpeDist (map : List Nat) (i : Nat) (d : Int) : Int := (nativeOff map ((16 * i : Int) + d).toNat : Int) - nativeOff map (16 * i)

/-- The length of an instruction of the layout map: 16 where a relocated address or a branch distance does not fit imm32 (05 R113). -/
def wpeLong (base : Nat) (map relocs : List Nat) (i w n : Nat) : Nat :=
  if n ≠ 12 then n
  else
    match wpeInstr w, wpeImm61 w with
    | some (x, _), some v =>
      if relocs.contains (16 * i) then
        let a := wpeAddr base map v
        if immBits (immFmt x).1 (immFmt x).2 true (a % 2 ^ 32) = immBits (immFmt x).1 (immFmt x).2 false (a % 2 ^ 61) then 12 else 16
      else match wpeBranch w with
        | some d => if wpeDist map i d = sext (lowBits (wpeDist map i d) 32) 32 then 12 else 16
        | none => 12
    | _, _ => n

/-- The lengths, each as short as the layout that they make allows: those that do not reach grow until all do. fuel: the number of instructions. -/
def wpeRelax (base : Nat) (ws : List (Nat × Nat)) (relocs : List Nat) : Nat → List Nat → List Nat
  | 0, l => l
  | k + 1, l =>
    let map := (layInstrs 0 [] l).reverse.map (·.1)
    let l' := (ws.zip l).map fun x => wpeLong base map relocs x.1.2 x.1.1 x.2
    if l' = l then l else wpeRelax base ws relocs k l'

/-- One instruction at its place: branch distances, LPBEG's length code, relocations; one that has no legal form stays as it is. -/
def wpeEmit (base : Nat) (map lens : List Nat) (relocs : List Nat) (i w : Nat) : Nat :=
  let n := (lens[i]?).getD 16
  let v := (wpeImm61 w).getD (bits w 111 64)
  let ext (x : Nat) : Nat := w % 2 ^ 64 + (2 ^ 63 + x % 2 ^ 61) * 2 ^ 64
  if (wpeImm61 w).isSome ∧ relocs.contains (16 * i) then
    let a := wpeAddr base map v
    if n = 16 then (if legalWord (ext a) then ext a else w) else nativeWord w n a
  else
    match wpeBranch w with
    | some d =>
      let target := ((16 * i : Int) + d).toNat
      let dist := lowBits (wpeDist map i d) 61
      let len := (((lens[target / 16]?).getD 16) - 8) / 4
      let x := if bits w 9 2 = 0xC8 then w - bits w 61 60 * 2 ^ 60 + len * 2 ^ 60 else w
      let y := x % 2 ^ 64 + (2 ^ 63 + dist) * 2 ^ 64
      if n = 16 then (if v % 4 = 0 ∧ legalWord y = true then y else w) else nativeWord x n dist
    | none => nativeWord w n v

/-- The native code of a code section that stands at an address: PC map, bytes, size. -/
def wpeTranslate (base code recs nrec size : Nat) : List Nat × Nat × Nat :=
  let ws := (List.range (size / 16)).map (wpeWord code)
  let relocs := ((List.range nrec).filterMap fun i =>
    let r := recs / 2 ^ (64 * i) % 2 ^ 64
    if bits r 63 56 = 1 then some (bits r 31 0) else none)
  let is := ws.zip (List.range ws.length)
  let lens := wpeRelax base is relocs ws.length (is.map fun x => wpeLength x.1 (relocs.contains (16 * x.2)))
  let laid := (layInstrs 0 [] lens).reverse
  let map := laid.map (·.1)
  let out := (is.zip laid).foldl (fun (acc : Nat × Nat) x =>
    let w := wpeEmit base map lens relocs x.1.2 x.1.1
    (acc.1 + nopWord (x.2.1 - acc.2) * 2 ^ (8 * acc.2) + w * 2 ^ (8 * x.2.1), x.2.1 + x.2.2)) (0, 0)
  (map, out.1, out.2)

/-- A translation kept: that of the same image on the same package is used again (11 R260). -/
def State.keepNative (s : State) (n : Native) : State × Nat :=
  match s.natives.find? fun y => y.pkg = n.pkg ∧ y.image = n.image with
  | some y => (s, y.id)
  | none => ({ s with natives := { n with id := s.nextId } :: s.natives, nextId := s.nextId + 1 }, s.nextId)

/-- The image at an address loaded for a launch (11 R257 to R260): the base of the native code and its translation, or the error of R326 (4 with the load error,
13 with the translation's cause). -/
def State.loadWpe (s : State) (p ctx die addr : Nat) : State × ((Nat × Option Nat) ⊕ (Nat × Nat)) :=
  let key := p * 64 + ctx
  let path := [2 ^ 21 + die]
  match s.virtRead key path false addr 32 with
  | (s, .inr c) => (s, .inr (13, c))
  | (s, .inl header) =>
    let size := bits header 95 64
    let nrec := bits header 127 96
    if wpeHeaderError addr header ≠ 0 then (s, .inr (4, wpeHeaderError addr header))
    else
    match s.virtRead key path false (addr + 32) size with
    | (s, .inr c) => (s, .inr (13, c))
    | (s, .inl code) =>
      match s.virtRead key path false (addr + 32 + size) (8 * nrec) with
      | (s, .inr c) => (s, .inr (13, c))
      | (s, .inl recs) =>
        match wpeError header code recs with
        | 0 =>
          let base := Config.nativeBase
          let r := wpeTranslate base code recs nrec size
          let image := header + 2 ^ 256 * (code + 2 ^ (8 * size) * recs)
          let k := s.keepNative { id := 0, pkg := p, ctx := ctx, base := base, bytes := r.2.1, size := r.2.2, map := r.1, image := image }
          (k.1, .inl (base, some k.2))
        | e => (s, .inr (4, e))

/-- The native entry of a WPE offset in a launch's code (11 R259), also of one that names no instruction (log 56). -/
def State.nativeEntry (s : State) (id base o : Nat) : Nat :=
  match s.natives.find? fun n => n.id = id with
  | some n => base + nativeOff n.map o
  | none => base + o

end Sys2Proof.Machine
end

