-- ==== Sys2Proof/Machine/LaunchRec.lean ====
section
/-! DEFINITION. Launch records and tables (19 R327 to R329, R336, 12 R265 to R274): their fields, their checks, what a launch consists of, and taking one. -/

namespace Sys2Proof.Machine

/-! ### The fields of a launch record (19 R327) -/

def recPrio (r : Nat) : Nat := bits r 19 16
def recLevels (r : Nat) : Nat := bits r 22 20 + 1
def recCtx (r : Nat) : Nat := bits r 31 26
/-- Roles in the record's order: COPY, MATRIX, EPILOGUE, GENERAL. -/
def recSquads (r i : Nat) : Nat := bits r (37 + 8 * i) (32 + 8 * i)
def recBudget (r i : Nat) : Nat := 32 * 2 ^ bits r (39 + 8 * i) (38 + 8 * i)
def recCode (r : Nat) : Nat := bits r 127 64
def recTable (r : Nat) : Nat := bits r 191 128
def recParams (r : Nat) : Nat := bits r 255 192
def recRecords (r : Nat) : Nat := bits r 319 256
def recTarea (r : Nat) : Nat := bits r 383 320
def recTsize (r : Nat) : Nat := bits r 415 384
def recProduce (r : Nat) : Nat := bits r 431 416
/-- The consumed tokens, without the zeros. -/
def recConsume (r : Nat) : List Nat := ((List.range 4).map fun i => bits r (463 + 16 * i) (448 + 16 * i)).filter fun t => t ≠ 0
/-- S of the role table. -/
def recTotal (r : Nat) : Nat := ((List.range 4).map (recSquads r)).sum

/-! ### Levels (12 R265 to R268) -/

def lvExtent (e : Nat) : Nat := bits e 63 32
def lvDomain (e : Nat) : Nat := bits e 7 4
def lvScope (e : Nat) : Nat := bits e 3 2
/-- The product of the extents of the levels of a domain. -/
def lvProd (ls : List Nat) (d : Nat) : Nat := (ls.filter fun e => lvDomain e = d).foldl (fun p e => p * lvExtent e) 1
/-- The least scope of a domain (R266). -/
def leastScope : Nat → Nat
  | 4 => 1 | 5 => 2 | 6 => 3 | _ => 0
/-- The first level of a domain, or a level that stands for its absence. -/
def lvFirst (ls : List Nat) (d other : Nat) : Nat := (((List.range ls.length).filter fun j => lvDomain ((ls[j]?).getD 0) = d).head?).getD other

/-- The level at which a level table breaks R265 to R267, the first check that fails; S: the role table's squads; pkgs: packages in the domain. A gang of more
than four cores is left to R334's error (log 92). -/
def levelError (ls : List Nat) (S pkgs : Nat) : Option Nat :=
  let n := ls.length
  let at' (j : Nat) : Nat := (ls[j]?).getD 0
  let count (d : Nat) : Nat := (ls.filter fun e => lvDomain e = d).length
  match (List.range n).find? fun j =>
      bits (at' j) 31 8 ≠ 0 || bits (at' j) 1 0 ≠ 0 || decide (lvDomain (at' j) > 6) || decide (lvScope (at' j) < leastScope (lvDomain (at' j))) ||
      (decide (j > 0) && decide (lvDomain (at' j) < lvDomain (at' (j - 1)) ∨ lvScope (at' j) < lvScope (at' (j - 1)))) with
  | some j => some j
  | none =>
    let g := lvProd ls 2
    let sys := count 6
    let top := at' (n - 1)
    if lvDomain (at' 0) ≠ 0 then some 0
    else if lvProd ls 0 ≠ 64 then some (lvFirst ls 0 0)
    else if lvProd ls 1 ≠ S then some (lvFirst ls 1 (lvFirst ls 2 0))
    else if count 2 ≠ 1 ∨ (¬ (g = 1 ∨ g = 2 ∨ g = 4) ∧ g ≤ 4) then some (lvFirst ls 2 (n - 1))
    else if count 3 ≠ 1 then some (lvFirst ls 3 (n - 1))
    else if sys > 1 ∨ (sys = 1 ∧ (lvDomain top ≠ 6 ∨ lvExtent top ≠ 1)) then some (lvFirst ls 6 0)
    else if count 5 > 1 ∨ (count 5 = 1 ∧ (if sys = 1 then lvProd ls 5 > pkgs else lvProd ls 5 ≠ 1)) then some (lvFirst ls 5 0)
    else none

/-! ### What a launch consists of -/

/-- Workgroups in a gang; squads in a workgroup; gangs in a team; teams on a package; gangs on a package (R267 to R269). -/
def Launch.g (l : Launch) : Nat := if l.marl then 1 else lvProd l.levels 2
def Launch.squads (l : Launch) : Nat := if l.marl then 1 else recTotal l.body
def Launch.teamGangs (l : Launch) : Nat := if l.marl then 1 else lvProd l.levels 3
def Launch.teams (l : Launch) : Nat := if l.marl then 1 else lvProd l.levels 4
def Launch.perPackage (l : Launch) : Nat := l.teamGangs * l.teams
/-- The gangs that this package runs: none at a package index past the extent (R329), or with an extent of 0 (R268). -/
def Launch.gangs (l : Launch) : Nat := if !l.marl && decide (l.index ≥ lvProd l.levels 5) then 0 else l.perPackage
/-- The linear index of the launch's i-th gang on this package. -/
def Launch.linear (l : Launch) (i : Nat) : Nat := i + l.perPackage * l.index
/-- The scope of the completion release (R268, R336). -/
def Launch.top (l : Launch) : Scope :=
  if l.marl then .pkg else match lvScope (l.levels.getLastD 0) with | 0 => .grp | 1 => .die | 2 => .pkg | _ => .sys
/-- The die key that the i-th gang's team stands on (R329, R346). -/
def Launch.dieFor (l : Launch) (i : Nat) : Nat :=
  let t := i / max l.teamGangs 1
  if l.marl then l.die
  else match l.moved.find? fun m => m.1 = t with
    | some m => m.2
    | none => l.pkg * 8 + (l.die % 8 + t) % 8
/-- Migration allowed; the gangs use queues. -/
def Launch.migrates (l : Launch) : Bool := !l.marl && l.body.testBit 24
def Launch.queues (l : Launch) : Bool := !l.marl && l.body.testBit 25
def Launch.ctxKey (l : Launch) : Nat := l.pkg * 64 + l.ctx

/-! ### Contexts -/

/-- True of a context that is resident, not faulted and not being destroyed. -/
def State.ctxLive (s : State) (k : Nat) : Bool :=
  match tget? s.ctxs k with
  | some c => !c.faulted && c.destroying.isNone
  | none => false

/-! ### Parsing a record -/

/-- Virtual reads of the launch logic of a die: supervisor accesses that never park (R327); the value, or error 13 with its cause. -/
def State.launchRead (s : State) (ctx die va n : Nat) : State × (Nat ⊕ (Nat × Nat)) :=
  match s.virtRead ctx [2 ^ 21 + die] false va n with
  | (s, .inl x) => (s, .inl x)
  | (s, .inr c) => (s, .inr (13, c))

/-- The code of a launch is ready to run: native code that can be fetched, or a WPE image that loads (11): its base and its translation. -/
def State.loadCode (s : State) (p ctx die r : Nat) : State × ((Nat × Option Nat) ⊕ (Nat × Nat)) :=
  if r.testBit 23 then s.loadWpe p ctx die (recCode r)
  else match s.launchRead (p * 64 + ctx) die (recCode r) 4 with
    | (s, .inl _) => (s, .inl (recCode r, none))
    | (s, .inr e) => (s, .inr e)

/-- The checks of every record that need no table: error and detail. -/
def State.recordError (s : State) (p r : Nat) : Option (Nat × Nat) :=
  if bits r 15 8 ≠ 0 ∨ bits r 447 432 ≠ 0 ∨ (recProduce r :: recConsume r).any (fun t => decide (t ≥ 4096)) = true then some (1, 0)
  else if !s.ctxLive (p * 64 + recCtx r) then some (5, 0)
  else if recPrio r > 11 then some (3, 0)
  else if recRecords r % 16 ≠ 0 ∨ recTarea r % 16 ≠ 0 ∨ recTsize r % 16 ≠ 0 ∨ recTsize r < 16 ∨ recCode r % 4 ≠ 0 then some (7, 0)
  else none

/-- A launch from its record's 64 bytes, or its error; a gang that fits nowhere is error 8 (19 R334, log 92). -/
def State.parseLaunch (s : State) (die addr r : Nat) (src : Source) : State × (Launch ⊕ (Nat × Nat)) :=
  let p := die / 8
  let ctx := recCtx r
  let n := recLevels r
  if bits r 7 0 ≠ 1 then (s, .inr (1, 0))
  else
    match s.recordError p r with
    | some e => (s, .inr e)
    | none =>
      let S := recTotal r
      if (List.range 4).any (fun i => decide (recSquads r i > 32)) ∨ S = 0 ∨ S > 32 then (s, .inr (3, 0))
      else if recTable r % 16 ≠ 0 then (s, .inr (7, 0))
      else
        match s.launchRead (p * 64 + ctx) die (recTable r) 80 with
        | (s, .inr e) => (s, .inr e)
        | (s, .inl tb) =>
          let ls := (List.range n).map fun j => bits tb (64 * j + 63) (64 * j)
          if bits tb 511 (64 * n) ≠ 0 then (s, .inr (2, n))
          else
            match levelError ls S (s.hreg p 0x2118) with
            | some j => (s, .inr (2, j))
            | none =>
              let mask := (s.ctx (p * 64 + ctx)).packages
              let sys := lvDomain (ls.getLastD 0) = 6
              if sys ∧ ¬ mask.testBit (s.pkgNum p) then (s, .inr (5, 0))
              else if lvProd ls 2 > 4 ∨ ((List.range 4).map fun i => recSquads r i * recBudget r i).sum > 1024 then (s, .inr (8, 0))
              else
                match s.loadCode p ctx die r with
                | (s, .inr e) => (s, .inr e)
                | (s, .inl (base, native)) =>
                  let k := if sys then ((List.range (s.pkgNum p)).filter fun i => mask.testBit i).length else 0
                  (s, .inl { pkg := p, ctx := ctx, die := die, addr := addr, source := src, body := r, levels := ls
                             entries := (List.range 4).map fun i => bits tb (543 + 32 * i) (512 + 32 * i), index := k, base := base
                             native := native })

/-- A Marl start from its command's 64 bytes (R336), or its error. -/
def State.parseMarl (s : State) (die addr r : Nat) (src : Source) : State × (Launch ⊕ (Nat × Nat)) :=
  let p := die / 8
  let ctx := recCtx r
  let core := bits r 63 32
  if bits r 7 0 ≠ 2 ∨ bits r 25 20 ≠ 0 ∨ bits core 31 8 ≠ 0 ∨ (¬ core.testBit 7 ∧ core % 64 > 45) ∨ recTable r ≠ 0 then (s, .inr (1, 0))
  else
    match s.recordError p r with
    | some e => (s, .inr e)
    | none =>
      match s.launchRead (p * 64 + ctx) die (recCode r) 4 with
      | (s, .inr e) => (s, .inr e)
      | (s, .inl _) => (s, .inl { pkg := p, ctx := ctx, die := die, addr := addr, source := src, body := r, marl := true, base := recCode r })

/-! ### Status entries (19 R326) -/

/-- The ring sizes and places of a queue's descriptor; none where the queue is not read. -/
structure QueueView where
  ring : Nat
  n : Nat
  die : Nat
  head : Nat
  tail : Nat
  status : Nat
  deriving DecidableEq, Repr, Inhabited

def State.queueView (s : State) (p j : Nat) : Option QueueView :=
  let d := s.physRead (s.queueDesc p j) 32
  let cfg := bits d 95 64
  if cfg.testBit 7 ∧ bits cfg 31 8 = 0 ∧ 4 ≤ cfg % 16 ∧ cfg % 16 ≤ 16 then
    some { ring := p * 2 ^ 46 + bits d 63 0 % 2 ^ 46, n := 2 ^ (cfg % 16), die := p * 8 + bits cfg 6 4, head := bits d 127 96
           status := p * 2 ^ 46 + bits d 191 128 % 2 ^ 46, tail := bits d 223 192 }
  else none

/-- A status entry written: a PACKAGE-scope store-release of the host link agent. -/
def State.statusPut (s : State) (p j i st err detail : Nat) : State :=
  match s.queueView p j with
  | some q => ((s.bumpRelease (hostAgent p)).homePut (q.status + 8 * (i % q.n)) 8 (st + err % 256 * 2 ^ 8 + detail % 256 * 2 ^ 16)).bumpRelease (hostAgent p)
  | none => s

/-- A launch's status entry, where it came from a queue. -/
def State.launchStatus (s : State) (l : Launch) (st err detail : Nat) : State :=
  match l.source with
  | .queue j i => s.statusPut l.pkg j i st err detail
  | _ => s

/-! ### Taking and failing a launch -/

/-- A launch is taken (R330): its produce token is cleared, its status is 1. -/
def State.takeLaunch (s : State) (l : Launch) : State :=
  let s := s.launchStatus l 1 0 0
  let s := s.modCtx l.ctxKey fun c => if recProduce l.body = 0 then c else
    { c with tokens := tdel c.tokens (recProduce l.body), tokenScope := tdel c.tokenScope (recProduce l.body)
             tokenPend := tdel c.tokenPend (recProduce l.body) }
  { s with nextId := s.nextId + 1, launches := tset s.launches s.nextId l }

/-- A launch ends in an error (R326): no completion release, its token is not signalled. -/
def State.failLaunch (s : State) (id : Nat) (err detail : Nat) : State :=
  match s.launch id with
  | some l =>
    if l.st = .complete ∨ l.st = .failed then s
    else (s.setLaunch id { l with st := .failed }).launchStatus l 4 err detail
  | none => s

/-- A submitted record: taken, or refused; only a command queue has an entry in which an error could be reported. -/
def submitLaunch : State × (Launch ⊕ (Nat × Nat)) → State
  | (s, .inl l) => s.takeLaunch l
  | (s, .inr _) => s

/-- True of a launch whose consumed tokens are all signalled (R330). -/
def State.ready (s : State) (l : Launch) : Bool :=
  (recConsume l.body).all fun t => (tget? (s.ctx l.ctxKey).tokens t).isSome

end Sys2Proof.Machine
end

