-- ==== Sys2Proof/Machine/Matrix.lean ====
section
/-! DEFINITION. The matrix group and the matrix unit's own steps (09 R202 to R216, 14 R286 to R288, 04 R92 to R100). -/

namespace Sys2Proof.Machine

/-! ### Formats (04 R94, R95, 09 R206, R207) -/

def Planes.count : Planes → Nat
  | .tern => 1 | .int4 => 3 | .int8 => 6
/-- K blocks of a tile. -/
def Sparsity.blocks : Sparsity → Nat
  | .dense => 1 | .sp8 => 2 | .sp4 => 4
/-- Bytes of the entry indices. -/
def Sparsity.indexBytes : Sparsity → Nat
  | .dense => 0 | _ => 16384
/-- Bytes of a stationary image. -/
def imageBytes (p : Planes) (x : Sparsity) : Nat := Planes.count p * 8192 + Sparsity.indexBytes x + 32
/-- Bytes of a row record. -/
def rowPitch (x : Sparsity) : Nat := Sparsity.blocks x * 128 + 32
def drainSize : Fmt → Nat
  | .f32 => 4 | .s32 => 4 | .bf16 => 2 | .f16 => 2 | _ => 1

/-- The structure of the weights that the next MSTRM will use (09 R207): of the last MWLD gathered, else loading, else active. -/
def MatUnit.nextStructure (u : MatUnit) : Sparsity :=
  match u.queue.reverse.findSome? fun e => match e.op with | .mwld _ _ x => some x | _ => none with
  | some x => x
  | none => match u.next with | some x => x.2.2 | none => u.active.sp

/-! ### Operand checks (09 R204) -/

def adobeSize : Nat := 0x800000

/-- A scratchpad range over a window range: cause 11. -/
def State.overWindow (s : State) (core a n : Nat) : Bool :=
  (s.gangCores core).any fun c => (s.core c).windows.any fun x => rangesMeet a n ((s.core c).wg * scratchSize + x.2.off) x.2.size

/-- The span, pin-slot and copy-ring checks of a scratchpad range. -/
def State.rangeTrap (s : State) (core ctx a n kind : Nat) (ring : Bool) : Option Trap :=
  if (List.range (n / scratchSize + 2)).any fun j =>
      decide (a / scratchSize + j ≤ (a + n - 1) / scratchSize) && (s.gangCore core (a / scratchSize + j)).isNone then some ⟨8, 0, a, kind⟩
  else if (s.gangCores core).any fun c => (List.range 23).any fun i =>
      s.pinForeign c (i * 2 ^ 16) ctx && rangesMeet a n ((s.core c).wg * scratchSize + i * 2 ^ 16) (2 ^ 16) then some ⟨8, 0, a, kind⟩
  else if ring && (s.gangCores core).any fun c => rangesMeet a n ((s.core c).wg * scratchSize + ringBase) 2048 then some ⟨6, 8, 0, 0⟩
  else none

/-- The first failing check: the counts, without which there is no Adobe range, the Adobe offset and range, windows, alignment, the ranges (log 76). ranges: base, bytes,
access kind. -/
def matTrap (s : State) (core ctx : Nat) (adobe count : Bool) (ranges : List (Nat × Nat × Nat)) (ring : Bool) : Option Trap :=
  if count then some ⟨6, 10, 0, 0⟩
  else if adobe then some ⟨6, 9, 0, 0⟩
  else if ranges.any fun r => s.overWindow core r.1 r.2.1 then some ⟨6, 11, 0, 0⟩
  else
    match ranges.find? fun r => r.1 % 32 ≠ 0 with
    | some r => some ⟨7, 0, r.1, r.2.2⟩
    | none => ranges.findSome? fun r => s.rangeTrap core ctx r.1 r.2.1 r.2.2 ring

/-! ### Gathering (09 R202) -/

def State.modMat (s : State) (c : Nat) (f : MatUnit → MatUnit) : State := s.modCore c fun x => { x with mat := f x.mat }

/-- The squad of a matrix instruction leaves hold. -/
def State.matRelease (s : State) (e : MatEntry) : State :=
  (s.squadThreads e.squad).foldl (fun s t =>
    if (s.thread t).run = .hold then s.retire t (s.thread t).pc (((s.thread t).pc + e.len) % 2 ^ 64) else s) s

/-- A matrix instruction: the leader's operands are checked, then the instruction waits to be accepted; without a leader it has no effect. -/
def matrixOp (i : Instr) (o : Ops) (check : State → Issue → Nat → Option Trap) (op : State → Nat → MatOp) (s : State) :
    Host.Outcome State Fault Refusal :=
  .next (runCollective i o (fun iss ts s =>
    match s.leader ts with
    | none => (s, .done)
    | some l =>
      match check s iss l with
      | some x => (s, .trap x)
      | none =>
        let e : MatEntry := { id := s.nextId, squad := squadOf l, len := i.length, op := op s l }
        (({ s with nextId := s.nextId + 1 } : State).modMat iss.core fun u => { u with queue := u.queue ++ [e] }, .keep)) s)

/-- 09 R205. -/
def execMald (o : Ops) (f : MatFn) (s : State) : Host.Outcome State Fault Refusal :=
  matrixOp (.mald o f) o (fun s iss l =>
    let a := (s.thread l).heldA
    let b := (s.thread l).heldB
    let off := f.offset.toNat
    matTrap s iss.core (s.ctxKey l) (off % 32 ≠ 0 || decide (off + b > adobeSize)) (b = 0 || decide (b > adobeSize) || b % 32 ≠ 0) [(a, b, 1)] false)
    (fun s l => .mald (s.thread l).heldA f.offset.toNat (s.thread l).heldB) s

/-- 09 R206. -/
def execMwld (o : Ops) (f : MatFn) (s : State) : Host.Outcome State Fault Refusal :=
  matrixOp (.mwld o f) o (fun s iss l =>
    let off := (s.thread l).heldA + f.offset.toNat
    matTrap s iss.core (s.ctxKey l) (off % 32 ≠ 0 || decide (off + imageBytes f.planes f.structure' > adobeSize)) false [] false)
    (fun s l => .mwld ((s.thread l).heldA + f.offset.toNat) f.planes f.structure') s

/-- 09 R207. -/
def execMstrm (o : Ops) (f : MatFn) (s : State) : Host.Outcome State Fault Refusal :=
  matrixOp (.mstrm o f) o (fun s iss l =>
    let n := f.rows.toNat
    matTrap s iss.core (s.ctxKey l) false (n = 0 || decide (n > 256))
      [((s.thread l).heldA + f.offset.toNat, n * rowPitch (MatUnit.nextStructure (s.core iss.core).mat), 1)] false)
    (fun s l => .mstrm f.acc.toNat ((s.thread l).heldA + f.offset.toNat) f.rows.toNat f.fmt) s

/-- 09 R209. -/
def execMacc (o : Ops) (isNew : Bool) (f : MatFn) (s : State) : Host.Outcome State Fault Refusal :=
  matrixOp (.macc o isNew f) o (fun _ _ _ => none) (fun _ _ => .macc f.acc.toNat isNew) s

/-- 09 R211: the range that is written, and the bias, which is read. -/
def execMdrn (o : Ops) (f : MatFn) (s : State) : Host.Outcome State Fault Refusal :=
  matrixOp (.mdrn o f) o (fun s iss l =>
    let n := f.rows.toNat
    let x := matTrap s iss.core (s.ctxKey l) false (n = 0 || decide (n > 256))
      ((((s.thread l).heldA + f.offset.toNat, n * 256 * drainSize f.fmt, 2) : Nat × Nat × Nat) ::
        if f.bias then [((s.thread l).heldB, 1024, 1)] else []) false
    match x with
    | some x => some x
    | none => s.rangeTrap iss.core (s.ctxKey l) ((s.thread l).heldA + f.offset.toNat) (n * 256 * drainSize f.fmt) 2 true)
    (fun s l => .mdrn f.acc.toNat ((s.thread l).heldA + f.offset.toNat) (s.thread l).heldB f.rows.toNat f.fmt f.bias f.relu) s

/-- 09 R210. -/
def execMzero (o : Ops) (f : MatFn) (s : State) : Host.Outcome State Fault Refusal :=
  matrixOp (.mzero o f) o (fun _ _ _ => none) (fun _ _ => .mzero f.acc.toNat) s
/-- 09 R213. -/
def execMqsc (o : Ops) (s : State) : Host.Outcome State Fault Refusal :=
  matrixOp (.mqsc o) o (fun _ _ _ => none) (fun _ _ => .mqsc) s
/-- 09 R212. -/
def execMwait (o : Ops) (f : MatFn) (s : State) : Host.Outcome State Fault Refusal :=
  matrixOp (.mwait o f) o (fun _ _ _ => none) (fun _ _ => .mwait f.acc.toNat) s
/-- 09 R214. -/
def execMrmap (o : Ops) (s : State) : Host.Outcome State Fault Refusal :=
  matrixOp (.mrmap o) o (fun _ _ _ => none) (fun _ _ => .mrmap o) s

/-! ### Acceptance (09 R203 to R214) -/

def MatOp.isMwld : MatOp → Bool
  | .mwld _ _ _ => true | _ => false
def MatOp.isMstrm : MatOp → Bool
  | .mstrm _ _ _ _ => true | _ => false
/-- The accumulator an operation names. -/
def MatOp.acc : MatOp → Option Nat
  | .mstrm a _ _ _ => some a | .macc a _ => some a | .mdrn a _ _ _ _ _ _ => some a | .mzero a => some a | _ => none
/-- The tiles an accepted operation reads or updates. -/
def MatEntry.touched (e : MatEntry) : List Nat :=
  match e.op with
  | .mstrm _ _ _ _ => [e.tile] | .mdrn _ _ _ _ _ _ _ => [e.tile] | .mzero _ => [e.tile]
  | .macc _ isNew => if isNew then [e.tile] else [e.tile, e.old]
  | _ => []

/-- True of a tile that an MDRN or a MACC copy which has not completed reads (09 R214). -/
def MatUnit.busyTile (u : MatUnit) (t : Nat) : Bool :=
  u.ops.any fun e => match e.op with
    | .mdrn _ _ _ _ _ _ _ => e.tile = t
    | .macc _ isNew => !isNew && e.old = t
    | _ => false
/-- The lowest free tile (09 R209). -/
def MatUnit.freeTile (u : MatUnit) : Option Nat := (List.range 6).find? fun t => !u.map.contains t && !u.busyTile t
def MatUnit.tileOf (u : MatUnit) (acc : Nat) : Nat := (u.map[acc]?).getD 0

/-- The acceptance condition. -/
def MatUnit.accepts (u : MatUnit) (op : MatOp) : Bool :=
  match op with
  | .mald _ _ _ => !(u.ops.any fun e => MatOp.isMwld e.op)
  | .mwld _ _ _ => u.loading.isNone
  | .mstrm a _ _ _ => u.loading.isNone && !(u.ops.any fun e => MatOp.isMstrm e.op) &&
      !(u.ops.any fun e => match e.op with | .mdrn _ _ _ _ _ _ _ => e.tile = u.tileOf a | _ => false)
  | .macc _ _ => u.freeTile.isSome
  | .mdrn a _ _ _ _ _ _ => !(u.ops.any fun e => MatOp.isMstrm e.op && e.tile = u.tileOf a)
  | .mzero a => !(u.ops.any fun e => e.touched.contains (u.tileOf a))
  | _ => true

/-- The word of MRMAP. -/
def MatUnit.mapWord (u : MatUnit) : Nat :=
  (List.range 4).foldl (fun r i => r + u.tileOf i * 2 ^ (3 * i)) 0 +
  (List.range 6).foldl (fun r i => r + (u.map.contains i).toNat * 2 ^ (12 + i) + (u.busyTile i).toNat * 2 ^ (18 + i)) 0

/-- The head of the order of acceptance is accepted. -/
def State.matAccept (s : State) (c : Nat) (e : MatEntry) : State :=
  let u := (s.core c).mat
  let s := s.modMat c fun u => { u with queue := u.queue.tail }
  let add (e : MatEntry) : State := (s.modMat c fun u => { u with ops := u.ops ++ [e] }).matRelease e
  let hold (ws : List Nat) : State :=
    if ws = [] then s.matRelease e else s.modMat c fun u => { u with holds := u.holds ++ [{ e with waits := ws }] }
  match e.op with
  | .mald _ _ _ => add e
  | .mwld off p x =>
    (add e).modMat c fun u => { u with loading := some e.id, loaded := false, next := some (off, p, x) }
  | .macc a _ =>
    let t := u.freeTile.getD 0
    (add { e with tile := t, old := u.tileOf a }).modMat c fun u => { u with map := u.map.set a t }
  | .mqsc => hold (u.ops.map (·.id))
  | .mwait a => hold ((u.ops.filter fun x => MatOp.acc x.op = some a).map (·.id))
  | .mrmap o =>
    let iss : Issue := { core := c, slot := 0, pc := 0, threads := s.squadThreads e.squad }
    (writeAll iss o 1 (fun _ => u.mapWord) (s.squadThreads e.squad) s).matRelease e
  | .mstrm a _ _ _ => add { e with tile := u.tileOf a }
  | .mdrn a _ _ _ _ _ _ => add { e with tile := u.tileOf a }
  | .mzero a => add { e with tile := u.tileOf a }

/-- The matrix unit accepts the next instruction where its condition holds. -/
def execMatrixAccept (p c : Nat) (s : State) : Host.Outcome State Fault Refusal :=
  let k := coreKey p c
  .next (match (s.core k).mat.queue with
    | [] => s
    | e :: _ => if (s.core k).mat.accepts e.op ∧ (s.core k).stop = false then s.matAccept k e else s)

/-! ### Completion -/

/-- An accepted operation that touches one of the tiles before operation id (09 R203). -/
def MatUnit.before (u : MatUnit) (id : Nat) (tiles : List Nat) : Bool :=
  u.ops.any fun e => decide (e.id < id) && e.touched.any fun t => tiles.contains t

/-- The shadow set becomes active (09 R206). -/
def MatUnit.swap (u : MatUnit) : MatUnit :=
  match u.loading with
  | some id =>
    if u.loaded && !(u.ops.any fun e => MatOp.isMstrm e.op && decide (e.id < id)) then
      { u with active := u.shadow, shadow := {}, loading := none, loaded := false, last := u.next, next := none }
    else u
  | none => u

/-- An operation completes; the squads whose MWAIT or MQSC waited for it last go on. -/
def State.matDone (s : State) (c id : Nat) : State :=
  let s := s.modMat c fun u =>
    MatUnit.swap { u with ops := u.ops.filter fun e => e.id ≠ id, holds := u.holds.map fun e => { e with waits := e.waits.erase id } }
  let go := (s.core c).mat.holds.filter fun e => e.waits = []
  go.foldl State.matRelease (s.modMat c fun u => { u with holds := u.holds.filter fun e => e.waits ≠ [] })

def MatUnit.op (u : MatUnit) (id : Nat) : Option MatEntry := u.ops.find? fun e => e.id = id

/-- A byte of the Adobe layer: a free value until written (09 R203). -/
def State.adobeByte (s : State) (c k : Nat) : Byte :=
  match tget? (s.core c).mat.adobe k with
  | some b => b
  | none => Config.freeAdobe (s.core c).epoch (c * 2 ^ 23 + k)

/-- n bytes of a gang's local space. -/
def State.localRead (s : State) (core a n : Nat) : Nat :=
  (List.range n).foldl (fun r i => r + (s.scratchByte (scratchKey ((s.gangCore core ((a + i) / scratchSize)).getD core) ((a + i) % scratchSize))).toNat * 2 ^ (8 * i)) 0

/-- 09 R205: the bytes arrive in the Adobe layer. -/
def execMaldComplete (p c op : Nat) (s : State) : Host.Outcome State Fault Refusal :=
  let k := coreKey p c
  let u := (s.core k).mat
  .next (match u.op op with
    | some e =>
      match e.op with
      | .mald src dst n =>
        if u.ops.any fun x => decide (x.id < op) && (match x.op with | .mald _ _ _ => true | _ => false) then s
        else
          ((List.range n).foldl (fun s i =>
            let b : Byte := BitVec.ofNat 8 (s.localRead k (src + i) 1)
            s.modMat k fun u => { u with adobe := tset u.adobe (dst + i) b }) s).matDone k op
      | _ => s
    | none => s)

/-- The image that a shadow load delivers: byte i of the image at off, with the uncorrectable slice rows replaced (14 R288): trit codes 0b10, scale
bytes 0xFF, index bytes free. -/
def State.imageByte (s : State) (c off : Nat) (pl : Planes) (sp : Sparsity) (bad : List Nat) (i : Nat) : Byte :=
  if bad.contains ((off + i) / 32) then
    if i < Planes.count pl * 8192 then 0xAA
    else if i < Planes.count pl * 8192 + Sparsity.indexBytes sp then Config.freeAdobe (s.freeCount + 2 ^ 32) i
    else 0xFF
  else s.adobeByte c (off + i)

/-- The weights that an image holds (04 R95). -/
def State.latchWeights (s : State) (c off : Nat) (pl : Planes) (sp : Sparsity) (bad : List Nat) : Weights :=
  let np := Planes.count pl * 8192
  let ni := Sparsity.indexBytes sp
  let at' := s.imageByte c off pl sp bad
  { planes := pl, sp := sp
    trits := (List.range np).map fun i => (i, at' i)
    idx := (List.range ni).map fun i => (i, at' (np + i))
    squares := (List.range (2 * Sparsity.blocks sp)).map fun i => BitVec.ofNat 16 ((at' (np + ni + 2 * i)).toNat + (at' (np + ni + 2 * i + 1)).toNat * 256) }

/-- Reserved trit codes of weights (04 R92), and scales that R97 counts. -/
def Weights.reserved (w : Weights) : Nat :=
  (w.trits.map fun x => ((List.range 4).filter fun j => x.2.toNat / 4 ^ j % 4 = 2).length).sum
def Weights.badSquares (w : Weights) : Nat := (w.squares.filter fun x => !scaleOk x.toNat).length

/-- The error counts of a core rise (10 R248). -/
def State.addFmterr (s : State) (c n : Nat) : State :=
  { s with fmterr := tset s.fmterr c (tget s.fmterr c 0 + BitVec.ofNat 32 n) }
def State.addSclerr (s : State) (c n : Nat) : State :=
  { s with sclerr := tset s.sclerr c (tget s.sclerr c 0 + BitVec.ofNat 32 n) }

/-- The slice rows that a read outside a shadow load meets with an uncorrectable error; the core's counts rise (14 R288, log 37). -/
def State.meetErrors (s : State) (k : Nat) (rows : List Nat) : State × List Nat :=
  let n := s.freeCount
  let bad := rows.filter fun r => Config.softError n r = 2
  (({ s with freeCount := n + 1 } : State).modMat k fun u => { u with
    corrected := u.corrected + (rows.filter fun r => Config.softError n r = 1).length
    uncorrectable := u.uncorrectable + bad.length }, bad)
/-- The slice rows of an image. -/
def imageRows (off : Nat) (pl : Planes) (sp : Sparsity) : List Nat := (List.range (imageBytes pl sp / 32)).map (· + off / 32)
/-- A core's last MWLD replayed (09 R216): its weights are active again; it counts as it does when it latches (R206). -/
def State.replayMwld (s : State) (k off : Nat) (pl : Planes) (sp : Sparsity) : State :=
  let r := s.meetErrors k (imageRows off pl sp)
  let w := s.latchWeights k off pl sp r.2
  ((r.1.addFmterr k w.reserved).addSclerr k w.badSquares).modMat k fun u => { u with active := w, last := some (off, pl, sp) }

/-- 09 R206, 14 R288: the shadow load completes; the slice rows named corrected and uncorrectable are those met with errors. -/
def execMwldShadowComplete (p c : Nat) (corrected uncorrectable : List Nat) (s : State) : Host.Outcome State Fault Refusal :=
  let k := coreKey p c
  let u := (s.core k).mat
  .next (match u.loading, u.next with
    | some id, some (off, pl, sp) =>
      let n := imageBytes pl sp
      let early := u.ops.any fun x => decide (x.id < id) && (match x.op with | .mald _ dst m => rangesMeet dst m off n | _ => false)
      if u.loaded || early then s
      else
        let rows := imageRows off pl sp
        let bad := rows.filter fun r => uncorrectable.contains r
        let w := s.latchWeights k off pl sp bad
        let s := (s.addFmterr k w.reserved).addSclerr k w.badSquares
        let s := { s with freeCount := s.freeCount + 1 }
        let s := s.modMat k fun u => { u with
          shadow := w, loaded := true
          corrected := u.corrected + (rows.filter fun r => corrected.contains r && !bad.contains r).length
          uncorrectable := u.uncorrectable + bad.length }
        s.matDone k id
    | _, _ => s)

/-- The stationary value of entry e of a column, over the planes (04 R93). -/
def Weights.value (w : Weights) (n e : Nat) : Int :=
  (List.range (Planes.count w.planes)).foldl (fun r j =>
    r + trit ((tget w.trits (j * 8192 + n * 32 + e / 4) 0).toNat / 4 ^ (e % 4) % 4) * 3 ^ j) 0
/-- The K that entry e of a column stands for. -/
def Weights.kOf (w : Weights) (n e : Nat) : Nat :=
  let i := (tget w.idx (n * 64 + e / 2) 0).toNat / 16 ^ (e % 2) % 16
  match w.sp with
  | .dense => e
  | .sp8 => e / 8 * 16 + i
  | .sp4 => e / 4 * 16 + i
/-- The partial sum of 04 R98 for a column and a block, over the row's elements. -/
def Weights.partialSum (w : Weights) (n bt : Nat) (x : Nat → Int) : Int :=
  (List.range 128).foldl (fun r e => if w.kOf n e / 128 = bt then r + w.value n e * x (w.kOf n e) else r) 0

/-- 09 R208: the next row of a stream is combined into its tile. -/
def execMstrmRowRetire (p c op : Nat) (s : State) : Host.Outcome State Fault Refusal :=
  let k := coreKey p c
  let u := (s.core k).mat
  .next (match u.op op with
    | some e =>
      match e.op with
      | .mstrm _ src rows fmt =>
        if e.rows ≥ rows || u.before op [e.tile] then s
        else
          let w := u.active
          let nb := Sparsity.blocks w.sp
          let row := s.localRead k (src + e.rows * rowPitch w.sp) (rowPitch w.sp)
          let x (i : Nat) : Int := if fmt = .s4 then sext (row / 2 ^ (8 * i) % 16) 4 else sext (row / 2 ^ (8 * i) % 256) 8
          let strip (bt : Nat) : Nat := row / 2 ^ (8 * (nb * 128 + 2 * bt)) % 2 ^ 16
          let key (n : Nat) : Nat := e.tile * 65536 + e.rows * 256 + n
          let tiles := (List.range 256).foldl (fun tl n =>
            tset tl (key n) (BitVec.ofNat 32 ((List.range nb).foldl (fun acc bt =>
              blockStep acc (w.partialSum n bt x) (strip bt) ((w.squares[bt * 2 + n / 128]?).getD 0).toNat) (tget tl (key n) 0).toNat))) u.tiles
          let s := s.addSclerr k (((List.range nb).filter fun bt => !scaleOk (strip bt)).length)
          s.modMat k fun u => { u with
            tiles := tiles
            ops := u.ops.map fun y => if y.id = op then { y with rows := y.rows + 1 } else y }
      | _ => s
    | none => s)

/-- 09 R208: a stream whose rows have all retired ends. -/
def execMstrmComplete (p c op : Nat) (s : State) : Host.Outcome State Fault Refusal :=
  let k := coreKey p c
  .next (match (s.core k).mat.op op with
    | some e =>
      match e.op with
      | .mstrm _ _ rows _ => if e.rows = rows then s.matDone k op else s
      | _ => s
    | none => s)

/-- The elements of a tile replaced. -/
def MatUnit.setTile (u : MatUnit) (t : Nat) (f : Nat → Word) : MatUnit :=
  { u with tiles := (List.range 65536).foldl (fun tl i => if f i = 0 then tdel tl (t * 65536 + i) else tset tl (t * 65536 + i) (f i)) u.tiles }

/-- 09 R211, 04 R100: the drained rows are written to the scratchpad. -/
def execMdrnComplete (p c op : Nat) (s : State) : Host.Outcome State Fault Refusal :=
  let k := coreKey p c
  let u := (s.core k).mat
  .next (match u.op op with
    | some e =>
      match e.op with
      | .mdrn _ dst bias rows fmt useBias relu =>
        if u.before op [e.tile] then s
        else
          let es := drainSize fmt
          let s0 := s
          ((List.range (rows * 256)).foldl (fun s j =>
            let b := if useBias then some (s0.localRead k (bias + 4 * (j % 256)) 4) else none
            let v := drainElem (tget u.tiles (e.tile * 65536 + j) 0).toNat b relu fmt
            let a := dst + j * es
            s.scratchWrite (scratchKey ((s.gangCore k (a / scratchSize)).getD k) (a % scratchSize)) es v) s).matDone k op
      | _ => s
    | none => s)

/-- 09 R209: the new tile holds +0, or the copy. -/
def execMaccComplete (p c op : Nat) (s : State) : Host.Outcome State Fault Refusal :=
  let k := coreKey p c
  let u := (s.core k).mat
  .next (match u.op op with
    | some e =>
      match e.op with
      | .macc _ isNew =>
        if u.before op e.touched then s
        else
          (s.modMat k fun u => u.setTile e.tile fun i => if isNew then 0 else tget u.tiles (e.old * 65536 + i) 0).matDone k op
      | _ => s
    | none => s)

/-- 09 R210. -/
def execMzeroComplete (p c op : Nat) (s : State) : Host.Outcome State Fault Refusal :=
  let k := coreKey p c
  let u := (s.core k).mat
  .next (match u.op op with
    | some e =>
      match e.op with
      | .mzero _ => if u.before op [e.tile] then s else (s.modMat k fun u => u.setTile e.tile fun _ => 0).matDone k op
      | _ => s
    | none => s)

end Sys2Proof.Machine
end

