-- ==== Sys2Proof/Machine/Issue.lean ====
section
/-! DEFINITION. Fetching (05 R104 to R107, R116) and the core's issue in each ck (01 R17 to R28), and the events of the issue table and of trap
delivery. -/

namespace Sys2Proof.Machine

/-! ### Fetch -/

/-- The native bytes of the translated WPE image that a thread runs (11 R258), at a fetch block: 32 bytes from the block; none for native code, which runs as it
stands (R260). -/
def State.nativeBlock (s : State) (t blk : Nat) : Option Nat :=
  (s.squad (squadOf t)).native.bind fun id =>
    (s.natives.find? fun n => n.id = id ∧ n.base ≤ blk ∧ blk < n.base + n.size).map fun n => n.bytes / 2 ^ (8 * (blk - n.base)) % 2 ^ 256

/-- The newest n blocks of one instruction cache stay, and all of the others. -/
def newest (key : Nat) : Nat → List (Nat × Nat × Nat × Nat) → List (Nat × Nat × Nat × Nat)
  | _, [] => []
  | n, e :: r =>
    if e.1 ≠ key then e :: newest key n r
    else match n with
      | 0 => newest key 0 r
      | n + 1 => e :: newest key n r
/-- A fetched block kept: a full cluster instruction cache, 256 KiB (00 R3), gives up its oldest block (log 89). -/
def State.keepBlock (s : State) (core tag blk b : Nat) : State :=
  let old := if isMarl core then s.icache else newest (fetchKey core) 8191 s.icache
  { s with icache := (fetchKey core, tag, blk, b) :: old }

/-- A fetch block for a thread: held in the instruction cache, part of a translation, or read through the page tables; else a fault cause. -/
def State.fetchBlock (s : State) (t pc : Nat) : State × (Nat ⊕ Nat) :=
  let core := coreOf t
  let blk := pc - pc % 32
  match s.icache.find? fun e => e.1 = fetchKey core ∧ e.2.1 = s.fetchTag t ∧ e.2.2.1 = blk with
  | some e => (s, .inl e.2.2.2)
  | none =>
    match s.nativeBlock t blk with
    | some b => (s.keepBlock core (s.fetchTag t) blk b, .inl b)
    | none =>
      match s.translate (s.ctxKey t) (tcPath core) blk { user := !(s.thread t).supervisor, fetch := true } with
      | (s, .inr c) => (s, .inr c)
      | (s, .inl tg) =>
        let near : Bool := match tg with
          | .cached pa => (match s.ownerOf (pa / 4) with | some e => e.agent = homeAgent core | none => false)
          | _ => false
        match if near then .inl tg else s.fabricTarget (homeAgent core) tg with
        | .inr _ => (s, .inr 7)
        | .inl tg =>
          let s := (List.range 8).foldl (fun s i => s.pinMeet tg i) s
          let b := joinWords ((List.range 8).map fun i => s.targetWord tg i)
          (s.keepBlock core (s.fetchTag t) blk b, .inl b)

/-- What a PC's block holds: an instruction with its bytes, or the trap of checks 1 to 5 of 05 R116 with the bytes read. -/
inductive Framed
  | instr (i : Instr) (bytes n : Nat)
  | bad (x : Trap) (bytes n : Nat)
  deriving DecidableEq, Repr, Inhabited

/-- Framing before decoding (05 R105, R116). -/
def frame (block pc : Nat) : Framed :=
  let room := 32 - pc % 32
  let x := block / 2 ^ (8 * (pc % 32))
  let len := x % 4
  let n := 8 + 4 * len
  let cut (m : Nat) : Nat := x % 2 ^ (8 * min m room)
  if len = 3 then .bad ⟨1, 2, 0, 0⟩ (cut 16) (min 16 room)
  else if n > room then .bad ⟨2, 1, 0, 0⟩ (cut n) (min n room)
  else
    match decode (cut n) with
    | .ok i => .instr i (cut n) n
    | .bad c => .bad ⟨1, c, 0, 0⟩ (cut n) n

/-- The operands of an instruction that has none, for the end of a group that has no instruction. -/
def noOps : Ops := { h := ⟨0, false, false, false, 0, false⟩, d := .zero, a := .zero, b := .fld .zero, c := .zero }

/-- The threads of a group end without an instruction: each traps or parks at its PC. -/
def State.fetchFail (s : State) (iss : Issue) (ts : List Nat) (f : State → Nat → State × Ret) : State :=
  let iss := { iss with threads := ts }
  let r := ts.foldl (fun (acc : State × List (Nat × Ret)) t => let y := f acc.1 t; (y.1, (t, y.2) :: acc.2)) (s, [])
  r.1.finish iss (.nop noOps) noOps (r.1.chainAt iss) r.2.reverse

/-- A group fetches its instruction; threads whose block cannot be fetched, or does not hold an instruction, trap or park; the rest of the group and
its instruction are what issues. -/
def State.fetch (s : State) (iss : Issue) : State × Option Instr :=
  let part (sup : Bool) : List Nat := iss.threads.filter fun t => (s.thread t).supervisor = sup
  let one (acc : State × Option (Instr × Nat × Nat × List Nat)) (ts : List Nat) : State × Option (Instr × Nat × Nat × List Nat) :=
    match ts with
    | [] => acc
    | t :: _ =>
      match acc.1.fetchBlock t iss.pc with
      | (s, .inr c) => (s.fetchFail iss ts (fun s t => s.xlateFault t iss.pc c 4), acc.2)
      | (s, .inl b) =>
        match frame b iss.pc with
        | .bad x bytes n => (s.fetchFail { iss with bytes := bytes, nbytes := n } ts (fun s _ => (s, .trap x)), acc.2)
        | .instr i bytes n =>
          match acc.2 with
          | none => (s, some (i, bytes, n, ts))
          | some y => (s, some (y.1, y.2.1, y.2.2.1, iss.threads.filter fun u => y.2.2.2.contains u || ts.contains u))
  let r := one (one (s, none) (part false)) (part true)
  match r.2 with
  | none => ({ r.1 with issue := none }, none)
  | some (i, bytes, n, ts) => ({ r.1 with issue := some { iss with bytes := bytes, nbytes := n, threads := ts } }, some i)

/-! ### Readiness (01 R17, R28) -/

/-- The instruction at a thread's PC, where its block can be read. -/
def State.peek (s : State) (t : Nat) : Option Instr :=
  match (s.fetchBlock t (s.thread t).pc).2 with
  | .inr _ => none
  | .inl b => match frame b (s.thread t).pc with | .instr i _ _ => some i | .bad _ _ _ => none

/-- The v registers that a thread's instruction reads, as physical registers, each half of a pair apart. -/
def State.readsV (s : State) (t : Nat) (fs : List (Fld × Nat)) : List Nat :=
  let b := (s.squad (squadOf t)).base
  let r := (s.thread t).rotNow
  fs.flatMap fun f => match f.1 with | .v n => (List.range f.2).map fun j => physReg b r (n.toNat + j) | _ => []

/-- True of an operand in flight. -/
def State.inFlightAt (s : State) (ck : Nat) (b : Busy) : Bool :=
  match b.msg with
  | some id => s.live id
  | none => decide (b.ready > ck)

/-- Operand wait: a source, or the destination, is still in flight (01 R17, R28, log 15). -/
def State.operandWait (s : State) (t : Nat) (i : Instr) (slot : Option Slot) : Bool :=
  match i.ops with
  | none => false
  | some o =>
    let th := s.thread t
    let ck := (s.core (coreOf t)).ck
    let fs := (o.d, (widthsOf i).1) :: impliedDst i ++ sources i o
    let vs := s.readsV t fs
    let ps := (2048 + o.h.guard.toNat) :: fs.filterMap fun f => match f.1 with | .pred p => some (2048 + p.toNat) | _ => none
    let ks := fs.flatMap fun f => match f.1 with | .k n => (List.range f.2).map fun j => n.toNat + j | _ => []
    let bs := fs.filterMap fun f => match f.1 with | .b n => some n.toNat | _ => none
    (th.busy.any fun b => s.inFlightAt ck b && (vs.contains b.res || ps.contains b.res)) ||
    ((s.squad (squadOf t)).kbusy.any fun b => s.inFlightAt ck b && ks.contains b.res) ||
    (match slot with | some x => x.lbusy.any fun b => decide (b.ready > ck) && bs.contains b.res | none => false)

/-- True of a thread of the table that is not in operand wait: its sources, a latch of its open chain among them, have come; those of an instruction that it
has not left have. -/
def State.hasOperands (s : State) (t : Nat) : Bool :=
  (s.thread t).first.isSome || match s.peek t with
    | some i => !s.operandWait t i ((s.openChain t).map fun x => (s.core (coreOf t)).slot x.1)
    | none => true

/-! ### Waking and placing (01 R17, R18) -/

/-- A batch is complete when every command sealed in batches up to b has ended (08 R201). -/
def Thread.batchDone (th : Thread) (b : Nat) : Bool :=
  th.copies.all fun c => !decide ((b + 2 ^ 16 - c.1) % 2 ^ 16 < 2 ^ 15 ∧ (th.sealed + 2 ^ 16 - c.1) % 2 ^ 16 < 2 ^ 15)

/-- True where what a blocked thread waits for has come. -/
def State.released (s : State) (th : Thread) : Bool :=
  match th.run with
  | .blocked (.barrier c b token) => s.behind c b token ≠ 0
  | .blocked (.batch b) => th.batchDone b
  | .blocked (.window c i) => (s.window c i).part = [] && (s.window c i).fills.all fun id => !s.live id
  | .blocked .msgs => !s.live th.token
  | .blocked .again => true
  | _ => false

/-- The kernel's identity (01 R16): its code and its context. -/
def State.kernelOf (s : State) (t : Nat) : Nat :=
  let q := s.squad (squadOf t)
  (match q.native with | some n => 2 ^ 70 * (n + 1) | none => 0) + q.kernel * 64 + q.ctx

/-- The set of a PC (01 R18). -/
def setOf (pc : Nat) : Nat := (bits pc 7 2 ^^^ bits pc 13 8 ^^^ bits pc 19 14) % 64

/-- A ready thread takes its place: the entry of its PC, or a free way of its set, or none. -/
def Core.place (c : Core) (t pc kernel since yield : Nat) : Core :=
  if c.entries.any fun e => e.pc = pc ∧ e.kernel = kernel then
    { c with entries := c.entries.map fun e => if e.pc = pc ∧ e.kernel = kernel then
        { e with members := e.members ++ [(t, c.ck)], yieldUntil := max e.yieldUntil yield } else e }
  else if (c.entries.filter fun e => setOf e.pc = setOf pc).length < 4 then
    { c with entries := c.entries ++ [{ pc := pc, kernel := kernel, alloc := c.ck, members := [(t, c.ck)], yieldUntil := yield }] }
  else { c with unplaced := c.unplaced ++ [(t, since)] }

/-- The table at the start of a ck: threads that moved leave their entries, empty entries are freed, threads released from a state of 01 R17's and ready
threads without a place take one, the longest unplaced first. The 32 ck of a YIELD go to the entry that the thread takes (09 R221). -/
def State.arrange (s : State) (k : Nat) : State :=
  let s : State := { s with threads := s.threads.map fun x => if coreOf x.1 = k && !x.2.run.waits && s.released x.2 then (x.1, { x.2 with run := .ready }) else x }
  let ready (t : Nat) : Bool := (s.thread t).run = .ready
  let s := s.modCore k fun c => { c with
    entries := (c.entries.map fun e => { e with members := e.members.filter fun m => ready m.1 && (s.thread m.1).pc = e.pc }).filter fun e =>
      e.members ≠ [] }
  let c := s.core k
  let held (t : Nat) : Bool := c.entries.any fun e => e.members.any fun m => m.1 = t
  let old := c.unplaced.filter fun u => ready u.1
  let new := ((s.threads.filter fun x => coreOf x.1 = k && ready x.1 && !held x.1 && !(old.any fun u => u.1 = x.1)).map fun x => (x.1, c.ck))
  let s := s.setCore k { c with unplaced := [] }
  (old ++ new).foldl (fun s u =>
    let s := s.modCore k fun c => c.place u.1 (s.thread u.1).pc (s.kernelOf u.1) u.2 (s.thread u.1).yieldUntil
    if (s.core k).unplaced.any fun x => x.1 = u.1 then s else s.modThread u.1 fun th => { th with yieldUntil := 0 }) s

/-! ### Groups (01 R19 to R21) -/

/-- 01 R20: another ready thread of the squad in the table stands at a lower PC; handler threads neither defer nor are deferred (log 16). -/
def State.deferred (s : State) (k t : Nat) : Bool :=
  !(s.thread t).inHandler && (s.core k).entries.any fun e => decide (e.pc < (s.thread t).pc) && e.members.any fun m =>
    squadOf m.1 = squadOf t && m.1 ≠ t && !(s.thread m.1).inHandler && s.hasOperands m.1

/-- A group that can issue: its entry's PC, allocation ck, age, kernel, instruction, threads in lane order. -/
structure Cand where
  pc : Nat
  alloc : Nat
  aged : Bool := false
  kernel : Nat
  instr : Option Instr
  threads : List Nat
  deriving DecidableEq, Repr, Inhabited

/-- The thread of an entry that a lane gives: the one that has stood longest, then the lower squad slot. -/
def pickLane (ms : List (Nat × Nat)) (lane : Nat) : Option Nat :=
  (((ms.filter fun m => laneOf m.1 = lane).foldl (fun (b : Option (Nat × Nat)) m =>
    match b with
    | none => some m
    | some x => if m.2 < x.2 ∨ (m.2 = x.2 ∧ m.1 < x.1) then some m else some x) none)).map (·.1)

/-- The members of a core's open chains: no other group takes them (01 R26). -/
def Core.inChain (c : Core) (t : Nat) : Bool :=
  [c.slot0, c.slot1].any fun x => match x.chain with | some ch => ch.members.contains t | none => false

/-- The group of an entry. A thread that comes back to an instruction it has not left is taken with the threads of the group in which it issued only (log 98). -/
def State.group (s : State) (k : Nat) (e : Entry) : Option Cand :=
  let able := e.members.filter fun m => !(s.core k).inChain m.1 && s.hasOperands m.1 && (e.aged || !s.deferred k m.1)
  let free := able.filter fun m => (s.thread m.1).origin = (s.thread (able.headD (0, 0)).1).origin
  let ts := (List.range 64).filterMap (pickLane free)
  match ts with
  | [] => none
  | t :: _ => some { pc := e.pc, alloc := e.alloc, aged := e.aged, kernel := e.kernel, instr := s.peek t, threads := ts }

/-- The ranking of 01 R21. Aged entries with equal allocation ck, of which it does not speak, keep the order in which they stand in the table (log 98). -/
def Cand.before (a b : Cand) : Bool :=
  if a.aged && b.aged then decide (a.alloc < b.alloc)
  else if a.aged ≠ b.aged then a.aged
  else decide (a.pc < b.pc) || (a.pc = b.pc && decide (a.alloc < b.alloc))
def insertCand (a : Cand) : List Cand → List Cand
  | [] => [a]
  | b :: r => if a.before b then a :: b :: r else b :: insertCand a r

/-- The groups of a core, ranked; an entry in its YIELD window of 32 ck counts only where no other is eligible (09 R221). -/
def State.cands (s : State) (k : Nat) : List Cand :=
  let es := (s.core k).entries
  let ck := (s.core k).ck
  let go (es : List Entry) : List Cand := (es.filterMap (s.group k)).foldl (fun l c => insertCand c l) []
  match go (es.filter fun e => e.yieldUntil ≤ ck) with
  | [] => go (es.filter fun e => e.yieldUntil > ck)
  | l => l

/-- The group of an open chain: its members at their next PC, where every one of them can issue (01 R26). -/
def State.chainCand (s : State) (k slot : Nat) : Option Cand :=
  let x := (s.core k).slot slot
  match x.chain with
  | none => none
  | some ch =>
    match ch.members with
    | [] => none
    | t :: _ =>
      if ch.members.any fun u =>
          (s.thread u).done || !s.hasOperands u || decide ((s.thread u).run ≠ .ready) || decide ((s.thread u).pc ≠ (s.thread t).pc) then none
      else some { pc := (s.thread t).pc, alloc := ch.alloc, kernel := s.kernelOf t, instr := s.peek t, threads := ch.members }

/-! ### Ports and banks (01 R22, R23) -/

/-- Reads of a lane from a bank. -/
def State.bankReads (s : State) (c : Cand) (lane bank : Nat) : Nat :=
  match c.instr, c.threads.find? fun t => laneOf t = lane with
  | some i, some t =>
    match i.ops with
    | some o => ((s.readsV t (sources i o)).filter fun r => r % 4 = bank).length
    | none => 0
  | _, _ => 0
/-- An instruction that needs more than two reads from one bank (01 R22). -/
def State.wideReads (s : State) (c : Cand) : Bool :=
  (List.range 64).any fun l => (List.range 4).any fun b => decide (s.bankReads c l b > 2)
def Cand.port (c : Cand) : Port := match c.instr with | some i => portOf i | none => .ctl
/-- Arithmetic pipes free in this ck. -/
def Core.freePipes (c : Core) : Nat := (decide (c.pipe0 ≤ c.ck)).toNat + (decide (c.pipe1 ≤ c.ck)).toNat
/-- A group's needs can be met by itself. -/
def State.canIssue (s : State) (k : Nat) (c : Cand) : Bool := c.port ≠ .arith || decide ((s.core k).freePipes ≥ 1)
/-- Two picks conflict on a port or a bank's read ports. -/
def State.conflict (s : State) (k : Nat) (a b : Cand) : Bool :=
  (if a.port = .arith && b.port = .arith then decide ((s.core k).freePipes < 2) else a.port = b.port) || s.wideReads a || s.wideReads b ||
    (List.range 64).any fun l => (List.range 4).any fun n => decide (s.bankReads a l n + s.bankReads b l n > 2)

/-- The older of two groups (01 R23). -/
def Cand.older (a b : Cand) : Bool := decide (a.alloc < b.alloc) || (decide (a.alloc = b.alloc) && decide (a.pc < b.pc))

/-- The picks of one ck (01 R23): slot and group, the older group first (R15). -/
def State.choose (s : State) (k : Nat) : List (Nat × Cand) :=
  let c := s.core k
  let all := (s.cands k).filter (s.canIssue k)
  let take (slot : Nat) (l : List Cand) : Option Cand :=
    if (c.slot slot).until' > c.ck then none
    else if (c.slot slot).chain.isSome then (s.chainCand k slot).bind fun g => if s.canIssue k g then some g else none
    else l.head?
  let a := take 0 all
  let rest := match a with
    | some g => all.filter fun h => h ≠ g && h.kernel = g.kernel
    | none => all
  let b := if isMarl k then none else take 1 rest
  match a, b with
  | none, none => []
  | some g, none => [(0, g)]
  | none, some h => [(1, h)]
  | some g, some h =>
    if s.conflict k g h then if h.older g then [(1, h)] else [(0, g)]
    else if h.older g then [(1, h), (0, g)] else [(0, g), (1, h)]

/-- How long a group occupies an arithmetic pipe: 2 ck for the floating-point group in f64 and the 64-bit multiplies and divisions (01 R22, 07 R135). -/
def Cand.pipeTime (c : Cand) : Nat := match c.instr with | some i => if isDouble i then 2 else 1 | none => 1

/-- The pipes and slots that a pick occupies (01 R22). -/
def State.occupy (s : State) (k slot : Nat) (g : Cand) : State :=
  let wide := s.wideReads g
  s.modCore k fun c =>
    let c := c.setSlot slot { c.slot slot with until' := c.ck + if wide then 2 else 1 }
    if g.port = .arith then
      let n := c.ck + g.pipeTime
      if c.pipe0 ≤ c.ck then { c with pipe0 := n } else { c with pipe1 := n }
    else c

/-- The wait counts of the entries (01 R21): up by one where a ready thread stood and nothing issued, zero where the entry issued. -/
def State.waits (s : State) (k : Nat) (picks : List (Nat × Cand)) : State :=
  s.modCore k fun c => { c with entries := c.entries.map fun e =>
    if (picks.any fun p => decide (p.2.pc = e.pc ∧ p.2.kernel = e.kernel)) = true then { e with wait := 0, aged := false }
    else if (e.members.any fun m => s.hasOperands m.1) = true then
      { e with wait := e.wait + 1 }
    else e }

/-- The traps of a core's squads that may be delivered in this ck (01 R32). -/
def State.settleCore (s : State) (k : Nat) : State :=
  ((List.range 32).map (squadKey k)).foldl (fun s q => if (s.squad q).trapped = [] then s else s.settleTraps q) s

/-- True of a thread in the middle of an instruction that has issued: its access or operation is under way or over, and it has not retired. A thread whose
arrival at a barrier was counted only waits (08 R168). -/
def State.midway (s : State) (t : Nat) : Bool :=
  (s.thread t).phase ≠ 0 && match (s.thread t).run with
    | .blocked (.barrier _ _ _) => false
    | _ => match s.peek t with
      | some (.bararv _ _) => false
      | some (.barwait _ _) => false
      | some (.barsync _ _) => false
      | _ => true
/-- The threads of a core whose access or operation waits at an instruction that has issued go on with it, those of one group together, in no slot and as
often as their wait may be over (08 R168). -/
def State.resumes (s : State) (k : Nat) (may : Nat → Bool) : List Issue :=
  let ts := (s.threads.filter fun x => decide (coreOf x.1 = k) && (x.2.run.waits || x.2.done) && may x.1 &&
    !s.picks.any fun p => p.threads.contains x.1).map (·.1)
  let go := (ts.filter fun t => !(s.thread t).done && s.released (s.thread t)).map fun t => ((s.thread t).pc, (s.thread t).origin)
  go.eraseDups.map fun g =>
    let us := ts.filter fun t => ((s.thread t).pc, (s.thread t).origin) = g
    { core := k, slot := match g.2 with | some x => x.2.1 | none => 0, pc := g.1, again := true
      threads := (List.range 64).flatMap fun l => us.filter fun t => laneOf t = l }
/-- A core whose gang has stopped issues nothing more; what has issued comes to its end (19 R338): threads in the middle of an instruction go on once what
they wait for has come. -/
def State.finishIssued (s : State) (k : Nat) : State :=
  let ts := (s.threads.filter fun x => coreOf x.1 = k ∧ (x.2.run = .ready ∨ s.released x.2 = true) ∧ x.2.run.waits = false ∧ s.midway x.1 = true ∧
    (s.picks.any fun p => p.threads.contains x.1) = false).map (·.1)
  let on := s.resumes k s.midway
  let s := ts.foldl (fun s t => s.modThread t fun th => { th with run := .ready }) s
  { s with picks := s.picks ++ on ++ ts.map fun t => { core := k, slot := 0, pc := (s.thread t).pc, threads := [t], again := true } }

/-- The picks that issue an instruction, and do not come back to one that has issued before. -/
def State.firsts (s : State) (picks : List (Nat × Cand)) : List (Nat × Cand) :=
  picks.filter fun x => x.2.threads.all fun t => (s.thread t).first = none

/-- One ck of a core: CLOCK, pending traps, the table, up to two picks, the event counters (22 R392). Nothing new issues in a core whose gang has stopped;
a held package's clocks stand, and a lost die's (22 R385). -/
def State.issueStep (s : State) (k : Nat) : State :=
  let p := pkgOf k
  if s.held p ∨ (isMarl k = false ∧ (s.lost.contains (dieOf k) ∨ s.dead.contains (dieOf k))) then s
  else
    let ck := (s.core k).ck
    let s := s.settleArrivals p ck
    let s := if ck ≥ s.clock p then { s with clocks := tset s.clocks p (ck + 1) } else s
    let s := s.modCore k fun c => { c with ck := c.ck + 1 }
    let s := s.count k 1 1
    let holds := (s.threads.filter fun x => coreOf x.1 = k ∧ x.2.run = .hold).length
    let s := if isMarl k then s else s.count k 12 holds
    let streaming : Bool := (s.core k).mat.ops.any fun e => match e.op with | .mstrm _ _ _ _ => true | _ => false
    let s := if isMarl k || streaming then s else s.count k 11 1
    if s.rests p then s
    else if (s.core k).stop then s.finishIssued k
    else
      let s := (s.settleCore k).arrange k
      let on := s.resumes k fun _ => true
      let picks := s.choose k
      let new := s.firsts picks
      let s := new.foldl (fun s x => s.count k 4 x.2.threads.length) (s.count k 2 new.length)
      let s := if new.length = 2 then s.count k 3 1 else s
      let s := (picks.foldl (fun s x => s.occupy k x.1 x.2) s).waits k picks
      { s with picks := s.picks ++ on ++ picks.map fun x => { core := k, slot := x.1, pc := x.2.pc, threads := x.2.threads } }

/-- 01 R23. -/
def execIssueCk (p c : Nat) (s : State) : Host.Outcome State Fault Refusal := .next (s.issueStep (coreKey p c))

/-- 01 R21: an entry whose wait count has reached 1,024 ages. -/
def execEntryAged (p c pc : Nat) (s : State) : Host.Outcome State Fault Refusal :=
  .next (s.modCore (coreKey p c) fun x => { x with entries := x.entries.map fun e =>
    if e.pc = pc ∧ e.wait ≥ 1024 then { e with aged := true } else e })

/-- 09 R221: the 32 ck of an entry's lowered priority have passed. -/
def execYieldWindowEnd (p c pc : Nat) (s : State) : Host.Outcome State Fault Refusal :=
  .next (s.modCore (coreKey p c) fun x => { x with entries := x.entries.map fun e =>
    if e.pc = pc ∧ e.yieldUntil ≤ x.ck then { e with yieldUntil := 0 } else e })

/-- 01 R32, 10 R243: the oldest pending trap of a squad is delivered where none is in its handler. -/
def execTrapDelivery (p c squad : Nat) (s : State) : Host.Outcome State Fault Refusal :=
  .next (s.settleTraps (squadKey (coreKey p c) squad))

end Sys2Proof.Machine
end

