-- ==== Sys2Proof/Machine/Xlate.lean ====
section
/-! DEFINITION. The ends of window fills and drains (08 R183, R184), region entries taken (08 R173), translation faults (20 R353), shootdowns (20 R357). -/

namespace Sys2Proof.Machine

/-! ### Windows -/

/-- 08 R183, 13 R283: every sector has been requested and returned: FULL if every word is present, else EMPTY. -/
def execWfillComplete (p c slot : Nat) (s : State) : Host.Outcome State Fault Refusal :=
  let k := coreKey p c
  let w := s.window k slot
  done (
    if w.st ≠ .filling ∨ (w.fills.any fun id => s.live id) = true then s
    else if w.fillLeft ≠ [] then s.pumpFill k slot w.fillLeft.length
    else
      let full := (List.range (w.size / 4)).all fun j => (tget? w.present j).isSome
      s.modWindow k slot fun x => { x with st := if full then .full else .empty, fills := [] })

/-- 08 R184: every write-back has been acknowledged. -/
def execWdrainComplete (p c slot : Nat) (s : State) : Host.Outcome State Fault Refusal :=
  let k := coreKey p c
  let w := s.window k slot
  .next (
    if w.st ≠ .draining ∨ w.drains ≠ [] ∨ s.windowPending k slot = true then s
    else if s.ownedWords k slot ≠ [] then s.pumpDrain k slot
    else s.modWindow k slot fun x => { x with st := if x.wasFull then .full else .empty })

/-! ### Regions -/

/-- 08 R173: the package's dies and Marl cores take a region entry; the threads that wait for no other package go on. -/
def execRegionEntryTaken (p ctx r : Nat) (s : State) : Host.Outcome State Fault Refusal :=
  .next (
    let now := s.regionMsgs.filter fun m => m.1 = p ∧ m.2.1 = ctx ∧ m.2.2.1 = r
    now.foldl (fun s m =>
      let s := s.modCtx (p * 64 + ctx) fun c =>
        { c with regions := if m.2.2.2.2.1 = 0 then tdel c.regions r else tset c.regions r (m.2.2.2.1, m.2.2.2.2.1) }
      { s with regionMsgs := s.regionMsgs.erase m }) s)

/-! ### Translation faults -/

/-- The access that a thread's next instruction makes: its address, size and write, for the kinds of 10 R242. -/
def State.nextAccess (s : State) (t kind : Nat) : Option (Nat × Nat × Bool) :=
  let iss : Issue := { core := coreOf t, slot := 0, pc := (s.thread t).pc, threads := [t] }
  match s.peek t with
  | none => none
  | some i =>
    match i.ops with
    | none => none
    | some o =>
      if !(s.thread t).guard o.h || ((sources i o).any fun f => match f.1 with | .b _ => true | _ => false) || s.operandWait t i none then none
      else
        match i, kind with
        | .ld o f, 1 => some (s.globalAddr iss t (.ld o f) o, sizeBytes f.size, false)
        | .st o f, 2 => some (s.globalAddr iss t (.st o f) o, sizeBytes f.size, true)
        | .stRel o f, 2 => some (s.globalAddr iss t (.stRel o f) o, sizeBytes f.size, true)
        | .atom o f, 3 => some (s.globalAddr iss t (.atom o f) o, sizeBytes f.size, true)
        | .atoml o f, 3 => some (s.globalAddr iss t (.atoml o f) o, sizeBytes f.size, true)
        | _, _ => none

/-- A thread's access at an address has met a translation fault: the thread parks or takes trap code 9 at its instruction. -/
def State.faultThread (s : State) (t a cause kind : Nat) : State :=
  let pc := (s.thread t).pc
  match s.xlateFault t a cause kind with
  | (s, .stay r) => (s.breakChain t).hold t r
  | (s, .trap x) =>
    let b := s.bytesAt (coreOf t) (s.fetchTag t) pc
    (s.breakChain t).takeTrap (squadOf t) { code := x.code, cause := x.cause, pc := pc, epc := s.chainHead t, data := x.data, kind := x.kind
                                            nbytes := b.2, bytes := b.1, mask := laneMask [t] }
  | (s, _) => s

/-- 20 R353: an access of a ready thread meets a translation fault: the thread parks, or takes trap code 9; an open chain goes back to its head (01 R27). -/
def execTranslationFault (p c squad lane : Nat) (va : BitVec 64) (kind : BitVec 3) (s : State) : Host.Outcome State Fault Refusal :=
  let t := threadKey (squadKey (coreKey p c) squad) lane
  let th := s.thread t
  let fetch := decide (kind.toNat = 4)
  let acc : Option (Nat × Nat × Bool) := if fetch then some (th.pc, 1, false) else s.nextAccess t kind.toNat
  done (
    if (tget? s.threads t).isNone ∨ th.run ≠ .ready ∨ (s.picks.any fun x => x.threads.contains t) = true ∨ th.phase ≠ 0 then s
    else
      match acc with
      | none => s
      | some (a, n, w) =>
        if a ≠ va.toNat ∨ a % n ≠ 0 then s
        else
          match s.translate (s.ctxKey t) (tcPath (coreOf t)) a { user := !th.supervisor, fetch := fetch, write := w } with
          | (_, .inl _) => s
          | (s, .inr cause) => s.faultThread t a cause kind.toNat)

/-! ### Shootdowns (20 R357) -/

/-- A page's address as software gives it: the caches keep its low 57 bits (20 R349). -/
def upperHalf (va : Nat) : Nat := if va < 2 ^ 57 ∧ va.testBit 56 = true then va + (2 ^ 64 - 2 ^ 57) else va
/-- True of a page of a shootdown's range. -/
def Shootdown.hits (x : Shootdown) (va n : Nat) : Bool := x.all || rangesMeet x.base x.size (upperHalf va) n

/-- The cores of a package that run gangs of a context. -/
def State.coresOfCtx (s : State) (ctx : Nat) : List Nat :=
  (s.cores.filter fun c => match c.2.gang.bind s.gang with | some g => s.gangCtx g = ctx | none => false).map (·.1)

/-- The bound windows of a context whose global range meets the shootdown: core and slot. -/
def State.shotWindows (s : State) (ctx : Nat) (x : Shootdown) : List (Nat × Nat) :=
  (s.coresOfCtx ctx).flatMap fun c =>
    ((s.core c).windows.filter fun w => w.2.st ≠ .unbound && Shootdown.hits x w.2.base w.2.size).map fun w => (c, w.1)

/-- The words of a window in the shot pages, by place. -/
def Window.shot (w : Window) (x : Shootdown) : List Nat :=
  (w.present.map (·.1)).filter fun j => Shootdown.hits x (w.base + 4 * j) 4

/-- The cache id's package. -/
def tcPkg (id : Nat) : Nat :=
  if id < 2 ^ 20 then id / 512 else if id < 2 ^ 21 then (id - 2 ^ 20) / 64 else if id < 2 ^ 22 then (id - 2 ^ 21) / 8 else (id - 2 ^ 22) / 8

/-- The physical words of a window's shot words, where the L1 records them. -/
def State.shotCopies (s : State) (core : Nat) (w : Window) (x : Shootdown) : List Nat :=
  (s.copies.filter fun c => c.1 / 2 ^ 50 = l1Level (clusterOf core) &&
    (match c.2.win with
     | some k => decide (scratchKey core w.off ≤ k ∧ k < scratchKey core w.off + w.size) && Shootdown.hits x (w.base + (k - scratchKey core w.off)) 4
     | none => false)).map fun c => c.1 % 2 ^ 50

/-- One window: its owned words there go home, every word there is dropped, and a slot that drops a word is EMPTY. -/
def State.shootWindow (s : State) (core slot : Nat) (x : Shootdown) : State :=
  let w := s.window core slot
  let s := (s.shotCopies core w x).foldl (fun s a => (s.revokeWord a).dropAt (l1Level (clusterOf core)) a) s
  let js := w.shot x
  if js = [] then s
  else s.modWindow core slot fun y => { y with present := y.present.filter fun e => !js.contains e.1, owned := y.owned.filter fun j => !js.contains j
                                               st := .empty, wasFull := false }

/-- A pinned page removed: a die's words go back to their frame, a core's slot is free and its bytes are new free values (20 R350). -/
def State.unpin (s : State) (e : Nat × Nat × Nat × Nat) : State :=
  let s := { s with pins := s.pins.erase e }
  let tg := s.ownTarget (e.1 / 64) (targetOf e.2.2.2 e.2.2.1 e.2.1)
  if s.pins.any fun f => s.ownTarget (f.1 / 64) (targetOf f.2.2.2 f.2.2.1 f.2.1) = tg then s
  else
    match tg with
    | .pinCore core off =>
      let k := scratchKey core (off / 2 ^ 16 * 2 ^ 16)
      let s := s.modCore core fun c => { c with pinEpoch := tset c.pinEpoch (off / 2 ^ 16) s.nextId }
      { s with nextId := s.nextId + 1, pinSlots := tdel s.pinSlots (core * 32 + off / 2 ^ 16), scratch := s.scratch.filter fun b => !decide (k ≤ b.1 ∧ b.1 < k + 2 ^ 16) }
    | .pinDie die pa =>
      let ws := (s.pinned.filter fun x => x.1 / 2 ^ 50 = die ∧ pa ≤ 4 * (x.1 % 2 ^ 50) ∧ 4 * (x.1 % 2 ^ 50) < pa + 2 ^ e.2.2.1).map fun x => x.1 % 2 ^ 50
      let own := (s.copies.filter fun x => x.1 / 2 ^ 50 = l2Level die && x.2.owned && decide (pa ≤ 4 * (x.1 % 2 ^ 50)) &&
        decide (4 * (x.1 % 2 ^ 50) < pa + 2 ^ e.2.2.1)).map fun x => x.1 % 2 ^ 50
      let s := (ws ++ own).eraseDups.foldl (fun s w =>
        let v := s.pinWord die w
        let s := (s.setPinWord die w 15 v).setHomeWord w v
        { s with pinned := tdel s.pinned (copyKey die w) }) s
      { s with pinnedPages := tset s.pinnedPages die ((tget s.pinnedPages die []).erase (pa, 2 ^ e.2.2.1)) }
    | _ => s

/-- True where a package must wait: a window there fills or drains, or an access translated through a shot entry has not ended. -/
def State.shootBusy (s : State) (ctx : Nat) (x : Shootdown) : Bool :=
  ((s.shotWindows ctx x).any fun w =>
    let y := s.window w.1 w.2
    y.st = .filling || y.st = .draining || (s.shotCopies w.1 y x).any s.wordMoving || s.windowPending w.1 w.2) ||
  s.msgs.any fun m => m.2.st ≠ .finished && m.2.ctx = ctx && Shootdown.hits x m.2.va 8 &&
    (m.2.kind = .load || m.2.kind = .reg || m.2.kind = .atomic || m.2.kind = .remote)

/-- 20 R357: a package carries a shootdown out. -/
def execShootdownReceive (p sd : Nat) (s : State) : Host.Outcome State Fault Refusal :=
  done (match tget? s.shootdowns sd with
    | none => s
    | some x =>
      let ctx := p * 64 + x.ctx
      if ¬ x.left.contains p ∨ s.castPending (.shootdown sd) (some p) = true ∨ s.shootBusy ctx x = true then s
      else
        let s := (s.shotWindows ctx x).foldl (fun s w => s.shootWindow w.1 w.2 x) s
        let keep (c : Nat × List TcEntry) : List TcEntry := c.2.filter fun e => !(e.ctx = ctx && Shootdown.hits x e.base (2 ^ e.log))
        let s : State := { s with tcs := s.tcs.map fun c => if tcPkg c.1 = p then (c.1, keep c) else c }
        let s := (s.pins.filter fun e => e.1 = ctx ∧ Shootdown.hits x e.2.1 (2 ^ e.2.2.1) = true).foldl State.unpin s
        match x.left.erase p with
        | [] => { s with shootdowns := tdel s.shootdowns sd }
        | l => { s with shootdowns := tset s.shootdowns sd { x with left := l } })

end Sys2Proof.Machine
end

