-- ==== Sys2Proof/Machine/Save.lean ====
section
/-! DEFINITION. Saving and restoring gangs (19 R323, R338 to R345, 08 R168, R186, R199, 09 R216): the quiesce point, the save record, the status page and
snapshot areas, what a debugger may not change. -/

namespace Sys2Proof.Machine

/-! ### Records in memory -/

/-- A range of the device's memory set to zero: owned words of it are revoked first. -/
def State.homeClear (s : State) (pa n : Nat) : State :=
  let hit (w : Nat) : Bool := decide (4 * w < pa + n ∧ pa < 4 * w + 4)
  let ws := (s.owners.flatMap fun e => (List.range 16).map fun j => e.1 * 16 + j).filter hit
  let s := ws.foldl (fun s w => (s.settleWord w).revokeWord w) s
  if placed pa && placed (pa + n - 1) then { s with mem := s.mem.filter fun c => !decide (pa ≤ c.1 ∧ c.1 < pa + n) } else { s with hole := true }
/-- Fields of a record: (offset, bytes, value). -/
def State.putFields (s : State) (pa : Nat) (fs : List (Nat × Nat × Nat)) : State := fs.foldl (fun s f => s.homePut (pa + f.1) f.2.1 f.2.2) s

/-- The save pool of a context (R321, R323), and its gang record i. -/
def State.pool (s : State) (k : Nat) : Nat := k / 64 * 2 ^ 46 + (s.ctx k).savepool % 2 ^ 46
def State.gangRecord (s : State) (k i : Nat) : Nat := s.pool k + 0x341000 + i * 0x3001000
/-- Where workgroup w's record starts in a gang record. -/
def wgRecord (rec w : Nat) : Nat := rec + 0x1000 + w * 0xC00000

/-- The status page's bytes 0 to 15 (R323). -/
def State.putStatus (s : State) (k : Nat) : State :=
  let c := s.ctx k
  s.putFields (s.pool k) [(0, 1, c.touched), (1, 1, c.faulted.toNat), (2, 2, c.faultCode), (8, 8, c.faultClock)]

/-- A slot's 48 bytes (10 R227). -/
def AsterSlot.word (x : AsterSlot) : Nat :=
  x.src % 2 ^ 64 * 2 ^ 320 + x.dst % 2 ^ 64 * 2 ^ 256 + x.param % 2 ^ 64 * 2 ^ 192 + x.value % 2 ^ 32 * 2 ^ 160 + x.threshold % 2 ^ 32 * 2 ^ 128 +
  x.seq % 2 ^ 32 * 2 ^ 96 + x.ctx % 64 * 2 ^ 90 + x.trigger % 4096 * 2 ^ 76 + x.done % 4096 * 2 ^ 64 + x.kind.code * 2 ^ 61 + x.scope.code * 2 ^ 59 +
  x.cen.toNat * 2 ^ 58 + x.cause % 256 * 2 ^ 40 + SlotState.code x.st * 2 ^ 32

/-- The granted range of counters or slots in a grant entry. -/
def grantRange (first count : Nat) : List Nat := (List.range (count * 64)).map fun i => first * 64 + i
/-- The snapshot area of die d of a context (R323). -/
def State.putSnapshot (s : State) (k d : Nat) : State :=
  let g := s.grant k d
  let die := k / 64 * 8 + d
  let base := s.pool k + 0x1000 + d * 0x68000
  let cs := grantRange (bits g 5 0) (bits g 12 6)
  let ss := grantRange (bits g 19 13) (bits g 27 20)
  let s := s.putFields base ((cs.zip (List.range cs.length)).map fun x => (8 * x.2, 8, s.counter die x.1))
  s.putFields (base + 8 * cs.length) ((ss.zip (List.range ss.length)).map fun x => (48 * x.2, 48, (s.aslot die x.1).word))

/-! ### Cores taken and left -/

/-- A core without a workgroup: no threads, squads, windows, barriers, matrix work (its health counts stay). -/
def State.clearCore (s : State) (k : Nat) : State :=
  let s := s.modCore k fun c =>
    { c with gang := none, stop := false, entries := [], unplaced := [], slot0 := {}, slot1 := {}, bars := [], windows := [], ringWait := [], exits := [], lastExit := 0
             ringNext := 0, wg := 0, mat := { corrected := c.mat.corrected, uncorrectable := c.mat.uncorrectable } }
  { s with
    threads := s.threads.filter fun x => coreOf x.1 ≠ k
    squads := s.squads.filter fun x => coreOfSquad x.1 ≠ k
    copyCmds := s.copyCmds.filter fun x => (x.2.ring.map (·.1)) ≠ some k
    picks := s.picks.filter fun x => x.core ≠ k }

/-- A core set up for workgroup w of a gang (R335, 12 R270, R272): registers 0, scratchpad undefined but for pin slots, everything else as at launch. -/
def State.setupCore (s : State) (k gang w : Nat) : State :=
  let s := s.clearCore k
  let slots := (s.pinnedOn k).map (·.1)
  let pinned (off : Nat) : Bool := slots.contains (off / 2 ^ 16)
  let s := s.modCore k fun c => { c with
    gang := some gang, wg := w, epoch := s.nextId, pinEpoch := slots.eraseDups.map fun i => (i, tget c.pinEpoch i c.epoch), ck := max c.ck (s.clock (pkgOf k)) }
  { s with
    nextId := s.nextId + 1
    regs := s.regs.filter fun x => x.1 / 65536 ≠ k
    scratch := s.scratch.filter fun x => x.1 / 2 ^ 21 ≠ k || pinned (x.1 % 2 ^ 21) }

/-- A gang leaves a cluster's queue unit. -/
def State.freeQueues (s : State) (cl gang : Nat) : State :=
  if tget? s.queueHolder cl = some gang then
    { s with queueHolder := tdel s.queueHolder cl, queues := s.queues.filter fun x => x.1 / 64 ≠ cl }
  else s

/-- Roles in the order in which squads are numbered (12 R271), as k0's code, with the record's place: COPY, MATRIX, EPILOGUE, GENERAL. -/
def roleOrder : List (Nat × Nat) := [(1, 0), (2, 1), (3, 2), (0, 3)]
/-- The squads of a workgroup: role code, index in its role, budget, register base, place of the entry. -/
def squadList (r : Nat) : List (Nat × Nat × Nat × Nat × Nat) :=
  (roleOrder.foldl (fun (acc : List (Nat × Nat × Nat × Nat × Nat) × Nat) ro =>
    (acc.1 ++ (List.range (recSquads r ro.2)).map fun i => (ro.1, i, recBudget r ro.2, acc.2 + i * recBudget r ro.2, ro.2),
     acc.2 + recSquads r ro.2 * recBudget r ro.2)) ([], 0)).1
def Launch.squadList (l : Launch) : List (Nat × Nat × Nat × Nat × Nat) := if l.marl then [(0, 0, 256, 0, 0)] else Machine.squadList l.body
/-- The entry PC of a role. -/
def State.entryOf (s : State) (l : Launch) (i : Nat) : Nat :=
  if l.marl then l.base
  else
    let e := (l.entries[i]?).getD 0
    match l.native with
    | some n => s.nativeEntry n l.base e
    | none => (l.base + e) % 2 ^ 64

/-! ### The quiesce point (R338) -/

/-- True where everything that a gang's threads have issued has ended, apart from window drains. -/
def State.gangQuiet (s : State) (g : Gang) : Bool :=
  !(s.msgs.any fun m => m.2.st ≠ .finished && match m.2.client with
    | .thread t => g.cores.contains (coreOf t)
    | .window c _ => g.cores.contains c
    | _ => false) &&
  (s.threads.all fun x => !g.cores.contains (coreOf x.1) || s.releaseReady x.1 .pkg) &&
  g.waits = none && (s.threads.all fun x => !g.cores.contains (coreOf x.1) || !s.midway x.1) &&
  (g.cores.all fun k =>
    ((s.core k).windows.all fun w => w.2.st ≠ .filling && w.2.st ≠ .draining && !s.windowPending k w.1) &&
    (s.core k).mat.ops = [] && (s.core k).mat.holds = []) &&
  !(s.copyCmds.any fun c => c.2.active && c.2.ring.isSome && g.cores.contains c.2.core)

/-- Bound windows that hold owned words. -/
def State.toDrain (s : State) (g : Gang) : List (Nat × Nat) :=
  g.cores.flatMap fun k => (((s.core k).windows.filter fun w => w.2.st ≠ .unbound && s.ownedWords k w.1 ≠ [])).map fun w => (k, w.1)

/-- Where a thread is saved (R338): no trap is raised or delivered by the save. -/
def State.savedPc (s : State) (t : Nat) : Nat :=
  let th := s.thread t
  match th.run with
  | .trapPending =>
    match (s.squad (squadOf t)).trapped.find? fun r => r.mask.toNat.testBit (laneOf t) with
    | some r => if r.code = 14 ∨ r.code = 15 then r.pc else r.epc
    | none => th.pc
  | _ => th.pc

/-- A thread record (R341). -/
def State.threadFields (s : State) (t : Nat) : List (Nat × Nat × Nat) :=
  let th := s.thread t
  let i := 0x6000 + 0x100 * (64 * (squadOf t % 32) + laneOf t)
  if th.run = .exited then []
  else
    let note := match th.note with | some n => n.batch % 2 ^ 16 + n.index % 64 * 2 ^ 16 + n.cause % 8 * 2 ^ 22 + 2 ^ 31 | none => 0
    [(i, 8, s.savedPc t), (i + 8, 1, if th.supervisor then 2 else 1), (i + 10, 2, th.preds.toNat / 2 * 2 + 1), (i + 12, 2, th.sealed), (i + 16, 136, th.loopRecord),
     (i + 152, 32, th.sscratch.foldr (fun v r => v.toNat + 2 ^ 64 * r) 0), (i + 184, 4, note)]
/-- A squad record (R341). -/
def State.squadFields (s : State) (q : Nat) : List (Nat × Nat × Nat) :=
  let x := s.squad q
  let i := 0x1000 + 0x200 * (q % 32)
  let code := match x.budget with | 32 => 0 | 64 => 1 | 128 => 2 | _ => 3
  (x.k.map fun e => (i + 4 * e.1, 4, e.2.toNat)) ++
  (if x.handling = 0 then [] else [(i + 256, 64, x.trec.foldr (fun v r => v.toNat + 2 ^ 64 * r) 0)]) ++
  [(i + 320, 4, x.base % 2 ^ 10 + code * 2 ^ 10 + x.role % 4 * 2 ^ 12), (i + 324, 4, 1)]

/-- The slice rows of a core that a save keeps. -/
def State.adobeRows (s : State) (k : Nat) : List Nat := ((s.core k).mat.adobe.map fun e => e.1 / 32).eraseDups

/-- A byte of a slice row as a save reads it. bad: the rows whose read meets an uncorrectable error (14 R288): a row of the image that the last MWLD named is
delivered as that image's shadow load delivers it, any other row as one of trit codes, each 0b10 (log 37). -/
def State.savedAdobe (s : State) (k : Nat) (bad : List Nat) (a : Nat) : Byte :=
  if bad.contains (a / 32) then
    match (s.core k).mat.last with
    | some (off, pl, sp) => if off ≤ a ∧ a < off + imageBytes pl sp then s.imageByte k off pl sp bad (a - off) else 0xAA
    | none => 0xAA
  else s.adobeByte k a

/-- A workgroup's fields but for its scratchpad (R340, R341). bad: the slice rows that the read of the Adobe layer meets with an uncorrectable error. -/
def State.wgFields (s : State) (k linear : Nat) (done : Bool) (bad : List Nat) : List (Nat × Nat × Nat) :=
  let c := s.core k
  let u := c.mat
  let rows := s.adobeRows k
  let last := u.last.getD (0, .tern, .dense)
  [(0, 1, if done then 2 else 1), (8, 8, linear), (16, 1, c.ringNext % 64), (24, 8, s.clock (pkgOf k))] ++
  (c.windows.flatMap fun w => let i := 0x100 + 32 * w.1
    [(i, 8, w.2.base), (i + 8, 4, w.2.off), (i + 12, 4, w.2.size), (i + 16, 1, WinState.code w.2.st)]) ++
  [(0x500, 4, u.mapWord % 2 ^ 18), (0x508, 4, last.1), (0x50C, 1, last.2.1.code), (0x50D, 1, last.2.2.code)] ++
  ((s.squads.filter fun q => coreOfSquad q.1 = k).flatMap fun q => s.squadFields q.1) ++
  (c.bars.map fun b => (0x5000 + 8 * b.1, 8, b.2.expected % 2 ^ 16 + b.2.arrivals % 2 ^ 16 * 2 ^ 16 + b.2.phase % 2 ^ 16 * 2 ^ 32)) ++
  ((s.threads.filter fun t => coreOf t.1 = k).flatMap fun t => s.threadFields t.1) ++
  ((s.regs.filter fun r => r.1 / 65536 = k).map fun r => (0x86000 + 4 * (r.1 % 65536), 4, r.2.toNat)) ++
  (u.tiles.map fun e => (0xC6000 + 4 * e.1, 4, e.2.toNat)) ++
  (rows.map fun r => (0x3C6000 + r / 8, 1, (rows.filter fun j => j / 8 = r / 8).foldl (fun b j => b + 2 ^ (j % 8)) 0)) ++
  ((rows.zip (List.range rows.length)).flatMap fun r => (List.range 32).map fun i => 
    (0x3CE000 + 32 * r.2 + i, 1, (s.savedAdobe k bad (32 * r.1 + i)).toNat))

/-- A workgroup record written. -/
def State.putWg (s : State) (pa k linear : Nat) (done : Bool) : State :=
  let slots := (s.pinnedOn k).map (·.1)
  let pinned (off : Nat) : Bool := slots.contains (off / 2 ^ 16)
  let r := s.meetErrors k (s.adobeRows k)
  let t := r.1.putFields pa (r.1.wgFields k linear done r.2)
  (List.range scratchSize).foldl (fun t i => if pinned i then t else t.homeByte (pa + 0x246000 + i) (s.scratchByte (scratchKey k i)).toNat) t

/-- The gang header's fields (R340); st: 1 suspended, 2 halted. -/
def State.headerFields (s : State) (l : Launch) (g : Gang) (st : Nat) : List (Nat × Nat × Nat) :=
  let k := g.cores.headD 0
  let cl := clusterOf k
  let qs := if tget? s.queueHolder cl = (s.core k).gang ∧ ¬ isMarl k then s.queues.filter fun q => q.1 / 64 = cl else []
  [(0, 8, l.addr), (8, 4, g.index), (12, 1, l.g), (13, 1, st), (14, 1, if isMarl k then (numOf k - 256) else cl % 64), (15, 1, g.die % 8)] ++
  (qs.flatMap fun q => let i := 1024 + 16 * (q.1 % 64)
    let h := if q.2.cap = 0 then 0 else q.2.head % q.2.cap
    [(i, 8, q.2.base + q.2.cap * 2 ^ 32), (i + 8, 2, h), (i + 10, 2, h + (q.2.tail - q.2.head))])

/-- The workgroups of a gang with their cores. -/
def Gang.wgs (g : Gang) : List (Nat × Nat) := (List.range g.cores.length).zip g.cores

/-- A gang record written (R340); its windows' words are dropped first (R342). -/
def State.putGang (s : State) (l : Launch) (g : Gang) (i st : Nat) : State :=
  let rec' := s.gangRecord l.ctxKey i
  let s := s.homeClear rec' 0x3001000
  let s := s.putFields rec' (s.headerFields l g st)
  g.wgs.foldl (fun s w => s.putWg (wgRecord rec' w.1) w.2 (w.1 + l.g * g.index) (g.completed.contains w.1)) s

/-- What a gang keeps beside its record. -/
def State.freeze (s : State) (g : Gang) : List Frozen :=
  g.wgs.map fun w =>
    { exits := (s.core w.2).exits, lastExit := (s.core w.2).lastExit
      threads := (s.threads.filter fun t => coreOf t.1 = w.2).map fun t => (t.1 % 2048, { t.2 with pc := s.savedPc t.1 })
      cmds := (s.copyCmds.filter fun c => (c.2.ring.map (·.1)) = some w.2).map (·.2)
      mwld := (s.core w.2).mat.last.isSome }

/-- The lowest free record of a context's pool. -/
def State.freeRecord (s : State) (k : Nat) : Option Nat :=
  (List.range (s.ctx k).savegangs).find? fun i => !(s.gangs.any fun g => g.2.record = some i && s.gangCtx g.2 = k)

/-- The writes of a gang's threads count as released by their agents (R343: they stand in for a producer). -/
def State.releaseGang (s : State) (g : Gang) : State :=
  let s := (s.threads.filter fun x => g.cores.contains (coreOf x.1)).foldl (fun s x => s.doRelease x.1 .die) s
  ((g.cores.map homeAgent).eraseDups).foldl State.bumpRelease s

/-- The gang leaves its cores. -/
def State.leaveCores (s : State) (id : Nat) (g : Gang) : State :=
  let s := g.cores.foldl (fun s k => if (s.core k).gang = some id then s.clearCore k else s) s
  match g.cores with
  | [] => s
  | k :: _ => if isMarl k then s else s.freeQueues (clusterOf k) id

/-- The save at the quiesce point: the record, the die's snapshot area, then the gang is suspended, halted, or ended. -/
def State.saveGang (s : State) (id : Nat) (g : Gang) (l : Launch) (i : Option Nat) : State :=
  let s := s.releaseGang g
  let s := g.cores.foldl (fun s k => ((s.core k).windows.filter fun w => w.2.st ≠ .unbound).foldl (fun s w => s.emptyWindow k w.1 w.2.st) s) s
  let fz := s.freeze g
  let s := match i with
    | some i => (s.putGang l g i (if g.halt then 2 else 1)).putSnapshot l.ctxKey (g.die % 8)
    | none => s
  let s := s.leaveCores id g
  let g : Gang := { g with frozen := fz, since := s.clock l.pkg }
  if g.doom ≠ 0 then
    let s := match g.haltCmd with | some (j, n) => s.statusPut l.pkg j n 4 11 0 | none => s
    (s.setGang id { g with st := .ended, record := i, haltCmd := none }).failLaunch g.launch (g.doom % 256) (g.doom / 256)
  else if g.halt then
    let s := s.setGang id { g with st := .halted, record := i, haltCmd := none }
    let s := s.putFields (s.pool l.ctxKey) [(16, 8, l.addr), (24, 4, g.index), (32, 8, g.bkpt)]
    match g.haltCmd with
    | some (j, n) => s.statusPut l.pkg j n 3 0 0
    | none => s
  else s.setGang id { g with st := .suspended, record := i }

/-- 19 R338: the bound windows drain, then the gang is saved; without room in the pool it waits. -/
def execQuiescePoint (gang : Nat) (s : State) : Host.Outcome State Fault Refusal :=
  done (match s.gang gang with
    | none => s
    | some g =>
      match s.launch g.launch with
      | none => s
      | some l =>
        if g.st ≠ .stopping ∨ s.gangQuiet g = false then s
        else
          match s.toDrain g with
          | [] =>
            match s.freeRecord l.ctxKey with
            | some i => s.saveGang gang g l (some i)
            | none => if g.doom ≠ 0 then s.saveGang gang g l none else s
          | ws => ws.foldl (fun s w => s.startDrain w.1 w.2) s)

/-! ### Restoring (R343) -/

/-- The bytes of a record field. -/
def State.field (s : State) (pa off n : Nat) : Nat := s.physRead (pa + off) n
/-- The non-zero words of a table at an address, by place. -/
def State.wordsAt (s : State) (pa n : Nat) : Tab Word :=
  (List.range n).filterMap fun i => let v := s.physRead (pa + 4 * i) 4; if v = 0 then none else some (i, BitVec.ofNat 32 v)

/-- A thread restored; fz: what the gang kept of it. An instruction that was under way goes on only from its own PC; a thread that had executed EXIT stays so
(01 R31, 12 R277). -/
def State.restoreThread (s : State) (pa t : Nat) (fz : Thread) : State :=
  let f (o n : Nat) : Nat := s.physRead (pa + o) n
  let mode := f 8 1
  if mode = 0 then (if fz.run = .exited then s.setThread t { run := .exited, pc := fz.pc } else s)
  else
    let pc := f 0 8
    let note := f 184 4
    let th : Thread := if pc = fz.pc then { fz with busy := [], written := [], pending := [], failed := none } else { astsel := fz.astsel }
    let th : Thread := { th with
      run := .ready, pc := pc, preds := BitVec.ofNat 16 (f 10 2 / 2 * 2), supervisor := decide (mode = 2), inHandler := decide (mode = 2), sealed := f 12 2, copies := []
      sscratch := (List.range 4).map fun i => BitVec.ofNat 64 (f (152 + 8 * i) 8)
      note := if note.testBit 31 then some { batch := note % 2 ^ 16, index := bits note 21 16, cause := bits note 24 22 } else none }
    s.setThread t (th.setRecord (f 16 136))

/-- A squad restored with its threads. -/
def State.restoreSquad (s : State) (l : Launch) (pa q gang : Nat) (fz : Frozen) : State :=
  let i := pa + 0x1000 + 0x200 * (q % 32)
  if s.physRead (i + 324) 4 ≠ 1 then s
  else
    let w := s.physRead (i + 320) 4
    let role := bits w 13 12
    let trec := (List.range 8).map fun j => BitVec.ofNat 64 (s.physRead (i + 256 + 8 * j) 8)
    let s := s.setSquad q
      { entry := s.entryOf l (match role with | 1 => 0 | 2 => 1 | 3 => 2 | _ => 3), kernel := l.base, native := l.native, ctx := l.ctx, role := role, budget := 32 * 2 ^ bits w 11 10
        base := bits w 9 0, gang := gang, k := s.wordsAt i 64, trec := trec }
    let s := (List.range (if l.marl then 1 else 64)).foldl (fun s n =>
      s.restoreThread (pa + 0x6000 + 0x100 * (64 * (q % 32) + n)) (threadKey q n) (tget fz.threads (q % 32 * 64 + n) {})) s
    s.modSquad q fun x => { x with handling := laneMask ((s.threads.filter fun t => squadOf t.1 = q ∧ t.2.inHandler).map (·.1)) }

/-- The queued commands of a workgroup's ring, in ring order, with their threads. -/
def State.restoreCmds (s : State) (k : Nat) (cs : List CopyCmd) : State :=
  cs.foldl (fun s c =>
    let t := k * 2048 + c.tid % 2048
    let s := if (tget? s.threads t).isSome then s.modThread t fun th => { th with copies := th.copies ++ [(c.batch, s.nextId)] } else s
    { s with
      nextId := s.nextId + 1
      copyCmds := tset s.copyCmds s.nextId { c with cluster := clusterOf k, core := k, tid := t, ring := c.ring.map fun r => (k, r.2) } }) s

/-- A record's scratchpad section goes into core k's scratchpad; a slot that a pinned page holds keeps its bytes. -/
def State.restoreScratch (s : State) (pa k : Nat) : State :=
  let slots := (s.pinnedOn k).map (·.1)
  (List.range scratchSize).foldl (fun s' i =>
    if slots.contains (i / 2 ^ 16) then s' else s'.setScratchByte (scratchKey k i) (BitVec.ofNat 8 (s.physRead (pa + 0x246000 + i) 1))) s

/-- A record's workgroup state goes onto core k: barriers, windows, the slice's maps, tiles and entries, and the register file. -/
def State.restoreCore (s : State) (pa k : Nat) (fz : Frozen) : State :=
  let f (o n : Nat) : Nat := s.physRead (pa + o) n
  let bitmap := f 0x3C6000 0x8000
  let rows := (List.range 262144).filter fun r => bitmap.testBit r
  let map := f 0x500 4
  let wins : Tab Window := (List.range 32).map fun i =>
    let o := 0x100 + 32 * i
    (i, { st := if f (o + 16) 1 = 0 then .unbound else .empty, base := f o 8, off := f (o + 8) 4, size := f (o + 12) 4 })
  let bars : Tab Barrier := (List.range 512).filterMap fun b =>
    let x := f (0x5000 + 8 * b) 8
    if x = 0 then none else some (b, { expected := bits x 15 0, arrivals := bits x 31 16, phase := bits x 47 32 })
  let adobe : Tab Byte := (rows.zip (List.range rows.length)).flatMap fun r => (List.range 32).map fun i => (32 * r.1 + i, BitVec.ofNat 8 (f (0x3CE000 + 32 * r.2 + i) 1))
  let t := s.modCore k fun c => { c with
    bars := bars, windows := wins, ringNext := f 16 1, exits := fz.exits, lastExit := fz.lastExit
    mat := { c.mat with map := (List.range 4).map fun i => bits map (3 * i + 2) (3 * i), tiles := s.wordsAt (pa + 0xC6000) (6 * 65536), adobe := adobe } }
  let regs := (s.wordsAt (pa + 0x86000) 65536).map fun e => (k * 65536 + e.1, e.2)
  let below := t.regs.filter fun x => x.1 < k * 65536
  let above := t.regs.filter fun x => x.1 ≥ (k + 1) * 65536
  { t with regs := below ++ regs ++ above }

/-- A workgroup restored onto a core; its last MWLD is replayed (09 R216). -/
def State.restoreWg (s : State) (l : Launch) (pa k gang w : Nat) (fz : Frozen) : State :=
  let pl := (Planes.ofCode (s.physRead (pa + 0x50C) 1)).getD .tern
  let sp := (Sparsity.ofCode (s.physRead (pa + 0x50D) 1)).getD .dense
  let off := s.physRead (pa + 0x508) 4
  let s := ((s.setupCore k gang w).restoreCore pa k fz).restoreScratch pa k
  let s := if fz.mwld then s.replayMwld k off pl sp else s
  let s := (List.range 32).foldl (fun s i => s.restoreSquad l pa (squadKey k i) gang fz) s
  s.restoreCmds k fz.cmds

/-- The narrowest scope that holds a set of cores (R331): a host-link placement or a Marl core makes it at least PACKAGE. -/
def scopeHolding (cs : List Nat) : Scope :=
  match cs with
  | [] => .grp
  | c :: r =>
    let loam := cs.all fun k => decide (k < 2 ^ 40) && !isMarl k
    if cs.any fun k => decide (k < 2 ^ 40) && decide (pkgOf k ≠ pkgOf ((cs.filter fun k => decide (k < 2 ^ 40)).headD k)) then .sys
    else if !loam then .pkg
    else if r.all fun k => clusterOf k = clusterOf c then .grp
    else if r.all fun k => dieOf k = dieOf c then .die
    else .pkg

/-- A suspended gang goes onto cores (R343). -/
def State.resumeGang (s : State) (id : Nat) (cores : List Nat) : State :=
  match s.gang id with
  | none => s
  | some g =>
    match s.launch g.launch, g.record with
    | some l, some i =>
      let rec' := s.gangRecord l.ctxKey i
      let cl := clusterOf (cores.headD 0)
      let s := if l.queues then
          { s with
            queueHolder := tset s.queueHolder cl id
            queues := (List.range 64).foldl (fun q j =>
              let x := s.physRead (rec' + 1024 + 16 * j) 16
              if bits x 63 0 = 0 then q
              else tset q (cl * 64 + j) { cap := bits x 44 32, base := bits x 22 0, head := bits x 79 64, tail := bits x 95 80 })
              (s.queues.filter fun q => q.1 / 64 ≠ cl) }
        else s
      let s := ((List.range cores.length).zip cores).foldl (fun s w =>
        s.restoreWg l (wgRecord rec' w.1) w.2 id w.1 ((g.frozen[w.1]?).getD {})) s
      let s := s.setGang id { g with st := .running, cores := cores, record := none, since := s.clock l.pkg, frozen := [], halt := false, bkpt := 0 }
      let sc := scopeHolding (g.cores ++ cores)
      let s := cores.foldl (fun s k => s.acquire k sc (2 ^ 64 - 1)) s
      s.evalCtx l.ctxKey
    | _, _ => s

/-! ### What a debugger may not change (R345) -/

/-- True of a queue's 16 bytes in a header that the device can have written (08 R192): nothing, or a ring with a count that it holds. -/
def queueFine (x : Nat) : Bool :=
  let cap := bits x 44 32
  let h := bits x 79 64
  let t := bits x 95 80
  x = 0 || (bits x 31 23 = 0 && bits x 63 45 = 0 && bits x 127 96 = 0 && x % 4 = 0 && decide (0 < cap ∧ cap ≤ 4096 ∧ h < cap ∧ h ≤ t ∧ t ≤ h + cap))

/-- The checks of RESUME on a halted gang's record. -/
def State.recordFine (s : State) (l : Launch) (g : Gang) (i : Nat) : Bool :=
  let rec' := s.gangRecord l.ctxKey i
  let head := (s.headerFields l g 2).foldl (fun r f => if f.1 < 1024 then r + f.2.2 % 2 ^ (8 * f.2.1) * 2 ^ (8 * f.1) else r) 0
  let wgOk (w : Nat) : Bool :=
    let pa := wgRecord rec' w
    let h := s.physRead pa 32
    bits h 7 0 = (if g.completed.contains w then 2 else 1) && bits h 63 8 = 0 && bits h 127 64 = w + l.g * g.index && decide (bits h 135 128 < 64) &&
      bits h 191 136 = 0 && s.physRead (pa + 32) 224 = 0 &&
    (List.range 2048).all fun j =>
      let t := pa + 0x6000 + 0x100 * j
      let mode := s.physRead (t + 8) 1
      mode = 0 || (decide (mode ≤ 2) && s.physRead t 8 % 4 = 0 && recordOk (s.physRead (t + 16) 136))
  s.physRead rec' 1024 = head && ((List.range 64).all fun q => queueFine (s.physRead (rec' + 1024 + 16 * q) 16)) && s.physRead (rec' + 2048) 2048 = 0 && (List.range g.cores.length).all wgOk

end Sys2Proof.Machine
end

