-- ==== Sys2Proof/Machine/Place.lean ====
section
/-! DEFINITION. Choosing and placing gangs (19 R331, R333 to R337, 12 R269, R272): fit, dispatch, resumption, pre-emption, one ck of a die's launch logic. -/

namespace Sys2Proof.Machine

/-! ### Places (R269, R334, R336) -/

/-- The core numbers of a gang of g workgroups within a cluster, in order. -/
def positions : Nat → List (List Nat)
  | 4 => [[0, 1, 2, 3]]
  | 2 => [[0, 1], [2, 3]]
  | _ => [[0], [1], [2], [3]]

/-- The places on a die where a launch's gangs may go, in the order in which they are tried; a Marl start's core, or any core but the firmware's. -/
def Launch.places (l : Launch) (die : Nat) : List (List Nat) :=
  if l.marl then
    let c := bits l.body 63 32
    if c.testBit 7 then (List.range 92).map fun i => [coreKey l.pkg (256 + i / 46 * 48 + i % 46)]
    else [[coreKey l.pkg (256 + bits c 6 6 * 48 + c % 64)]]
  else (List.range 8).flatMap fun j => (positions l.g).map fun ps => ps.map fun i => coreKey (die / 8) (32 * (die % 8) + 4 * j + i)

/-- Who stands in the way of a place: the gangs that hold its cores, and its cluster's queue unit where the launch uses it. -/
def State.blockers (s : State) (l : Launch) (cores : List Nat) : List Nat :=
  (cores.filterMap (fun k => (s.core k).gang) ++ (if l.queues then (tget? s.queueHolder (clusterOf (cores.headD 0))).toList else [])).eraseDups
/-- The place that fits: the lowest cluster, and the lowest position in it. -/
def State.fit (s : State) (l : Launch) (die : Nat) : Option (List Nat) := (l.places die).find? fun cs => s.blockers l cs = []

/-! ### The scope of a dispatch (R331) -/

def scopeMax (a b : Scope) : Scope := if scopeRank a < scopeRank b then b else a
/-- S for a gang of a launch on cores. -/
def State.startScope (s : State) (l : Launch) (cores : List Nat) : Scope :=
  let c := s.ctx l.ctxKey
  (recConsume l.body).foldl (fun sc t => match tget? c.tokenScope t with | some x => scopeMax sc x | none => sc)
    (scopeMax (if l.marl then .pkg else .grp) (scopeHolding (cores ++ (recConsume l.body).flatMap fun t => tget c.tokens t [])))
/-- True of requests and words that are acknowledged. -/
def State.acked (s : State) (ids : List Nat) (ws : List (Nat × Nat)) : Bool :=
  (ids.all fun i => !s.live i) && ws.all fun w =>
    match s.copy (if isMarl w.1 then marlLevel w.1 else l1Level (clusterOf w.1)) w.2 with | some c => !c.pend | none => true
/-- What a gang that starts with an acquire at S waits for: the writes of its launch's producers that are not acknowledged; none at GROUP. -/
def State.producers (s : State) (l : Launch) (sc : Scope) : List Nat × List (Nat × Nat) :=
  if sc = .grp then ([], [])
  else (recConsume l.body).foldl (fun r t => match tget? (s.ctx l.ctxKey).tokenPend t with | some x => (r.1 ++ x.1, r.2 ++ x.2) | none => r) ([], [])
/-- A gang that has its cores starts once every write of each producer is acknowledged at S: the acquire, then its squads may issue (R335 step 4). One that has
been stopped meanwhile issues nothing. -/
def State.beginGang (s : State) (id : Nat) : State :=
  match s.gang id with
  | none => s
  | some g =>
    match g.waits with
    | none => s
    | some (sc, ids, ws) =>
      if s.acked ids ws then
        let s := g.cores.foldl (fun s k => (s.acquire k sc (2 ^ 64 - 1)).modCore k fun c => { c with stop := decide (g.st ≠ .running) }) s
        s.setGang id { g with waits := none }
      else s
/-- The gangs of a die that wait to start. -/
def State.beginGangs (s : State) (die : Nat) : State :=
  (s.gangs.filter fun g => g.2.die = die ∧ g.2.waits.isSome ∧ (g.2.st = .running ∨ g.2.st = .stopping)).foldl (fun s g => s.beginGang g.1) s

/-! ### Starting squads (12 R272, 19 R328, R335, R336) -/

/-- A squad's index at level j: squad number, workgroup, gang on this package. -/
def Launch.levelIndex (l : Launch) (j sq w i : Nat) : Nat :=
  let e := (l.levels[j]?).getD 0
  let inner := lvProd (l.levels.take j) (lvDomain e)
  match lvDomain e with
  | 1 => sq / inner % lvExtent e
  | 2 => w
  | 3 => i % l.teamGangs
  | 4 => i / l.teamGangs / inner % lvExtent e
  | 5 => l.index
  | _ => 0

/-- k0 to k15 of a squad: its number, role code, index in its role. -/
def Launch.kRegs (l : Launch) (sq role idx w i : Nat) : Tab Word :=
  let rec' := recRecords l.body + 16 * (w + l.g * l.linear i)
  let vals := if l.marl then [0, 0, 0, 0, recParams l.body, recParams l.body / 2 ^ 32] else
    [sq + idx * 32 + role * 1024, w + l.g * 4, recLevels l.body, 0, recParams l.body, recParams l.body / 2 ^ 32, rec', rec' / 2 ^ 32] ++
    (List.range 8).map fun j => if j < l.levels.length then l.levelIndex j sq w i else 0
  (((List.range vals.length).zip vals).filter fun x => x.2 % 2 ^ 32 ≠ 0).map fun x => (x.1, BitVec.ofNat 32 x.2)

/-- A squad's threads start. -/
def State.startSquad (s : State) (l : Launch) (gang k w i sq : Nat) (x : Nat × Nat × Nat × Nat × Nat) : State :=
  let q := squadKey k sq
  let pc := s.entryOf l x.2.2.2.2
  let s := s.setSquad q { entry := pc, kernel := l.base, native := l.native, ctx := l.ctx, role := x.1, budget := x.2.2.1, base := x.2.2.2.1, gang := gang, k := l.kRegs sq x.1 x.2.1 w i }
  (List.range (if l.marl then 1 else 64)).foldl (fun s lane =>
    let t := threadKey q lane
    let s := s.setThread t { pc := pc, astsel := if l.marl then l.die % 8 else 0 }
    let v := recTarea l.body + recTsize l.body * (if l.marl then 0 else lane + 64 * (sq + l.squads * (w + l.g * l.linear i)))
    (((s.writeV t 30 v).writeV t 31 (v / 2 ^ 32)).writeV t 28 (v + recTsize l.body)).writeV t 29 ((v + recTsize l.body) / 2 ^ 32)) s

/-- A workgroup starts on a core. -/
def State.startWg (s : State) (l : Launch) (gang k w i : Nat) : State :=
  let s := s.setupCore k gang w
  let s := s.modCore k fun c => { c with windows := (List.range 32).map fun j => (j, {}) }
  ((List.range l.squadList.length).zip l.squadList).foldl (fun s x => s.startSquad l gang k w i x.1 x.2) s

/-- The instruction caches of cores lose a context's code (05 R106). -/
def State.dropCode (s : State) (ctx : Nat) (cores : List Nat) : State :=
  { s with icache := s.icache.filter fun e => !(e.2.1 % 2 ^ 20 / 2 = ctx && cores.any fun k => fetchKey k = e.1) }

/-- A die joins a context's touched-dies mask. -/
def State.touch (s : State) (ctx d : Nat) : State :=
  let s := s.modCtx ctx fun c => { c with touched := if c.touched.testBit d then c.touched else c.touched + 2 ^ d }
  s.putFields (s.pool ctx) [(0, 1, (s.ctx ctx).touched)]

/-- The next gang of a launch is dispatched onto cores of a die (R335): it has its place and its state at once, and starts when its producers' writes are
acknowledged. -/
def State.dispatchGang (s : State) (id : Nat) (l : Launch) (die : Nat) (cores : List Nat) : State :=
  let i := l.next
  let g := s.nextId
  let sc := s.startScope l cores
  let s := { s with nextId := g + 1 }.dropCode l.ctxKey cores
  let s := s.setGang g
    { launch := id, index := l.linear i, die := die, st := .running, cores := cores, since := s.clock l.pkg, waits := some (sc, s.producers l sc) }
  let cl := clusterOf (cores.headD 0)
  let s := if l.queues then
      { s with queueHolder := tset s.queueHolder cl g, queues := s.queues.filter fun q => q.1 / 64 ≠ cl } else s
  let s := if l.marl then s else s.touch l.ctxKey (die % 8)
  let s := ((List.range cores.length).zip cores).foldl (fun s w => (s.startWg l g w.2 w.1 i).modCore w.2 fun c => { c with stop := true }) s
  let s := s.beginGang g
  let all := decide (i + 1 = l.gangs)
  let s := s.setLaunch id { l with next := i + 1, since := none, st := if all then .dispatched else .taken }
  let s := if all then s.launchStatus l 2 0 0 else s
  s.evalCtx l.ctxKey

/-! ### What a die's launch logic may place (R333) -/

/-- A gang to place: a suspended one, or the next one of a launch. -/
inductive Want
  | resume (g : Nat)
  | start (l : Nat)
  deriving DecidableEq, Repr, Inhabited

def Source.key : Source → Nat
  | .queue j _ => j
  | .child d => 128 + d % 8
  | .task _ n => 256 + n

/-- The suspended gangs of a priority assigned to a die, longest suspended first. -/
def State.suspendedAt (s : State) (die prio : Nat) : List Want :=
  ((s.gangs.foldl (fun (t : Tab Want) x =>
    if x.2.st = .suspended ∧ x.2.die = die ∧ ((s.launch x.2.launch).map fun l => recPrio l.body) = some prio ∧ s.ctxLive (s.gangCtx x.2) then
      tset t (x.2.since * 2 ^ 64 + x.1) (.resume x.1) else t) [])).map (·.2)
/-- The launches of a priority that are ready and whose next gang stands on a die, round-robin from after the source last served. -/
def State.launchesAt (s : State) (die prio : Nat) : List Want :=
  let ls := s.launches.filter fun x => x.2.pkg = die / 8 && x.2.st = .taken && decide (x.2.next < x.2.gangs) && x.2.dieFor x.2.next = die &&
    recPrio x.2.body = prio && s.ready x.2 && s.ctxLive x.2.ctxKey
  let last := (tget? s.lastServed (die * 16 + prio)).map (Source.key)
  let t : Tab Want := ls.foldl (fun t x =>
    let k := Source.key x.2.source
    let k := match last with | some m => if k > m then k else k + 2 ^ 16 | none => k
    tset t (k * 2 ^ 64 + x.1) (.start x.1)) []
  t.map (·.2)
/-- All of them, highest priority first. -/
def State.wants (s : State) (die : Nat) : List (Nat × Want) :=
  (List.range 12).reverse.flatMap fun prio => ((s.suspendedAt die prio) ++ s.launchesAt die prio).map fun w => (prio, w)

/-- The launch of a gang to place. -/
def State.launchOf (s : State) : Want → Option Launch
  | .resume g => (s.gang g).bind fun x => s.launch x.launch
  | .start l => s.launch l
/-- A place for it now. -/
def State.placeFor (s : State) (die : Nat) (w : Want) : Option (List Nat) := (s.launchOf w).bind fun l => s.fit l die

/-! ### Pre-emption (R337) -/

/-- A victim for priority p: running, of lower priority, its quantum run. -/
def State.victim (s : State) (p gang : Nat) : Bool :=
  match s.gang gang with
  | some g =>
    match s.launch g.launch with
    | some l =>
      let q := s.hreg l.pkg (quantOff (g.die % 8) (recPrio l.body))
      g.st = .running && decide (recPrio l.body < p) && q ≠ 0xFFFF && decide (s.clock l.pkg ≥ g.since + 1024 * q)
    | none => false
  | none => false

/-- How good a set of victims is: fewer, then lower in priority, then dispatched later. -/
def State.victimCost (s : State) (vs : List Nat) : Nat :=
  let prio := vs.foldl (fun m g => max m (((s.gang g).bind fun x => s.launch x.launch).elim 0 fun l => recPrio l.body)) 0
  let old := vs.foldl (fun m g => min m ((s.gang g).elim 0 (·.since))) (2 ^ 64 - 1)
  vs.length * 2 ^ 80 + prio * 2 ^ 72 + (2 ^ 64 - 1 - old)

/-- The victims whose leaving frees a place, gangs on their way out not counted; none where no place can be freed. -/
def State.victimsFor (s : State) (p : Nat) (l : Launch) (die : Nat) : Option (List Nat) :=
  let leaving (g : Nat) : Bool := match s.gang g with | some x => x.st = .stopping | none => true
  let sets := (l.places die).filterMap fun cs =>
    let b := (s.blockers l cs).filter fun g => !leaving g
    if b.all (s.victim p) then some b else none
  sets.foldl (fun best vs => match best with
    | none => some vs
    | some x => if s.victimCost vs < s.victimCost x then some vs else some x) none

/-- The first gang in order that has no place and for which victims exist pre-empts them. -/
def State.preempt (s : State) (die : Nat) (ws : List (Nat × Want)) : State :=
  match ws.findSome? fun w => (s.launchOf w.2).bind fun l => if s.fit l die = none then s.victimsFor w.1 l die else none with
  | some vs => vs.foldl (fun s g => s.stopGang g fun x => x) s
  | none => s

/-! ### One ck of the launch logic -/

/-- Submitted tasks are taken (R332). -/
def State.takeTasks (s : State) (die : Nat) : State :=
  let ns := tget s.submitted die []
  ns.foldl (fun s n =>
    let t := s.task die n
    let s := s.setTask die n { t with st := .free, count := 0 }
    match s.launchRead (die / 8 * 64 + t.ctx) die t.record 64 with
    | (s, .inl r) => submitLaunch (s.parseLaunch die t.record r (.task die n))
    | (s, .inr _) => s) { s with submitted := tset s.submitted die [] }

/-- Launches whose next gang is ready and finds no place begin to wait (R346). -/
def State.markWaiting (s : State) (die : Nat) (ws : List (Nat × Want)) : State :=
  ws.foldl (fun s w => match w.2 with
    | .start id => match s.launch id with
      | some l => if l.since = none ∧ s.fit l die = none then s.setLaunch id { l with since := some (s.clock l.pkg) } else s
      | none => s
    | .resume _ => s) s

/-- 19 R333: at most one dispatch. -/
def execLaunchLogicCk (p d : Nat) (s : State) : Host.Outcome State Fault Refusal :=
  let die := p * 8 + d
  done (
    if s.takes p = false ∨ d ≥ 8 ∨ s.lost.contains die ∨ s.dead.contains die then s
    else
      let s := (s.takeTasks die).beginGangs die
      let s := { s with logicCk := tset s.logicCk die (tget s.logicCk die 0 + 1) }
      let ws := s.wants die
      match ws.findSome? fun w => (s.placeFor die w.2).map fun cs => (w, cs) with
      | some ((_, .resume g), cs) => s.resumeGang g cs
      | some ((prio, .start id), cs) =>
        match s.launch id with
        | some l => (s.markWaiting die ws |>.dispatchGang id l die cs) |> fun s => { s with lastServed := tset s.lastServed (die * 16 + prio) l.source }
        | none => s
      | none => (s.markWaiting die ws).preempt die ws)

end Sys2Proof.Machine
end

