-- ==== Sys2Proof/Machine/Command.lean ====
section
/-! DEFINITION. Commands (19 R320 to R326, R330, R332, R336, R344, R345, R347), LAUNCH and the aggregator (10 R239, 12 R273), the ends of workgroups and launches
(09 R220, 12 R270, R275, R276), context faults (19 R347), team migration (19 R346). -/

namespace Sys2Proof.Machine

/-! ### Taking commands (R324, R325) -/

/-- True of a queue whose last command holds back the next one. -/
def State.queueHeld (s : State) (p j : Nat) : Bool :=
  (s.launches.any fun x => x.2.pkg = p && x.2.st = .taken && (match x.2.source with | .queue i _ => i = j | _ => false)) ||
  (s.ctxs.any fun c => c.1 / 64 = p && (c.2.destroying.map (·.1)) = some j) ||
  (s.gangs.any fun g => s.gangCtx g.2 / 64 = p && (g.2.haltCmd.map (·.1)) = some j)

/-- The next command of a queue: its index, its physical address, its 64 bytes, the die that reads the queue. -/
def State.nextCommand (s : State) (p j : Nat) : Option (Nat × Nat × Nat × Nat) :=
  match s.queueView p j with
  | none => none
  | some q =>
    if s.takes p = false ∨ j ≥ 128 ∨ q.head = q.tail ∨ s.lost.contains q.die ∨ s.dead.contains q.die ∨ s.queueHeld p j then none
    else
      let a := q.ring + 64 * (q.head % q.n)
      some (q.head, a, s.physRead a 64, q.die)

/-- The head command is taken where its kind is one of those given; f: what it does, with its index, address, bytes and die. -/
def State.command (s : State) (p j : Nat) (kind : Nat → Bool) (f : State → Nat → Nat → Nat → Nat → State) : State :=
  match s.nextCommand p j with
  | none => s
  | some (i, a, r, die) => if kind (r % 256) then f (s.homePut (s.queueDesc p j + 12) 4 ((i + 1) % 2 ^ 32)) i a r die else s

/-- A launch or a Marl start taken, or refused. -/
def State.launchAnswer (p j i : Nat) : State × (Launch ⊕ (Nat × Nat)) → State
  | (s, .inl l) => s.takeLaunch l
  | (s, .inr e) => s.statusPut p j i 4 e.1 e.2

/-- 19 R327: LAUNCH; a command of an unknown kind is refused with error 1. -/
def execLaunchCommand (p j : Nat) (s : State) : Host.Outcome State Fault Refusal :=
  done (s.command p j (fun k => decide (k ≤ 1 ∨ 9 ≤ k)) fun s i a r die =>
    if r % 256 = 1 then State.launchAnswer p j i (s.parseLaunch die a r (.queue j i)) else s.statusPut p j i 4 1 0)

/-- 19 R336. -/
def execMstart (p j : Nat) (s : State) : Host.Outcome State Fault Refusal :=
  done (s.command p j (fun k => k = 2) fun s i a r die => State.launchAnswer p j i (s.parseMarl die a r (.queue j i)))

/-! ### Contexts -/

/-- True of ranges of a grant entry that stay in their units and meet none of another's (R322). -/
def grantFits (g : Nat) : Bool :=
  bits g 63 41 = 0 && decide (bits g 5 0 + bits g 12 6 ≤ 64) && decide (bits g 19 13 + bits g 27 20 ≤ 128) && decide (bits g 33 28 + bits g 40 34 ≤ 64)
def grantsMeet (g h : Nat) : Bool :=
  rangesMeet (bits g 5 0) (bits g 12 6) (bits h 5 0) (bits h 12 6) || rangesMeet (bits g 19 13) (bits g 27 20) (bits h 19 13) (bits h 27 20) ||
  rangesMeet (bits g 33 28) (bits g 40 34) (bits h 33 28) (bits h 40 34)

/-- The checks of R322 on a descriptor's 128 bytes. -/
def State.createFails (s : State) (p n d : Nat) : Bool :=
  let gs := (List.range 8).map fun k => bits d (575 + 64 * k) (512 + 64 * k)
  (tget? s.ctxs (p * 64 + n)).isSome || bits d 255 226 ≠ 0 || bits d 225 224 = 3 || bits d 511 480 ≠ 0 || bits d 127 64 % 4 ≠ 0 ||
  bits d 63 46 ≠ 0 || bits d 319 302 ≠ 0 || bits d 447 430 ≠ 0 || !gs.all grantFits ||
  (s.ctxs.any fun c => c.1 / 64 = p && (List.range 8).any fun k => grantsMeet ((gs[k]?).getD 0) ((c.2.grants[k]?).getD 0))

/-- A context made resident (R320 to R322): its counters read 0, its slots and tasks are FREE, every token is clear. -/
def State.createCtx (s : State) (p n d : Nat) : State :=
  let gs := (List.range 8).map fun k => bits d (575 + 64 * k) (512 + 64 * k)
  let table := bits d 319 256
  let regions : Tab (Nat × Nat) := if table = 0 then [] else (List.range 63).filterMap fun i =>
    let a := p * 2 ^ 46 + table + 16 * i
    let len := s.physRead (a + 8) 8
    if len = 0 then none else some (i, (s.physRead a 8, len))
  let own (unit k x lo hi : Nat) : Bool := decide (k / unit / 8 = p) && inGrant (bits ((gs[k / unit % 8]?).getD 0) (lo + 5) lo) (bits ((gs[k / unit % 8]?).getD 0) hi (lo + 6)) x
  let s := s.settleArrivals p (s.clock p)
  let slotOwn (k : Nat) : Bool := let g := (gs[k / 8192 % 8]?).getD 0; decide (k / 8192 / 8 = p) && inGrant (bits g 19 13) (bits g 27 20) (k % 8192)
  { s with
    ctxs := tset s.ctxs (p * 64 + n)
      { ptroot := bits d 63 0, tvec := bits d 127 64, racebuf := bits d 191 128, racecap := bits d 223 192, raceMode := bits d 225 224
        packages := bits d 383 320, savepool := bits d 447 384, savegangs := bits d 479 448, grants := gs, regions := regions }
    counters := s.counters.filter fun x => !own 4096 x.1 (x.1 % 4096) 0 12
    slots := s.slots.filter fun x => !slotOwn x.1
    tasks := s.tasks.filter fun x => !own 4096 x.1 (x.1 % 4096) 28 40 }

/-- 19 R322; the status page of the new context is written (R323). -/
def execCtxcreate (p j : Nat) (s : State) : Host.Outcome State Fault Refusal :=
  done (s.command p j (fun k => k = 3) fun s i _ r _ =>
    let n := bits r 13 8
    let a := bits r 127 64
    if bits r 63 14 ≠ 0 ∨ bits r 511 128 ≠ 0 then s.statusPut p j i 4 1 0
    else if a % 64 ≠ 0 then s.statusPut p j i 4 7 0
    else
      let d := s.physRead (p * 2 ^ 46 + a % 2 ^ 46) 128
      if a ≥ 2 ^ 46 ∨ s.createFails p n d = true then s.statusPut p j i 4 6 0
      else ((s.createCtx p n d).putStatus (p * 64 + n)).statusPut p j i 3 0 0)

/-- Every gang of a context stops with an error (R347): those on cores at their quiesce point; the others end, their records kept; its launches fail. -/
def State.stopGangs (s : State) (k doom : Nat) : State :=
  let gs := s.gangs.filter fun g => s.gangCtx g.2 = k
  let s := gs.foldl (fun s g => match g.2.st with
    | .running => s.stopGang g.1 fun x => { x with doom := doom }
    | .stopping => s.setGang g.1 { g.2 with doom := if g.2.doom = 0 then doom else g.2.doom }
    | .suspended => s.setGang g.1 { g.2 with st := .ended }
    | .halted => s.setGang g.1 { g.2 with st := .ended }
    | _ => s) s
  ((s.launches.filter fun l => l.2.ctxKey = k).foldl (fun s l => s.failLaunch l.1 (doom % 256) (doom / 256)) s).evalCtx k

/-- A context faults on a package: status page, snapshot areas, gangs (R323, R347). -/
def State.faultCtx (s : State) (p ctx fault : Nat) : State :=
  let k := p * 64 + ctx
  if (tget? s.ctxs k).isNone then s
  else
    let s := (s.stopContext p ctx fault).putStatus k
    let s := (List.range 8).foldl (fun s d => s.putSnapshot k d) s
    s.stopGangs k 9

/-- 19 R347: a context fault reaches a package. -/
def execContextFaultMessage (p ctx : Nat) (fault : BitVec 16) (s : State) : Host.Outcome State Fault Refusal :=
  done (
    if s.faultMsgs.contains (p, ctx, fault.toNat) then
      ({ s with faultMsgs := s.faultMsgs.erase (p, ctx, fault.toNat) } : State).faultCtx p ctx fault.toNat
    else s)

/-- True of a gang that a context still has to wait for. -/
def Gang.alive (g : Gang) : Bool := g.st = .running || g.st = .stopping || g.st = .suspended || g.st = .halted

/-- The end of a destruction: no gang of the context is left and no slot of it is FIRED; its ARMED slots are cancelled, it is not resident. -/
def State.destroyed (s : State) (k : Nat) : Bool :=
  (s.gangs.all fun g => s.gangCtx g.2 ≠ k || !Gang.alive g.2) &&
  s.slots.all fun x => x.1 / 8192 / 8 ≠ k / 64 || x.2.ctx ≠ k % 64 || x.2.st ≠ .fired
def State.dropCtx (s : State) (k : Nat) : State :=
  { s with
    ctxs := tdel s.ctxs k
    gangs := s.gangs.map fun g => if s.gangCtx g.2 = k then (g.1, { g.2 with record := none }) else g
    slots := s.slots.map fun x => if x.1 / 8192 / 8 = k / 64 ∧ x.2.ctx = k % 64 ∧ x.2.st = .armed then (x.1, { x.2 with st := .free }) else x }

/-- 19 R347: CTXDESTROY stops the context's gangs; once nothing of it is left it is not resident any more. -/
def execCtxdestroy (p j : Nat) (s : State) : Host.Outcome State Fault Refusal :=
  done (match s.ctxs.find? fun c => c.1 / 64 = p ∧ (c.2.destroying.map (·.1)) = some j with
    | some c => if s.destroyed c.1 then (s.dropCtx c.1).statusPut p j ((c.2.destroying.map (·.2)).getD 0) 3 0 0 else s
    | none => s.command p j (fun k => k = 4) fun s i _ r _ =>
      let k := p * 64 + bits r 13 8
      if bits r 511 14 ≠ 0 then s.statusPut p j i 4 1 0
      else if (tget? s.ctxs k).isNone ∨ (s.ctx k).destroying.isSome then s.statusPut p j i 4 5 0
      else
        let s := (s.modCtx k fun c => { c with destroying := some (j, i) }).stopGangs k 9
        if s.destroyed k then (s.dropCtx k).statusPut p j i 3 0 0 else s.statusPut p j i 1 0 0)

/-! ### Tokens, tasks, debugger -/

/-- The host link as a token's placement. -/
def hostPlace : Nat := 2 ^ 40

/-- 19 R330. -/
def execToksig (p j : Nat) (s : State) : Host.Outcome State Fault Refusal :=
  done (s.command p j (fun k => k = 5) fun s i _ r _ =>
    let k := p * 64 + bits r 13 8
    let t := bits r 79 64
    if bits r 63 14 ≠ 0 ∨ bits r 511 80 ≠ 0 ∨ t = 0 ∨ t ≥ 4096 then s.statusPut p j i 4 1 0
    else if !s.ctxLive k then s.statusPut p j i 4 5 0
    else (s.modCtx k fun c => { c with tokens := tset c.tokens t [hostPlace], tokenScope := tdel c.tokenScope t, tokenPend := tdel c.tokenPend t }).statusPut
      p j i 3 0 0)

/-- 19 R332. -/
def execTaskarm (p j : Nat) (s : State) : Host.Outcome State Fault Refusal :=
  done (s.command p j (fun k => k = 6) fun s i _ r _ =>
    let k := p * 64 + bits r 13 8
    let die := p * 8 + bits r 18 16
    let t := bits r 47 32
    let a := bits r 127 64
    if bits r 15 14 ≠ 0 ∨ bits r 31 19 ≠ 0 ∨ t ≥ 4096 ∨ bits r 511 128 ≠ 0 then s.statusPut p j i 4 1 0
    else if !s.ctxLive k then s.statusPut p j i 4 5 0
    else if a % 64 ≠ 0 then s.statusPut p j i 4 7 0
    else if !s.hasTask k die t ∨ (s.task die t).st ≠ .free then s.statusPut p j i 4 11 0
    else (s.setTask die t { st := .armed, count := bits r 63 48, record := a, ctx := bits r 13 8 }).statusPut p j i 3 0 0)

/-- The gang that HALT and RESUME name. -/
def State.namedGang (s : State) (k addr index : Nat) : Option (Nat × Gang) :=
  s.gangs.find? fun g => s.gangCtx g.2 = k ∧ ((s.launch g.2.launch).map (·.addr)) = some addr ∧ g.2.index = index ∧ g.2.st ≠ .retired ∧ g.2.st ≠ .ended

/-- 19 R344: the gang halts at its quiesce point; the command is taken, and completes there. -/
def execHalt (p j : Nat) (s : State) : Host.Outcome State Fault Refusal :=
  done (s.command p j (fun k => k = 7) fun s i _ r _ =>
    let k := p * 64 + bits r 13 8
    if bits r 63 14 ≠ 0 ∨ bits r 511 160 ≠ 0 then s.statusPut p j i 4 1 0
    else if !s.ctxLive k then s.statusPut p j i 4 5 0
    else match s.namedGang k (bits r 127 64) (bits r 159 128) with
      | some (id, g) =>
        if g.haltCmd.isSome then s.statusPut p j i 4 11 0
        else if g.st = .running then (s.stopGang id fun x => { x with halt := true, haltCmd := some (j, i) }).statusPut p j i 1 0 0
        else if g.st = .stopping then (s.setGang id { g with halt := true, haltCmd := some (j, i) }).statusPut p j i 1 0 0
        else s.statusPut p j i 4 11 0
      | none => s.statusPut p j i 4 11 0)

/-- 19 R345: a halted gang whose record passes the checks may be placed again. -/
def execResume (p j : Nat) (s : State) : Host.Outcome State Fault Refusal :=
  done (s.command p j (fun k => k = 8) fun s i _ r _ =>
    let k := p * 64 + bits r 13 8
    if bits r 63 14 ≠ 0 ∨ bits r 511 160 ≠ 0 then s.statusPut p j i 4 1 0
    else if !s.ctxLive k then s.statusPut p j i 4 5 0
    else match s.namedGang k (bits r 127 64) (bits r 159 128) with
      | some (id, g) =>
        match g.st, s.launch g.launch, g.record with
        | .halted, some l, some n =>
          if s.recordFine l g n then
            ((s.setGang id { g with st := .suspended, since := s.clock p }).homePut (s.gangRecord k n + 13) 1 1).statusPut p j i 3 0 0
          else s.statusPut p j i 4 12 0
        | _, _, _ => s.statusPut p j i 4 11 0
      | none => s.statusPut p j i 4 11 0)

/-! ### LAUNCH and the aggregator (10 R239, 12 R273, R274) -/

/-- The release of LAUNCH: SYSTEM where the record's top level is the domain, else PACKAGE. -/
def State.launchScope (s : State) (t va : Nat) : Scope :=
  let x := s.who t
  match (s.virtRead x.ctx (tcPath x.core) x.user va 24).2 with
  | .inr _ => .pkg
  | .inl r =>
    if recTable r % 16 ≠ 0 then .pkg
    else match (s.virtRead x.ctx (tcPath x.core) x.user (recTable r + 8 * (recLevels r - 1)) 8).2 with
      | .inl e => if lvDomain e = 6 then .sys else .pkg
      | .inr _ => .pkg

/-- True of children that merge (R273). -/
def mergeable (a b : Launch) : Bool :=
  a.ctxKey = b.ctxKey && recCode a.body = recCode b.body && a.body.testBit 23 = b.body.testBit 23 && bits a.body 63 32 = bits b.body 63 32 &&
  recPrio a.body = recPrio b.body && a.levels.length = b.levels.length && a.levels.dropLast = b.levels.dropLast &&
  bits (a.levels.getLastD 0) 31 0 = bits (b.levels.getLastD 0) 31 0

/-- The children of a merge are submitted. -/
def State.closeMerge (s : State) (m : Merge) : State :=
  m.children.foldl (fun s l => if s.ctxLive l.ctxKey then s.takeLaunch l else s) { s with merges := s.merges.filter fun x => x.id ≠ m.id }

/-- A child launch reaches its die's aggregator. -/
def State.childLaunch (s : State) (ctx die va : Nat) : State :=
  match s.launchRead ctx die va 64 with
  | (s, .inr _) => s
  | (s, .inl r) =>
    match s.parseLaunch die va r (.child die) with
    | (s, .inr _) => s
    | (s, .inl l) =>
      if lvDomain (l.levels.getLastD 0) > 4 ∨ l.gangs = 0 then s.takeLaunch l
      else
        let m := match s.merges.find? fun m => m.die = die ∧ (m.children.all fun c => mergeable c l) = true with
          | some m => { m with children := m.children ++ [l] }
          | none => { id := s.nextId, die := die, opened := s.clock (die / 8), children := [l] }
        let s := { s with nextId := s.nextId + 1, merges := m :: s.merges.filter fun x => x.id ≠ m.id }
        if m.children.length ≥ 256 ∨ (m.children.map fun c => c.g * c.gangs).sum ≥ 4096 then s.closeMerge m else s

/-- 10 R239. -/
def execLaunch (o : Ops) (s : State) : Host.Outcome State Fault Refusal :=
  done (runGroup (.launch o) o (fun iss s0 s t =>
    let va := s0.srcA iss t (.launch o) o
    if va % 64 ≠ 0 then (s, .trap ⟨7, 0, va, 1⟩)
    else
      let sc := s0.launchScope t va
      if !s0.lanesReady iss o t fun u => s0.releaseReady u (s0.launchScope u (s0.srcA iss u (.launch o) o)) then (s, .stay (.blocked .again))
      else ((s.doRelease t sc).childLaunch (s0.ctxKey t) (s0.asterOf t) va, .next)) s)

/-- 12 R273: a merge that has been open for 4,096 ck is submitted. -/
def execAggregatorMergeTimeout (p d merge : Nat) (s : State) : Host.Outcome State Fault Refusal :=
  .next (match s.merges.find? fun m => m.id = merge ∧ m.die = p * 8 + d with
    | some m => if s.clock p ≥ m.opened + 4096 then s.closeMerge m else s
    | none => s)

/-! ### The ends of workgroups and launches -/

/-- The completion record of a workgroup (12 R275). -/
def completionRecord (exits : List Nat) (clock : Nat) : Nat :=
  exits.foldl max 0 + (exits.filter fun e => e ≠ 0).length * 2 ^ 16 + exits.length * 2 ^ 32 + clock * 2 ^ 64

/-- How the store of a completion record stands: it waits, it is made, it meets a translation fault at an address, or its home has refused it. -/
inductive Completion
  | wait (s : State)
  | put (s : State)
  | fault (s : State) (va cause : Nat)
  | refused (f : Nat × Nat × Nat × Nat)

/-- The eight-byte stores of the record from number 2 - n on. The last exiting thread waits for a store that may be refused, as at its own (03 R75, 20 R359): the next
one is then number heldA. -/
def State.putHalves (s : State) (x : Who) (va v : Nat) : Nat → Completion
  | 0 => .put (s.modThread x.tid fun th => { th with phase := 0, heldA := 0 })
  | n + 1 =>
    let j := 1 - n
    let a := (va + 8 * j) % 2 ^ 64
    match s.translate x.ctx (tcPath x.core) a { user := x.user, write := true } with
    | (s, .inr c) => .fault s a c
    | (s, .inl tg) =>
      let stay (s : State) (k : Nat) : Completion := .wait (s.modThread x.tid fun th => { th with heldA := k })
      if (match tg with | .cached pa => s.storeWaits x (itemsOf pa 8 0) | _ => s.uncachedPending x.tid) = true then stay s j
      else
        match s.storeTo x tg a 8 (v / 2 ^ (64 * j) % 2 ^ 64) .all false with
        | (s, .next) => s.putHalves x va v n
        | (s, _) => stay s (j + 1)
/-- The record stored by a thread of the core. -/
def State.putCompletion (s : State) (t va v : Nat) : Completion :=
  match (s.thread t).failed with
  | some f => .refused f
  | none => if (s.thread t).phase = 1 ∧ s.live (s.thread t).token = true then .wait s else s.putHalves (s.who t) va v (2 - (s.thread t).heldA)

/-- The last exiting thread of a core stands at its EXIT again, of which the store of the completion record is part (12 R276). -/
def State.atExit (s : State) (k t : Nat) : State :=
  (s.modCore k fun c => { c with exits := c.exits.dropLast }).modThread t fun th => { th.anew with run := .ready, heldA := 0 }
/-- It meets a fault at that store: it parks or traps as at any access (log 93). -/
def State.completionFault (s : State) (k t va cause : Nat) : State := (s.atExit k t).faultThread t va cause 2
/-- The store is refused: it takes the trap at its EXIT. -/
def State.completionTrap (s : State) (k t : Nat) (f : Nat × Nat × Nat × Nat) : State :=
  let s := s.atExit k t
  let pc := (s.thread t).pc
  let b := s.bytesAt (coreOf t) (s.fetchTag t) pc
  s.takeTrap (squadOf t) { code := f.1, cause := f.2.1, pc := pc, epc := pc, data := f.2.2.1, kind := f.2.2.2, nbytes := b.2, bytes := b.1, mask := laneMask [t] }

/-- A gang whose workgroups have all completed retires (12 R270): its threads' writes are the launch's to acknowledge. -/
def State.retireGang (s : State) (id : Nat) (g : Gang) (l : Launch) : State :=
  let ts := s.threads.filter fun x => g.cores.contains (coreOf x.1)
  let pend := (ts.flatMap fun x => (x.2.token :: x.2.pending)).filter fun m => s.live m
  let words := (ts.flatMap fun x => x.2.written.map fun w => (coreOf x.1, w)).eraseDups
  let s := s.leaveCores id g
  let s := s.setGang id { g with st := .retired, haltCmd := none, record := none }
  let s := match g.haltCmd with | some (j, i) => s.statusPut l.pkg j i 4 11 0 | none => s
  s.setLaunch g.launch { l with pend := (l.pend ++ pend).eraseDups, words := (l.words ++ words).eraseDups, placed := (l.placed ++ g.cores).eraseDups }

/-- 09 R220, 12 R275, R276: once all threads have exited, the ring, the matrix unit and the windows are done, the last of them stores the record. -/
def execWorkgroupComplete (p c : Nat) (s : State) : Host.Outcome State Fault Refusal :=
  let k := coreKey p c
  done (match (s.core k).gang.bind fun id => (s.gang id).map fun g => (id, g) with
    | none => s
    | some (id, g) =>
      match s.launch g.launch with
      | none => s
      | some l =>
        let w := (s.core k).wg
        let u := (s.core k).mat
        let ws := (s.core k).windows.filter fun x => x.2.st ≠ .unbound
        if (g.st ≠ .running ∧ g.st ≠ .stopping) ∨ g.completed.contains w ∨ (s.core k).exits.length ≠ (if l.marl then 1 else 64 * l.squads) ∨
            (s.copyCmds.any fun x => (x.2.ring.map (·.1)) = some k) = true ∨ u.ops ≠ [] ∨ u.queue ≠ [] then s
        else if (ws.any fun x => x.2.st = .filling || x.2.st = .draining || s.windowPending k x.1) = true then s
        else
          match ws.filter fun x => s.ownedWords k x.1 ≠ [] with
          | x :: r => (x :: r).foldl (fun s x => s.startDrain k x.1) s
          | [] =>
            let t := k * 2048 + (s.core k).lastExit
            let s := if (tget? s.threads t).isSome then s else s.setThread t { run := .exited }
            let va := (recRecords l.body + if l.marl then 0 else 16 * (w + l.g * g.index)) % 2 ^ 64
            match s.putCompletion t va (completionRecord (s.core k).exits (s.clock p)) with
            | .wait s => s
            | .fault s a c => s.completionFault k t a c
            | .refused f => s.completionTrap k t f
            | .put s =>
              let s := ws.foldl (fun s x => s.emptyWindow k x.1 .unbound) s
              let g := { g with completed := g.completed ++ [w] }
              let s := s.setGang id g
              if g.completed.length = g.cores.length then s.retireGang id g l else s)

/-- The completion release (R268, 03 R68): mirror entries of the written words, release counts of the agents. -/
def State.completeRelease (s : State) (l : Launch) : State :=
  let s := if l.top = .grp then s else l.words.foldl (fun s w =>
    match s.ownerOf w.2 with
    | some e => if e.agent = homeAgent w.1 then s.setMirror e.agent w.2 (s.wordVal w.2) else s
    | none => s) s
  if scopeRank l.top ≥ 2 then ((l.placed.map homeAgent).eraseDups).foldl State.bumpRelease s else s

/-- True of a launch of a context that lost a die, of which nothing runs any more: it cannot complete (20 R364). -/
def State.lossEnds (s : State) (l : Nat) (x : Launch) : Bool :=
  let c := s.ctx x.ctxKey
  let gs := s.gangs.filter fun g => g.2.launch = l
  c.faulted && c.faultCode = 16 && (x.st = .taken || x.st = .dispatched) && (gs.all fun g => g.2.st ≠ .running && g.2.st ≠ .stopping) &&
    ((gs.any fun g => g.2.st = .ended) || decide (x.next < x.gangs))

/-- 19 R326, R330, 12 R268: every gang has retired, or there are none and the launch is ready: the completion release, the token, status 3. -/
def execLaunchComplete (l : Nat) (s : State) : Host.Outcome State Fault Refusal :=
  done (match s.launch l with
    | none => s
    | some x =>
      let gs := s.gangs.filter fun g => g.2.launch = l
      let ended := (x.st = .dispatched && gs.all fun g => g.2.st = .retired) || (x.st = .taken && x.gangs = 0 && s.ready x && s.takes x.pkg)
      let acked := if x.top = .grp then x.pend.all fun i => !s.live i || (match s.msg i with | some m => m.kind = .reg | none => true)
        else s.acked x.pend x.words
      if s.lossEnds l x then s.failLaunch l 10 (s.ctx x.ctxKey).lostDie
      else if !ended || !acked then s
      else
        let s := s.completeRelease x
        let s := { s with gangs := s.gangs.filter fun g => g.2.launch ≠ l }
        let s := s.setLaunch l { x with st := .complete }
        let n := recProduce x.body
        let s := if n = 0 then s else s.modCtx x.ctxKey fun c =>
          { c with tokens := tset c.tokens n x.placed, tokenScope := tset c.tokenScope n x.top
                   tokenPend := if x.top = .grp then tset c.tokenPend n (x.pend, x.words) else tdel c.tokenPend n }
        s.launchStatus x 3 0 0)

/-! ### Team migration (R346, 12 R277) -/

/-- Clusters of a die all of whose cores are free. -/
def State.freeClusters (s : State) (die : Nat) : Nat :=
  ((List.range 8).filter fun j => (List.range 4).all fun i => (s.core (coreKey (die / 8) (32 * (die % 8) + 4 * j + i))).gang.isNone).length

/-- A die tells the others. -/
def execClusterAdvert (p d : Nat) (s : State) : Host.Outcome State Fault Refusal :=
  .next (if d < 8 ∧ ¬ s.lost.contains (p * 8 + d) then { s with adverts := tset s.adverts (p * 8 + d) (s.freeClusters (p * 8 + d)) } else s)

/-- The team of a gang of a launch. -/
def Launch.teamOf (l : Launch) (g : Gang) : Nat := (g.index - l.perPackage * l.index) / max l.teamGangs 1
/-- The migratable teams of a die: launch and team. -/
def State.migratable (s : State) (die : Nat) : List (Nat × Launch × Nat) :=
  (s.launches.filter fun x => x.2.pkg = die / 8 && x.2.migrates && (x.2.st = .taken || x.2.st = .dispatched) && s.ctxLive x.2.ctxKey).flatMap fun x =>
    ((List.range x.2.teams).filter fun t =>
      x.2.dieFor (t * x.2.teamGangs) = die && decide (0 < x.2.gangs) &&
      (s.gangs.all fun g => g.2.launch ≠ x.1 || x.2.teamOf g.2 ≠ t || g.2.st = .suspended) &&
      (decide (x.2.next < (t + 1) * x.2.teamGangs) || s.gangs.any fun g => g.2.launch = x.1 && x.2.teamOf g.2 = t)).map fun t => (x.1, x.2, t)

/-- True of a die a ready gang of which has waited for 65,536 ck. -/
def State.starved (s : State) (die : Nat) : Bool :=
  let late (c : Nat) : Bool := decide (s.clock (die / 8) ≥ c + 65536)
  (s.launches.any fun x => x.2.pkg = die / 8 && x.2.st = .taken && decide (x.2.next < x.2.gangs) && x.2.dieFor x.2.next = die &&
    (match x.2.since with | some c => late c | none => false)) ||
  s.gangs.any fun g => g.2.die = die && g.2.st = .suspended && late g.2.since

/-- A die offers its migratable team of the lowest priority to the die with the most free clusters. -/
def execMigrationOffer (p d : Nat) (s : State) : Host.Outcome State Fault Refusal :=
  let die := p * 8 + d
  .next (
    let best := (s.migratable die).foldl (fun (b : Option (Nat × Launch × Nat)) x => match b with
      | none => some x
      | some y => if recPrio x.2.1.body < recPrio y.2.1.body then some x else some y) none
    let dst := ((List.range 8).filter fun e => e ≠ d ∧ ¬ s.lost.contains (p * 8 + e)).foldl (fun (b : Option Nat) e => match b with
      | none => some e
      | some y => if tget s.adverts (p * 8 + e) 0 > tget s.adverts (p * 8 + y) 0 then some e else some y) none
    match best, dst with
    | some x, some e =>
      if s.takes p = false ∨ s.starved die = false ∨ tget s.adverts (p * 8 + e) 0 = 0 ∨ s.lost.contains die ∨
          (s.offers.any fun o => o.src = die || (o.launch = x.1 && o.team = x.2.2)) = true then s
      else { s with offers := s.offers ++ [{ src := die, dst := p * 8 + e, launch := x.1, team := x.2.2 }] }
    | _, _ => s)

/-- The receiver takes the team where it makes no offer itself, the team is still migratable, and it has room. -/
def execMigrationOfferReceive (p d : Nat) (s : State) : Host.Outcome State Fault Refusal :=
  let die := p * 8 + d
  done (match s.offers.find? fun o => o.dst = die with
    | none => s
    | some o =>
      let making := s.offers.any fun x => x.src = die
      let s := { s with offers := s.offers.erase o }
      match (s.migratable o.src).find? fun x => x.1 = o.launch ∧ x.2.2 = o.team with
      | none => s
      | some (id, l, t) =>
        if making ∨ s.fit l die = none ∨ s.lost.contains die then s
        else
          let s := s.touch l.ctxKey d
          let s := s.setLaunch id { l with moved := (t, die) :: l.moved.filter fun m => m.1 ≠ t, since := none }
          { s with gangs := s.gangs.map fun g => if g.2.launch = id ∧ l.teamOf g.2 = t then (g.1, { g.2 with die := die }) else g })

end Sys2Proof.Machine
end

