-- ==== Sys2Proof/Machine/Links.lean ====
section
/-! DEFINITION. Flits, rings, modules and fabric lines (21 R366 to R371, R375 to R377): what a receiver does with a flit, a ring cycle, retraining. -/

namespace Sys2Proof.Machine

/-! ### The check of a flit (R366) -/

/-- CRC-32C of zero bits more, without the initial and the final inversion: n bits shifted out. -/
def crcShift : Nat → Nat → Nat
  | 0, c => c
  | n + 1, c => crcShift n (if c.testBit 0 then (c / 2) ^^^ 0x82F63B78 else c / 2)
/-- The linear part of CRC-32C over bytes, lowest first. -/
def crcBytes (bs : List Nat) : Nat := bs.foldl (fun c b => crcShift 8 (c ^^^ b)) 0

/-- True where the errors that a crossing adds to a flit's 640 bits, one bit set for each bit changed, leave a CRC mismatch or a reserved bit set: the CRC is
linear, so the bits sent do not matter. Other errors are not seen by the check (log 19). -/
def noiseSeen (noise : BitVec 640) : Bool :=
  let byte (i : Nat) : Nat := noise.toNat / 2 ^ (8 * i) % 256
  let data := ((List.range 12).map byte) ++ (List.range 64).map fun i => byte (16 + i)
  crcBytes data ≠ bits noise.toNat 127 96 || bits noise.toNat 21 20 ≠ 0

/-! ### Modules (R371) -/

/-- The key of a module, the place of its counter. -/
def moduleKey (p socket md : Nat) : Nat := p * 1024 + socket * 32 + md
def moduleOff (socket md : Nat) : Nat := healthOff socket (32 + md)
def State.module' (s : State) (p socket md : Nat) : Module := tget s.modules (moduleKey p socket md) {}
def State.setModule (s : State) (p socket md : Nat) (x : Module) : State := { s with modules := tset s.modules (moduleKey p socket md) x }
/-- The lanes of a module in use: 64, 32 or 0. -/
def State.moduleWidth (s : State) (p socket md : Nat) : Nat := s.hreg p (moduleOff socket md) % 256
/-- The width field written. -/
def State.setWidth (s : State) (p socket md w : Nat) : State :=
  let x := s.hreg p (moduleOff socket md)
  s.setHreg p (moduleOff socket md) (x - x % 256 + w)

/-- The module that carries the next packet of one direction (up: to the router): round-robin over the modules in service, each taking as many turns as it has
halves in use. -/
def State.moduleTurn (s : State) (p socket : Nat) (up : Bool) : State × Option Nat :=
  let turns := (List.range 24).flatMap fun m => List.replicate (s.moduleWidth p socket m / 32) m
  let key := (if up then 2 ^ 21 else 2 ^ 20) + p * 32 + socket
  let n := tget s.lineNext key 0
  match turns[n % turns.length]? with
  | some m => ({ s with lineNext := tset s.lineNext key ((n + 1) % turns.length) }, some m)
  | none => (s, none)

/-- A lane of a module fails: the module leaves service and retrains (R371). -/
def State.laneFail (s : State) (p socket md lane : Nat) : State :=
  let x := s.module' p socket md
  let y := { x with failed := x.failed ||| BitVec.ofNat 64 (2 ^ lane) }
  if x.training ∨ s.moduleWidth p socket md = 0 then s.setModule p socket md y
  else
    let s := (s.setModule p socket md { y with training := true }).setWidth p socket md 0
    s.setHreg p (moduleOff socket md) (bumpField (s.hreg p (moduleOff socket md)) 23 8)

/-- R371: the lane monitor of a module detects a failed lane. -/
def execModuleLaneFail (p socket md lane : Nat) (s : State) : Host.Outcome State Fault Refusal :=
  .next (if socket ≥ 20 ∨ md ≥ 24 ∨ lane ≥ 64 then s else s.laneFail p socket md lane)

/-- The lane of a module of a width to which all the bits that a crossing changed belong: byte i of a flit travels on lane i modulo the width, in the half of
the module that is in use (log 19). -/
def noiseLane (noise : BitVec 640) (width : Nat) (failed : BitVec 64) : Option Nat :=
  let hit := (List.range 80).filter fun i => noise.toNat / 2 ^ (8 * i) % 256 ≠ 0
  match hit.map fun i => i % width with
  | [] => none
  | l :: r => if r.all fun k => k = l then some (l + if width = 32 ∧ failed.toNat % 2 ^ 32 ≠ 0 then 32 else 0) else none

/-- R371: the module returns at 32 lanes where one half is whole, else it stays out. -/
def execModuleRetrainDone (p socket md : Nat) (s : State) : Host.Outcome State Fault Refusal :=
  .next (
    let x := s.module' p socket md
    if x.training = false then s
    else
      let both := x.failed.toNat % 2 ^ 32 ≠ 0 && x.failed.toNat / 2 ^ 32 ≠ 0
      (s.setModule p socket md { x with training := false }).setWidth p socket md (if both then 0 else 32))

/-! ### Rings (R367 to R369) -/

/-- A transit buffer's key; the flits that stand in it. -/
def transitKey (p ring socket : Nat) : Nat := p * 64 + ring * 32 + socket
def State.transitAt (s : State) (p ring socket : Nat) : List Flit := tget s.transit (transitKey p ring socket) []
def State.ingressAt (s : State) (p socket : Nat) : List Flit := tget s.ingress (p * 32 + socket) []
def State.injectAt (s : State) (p socket : Nat) : List Flit := tget s.inject (p * 32 + socket) []
def State.setIngress (s : State) (p socket : Nat) (l : List Flit) : State := { s with ingress := tset s.ingress (p * 32 + socket) l }
def State.upwardAt (s : State) (p socket : Nat) : List Flit := tget s.upward (p * 32 + socket) []
def State.setUpward (s : State) (p socket : Nat) (l : List Flit) : State := { s with upward := tset s.upward (p * 32 + socket) l }
def State.setInject (s : State) (p socket : Nat) (l : List Flit) : State := { s with inject := tset s.inject (p * 32 + socket) l }
def State.setTransit (s : State) (p ring socket : Nat) (l : List Flit) : State := { s with transit := tset s.transit (transitKey p ring socket) l }

/-- The next router of a ring. -/
def nextRouter (ring socket : Nat) : Nat := if ring = 0 then (socket + 1) % 20 else (socket + 19) % 20
/-- The ring of a flit that enters at a socket: the shorter way, ring 0 where both are as long; a multicast's own. -/
def Flit.way (f : Flit) (socket : Nat) : Nat :=
  match f.ring with
  | some r => r
  | none => if 2 * ((f.dst + 20 - socket) % 20) ≤ 20 then 0 else 1

/-- True of a flit for the passenger of a router; what goes on from there. -/
def Flit.local' (f : Flit) (socket : Nat) : Bool := if f.dst = 31 then f.mask.testBit socket else f.dst = socket
def Flit.onward (f : Flit) (socket : Nat) : Option Flit :=
  if f.dst = 31 then
    let m := if f.mask.testBit socket then f.mask - 2 ^ socket else f.mask
    if m = 0 then none else some { f with mask := m }
  else if f.dst = socket then none else some f

/-- Places of a passenger's ingress that flits from its router may fill; one of them is kept for multicasts (R369, log 61). -/
def ingressRoom : Nat := 32
/-- What a router does with the flits of its buffer in a ring cycle: those for its passenger, those that go to the next router, those that wait. -/
structure Turn where
  here : List Flit := []
  go : List Flit := []
  wait : List Flit := []
  deriving DecidableEq, Repr

/-- One flit's turn, with free places at the passenger and at the next router. A multicast advances only where all its branches have space; a flit whose
passenger has none goes round the ring (R368, R369, log 61). -/
def Turn.flit (socket free room : Nat) (t : Turn) (f : Flit) : Turn :=
  let keep := if f.dst = 31 then 0 else 1
  let take := Flit.local' f socket && decide (t.here.length + keep < free)
  if f.dst = 31 ∧ Flit.local' f socket = true ∧ take = false then { t with wait := t.wait ++ [f] }
  else
    match (if Flit.local' f socket && !take then some f else Flit.onward f socket) with
    | none => { t with here := t.here ++ [f] }
    | some g =>
      if t.go.length ≥ room then { t with wait := t.wait ++ [f] }
      else { t with here := if take then t.here ++ [f] else t.here, go := t.go ++ [g] }
/-- A router's turn. -/
def routerTurn (socket free room : Nat) (l : List Flit) : Turn := l.foldl (Turn.flit socket free room) {}

/-- Free places of a passenger's ingress. -/
def State.ingressFree (s : State) (p i : Nat) : Nat := ingressRoom - ((s.ingressAt p i).filter fun f => f.line.isNone && decide (f.src ≠ i)).length
/-- Every flit on a ring moves one hop: it leaves the ring at its passenger, or stands in the next router's buffer (R367). Where a flit waits for its passenger,
the routers take their turns one by one, from the one before the emptiest buffer against the ring. -/
def State.advance (s : State) (p ring : Nat) : State :=
  let old (i : Nat) : List Flit := s.transitAt p ring i
  let turn (i : Nat) : Turn := routerTurn i (s.ingressFree p i) 32 (old i)
  if (List.range 20).all fun i => (turn i).wait = [] then
    let s := (List.range 20).foldl (fun s i => s.setIngress p i (s.ingressAt p i ++ (turn i).here)) s
    (List.range 20).foldl (fun s i => s.setTransit p ring (nextRouter ring i) (turn i).go) s
  else
    let first := ((List.range 20).foldl (fun (b : Nat) i => if (old i).length < (old b).length then i else b) 0)
    let order := (List.range 20).map fun i => if ring = 0 then (first + 39 - i) % 20 else (first + 1 + i) % 20
    let moved := order.foldl (fun (x : State × Tab Nat) i =>
      let j := nextRouter ring i
      let stays := tget x.2 j (old j).length
      let t := routerTurn i (x.1.ingressFree p i) (32 - stays) (old i)
      let next := x.1.transitAt p ring j
      let s := (x.1.setIngress p i (x.1.ingressAt p i ++ t.here)).setTransit p ring j (next ++ t.go)
      (s.setTransit p ring i (t.wait ++ (s.transitAt p ring i).drop (old i).length), tset x.2 i t.wait.length)) (s, [])
    moved.1

/-- The flits of a socket enter in order, each where at least two slots of the next router's buffer of 32 are free. -/
def State.enter (s : State) (p socket : Nat) : State :=
  (s.injectAt p socket).foldl (fun s f =>
    let ring := Flit.way f socket
    let j := nextRouter ring socket
    let l := s.transitAt p ring j
    if l.length + 2 ≤ 32 then s.setTransit p ring j (l ++ [f]) else s.setInject p socket (s.injectAt p socket ++ [f])) (s.setInject p socket [])

/-- R367, R368: one ring cycle of a package. -/
def execRingCycle (p : Nat) (s : State) : Host.Outcome State Fault Refusal :=
  .next (
    if s.held p then s
    else
      let s := (s.advance p 0).advance p 1
      (List.range 20).foldl (fun s i => s.enter p i) s)

/-! ### Receiving a flit -/

/-- A flit is lost: its request has one copy less on its way; an answer is lost with nothing else. -/
def State.loseFlit (s : State) (f : Flit) : State :=
  match f.msg with
  | none => s
  | some id =>
    match s.msg id with
    | none => s
    | some m =>
      let m := { m with flying := m.flying - 1 }
      if f.answer then s
      else if m.st = .finished ∧ m.flying = 0 then { s with msgs := tdel s.msgs id } else s.setMsg id m

/-- A line's peer (R375): package p receives on line k from this package, and sends to it on line 64 - k. -/
def linePeer (p k : Nat) : Nat := (p + 64 - k % 64) % 64
/-- The flits of a packet of two that are still on their way in their package, with the module and the plane that carry the packet. -/
def State.onPath (s : State) (k : Nat) (f : Flit → Flit) : State :=
  let g (t : Tab (List Flit)) : Tab (List Flit) := t.map fun e => (e.1, e.2.map fun x => if x.packet = k ∧ k ≠ 0 then f x else x)
  { s with upward := g s.upward, inject := g s.inject, transit := g s.transit, ingress := g s.ingress }
/-- A flit is lost, and its packet with it: its other flit is dropped as it comes (R366). -/
def State.losePacket (s : State) (f : Flit) : State :=
  if f.packet = 0 then s.loseFlit f
  else if s.assembling.contains (f.packet, true) then { s with assembling := s.assembling.erase (f.packet, true) }
  else if s.assembling.contains (f.packet, false) then ({ s with assembling := s.assembling.erase (f.packet, false) } : State).loseFlit f
  else ({ s with assembling := s.assembling ++ [(f.packet, true)] } : State).loseFlit f

/-- A flit leaves its package by a line of the Silt die, by turns, its packet on one plane; with no line in service it is lost (R376). -/
def State.cross (s : State) (p silt q : Nat) (f : Flit) : State :=
  let ls := s.linesTo p silt q
  let key := p * 128 + silt * 64 + q
  let n := tget s.lineNext key 0
  let go (s : State) (plane : Nat) : State :=
    s.setIngress q (18 + silt) (s.ingressAt q (18 + silt) ++ [{ f with pkg := s.pkgNum p, md := none, line := some (plane * 64 + (q + 64 - p) % 64) }])
  match f.plane.filter fun x => ls.contains x, ls[n % ls.length]? with
  | some plane, _ => go s plane
  | none, some plane =>
    go (({ s with lineNext := tset s.lineNext key ((n + 1) % ls.length) } : State).onPath f.packet fun x => { x with plane := some plane }) plane
  | none, none => s.losePacket f

/-- A flit of a packet at its endpoint: the whole packet is there with its last flit (R366). -/
def State.assemble (s : State) (f : Flit) : State × Bool :=
  if f.packet = 0 then (s, true)
  else if s.assembling.contains (f.packet, true) then ({ s with assembling := s.assembling.erase (f.packet, true) }, false)
  else if s.assembling.contains (f.packet, false) then ({ s with assembling := s.assembling.erase (f.packet, false) }, true)
  else ({ s with assembling := s.assembling ++ [(f.packet, false)] }, false)

/-- A passenger's own flits toward its router. -/
def State.sendUp (s : State) (p socket : Nat) (fs : List Flit) : State := s.setUpward p socket (s.upwardAt p socket ++ fs)

/-- A notice of a multicast at a passenger: one that came by a line goes to every passenger of its package; one that waits at its Silt die tries again. -/
def State.acceptCast (s : State) (p socket : Nat) (f : Flit) (c : Cast) : State :=
  if c.pkg ≠ p then s.castTo p c.pkg c.what
  else if f.line.isSome then s.sendUp p socket (castFlits (s.pkgNum p) socket (some c))
  else s

/-- A flit that passed its check is at its passenger. -/
def State.accept (s : State) (p socket : Nat) (f : Flit) : State :=
  match f.cast, f.msg with
  | some c, _ => s.acceptCast p socket f c
  | none, none => s
  | none, some id =>
    match s.msg id with
    | none => s
    | some m =>
      let e := if f.answer then m.src else m.dst
      if endPkg e ≠ p then s.cross p (socket - 18) (endPkg e) f
      else if endSocket e = socket then
        let r := s.assemble f
        if r.2 = false then r.1
        else if f.answer then r.1.answerHere id m
        else r.1.setMsg id { m with arrived := m.arrived + 1, lwms := m.lwms ++ [f.lwm] }
      else s.sendUp p socket [{ f with pkg := s.pkgNum p, dst := endSocket e, src := socket, md := none, plane := none, line := none }]

/-- True where four drops lie within 10 us of each other, newest first (R377). -/
def State.fourDrops (s : State) (p : Nat) (l : List Nat) : Bool :=
  match l with
  | [a, _, _, d] => decide (a < d + s.ckOf p 10000)
  | _ => false

/-- The drop of a flit counted: at the receiver, at its module, or at its line, which keeps the time (R366, R371, R377). -/
def State.countDrop (s : State) (p socket : Nat) (md : Option Nat) (line : Option Nat) : State :=
  let s := s.health p socket 0 1
  let s := match md with
    | some m => s.setHreg p (moduleOff socket m) (bumpField (s.hreg p (moduleOff socket m)) 63 24)
    | none => s
  match line with
  | some l =>
    let plane := l / 64
    let k := l % 64
    let x := s.line p plane k
    let drops := (s.clock p :: x.drops).take 4
    (s.setLine p plane k { x with drops := drops, due := x.due || s.fourDrops p drops }).setHreg p (lineHealth plane k) (bumpField (s.hreg p (lineHealth plane k)) 15 0)
  | none => s

/-- True of a check that fails: the CRC, the reserved bits, or a type that no message has (R366). -/
def Flit.fails (f : Flit) (noise : BitVec 640) : Bool := noiseSeen noise || !typeKnown (f.type ^^^ bits noise.toNat 31 24)

/-- A multicast's flit that a receiver dropped is sent again, to that receiver alone; a notice on a line, on every plane (log 19). -/
def State.recast (s : State) (p socket : Nat) (f : Flit) (up : Bool) : State :=
  match f.cast with
  | none => s
  | some c =>
    match f.line with
    | some l => s.castTo (linePeer p (l % 64)) p c.what
    | none => if up then s.sendUp p socket [f] else s.sendUp p f.src [{ f with mask := 2 ^ socket, md := none }]

/-- A flit that its receiver drops: counted, its packet lost; errors within one lane take the module out of service (R366, R371). -/
def State.dropFlit (s : State) (p socket : Nat) (f : Flit) (md : Option Nat) (noise : BitVec 640) (up : Bool) : State :=
  let s := ((s.losePacket f).countDrop p socket md f.line).recast p socket f up
  match md with
  | none => s
  | some m =>
    match noiseLane noise (s.moduleWidth p socket m) (s.module' p socket m).failed with
    | some l => s.laneFail p socket m l
    | none => s

/-- The module of the next packet of a crossing: the one that carries its other flit, or the next in turn. -/
def State.crossing (s : State) (p socket : Nat) (f : Flit) (up : Bool) : State × Option Nat :=
  match f.md with
  | some m => (s, some m)
  | none =>
    match s.moduleTurn p socket up with
    | (t, some m) => (t.onPath f.packet fun x => { x with md := some m }, some m)
    | (t, none) => (t, none)

/-- R366: the next flit of a receiver is checked; one that fails is dropped and counted, and nothing else happens. Sockets from 32 on name the router side of a
socket, which takes what the passenger sends (log 19). noise: the bits that its crossing changed. A flit on a fabric line comes from there, one that its own
passenger sends on crosses no module, any other comes through a module. -/
def execFlitReceive (p socket : Nat) (noise : BitVec 640) (s : State) : Host.Outcome State Fault Refusal :=
  .next (
    if socket ≥ 32 then
      let a := socket - 32
      match s.upwardAt p a with
      | [] => s
      | f :: rest =>
        if s.held p then (if f.cast.isSome then s else (s.setUpward p a rest).losePacket f)
        else
          match (s.setUpward p a rest).crossing p a f true with
          | (_, none) => s
          | (t, some m) =>
            if f.fails noise then t.dropFlit p a f (some m) noise true
            else t.setInject p a (t.injectAt p a ++ [{ f with md := none }])
    else
      match s.ingressAt p socket with
      | [] => s
      | f :: rest =>
        let t := s.setIngress p socket rest
        if s.held p then (if f.cast.isSome then s else t.losePacket f)
        else if f.line.isSome ∨ f.src = socket then (if f.fails noise then t.dropFlit p socket f none noise false else t.accept p socket f)
        else
          match t.crossing p socket f false with
          | (_, none) => s
          | (t, some m) => if f.fails noise then t.dropFlit p socket f (some m) noise false else t.accept p socket f)

/-! ### Lines (R377) -/

/-- A time in ns has passed since a clock. -/
def State.within (s : State) (p c ns : Nat) : Bool := decide (s.clock p < c + s.ckOf p ns)

/-- R377: four drops within 10 us, or a lost lock: the line trips, and the receiver has a notice to send. -/
def execLineRetrainStart (p plane line : Nat) (lostLock : Bool) (s : State) : Host.Outcome State Fault Refusal :=
  .next (
    let x := s.line p plane line
    if plane ≥ 8 ∨ line ≥ 64 ∨ x.phase ≠ .service ∨ s.lineLit p line = false ∨
        ¬ (lostLock = true ∨ x.due = true) then s
    else (s.setLine p plane line { x with phase := .tripped, due := false }).setHreg p (lineHealth plane line) (bumpField (s.hreg p (lineHealth plane line)) 31 16))

/-- R377: the notice reaches the sender on another plane, and the sender stops using the line. -/
def execRetrainNotice (p plane line : Nat) (s : State) : Host.Outcome State Fault Refusal :=
  .next (
    let x := s.line p plane line
    let q := linePeer p line
    if x.phase = .tripped ∧ (s.linesTo p 0 q ++ s.linesTo p 1 q).any (fun k => k ≠ plane) = true then s.setLine p plane line { x with phase := .training, sending := false } else s)

/-- R377, 22 R388: the training ends: the line returns to service; or it trains again, or is held out after the third failure within a second, or after the
first failure of a training that the host ordered. A line whose ends are not both trained cannot succeed. -/
def execLineRetrainDone (p plane line : Nat) (good : Bool) (s : State) : Host.Outcome State Fault Refusal :=
  .next (
    let x := s.line p plane line
    if x.phase ≠ .training then s
    else if good && s.lineLit p line then s.setLine p plane line { x with phase := .service, sending := true, drops := [], due := false, ordered := false }
    else
      let fails := s.clock p :: x.fails.filter fun c => s.within p c 1000000000
      if x.ordered ∨ fails.length ≥ 3 then s.setLine p plane line { x with phase := .heldOut, fails := fails, ordered := false, sending := false }
      else
        (s.setLine p plane line { x with fails := fails }).setHreg p (lineHealth plane line) (bumpField (s.hreg p (lineHealth plane line)) 31 16))

end Sys2Proof.Machine
end

