-- ==== Sys2Proof/Machine/DieLoss.lean ====
section
/-! DEFINITION. Die loss and fatal errors (20 R361 to R365): heartbeats, the loss of a die, what its buddy and its contexts do, the dump, the return of a die. -/

namespace Sys2Proof.Machine

/-! ### Heartbeats and detection (R362) -/

/-- A package whose rings carry heartbeats. -/
def State.alive (s : State) (p : Nat) : Bool := s.hreg p 0x2300 = 1 && !s.held p && !(s.pkg p).off
/-- True of a die that is neither lost nor declared lost. -/
def State.dieUp (s : State) (die : Nat) : Bool := !s.lost.contains die && !s.dead.contains die
/-- Every die of a package counts as heard from now. -/
def State.hearAll (s : State) (p : Nat) : State :=
  s.modPkg p fun x => { x with beats := (List.range 8).map fun d => (d, s.clock p) }

/-- R362: a heartbeat goes to every passenger on both rings. -/
def execHeartbeat (p d : Nat) (s : State) : Host.Outcome State Fault Refusal :=
  .next (
    if d ≥ 8 ∨ s.alive p = false ∨ s.dieUp (p * 8 + d) = false then s
    else
      let s := s.modPkg p fun x => { x with beats := tset x.beats d (s.clock p) }
      s.setUpward p d (s.upwardAt p d ++ (castFlits (s.pkgNum p) d none).map fun f => { f with agent := s.agentNum (dieAgent (p * 8 + d)) }))

/-- R362: a die is declared lost: no heartbeat for 8 us, an error that it reports, or the host's reset. Its router sends the broadcast to every passenger and
to every peer package. -/
def execDieLostDetect (p d : Nat) (error hostReset : Bool) (s : State) : Host.Outcome State Fault Refusal :=
  let die := p * 8 + d
  .next (
    if d ≥ 8 ∨ s.alive p = false ∨ s.dieUp die = false ∨
        ¬ (error = true ∨ hostReset = true ∨ s.clock p ≥ tget (s.pkg p).beats d 0 + s.ckOf p 8000) then s
    else
      let s : State := { s with dead := die :: s.dead }
      let s := s.setInject p d (s.injectAt p d ++ castFlits (s.pkgNum p) d (some { what := .dieLoss die, pkg := p }))
      ((List.range 64).filter fun q => q ≠ p && s.inDomain p q).foldl (fun s q => s.castTo p q (.dieLoss die)) s)

/-! ### The homes and the buddy (R363) -/

/-- True of the 16-bit numbers of a die, its copy engines and its Aster unit. -/
def ofDie (die e : Nat) : Bool := decide (e < 65536 ∧ e / 1024 = die / 8 ∧ endSocket e = die % 8)

/-- The words that a die owns. -/
def State.dieWords (s : State) (die : Nat) : List Nat :=
  s.owners.flatMap fun l => (l.2.filter fun e => e.agent = dieAgent die).flatMap fun e =>
    ((List.range 16).filter fun j => e.mask.testBit j).map fun j => l.1 * 16 + j
/-- True where the die's words have not all a mirror entry: it ran unmirrored. A word whose grant is on its way has none yet. -/
def State.unmirrored (s : State) (die : Nat) : Bool :=
  (s.dieWords die).any fun w => (tget? s.mirror (copyKey die w)).isNone && !s.granting w

/-- The die's entries pass to its buddy, which takes the mirror's values; those of its engines and its Aster unit are freed. -/
def State.takeOver (s : State) (die : Nat) : State :=
  let b := buddyOf die
  let vals := (s.dieWords die).map fun w => (w, ((tget? s.mirror (copyKey die w)).map (·.2)).getD (s.homeWord w))
  let count := (s.releases (dieAgent b) + 2 ^ 16 - 1) % 2 ^ 16
  let owners := (s.owners.map fun l => (l.1, (l.2.filter fun e => e.agent = dieAgent die || !ofDie die e.agent).map fun e =>
    if e.agent = dieAgent die then { e with agent := dieAgent b, relcount := count } else e)).filter fun l => l.2 ≠ []
  vals.foldl (fun s x => s.setCopy (l2Level b) x.1 { val := x.2, owned := true, holder := 8 }) { s with owners := owners }

/-- The flits of a request leave the rings. -/
def State.dropFlits (s : State) (id : Nat) : State :=
  let cut (t : Tab (List Flit)) : Tab (List Flit) := t.map fun e => (e.1, e.2.filter fun f => f.msg ≠ some id)
  { s with upward := cut s.upward, inject := cut s.inject, transit := cut s.transit, ingress := cut s.ingress }
def State.dropMsg (s : State) (id : Nat) : State := { s.dropFlits id with msgs := tdel s.msgs id }

/-- An access to a page pinned to a lost die faults with cause 9: a thread's traps, each lane's of an atomic of several (a load that its thread has left behind traps where
the thread stands); an operation's and a copy's fails it. -/
def State.homeLost (s : State) (id : Nat) (m : Msg) : State :=
  let s := s.dropMsg id
  match m.client with
  | .thread t =>
    (m.threads t).foldl (fun (s : State) t =>
      let th := s.thread t
      if th.token = id then s.failThread t (9, 9, m.va, Msg.accessKind m)
      else if th.run = .exited then s
      else (s.breakChain t).takeTrap (squadOf t)
        { code := 9, cause := 9, pc := m.pc, epc := s.chainHead t, data := m.va, kind := Msg.accessKind m, mask := laneMask [t] }) s
  | .aster die n => s.slotFails die n (if m.ctx / 64 = die / 8 then 1 else 2)
  | .copy cmd => s.copyRefused cmd m
  | _ => s

/-- The requests of a lost die end; what homes asked of it goes to its buddy. -/
def State.moveMsgs (s : State) (die : Nat) : State :=
  s.msgs.foldl (fun s x =>
    let m := x.2
    if ofDie die m.src then s.dropMsg x.1
    else if !ofDie die m.dst then s
    else
      match m.kind with
      | .grant => s.dropMsg x.1
      | .fwd => (s.dropMsg x.1).post x.1 { m with dst := dieAgent (buddyOf die), agent := dieAgent (buddyOf die), tries := 0 }
      | .rev => (s.dropMsg x.1).post x.1 { m with dst := dieAgent (buddyOf die), agent := dieAgent (buddyOf die), tries := 0 }
      | .inv => (s.dropMsg x.1).post x.1 { m with dst := dieAgent (buddyOf die), agent := dieAgent (buddyOf die), tries := 0 }
      | _ => if m.attr = 1 ∨ m.attr = 2 then s.homeLost x.1 m else s) s

/-! ### The contexts (R364) -/

/-- A gang ends; a HALT that waits for it fails. -/
def State.endGang (s : State) (id : Nat) (g : Gang) : State :=
  let s := match g.haltCmd with | some (j, n) => s.statusPut (s.gangCtx g / 64) j n 4 11 0 | none => s
  s.setGang id { g with st := .ended, record := none, haltCmd := none }

/-- A thread of a faulted context takes the trap at its next instruction: one that waits for what may never come stands again at its instruction. -/
def State.lossThread (s : State) (t : Nat) : State :=
  let th := s.thread t
  let waits : Bool := match th.run with
    | .hold => true
    | .parked _ => true
    | .blocked .msgs => false
    | .blocked .again => false
    | .blocked _ => true
    | _ => false
  if th.run = .exited then s
  else if waits = false ∨ th.supervisor = true then s.modThread t fun th => { th with lossPend := true }
  else
    let s : State := { s with queues := s.queues.map fun q => (q.1, { q.2 with waiters := q.2.waiters.filter fun w => w.tid ≠ t }) }
    let s := s.modCore (coreOf t) fun c => { c with ringWait := c.ringWait.filter fun w => w.tid ≠ t
                                                    mat := { c.mat with queue := c.mat.queue.filter fun e => e.squad ≠ squadOf t
                                                                        holds := c.mat.holds.filter fun e => e.squad ≠ squadOf t } }
    s.modThread t fun th => { th with run := .ready, phase := 0, token := 0, lossPend := true }

/-- One gang of a context that lost a die. -/
def State.lossGang (s : State) (die id : Nat) (g : Gang) : State :=
  let there := g.cores.any fun k => !isMarl k && dieOf k = die
  match g.st with
  | .running => if there then (s.endGang id g).failLaunch g.launch 10 (die % 8) else s
  | .stopping =>
    if there then (s.endGang id g).failLaunch g.launch 10 (die % 8)
    else s.setGang id { g with doom := if g.doom = 0 then 10 + 256 * (die % 8) else g.doom }
  | .retired => if there then s.failLaunch g.launch 10 (die % 8) else s
  | .suspended => s.endGang id g
  | .halted => s.endGang id g
  | _ => s

/-- A context that has touched a lost die; its slots on other units fire (R238, R364). -/
def State.lossCtx (s : State) (die k : Nat) : State :=
  let p := k / 64
  let first := !(s.ctx k).faulted
  let s := if first then
      let s := ((s.stopContext p (k % 64) 16).modCtx k fun c => { c with lostDie := die % 8 }).putStatus k
      ((List.range 8).filter fun d => d ≠ die % 8).foldl (fun s d => s.putSnapshot k d) s
    else s
  let s := (s.gangs.filter fun g => s.gangCtx g.2 = k).foldl (fun s g => s.lossGang die g.1 g.2) s
  let s := s.evalCtx k
  (s.threads.filter fun x => s.ctxKey x.1 = k ∧ (isMarl (coreOf x.1) = true ∨ dieOf (coreOf x.1) ≠ die)).foldl (fun s x => s.lossThread x.1) s

/-! ### What a die holds -/

/-- The entries of a table whose keys are not selected. -/
def tcut {α : Type} (t : Tab α) (f : Nat → Bool) : Tab α := t.filter fun e => !f e.1

/-- The slots after a die's loss (R364, 15 R295): those of the die are lost with the contexts that the loss faults; the operations of another context on its
unit, and a COPY handed to one of its clusters, fail with cause 4. A slot that is lost reads as free (log 103). -/
def State.slotsLost (s : State) (die : Nat) : Tab AsterSlot :=
  s.slots.filterMap fun x =>
    let y := x.2
    if x.1 / 8192 = die then
      (if (y.st = .armed ∨ y.st = .fired) ∧ (s.ctx (die / 8 * 64 + y.ctx)).faulted = false then some (x.1, { y with st := .failed, cause := 4, msgs := [] })
       else none)
    else if y.kind = .copy ∧ y.st = .fired ∧ y.started = true ∧ y.copyEnd = none ∧ x.1 / 8192 / 8 * 8 + y.dst / 8 = die then
      some (x.1, { y with failing := 4 })
    else some x

/-- A die without any state, but for what its unit's failed operations read as. -/
def State.wipeDie (s : State) (die : Nat) : State :=
  let core (k : Nat) : Bool := !isMarl k && dieOf k = die
  let cl (c : Nat) : Bool := c / 8 = die
  let half (k : Nat) : Bool := k / 2 ^ 50 = die
  let cache (id : Nat) : Bool :=
    if id < 2 ^ 20 then core id else if id < 2 ^ 21 then cl (id - 2 ^ 20) else if id < 2 ^ 22 then id - 2 ^ 21 = die else false
  let gone (e : Nat × Nat × Nat × Nat) : Bool :=
    match s.ownTarget (e.1 / 64) (targetOf e.2.2.2 e.2.2.1 e.2.1) with
    | .pinCore c _ => core c
    | .pinDie d _ => d = die
    | _ => false
  { s with
    regs := tcut s.regs fun k => core (k / 65536)
    threads := tcut s.threads fun k => core (coreOf k)
    squads := tcut s.squads fun k => core (coreOfSquad k)
    cores := tcut s.cores core
    scratch := tcut s.scratch fun k => core (k / 2 ^ 21)
    evCfg := tcut s.evCfg fun k => core (k / 64)
    evCount := tcut s.evCount fun k => core (k / 64)
    fmterr := tcut s.fmterr core
    sclerr := tcut s.sclerr core
    copies := tcut s.copies fun k => k / 2 ^ 50 = l2Level die || (decide (k / 2 ^ 50 < 4096) && cl (k / 2 ^ 50))
    mirror := tcut s.mirror fun k => half k || k / 2 ^ 50 = buddyOf die
    windows := tcut s.windows fun k => ofDie die (k / 2 ^ 20) || ofDie die (k % 2 ^ 20)
    seqs := tcut s.seqs fun k => ofDie die (k / 2 ^ 20) || ofDie die (k % 2 ^ 20)
    tcs := tcut s.tcs cache
    icache := s.icache.filter fun e => !(decide (e.1 < 2 ^ 20) && cl e.1)
    pinned := tcut s.pinned half
    pinnedPages := tcut s.pinnedPages fun d => d = die
    pins := s.pins.filter fun e => !gone e
    pinSlots := tcut s.pinSlots fun k => core (k / 32)
    queues := tcut s.queues fun k => cl (k / 64)
    queueHolder := tcut s.queueHolder cl
    copyCmds := s.copyCmds.filter fun c => !(cl c.2.cluster || (match c.2.aster with | some a => a.1 = die | none => false))
    nonfinite := tcut s.nonfinite cl
    tilthErrors := tcut s.tilthErrors cl
    tasks := tcut s.tasks fun k => k / 4096 = die
    misuse := tcut s.misuse fun k => k = die
    submitted := tcut s.submitted fun k => k = die
    lastServed := tcut s.lastServed fun k => k / 16 = die
    merges := s.merges.filter fun m => m.die ≠ die
    logicCk := tcut s.logicCk fun k => k = die
    adverts := tcut s.adverts fun k => k = die
    offers := s.offers.filter fun o => o.src ≠ die ∧ o.dst ≠ die
    counters := tcut s.counters fun k => k / 4096 = die
    slots := s.slotsLost die
    arrivals := s.arrivals.filter fun a => a.die ≠ die
    asterSeq := tcut s.asterSeq fun k => k = die
    asterErr := tcut s.asterErr fun k => k = die
    startQueue := tcut s.startQueue fun k => k = die
    startCk := tcut s.startCk fun k => k = die
    picks := s.picks.filter fun x => !core x.core }

/-! ### Fatal errors (R365) -/

/-- A fatal error stops every context of the package; the firmware's dump begins. -/
def State.startFatal (s : State) (p item socket : Nat) : State :=
  if s.fatal p then s else s.modPkg p fun x => { x with dumping := some (item, socket, s.clock p) }

/-- R363, R364: the broadcast of a loss has come to every passenger and peer. With its buddy lost too, or unmirrored, it is a fatal error. -/
def execDieLossBroadcast (p d : Nat) (s : State) : Host.Outcome State Fault Refusal :=
  let die := p * 8 + d
  done (
    if ¬ s.dead.contains die ∨ s.castPending (.dieLoss die) none = true then s
    else
      let fatal := !s.dieUp (buddyOf die) || s.unmirrored die
      let s : State := { s with lost := die :: s.lost, dead := s.dead.erase die }
      if fatal then s.startFatal p 1 d
      else
        let s := (s.takeOver die).moveMsgs die
        let s := ((s.ctxs.filter fun c => c.1 / 64 = p ∧ c.2.touched.testBit d = true).map (·.1)).foldl (fun s k => s.lossCtx die k) s
        s.wipeDie die)

/-- Where a package's dump starts. -/
def dumpBase (p : Nat) : Nat := p * 2 ^ 46 + 0x7F00000000
/-- The sections of the dump: offset and bytes. -/
def dumpSections : List (Nat × Nat) :=
  [(0x1000, 0xF000), (0x10000, 0xA000), (0x100000, 0x800000), (0x1000000, 0xC000000), (0x10000000, 0x1000000), (0x20000000, 0xC0000000),
   (0xE0000000, 0x10000000)]

/-- Section 5: the workgroup record of every core that holds one, through its scratchpad. -/
def State.dumpCores (s : State) (p : Nat) : State :=
  (List.range 256).foldl (fun s c =>
    let k := coreKey p c
    match (s.core k).gang.bind fun id => (s.gang id).bind fun g => (s.launch g.launch).map fun l => (g, l) with
    | none => s
    | some (g, l) =>
      let w := (s.core k).wg
      let pa := dumpBase p + 0x20000000 + 0xC00000 * c
      let s := s.putFields pa ((s.wgFields k (w + l.g * g.index) (g.completed.contains w) []).filter fun f => decide (f.1 < 0x3C6000))
      let slots := (s.pinnedOn k).map (·.1)
      s.homeFill (pa + 0x246000) scratchSize fun i => if slots.contains (i / 2 ^ 16) then 0 else (s.scratchByte (scratchKey k i)).toNat) s

/-- The dump: header, the sections that could be read, the complete flag, then FATAL bit 0. The contents of the sections whose layout the spec does not give are
free (log 18). -/
def State.writeDump (s : State) (p item socket clock valid : Nat) : State :=
  let b := dumpBase p
  let n := s.freeCount
  let s := ({ s with freeCount := n + 1 } : State).homeClear b (2 ^ 32)
  let s := s.putFields b [(0, 4, 0x504D5544), (4, 2, 1), (6, 2, item), (8, 1, socket), (16, 8, clock), (24, 8, valid % 2 ^ 7)]
  let s := ((List.range 7).zip dumpSections).foldl (fun s x =>
    if ¬ valid.testBit x.1 then s
    else if x.1 = 5 then s.dumpCores p
    else s.homeFill (b + x.2.1) x.2.2 fun i => (Config.freeDump n (x.2.1 + i)).toNat) s
  let s := s.homePut (b + 32) 4 1
  (s.modPkg p fun x => { x with dumping := none }).setHreg p 0x2120 1

/-- R365: the loss of a Marl die, of a Kaolin stack or a Silt die, an error in an owner entry, or a router failure begins; or the firmware ends the dump that a
fatal error began, with the sections that it could read. -/
def execFatalError (p item socket : Nat) (valid : BitVec 64) (s : State) : Host.Outcome State Fault Refusal :=
  done (
    match (s.pkg p).dumping with
    | some (i, x, c) => s.writeDump p i x c valid.toNat
    | none =>
      let there : Bool := match item with
        | 2 => decide (8 ≤ socket ∧ socket < 10)
        | 3 => decide (10 ≤ socket ∧ socket < 20)
        | 4 => decide (10 ≤ socket ∧ socket < 18)
        | 5 => decide (socket < 20)
        | _ => false
      if there && s.hreg p 0x2300 = 1 && !(s.pkg p).off then s.startFatal p item socket else s)

/-- R364: the host returns a lost die to service; it holds no state. -/
def execDieReturnToService (p d : Nat) (s : State) : Host.Outcome State Fault Refusal :=
  let die := p * 8 + d
  .next (
    if d ≥ 8 ∨ ¬ s.lost.contains die ∨ s.alive p = false ∨ s.fatal p = true then s
    else
      let s := s.modPkg p fun x => { x with beats := tset x.beats d (s.clock p) }
      { s with lost := s.lost.erase die, slots := tcut s.slots fun k => k / 8192 = die, counters := tcut s.counters fun k => k / 4096 = die })

end Sys2Proof.Machine
end

