-- ==== Sys2Proof/Machine/Flags.lean ====
section
/-! DEFINITION. Predicate results: the machine's flags are the predicates p1 to p15 (01 R13). The conditions of CMP (07 R144), FCMP (07 R151),
PLOG (07 R147) and VOTE (07 R160), as the bit written to the destination predicate. -/

namespace Sys2Proof.Machine

/-- CMP's condition on two integers (07 R144). -/
def condHolds (c : Cond) (a b : Int) : Bool :=
  match c with
  | .eq => decide (a = b)
  | .ne => decide (a ≠ b)
  | .lt => decide (a < b)
  | .le => decide (a ≤ b)
  | .gt => decide (b < a)
  | .ge => decide (b ≤ a)

/-- PLOG's operation (07 R147). -/
def plogOf (op : PlogOp) (a b : Bool) : Bool :=
  match op with
  | .and => a && b
  | .or => a || b
  | .xor => a ^^ b
  | .andn => a && !b

/-- VOTE's result for .all, .any and .uni over the lanes' predicates (07 R160). -/
def voteOf (k : VoteKind) (ps : List Bool) : Bool :=
  match k with
  | .all => ps.all id
  | .any => ps.any id
  | .uni => ps.all id || !(ps.any id)
  | .ballot => false

end Sys2Proof.Machine
end

