-- ==== Sys2Proof/Machine/Float.lean ====
section
/-! DEFINITION. The floating-point group and conversions (06 R126, R127, 07 R148 to R156). -/

namespace Sys2Proof.Machine

/-- An operation on the elements of an operand: once on a scalar, on each half of a packed pair (07 R148). A scalar half-precision result clears
the upper half of its register (04 R86). -/
def perElem (f : FltFn) (g : Nat → Nat → Nat → Nat) (a b c : Nat) : Nat :=
  if f.packed then
    g (a % 2 ^ 16) (b % 2 ^ 16) (c % 2 ^ 16) % 2 ^ 16 +
      g (a / 2 ^ 16 % 2 ^ 16) (b / 2 ^ 16 % 2 ^ 16) (c / 2 ^ 16 % 2 ^ 16) % 2 ^ 16 * 2 ^ 16
  else g (a % 2 ^ f.fmt.width) (b % 2 ^ f.fmt.width) (c % 2 ^ f.fmt.width)

/-- A floating-point instruction on bit patterns. -/
def fltBitsAlu (i : Instr) (o : Ops) (f : FltFn) (g : Nat → Nat → Nat → Nat) (s : State) : State := alu i o (perElem f g) s

/-- An arithmetic instruction: the exact value of the operands' values, rounded once (07 R148). -/
def fltAlu (i : Instr) (o : Ops) (f : FltFn) (g : Val → Val → Val → Val) (s : State) : State :=
  fltBitsAlu i o f (fun a b c => rnd (g (val a f.fmt) (val b f.fmt) (val c f.fmt)) f.fmt f.rm) s

/-- FSCALE (07 R148): a zero or an infinity returns a; a NaN gives the canonical one. -/
def fscaleOf (f : Fmt) (m : Rm) (a : Nat) (b : Int) : Nat :=
  match val a f with
  | .nan => cnan f
  | .inf _ => a
  | .fin s n d => if n = 0 then a else rnd ((Val.fin s n d).scale b) f m

/-- A transcendental instruction (07 R153, R154): f16 correctly rounded; f32 a free value within the bound, one for each lane and execution
(log 5). -/
def transcAlu (i : Instr) (o : Ops) (f : FltFn) (op : Transc) (s : State) : State :=
  let n := s.freeCount
  let s := runGroup i o (fun iss s0 s t =>
    let a := s0.srcA iss t i o % 2 ^ f.fmt.width
    let r := if f.fmt = .f16 then rnd (transc op (val a .f16)) .f16 .rne
      else transcF32 op a (Config.freeTransc (n * 64 + laneOf t))
    (s.writeD iss o t r 1 (kWriter s0 iss o t), .next)) s
  { s with freeCount := n + 1 }


/-- 07 R148: a + b. -/
def execFadd (o : Ops) (f : FltFn) (s : State) : Host.Outcome State Fault Refusal :=
  .next (fltAlu (.fadd o f) o f (fun a b _ => a.add f.rm b) s)

/-- 07 R148: a - b. -/
def execFsub (o : Ops) (f : FltFn) (s : State) : Host.Outcome State Fault Refusal :=
  .next (fltAlu (.fsub o f) o f (fun a b _ => a.add f.rm b.neg) s)

/-- 07 R148: a x b. -/
def execFmul (o : Ops) (f : FltFn) (s : State) : Host.Outcome State Fault Refusal :=
  .next (fltAlu (.fmul o f) o f (fun a b _ => a.mul b) s)

/-- 07 R148: a x b + c, one rounding. -/
def execFfma (o : Ops) (f : FltFn) (s : State) : Host.Outcome State Fault Refusal :=
  .next (fltAlu (.ffma o f) o f (fun a b c => (a.mul b).add f.rm c) s)

/-- 07 R149. -/
def execFmin (o : Ops) (f : FltFn) (s : State) : Host.Outcome State Fault Refusal :=
  .next (fltBitsAlu (.fmin o f) o f (fun a b _ => minnum f.fmt a b) s)

/-- 07 R149. -/
def execFmax (o : Ops) (f : FltFn) (s : State) : Host.Outcome State Fault Refusal :=
  .next (fltBitsAlu (.fmax o f) o f (fun a b _ => maxnum f.fmt a b) s)

/-- 07 R149: the sign bit cleared. -/
def execFabs (o : Ops) (f : FltFn) (s : State) : Host.Outcome State Fault Refusal :=
  .next (fltBitsAlu (.fabs o f) o f (fun a _ _ => a % Fmt.signBit f.fmt) s)

/-- 07 R149: the sign bit inverted. -/
def execFneg (o : Ops) (f : FltFn) (s : State) : Host.Outcome State Fault Refusal :=
  .next (fltBitsAlu (.fneg o f) o f (fun a _ _ => (a + Fmt.signBit f.fmt) % (2 * Fmt.signBit f.fmt)) s)

/-- 07 R149: a with the sign bit of b. -/
def execFcpsgn (o : Ops) (f : FltFn) (s : State) : Host.Outcome State Fault Refusal :=
  .next (fltBitsAlu (.fcpsgn o f) o f (fun a b _ => a % Fmt.signBit f.fmt + b / Fmt.signBit f.fmt % 2 * Fmt.signBit f.fmt) s)

/-- 07 R148: a / b. -/
def execFdiv (o : Ops) (f : FltFn) (s : State) : Host.Outcome State Fault Refusal :=
  .next (fltAlu (.fdiv o f) o f (fun a b _ => a.div b) s)

/-- 07 R148: the square root. -/
def execFsqrt (o : Ops) (f : FltFn) (s : State) : Host.Outcome State Fault Refusal :=
  .next (fltAlu (.fsqrt o f) o f (fun a _ _ => a.sqrt) s)

/-- 07 R153, R154. -/
def execFrcp (o : Ops) (f : FltFn) (s : State) : Host.Outcome State Fault Refusal :=
  .next (transcAlu (.frcp o f) o f .rcp s)

/-- 07 R153, R154. -/
def execFrsq (o : Ops) (f : FltFn) (s : State) : Host.Outcome State Fault Refusal :=
  .next (transcAlu (.frsq o f) o f .rsq s)

/-- 07 R153, R154. -/
def execFexp2 (o : Ops) (f : FltFn) (s : State) : Host.Outcome State Fault Refusal :=
  .next (transcAlu (.fexp2 o f) o f .exp2 s)

/-- 07 R153, R154. -/
def execFlog2 (o : Ops) (f : FltFn) (s : State) : Host.Outcome State Fault Refusal :=
  .next (transcAlu (.flog2 o f) o f .log2 s)

/-- 07 R153, R154. -/
def execFsin (o : Ops) (f : FltFn) (s : State) : Host.Outcome State Fault Refusal :=
  .next (transcAlu (.fsin o f) o f .sin s)

/-- 07 R153, R154. -/
def execFcos (o : Ops) (f : FltFn) (s : State) : Host.Outcome State Fault Refusal :=
  .next (transcAlu (.fcos o f) o f .cos s)

/-- 07 R153, R154. -/
def execFtanh (o : Ops) (f : FltFn) (s : State) : Host.Outcome State Fault Refusal :=
  .next (transcAlu (.ftanh o f) o f .tanh s)

/-- 07 R151: the predicate D. -/
def execFcmp (o : Ops) (f : FcmpFn) (s : State) : Host.Outcome State Fault Refusal :=
  .next (alu (.fcmp o f) o (fun a b _ => (fcond f.cond (val (a % 2 ^ f.fmt.width) f.fmt) (val (b % 2 ^ f.fmt.width) f.fmt)).toNat) s)

/-- 07 R150. -/
def execFrint (o : Ops) (f : FltFn) (s : State) : Host.Outcome State Fault Refusal :=
  .next (fltBitsAlu (.frint o f) o f (fun a _ _ => frintBits f.fmt a f.rm) s)

/-- 07 R152: the mask with the class's bit set. -/
def execFclass (o : Ops) (f : FltFn) (s : State) : Host.Outcome State Fault Refusal :=
  .next (alu (.fclass o f) o (fun a _ _ => 2 ^ fclassBit f.fmt (a % 2 ^ f.fmt.width)) s)

/-- 07 R148: a x 2^b, b read as .s32. -/
def execFscale (o : Ops) (f : FltFn) (s : State) : Host.Outcome State Fault Refusal :=
  .next (alu (.fscale o f) o (fun a b _ => fscaleOf f.fmt f.rm (a % 2 ^ f.fmt.width) (sext b 32)) s)

/-- CVT of one value (07 R155, 04 R90). -/
def cvtOf (f : CvtFn) (a : Nat) : Nat :=
  if f.tgt.isInt then
    if f.src.isInt then lowBits (fit (readInt f.src a) f.tgt f.sat) (max f.tgt.width 32)
    else lowBits (toIntSat (val (a % 2 ^ f.src.width) f.src) f.tgt f.rm) (max f.tgt.width 32)
  else if f.src.isInt then rnd (ofInt (readInt f.src a)) f.tgt f.rm
  else rnd (val (a % 2 ^ f.src.width) f.src) f.tgt f.rm

/-- 07 R155. -/
def execCvt (o : Ops) (f : CvtFn) (s : State) : Host.Outcome State Fault Refusal :=
  .next (alu (.cvt o f) o (fun a _ _ => cvtOf f a) s)

/-- 07 R156: two f32 values packed. -/
def execCvtpk (o : Ops) (f : FltFn) (s : State) : Host.Outcome State Fault Refusal :=
  .next (alu (.cvtpk o f) o (fun a b _ => rnd (val (a % 2 ^ 32) .f32) f.fmt f.rm + rnd (val (b % 2 ^ 32) .f32) f.fmt f.rm * 2 ^ 16) s)


end Sys2Proof.Machine
end

