-- ==== Sys2Proof/Machine/Int.lean ====
section
/-! DEFINITION. The integer and address group (06 R125, 07 R134 to R147). -/

namespace Sys2Proof.Machine

/-- A result of an integer format as the bits of its registers: narrow values extended to 32 bits (04 R84). -/
def intOut (f : Fmt) (x : Int) : Nat := lowBits x (max f.width 32)

/-- D := fit(r), r the exact result of A, B and C read at the format (07 R134, R136). -/
def intAlu (i : Instr) (o : Ops) (f : IntFn) (r : Int → Int → Int → Int) (s : State) : State :=
  alu i o (fun a b c => intOut f.fmt (fit (r (readInt f.fmt a) (readInt f.fmt b) (readInt f.fmt c)) f.fmt f.sat)) s

/-- The quotient rounded toward zero and the remainder (07 R138). -/
def divOf (f : Fmt) (a b : Int) : Int := if b = 0 then (if f.isSigned then -1 else 2 ^ f.width - 1) else a.tdiv b
def remOf (a b : Int) : Int := if b = 0 then a else a.tmod b

/-- SHL (07 R141): the shift count is read as .n32; beyond 64 every significant bit is gone. -/
def shlOf (f : Fmt) (sat : Bool) (a : Int) (n : Nat) : Int :=
  let r := a * 2 ^ (min n 64)
  if sat then fit r f true else fit r f false
/-- SHR (07 R141): floor of a / 2^s. -/
def shrOf (a : Int) (n : Nat) : Int := a / (2 ^ (min n 64) : Int)
/-- ROL (07 R141). -/
def rolOf (w x n : Nat) : Nat := let k := n % w; x * 2 ^ k % 2 ^ w + x % 2 ^ w / 2 ^ (w - k)
/-- The bit counts (07 R142) over the w low bits of x. -/
def popcOf (w x : Nat) : Nat := ((List.range w).filter fun i => x.testBit i).length
def clzOf (w x : Nat) : Nat := if x % 2 ^ w = 0 then w else w - 1 - Nat.log2 (x % 2 ^ w)
def ctzOf (w x : Nat) : Nat := ((List.range w).find? fun i => x.testBit i).getD w
def brevOf (w x : Nat) : Nat := (List.range w).foldl (fun r i => r * 2 + (x.testBit i).toNat) 0
/-- BFX (07 R143). A position beyond 64 reads only sign bits or zeros. -/
def bfxOf (f : Fmt) (a : Int) (pos len : Nat) : Int :=
  let n := min len f.width
  if n = 0 then 0
  else
    let x := a / (2 ^ (min pos 64) : Int) % (2 ^ n : Int)
    if f.isSigned then sext x n else x
/-- BFI (07 R143). -/
def bfiOf (w a b c : Nat) : Nat :=
  let pos := c % 256
  let top := min (pos + c / 256 % 256) w
  if top ≤ pos then a % 2 ^ w
  else
    let n := top - pos
    a % 2 ^ pos + b % 2 ^ n * 2 ^ pos + a % 2 ^ w / 2 ^ top * 2 ^ top


/-- 07 R136: a + b. -/
def execAdd (o : Ops) (f : IntFn) (s : State) : Host.Outcome State Fault Refusal :=
  .next (intAlu (.add o f) o f (fun a b _ => a + b) s)

/-- 07 R136: a - b. -/
def execSub (o : Ops) (f : IntFn) (s : State) : Host.Outcome State Fault Refusal :=
  .next (intAlu (.sub o f) o f (fun a b _ => a - b) s)

/-- 07 R136: a x b. -/
def execMul (o : Ops) (f : IntFn) (s : State) : Host.Outcome State Fault Refusal :=
  .next (intAlu (.mul o f) o f (fun a b _ => a * b) s)

/-- 07 R137: the upper half of the full product. -/
def execMulhi (o : Ops) (f : IntFn) (s : State) : Host.Outcome State Fault Refusal :=
  .next (intAlu (.mulhi o f) o f (fun a b _ => a * b / (2 ^ f.fmt.width : Int)) s)

/-- 07 R136: a x b + c, one fit of the exact sum. -/
def execMad (o : Ops) (f : IntFn) (s : State) : Host.Outcome State Fault Refusal :=
  .next (intAlu (.mad o f) o f (fun a b c => a * b + c) s)

/-- 07 R138. -/
def execDiv (o : Ops) (f : IntFn) (s : State) : Host.Outcome State Fault Refusal :=
  .next (intAlu (.div o f) o f (fun a b _ => divOf f.fmt a b) s)

/-- 07 R138. -/
def execRem (o : Ops) (f : IntFn) (s : State) : Host.Outcome State Fault Refusal :=
  .next (intAlu (.rem o f) o f (fun a b _ => remOf a b) s)

/-- 07 R136: -a. -/
def execNeg (o : Ops) (f : IntFn) (s : State) : Host.Outcome State Fault Refusal :=
  .next (intAlu (.neg o f) o f (fun a _ _ => -a) s)

/-- 07 R136: the absolute value. -/
def execAbs (o : Ops) (f : IntFn) (s : State) : Host.Outcome State Fault Refusal :=
  .next (intAlu (.abs o f) o f (fun a _ _ => (a.natAbs : Int)) s)

/-- 07 R139. -/
def execMin (o : Ops) (f : IntFn) (s : State) : Host.Outcome State Fault Refusal :=
  .next (intAlu (.min o f) o f (fun a b _ => Min.min a b) s)

/-- 07 R139. -/
def execMax (o : Ops) (f : IntFn) (s : State) : Host.Outcome State Fault Refusal :=
  .next (intAlu (.max o f) o f (fun a b _ => Max.max a b) s)

/-- 07 R140. -/
def execAnd (o : Ops) (f : IntFn) (s : State) : Host.Outcome State Fault Refusal :=
  .next (alu (.and o f) o (fun a b _ => a &&& b) s)

/-- 07 R140. -/
def execOr (o : Ops) (f : IntFn) (s : State) : Host.Outcome State Fault Refusal :=
  .next (alu (.or o f) o (fun a b _ => a ||| b) s)

/-- 07 R140. -/
def execXor (o : Ops) (f : IntFn) (s : State) : Host.Outcome State Fault Refusal :=
  .next (alu (.xor o f) o (fun a b _ => a ^^^ b) s)

/-- 07 R140: a and the complement of b. -/
def execAndn (o : Ops) (f : IntFn) (s : State) : Host.Outcome State Fault Refusal :=
  .next (alu (.andn o f) o (fun a b _ => a ^^^ (a &&& b)) s)

/-- 07 R141. -/
def execShl (o : Ops) (f : IntFn) (s : State) : Host.Outcome State Fault Refusal :=
  .next (alu (.shl o f) o (fun a b _ => intOut f.fmt (shlOf f.fmt f.sat (readInt f.fmt a) (b % 2 ^ 32))) s)

/-- 07 R141. -/
def execShr (o : Ops) (f : IntFn) (s : State) : Host.Outcome State Fault Refusal :=
  .next (alu (.shr o f) o (fun a b _ => intOut f.fmt (fit (shrOf (readInt f.fmt a) (b % 2 ^ 32)) f.fmt false)) s)

/-- 07 R141. -/
def execRol (o : Ops) (f : IntFn) (s : State) : Host.Outcome State Fault Refusal :=
  .next (alu (.rol o f) o (fun a b _ => rolOf f.fmt.width a (b % 2 ^ 32)) s)

/-- 07 R142. -/
def execPopc (o : Ops) (f : IntFn) (s : State) : Host.Outcome State Fault Refusal :=
  .next (alu (.popc o f) o (fun a _ _ => popcOf f.fmt.width a) s)

/-- 07 R142. -/
def execClz (o : Ops) (f : IntFn) (s : State) : Host.Outcome State Fault Refusal :=
  .next (alu (.clz o f) o (fun a _ _ => clzOf f.fmt.width a) s)

/-- 07 R142. -/
def execCtz (o : Ops) (f : IntFn) (s : State) : Host.Outcome State Fault Refusal :=
  .next (alu (.ctz o f) o (fun a _ _ => ctzOf f.fmt.width a) s)

/-- 07 R142. -/
def execBrev (o : Ops) (f : IntFn) (s : State) : Host.Outcome State Fault Refusal :=
  .next (alu (.brev o f) o (fun a _ _ => brevOf f.fmt.width a) s)

/-- 07 R143. -/
def execBfx (o : Ops) (f : IntFn) (s : State) : Host.Outcome State Fault Refusal :=
  .next (alu (.bfx o f) o (fun a b c => intOut f.fmt (fit (bfxOf f.fmt (readInt f.fmt a) b c) f.fmt false)) s)

/-- 07 R143. -/
def execBfi (o : Ops) (f : IntFn) (s : State) : Host.Outcome State Fault Refusal :=
  .next (alu (.bfi o f) o (fun a b c => bfiOf f.fmt.width a b c) s)

/-- 07 R144: the predicate D := (a cond b). -/
def execCmp (o : Ops) (f : IntFn) (cond : Cond) (s : State) : Host.Outcome State Fault Refusal :=
  .next (alu (.cmp o f cond) o (fun a b _ => (condHolds cond (readInt f.fmt a) (readInt f.fmt b)).toNat) s)

/-- 07 R145: a if p(C) is 1, else b. -/
def execSel (o : Ops) (f : IntFn) (s : State) : Host.Outcome State Fault Refusal :=
  .next (alu (.sel o f) o (fun a b c => if c = 1 then a else b) s)

/-- 07 R145: D := b. -/
def execMov (o : Ops) (f : IntFn) (s : State) : Host.Outcome State Fault Refusal :=
  .next (alu (.mov o f) o (fun _ b _ => b) s)

/-- 07 R146: wrap64(a + b x 2^sh), sh the sub field. -/
def execLea (o : Ops) (f : IntFn) (s : State) : Host.Outcome State Fault Refusal :=
  .next (alu (.lea o f) o (fun a b _ => lowBits (sext a 64 + readInt f.fmt b * 2 ^ f.sub.toNat) 64) s)

/-- 07 R147: the predicate D := p(A) op p(B). -/
def execPlog (o : Ops) (op : PlogOp) (s : State) : Host.Outcome State Fault Refusal :=
  .next (alu (.plog o op) o (fun a b _ => (plogOf op (a = 1) (b = 1)).toNat) s)


end Sys2Proof.Machine
end

