-- ==== Sys2Proof/Machine/Lane.lean ====
section
/-! DEFINITION. Lane and squad operations (06 R127, 07 R157 to R162), squad-collective (01 R29, R30). -/

namespace Sys2Proof.Machine

/-- The operand A that the thread of lane l supplied; lanes of a Marl squad other than 0 do not exist. -/
def State.laneA (s : State) (ts : List Nat) (l : Nat) : Nat :=
  match ts.find? fun t => laneOf t = l with
  | some t => (s.thread t).heldA
  | none => 0

/-- The source lane of SHFL (07 R158). -/
def shflSource (m : ShflMode) (seg l c : Nat) : Nat :=
  let base := l - l % seg
  match m with
  | .idx => base + c % seg
  | .up => if base + c ≤ l then l - c else l
  | .down => if l + c < base + seg then l + c else l
  | .xor => base + ((l - base) ^^^ c) % seg

/-- combine of 07 R161. -/
def combine (f : RedFn) (x y : Nat) : Nat :=
  let w := f.fmt.width
  match f.op with
  | .add =>
    if f.fmt.isFloat then rnd ((val (x % 2 ^ w) f.fmt).add f.rm (val (y % 2 ^ w) f.fmt)) f.fmt f.rm else (x + y) % 2 ^ w
  | .min =>
    if f.fmt.isFloat then minnum f.fmt x y else if readInt f.fmt y < readInt f.fmt x then y else x
  | .max =>
    if f.fmt.isFloat then maxnum f.fmt x y else if readInt f.fmt x < readInt f.fmt y then y else x
  | .and => x &&& y
  | .or => x ||| y
  | .xor => x ^^^ y

/-- One level of the binary tree of 07 R161. -/
def pairUp (f : Nat → Nat → Nat) : List Nat → List Nat
  | a :: b :: r => f a b :: pairUp f r
  | r => r

/-- SRED's tree over the squad's values (07 R161): six levels; over a single thread the value itself. -/
def sredOf (f : RedFn) (l : List Nat) : Nat :=
  ((pairUp (combine f) (pairUp (combine f) (pairUp (combine f) (pairUp (combine f) (pairUp (combine f) (pairUp (combine f) l)))))).headD 0)

/-- SSCAN's inclusive prefixes (07 R162). -/
def scanFrom (f : RedFn) : Nat → List Nat → List Nat
  | _, [] => []
  | x, a :: r => let y := combine f x a; y :: scanFrom f y r
def sscanOf (f : RedFn) : List Nat → List Nat
  | [] => []
  | a :: r => a :: scanFrom f a r

/-- 07 R158. On a Marl core the thread's own A (01 R33). -/
def execShfl (o : Ops) (f : ShflFn) (s : State) : Host.Outcome State Fault Refusal :=
  .next (runCollective (.shfl o f) o (fun iss ts s =>
    let src (t : Nat) : Nat :=
      if isMarl iss.core then laneOf t else shflSource f.mode (2 ^ f.seg.toNat) (laneOf t) ((s.thread t).heldB % 2 ^ 32)
    (writeAll iss o (if f.wide then 2 else 1) (fun t => s.laneA ts (src t)) ts s, .done)) s)

/-- 07 R159: the A of the lane that the lowest guard-true lane's B names. -/
def execBcast (o : Ops) (wide : Bool) (s : State) : Host.Outcome State Fault Refusal :=
  .next (runCollective (.bcast o wide) o (fun iss ts s =>
    match s.leader ts with
    | none => (s, .done)
    | some t =>
      let src := if isMarl iss.core then laneOf t else (s.thread t).heldB % 64
      (writeAll iss o (if wide then 2 else 1) (fun _ => s.laneA ts src) ts s, .done)) s)

/-- 07 R160. -/
def execVote (o : Ops) (kind : VoteKind) (s : State) : Host.Outcome State Fault Refusal :=
  .next (runCollective (.vote o kind) o (fun iss ts s =>
    let v := match kind with
      | .ballot => ts.foldl (fun m t => if (s.thread t).heldA = 1 then m + 2 ^ laneOf t else m) 0
      | k => (voteOf k (ts.map fun t => (s.thread t).heldA = 1)).toNat
    (writeAll iss o (if kind = .ballot then 2 else 1) (fun _ => v) ts s, .done)) s)

/-- A reduction's result as the bits of its registers. -/
def redOut (f : RedFn) (x : Nat) : Nat := x % 2 ^ f.fmt.width

/-- 07 R161. -/
def execSred (o : Ops) (f : RedFn) (s : State) : Host.Outcome State Fault Refusal :=
  .next (runCollective (.sred o f) o (fun iss ts s =>
    let v := redOut f (sredOf f (ts.map fun t => redOut f (s.thread t).heldA))
    (writeAll iss o (regsOf f.fmt) (fun _ => v) ts s, .done)) s)

/-- 07 R162. -/
def execSscan (o : Ops) (f : RedFn) (s : State) : Host.Outcome State Fault Refusal :=
  .next (runCollective (.sscan o f) o (fun iss ts s =>
    let vs := sscanOf f (ts.map fun t => redOut f (s.thread t).heldA)
    (writeAll iss o (regsOf f.fmt) (fun t => redOut f ((vs[ts.idxOf t]?).getD 0)) ts s, .done)) s)

end Sys2Proof.Machine
end

