-- ==== Sys2Proof/Machine/Power.lean ====
section
/-! DEFINITION. Power, temperature, boot, identity, storage, the host's memory window (21 R378 to R382, 22 R383 to R391, 19 R324). -/

namespace Sys2Proof.Machine

/-! ### What a package holds -/

/-- The requests of a package end; those of others to it are on their way again. -/
def State.cutMsgs (s : State) (p : Nat) : State :=
  s.msgs.foldl (fun s x =>
    if endPkg x.2.src = p then s.dropMsg x.1
    else if endPkg x.2.dst = p then
      (if x.2.st = .finished then s.dropMsg x.1
       else if x.2.st = .answered ∧ x.2.away = false ∧ x.2.byGrant = false then s.dropFlits x.1
       else (s.dropFlits x.1).setMsg x.1 { x.2 with st := if x.2.st = .queued then .queued else .flying, flying := 0, arrived := 0 })
    else s) s

/-- A package without power: every state of it is lost but for its flash and its fuse (22 R384). -/
def State.wipePkg (s : State) (p : Nat) : State :=
  let s := s.cutMsgs p
  let core (k : Nat) : Bool := k / 512 = p
  let die (d : Nat) : Bool := d / 8 = p
  let cl (c : Nat) : Bool := c / 64 = p
  let level (l : Nat) : Bool :=
    if l < 4096 then cl l else if l < 8192 then die (l - 4096) else if l < 16384 then l - 8192 = p else (l - 16384) / 96 = p
  let dead := (s.gangs.filter fun g => s.gangCtx g.2 / 64 = p).map (·.1)
  let x := s.pkg p
  { s with
    regs := tcut s.regs fun k => core (k / 65536)
    threads := tcut s.threads fun k => core (coreOf k)
    squads := tcut s.squads fun k => core (coreOfSquad k)
    cores := tcut s.cores core
    scratch := tcut s.scratch fun k => core (k / 2 ^ 21)
    ctxs := tcut s.ctxs fun k => k / 64 = p
    faultMsgs := s.faultMsgs.filter fun m => m.1 ≠ p
    clocks := tcut s.clocks fun k => k = p
    evCfg := tcut s.evCfg fun k => core (k / 64)
    evCount := tcut s.evCount fun k => core (k / 64)
    fmterr := tcut s.fmterr core
    sclerr := tcut s.sclerr core
    mem := s.mem.filter fun c => c.1 / 2 ^ 46 ≠ p
    copies := tcut s.copies fun k => level (k / 2 ^ 50)
    owners := tcut s.owners fun k => k / 2 ^ 40 = p
    relcount := tcut s.relcount fun k => k / 1024 = p
    seqs := tcut s.seqs fun k => endPkg (k / 2 ^ 20) = p || endPkg (k % 2 ^ 20) = p
    windows := tcut s.windows fun k => endPkg (k / 2 ^ 20) = p || endPkg (k % 2 ^ 20) = p
    mirror := tcut s.mirror fun k => die (k / 2 ^ 50)
    tcs := tcut s.tcs fun k => tcPkg k = p
    icache := s.icache.filter fun e => !(if e.1 < 2 ^ 20 then cl e.1 else core (e.1 - 2 ^ 20))
    pinned := tcut s.pinned fun k => die (k / 2 ^ 50)
    pinnedPages := tcut s.pinnedPages die
    queues := tcut s.queues fun k => cl (k / 64)
    queueHolder := tcut s.queueHolder cl
    copyCmds := s.copyCmds.filter fun c => !cl c.2.cluster
    nonfinite := tcut s.nonfinite cl
    tilthErrors := tcut s.tilthErrors cl
    tasks := tcut s.tasks fun k => die (k / 4096)
    misuse := tcut s.misuse die
    submitted := tcut s.submitted die
    launches := s.launches.filter fun l => l.2.pkg ≠ p
    gangs := s.gangs.filter fun g => !dead.contains g.1
    lastServed := tcut s.lastServed fun k => die (k / 16)
    merges := s.merges.filter fun m => !die m.die
    logicCk := tcut s.logicCk die
    adverts := tcut s.adverts die
    offers := s.offers.filter fun o => !die o.src
    natives := s.natives.filter fun n => n.pkg ≠ p
    counters := tcut s.counters fun k => die (k / 4096)
    slots := tcut s.slots fun k => die (k / 8192)
    asterSeq := tcut s.asterSeq die
    asterErr := tcut s.asterErr die
    startQueue := tcut s.startQueue die
    startCk := tcut s.startCk die
    arrivals := s.arrivals.filter fun a => !die a.die
    hostRegs := tcut s.hostRegs fun k => k / 2 ^ 20 = p
    faults := s.faults.filter fun f => f.ctx / 64 ≠ p
    shootdowns := (s.shootdowns.map fun x => (x.1, { x.2 with left := x.2.left.erase p })).filter fun x => x.2.left ≠ []
    pins := s.pins.filter fun e => e.1 / 64 ≠ p
    regionMsgs := s.regionMsgs.filter fun m => m.1 ≠ p
    lost := s.lost.filter fun d => !die d
    dead := s.dead.filter fun d => !die d
    inject := tcut s.inject fun k => k / 32 = p
    upward := tcut s.upward fun k => k / 32 = p
    transit := tcut s.transit fun k => k / 64 = p
    ingress := tcut s.ingress fun k => k / 32 = p
    modules := tcut s.modules fun k => k / 1024 = p
    lines := tcut s.lines fun k => k / 512 = p
    lineNext := tcut s.lineNext fun k => if k < 2 ^ 20 then k / 128 = p else k % 2 ^ 20 / 32 = p
    pinSlots := tcut s.pinSlots fun k => core (k / 32)
    pkgs := tset s.pkgs p { flash := x.flash, fuse := x.fuse }
    picks := s.picks.filter fun i => !core i.core }

/-- Power is removed: PWRSTAT tells D-OFF. -/
def State.powerOff (s : State) (p : Nat) : State := ((s.wipePkg p).modPkg p fun x => { x with off := true }).setHreg p 0x2404 3

/-- 22 R387: the host's power controller removes power. -/
def execPowerRemoved (p : Nat) (s : State) : Host.Outcome State Fault Refusal := .next (s.powerOff p)

/-! ### Transitions (22 R383 to R385) -/

/-- True where everything that the package's agents and homes have sent has ended, and no gang of it is on its cores. -/
def State.holdReady (s : State) (p : Nat) : Bool :=
  (s.gangs.all fun g => s.gangCtx g.2 / 64 ≠ p || (g.2.st ≠ .running && g.2.st ≠ .stopping)) &&
  (s.copyCmds.all fun c => !c.2.active || c.2.cluster / 64 ≠ p) &&
  s.msgs.all fun m => m.2.st = .finished || (endPkg m.2.src ≠ p &&
    (endPkg m.2.dst ≠ p || (m.2.kind ≠ .grant && m.2.kind ≠ .fwd && m.2.kind ≠ .rev && m.2.kind ≠ .inv)))
/-- The words that are owned by a package's agents, or homed there and owned. -/
def State.heldWords (s : State) (p : Nat) : List Nat :=
  s.owners.flatMap fun l => (l.2.filter fun e => e.agent / 1024 = p || l.1 / 2 ^ 40 = p).flatMap fun e =>
    ((List.range 16).filter fun j => e.mask.testBit j).map fun j => l.1 * 16 + j

/-- 22 R383 to R385: a running transition ends, D-HOLD when its steps have. -/
def execPowerTransitionDone (p : Nat) (s : State) : Host.Outcome State Fault Refusal :=
  done (
    if (s.hreg p 0x2404).testBit 2 = false ∨ (s.pkg p).off = true then s
    else
      let code := bits (s.hreg p 0x2404) 15 8 * 2 ^ 8
      match s.hreg p 0x2400 % 4 with
      | 2 => if s.holdReady p then ((s.heldWords p).foldl State.revokeWord s).setHreg p 0x2404 (2 + code) else s
      | 3 => s.powerOff p
      | n => (s.hearAll p).setHreg p 0x2404 (n + code))

/-! ### Temperature (22 R387) -/

/-- 22 R387: the sensors of sockets 0 to 19, coolant inlet and outlet; THALARM; the thermal-trip signal at 110 degrees. -/
def execThermalSample (p : Nat) (sensors : List (BitVec 32)) (inlet outlet : BitVec 32) (s : State) : Host.Outcome State Fault Refusal :=
  .next (
    if (s.pkg p).off then s
    else
      let at' (i : Nat) : Nat := ((sensors[i]?).getD 0).toNat
      let temp (i : Nat) : Nat := at' i % 2 ^ 12
      let s := (List.range 20).foldl (fun s i => s.setHreg p (0x2500 + 4 * i) (temp i + bits (at' i) 27 16 * 2 ^ 16)) s
      let s := (s.setHreg p 0x2550 (inlet.toNat % 2 ^ 12)).setHreg p 0x2554 (outlet.toNat % 2 ^ 12)
      let hot : Nat := (((List.range 20).filter fun i => decide (temp i > 95 * 16)).map fun i => 2 ^ i).sum
      let s := s.setHreg p 0x2560 (hot + if hot ≠ 0 ∨ (s.hreg p 0x2560).testBit 31 = true then 2 ^ 31 else 0)
      if (List.range 20).any fun i => decide (temp i ≥ 110 * 16) then s.modPkg p fun x => { x with trip := true } else s)

/-! ### Secure boot (21 R378 to R380) -/

/-- n bytes of a byte source from a place; a number from them. -/
def bytesFrom (f : Nat → Byte) (a n : Nat) : List Byte := (List.range n).map fun i => f (a + i)
def leNat (bs : List Byte) : Nat := bs.foldr (fun b r => b.toNat + 256 * r) 0

/-- An image accepted by a Marl die of a package (R379): its security version and digest. -/
def acceptImage (die : Nat) (fuse : Nat) (f : Nat → Byte) : Option Firmware :=
  let num (a : Nat) : Nat := leNat (bytesFrom f a 4)
  let len := num 8
  let ecpub := bytesFrom f 16 97
  let hsspub := bytesFrom f 113 60
  let zero (a n : Nat) : Bool := (bytesFrom f a n).all fun b => b = 0
  if num 0 ≠ 0x4D524946 ∨ len > 0xFFE000 then none
  else
    let d := Config.sha384 (bytesFrom f 0 192 ++ bytesFrom f 8192 len)
    if Config.sha384 ecpub = Config.fusedHash die true && Config.sha384 hsspub = Config.fusedHash die false && Config.ecdsaOk ecpub (bytesFrom f 192 96) d &&
        Config.hssOk hsspub (bytesFrom f 288 2964) d && decide (num 4 ≥ fuse) && zero 12 4 && zero 173 19 && zero 3252 4940 then
      some { svn := num 4, digest := d }
    else none

/-- BOOTSTAT from what the two Marl dies accepted (R380). -/
def State.bootEnd (s : State) (p : Nat) : State :=
  match (s.pkg p).firmware with
  | [some a, some b] => if a.svn = b.svn then (s.setHreg p 0x2300 1).hearAll p else s.setHreg p 0x2300 3
  | _ => s.setHreg p 0x2300 2

/-- The images that the two Marl dies take: both from the same slot, A first, where a slot is accepted by both (R380); else each die takes the
first that it accepts (log 72). -/
def Pkg.bootImages (x : Pkg) (p : Nat) : List (Option Firmware) :=
  let slot (base : Nat) : List (Option Firmware) := (List.range 2).map fun md => acceptImage (p * 2 + md) x.fuse fun i => tget x.flash (base + i) 0xFF
  let a := slot 0
  let b := slot 0x1000000
  if a.all Option.isSome then a
  else if b.all Option.isSome then b
  else List.zipWith (fun u v => u <|> v) a b

/-- R379, R380: the boot of both Marl dies. A package without power is powered by the host's power controller first. -/
def execBoot (p : Nat) (s : State) : Host.Outcome State Fault Refusal :=
  .next (
    if p ≥ 64 ∨ ((s.pkg p).off = false ∧ s.hreg p 0x2300 ≠ 0) then s
    else
      let s := if (s.pkg p).off then (s.modPkg p fun x => { x with off := false }).setHreg p 0x2404 0 else s
      (s.modPkg p fun x => { x with firmware := x.bootImages p }).bootEnd p)

/-- R380: a die that refused both slots checks the image that the host wrote into its boot SRAM. -/
def execRecoveryImage (p md : Nat) (image : List (BitVec 8)) (s : State) : Host.Outcome State Fault Refusal :=
  .next (
    let x := s.pkg p
    if md ≥ 2 ∨ image.length > 2 ^ 24 ∨ x.off = true ∨ s.hreg p 0x2300 ≠ 2 ∨ ((x.firmware[md]?).getD none).isSome then s
    else
      let f (i : Nat) : Byte := (image[i]?).getD 0
      (s.modPkg p fun x => { x with sram := x.sram.set md image, firmware := x.firmware.set md (acceptImage (p * 2 + md) x.fuse f) }).bootEnd p)

/-- The running firmware. -/
def Pkg.running (x : Pkg) : Option Firmware := (x.firmware.head?).getD none

/-- R380: the fused rollback count rises to the svn of the running image. -/
def execRollbackFuse (p : Nat) (s : State) : Host.Outcome State Fault Refusal :=
  .next (
    match (s.pkg p).running with
    | some f => if s.hreg p 0x2300 = 1 then s.modPkg p fun x => { x with fuse := max x.fuse f.svn } else s
    | none => s)

/-! ### Attestation (21 R381, R382) -/

/-- n bytes of a number, lowest first. -/
def numBytes : Nat → Nat → List Byte
  | 0, _ => []
  | n + 1, v => BitVec.ofNat 8 v :: numBytes n (v / 256)
/-- The next leaf index, in the LMS state of the flash; unwritten: 0 (log 20). -/
def Pkg.leaf (x : Pkg) : Nat := leNat (bytesFrom (fun a => tget x.flash a 0) 0x2010000 4)
def Pkg.setLeaf (x : Pkg) (n : Nat) : Pkg :=
  { x with flash := (((List.range 4).zip (numBytes 4 n)).foldl (fun t b => tset t (0x2010000 + b.1) b.2) x.flash) }

/-- R382: the report over a nonce; the leaf index is advanced before the signature. With the leaves spent the report carries status 3, and no signature: those bytes
are free (log 18). -/
def execAttestation (p : Nat) (nonce : BitVec 384) (s : State) : Host.Outcome State Fault Refusal :=
  .next (
    let x := s.pkg p
    match x.running with
    | none => s
    | some f =>
      if s.hreg p 0x2300 ≠ 1 ∨ x.off = true then s
      else
        let leaf := x.leaf
        let spent := decide (leaf ≥ 2 ^ 20)
        let x := if spent then x else x.setLeaf (leaf + 1)
        let head := numBytes 48 nonce.toNat ++ numBytes 48 f.digest.toNat ++ numBytes 48 (Config.translatorDigest p).toNat ++ numBytes 4 f.svn ++
          numBytes 4 x.fuse ++ numBytes 1 (s.pkgNum p) ++ numBytes 7 0 ++ numBytes 8 (s.clock p)
        let n := s.freeCount
        let head := head ++ (if spent then (List.range 4).map fun i => Config.freeDump n (168 + i) else numBytes 4 leaf) ++ numBytes 4 (if spent then 3 else 0)
        let d := Config.sha384 head
        let sig := if spent then (List.range 3060).map fun i => Config.freeDump n (176 + i)
          else numBytes 96 (Config.ecdsaSign (Config.identityKey (Config.deviceSecret p)) d).toNat ++
            numBytes 2964 (Config.hssSign (Config.hssSeed (Config.deviceSecret p)) leaf d).toNat
        ({ s with freeCount := n + 1 } : State).modPkg p fun _ => { x with report := head ++ sig })

/-! ### Storage (22 R390, R391) -/

/-- SPCFG of a port; where the port serves its context. -/
def spcfg (port : Nat) : Nat := 0x2600 + 8 * port
def State.portUp (s : State) (p port : Nat) : Bool :=
  decide (port < 8) && (s.hreg p (spcfg port)).testBit 6 && (s.hreg p (spcfg port)).testBit 7 && s.alive p && !s.fatal p
/-- The context of a port. -/
def State.portCtx (s : State) (p port : Nat) : Nat := p * 64 + s.hreg p (spcfg port) % 64
/-- A byte's translation by the port's cache. -/
def State.portTarget (s : State) (p port va : Nat) (write : Bool) : State × (Target ⊕ Nat) :=
  s.translate (s.portCtx p port) [2 ^ 22 + p * 8 + port] (va % 2 ^ 64) { user := true, write := write }

/-- The request of a port's DMA engine for a word, for a race's record. -/
def State.portMsg (s : State) (p port w bm : Nat) : Msg :=
  { kind := .reg, src := siltAgent p port, dst := homeEnd w, agent := siltAgent p port, items := [{ w := w, bm := bm }], ctx := s.portCtx p port }

/-- One byte written by the port's engine. -/
def State.portByte (s : State) (p port va b : Nat) (tg : Target) : State :=
  let v : Word := BitVec.ofNat 32 (b * 2 ^ (8 * (va % 4)))
  match tg with
  | .cached pa => s.engineStore (s.portMsg p port (pa / 4) (2 ^ (pa % 4))) (pa / 4) (2 ^ (pa % 4)) v
  | .never pa => s.setHomeWord (pa / 4) (mergeWord (2 ^ (pa % 4)) v (s.homeWord (pa / 4)))
  | .pinCore core off => s.setScratchByte (scratchKey core off) (BitVec.ofNat 8 b)
  | .pinDie die pa => s.setPinWord die (pa / 4) (2 ^ (pa % 4)) v

/-- True where a byte of a range lies in a word that is on its way between agents. -/
def State.portMoving (s : State) (p port va n : Nat) : Bool :=
  (List.range n).any fun i => match (s.portTarget p port (va + i) false).2 with
    | .inl (.cached pa) => s.wordMoving (pa / 4)
    | _ => false

/-- The bytes of a write in order, up to the first that does not translate. -/
def State.portWrite (s : State) (p port va : Nat) : List Byte → State
  | [] => s
  | b :: r =>
    match s.portTarget p port va true with
    | (s, .inl tg) => (s.portByte p port va b.toNat tg).portWrite p port (va + 1) r
    | (s, .inr _) => s

/-- R390, R391: a write of the drive: a PACKAGE-scope store-release of the port's engine. A translation fault ends it. -/
def execStorageDmaWrite (p port : Nat) (va : BitVec 64) (data : List (BitVec 8)) (s : State) : Host.Outcome State Fault Refusal :=
  done (
    if s.portUp p port = false ∨ s.portMoving p port va.toNat data.length = true then s
    else ((s.bumpRelease (siltAgent p port)).portWrite p port va.toNat data).bumpRelease (siltAgent p port))

/-- One byte read by the port's engine: a word that another agent owns meets the race check. -/
def State.portRead (s : State) (p port va : Nat) : Nat → State
  | 0 => s
  | n + 1 =>
    match s.portTarget p port va false with
    | (s, .inr _) => s
    | (s, .inl (.cached pa)) =>
      let s := match s.ownerOf (pa / 4) with
        | some e =>
          if e.agent ≠ siltAgent p port ∧ s.races e = true ∧ (va % 4 = 0 ∨ n = 0) then
            s.race { s.portMsg p port (pa / 4) 15 with kind := .load } (pa / 4) 2 e
          else s
        | none => s
      s.portRead p port (va + 1) n
    | (s, .inl _) => s.portRead p port (va + 1) n

/-- R390: the drive reads; a translation fault ends the read. -/
def execStorageDmaRead (p port : Nat) (va : BitVec 64) (n : Nat) (s : State) : Host.Outcome State Fault Refusal :=
  done (if s.portUp p port = false ∨ s.portMoving p port va.toNat n = true then s else s.portRead p port va.toNat n)

/-- R390, R388: a port's link trains: its width and generation, and a retrain counted where it was up before; a width of 0 leaves it down. -/
def execStorageLinkRetrain (p port : Nat) (width gen : BitVec 4) (s : State) : Host.Outcome State Fault Refusal :=
  .next (
    if port ≥ 8 ∨ s.hreg p 0x2300 ≠ 1 ∨ (s.pkg p).off = true then s
    else
      let c := s.hreg p (spcfg port)
      let s := s.setHreg p (spcfg port) (c % 2 ^ 7 + (if width = 0 then 0 else 2 ^ 7) + width.toNat * 2 ^ 8 + gen.toNat * 2 ^ 12)
      let h := healthOff (18 + port / 4) (56 + port)
      if c.testBit 7 then s.setHreg p h (bumpField (s.hreg p h) 15 0) else s)

/-! ### The host's memory window (19 R324, 22 R393) -/

/-- 19 R324: the host writes or reads the package's memory, or a register, through the control link; a read changes nothing. -/
def execHostLinkDmaAccess (p pa : Nat) (write : Bool) (data : List (BitVec 8)) (s : State) : Host.Outcome State Fault Refusal :=
  done (
    if write = false ∨ (s.pkg p).off = true then s
    else
      let a := p * 2 ^ 46 + pa % 2 ^ 46
      if inRegPage a then s.hostStore p (a % 2 ^ 46 - 0x3F0000000000) data.length (leNat data)
      else if inDrive a then s
      else s.homePut a data.length (leNat data))

end Sys2Proof.Machine
end

