-- ==== Sys2Proof/Machine/Dispatch.lean ====
section
/-! DEFINITION. The dispatch: one arm per constructor of Instr, each one direct call of its meaning. -/

namespace Sys2Proof.Machine

/-- The meaning of an instruction or of a hardware step. -/
def exec (i : Instr) (s : State) : Host.Outcome State Fault Refusal :=
  match i with
  | .add o f => Sys2Proof.Machine.execAdd o f s
  | .sub o f => Sys2Proof.Machine.execSub o f s
  | .mul o f => Sys2Proof.Machine.execMul o f s
  | .mulhi o f => Sys2Proof.Machine.execMulhi o f s
  | .mad o f => Sys2Proof.Machine.execMad o f s
  | .div o f => Sys2Proof.Machine.execDiv o f s
  | .rem o f => Sys2Proof.Machine.execRem o f s
  | .neg o f => Sys2Proof.Machine.execNeg o f s
  | .abs o f => Sys2Proof.Machine.execAbs o f s
  | .min o f => Sys2Proof.Machine.execMin o f s
  | .max o f => Sys2Proof.Machine.execMax o f s
  | .and o f => Sys2Proof.Machine.execAnd o f s
  | .or o f => Sys2Proof.Machine.execOr o f s
  | .xor o f => Sys2Proof.Machine.execXor o f s
  | .andn o f => Sys2Proof.Machine.execAndn o f s
  | .shl o f => Sys2Proof.Machine.execShl o f s
  | .shr o f => Sys2Proof.Machine.execShr o f s
  | .rol o f => Sys2Proof.Machine.execRol o f s
  | .popc o f => Sys2Proof.Machine.execPopc o f s
  | .clz o f => Sys2Proof.Machine.execClz o f s
  | .ctz o f => Sys2Proof.Machine.execCtz o f s
  | .brev o f => Sys2Proof.Machine.execBrev o f s
  | .bfx o f => Sys2Proof.Machine.execBfx o f s
  | .bfi o f => Sys2Proof.Machine.execBfi o f s
  | .cmp o f cond => Sys2Proof.Machine.execCmp o f cond s
  | .sel o f => Sys2Proof.Machine.execSel o f s
  | .mov o f => Sys2Proof.Machine.execMov o f s
  | .lea o f => Sys2Proof.Machine.execLea o f s
  | .plog o op => Sys2Proof.Machine.execPlog o op s
  | .fadd o f => Sys2Proof.Machine.execFadd o f s
  | .fsub o f => Sys2Proof.Machine.execFsub o f s
  | .fmul o f => Sys2Proof.Machine.execFmul o f s
  | .ffma o f => Sys2Proof.Machine.execFfma o f s
  | .fmin o f => Sys2Proof.Machine.execFmin o f s
  | .fmax o f => Sys2Proof.Machine.execFmax o f s
  | .fabs o f => Sys2Proof.Machine.execFabs o f s
  | .fneg o f => Sys2Proof.Machine.execFneg o f s
  | .fcpsgn o f => Sys2Proof.Machine.execFcpsgn o f s
  | .fdiv o f => Sys2Proof.Machine.execFdiv o f s
  | .fsqrt o f => Sys2Proof.Machine.execFsqrt o f s
  | .frcp o f => Sys2Proof.Machine.execFrcp o f s
  | .frsq o f => Sys2Proof.Machine.execFrsq o f s
  | .fexp2 o f => Sys2Proof.Machine.execFexp2 o f s
  | .flog2 o f => Sys2Proof.Machine.execFlog2 o f s
  | .fsin o f => Sys2Proof.Machine.execFsin o f s
  | .fcos o f => Sys2Proof.Machine.execFcos o f s
  | .ftanh o f => Sys2Proof.Machine.execFtanh o f s
  | .fcmp o f => Sys2Proof.Machine.execFcmp o f s
  | .frint o f => Sys2Proof.Machine.execFrint o f s
  | .fclass o f => Sys2Proof.Machine.execFclass o f s
  | .fscale o f => Sys2Proof.Machine.execFscale o f s
  | .shfl o f => Sys2Proof.Machine.execShfl o f s
  | .bcast o wide => Sys2Proof.Machine.execBcast o wide s
  | .vote o kind => Sys2Proof.Machine.execVote o kind s
  | .sred o f => Sys2Proof.Machine.execSred o f s
  | .sscan o f => Sys2Proof.Machine.execSscan o f s
  | .cvt o f => Sys2Proof.Machine.execCvt o f s
  | .cvtpk o f => Sys2Proof.Machine.execCvtpk o f s
  | .ld o f => Sys2Proof.Machine.execLd o f s
  | .st o f => Sys2Proof.Machine.execSt o f s
  | .stRel o f => Sys2Proof.Machine.execStRel o f s
  | .ldl o f => Sys2Proof.Machine.execLdl o f s
  | .stl o f => Sys2Proof.Machine.execStl o f s
  | .pref o f => Sys2Proof.Machine.execPref o f s
  | .region o => Sys2Proof.Machine.execRegion o s
  | .acq o scope => Sys2Proof.Machine.execAcq o scope s
  | .rel o scope => Sys2Proof.Machine.execRel o scope s
  | .fence o scope => Sys2Proof.Machine.execFence o scope s
  | .atom o f => Sys2Proof.Machine.execAtom o f s
  | .atoml o f => Sys2Proof.Machine.execAtoml o f s
  | .atoms o f => Sys2Proof.Machine.execAtoms o f s
  | .wmap o => Sys2Proof.Machine.execWmap o s
  | .wunmap o => Sys2Proof.Machine.execWunmap o s
  | .wfill o => Sys2Proof.Machine.execWfill o s
  | .wdrain o => Sys2Proof.Machine.execWdrain o s
  | .wstat o => Sys2Proof.Machine.execWstat o s
  | .barinit o lvl => Sys2Proof.Machine.execBarinit o lvl s
  | .bararv o lvl => Sys2Proof.Machine.execBararv o lvl s
  | .barwait o lvl => Sys2Proof.Machine.execBarwait o lvl s
  | .barsync o lvl => Sys2Proof.Machine.execBarsync o lvl s
  | .qcfg o => Sys2Proof.Machine.execQcfg o s
  | .qpush o => Sys2Proof.Machine.execQpush o s
  | .qpop o => Sys2Proof.Machine.execQpop o s
  | .copy o => Sys2Proof.Machine.execCopy o s
  | .cbseal o => Sys2Proof.Machine.execCbseal o s
  | .cbwait o => Sys2Proof.Machine.execCbwait o s
  | .cbpoll o => Sys2Proof.Machine.execCbpoll o s
  | .mald o f => Sys2Proof.Machine.execMald o f s
  | .mwld o f => Sys2Proof.Machine.execMwld o f s
  | .mstrm o f => Sys2Proof.Machine.execMstrm o f s
  | .macc o isNew f => Sys2Proof.Machine.execMacc o isNew f s
  | .mdrn o f => Sys2Proof.Machine.execMdrn o f s
  | .mzero o f => Sys2Proof.Machine.execMzero o f s
  | .mqsc o => Sys2Proof.Machine.execMqsc o s
  | .mwait o f => Sys2Proof.Machine.execMwait o f s
  | .mrmap o => Sys2Proof.Machine.execMrmap o s
  | .nop o => Sys2Proof.Machine.execNop o s
  | .bra o => Sys2Proof.Machine.execBra o s
  | .brx o => Sys2Proof.Machine.execBrx o s
  | .call o => Sys2Proof.Machine.execCall o s
  | .callx o => Sys2Proof.Machine.execCallx o s
  | .ret o => Sys2Proof.Machine.execRet o s
  | .exit o => Sys2Proof.Machine.execExit o s
  | .yield o => Sys2Proof.Machine.execYield o s
  | .lpbeg o f => Sys2Proof.Machine.execLpbeg o f s
  | .lpbrk o dm1 => Sys2Proof.Machine.execLpbrk o dm1 s
  | .lpsave o => Sys2Proof.Machine.execLpsave o s
  | .lprest o => Sys2Proof.Machine.execLprest o s
  | .trigpost o f => Sys2Proof.Machine.execTrigpost o f s
  | .tcadd o scope => Sys2Proof.Machine.execTcadd o scope s
  | .tcrd o => Sys2Proof.Machine.execTcrd o s
  | .tcwait o => Sys2Proof.Machine.execTcwait o s
  | .tcset o => Sys2Proof.Machine.execTcset o s
  | .trigcan o => Sys2Proof.Machine.execTrigcan o s
  | .trigprb o => Sys2Proof.Machine.execTrigprb o s
  | .launch o => Sys2Proof.Machine.execLaunch o s
  | .tready o => Sys2Proof.Machine.execTready o s
  | .tdec o => Sys2Proof.Machine.execTdec o s
  | .trap o => Sys2Proof.Machine.execTrap o s
  | .eret o => Sys2Proof.Machine.execEret o s
  | .bkpt o => Sys2Proof.Machine.execBkpt o s
  | .sysrd o => Sys2Proof.Machine.execSysrd o s
  | .syswr o => Sys2Proof.Machine.execSyswr o s
  | .shootdn o => Sys2Proof.Machine.execShootdn o s
  | .cntcfg o => Sys2Proof.Machine.execCntcfg o s
  | .cntrd o => Sys2Proof.Machine.execCntrd o s
  | .issueCk p c => Sys2Proof.Machine.execIssueCk p c s
  | .entryAged p c pc => Sys2Proof.Machine.execEntryAged p c pc s
  | .yieldWindowEnd p c pc => Sys2Proof.Machine.execYieldWindowEnd p c pc s
  | .trapDelivery p c squad => Sys2Proof.Machine.execTrapDelivery p c squad s
  | .registrationRequest m => Sys2Proof.Machine.execRegistrationRequest m s
  | .registrationGrant m => Sys2Proof.Machine.execRegistrationGrant m s
  | .loadRequest m => Sys2Proof.Machine.execLoadRequest m s
  | .forwardedLoad m => Sys2Proof.Machine.execForwardedLoad m s
  | .loadAnswer m => Sys2Proof.Machine.execLoadAnswer m s
  | .invalidateNotice m => Sys2Proof.Machine.execInvalidateNotice m s
  | .revocation m => Sys2Proof.Machine.execRevocation m s
  | .writeBack m => Sys2Proof.Machine.execWriteBack m s
  | .writeBackAck m => Sys2Proof.Machine.execWriteBackAck m s
  | .homeAtomic m => Sys2Proof.Machine.execHomeAtomic m s
  | .remoteWrite m => Sys2Proof.Machine.execRemoteWrite m s
  | .llcEvict line => Sys2Proof.Machine.execLlcEvict line s
  | .levelEvict level word => Sys2Proof.Machine.execLevelEvict level word s
  | .regionEntryTaken p ctx r => Sys2Proof.Machine.execRegionEntryTaken p ctx r s
  | .windowSectorFetchDone m => Sys2Proof.Machine.execWindowSectorFetchDone m s
  | .wfillComplete p c slot => Sys2Proof.Machine.execWfillComplete p c slot s
  | .wdrainComplete p c slot => Sys2Proof.Machine.execWdrainComplete p c slot s
  | .copyCommandStart cmd => Sys2Proof.Machine.execCopyCommandStart cmd s
  | .copyCommandComplete cmd => Sys2Proof.Machine.execCopyCommandComplete cmd s
  | .copyCommandFail cmd => Sys2Proof.Machine.execCopyCommandFail cmd s
  | .matrixAccept p c => Sys2Proof.Machine.execMatrixAccept p c s
  | .maldComplete p c op => Sys2Proof.Machine.execMaldComplete p c op s
  | .mwldShadowComplete p c corrected uncorrectable => Sys2Proof.Machine.execMwldShadowComplete p c corrected uncorrectable s
  | .mstrmRowRetire p c op => Sys2Proof.Machine.execMstrmRowRetire p c op s
  | .mstrmComplete p c op => Sys2Proof.Machine.execMstrmComplete p c op s
  | .mdrnComplete p c op => Sys2Proof.Machine.execMdrnComplete p c op s
  | .maccComplete p c op => Sys2Proof.Machine.execMaccComplete p c op s
  | .mzeroComplete p c op => Sys2Proof.Machine.execMzeroComplete p c op s
  | .trigOpStart p d => Sys2Proof.Machine.execTrigOpStart p d s
  | .trigOpComplete p d slot => Sys2Proof.Machine.execTrigOpComplete p d slot s
  | .trigOpFail p d slot cause => Sys2Proof.Machine.execTrigOpFail p d slot cause s
  | .signal m => Sys2Proof.Machine.execSignal m s
  | .aggregatorMergeTimeout p d merge => Sys2Proof.Machine.execAggregatorMergeTimeout p d merge s
  | .doorbell p j tail => Sys2Proof.Machine.execDoorbell p j tail s
  | .launchCommand p j => Sys2Proof.Machine.execLaunchCommand p j s
  | .mstart p j => Sys2Proof.Machine.execMstart p j s
  | .ctxcreate p j => Sys2Proof.Machine.execCtxcreate p j s
  | .ctxdestroy p j => Sys2Proof.Machine.execCtxdestroy p j s
  | .toksig p j => Sys2Proof.Machine.execToksig p j s
  | .taskarm p j => Sys2Proof.Machine.execTaskarm p j s
  | .halt p j => Sys2Proof.Machine.execHalt p j s
  | .resume p j => Sys2Proof.Machine.execResume p j s
  | .launchLogicCk p d => Sys2Proof.Machine.execLaunchLogicCk p d s
  | .quiescePoint gang => Sys2Proof.Machine.execQuiescePoint gang s
  | .workgroupComplete p c => Sys2Proof.Machine.execWorkgroupComplete p c s
  | .launchComplete l => Sys2Proof.Machine.execLaunchComplete l s
  | .clusterAdvert p d => Sys2Proof.Machine.execClusterAdvert p d s
  | .migrationOffer p d => Sys2Proof.Machine.execMigrationOffer p d s
  | .migrationOfferReceive p d => Sys2Proof.Machine.execMigrationOfferReceive p d s
  | .contextFaultMessage p ctx fault => Sys2Proof.Machine.execContextFaultMessage p ctx fault s
  | .translationFault p c squad lane va kind => Sys2Proof.Machine.execTranslationFault p c squad lane va kind s
  | .faultRecordWrite p => Sys2Proof.Machine.execFaultRecordWrite p s
  | .frdoneRetry p id => Sys2Proof.Machine.execFrdoneRetry p id s
  | .frdoneDeliver p id => Sys2Proof.Machine.execFrdoneDeliver p id s
  | .shootdownReceive p sd => Sys2Proof.Machine.execShootdownReceive p sd s
  | .negativeReply m => Sys2Proof.Machine.execNegativeReply m s
  | .heartbeat p d => Sys2Proof.Machine.execHeartbeat p d s
  | .dieLostDetect p d error hostReset => Sys2Proof.Machine.execDieLostDetect p d error hostReset s
  | .dieLossBroadcast p d => Sys2Proof.Machine.execDieLossBroadcast p d s
  | .fatalError p item socket valid => Sys2Proof.Machine.execFatalError p item socket valid s
  | .flitReceive p socket noise => Sys2Proof.Machine.execFlitReceive p socket noise s
  | .ringCycle p => Sys2Proof.Machine.execRingCycle p s
  | .requestReceive m => Sys2Proof.Machine.execRequestReceive m s
  | .requestTimeout m => Sys2Proof.Machine.execRequestTimeout m s
  | .moduleLaneFail p socket md lane => Sys2Proof.Machine.execModuleLaneFail p socket md lane s
  | .moduleRetrainDone p socket md => Sys2Proof.Machine.execModuleRetrainDone p socket md s
  | .lineRetrainStart p plane line lostLock => Sys2Proof.Machine.execLineRetrainStart p plane line lostLock s
  | .retrainNotice p plane line => Sys2Proof.Machine.execRetrainNotice p plane line s
  | .lineRetrainDone p plane line good => Sys2Proof.Machine.execLineRetrainDone p plane line good s
  | .flrst p v => Sys2Proof.Machine.execFlrst p v s
  | .pkgnum p v => Sys2Proof.Machine.execPkgnum p v s
  | .pwrcmdRun p v => Sys2Proof.Machine.execPwrcmdRun p v s
  | .pwrcmdTrim p v => Sys2Proof.Machine.execPwrcmdTrim p v s
  | .pwrcmdHold p v => Sys2Proof.Machine.execPwrcmdHold p v s
  | .pwrcmdOff p v => Sys2Proof.Machine.execPwrcmdOff p v s
  | .powerTransitionDone p => Sys2Proof.Machine.execPowerTransitionDone p s
  | .thermalSample p sensors inlet outlet => Sys2Proof.Machine.execThermalSample p sensors inlet outlet s
  | .thalarm p v => Sys2Proof.Machine.execThalarm p v s
  | .registerWrite p off v => Sys2Proof.Machine.execRegisterWrite p off v s
  | .storageDmaWrite p port va data => Sys2Proof.Machine.execStorageDmaWrite p port va data s
  | .boot p => Sys2Proof.Machine.execBoot p s
  | .recoveryImage p md image => Sys2Proof.Machine.execRecoveryImage p md image s
  | .rollbackFuse p => Sys2Proof.Machine.execRollbackFuse p s
  | .attestation p nonce => Sys2Proof.Machine.execAttestation p nonce s
  | .dieReturnToService p d => Sys2Proof.Machine.execDieReturnToService p d s
  | .powerRemoved p => Sys2Proof.Machine.execPowerRemoved p s
  | .storageDmaRead p port va n => Sys2Proof.Machine.execStorageDmaRead p port va n s
  | .storageLinkRetrain p port width gen => Sys2Proof.Machine.execStorageLinkRetrain p port width gen s
  | .hostLinkDmaAccess p pa write data => Sys2Proof.Machine.execHostLinkDmaAccess p pa write data s
  | .atomicAnswer m => Sys2Proof.Machine.execAtomicAnswer m s

end Sys2Proof.Machine
end

