-- ==== Sys2Proof/Machine/Step.lean ====
section
/-! DEFINITION. One step of the machine: a group that was picked in this ck fetches and issues; with no pick left, the next step that is due; with none
due, the step that happens next is open (log 1). -/

namespace Sys2Proof.Machine

/-- A picked group: it fetches, its instruction is executed. -/
def stepPick (s : State) (iss : Issue) (rest : List Issue) : Host.Outcome State Fault Refusal :=
  match ({ s with picks := rest } : State).fetch iss with
  | (s, some i) => exec i s
  | (s, none) => done s

/-- A hardware step; an instruction does not come about by itself. -/
def stepEvent (i : Instr) (s : State) : Host.Outcome State Fault Refusal := if i.isEvent then exec i s else .next s

/-- One step. -/
def step (s : State) : Host.Outcome State Fault Refusal :=
  match s.picks with
  | iss :: rest => stepPick s iss rest
  | [] =>
    match s.agenda with
    | i :: rest => stepEvent i { s with agenda := rest }
    | [] => stepEvent (Config.nextEvent s.tick) { s with tick := s.tick + 1 }

/-- The instruction's bytes stand in the instruction cache at the PC of a thread that is picked to issue: thread 0 of core 0 (log 1). For a hardware
step there are no bytes. -/
def State.withFetchWord (s : State) (nbits w : Nat) : State :=
  let core := coreKey 0 0
  let t := threadKey (squadKey core 0) 0
  let s := if (tget? s.squads (squadKey core 0)).isSome then s else s.setSquad (squadKey core 0) {}
  let s := if (tget? s.threads t).isSome then s else s.setThread t {}
  let pc := (s.thread t).pc
  let blk := pc - pc % 32
  { s with
    icache := (fetchKey core, s.fetchTag t, blk, w % 2 ^ nbits % 2 ^ 128 * 2 ^ (8 * (pc % 32))) :: s.icache
    picks := [{ core := core, slot := 0, pc := pc, threads := [t] }] }

end Sys2Proof.Machine
end

