-- ==== Sys2Proof/Safety.lean ====
section
/-! DEFINITION. The terms the statements use: a safe state, a group of threads that issues, what an instruction leaves of the machine, and what a
destination holds after it. -/

namespace Sys2Proof.Machine

/-- The memory's canonical form. -/
def State.Wf (s : State) : Prop := memWf s.mem = true

/-- What is neither a register nor part of a thread, a squad or a core. -/
def State.rest (s : State) : State := { s with regs := [], threads := [], squads := [], cores := [] }

/-- A thread without its scoreboard (01 R28), the operands it holds at a collective (01 R30) and what it keeps of an instruction that it has not left (08 R168), a squad without its k registers and theirs, a core without its issue table and slots (01 R18, R24). -/
def Thread.plain (th : Thread) : Thread := { th with busy := [], heldA := 0, heldB := 0, heldC := 0, heldGuard := false, first := none }
def Squad.plain (q : Squad) : Squad := { q with k := [], kbusy := [] }
def Core.plain (c : Core) : Core := { c with entries := [], unplaced := [], slot0 := {}, slot1 := {} }

/-- A group that issues and executes a well-formed instruction, or goes on with it after a wait: threads of one core in different lanes, none of which has
had its effect; no check of 05 R116, 01 R396 or 02 R39 fails at issue; every source latch is valid (01 R26); a thread that goes on writes a k destination
where it did as its group issued (01 R15, log 78). -/
structure Issues (s : State) (iss : Issue) (i : Instr) (o : Ops) : Prop where
  formed : i.WellFormed = true
  issue : s.issue = some iss
  core : ∀ t ∈ iss.threads, coreOf t = iss.core
  lanes : (iss.threads.map laneOf).Nodup
  checks : ∀ t ∈ iss.threads, s.preTrap iss i o (s.chainAt iss).count t = none
  latches : ∀ t ∈ iss.threads, (s.begun iss).latchTrap iss i o t = false
  undone : ∀ t ∈ iss.threads, (s.thread t).done = false
  writers : ∀ t ∈ iss.threads, ∀ f, (s.thread t).first = some f →
    f.kw = decide ((iss.threads.find? fun u => squadOf u = squadOf t && (s.thread u).guard o.h) = some t)

/-- The threads of a group whose guard is true (05 R109). -/
def State.guarded (s : State) (iss : Issue) (o : Ops) : List Nat := iss.threads.filter fun t => (s.thread t).guard o.h

/-- A group of one thread, whose guard is true. -/
structure Alone (s : State) (iss : Issue) (i : Instr) (o : Ops) (t : Nat) : Prop where
  issues : Issues s iss i o
  only : iss.threads = [t]
  guard : (s.thread t).guard o.h = true

/-- A squad whose threads all arrive at a collective in one group (01 R30): a squad of a Loam core, or the one thread of a Marl core's squad. -/
structure Together (s : State) (iss : Issue) (i : Instr) (o : Ops) (q : Nat) : Prop where
  issues : Issues s iss i o
  all : iss.threads = s.squadThreads q
  some' : iss.threads ≠ []
  here : ∀ t ∈ iss.threads, (s.thread t).run = .ready ∧ (s.thread t).pc = iss.pc

/-- A thread past an instruction at pc (02 R37, R38): the loop update, the PC it goes to, ready. -/
def Thread.past (th : Thread) (pc next : Nat) : Thread :=
  { (th.loopUpdate pc next).1 with pc := (th.loopUpdate pc next).2, run := .ready, phase := 0, token := 0, failed := none, first := none }
/-- A thread gone to a PC without a loop update. -/
def Thread.jumped (th : Thread) (pc : Nat) : Thread := { th with pc := pc, run := .ready, phase := 0, token := 0, failed := none, first := none }

/-- The PC after an instruction (05 R104). -/
def Issue.next (iss : Issue) (i : Instr) : Nat := (iss.pc + i.length) % 2 ^ 64

/-- What becomes of a thread at pc that leaves an instruction without a trap. -/
def Ret.thread (pc next : Nat) : Ret → Thread → Thread
  | .next, th => th.past pc next
  | .jump p, th => th.jumped p
  | .stay r, th => { th with run := r }
  | .trap _, th => th
  | .gone, th => th

/-- r is x with the threads of the group as f has them; registers, k registers, latches and scoreboard are not spoken of. -/
structure Kept (iss : Issue) (f : Nat → Thread → Thread) (x r : State) : Prop where
  rest : r.rest = x.rest
  threads : ∀ t ∈ iss.threads, (r.thread t).plain = (f t (x.thread t)).plain
  others : ∀ t, t ∉ iss.threads → r.thread t = x.thread t
  squads : ∀ q, (r.squad q).plain = (x.squad q).plain
  core : (r.core iss.core).plain = (x.core iss.core).plain
  cores : ∀ c, c ≠ iss.core → r.core c = x.core c
  slot : ∀ j, (j = 0 ↔ iss.slot ≠ 0) → (r.core iss.core).slot j = (x.core iss.core).slot j

/-- Kept, with every register, k register and latch as in x. -/
structure Still (iss : Issue) (f : Nat → Thread → Thread) (x r : State) : Prop where
  kept : Kept iss f x r
  regs : r.regs = x.regs
  k : ∀ q, (r.squad q).k = (x.squad q).k
  latch : ((r.core iss.core).slot iss.slot).latch = ((x.core iss.core).slot iss.slot).latch

/-- True of a register key that the destination of thread t names: the register, or of a pair both (01 R13, R14). -/
def State.namesReg (s : State) (o : Ops) (n t key : Nat) : Prop :=
  o.h.wbs = false ∧ ∃ r, o.d = .v r ∧ (key = s.regKey t r.toNat ∨ (n = 2 ∧ key = s.regKey t (r.toNat + 1)))

/-- The result v t of n registers is in the destination of every thread of ts (05 R111, 01 R13 to R15, R24), and nothing else changed but the threads
themselves, which are as f has them once the destination predicate holds its result. x: the state the result is written over. -/
structure Wrote (iss : Issue) (i : Instr) (o : Ops) (n : Nat) (ts : List Nat) (v : Nat → Nat) (x r : State) : Prop where
  kept : Kept iss (fun t th =>
    (match o.d with
      | .pred p => if t ∈ ts ∧ o.h.wbs = false then th.setPred p.toNat (v t % 2 = 1) else th
      | _ => th).past iss.pc (iss.next i)) x r
  low : ∀ t ∈ ts, ∀ d, o.d = .v d → o.h.wbs = false → tget r.regs (x.regKey t d.toNat) 0 = BitVec.ofNat 32 (v t)
  high : ∀ t ∈ ts, ∀ d, o.d = .v d → o.h.wbs = false → n = 2 → tget r.regs (x.regKey t (d.toNat + 1)) 0 = BitVec.ofNat 32 (v t / 2 ^ 32)
  regs : ∀ key, (∀ t ∈ ts, ¬ x.namesReg o n t key) → tget r.regs key 0 = tget x.regs key 0
  kLow : ∀ t ∈ ts, ∀ d, o.d = .k d → o.h.wbs = false → (ts.find? fun u => squadOf u = squadOf t) = some t →
    tget (r.squad (squadOf t)).k d.toNat 0 = BitVec.ofNat 32 (v t)
  kHigh : ∀ t ∈ ts, ∀ d, o.d = .k d → o.h.wbs = false → n = 2 → (ts.find? fun u => squadOf u = squadOf t) = some t →
    tget (r.squad (squadOf t)).k (d.toNat + 1) 0 = BitVec.ofNat 32 (v t / 2 ^ 32)
  k : ∀ q j, (∀ d, o.d = .k d → o.h.wbs = false → (∃ t ∈ ts, squadOf t = q) → j ≠ d.toNat ∧ (n = 2 → j ≠ d.toNat + 1)) →
    tget (r.squad q).k j 0 = tget (x.squad q).k j 0
  latch : ∀ t ∈ ts, ∀ b, latchOf o = some b →
    tget ((r.core iss.core).slot iss.slot).latch (b * 64 + laneOf t) 0 = BitVec.ofNat 64 (v t)
  latches : ∀ j, latchOf o ≠ some (j / 64) → tget ((r.core iss.core).slot iss.slot).latch j 0 = tget ((x.core iss.core).slot iss.slot).latch j 0

/-! ### Values, as the rules say them -/

/-- An integer operand (04 R84, 07 R134): its format's low bits, signed or natural. -/
def operand (f : Fmt) (x : Nat) : Int := if f.isSigned then (BitVec.ofNat f.width x).toInt else (BitVec.ofNat f.width x).toNat
/-- The least and the greatest value of an integer format (04 R84). -/
def leastOf (f : Fmt) : Int := if f.isSigned then -(2 ^ (f.width - 1) : Nat) else 0
def greatestOf (f : Fmt) : Int := if f.isSigned then (2 ^ (f.width - 1) : Nat) - 1 else (2 ^ f.width : Nat) - 1
/-- An integer result (04 R84, R85): clamped to the format or its low bits kept, then extended to the register or pair it fills. -/
def result (f : Fmt) (sat : Bool) (r : Int) : Nat :=
  let x := BitVec.ofInt f.width (if sat then max (leastOf f) (min r (greatestOf f)) else r)
  (if f.isSigned then x.signExtend (max f.width 32) else x.zeroExtend (max f.width 32)).toNat
/-- The number whose bit i is p i, for i below w. -/
def ofBits (w : Nat) (p : Nat → Bool) : Nat := ((List.range w).map fun i => (p i).toNat * 2 ^ i).sum

/-- The bytes of a load as they fill its destination (04 R84, R86, 08 R164). -/
def loaded (f : Fmt) (x : Nat) : Nat := if f.isInt then result f false (operand f x) else x % 2 ^ f.width
/-- A binary tree over 2^j values (07 R161): level j, index i. -/
def treeOf (g : Nat → Nat → Nat) (a : Nat → Nat) : Nat → Nat → Nat
  | 0, i => a i
  | j + 1, i => g (treeOf g a j (2 * i)) (treeOf g a j (2 * i + 1))
/-- The inclusive prefixes of values (07 R162). -/
def prefixOf (g : Nat → Nat → Nat) (a : Nat → Nat) : Nat → Nat
  | 0 => a 0
  | l + 1 => g (prefixOf g a l) (a (l + 1))
/-- A finite value as a rational; none for a NaN or an infinity. -/
def Val.real : Val → Option Rat
  | .fin neg n d => some ((if neg then -1 else 1) * (n : Rat) / (d : Rat))
  | _ => none
/-- The new value of an atomic (08 R176). -/
def atomValue (op : AtomOp) (f : Fmt) (old c cmp : Nat) : Nat :=
  match op with
  | .add => if f.isInt then (BitVec.ofNat f.width old + BitVec.ofNat f.width c).toNat else rnd ((val (old % 2 ^ f.width) f).add .rne (val (c % 2 ^ f.width) f)) f .rne
  | .min => if f.isInt then (if operand f c < operand f old then c else old) % 2 ^ f.width else minnum f (old % 2 ^ f.width) (c % 2 ^ f.width)
  | .max => if f.isInt then (if operand f old < operand f c then c else old) % 2 ^ f.width else maxnum f (old % 2 ^ f.width) (c % 2 ^ f.width)
  | .and => (BitVec.ofNat f.width old &&& BitVec.ofNat f.width c).toNat
  | .or => (BitVec.ofNat f.width old ||| BitVec.ofNat f.width c).toNat
  | .xor => (BitVec.ofNat f.width old ^^^ BitVec.ofNat f.width c).toNat
  | .exch => c % 2 ^ f.width
  | .cas => if BitVec.ofNat f.width old = BitVec.ofNat f.width cmp then c % 2 ^ f.width else old % 2 ^ f.width

/-- The byte at a physical address: of the latest value of its word, its owner's or its home's (03 R55, R58). -/
def State.byteAt (s : State) (a : Nat) : Nat := (s.wordVal (a / 4)).toNat / 2 ^ (8 * (a % 4)) % 256

/-- The requester's first level owns a word, and so does its agent at the home (03 R55): a store or an atomic acts on it there (03 R56, R71). -/
structure Holds (s : State) (x : Who) (w : Nat) : Prop where
  place : pkgOf x.core < 64 ∧ numOf x.core < 352
  here : ∃ c, s.copy x.level w = some c ∧ c.owned = true ∧ c.pend = false ∧ c.holder = x.holder ∧ c.win = none
  home : ∃ e, s.ownerOf w = some e ∧ e.agent = x.agent
  die : isMarl x.core = false → ∃ d, s.copy (l2Level (dieOf x.core)) w = some d ∧ d.owned = true ∧ d.holder = clusterOf x.core % 8

/-- A translation cache of the requester's path maps the address to a place of a Cached page whose leaf admits the access (20 R351, R352). -/
def State.Mapped (s : State) (x : Who) (va : Nat) (write : Bool) (pa : Nat) : Prop := canonical va = true ∧ placed pa = true ∧
  ∃ e, (tcPath x.core).findSome? (fun id => s.tcFind id x.ctx (va % 2 ^ 57)) = some e ∧ leafCause e.leaf { user := x.user, write := write } = 0 ∧
    s.ownTarget (x.ctx / 64) (targetOf e.leaf e.log (va % 2 ^ 57)) = .cached pa

/-- A thread at the start of an instruction: nothing of an earlier attempt is left (08 R168). -/
def Thread.fresh (th : Thread) : Prop := th.failed = none ∧ th.phase = 0 ∧ th.first = none

/-- Instruction i of n result registers gives v of its sources: for every group that issues it, exec answers the next state in which every guarded
thread's destination holds its value, and nothing else changed but the group's place in the program. -/
def Gives (i : Instr) (o : Ops) (n : Nat) (v : Nat → Nat → Nat → Nat) : Prop :=
  ∀ (s : State) (iss : Issue), Issues s iss i o → ∃ r, exec i s = .next r ∧
    Wrote iss i o n (s.guarded iss o) (fun t => v (s.srcA iss t i o) (s.srcB iss t i o.b) (s.srcC iss t i o)) (s.begun iss) r

/-- The group goes on past instruction i, and the machine holds what x holds but for the group's place in the program. -/
def State.Passes (s : State) (iss : Issue) (i : Instr) (x : State) : Prop :=
  ∃ r, exec i s = .next r ∧ Still iss (fun _ th => th.past iss.pc (iss.next i)) x r

/-- The group stays at instruction i in a state of its threads, and the machine holds what x holds. -/
def State.Stays (s : State) (iss : Issue) (i : Instr) (how : Run) (x : State) : Prop :=
  ∃ r, exec i s = .next r ∧ Still iss (fun _ th => { th with run := how }) x r

/-- The threads ts of the group get v in their destination of n registers, over x, and the group goes on. -/
def State.Puts (s : State) (iss : Issue) (i : Instr) (o : Ops) (n : Nat) (ts : List Nat) (v : Nat → Nat) (x : State) : Prop :=
  ∃ r, exec i s = .next r ∧ Wrote iss i o n ts v x r

/-- The group goes from instruction i to a PC without a loop update, and the machine holds what x holds. -/
def State.Goes (s : State) (iss : Issue) (i : Instr) (pc : Nat) (x : State) : Prop :=
  ∃ r, exec i s = .next r ∧ Still iss (fun _ th => th.jumped pc) x r

/-- No trap of the thread's squad is pending or in its handler, no other group of the squad is picked, the thread is in user mode and its core issues: a
trap it raises is delivered at once (01 R32, 19 R338). -/
def State.Quiet (s : State) (t : Nat) : Prop :=
  (s.squad (squadOf t)).handling = 0 ∧ (s.squad (squadOf t)).trapped = [] ∧ s.squadPicked (squadOf t) = false ∧ (s.thread t).supervisor = false ∧
    (s.squad (squadOf t)).freeAt ≤ (s.core (coreOf t)).ck ∧ (s.core (coreOf t)).stop = false

/-- The record of a trap that thread t took (10 R242): its eight words, with no other trap pending. -/
def recordOf (iss : Issue) (t code cause data kind epc : Nat) : List (BitVec 64) :=
  [BitVec.ofNat 64 (code + cause % 256 * 2 ^ 8 + laneOf t * 2 ^ 24 + squadOf t % 32 * 2 ^ 30 + iss.nbytes * 2 ^ 35), BitVec.ofNat 64 (2 ^ laneOf t),
   BitVec.ofNat 64 iss.pc, BitVec.ofNat 64 epc, BitVec.ofNat 64 data, BitVec.ofNat 64 iss.bytes, BitVec.ofNat 64 (iss.bytes / 2 ^ 64), BitVec.ofNat 64 kind]

/-- Thread t took a trap that was delivered (10 R242, R243): TREC0 to TREC7 hold the record, the thread stands at TVEC of its context in supervisor
mode; no register, no memory and no other thread changed. x: the state before. -/
structure Delivered (iss : Issue) (t code cause data kind epc : Nat) (x r : State) : Prop where
  trec : (r.squad (squadOf t)).trec = recordOf iss t code cause data kind epc
  handling : (r.squad (squadOf t)).handling = BitVec.ofNat 64 (2 ^ laneOf t)
  trapped : (r.squad (squadOf t)).trapped = []
  mode : (r.thread t).supervisor = true ∧ (r.thread t).inHandler = true ∧ (r.thread t).run = .ready
  pc : (r.thread t).pc = (x.ctx (x.ctxKey t)).tvec
  loops : (r.thread t).preds = (x.thread t).preds ∧ (r.thread t).depth = (x.thread t).depth ∧ (r.thread t).rot = (x.thread t).rot
  others : ∀ u, u ≠ t → r.thread u = x.thread u
  squads : ∀ q, q ≠ squadOf t → r.squad q = x.squad q
  k : (r.squad (squadOf t)).k = (x.squad (squadOf t)).k
  regs : r.regs = x.regs
  scratch : r.scratch = x.scratch
  mem : r.mem = x.mem
  copies : r.copies = x.copies
  chain : iss.again = false → ((r.core iss.core).slot iss.slot).chain = none

/-- Instruction i makes thread t take a trap that is delivered at once. -/
def State.Interrupts (s : State) (iss : Issue) (i : Instr) (t code cause data kind epc : Nat) : Prop :=
  ∃ r, exec i s = .next r ∧ Delivered iss t code cause data kind epc s r

/-- A step that answers a next state. -/
def State.Runs (s : State) : Prop := ∃ t, step s = .next t

end Sys2Proof.Machine
end

