-- ==== Sys2Proof/Certificates/Slice0/Obligations.lean ====
section
/-! DEFINITION. The statements for the provers: what the rules of spec/ say that each instruction and each hardware step does. -/

open Sys2Proof Sys2Proof.Machine

/-- The values that the spec gives for reset: 21 R374's timeouts and FABRETRY, 19 R337's QUANT, BOOTSTAT 0 (21 R380), 64 lanes in every module (21 R371); and
the memory's canonical form, no thread, no context, no request. What is unlisted reads 0, which is the model's choice (logs 2 and 3); so is QUANT's offset
0x4000 + 64d + 4i (log 13). -/
def Obligations.ResetState : Prop := State.reset.Wf ∧ State.reset.threads = [] ∧ State.reset.ctxs = [] ∧ State.reset.msgs = [] ∧ State.reset.owners = [] ∧
  ∀ p, State.reset.hreg p 0x2200 = 2000 ∧ State.reset.hreg p 0x2204 = 20000 ∧ State.reset.hreg p 0x2208 = 8 ∧ State.reset.hreg p 0x2300 = 0 ∧
    (∀ die prio, die < 8 → prio < 12 → State.reset.hreg p (0x4000 + 64 * die + 4 * prio) = 0xFFFF) ∧
    ∀ socket md, socket < 20 → md < 24 → State.reset.moduleWidth p socket md = 64

/-- Words written out from the spec's worked encodings (05 R117, 06 R126, R128, 07 R136, 08 R177, 09 R207, R222, R218, 10 R228, 14 R288, 16, 17, 11 R258)
decode to the instructions that they stand for. -/
def Obligations.SpecWordsDecode : Prop :=
  let h (g : BitVec 4) (b : BitVec 2) (long : Bool) : Hdr := ⟨g, false, false, false, b, long⟩
  let z : Fld := .zero
  decode 0x005128944A200300 = .ok (.nop ⟨h 0 0 false, z, z, .fld z, z⟩) ∧
  decode 0xA05100A0403A0C80 = .ok (.fadd ⟨h 3 1 false, .v 7, .v 4, .fld (.v 5), z⟩ ⟨.f32, .rne, false⟩) ∧
  decode (0x82512880A0400181 + 0x40 * 2 ^ 64) = .ok (.ld ⟨h 0 0 false, .v 8, .v 10, .imm32 0x40, z⟩ ⟨.pkg, .all, .s32⟩) ∧
  decode (0x4851288040180005 + 0x64 * 2 ^ 64) = .ok (.add ⟨h 0 0 false, .v 3, .v 4, .imm32 100, z⟩ ⟨.s32, true, 0⟩) ∧
  decode (0x42832880A0300201 + 0x10 * 2 ^ 64) = .ok (.atom ⟨h 0 0 false, .v 6, .v 10, .imm32 16, .v 12⟩ ⟨.die, .add, .n32⟩) ∧
  decode (0x00512880CA20028A + 0x4000010000000000 * 2 ^ 64) =
    .ok (.mstrm ⟨h 0 0 true, z, .v 12, .fld z, z⟩ ⟨1, .tern, .dense, .s8, false, false, 256, 0⟩) ∧
  decode (0x095128805A200321 + 0x20 * 2 ^ 64) = .ok (.lpbeg ⟨h 0 0 false, z, .v 5, .imm32 0x20, z⟩ ⟨0, true, 2⟩) ∧
  decode (0x000241014A200382 + 0x3C01101200000001 * 2 ^ 64) =
    .ok (.trigpost ⟨h 0 0 true, z, .v 20, .fld (.v 8), .v 9⟩ ⟨.sendsig, .sys, true, 17, 18, 1⟩) ∧
  decode (0x005128810A200286 + 0x1000000000000000 * 2 ^ 64) =
    .ok (.mwld ⟨h 0 0 true, z, .v 16, .fld z, z⟩ ⟨0, .int4, .dense, .s8, false, false, 0, 0⟩) ∧
  decode (0x005128820A200292 + 0x0280010000000000 * 2 ^ 64) =
    .ok (.mdrn ⟨h 0 0 true, z, .v 32, .fld z, z⟩ ⟨0, .tern, .dense, .f32, false, false, 256, 0⟩) ∧
  decode 0x8200A8816A200D88 = .ok (.stRel ⟨h 3 0 false, z, .v 22, .fld z, .v 2⟩ ⟨.pkg, .all, .s32⟩) ∧
  decode 0x8280E88180200600 = .ok (.atom ⟨h 1 0 false, .v 4, .v 24, .fld z, .v 3⟩ ⟨.pkg, .add, .n32⟩) ∧
  decode 0x4051006020100004 = .ok (.add ⟨h 0 0 false, .v 2, .v 2, .fld (.v 3), z⟩ ⟨.s32, false, 0⟩) ∧
  decode 0x005128944A200314 = .ok (.ret ⟨h 0 0 false, z, z, .fld z, z⟩)

/-- 05 R104 to R116, 06: for every well-formed instruction, decoding its encoding gives it back, with every operand, header bit, function field, immediate and
extension field. -/
def Obligations.DecodeOfEncode : Prop := ∀ i : Instr, i.WellFormed = true → i.isEvent = false →
  decode (encode i) = .ok i ∧ encode i % 4 = i.length / 4 - 2 ∧ encode i < 2 ^ (8 * i.length)

/-- 01 R24, R25, 05 R104 to R116: where the bytes at the PC of a picked group decode to an instruction that its fetch block holds whole, step is exec of that
instruction; with no group picked it is exec of the hardware step that is due, or of the one that the model leaves open (log 1). -/
def Obligations.StepRunsTheDecoded : Prop := ∀ (s : State),
  (∀ iss rest t ts y b i, s.picks = iss :: rest → iss.threads = t :: ts → (∀ u ∈ iss.threads, (s.thread u).supervisor = (s.thread t).supervisor) →
    ({ s with picks := rest } : State).fetchBlock t iss.pc = (y, .inl b) →
    let x := b / 2 ^ (8 * (iss.pc % 32))
    let n := 8 + 4 * (x % 4)
    x % 4 ≠ 3 → n ≤ 32 - iss.pc % 32 → decode (x % 2 ^ (8 * n)) = .ok i →
    step s = exec i { y with issue := some { iss with bytes := x % 2 ^ (8 * n), nbytes := n } }) ∧
  (∀ i rest, s.picks = [] → s.agenda = i :: rest → i.isEvent = true → step s = exec i { s with agenda := rest }) ∧
  (s.picks = [] → s.agenda = [] → step s =
    if (Config.nextEvent s.tick).isEvent = true then exec (Config.nextEvent s.tick) { s with tick := s.tick + 1 } else .next { s with tick := s.tick + 1 })

/-- Every step that answers a next state keeps the memory's canonical form: addresses rising, no entry equal to what an unlisted address reads as. That form,
and the 0 of an unlisted address, are the model's choice (log 2). No step lowers a package's fused rollback count (21 R380) or the next leaf index of its
signing key (21 R381). -/
def Obligations.MemoryStaysCanonical : Prop := ∀ s t : State, step s = .next t → (s.Wf → t.Wf) ∧
  ∀ p, (s.pkg p).fuse ≤ (t.pkg p).fuse ∧ (s.pkg p).leaf ≤ (t.pkg p).leaf

/-- 07 R136: ADD, SUB, MUL, MAD, NEG and ABS write fit of the exact result. Where a group holds several squads each writes its own lane's value to its k
register, the model's choice (log 78). -/
def Obligations.IntegerArithmetic : Prop := ∀ (o : Ops) (f : IntFn),
  Gives (.add o f) o (regsOf f.fmt) (fun a b _ => result f.fmt f.sat (operand f.fmt a + operand f.fmt b)) ∧
  Gives (.sub o f) o (regsOf f.fmt) (fun a b _ => result f.fmt f.sat (operand f.fmt a - operand f.fmt b)) ∧
  Gives (.mul o f) o (regsOf f.fmt) (fun a b _ => result f.fmt f.sat (operand f.fmt a * operand f.fmt b)) ∧
  Gives (.mad o f) o (regsOf f.fmt) (fun a b c => result f.fmt f.sat (operand f.fmt a * operand f.fmt b + operand f.fmt c)) ∧
  Gives (.neg o f) o (regsOf f.fmt) (fun a _ _ => result f.fmt f.sat (-operand f.fmt a)) ∧
  Gives (.abs o f) o (regsOf f.fmt) (fun a _ _ => result f.fmt f.sat |operand f.fmt a|)

/-- 07 R137, R138: MULHI writes the upper half of the product; DIV and REM the quotient rounded toward zero and its remainder, with a divisor of 0 defined. k
destinations of several squads: log 78. -/
def Obligations.ProductAndQuotient : Prop := ∀ (o : Ops) (f : IntFn),
  Gives (.mulhi o f) o (regsOf f.fmt) (fun a b _ => result f.fmt false (operand f.fmt a * operand f.fmt b / (2 ^ f.fmt.width : Nat))) ∧
  Gives (.div o f) o (regsOf f.fmt) (fun a b _ => result f.fmt false
    (if operand f.fmt b = 0 then (if f.fmt.isSigned then -1 else (2 ^ f.fmt.width : Nat) - 1) else (operand f.fmt a).tdiv (operand f.fmt b))) ∧
  Gives (.rem o f) o (regsOf f.fmt) (fun a b _ => result f.fmt false
    (if operand f.fmt b = 0 then operand f.fmt a
     else operand f.fmt a - operand f.fmt b * (operand f.fmt a).tdiv (operand f.fmt b)))

/-- 07 R139, R140: the lesser and the greater of the operands; the logic operations on 32 or 64 bits. k destinations of several squads: the model's choice
(log 78). 07 R141: the shifts, their count B read as .n32 whatever the format. -/
def Obligations.LesserGreaterLogicShifts : Prop :=
  (∀ (o : Ops) (f : IntFn),
    Gives (.min o f) o (regsOf f.fmt) (fun a b _ => result f.fmt false
      (if operand f.fmt a ≤ operand f.fmt b then operand f.fmt a else operand f.fmt b)) ∧
    Gives (.max o f) o (regsOf f.fmt) (fun a b _ => result f.fmt false
      (if operand f.fmt a ≤ operand f.fmt b then operand f.fmt b else operand f.fmt a)) ∧
    Gives (.and o f) o (regsOf f.fmt) (fun a b _ => (BitVec.ofNat f.fmt.width a &&& BitVec.ofNat f.fmt.width b).toNat) ∧
    Gives (.or o f) o (regsOf f.fmt) (fun a b _ => (BitVec.ofNat f.fmt.width a ||| BitVec.ofNat f.fmt.width b).toNat) ∧
    Gives (.xor o f) o (regsOf f.fmt) (fun a b _ => (BitVec.ofNat f.fmt.width a ^^^ BitVec.ofNat f.fmt.width b).toNat) ∧
    Gives (.andn o f) o (regsOf f.fmt) (fun a b _ => (BitVec.ofNat f.fmt.width a &&& ~~~BitVec.ofNat f.fmt.width b).toNat)) ∧
  (∀ (o : Ops) (f : IntFn),
    Gives (.shl o f) o (regsOf f.fmt) (fun a b _ => result f.fmt f.sat (operand f.fmt a * (2 ^ (b % 2 ^ 32) : Nat))) ∧
    Gives (.shr o f) o (regsOf f.fmt) (fun a b _ => result f.fmt false (operand f.fmt a / (2 ^ (b % 2 ^ 32) : Nat))) ∧
    Gives (.rol o f) o (regsOf f.fmt) (fun a b _ => ((BitVec.ofNat f.fmt.width a).rotateLeft (b % 2 ^ 32 % f.fmt.width)).toNat))

/-- 07 R142, R143: the bit counts, to one register in every format; the reversal; bit fields extracted and inserted. k destinations of several squads: the
model's choice (log 78). -/
def Obligations.BitCountsAndFields : Prop := ∀ (o : Ops) (f : IntFn),
  Gives (.popc o f) o 1 (fun a _ _ => (List.range f.fmt.width).countP fun i => a.testBit i) ∧
  Gives (.clz o f) o 1 (fun a _ _ => ((List.range f.fmt.width).reverse.takeWhile fun i => !a.testBit i).length) ∧
  Gives (.ctz o f) o 1 (fun a _ _ => ((List.range f.fmt.width).takeWhile fun i => !a.testBit i).length) ∧
  Gives (.brev o f) o (regsOf f.fmt) (fun a _ _ => ofBits f.fmt.width fun i => a.testBit (f.fmt.width - 1 - i)) ∧
  Gives (.bfx o f) o (regsOf f.fmt) (fun a b c => result f.fmt false
    (let len := min (c % 2 ^ 32) f.fmt.width
     let fld : Int := operand f.fmt a / (2 ^ (b % 2 ^ 32) : Nat) % (2 ^ len : Nat)
     if len = 0 then 0 else if f.fmt.isSigned ∧ (2 ^ (len - 1) : Nat) ≤ fld then fld - (2 ^ len : Nat) else fld)) ∧
  Gives (.bfi o f) o (regsOf f.fmt) (fun a b c => ofBits f.fmt.width fun i =>
    if c % 256 ≤ i ∧ i < c % 256 + c / 256 % 256 then b.testBit (i - c % 256) else a.testBit i)

/-- 07 R144 to R147: comparisons to a predicate, selection, moves, the scaled address, predicate logic. The model's choices: k destinations of several squads
(log 78), wbs or a latch field with a predicate destination (log 83). -/
def Obligations.CompareSelectMove : Prop := ∀ (o : Ops) (f : IntFn) (c : Cond) (p : PlogOp),
  Gives (.cmp o f c) o 1 (fun a b _ => (match c with
    | .eq => decide (operand f.fmt a = operand f.fmt b)
    | .ne => decide (operand f.fmt a ≠ operand f.fmt b)
    | .lt => decide (operand f.fmt a < operand f.fmt b)
    | .le => decide (operand f.fmt a ≤ operand f.fmt b)
    | .gt => decide (operand f.fmt a > operand f.fmt b)
    | .ge => decide (operand f.fmt a ≥ operand f.fmt b)).toNat) ∧
  Gives (.sel o f) o (regsOf f.fmt) (fun a b c => if c = 1 then a else b) ∧
  Gives (.mov o f) o (regsOf f.fmt) (fun _ b _ => b) ∧
  Gives (.lea o f) o 2 (fun a b _ => (BitVec.ofInt 64 ((a : Int) + operand f.fmt b * (2 ^ f.sub.toNat : Nat))).toNat) ∧
  Gives (.plog o p) o 1 (fun a b _ => (match p with
    | .and => decide (a = 1) && decide (b = 1)
    | .or => decide (a = 1) || decide (b = 1)
    | .xor => decide (a = 1) ^^ decide (b = 1)
    | .andn => decide (a = 1) && !decide (b = 1)).toNat)

/-- 07 R148: the exact result of the operands' values, rounded once at the format under the mode; each half of a packed pair on its own. FSCALE multiplies by
2^b, b read as .s32; a zero or an infinity returns a, a NaN the canonical one. k destinations of several squads: the model's choice (log 78). 07 R148: the
sum, product and quotient that FADD, FMUL, FFMA and FDIV round are exact. 07 R148, 04 R88: what FSQRT and FSCALE round. The root of a positive value lies on
the same side of every multiple of 2^-t as the true root, for every t up to 200 past the value's own fraction, so that it rounds as the true root does; a zero
keeps its sign and a value below zero has none. A finite value times 2^b rounds as the exact product. -/
def Obligations.FloatArithmetic : Prop :=
  (∀ (o : Ops) (f : FltFn),
    Gives (.fadd o f) o (regsOf f.fmt) (perElem f fun a b _ => rnd ((val a f.fmt).add f.rm (val b f.fmt)) f.fmt f.rm) ∧
    Gives (.fsub o f) o (regsOf f.fmt) (perElem f fun a b _ => rnd ((val a f.fmt).add f.rm (val b f.fmt).neg) f.fmt f.rm) ∧
    Gives (.fmul o f) o (regsOf f.fmt) (perElem f fun a b _ => rnd ((val a f.fmt).mul (val b f.fmt)) f.fmt f.rm) ∧
    Gives (.ffma o f) o (regsOf f.fmt) (perElem f fun a b c => rnd (((val a f.fmt).mul (val b f.fmt)).add f.rm (val c f.fmt)) f.fmt f.rm) ∧
    Gives (.fdiv o f) o (regsOf f.fmt) (perElem f fun a b _ => rnd ((val a f.fmt).div (val b f.fmt)) f.fmt f.rm) ∧
    Gives (.fsqrt o f) o (regsOf f.fmt) (perElem f fun a _ _ => rnd (val a f.fmt).sqrt f.fmt f.rm) ∧
    Gives (.fscale o f) o (regsOf f.fmt) (fun a b _ =>
      match val (a % 2 ^ f.fmt.width) f.fmt with
      | .nan => cnan f.fmt
      | .inf _ => a % 2 ^ f.fmt.width
      | .fin neg n d => if n = 0 then a % 2 ^ f.fmt.width else rnd ((Val.fin neg n d).scale (BitVec.ofNat 32 b).toInt) f.fmt f.rm)) ∧
  (∀ (m : Rm) (sa sb : Bool) (na da nb db : Nat), 0 < da → 0 < db →
    ((Val.fin sa na da).add m (.fin sb nb db)).real =
      some ((if sa then -1 else 1) * (na : Rat) / da + (if sb then -1 else 1) * (nb : Rat) / db) ∧
    ((Val.fin sa na da).mul (.fin sb nb db)).real =
      some (((if sa then -1 else 1) * (na : Rat) / da) * ((if sb then -1 else 1) * (nb : Rat) / db)) ∧
    (0 < nb → ((Val.fin sa na da).div (.fin sb nb db)).real =
      some (((if sa then -1 else 1) * (na : Rat) / da) / ((if sb then -1 else 1) * (nb : Rat) / db)))) ∧
  ((∀ n d k t : Nat, 0 < n → 0 < d → t ≤ Nat.log2 d + 200 → ∃ a b, (Val.fin false n d).sqrt = .fin false a b ∧ 0 < b ∧
      (k * b < a * 2 ^ t ↔ k ^ 2 * d < n * 4 ^ t) ∧ (k * b = a * 2 ^ t ↔ k ^ 2 * d = n * 4 ^ t)) ∧
    (∀ s d, (Val.fin s 0 d).sqrt = .fin s 0 1) ∧ (∀ n d, 0 < n → (Val.fin true n d).sqrt = .nan) ∧
    (Val.inf false).sqrt = .inf false ∧ (Val.inf true).sqrt = .nan ∧ Val.nan.sqrt = .nan ∧
    (∀ (f : Fmt) (m : Rm) (a n d : Nat) (s : Bool) (b : Int), f.isFloat = true → val a f = .fin s n d → 0 < n →
      rnd ((Val.fin s n d).scale b) f m = rnd (.fin s (n * 2 ^ b.toNat) (d * 2 ^ (-b).toNat)) f m))

/-- 07 R149: these instructions do not round: minnum and maxnum of 04 R89, the sign bit cleared, inverted or copied. k destinations of several squads: log 78.
04 R89: minnum and maxnum on bit patterns: one NaN gives the other operand, two give the canonical NaN; else the operands are ordered by sign and magnitude,
-0 below +0, and the result is one of their patterns. 07 R150 to R152: the integral value, the comparison to a predicate, the one bit of the class. wbs or a
latch field with FCMP's predicate: log 83. -/
def Obligations.FloatSignsAndTests : Prop :=
  (∀ (o : Ops) (f : FltFn),
    Gives (.fmin o f) o (regsOf f.fmt) (perElem f fun a b _ => minnum f.fmt a b) ∧
    Gives (.fmax o f) o (regsOf f.fmt) (perElem f fun a b _ => maxnum f.fmt a b) ∧
    Gives (.fabs o f) o (regsOf f.fmt) (perElem f fun a _ _ => a % 2 ^ (f.fmt.width - 1)) ∧
    Gives (.fneg o f) o (regsOf f.fmt) (perElem f fun a _ _ => a ^^^ 2 ^ (f.fmt.width - 1)) ∧
    Gives (.fcpsgn o f) o (regsOf f.fmt) (perElem f fun a b _ =>
      a % 2 ^ (f.fmt.width - 1) + b / 2 ^ (f.fmt.width - 1) * 2 ^ (f.fmt.width - 1))) ∧
  (∀ (f : Fmt) (a b : Nat), f.isFloat = true → a < 2 ^ f.width → b < 2 ^ f.width →
    let key (p : Nat) : Int := if p.testBit (f.width - 1) then -((p % 2 ^ (f.width - 1) : Nat) : Int) - 1 else p
    (val a f = .nan → val b f = .nan → minnum f a b = cnan f ∧ maxnum f a b = cnan f) ∧
    (val a f = .nan → val b f ≠ .nan → minnum f a b = b ∧ maxnum f a b = b) ∧
    (val a f ≠ .nan → val b f = .nan → minnum f a b = a ∧ maxnum f a b = a) ∧
    (val a f ≠ .nan → val b f ≠ .nan → minnum f a b = (if key b < key a then b else a) ∧ maxnum f a b = if key a < key b then b else a)) ∧
  (∀ (o : Ops) (f : FltFn) (g : FcmpFn),
    Gives (.frint o f) o (regsOf f.fmt) (perElem f fun a _ _ =>
      match val a f.fmt with
      | .nan => cnan f.fmt
      | .inf _ => a
      | .fin neg n d => rnd (.fin neg (rintMag neg n d f.rm) 1) f.fmt f.rm) ∧
    Gives (.fcmp o g) o 1 (fun a b _ =>
      let x := val (a % 2 ^ g.fmt.width) g.fmt
      let y := val (b % 2 ^ g.fmt.width) g.fmt
      (match g.cond with
        | .eq => x.eq y | .ne => !x.eq y | .lt => x.lt y | .le => x.lt y || x.eq y | .gt => y.lt x | .ge => y.lt x || x.eq y
        | .uno => x.isNan || y.isNan | .ord => !x.isNan && !y.isNan).toNat) ∧
    Gives (.fclass o f) o 1 (fun a _ _ =>
      let neg := a.testBit (f.fmt.width - 1)
      let e := a / 2 ^ Fmt.fracBits f.fmt % 2 ^ Fmt.expBits f.fmt
      let m := a % 2 ^ Fmt.fracBits f.fmt
      if e = 2 ^ Fmt.expBits f.fmt - 1 ∧ m ≠ 0 then (if m.testBit (Fmt.fracBits f.fmt - 1) then 2 ^ 9 else 2 ^ 8)
      else if e = 2 ^ Fmt.expBits f.fmt - 1 then (if neg then 2 ^ 0 else 2 ^ 7)
      else if e ≠ 0 then (if neg then 2 ^ 1 else 2 ^ 6)
      else if m ≠ 0 then (if neg then 2 ^ 2 else 2 ^ 5)
      else (if neg then 2 ^ 3 else 2 ^ 4)))

/-- 07 R153: an f16 result is the exact one rounded. The f32 result is a candidate the model leaves free, one for each lane and execution, where it keeps to
the rule (log 5); the statement holds for every value of the counter that names it. k destinations of several squads: the model's choice (log 78). 07 R153:
the f32 result is the exact one rounded, or a finite candidate no farther from it than the bound of the table, of magnitude 1 at most for FSIN, FCOS and
FTANH, and subnormal or zero, of the right sign, where the result underflows (R154). The exact one is R153's function: exact for FRCP, on the true root's side
of every multiple of 2^-t for FRSQ, within 2^-200 for the others; what lies that near to a midpoint of two f16 values is the model's (log 5). 07 R153, R154:
the results that are exact, and the special inputs, whatever the candidate. FLOG2(1) is +0, a sign that the rules do not give (log 100): the clause speaks of
its value. -/
def Obligations.Transcendentals : Prop :=
  (∀ (o : Ops) (f : FltFn) (s : State) (iss : Issue),
    let v (op : Transc) (i : Instr) (t : Nat) : Nat :=
      if f.fmt = .f16 then rnd (transc op (val (s.srcA iss t i o % 2 ^ 16) .f16)) .f16 .rne
      else transcF32 op (s.srcA iss t i o % 2 ^ 32) (Config.freeTransc (s.freeCount * 64 + laneOf t))
    let x : State := { s.begun iss with freeCount := s.freeCount + 1 }
    (Issues s iss (.frcp o f) o → ∃ r, exec (.frcp o f) s = .next r ∧ Wrote iss (.frcp o f) o 1 (s.guarded iss o) (v .rcp (.frcp o f)) x r) ∧
    (Issues s iss (.frsq o f) o → ∃ r, exec (.frsq o f) s = .next r ∧ Wrote iss (.frsq o f) o 1 (s.guarded iss o) (v .rsq (.frsq o f)) x r) ∧
    (Issues s iss (.fexp2 o f) o → ∃ r, exec (.fexp2 o f) s = .next r ∧ Wrote iss (.fexp2 o f) o 1 (s.guarded iss o) (v .exp2 (.fexp2 o f)) x r) ∧
    (Issues s iss (.flog2 o f) o → ∃ r, exec (.flog2 o f) s = .next r ∧ Wrote iss (.flog2 o f) o 1 (s.guarded iss o) (v .log2 (.flog2 o f)) x r) ∧
    (Issues s iss (.fsin o f) o → ∃ r, exec (.fsin o f) s = .next r ∧ Wrote iss (.fsin o f) o 1 (s.guarded iss o) (v .sin (.fsin o f)) x r) ∧
    (Issues s iss (.fcos o f) o → ∃ r, exec (.fcos o f) s = .next r ∧ Wrote iss (.fcos o f) o 1 (s.guarded iss o) (v .cos (.fcos o f)) x r) ∧
    (Issues s iss (.ftanh o f) o → ∃ r, exec (.ftanh o f) s = .next r ∧ Wrote iss (.ftanh o f) o 1 (s.guarded iss o) (v .tanh (.ftanh o f)) x r)) ∧
  ((∀ (op : Transc) (a : Nat) (cand : BitVec 32), a < 2 ^ 32 →
      let x := transc op (val a .f32)
      let y := transcF32 op a cand
      y = rnd x .f32 .rne ∨ y = cand.toNat ∧ ∃ v e c : Rat, (val a .f32).real = some v ∧ x.real = some e ∧ (val y .f32).real = some c ∧
        let ulp := (2 : Rat) ^ (max (Int.log 2 |e|) (-126) - 23)
        |c - e| ≤ (match op with
          | .rcp => ulp
          | .log2 => if 1 / 2 < v ∧ v < 2 then max (2 * ulp) (1 / 2 ^ 22) else 2 * ulp
          | .sin => max (2 * ulp) (1 / 2 ^ 23)
          | .cos => max (2 * ulp) (1 / 2 ^ 23)
          | _ => 2 * ulp) + 1 / 2 ^ 240 ∧
        (op = .sin ∨ op = .cos ∨ op = .tanh → |c| ≤ 1) ∧
        (|e| < 1 / 2 ^ 126 → y % 2 ^ 31 < 2 ^ 23 ∧ (val y .f32).signOf = x.signOf)) ∧
    (∀ (s : Bool) (n d : Nat), 0 < d →
      let v : Val := .fin s n d
      let x : Rat := (if s then -1 else 1) * n / d
      let near (op : Transc) (r : Real) : Prop := ∃ y : Rat, (transc op v).real = some y ∧ |(y : Real) - r| ≤ 1 / 2 ^ 200
      (0 < n → transc .rcp v = .fin s d n) ∧
      (0 < n → s = false → transc .rsq v = (Val.fin false d n).sqrt) ∧
      (n ≤ 4096 * d → ∃ y : Rat, (transc .exp2 v).real = some y ∧ |(y : Real) - (2 : Real) ^ (x : Real)| ≤ (2 : Real) ^ (x : Real) / 2 ^ 200) ∧
      (0 < n → s = false → near .log2 (Real.logb 2 x)) ∧
      near .sin (Real.sin (Real.pi * x)) ∧ near .cos (Real.cos (Real.pi * x)) ∧ near .tanh (Real.tanh x))) ∧
  (∀ (cand : BitVec 32),
    (∀ (a : Nat) (k : Int), a < 2 ^ 32 →
      ((val a .f32).real = some (k : Rat) → -149 ≤ k → k ≤ 127 → (val (transcF32 .exp2 a cand) .f32).real = some ((2 : Rat) ^ k)) ∧
      ((val a .f32).real = some ((2 : Rat) ^ k) → (val (transcF32 .log2 a cand) .f32).real = some (k : Rat)) ∧
      ((val a .f32).real = some (k : Rat) → transcF32 .sin a cand = a / 2 ^ 31 * 2 ^ 31 ∧
        transcF32 .cos a cand = if k % 2 = 0 then 0x3F800000 else 0xBF800000) ∧
      ((val a .f32).real = some ((k : Rat) + 1 / 2) → transcF32 .cos a cand = 0)) ∧
    (∀ f : Fmt, f = .f16 ∨ f = .f32 →
      let N := cnan f
      let S := 2 ^ (f.width - 1)
      let I := (2 ^ Fmt.expBits f - 1) * 2 ^ Fmt.fracBits f
      let one := (2 ^ (Fmt.expBits f - 1) - 1) * 2 ^ Fmt.fracBits f
      let gives (a : Nat) (rs : List Nat) : Prop := ([.rcp, .rsq, .exp2, .log2, .sin, .cos, .tanh] : List Transc).map (fun op =>
        if f = .f16 then rnd (transc op (val a f)) f .rne else transcF32 op a cand) = rs
      (∀ a < 2 ^ f.width, val a f = .nan → gives a [N, N, N, N, N, N, N]) ∧
      gives I [0, 0, I, I, N, N, one] ∧ gives (S + I) [S, N, 0, N, N, N, S + one] ∧
      gives 0 [I, I, one, S + I, 0, one, 0] ∧ gives S [S + I, S + I, one, S + I, S, one, S] ∧
      (∀ a n d, val a f = .fin true n d → 0 < n → ∀ op, op = .rsq ∨ op = .log2 →
        (if f = .f16 then rnd (transc op (val a f)) f .rne else transcF32 op a cand) = N)))

/-- 07 R155, R156, 04 R90: conversions between the integer and the floating-point formats; two f32 values packed. Between f16 and bf16 the model rounds in any
mode (log 86). k destinations of several squads: the model's choice (log 78). 04 R86, R87: the value of a pattern, and rnd: the spacing q at |x|, the multiple
of q that the mode picks, the overflow to an infinity or to the greatest finite value, the sign of x on a result of zero. -/
def Obligations.Conversions : Prop :=
  (∀ (o : Ops) (f : CvtFn) (g : FltFn),
    Gives (.cvt o f) o (regsOf f.tgt) (fun a _ _ =>
      let x := val (a % 2 ^ f.src.width) f.src
      if f.tgt.isInt then
        (if f.src.isInt then result f.tgt f.sat (operand f.src a)
         else match x with
          | .nan => 0
          | .inf neg => result f.tgt true (if neg then leastOf f.tgt else greatestOf f.tgt)
          | .fin neg n d => result f.tgt true (if neg then -(rintMag neg n d f.rm : Int) else rintMag neg n d f.rm))
      else if f.src.isInt then rnd (.fin (decide (operand f.src a < 0)) (operand f.src a).natAbs 1) f.tgt f.rm
      else rnd x f.tgt f.rm) ∧
    Gives (.cvtpk o g) o 1 (fun a b _ => rnd (val (a % 2 ^ 32) .f32) g.fmt g.rm + 2 ^ 16 * rnd (val (b % 2 ^ 32) .f32) g.fmt g.rm)) ∧
  (∀ (f : Fmt) (m : Rm), f.isFloat = true →
    let p := Fmt.fracBits f
    let all := 2 ^ Fmt.expBits f - 1
    let bias := 2 ^ (Fmt.expBits f - 1) - 1
    let sign (neg : Bool) : Nat := if neg then 2 ^ (f.width - 1) else 0
    (p, all, bias, f.width, cnan f) = (match f with
      | .f16 => (10, 31, 15, 16, 0x7E00)
      | .bf16 => (7, 255, 127, 16, 0x7FC0)
      | .f32 => (23, 255, 127, 32, 0x7FC00000)
      | _ => (52, 2047, 1023, 64, 0x7FF8000000000000)) ∧
    (∀ b < 2 ^ f.width,
      let e := b / 2 ^ p % (all + 1)
      let h := b % 2 ^ p
      (e = all → val b f = if h = 0 then .inf (b.testBit (f.width - 1)) else .nan) ∧
      (e ≠ all → ∃ n d, val b f = .fin (b.testBit (f.width - 1)) n d ∧ 0 < d ∧
        (n : Rat) / d = ((if e = 0 then h else 2 ^ p + h : Nat) : Rat) * (2 : Rat) ^ ((max e 1 : Nat) - bias - p : Int))) ∧
    rnd .nan f m = cnan f ∧ (∀ neg, rnd (.inf neg) f m = sign neg + all * 2 ^ p) ∧ (∀ neg d, rnd (.fin neg 0 d) f m = sign neg) ∧
    (∀ (neg : Bool) (n d : Nat), 0 < n → 0 < d →
      let x := (n : Rat) / d
      let q := (2 : Rat) ^ (max (Int.log 2 x) (1 - bias) - p)
      let most := (2 : Rat) ^ (bias + 1) - (2 : Rat) ^ ((bias : Int) - p)
      let r := rnd (.fin neg n d) f m
      ∃ y : Nat, (match m with
          | .rne => |x / q - y| ≤ 1 / 2 ∧ (|x / q - y| = 1 / 2 → y % 2 = 0)
          | .rtz => (y : Int) = ⌊x / q⌋
          | .rup => (y : Int) = if neg then ⌊x / q⌋ else ⌈x / q⌉
          | .rdn => (y : Int) = if neg then ⌈x / q⌉ else ⌊x / q⌋) ∧
        (y * q ≤ most → r < 2 ^ f.width ∧ r.testBit (f.width - 1) = neg ∧ (val r f).real = some ((if neg then -1 else 1) * (y * q))) ∧
        (most < y * q → r = sign neg + (all * 2 ^ p - if m = .rne ∨ (m = .rup ∧ neg = false) ∨ (m = .rdn ∧ neg = true) then 0 else 1))))

/-- 07 R158 to R160: the lanes of a squad exchange A; on a Marl core each operation acts over the single thread (01 R33). wbs or a latch field with VOTE's
predicate: log 83. -/
def Obligations.LaneMoves : Prop := ∀ (o : Ops) (f : ShflFn) (w : Bool) (k : VoteKind) (s : State) (iss : Issue) (q : Nat),
  (Together s iss (.shfl o f) o q → isMarl iss.core = false → iss.threads = (List.range 64).map (threadKey q) →
    ∃ r, exec (.shfl o f) s = .next r ∧ Wrote iss (.shfl o f) o (if f.wide then 2 else 1) (s.guarded iss o) (fun t =>
      let seg := 2 ^ f.seg.toNat
      let l := laneOf t
      let c := s.srcB iss t (.shfl o f) o.b % 2 ^ 32
      let base := l - l % seg
      s.srcA iss (threadKey q (match f.mode with
        | .idx => base + c % seg
        | .up => if base + c ≤ l then l - c else l
        | .down => if l + c < base + seg then l + c else l
        | .xor => base + (((l - base) ^^^ c) % seg))) (.shfl o f) o) (s.begun iss) r) ∧
  (Together s iss (.bcast o w) o q → isMarl iss.core = false → iss.threads = (List.range 64).map (threadKey q) →
    ∃ r, exec (.bcast o w) s = .next r ∧ Wrote iss (.bcast o w) o (if w then 2 else 1) (s.guarded iss o) (fun _ =>
      match (s.guarded iss o).head? with
      | some l => s.srcA iss (threadKey q (s.srcB iss l (.bcast o w) o.b % 64)) (.bcast o w) o
      | none => 0) (s.begun iss) r) ∧
  (Together s iss (.vote o k) o q → ∃ r, exec (.vote o k) s = .next r ∧
    Wrote iss (.vote o k) o (if k = .ballot then 2 else 1) (s.guarded iss o) (fun _ =>
      match k with
      | .all => (iss.threads.all fun t => s.srcA iss t (.vote o k) o = 1).toNat
      | .any => (iss.threads.any fun t => s.srcA iss t (.vote o k) o = 1).toNat
      | .uni => ((iss.threads.all fun t => s.srcA iss t (.vote o k) o = 1) || !(iss.threads.any fun t => s.srcA iss t (.vote o k) o = 1)).toNat
      | .ballot => (iss.threads.map fun t => if s.srcA iss t (.vote o k) o = 1 then 2 ^ laneOf t else 0).sum) (s.begun iss) r) ∧
  (isMarl iss.core = true → ∀ t, iss.threads = [t] →
    (Together s iss (.shfl o f) o q → ∃ r, exec (.shfl o f) s = .next r ∧
      Wrote iss (.shfl o f) o (if f.wide then 2 else 1) (s.guarded iss o) (fun _ => s.srcA iss t (.shfl o f) o) (s.begun iss) r) ∧
    (Together s iss (.bcast o w) o q → ∃ r, exec (.bcast o w) s = .next r ∧
      Wrote iss (.bcast o w) o (if w then 2 else 1) (s.guarded iss o) (fun _ => s.srcA iss t (.bcast o w) o) (s.begun iss) r))

/-- 07 R161, R162: SRED reduces A over the 64 lanes in the fixed binary tree, SSCAN gives each lane its inclusive prefix in lane order; over the single thread
of a Marl core both give its own A (01 R33). -/
def Obligations.LaneSums : Prop := ∀ (o : Ops) (f : RedFn) (s : State) (iss : Issue) (q : Nat),
  (Together s iss (.sred o f) o q →
    (isMarl iss.core = false → iss.threads = (List.range 64).map (threadKey q) → ∃ r, exec (.sred o f) s = .next r ∧
      Wrote iss (.sred o f) o (regsOf f.fmt) (s.guarded iss o) (fun _ =>
        treeOf (combine f) (fun l => s.srcA iss (threadKey q l) (.sred o f) o % 2 ^ f.fmt.width) 6 0 % 2 ^ f.fmt.width) (s.begun iss) r) ∧
    (∀ t, iss.threads = [t] → ∃ r, exec (.sred o f) s = .next r ∧
      Wrote iss (.sred o f) o (regsOf f.fmt) (s.guarded iss o) (fun _ => s.srcA iss t (.sred o f) o % 2 ^ f.fmt.width) (s.begun iss) r)) ∧
  (Together s iss (.sscan o f) o q →
    (isMarl iss.core = false → iss.threads = (List.range 64).map (threadKey q) → ∃ r, exec (.sscan o f) s = .next r ∧
      Wrote iss (.sscan o f) o (regsOf f.fmt) (s.guarded iss o) (fun t =>
        prefixOf (combine f) (fun l => s.srcA iss (threadKey q l) (.sscan o f) o % 2 ^ f.fmt.width) (laneOf t) % 2 ^ f.fmt.width)
        (s.begun iss) r) ∧
    (∀ t, iss.threads = [t] → ∃ r, exec (.sscan o f) s = .next r ∧
      Wrote iss (.sscan o f) o (regsOf f.fmt) (s.guarded iss o) (fun _ => s.srcA iss t (.sscan o f) o % 2 ^ f.fmt.width) (s.begun iss) r))

/-- 08 R171, R179: LDL, STL and ATOMS at a plain word of the gang's local space. The destination holds the bytes there; STL stores the low bytes of C, ATOMS
the new value of 08 R176, and no other byte of a scratchpad changes. 08 R165, R171: LDL and STL of a group at plain words: every guarded lane reads its own
bytes as they were before the group; the stores happen in ascending lane order, so that a byte keeps what the last lane wrote there. c: the core whose
scratchpad a lane's address names. 08 R182, 13 R279, R280: LDL, STL and ATOMS in a window's range. An UNBOUND window's is window fault 1; a store traps while
the window fills (2) or drains (3). A present word reads its scratchpad bytes; an absent one starts a sector fetch and the thread waits. A store makes its
words present and owned, writes their bytes and registers them. y: the state after translation. -/
def Obligations.LocalMemory : Prop :=
  (∀ (o : Ops) (m : MemFn) (f : AtomFn) (s : State) (iss : Issue) (t c : Nat),
    s.hole = false → (s.thread t).fresh → isMarl iss.core = false →
    let okay (i : Instr) (n : Nat) : Prop := Alone s iss i o t ∧ 0 ≤ s.localAddr iss t i o ∧ (n : Int) ∣ s.localAddr iss t i o ∧
      s.gangCore iss.core ((s.localAddr iss t i o).toNat / 0x180000) = some c ∧
      s.pinForeign c ((s.localAddr iss t i o).toNat % 0x180000) (s.ctxKey t) = false ∧
      s.windowAt c ((s.localAddr iss t i o).toNat % 0x180000) = none
    let key (i : Instr) : Nat := scratchKey c ((s.localAddr iss t i o).toNat % 0x180000)
    let stored (i : Instr) (n data : Nat) (r : State) : Prop :=
      (∀ k < n, r.scratchByte (key i + k) = BitVec.ofNat 8 (data / 256 ^ k)) ∧
      (∀ a, a < key i ∨ key i + n ≤ a → r.scratchByte a = s.scratchByte a)
    (okay (.ldl o m) (m.size.width / 8) → ∃ r, exec (.ldl o m) s = .next r ∧
      Wrote iss (.ldl o m) o (regsOf m.size) [t] (fun _ => loaded m.size (s.scratchRead (key (.ldl o m)) (m.size.width / 8))) (s.begun iss) r) ∧
    (okay (.stl o m) (m.size.width / 8) → (s.localAddr iss t (.stl o m) o).toNat % 0x180000 < 0x17F800 → ∃ r, exec (.stl o m) s = .next r ∧
      stored (.stl o m) (m.size.width / 8) (s.srcC iss t (.stl o m) o) r ∧
      Still iss (fun _ th => th.past iss.pc (iss.next (.stl o m))) { s.begun iss with scratch := r.scratch } r) ∧
    (okay (.atoms o f) (f.size.width / 8) → (s.localAddr iss t (.atoms o f) o).toNat % 0x180000 < 0x17F800 → ∃ r, exec (.atoms o f) s = .next r ∧
      stored (.atoms o f) (f.size.width / 8) (atomValue f.op f.size (s.scratchRead (key (.atoms o f)) (f.size.width / 8))
        (s.srcC iss t (.atoms o f) o) (s.readFld iss t o.d (regsOf f.size))) r ∧
      Wrote iss (.atoms o f) o (regsOf f.size) [t] (fun _ => s.scratchRead (key (.atoms o f)) (f.size.width / 8))
        { s.begun iss with scratch := r.scratch } r)) ∧
  (∀ (o : Ops) (m : MemFn) (s : State) (iss : Issue) (c : Nat → Nat),
    s.hole = false → isMarl iss.core = false → iss.threads.Pairwise (fun a b => laneOf a < laneOf b) →
    let n := m.size.width / 8
    let ts := s.guarded iss o
    let off (i : Instr) (t : Nat) : Nat := (s.localAddr iss t i o).toNat % 0x180000
    let key (i : Instr) (t : Nat) : Nat := scratchKey (c t) (off i t)
    let okay (i : Instr) : Prop := Issues s iss i o ∧ ∀ t ∈ ts, (s.thread t).fresh ∧ 0 ≤ s.localAddr iss t i o ∧ (n : Int) ∣ s.localAddr iss t i o ∧
      s.gangCore iss.core ((s.localAddr iss t i o).toNat / 0x180000) = some (c t) ∧ s.pinForeign (c t) (off i t) (s.ctxKey t) = false ∧
      s.windowAt (c t) (off i t) = none
    (okay (.ldl o m) → ∃ r, exec (.ldl o m) s = .next r ∧ Wrote iss (.ldl o m) o (regsOf m.size) ts
      (fun t => loaded m.size (s.scratchRead (key (.ldl o m) t) n)) { s.begun iss with evCount := r.evCount } r) ∧
    (okay (.stl o m) → (∀ t ∈ ts, off (.stl o m) t < 0x17F800) → ∃ r, exec (.stl o m) s = .next r ∧
      (∀ a, (∀ t ∈ ts, a < key (.stl o m) t ∨ key (.stl o m) t + n ≤ a) → r.scratchByte a = s.scratchByte a) ∧
      (∀ t ∈ ts, ∀ k < n, (∀ u ∈ ts, laneOf t < laneOf u → key (.stl o m) t + k < key (.stl o m) u ∨ key (.stl o m) u + n ≤ key (.stl o m) t + k) →
        r.scratchByte (key (.stl o m) t + k) = BitVec.ofNat 8 (s.srcC iss t (.stl o m) o / 256 ^ k)) ∧
      Still iss (fun _ th => th.past iss.pc (iss.next (.stl o m))) { s.begun iss with scratch := r.scratch, evCount := r.evCount } r)) ∧
  (∀ (o : Ops) (m : MemFn) (f : AtomFn) (s y : State) (iss : Issue) (t c slot pa : Nat),
    s.hole = false → (s.thread t).fresh → isMarl iss.core = false →
    let x := s.who t
    let w := s.window c slot
    let off (i : Instr) : Nat := (s.localAddr iss t i o).toNat % 0x180000
    let inside (i : Instr) (n : Nat) : Prop := Alone s iss i o t ∧ 0 ≤ s.localAddr iss t i o ∧ (n : Int) ∣ s.localAddr iss t i o ∧
      s.gangCore iss.core ((s.localAddr iss t i o).toNat / 0x180000) = some c ∧ s.pinForeign c (off i) (s.ctxKey t) = false ∧ s.windowAt c (off i) = some slot
    let n := m.size.width / 8
    let faults (i : Instr) (cause kind : Nat) : Prop :=
      s.Quiet t → s.Interrupts iss i t 10 cause ((s.core c).wg * 0x180000 + off i) kind (s.chainAt iss).head
    let maps (i : Instr) (write : Bool) : Prop := y.hole = false ∧
      (s.begun iss).translate x.ctx (tcPath x.core) ((w.base + (off i - w.off)) % 2 ^ 64) { user := x.user, write := write } = (y, .inl (.cached pa))
    let has (i : Instr) : Prop := ∀ j < (n + 3) / 4, (tget? w.present ((off i - w.off) / 4 + j)).isSome = true
    (w.st = .unbound → (inside (.ldl o m) n → faults (.ldl o m) 1 1) ∧ (inside (.stl o m) n → off (.stl o m) < 0x17F800 → faults (.stl o m) 1 2) ∧
      (inside (.atoms o f) (f.size.width / 8) → off (.atoms o f) < 0x17F800 → faults (.atoms o f) 1 3)) ∧
    (inside (.stl o m) n → off (.stl o m) < 0x17F800 → maps (.stl o m) true → (w.st = .filling → faults (.stl o m) 2 2) ∧
      (w.st = .draining → faults (.stl o m) 3 2)) ∧
    (inside (.ldl o m) n → w.st ≠ .unbound → w.part = [] →
      (has (.ldl o m) → s.Puts iss (.ldl o m) o (regsOf m.size) [t] (fun _ => loaded m.size (s.scratchRead (scratchKey c (off (.ldl o m))) n)) (s.begun iss)) ∧
      (¬ has (.ldl o m) → maps (.ldl o m) false → (∀ id ∈ w.fills, s.live id = false) → ∃ r, exec (.ldl o m) s = .next r ∧
        (r.thread t).run = .blocked (.window c slot) ∧ (r.thread t).pc = (s.thread t).pc ∧ r.regs = s.regs ∧ r.mem = s.mem ∧ r.scratch = s.scratch ∧
        ∃ id ∈ (r.window c slot).fills, ∃ q, r.msg id = some q ∧ q.kind = .load ∧ q.client = .window c slot ∧
          q.items.map (·.w) = (w.absent (off (.ldl o m))).map (pa / 32 * 8 + ·))) ∧
    (inside (.stl o m) n → off (.stl o m) < 0x17F800 → maps (.stl o m) true → w.st = .empty ∨ w.st = .full → pa % 4 = off (.stl o m) % 4 →
      y.trapsRaces x.ctx = false → x.remote (pa / 4) = false → y.storeWaits x (itemsOf pa n 0) = false →
      (∀ j ∈ itemsOf pa n 0, y.copy x.level j.w = none) →
      let key := scratchKey c (off (.stl o m))
      ∃ r, exec (.stl o m) s = .next r ∧ (∀ k < n, r.scratchByte (key + k) = BitVec.ofNat 8 (s.srcC iss t (.stl o m) o / 256 ^ k)) ∧
        (∀ a, a < key ∨ key + n ≤ a → r.scratchByte a = s.scratchByte a) ∧
        (∀ j < (n + 3) / 4, (off (.stl o m) - w.off) / 4 + j ∈ (r.window c slot).owned ∧
          (tget? (r.window c slot).present ((off (.stl o m) - w.off) / 4 + j)).isSome = true) ∧
        ∃ id q, r.msg id = some q ∧ q.kind = .reg ∧ q.src = x.agent ∧ ∀ j ∈ itemsOf pa n 0, ∃ z ∈ q.items, z.w = j.w))

/-- 08 R169, 03 R58: a load of a Cached page whose words one of the requester's levels holds for the scope: the destination holds the bytes, and no home
value, owner or other register changes. Where nothing has to be evicted under a policy that keeps the word at every level, owned copies stay, marked for
eviction at .strm. y: the state after translation; d: the level; vs: the words found. 08 R169, 03 R52, R58: a load that no level of the package answers sends
one request to the home; its destination is in flight, or the thread waits where the request may be refused (03 R75, 20 R359). A load of a page pinned to this
core reads the scratchpad. y: the state after translation. 03 R52, 20 R350: an access of a page pinned to another core or die, or never cached, goes to that
core's die, to that die, or to the memory controller; the thread waits where the access may be refused. y: the state after translation. -/
def Obligations.LoadOfHeldWords : Prop :=
  (∀ (o : Ops) (f : MemFn) (s y : State) (iss : Issue) (t pa d : Nat) (vs : List Word),
    let i : Instr := .ld o f
    let n := f.size.width / 8
    let x := s.who t
    let va := s.globalAddr iss t i o
    Alone s iss i o t → (s.thread t).fresh → n ∣ va →
    (s.begun iss).translate x.ctx (tcPath x.core) va { user := x.user } = (y, .inl (.cached pa)) → y.hole = false →
    y.overlaps t ((itemsOf pa n 0).map (·.w)) = false →
    y.lookup x (itemsOf pa n 0) f.scope = .hit d vs →
    ∃ r z, exec i s = .next r ∧ Wrote iss i o (regsOf f.size) [t] (fun _ => loaded f.size (bytesOf pa n vs)) z r ∧
      z.regs = y.regs ∧ z.threads = y.threads ∧ z.squads = y.squads ∧ z.mem = y.mem ∧ z.scratch = y.scratch ∧ z.owners = y.owners ∧
      (f.policy = .all ∨ f.policy = .strm → (∀ level k, levelRoom level = some k → ∀ j ∈ itemsOf pa n 0, y.occupied level j.w + 2 ≤ k) →
        z = { y with copies := r.copies, evCount := r.evCount } ∧
        (∀ level w c, y.copy level w = some c → c.owned = true →
          if f.policy = .all then r.copy level w = some c else ∃ b, r.copy level w = some { c with first := b }))) ∧
  (∀ (o : Ops) (f : MemFn) (s y : State) (iss : Issue) (t : Nat),
    let i : Instr := .ld o f
    let n := f.size.width / 8
    let x := s.who t
    let reaches (tg : Target) : Prop := Alone s iss i o t ∧ (s.thread t).fresh ∧ n ∣ s.globalAddr iss t i o ∧ y.hole = false ∧
      (s.begun iss).translate x.ctx (tcPath x.core) (s.globalAddr iss t i o) { user := x.user } = (y, .inl tg)
    (∀ pa, reaches (.cached pa) → y.overlaps t ((itemsOf pa n 0).map (·.w)) = false → y.lookup x (itemsOf pa n 0) f.scope = .miss →
      ∃ r m, exec i s = .next r ∧ r.msg y.nextId = some m ∧ m.kind = .load ∧ m.src = x.agent ∧ m.dst = homeEnd (pa / 4) ∧ m.items = itemsOf pa n 0 ∧
        m.scope = f.scope ∧ m.client = .thread t ∧ m.size = f.size ∧ (m.dest, m.kdest) = s.destOf o t (regsOf f.size) true ∧
        m.strict = (y.trapsRaces x.ctx || x.remote (pa / 4)) ∧ y.nextId ∈ (r.thread t).pending ∧
        (r.thread t).run = (if m.strict then .blocked .msgs else .ready) ∧
        (r.thread t).pc = (if m.strict then (s.thread t).pc else ((s.thread t).past iss.pc (iss.next i)).pc) ∧
        r.regs = s.regs ∧ r.mem = s.mem ∧ r.scratch = s.scratch ∧ r.copies = y.copies ∧ r.owners = y.owners) ∧
    (∀ off, reaches (.pinCore x.core off) → y.uncachedPending t = false →
      s.Puts iss i o (regsOf f.size) [t] (fun _ => loaded f.size (s.scratchRead (scratchKey x.core off) n)) y)) ∧
  (∀ (o : Ops) (m : MemFn) (a : AtomFn) (s y : State) (iss : Issue) (t : Nat) (tg : Target),
    let x := s.who t
    let away : Prop := match tg with
      | .cached _ => False
      | .pinCore core _ => core ≠ x.core
      | .pinDie die _ => isMarl x.core = true ∨ die ≠ dieOf x.core
      | .never _ => True
    let goal : Nat := match tg with
      | .cached pa => homeEnd (pa / 4)
      | .pinCore core _ => dieAgent (dieOf core)
      | .pinDie die _ => dieAgent die
      | .never pa => homeEnd (pa / 4)
    let waits : Bool := match tg with | .never pa => decide (x.agent / 1024 ≠ pa / 2 ^ 46) | _ => true
    let asks (i : Instr) (n : Nat) (write : Bool) (kind : MsgKind) : Prop := Alone s iss i o t → (s.thread t).fresh → n ∣ s.globalAddr iss t i o → y.hole = false →
      (s.begun iss).translate x.ctx (tcPath x.core) (s.globalAddr iss t i o) { user := x.user, write := write } = (y, .inl tg) → away →
      s.uncachedPending t = false → ∃ r q, exec i s = .next r ∧ r.msg y.nextId = some q ∧ q.kind = kind ∧ q.src = x.agent ∧ q.dst = goal ∧ q.client = .thread t ∧
        q.strict = waits ∧ y.nextId ∈ (r.thread t).pending ∧ (r.thread t).run = (if waits then .blocked .msgs else .ready) ∧
        (r.thread t).pc = (if waits then (s.thread t).pc else ((s.thread t).past iss.pc (iss.next i)).pc) ∧
        r.regs = s.regs ∧ r.mem = s.mem ∧ r.scratch = s.scratch ∧ r.copies = y.copies ∧ r.owners = y.owners
    asks (.ld o m) (m.size.width / 8) false .load ∧ asks (.st o m) (m.size.width / 8) true .remote ∧
    (s.releaseReady t m.scope = true → m.scope = .grp → asks (.stRel o m) (m.size.width / 8) true .remote) ∧
    asks (.atom o a) (a.size.width / 8) true .atomic ∧ asks (.atoml o a) (a.size.width / 8) true .atomic)

/-- 08 R170, 03 R56, R68, R69: a store to words that the core's own level owns writes the low bytes of C there, and every other byte of memory keeps its
value; under a policy that excludes a level the word goes up at once (05 R115); the gang's windows over the address lose older copies of the words. A
store-release performs its release first. y: the state after translation. 03 R56, R57: a store to words of which the core's level has no copy keeps its bytes
there, pending, and registers them: at the die's L2, or for a Marl core at the home. The thread goes on. y: the state after translation. -/
def Obligations.StoreToOwnedWords : Prop :=
  (∀ (o : Ops) (f : MemFn) (s y : State) (iss : Issue) (t pa : Nat),
    let n := f.size.width / 8
    let x := s.who t
    let done' (i : Instr) (z : State) : Prop :=
      Alone s iss i o t → (s.thread t).fresh → n ∣ s.globalAddr iss t i o →
      (s.begun iss).translate x.ctx (tcPath x.core) (s.globalAddr iss t i o) { user := x.user, write := true } = (y, .inl (.cached pa)) →
      y.hole = false → y.overlaps t ((itemsOf pa n 0).map (·.w)) = false → y.wbPending x.agent ((itemsOf pa n 0).map (·.w)) = false →
      pa < 2 ^ 52 → n ∣ pa → (∀ j ∈ itemsOf pa n 0, Holds z x j.w) → (∀ k, z.nextId ≤ k → z.msg k = none) →
      (f.policy = .all ∨ f.policy = .strm ∨ ∀ j ∈ itemsOf pa n 0, tget? z.pinned (copyKey (dieOf x.core) j.w) = none) →
      ∃ r, exec i s = .next r ∧
        (∀ k < n, r.byteAt (pa + k) = s.srcC iss t i o / 256 ^ k % 256) ∧
        (∀ a < 2 ^ 52, a < pa ∨ pa + n ≤ a → r.byteAt a = z.byteAt a) ∧
        (f.policy = .all ∨ f.policy = .strm → Still iss (fun _ th => { th with written := r.thread t |>.written }.past iss.pc (iss.next i))
          { z.staleWindows x.core (s.globalAddr iss t i o) pa ((n + 3) / 4) with copies := r.copies } r) ∧
        r.regs = s.regs ∧ r.mem = z.mem ∧ (r.thread t).run = .ready ∧ (∀ u, u ≠ t → r.thread u = z.thread u) ∧
        (∀ w ∈ (itemsOf pa n 0).map (·.w), w ∈ (r.thread t).written)
    done' (.st o f) y ∧ (y.releaseReady t f.scope = true → done' (.stRel o f) (y.doRelease t f.scope))) ∧
  (∀ (o : Ops) (f : MemFn) (s y : State) (iss : Issue) (t pa : Nat),
    let n := f.size.width / 8
    let x := s.who t
    let sends (i : Instr) (z : State) (bump : Bool) : Prop :=
      let items := itemsOf pa n (s.srcC iss t i o % 2 ^ (8 * n))
      Alone s iss i o t → (s.thread t).fresh → n ∣ s.globalAddr iss t i o →
      (s.begun iss).translate x.ctx (tcPath x.core) (s.globalAddr iss t i o) { user := x.user, write := true } = (y, .inl (.cached pa)) →
      y.hole = false → y.storeWaits x (itemsOf pa n 0) = false → y.trapsRaces x.ctx = false → x.remote (pa / 4) = false →
      (∀ j ∈ items, y.copy x.level j.w = none) →
      ∃ r id m, exec i s = .next r ∧ r.msg id = some m ∧ m.kind = .reg ∧ m.src = x.agent ∧ m.dst = (if isMarl x.core then homeEnd (pa / 4) else x.agent) ∧
        m.items = items ∧ m.client = .thread t ∧ m.bump = bump ∧ id ∈ (r.thread t).pending ∧ (∀ j ∈ items, j.w ∈ (r.thread t).written) ∧
        (∀ j ∈ items, ∃ c, r.copy x.level j.w = some c ∧ c.pend = true ∧ c.mask = j.bm ∧ c.holder = x.holder ∧
          ∀ b < 4, j.bm.testBit b = true → c.val.toNat / 2 ^ (8 * b) % 256 = j.val.toNat / 2 ^ (8 * b) % 256) ∧
        (r.thread t).run = .ready ∧ (r.thread t).pc = ((s.thread t).past iss.pc (iss.next i)).pc ∧ r.regs = s.regs ∧ r.mem = s.mem ∧ r.owners = z.owners
    sends (.st o f) y false ∧
    (y.releaseReady t f.scope = true → sends (.stRel o f) (y.doRelease t f.scope) (decide (f.scope = .pkg ∨ f.scope = .sys))))

/-- 08 R177, R178, 03 R71: an atomic at words that the requester's first level owns runs there: the destination holds the old value, the words the new one of
08 R176, every other byte of memory keeps its value. y: the state after translation. 03 R71: an atomic at words that the die owns, at its L2 or in the L1 of
one of its clusters, runs at the L2: the clusters' copies are dropped and the die itself holds the new value; one at words that the die does not own is sent
to the home. y: the state after translation. 03 R72, 08 R178: an ATOML group whose guarded lanes share one address, at words that their core's level owns: one
atomic in which the lanes act in ascending order, each fetching what the lanes below it left. y: the state after translation. -/
def Obligations.AtomicAtOwnedWords : Prop :=
  (∀ (o : Ops) (f : AtomFn) (s y : State) (iss : Issue) (t pa : Nat),
    let n := f.size.width / 8
    let x := s.who t
    let old := bytesOf pa n ((itemsOf pa n 0).map fun j => y.wordVal j.w)
    let run (i : Instr) : Prop :=
      Alone s iss i o t → (s.thread t).fresh → n ∣ s.globalAddr iss t i o →
      (s.begun iss).translate x.ctx (tcPath x.core) (s.globalAddr iss t i o) { user := x.user, write := true } = (y, .inl (.cached pa)) →
      y.hole = false → s.overlaps t ((itemsOf pa n 0).map (·.w)) = false → y.wbPending x.agent ((itemsOf pa n 0).map (·.w)) = false →
      pa < 2 ^ 52 → n ∣ pa → (∀ j ∈ itemsOf pa n 0, Holds y x j.w) →
      ∃ r, exec i s = .next r ∧
        (∀ k < n, r.byteAt (pa + k) = atomValue f.op f.size old (s.srcC iss t i o) (s.readFld iss t o.d (regsOf f.size)) / 256 ^ k % 256) ∧
        (∀ a < 2 ^ 52, a < pa ∨ pa + n ≤ a → r.byteAt a = y.byteAt a) ∧
        Wrote iss i o (regsOf f.size) [t] (fun _ => old)
          ({ y.staleWindows x.core (s.globalAddr iss t i o) pa ((n + 3) / 4) with copies := r.copies }.modThread t fun th =>
            { th with written := (r.thread t).written }) r
    run (.atom o f) ∧ run (.atoml o f)) ∧
  (∀ (o : Ops) (f : AtomFn) (s y : State) (iss : Issue) (t pa : Nat),
    let n := f.size.width / 8
    let x := s.who t
    let ws := (itemsOf pa n 0).map (·.w)
    let old := bytesOf pa n (ws.map y.wordVal)
    let begins (i : Instr) : Prop := Alone s iss i o t ∧ (s.thread t).fresh ∧ n ∣ s.globalAddr iss t i o ∧
      (s.begun iss).translate x.ctx (tcPath x.core) (s.globalAddr iss t i o) { user := x.user, write := true } = (y, .inl (.cached pa)) ∧
      y.hole = false ∧ s.overlaps t ws = false ∧ y.wbPending x.agent ws = false ∧ y.ownsHere x ws = false ∧ n ∣ pa ∧
      ∀ w ∈ ws, ∀ c, y.copy x.level w = some c → c.pend = false ∧ c.win = none
    let atDie (i : Instr) : Prop := begins i → isMarl x.core = false → pa < 2 ^ 52 →
      (∀ w ∈ ws, (∃ e, y.ownerOf w = some e ∧ e.agent = x.agent) ∧ ∃ d, y.copy (l2Level (dieOf x.core)) w = some d ∧ d.owned = true ∧ d.win = none ∧
        (d.holder = 8 ∨ d.holder < 8 ∧ ∃ c, y.copy (l1Level (dieOf x.core * 8 + d.holder)) w = some c ∧ c.owned = true ∧ c.pend = false ∧ c.win = none)) →
      ∃ r, exec i s = .next r ∧
        (∀ k < n, r.byteAt (pa + k) = atomValue f.op f.size old (s.srcC iss t i o) (s.readFld iss t o.d (regsOf f.size)) / 256 ^ k % 256) ∧
        (∀ b < 2 ^ 52, b < pa ∨ pa + n ≤ b → r.byteAt b = y.byteAt b) ∧
        (∀ w ∈ ws, r.copy x.level w = none ∧ ∃ d, r.copy (l2Level (dieOf x.core)) w = some d ∧ d.owned = true ∧ d.holder = 8) ∧
        Wrote iss i o (regsOf f.size) [t] (fun _ => old)
          ({ y.staleWindows x.core (s.globalAddr iss t i o) pa ((n + 3) / 4) with copies := r.copies, evCount := r.evCount }.modThread t fun th =>
            { th with written := (r.thread t).written }) r
    let asks (i : Instr) : Prop := begins i → y.ownsDie x ws = false →
      ∃ r m, exec i s = .next r ∧ r.msg y.nextId = some m ∧ m.kind = .atomic ∧ m.src = x.agent ∧ m.dst = homeEnd (pa / 4) ∧ m.items = itemsOf pa n 0 ∧
        m.op = f.op ∧ m.size = f.size ∧ (m.lanes.map fun l => (l.tid, l.c, l.cmp, l.dest, l.kdest)) =
          [(t, s.srcC iss t i o, s.readFld iss t o.d (regsOf f.size), s.destOf o t (regsOf f.size) true)] ∧
        m.strict = (y.trapsRaces x.ctx || x.remote (pa / 4)) ∧ y.nextId ∈ (r.thread t).pending ∧
        (r.thread t).run = (if m.strict then .blocked .msgs else .ready) ∧ r.regs = s.regs ∧ r.mem = s.mem ∧ r.copies = y.copies ∧ r.owners = y.owners
    atDie (.atom o f) ∧ atDie (.atoml o f) ∧ asks (.atom o f) ∧ asks (.atoml o f)) ∧
  (∀ (o : Ops) (f : AtomFn) (s y : State) (iss : Issue) (t pa va : Nat) (rest : List Nat),
    let i : Instr := .atoml o f
    let n := f.size.width / 8
    let x := s.who t
    let ts := s.guarded iss o
    let ws := (itemsOf pa n 0).map (·.w)
    let next (u old : Nat) : Nat := atomValue f.op f.size old (s.srcC iss u i o) (s.readFld iss u o.d (regsOf f.size))
    let before (l : List Nat) : Nat := l.foldl (fun old u => next u old) (bytesOf pa n (ws.map y.wordVal))
    Issues s iss i o → iss.threads.Pairwise (fun a b => laneOf a < laneOf b) → ts = t :: rest →
    (∀ u ∈ ts, (s.thread u).fresh ∧ (s.thread u).pending = [] ∧ s.globalAddr iss u i o = va ∧ (s.who u).ctx = x.ctx ∧ (s.who u).user = x.user) → n ∣ va →
    (s.begun iss).translate x.ctx (tcPath x.core) va { user := x.user, write := true } = (y, .inl (.cached pa)) →
    y.hole = false → y.wbPending x.agent ws = false → pa < 2 ^ 52 → n ∣ pa → (∀ j ∈ itemsOf pa n 0, Holds y x j.w) →
    ∃ r, exec i s = .next r ∧ (∀ k < n, r.byteAt (pa + k) = before ts / 256 ^ k % 256) ∧
      (∀ b < 2 ^ 52, b < pa ∨ pa + n ≤ b → r.byteAt b = y.byteAt b) ∧
      Wrote iss i o (regsOf f.size) ts (fun u => before (ts.takeWhile (· ≠ u)))
        ({ y.staleWindows x.core va pa ((n + 3) / 4) with copies := r.copies }.modThread t fun th => { th with written := (r.thread t).written }) r)

/-- 08 R172: PREF places the words of the sector that the levels of the requester's package hold at each level that the policy keeps, asks the home for the
others, and goes on; it goes on with no effect where the address does not translate to a Cached page. y: the state after translation. 08 R173: REGION sends
the entry to every package of the context and holds the thread; when each has taken it the thread goes on. 08 R173: a package that takes a region entry
records its range, or frees the entry for a length of 0, and no longer holds up the thread that sent it. -/
def Obligations.PrefetchAndRegions : Prop :=
  (∀ (o : Ops) (f : MemFn) (s y : State) (iss : Issue) (t : Nat),
    let i : Instr := .pref o f
    let x := s.who t
    Alone s iss i o t → y.hole = false →
    (∀ pa, (s.begun iss).translate x.ctx (tcPath x.core) (s.globalAddr iss t i o) { user := x.user } = (y, .inl (.cached pa)) →
      let base := pa - pa % 32
      let missing := ((List.range 8).map fun j => base / 4 + j).filter fun w => y.find x w 15 f.scope = .miss
      let z := y.keepFound x ((List.range 8).map fun j => { w := base / 4 + j }) f.scope f.policy (s.globalAddr iss t i o)
      (missing = [] → ∃ r, exec i s = .next r ∧ Still iss (fun _ th => th.past iss.pc (iss.next i)) { z with evCount := r.evCount } r) ∧
      (missing ≠ [] → ∃ r, exec i s = .next r ∧
        (∃ m, r.msg z.nextId = some m ∧ m.kind = .load ∧ m.src = x.agent ∧ m.dst = homeEnd (base / 4) ∧ m.items.map (·.w) = missing ∧ m.client = .none) ∧
        (∀ id, id ≠ z.nextId → r.msg id = z.msg id) ∧
        Still iss (fun _ th => th.past iss.pc (iss.next i))
          { z with nextId := z.nextId + 1, msgs := r.msgs, seqs := r.seqs, upward := r.upward, evCount := r.evCount } r)) ∧
    (∀ tg, (∀ pa, tg ≠ .inl (.cached pa)) →
      (s.begun iss).translate x.ctx (tcPath x.core) (s.globalAddr iss t i o) { user := x.user } = (y, tg) → s.Passes iss i y)) ∧
  (∀ (o : Ops) (s : State) (iss : Issue) (t : Nat),
    let i : Instr := .region o
    let r := s.srcA iss t i o
    let base := s.srcB iss t i o.b
    let len := s.srcC iss t i o
    let k := s.ctxKey t
    Alone s iss i o t →
    ((s.thread t).phase ≠ 1 → r ≤ 62 → 256 ∣ base → 256 ∣ len →
      s.Stays iss i (.blocked .again) { (s.begun iss).modThread t fun th => { th with phase := 1 } with
        regionMsgs := s.regionMsgs ++ ((List.range 64).filter fun p => p = k / 64 ∨ (s.ctx k).packages.testBit p = true).map
          fun p => (p, k % 64, r, base, len, t) }) ∧
    ((s.thread t).phase = 1 → (∀ m ∈ s.regionMsgs, m.2.2.2.2.2 ≠ t) → s.Passes iss i (s.begun iss)) ∧
    ((s.thread t).phase = 1 → (∃ m ∈ s.regionMsgs, m.2.2.2.2.2 = t) → s.Stays iss i (.blocked .again) (s.begun iss))) ∧
  (∀ (s : State) (p ctx r base len t : Nat),
    (s.regionMsgs.filter fun m => m.1 = p ∧ m.2.1 = ctx ∧ m.2.2.1 = r) = [(p, ctx, r, base, len, t)] →
    exec (.regionEntryTaken p ctx r) s = .next { (s.modCtx (p * 64 + ctx) fun c =>
        { c with regions := if len = 0 then tdel c.regions r else tset c.regions r (base, len) }) with
      regionMsgs := s.regionMsgs.erase (p, ctx, r, base, len, t) })

/-- 08 R174, 03 R67: ACQ waits for the thread's loads and atomics and for the fills it names; then the valid copies of the regions in its mask, at the levels
below its scope, are dropped, owned words stay, the gang's windows lose their named valid words and a FULL one that loses a word is EMPTY (03 R70), and words
of theirs on their way from before it do not enter them. It stays at ACQ while one of those loads, atomics or fills has not ended. -/
def Obligations.AcquireDropsValidCopies : Prop := ∀ (o : Ops) (sc : Scope) (s : State) (iss : Issue) (t : Nat),
  let i : Instr := .acq o sc
  let mask := s.srcB iss t i o.b
  let levels : List Nat :=
    (if sc = .sys then [llcLevel (pkgOf iss.core)] else []) ++
    (if isMarl iss.core then (if sc = .pkg ∨ sc = .sys then [marlLevel iss.core] else [])
     else (if sc = .grp then [] else [l1Level (clusterOf iss.core)]) ++
       (if sc = .pkg ∨ sc = .sys then [l2Level (dieOf iss.core)] else []))
  let gone (w : Window) (e : Nat × Nat) : Bool := decide (w.st ≠ .unbound) && mask.testBit e.2 && !w.owned.contains e.1
  let left (w : Window) : Window :=
    if w.present.any (gone w) then
      { w with present := w.present.filter fun e => !gone w e, st := if w.st = .full then .empty else w.st, wasFull := false }
    else w
  let fetched (m : Msg) : Prop := isMarl iss.core = false ∧ m.kind = .load ∧ mask.testBit m.region = true ∧
    ∃ c slot, m.client = .window c slot ∧ c ∈ s.gangCores iss.core
  let y := if isMarl iss.core then s.begun iss else (s.gangCores iss.core).foldl (fun x c => x.modCore c fun k =>
    { k with windows := k.windows.map fun w => (w.1, left w.2) }) (s.begun iss)
  (s.loadsPending t = true ↔ ∃ id ∈ (s.thread t).pending, ∃ m, s.msg id = some m ∧ m.st ≠ .finished ∧ (m.kind = .load ∨ m.kind = .atomic)) ∧
  (s.fillsPending iss.core (s.ctxKey t) mask = true ↔ mask ≠ 0 ∧ ∃ c ∈ s.gangCores iss.core, ∃ w ∈ (s.core c).windows, w.2.st = .filling ∧
    ∃ j < w.2.size / 256, mask.testBit (s.regionOf (s.ctxKey t) (w.2.base + 256 * j)) = true) ∧
  (Alone s iss i o t → s.loadsPending t = true ∨ (isMarl iss.core = false ∧ s.fillsPending iss.core (s.ctxKey t) mask = true) →
    s.Stays iss i (.blocked .again) (s.begun iss)) ∧
  (Alone s iss i o t → s.loadsPending t = false → (isMarl iss.core = false → s.fillsPending iss.core (s.ctxKey t) mask = false) →
  ∃ r, exec i s = .next r ∧
    (∀ e, e ∈ r.copies ↔ e ∈ s.copies ∧ ¬(e.1 / 2 ^ 50 ∈ levels ∧ e.2.owned = false ∧ e.2.pend = false ∧ mask.testBit e.2.region = true)) ∧
    (∀ c, (r.core c).windows = if isMarl iss.core = false ∧ c ∈ s.gangCores iss.core
      then (s.core c).windows.map (fun w => (w.1, left w.2)) else (s.core c).windows) ∧
    (∀ id, (∀ m, s.msg id = some m → ¬ fetched m) → r.msg id = s.msg id) ∧
    (∀ id m, s.msg id = some m → fetched m → r.msg id = some (if m.st = .answered then { m with items := [], ans := [] } else { m with got := [] })) ∧
    Still iss (fun _ th => th.past iss.pc (iss.next i)) { y with copies := r.copies, msgs := r.msgs } r)

/-- 08 R175, 03 R68, R69, R74: a release waits until the thread's stores are performed for the scope; at PACKAGE and SYSTEM the release count of its home
agent then rises by one. A fence waits for loads and atomics too. A release is ready when no request of the thread holds it (03 R68: at GROUP loads and
registrations have only to be sent; a store to a never-cached page of another package holds SYSTEM alone) and, above GROUP, no word that the thread wrote
awaits its grant; what holds it is read as the model does (log 24). -/
def Obligations.ReleaseCounts : Prop := ∀ (o : Ops) (sc : Scope) (s : State) (iss : Issue) (t : Nat),
  let ends (i : Instr) : Prop := ∃ r, exec i s = .next r ∧
    (∀ a, r.releases a = if a = homeAgent (coreOf t) ∧ (sc = .pkg ∨ sc = .sys) then (s.releases a + 1) % 2 ^ 16 else s.releases a) ∧
    (∀ w, r.wordVal w = s.wordVal w) ∧
    (sc ≠ .grp → (r.thread t).written = []) ∧
    Still iss (fun _ th => { th with written := (r.thread t).written, pending := (r.thread t).pending }.past iss.pc (iss.next i))
      { s.begun iss with relcount := r.relcount, mirror := r.mirror, nextId := r.nextId } r
  (s.releaseReady t sc = true ↔
    (∀ id ∈ (s.thread t).pending, ∀ m, s.msg id = some m → m.st ≠ .finished →
      if m.attr = 3 ∧ endPkg m.dst ≠ pkgOf (coreOf t) ∧ m.kind ≠ .load then sc ≠ .sys else sc = .grp ∧ (m.kind = .reg ∨ m.kind = .load)) ∧
    (sc ≠ .grp → ∀ w ∈ (s.thread t).written, ∀ c, s.copy (s.who t).level w = some c → c.pend = false)) ∧
  (s.hole = false →
  (Alone s iss (.rel o sc) o t → s.releaseReady t sc = true → ends (.rel o sc)) ∧
  (Alone s iss (.fence o sc) o t → s.loadsPending t = false → s.releaseReady t sc = true → ends (.fence o sc)) ∧
  (Alone s iss (.rel o sc) o t → s.releaseReady t sc = false → s.Stays iss (.rel o sc) (.blocked .again) (s.begun iss)) ∧
  (Alone s iss (.fence o sc) o t → s.loadsPending t = true ∨ s.releaseReady t sc = false → s.Stays iss (.fence o sc) (.blocked .again) (s.begun iss)))

/-- 08 R181: WMAP gives an UNBOUND slot its ranges and makes it EMPTY; with size 0 the slot loses its range. 08 R183: WFILL of an EMPTY window makes it
FILLING and asks for its absent sectors; of a FILLING or FULL one it has no effect. 08 R184, 13 R284: WDRAIN of an EMPTY or FULL window makes it DRAINING and
sends one write-back for each run of owned words, 32 at most on their way at once; of a DRAINING one it has no effect. 08 R185, R186: WUNMAP drops every word
of a window without owned words, and the slot is UNBOUND and keeps its range; one that has waited goes on where the slot is UNBOUND by then; one whose window
fills or drains waits. WSTAT gives the state and the count of owned words. -/
def Obligations.Windows : Prop :=
  (∀ (o : Ops) (s : State) (iss : Issue) (t : Nat),
    let i : Instr := .wmap o
    let c := s.srcC iss t i o
    let slot := c % 32
    let size := c / 256 * 256
    let off := s.srcB iss t i o.b
    let base := (((s.srcA iss t i o : Int) + match o.b with | .fldOff _ v => v.toInt | _ => 0) % 2 ^ 64).toNat
    Alone s iss i o t → c / 32 % 8 = 0 → (s.window iss.core slot).st = .unbound →
    (size = 0 → ∃ r, exec i s = .next r ∧
      Still iss (fun _ th => th.past iss.pc (iss.next i)) ((s.begun iss).modWindow iss.core slot fun _ => {}) r) ∧
    (size ≠ 0 → s.wmapOk iss.core slot base off size = true → ∃ r, exec i s = .next r ∧
      Still iss (fun _ th => th.past iss.pc (iss.next i)) ((s.begun iss).modWindow iss.core slot fun _ =>
        { st := .empty, off := off - (s.core iss.core).wg * scratchSize, size := size, base := base, filler := t }) r)) ∧
  (∀ (o : Ops) (s : State) (iss : Issue) (t : Nat),
    let i : Instr := .wfill o
    let slot := s.srcA iss t i o
    let w := s.window iss.core slot
    let y := (((s.begun iss).modWindow iss.core slot fun x => { x with st := .filling, filler := t, fillLeft := List.range (w.size / 32) }).pumpFill
      iss.core slot (w.size / 32))
    Alone s iss i o t → slot ≤ 31 → s.hole = false → y.hole = false →
    (w.st = .empty → ∃ r, exec i s = .next r ∧ Still iss (fun _ th => th.past iss.pc (iss.next i)) y r ∧
      (y.window iss.core slot).st = .filling ∧ (y.window iss.core slot).off = w.off ∧ (y.window iss.core slot).size = w.size ∧
      (y.window iss.core slot).base = w.base ∧ (y.window iss.core slot).filler = t) ∧
    (w.st = .filling ∨ w.st = .full → ∃ r, exec i s = .next r ∧ Still iss (fun _ th => th.past iss.pc (iss.next i)) (s.begun iss) r)) ∧
  (∀ (o : Ops) (s : State) (iss : Issue) (t : Nat),
    let i : Instr := .wdrain o
    let slot := s.srcA iss t i o
    let w := s.window iss.core slot
    let y := (s.begun iss).startDrain iss.core slot
    Alone s iss i o t → slot ≤ 31 → s.hole = false →
    (w.st = .empty ∨ w.st = .full → ∃ r, exec i s = .next r ∧ Still iss (fun _ th => th.past iss.pc (iss.next i)) y r ∧
      (y.window iss.core slot).st = .draining ∧ (y.window iss.core slot).wasFull = decide (w.st = .full) ∧
      (y.window iss.core slot).drains.length = w.drains.length + min (32 - w.drains.length)
        (runsOf ((s.ownedWords iss.core slot).filter fun x => (s.buffered (dieAgent (dieOf iss.core)) x).isNone)).length) ∧
    (w.st = .draining → ∃ r, exec i s = .next r ∧ Still iss (fun _ th => th.past iss.pc (iss.next i)) (s.begun iss) r)) ∧
  (∀ (o : Ops) (s : State) (iss : Issue) (t : Nat),
    let u : Instr := .wunmap o
    let slot (i : Instr) := s.srcA iss t i o
    let w (i : Instr) := s.window iss.core (slot i)
    let y := (s.begun iss).emptyWindow iss.core (slot u) .unbound
    (Alone s iss u o t → slot u ≤ 31 → s.hole = false → (w u).st = .empty ∨ (w u).st = .full → s.windowPending iss.core (slot u) = false →
      s.ownedWords iss.core (slot u) = [] → ∃ r, exec u s = .next r ∧ Still iss (fun _ th => th.past iss.pc (iss.next u)) y r ∧
      y.window iss.core (slot u) = { w u with st := .unbound, present := [], owned := [], part := [], fillLeft := [], fills := [], drains := [] }) ∧
    (Alone s iss u o t → slot u ≤ 31 → s.hole = false → (s.thread t).phase = 1 → (w u).st = .unbound →
      ∃ r, exec u s = .next r ∧ Still iss (fun _ th => th.past iss.pc (iss.next u)) (s.begun iss) r) ∧
    (Alone s iss u o t → slot u ≤ 31 → s.hole = false → (w u).st = .filling ∨ (w u).st = .draining →
      s.Stays iss u (.blocked .again) ((s.begun iss).modThread t fun th => { th with phase := 1 })) ∧
    (Alone s iss (.wstat o) o t → slot (.wstat o) ≤ 31 → ∃ r, exec (.wstat o) s = .next r ∧
      Wrote iss (.wstat o) o 1 [t] (fun _ => (w (.wstat o)).owned.length * 256 + match (w (.wstat o)).st with
        | .unbound => 0 | .empty => 1 | .filling => 2 | .full => 3 | .draining => 4) (s.begun iss) r))

/-- 08 R182 to R184: a fetched word of a window arrives in its place; a fill whose sectors have all returned ends FULL where every word is present and EMPTY
otherwise; a drain that has no owned word left and whose write-backs are acknowledged ends FULL or EMPTY as it began. -/
def Obligations.WindowTransfers : Prop := ∀ (s : State) (p c slot : Nat),
  let k := coreKey p c
  let w := s.window k slot
  s.hole = false →
  (w.st = .filling → (∀ id ∈ w.fills, s.live id = false) → w.fillLeft = [] →
    exec (.wfillComplete p c slot) s = .next (s.modWindow k slot fun x =>
      { x with st := if ∀ j < w.size / 4, (tget? w.present j).isSome = true then .full else .empty, fills := [] })) ∧
  (w.st = .draining → w.drains = [] → s.windowPending k slot = false → s.ownedWords k slot = [] → exec (.wdrainComplete p c slot) s = .next (s.modWindow k slot fun x =>
    { x with st := if w.wasFull then .full else .empty })) ∧
  (∀ id x key i v, s.msg id = some x → x.client = .window k slot → x.win = some key → x.st = .answered → x.away = false → x.negative = false → x.items = [i] →
    x.ans = [v] → (x.agent % 1024 < 8 → (s.copy (l2Level (agentDie x.agent)) i.w).all (fun c => !c.owned) = true) →
    (s.copy x.level i.w).all (fun c => !c.owned && !c.pend) = true → w.fillLeft = [] → id ∈ w.fills → key / 2 ^ 21 = k → w.off ≤ key % 2 ^ 21 → tget? w.present ((key % 2 ^ 21 - w.off) / 4 + i.w % 8) = none →
    ∃ r, exec (.windowSectorFetchDone id) s = .next r ∧ r.scratchRead (key + 4 * (i.w % 8)) 4 = v.toNat ∧
      tget? (r.window k slot).present ((key % 2 ^ 21 - w.off) / 4 + i.w % 8) = some x.region ∧ r.regs = s.regs)

/-- 08 R188 to R191 at .wg and .gang: BARINIT sets the expected count; an arrival gives the phase before it as its token and the last one starts the next
phase; a wait goes on with the stale flag once the phase has moved and the thread's earlier loads have returned (03 R67), and blocks while the phase stands;
BARSYNC does both. 08 R187 to R191 at .sq: the squad arrives once, with the operands of its lowest guarded lane; a token goes to every guarded thread. -/
def Obligations.Barriers : Prop :=
  (∀ (o : Ops) (lvl : Level) (s : State) (iss : Issue) (t : Nat), lvl ≠ .sq →
    let c := s.barCore iss.core lvl
    let b (i : Instr) := s.srcB iss t i o.b
    let bar (i : Instr) := s.bar c (b i)
    let arrived (i : Instr) : Barrier :=
      if (bar i).arrivals + 1 = (bar i).expected then { bar i with phase := ((bar i).phase + 1) % 2 ^ 16, arrivals := 0 }
      else { bar i with arrivals := (bar i).arrivals + 1 }
    let usable (i : Instr) : Prop := Alone s iss i o t ∧ b i ≤ 511 ∧ (bar i).expected ≠ 0 ∧ s.releaseReady t .grp = true
    (Alone s iss (.barinit o lvl) o t → b (.barinit o lvl) ≤ 511 → (bar (.barinit o lvl)).arrivals = 0 →
      0 < s.srcA iss t (.barinit o lvl) o → s.srcA iss t (.barinit o lvl) o ≤ 65535 →
      s.Passes iss (.barinit o lvl) ((s.begun iss).setBar c (b (.barinit o lvl))
        { bar (.barinit o lvl) with expected := s.srcA iss t (.barinit o lvl) o })) ∧
    (usable (.bararv o lvl) → s.Puts iss (.bararv o lvl) o 1 [t] (fun _ => (bar (.bararv o lvl)).phase)
      ((s.begun iss).setBar c (b (.bararv o lvl)) (arrived (.bararv o lvl)))) ∧
    (usable (.barwait o lvl) → (s.thread t).phase ≠ 4 →
      let token := s.srcA iss t (.barwait o lvl) o % 2 ^ 16
      let behind := ((bar (.barwait o lvl)).phase + 2 ^ 16 - token) % 2 ^ 16
      (behind ≠ 0 → s.loadsPending t = false → s.Puts iss (.barwait o lvl) o 1 [t] (fun _ => if 2 ≤ behind then 1 else 0) (s.begun iss)) ∧
      (behind ≠ 0 → s.loadsPending t = true → s.Stays iss (.barwait o lvl) (.blocked .again) ((s.begun iss).modThread t fun th => { th with phase := 4 })) ∧
      (behind = 0 → s.Stays iss (.barwait o lvl) (.blocked (.barrier c (b (.barwait o lvl)) token)) (s.begun iss))) ∧
    (usable (.barwait o lvl) → (s.thread t).phase = 4 → (s.thread t).heldC ≠ 0 → s.loadsPending t = false →
      s.Puts iss (.barwait o lvl) o 1 [t] (fun _ => if 2 ≤ (s.thread t).heldC then 1 else 0) (s.begun iss)) ∧
    (usable (.barsync o lvl) → (s.thread t).phase ≠ 2 → (s.thread t).phase ≠ 4 → (bar (.barsync o lvl)).phase < 2 ^ 16 →
      let moved := (s.begun iss).setBar c (b (.barsync o lvl)) (arrived (.barsync o lvl))
      ((bar (.barsync o lvl)).arrivals + 1 = (bar (.barsync o lvl)).expected → s.loadsPending t = false → s.Puts iss (.barsync o lvl) o 1 [t] (fun _ => 0) moved) ∧
      ((bar (.barsync o lvl)).arrivals + 1 = (bar (.barsync o lvl)).expected → s.loadsPending t = true → s.Stays iss (.barsync o lvl) (.blocked .again)
        (moved.modThread t fun th => { th with phase := 4, token := (bar (.barsync o lvl)).phase })) ∧
      ((bar (.barsync o lvl)).arrivals + 1 ≠ (bar (.barsync o lvl)).expected →
        s.Stays iss (.barsync o lvl) (.blocked (.barrier c (b (.barsync o lvl)) (bar (.barsync o lvl)).phase))
          (moved.modThread t fun th => { th with phase := 2, token := (bar (.barsync o lvl)).phase })))) ∧
  (∀ (o : Ops) (s : State) (iss : Issue) (q l : Nat),
    let b (i : Instr) := s.srcB iss l i o.b
    let bar (i : Instr) := s.bar iss.core (b i)
    let usable (i : Instr) : Prop := Together s iss i o q ∧ (s.guarded iss o).head? = some l ∧ b i ≤ 511 ∧ (bar i).expected ≠ 0 ∧
      ∀ t ∈ iss.threads, s.releaseReady t .grp = true ∧ (s.thread t).phase ≠ 2 ∧ (s.thread t).phase ≠ 4
    let loaded' : Prop := ∀ t ∈ iss.threads, s.loadsPending t = false
    let arrived (i : Instr) : Barrier :=
      if (bar i).arrivals + 1 = (bar i).expected then { bar i with phase := ((bar i).phase + 1) % 2 ^ 16, arrivals := 0 }
      else { bar i with arrivals := (bar i).arrivals + 1 }
    (Together s iss (.barinit o .sq) o q → (∀ t ∈ iss.threads, (s.thread t).phase ≠ 2 ∧ (s.thread t).phase ≠ 4) → (s.guarded iss o).head? = some l →
      b (.barinit o .sq) ≤ 511 → (bar (.barinit o .sq)).arrivals = 0 →
      0 < s.srcA iss l (.barinit o .sq) o → s.srcA iss l (.barinit o .sq) o ≤ 65535 →
      s.Passes iss (.barinit o .sq) ((s.begun iss).setBar iss.core (b (.barinit o .sq))
        { bar (.barinit o .sq) with expected := s.srcA iss l (.barinit o .sq) o })) ∧
    (usable (.bararv o .sq) → s.Puts iss (.bararv o .sq) o 1 (s.guarded iss o) (fun _ => (bar (.bararv o .sq)).phase)
      ((s.begun iss).setBar iss.core (b (.bararv o .sq)) (arrived (.bararv o .sq)))) ∧
    (usable (.barwait o .sq) →
      let behind := ((bar (.barwait o .sq)).phase + 2 ^ 16 - s.srcA iss l (.barwait o .sq) o % 2 ^ 16) % 2 ^ 16
      behind ≠ 0 → loaded' → s.Puts iss (.barwait o .sq) o 1 (s.guarded iss o) (fun _ => if 2 ≤ behind then 1 else 0) (s.begun iss)) ∧
    (usable (.barsync o .sq) → loaded' → (bar (.barsync o .sq)).phase < 2 ^ 16 → (bar (.barsync o .sq)).arrivals + 1 = (bar (.barsync o .sq)).expected →
      s.Puts iss (.barsync o .sq) o 1 (s.guarded iss o) (fun _ => 0)
        ((s.begun iss).setBar iss.core (b (.barsync o .sq)) (arrived (.barsync o .sq)))))

/-- 08 R192, R193: QCFG gives an empty queue its ring; QPUSH appends A's handle, QPOP gives the oldest one, and each waits behind others of its kind or where
the queue is full or empty; QPUSH's release and QPOP's acquire wait first. -/
def Obligations.QueuesAreFifo : Prop := ∀ (o : Ops) (s : State) (iss : Issue) (t k : Nat),
  let a (i : Instr) := s.srcA iss t i o
  let held (i : Instr) : Prop := Alone s iss i o t ∧ s.srcB iss t i o.b ≤ 63 ∧ s.queueKey iss.core (s.srcB iss t i o.b) = some k
  let x := s.queue k
  let place (n : Nat) : Nat := s.localKey iss.core (x.base + 4 * (n % x.cap))
  (held (.qcfg o) → x.tail - x.head = 0 → x.waiters = [] → a (.qcfg o) / 2 ^ 45 = 0 → a (.qcfg o) / 2 ^ 23 % 2 ^ 9 = 0 → a (.qcfg o) / 2 ^ 32 ≤ 4096 →
    4 ∣ a (.qcfg o) % 2 ^ 23 →
    (a (.qcfg o) / 2 ^ 32 = 0 → s.Passes iss (.qcfg o) ((s.begun iss).setQueue k {})) ∧
    (a (.qcfg o) / 2 ^ 32 ≠ 0 → s.ringTrap iss.core (a (.qcfg o) % 2 ^ 23) (4 * (a (.qcfg o) / 2 ^ 32)) = none →
      s.Passes iss (.qcfg o) ((s.begun iss).setQueue k { cap := a (.qcfg o) / 2 ^ 32, base := a (.qcfg o) % 2 ^ 23 }))) ∧
  (held (.qpush o) → x.cap ≠ 0 → s.releaseReady t .grp = true →
    (x.tail - x.head < x.cap → x.waiters = [] →
      s.Passes iss (.qpush o) (((s.begun iss).scratchWrite (place x.tail) 4 (a (.qpush o))).setQueue k { x with tail := x.tail + 1 })) ∧
    (¬ (x.tail - x.head < x.cap ∧ ∀ w ∈ x.waiters, w.push = false) →
      s.Stays iss (.qpush o) (.blocked (.queue (clusterOf iss.core) (k % 64))) ((s.begun iss).setQueue k { x with waiters := x.waiters ++
        [{ tid := t, push := true, value := a (.qpush o), next := iss.next (.qpush o) }] }))) ∧
  (held (.qpop o) → x.cap ≠ 0 → s.loadsPending t = false → x.tail - x.head ≠ 0 → x.waiters = [] →
    s.Puts iss (.qpop o) o 1 [t] (fun _ => s.scratchRead (place x.head) 4) ((s.begun iss).setQueue k { x with head := x.head + 1 })) ∧
  (held (.qpop o) → x.cap ≠ 0 → s.loadsPending t = false → ¬ (x.tail - x.head ≠ 0 ∧ ∀ w ∈ x.waiters, w.push = true) →
    s.Stays iss (.qpop o) (.blocked (.queue (clusterOf iss.core) (k % 64))) ((s.begun iss).setQueue k { x with waiters := x.waiters ++
      [{ tid := t, dest := (s.destOf o t 1 true).1, kdest := (s.destOf o t 1 true).2, next := iss.next (.qpop o) }] })) ∧
  (held (.qpush o) → x.cap ≠ 0 → (s.thread t).phase = 0 → s.releaseReady t .grp = false → s.Stays iss (.qpush o) (.blocked .again) (s.begun iss)) ∧
  (held (.qpop o) → x.cap ≠ 0 → (s.thread t).phase = 0 → s.loadsPending t = true → s.Stays iss (.qpop o) (.blocked .again) (s.begun iss))

/-- 08 R195, R198, R200, R201: COPY writes its command into the ring with state 1 and the index advances; CBSEAL gives the next batch its number; CBWAIT goes
on and CBPOLL gives 1 once no command of a batch up to B is left. -/
def Obligations.CopiesArePosted : Prop := ∀ (o : Ops) (s : State) (iss : Issue) (t : Nat),
  let th := s.thread t
  let idx := (s.core iss.core).ringNext % 64
  let batch (i : Instr) := s.srcB iss t i o.b % 2 ^ 16
  let sealed' (b : Nat) : Prop := (b + 2 ^ 16 - th.sealed) % 2 ^ 16 = 0 ∨ 2 ^ 15 ≤ (b + 2 ^ 16 - th.sealed) % 2 ^ 16
  let ended (b : Nat) : Prop := ∀ c ∈ th.copies, ¬ ((b + 2 ^ 16 - c.1) % 2 ^ 16 < 2 ^ 15 ∧ (th.sealed + 2 ^ 16 - c.1) % 2 ^ 16 < 2 ^ 15)
  (Alone s iss (.copy o) o t → ctlBad (s.srcB iss t (.copy o) o.b) = false → (s.core iss.core).ringWait = [] → s.ringBusy iss.core idx = false →
    ∃ r, exec (.copy o) s = .next r ∧
      r.scratchRead (ringKey iss.core idx) 32 =
        (s.pairAt iss t o.a 0 + s.pairAt iss t o.a 2 * 2 ^ 64 + s.pairAt iss t o.a 4 * 2 ^ 128 + s.srcB iss t (.copy o) o.b * 2 ^ 192 + 1 * 2 ^ 224 +
        laneOf t * 2 ^ 229 + squadOf t % 32 * 2 ^ 235 + (th.sealed + 1) % 2 ^ 16 * 2 ^ 240) % 2 ^ 256 ∧
      (∀ k, k < ringKey iss.core idx ∨ ringKey iss.core idx + 32 ≤ k → r.scratchByte k = s.scratchByte k) ∧
      (∃ c, tget? r.copyCmds s.nextId = some c ∧ c.ring = some (iss.core, idx) ∧ c.tid = t ∧ c.batch = (th.sealed + 1) % 2 ^ 16) ∧
      Still iss (fun _ th => th.past iss.pc (iss.next (.copy o)))
        ({ (s.begun iss).modCore iss.core fun c => { c with ringNext := (idx + 1) % 64 } with
            scratch := r.scratch, copyCmds := r.copyCmds, nextId := s.nextId + 1 }.modThread t fun th =>
              { th with copies := th.copies ++ [((th.sealed + 1) % 2 ^ 16, s.nextId)] }) r) ∧
  (Alone s iss (.cbseal o) o t → s.Puts iss (.cbseal o) o 1 [t] (fun _ => (th.sealed + 1) % 2 ^ 16)
    ((s.begun iss).modThread t fun th => { th with sealed := (th.sealed + 1) % 2 ^ 16 })) ∧
  (Alone s iss (.cbwait o) o t → sealed' (batch (.cbwait o)) → ended (batch (.cbwait o)) →
    (∀ n, th.note = some n → 2 ^ 15 ≤ (batch (.cbwait o) + 2 ^ 16 - n.batch) % 2 ^ 16) → s.Passes iss (.cbwait o) (s.begun iss)) ∧
  (Alone s iss (.cbpoll o) o t → sealed' (batch (.cbpoll o)) →
    (ended (batch (.cbpoll o)) → s.Puts iss (.cbpoll o) o 1 [t] (fun _ => 1) (s.begun iss)) ∧
    (¬ ended (batch (.cbpoll o)) → s.Puts iss (.cbpoll o) o 1 [t] (fun _ => 0) (s.begun iss)))

/-- 03 R80, 08 R199, R201: a queued copy command becomes active, its ring entry in state 2; one that has moved its bytes ends with cause 0, one that met an
error with its cause, its ring entry in state 3; the failure is noted for CBWAIT, and a command with dep set sends its task an update. A misaligned layout
record fails with cause 4; one that its levels do not have is asked for at its home, and the command waits (log 77); a copy from local to local memory moves
its bytes and changes no other. -/
def Obligations.CopiesStartAndEnd : Prop := ∀ (s : State) (id core i : Nat) (c : CopyCmd), tget? s.copyCmds id = some c → c.ring = some (core, i) →
  let k := ringKey core i + 28
  let ends (what : Instr) (s' : State) (cause : Nat) : Prop := s'.hole = false → cause < 8 → (s'.core core).ringWait = [] → (tget? s'.threads c.tid).isSome = true →
    ∃ r, exec what s = .next r ∧ tget? r.copyCmds id = none ∧
      (r.scratchByte k).toNat = (s'.scratchByte k).toNat / 32 * 32 + cause * 4 + 3 ∧
      (r.thread c.tid).copies = (s'.thread c.tid).copies.filter (fun x => x.2 ≠ id) ∧
      (r.thread c.tid).note = (if cause ≠ 0 ∧ (s'.thread c.tid).note = none then some { batch := c.batch, index := i, cause := cause }
        else (s'.thread c.tid).note) ∧
      r.arrivals = (if c.ctl.testBit 6 = true then
        (s'.arrives { ck := s'.clock (pkgOf c.core), die := dieOf c.core, num := c.ctl / 2 ^ 8 % 2 ^ 12, cls := 2, key := id, act := .dec }).arrivals else s'.arrivals) ∧ r.regs = s'.regs
  (c.active = false → (s.core c.core).stop = false → s.rests (pkgOf c.core) = false →
    (∀ x ∈ s.copyCmds, x.1 < id → x.2.active = true ∨ ∀ j, x.2.ring ≠ some (core, j)) →
    ∃ r, exec (.copyCommandStart id) s = .next r ∧ tget? r.copyCmds id = some { c with active := true } ∧
      (r.scratchByte k).toNat = (s.scratchByte k).toNat / 4 * 4 + 2 ∧ (∀ a, a ≠ k → r.scratchByte a = s.scratchByte a) ∧ r.regs = s.regs) ∧
  (∀ s', c.active = true → s.runCopy id c = .ended s' 0 → ends (.copyCommandComplete id) s' 0) ∧
  (∀ s' cause, c.active = true → cause ≠ 0 → s.runCopy id c = .ended s' cause → ends (.copyCommandFail id) s' cause) ∧
  (c.active = true → c.msgs = [] → c.cause = 0 → c.moves = none → c.layout % 32 ≠ 0 → ends (.copyCommandFail id) s 4) ∧
  (∀ pa, c.active = true → c.msgs = [] → c.cause = 0 → c.moves = none → c.record = [] → c.layout % 32 = 0 → s.hole = false →
    (∀ i < 8, s.copyLoad c (c.layout / 4 + i) = (s, .ask (.cached (pa + 4 * i)))) →
    ∃ r m, exec (.copyCommandComplete id) s = .next r ∧ r.msg s.nextId = some m ∧ m.kind = .load ∧ m.src = engineAgent c.cluster ∧ m.dst = homeEnd (pa / 4) ∧
      m.items.map (·.w) = (List.range 8).map (fun i => pa / 4 + i) ∧ m.client = .copy id ∧
      tget? r.copyCmds id = some { c with msgs := [s.nextId] } ∧ r.mem = s.mem ∧ r.regs = s.regs) ∧
  (∀ n, c.active = true → n ∈ c.msgs → s.live n = true → s.hole = false → exec (.copyCommandComplete id) s = .next s) ∧
  (∀ (v : Nat → Word) (l : Layout), c.active = true → c.msgs = [] → c.cause = 0 → c.moves = none → c.record = [] → c.words = [] → c.layout % 32 = 0 → c.ctl.testBit 0 = true → c.ctl.testBit 1 = true → c.ctl / 4 % 4 = 0 →
    (∀ i < 8, s.copyLoad c (c.layout / 4 + i) = (s, .val (v i))) → layoutOf (joinWords ((List.range 8).map v)) c.ctl = some l →
    (if l.dir then c.dst else c.src) % 2 ^ l.esize = 0 → (if l.dir then c.src else c.dst) % 8 = 0 → c.src < 2 ^ 23 → c.dst < 2 ^ 23 →
    (∀ m ∈ s.copyMoves c l [], ∃ b n, m.2 = .inl b ∧ s.copyLocal c m.1 = .inl n ∧ n ≠ k) → s.hole = false → (s.core core).ringWait = [] →
    ∃ r, exec (.copyCommandComplete id) s = .next r ∧ tget? r.copyCmds id = none ∧
      (∀ m ∈ s.copyMoves c l [], ∀ b n, m.2 = .inl b → s.copyLocal c m.1 = .inl n →
        (∀ m' ∈ s.copyMoves c l [], s.copyLocal c m'.1 = .inl n → m'.2 = .inl b) → r.scratchByte n = BitVec.ofNat 8 b) ∧
      (∀ n, n ≠ k → (∀ m ∈ s.copyMoves c l [], s.copyLocal c m.1 ≠ .inl n) → r.scratchByte n = s.scratchByte n) ∧
      (r.scratchByte k).toNat % 32 = 3 ∧ (r.thread c.tid).note = (s.thread c.tid).note ∧ r.mem = s.mem ∧ r.regs = s.regs)

/-- 09 R217 to R219: a branch whose target is aligned and canonical and leaves no loop's range goes there, a call whose target is aligned and canonical too;
CALL and CALLX write the PC after them to the pair v0, v1 and raise the call depth, RET goes to that pair and lowers it. 05 R117, 09 R220, R221: NOP changes
nothing but the thread's place; EXIT ends the thread with the low eight bits of B as its status, its loop state cleared; YIELD lowers its next entry for 32
ck. -/
def Obligations.ControlTransfers : Prop :=
  (∀ (o : Ops) (s : State) (iss : Issue) (t : Nat),
    let th := s.thread t
    let okay (target : Nat) : Prop := 4 ∣ target ∧ (target < 2 ^ 56 ∨ 2 ^ 64 - 2 ^ 56 ≤ target ∧ target < 2 ^ 64)
    let stays (target : Nat) : Prop := th.inHandler = true ∨ th.depth = 0 ∨
      ¬ ((th.lc (th.depth - 1)).start ≤ iss.pc / 4 % 2 ^ 55 ∧ iss.pc / 4 % 2 ^ 55 ≤ (th.lc (th.depth - 1)).stop) ∨
      (target / 2 ^ 57 = iss.pc / 2 ^ 57 ∧ (th.lc (th.depth - 1)).start * 4 ≤ target % 2 ^ 57 ∧ target % 2 ^ 57 ≤ (th.lc (th.depth - 1)).stop * 4)
    let rel := (((iss.pc : Int) + s.offset iss t o.b) % 2 ^ 64).toNat
    let linked (i : Instr) (target : Nat) : Prop := ∃ r, exec i s = .next r ∧
      Kept iss (fun _ th => { th with callDepth := (th.callDepth + 1) % 2 ^ 16 }.jumped target) (s.begun iss) r ∧
      tget r.regs (s.regKey t 0) 0 = BitVec.ofNat 32 (iss.next i) ∧ tget r.regs (s.regKey t 1) 0 = BitVec.ofNat 32 (iss.next i / 2 ^ 32) ∧
      (∀ key, key ≠ s.regKey t 0 → key ≠ s.regKey t 1 → tget r.regs key 0 = tget s.regs key 0) ∧ (∀ q, (r.squad q).k = (s.squad q).k)
    (Alone s iss (.bra o) o t → okay rel → stays rel → s.Goes iss (.bra o) rel (s.begun iss)) ∧
    (Alone s iss (.brx o) o t → okay (s.srcA iss t (.brx o) o) → stays (s.srcA iss t (.brx o) o) →
      s.Goes iss (.brx o) (s.srcA iss t (.brx o) o) (s.begun iss)) ∧
    (Alone s iss (.call o) o t → okay rel → linked (.call o) rel) ∧
    (Alone s iss (.callx o) o t → okay (s.srcA iss t (.callx o) o) → linked (.callx o) (s.srcA iss t (.callx o) o)) ∧
    (Alone s iss (.ret o) o t → okay (s.readV t 0 + s.readV t 1 * 2 ^ 32) → ¬ (0 < th.depth ∧ (th.lc (th.depth - 1)).frame = th.callDepth) →
      s.Goes iss (.ret o) (s.readV t 0 + s.readV t 1 * 2 ^ 32)
        ((s.begun iss).modThread t fun th => { th with callDepth := (th.callDepth + 2 ^ 16 - 1) % 2 ^ 16 }))) ∧
  (∀ (o : Ops) (s : State) (iss : Issue) (t : Nat),
    (Alone s iss (.nop o) o t → s.Passes iss (.nop o) (s.begun iss)) ∧
    (Alone s iss (.exit o) o t → s.releaseReady t .grp = true → (s.thread t).run ≠ .exited →
      (∀ u ∈ s.squadThreads (squadOf t), (s.thread u).run ≠ .hold) →
      let x := ((s.begun iss).modCore iss.core fun c => { c with exits := c.exits ++ [s.srcB iss t (.exit o) o.b % 256], lastExit := t % 2048 })
      let y := if (s.thread t).inHandler then
        (x.modThread t fun th => { th with inHandler := false, supervisor := false }).modSquad (squadOf t) fun q =>
          { q with handling := q.handling &&& ~~~(BitVec.ofNat 64 (2 ^ laneOf t)), freeAt := (s.core iss.core).ck + 1 } else x
      ∃ r, exec (.exit o) s = .next r ∧ Still iss (fun _ th => th)
        (y.modThread t fun th => { th with run := .exited, depth := 0, rot := 0, callDepth := 0, lc0 := {}, lc1 := {}, lc2 := {}, lc3 := {}, phase := 0 }) r) ∧
    (Alone s iss (.yield o) o t →
      s.Passes iss (.yield o) ((s.begun iss).modThread t fun th => { th with yieldUntil := (s.core iss.core).ck + 33 })))

/-- 02 R37, R38: after an instruction at the end of the innermost open loop's body, here an addition, the thread stands at the body's start while iterations
are left, with the counts lowered, the rotation base lowered by one and p9 to p15 taking p8 to p14 in a pipelined loop; after the last one the level closes
and the thread leaves the loop. Elsewhere, and in a handler (02 R47), it stands at the next instruction. 02 R36, 09 R222: LPBEG opens a level that nests, with
its count of n plus its stages less one and p8 set for a pipelined loop, and goes on at its start; with a count of 0 it leaves the loop at once. A fifth
level, a rotating one of a small budget, or one that does not nest traps. 02 R42, 09 R223: LPBRK leaves d levels at once, each guard-true thread of the group
for itself, with no change of the stage predicates and of rot; the other threads go on. With fewer levels open, or at the end PC of one (02 R39), it raises
the loop-nesting fault. -/
def Obligations.Loops : Prop :=
  (∀ (o : Ops) (f : IntFn) (s : State) (iss : Issue) (t : Nat), Alone s iss (.add o f) o t →
    let th := s.thread t
    let l := th.lc (th.depth - 1)
    let ends : Prop := 0 < th.depth ∧ th.inHandler = false ∧ iss.pc / 4 % 2 ^ 55 = l.stop
    ∃ r, exec (.add o f) s = .next r ∧
      (¬ ends → (r.thread t).pc = iss.next (.add o f) ∧ (r.thread t).depth = th.depth ∧ (r.thread t).rot = th.rot ∧ (r.thread t).preds = th.preds) ∧
      (ends → l.count > 1 →
        (r.thread t).pc = l.start * 4 ∧ (r.thread t).depth = th.depth ∧
        (r.thread t).rot = (if l.rotate then (th.rot + 63) % 64 else th.rot) ∧
        (∀ p, (r.thread t).preds.getLsbD p =
          if l.stages ≥ 1 ∧ p = 8 then decide (l.feed - 1 > 0) else if l.stages ≥ 1 ∧ 9 ≤ p ∧ p ≤ 15 then th.preds.getLsbD (p - 1)
          else th.preds.getLsbD p) ∧
        (r.thread t).lc (th.depth - 1) = { l with count := l.count - 1, feed := l.feed - 1 }) ∧
      (ends → l.count ≤ 1 →
        (r.thread t).pc = l.stop * 4 + 8 + 4 * l.len ∧ (r.thread t).depth = th.depth - 1 ∧ (r.thread t).rot = th.rot ∧ (r.thread t).preds = th.preds)) ∧
  (∀ (o : Ops) (f : LpbegFn) (s : State) (iss : Issue) (t : Nat),
    let i : Instr := .lpbeg o f
    let th := s.thread t
    let n := s.srcA iss t i o
    let start := iss.next i / 4 % 2 ^ 55
    let stop := (((iss.pc : Int) + s.offset iss t o.b) % 2 ^ 64).toNat / 4 % 2 ^ 55
    let nests : Prop := 0 < th.depth → (th.lc (th.depth - 1)).frame = th.callDepth → (th.lc (th.depth - 1)).start ≤ start ∧ stop < (th.lc (th.depth - 1)).stop
    let wide : Prop := f.rotate = true → 256 ≤ (s.squad (squadOf t)).budget
    let faults (code cause : Nat) : Prop := s.Quiet t → ∃ data, s.Interrupts iss i t code cause data 0 (s.chainAt iss).head
    Alone s iss i o t → th.inHandler = false →
    (th.depth = 4 → faults 5 1) ∧ (th.depth < 4 → ¬ wide → faults 1 11) ∧ (th.depth < 4 → wide → ¬ (nests ∧ start ≤ stop) → faults 5 1) ∧
    (th.depth < 4 → wide → nests → start ≤ stop → (n = 0 → s.Goes iss i (stop * 4 + 8 + 4 * f.len.toNat) (s.begun iss)) ∧
    (n ≠ 0 → s.Goes iss i (iss.next i) ((s.begun iss).modThread t fun th =>
      { th.setLc th.depth { start := start, stop := stop, len := f.len.toNat, count := n + max f.stages.toNat 1 - 1, feed := n, stages := f.stages.toNat
                            rotate := f.rotate, frame := th.callDepth } with
        depth := th.depth + 1, preds := if 1 ≤ f.stages.toNat then th.preds &&& 0x00FF ||| 0x0100 else th.preds })))) ∧
  (∀ (o : Ops) (dm1 : BitVec 2) (s : State) (iss : Issue) (t : Nat),
    let d := dm1.toNat + 1
    let i : Instr := .lpbrk o dm1
    let fault (cause : Nat) : Prop := ∃ data, s.Interrupts iss i t 5 cause data 0 (s.chainAt iss).head
    (Issues s iss i o → (∀ u ∈ s.guarded iss o, (s.thread u).inHandler = false ∧ d ≤ (s.thread u).depth) → ∃ r, exec i s = .next r ∧
      Still iss (fun u th => if (s.thread u).guard o.h then { th with depth := th.depth - d }.jumped ((th.lc (th.depth - d)).stop * 4 + 8 + 4 * (th.lc (th.depth - d)).len)
        else th.past iss.pc (iss.next i)) (s.begun iss) r) ∧
    (Alone s iss i o t → s.Quiet t → (s.thread t).inHandler = false → (s.thread t).depth < d → fault 4) ∧
    (s.Quiet t → s.issue = some iss → iss.threads = [t] → coreOf t = iss.core → (s.thread t).done = false → (s.thread t).lossPend = false → i.WellFormed = true → o.h.chain = false →
      (s.thread t).inHandler = false → (∃ j < 4, j < (s.thread t).depth ∧ ((s.thread t).lc j).stop = iss.pc / 4 % 2 ^ 55) → fault 3))

/-- 02 R48, 09 R224: LPSAVE stores the loop-state record of 136 bytes and LPREST installs it: at pages that the translation caches map, whose words the
requester owns and no window of the gang maps, LPSAVE writes those bytes and no other, and LPREST installs a record that stands there and passes its checks.
On every other path that goes through, y is the state after the seventeen accesses. The record of a thread, installed, gives its loop state back. -/
def Obligations.LoopStateIsSavedAndRestored : Prop := ∀ (o : Ops) (s y : State) (iss : Issue) (t : Nat),
  let x := s.who t
  let va (i : Instr) := s.globalAddr iss t i o
  let owned (write : Bool) (va : Nat) (pa : Nat → Nat) : Prop := (∀ k < 17, s.Mapped x ((va + 8 * k) % 2 ^ 64) write (pa k) ∧ 8 ∣ pa k ∧ pa k < 2 ^ 52 ∧
    (∀ j < 17, j ≠ k → pa j ≠ pa k) ∧ (∀ j ∈ itemsOf (pa k) 8 0, Holds s x j.w) ∧ s.overlaps t ((itemsOf (pa k) 8 0).map (·.w)) = false ∧
    s.wbPending x.agent ((itemsOf (pa k) 8 0).map (·.w)) = false) ∧ s.uncachedPending t = false ∧ s.hole = false ∧
    (isMarl iss.core = true ∨ ∀ c ∈ s.gangCores iss.core, ∀ y ∈ (s.core c).windows, y.2.st = .unbound ∨
      ∀ k < 17, (va + 8 * k) % 2 ^ 64 < y.2.base ∨ y.2.base + y.2.size ≤ (va + 8 * k) % 2 ^ 64)
  (∀ pa : Nat → Nat, (s.thread t).fresh → Alone s iss (.lpsave o) o t → 8 ∣ va (.lpsave o) → owned true (va (.lpsave o)) pa →
    ∃ r, exec (.lpsave o) s = .next r ∧
      (∀ k < 136, r.byteAt (pa (k / 8) + k % 8) = (s.thread t).loopRecord / 256 ^ k % 256) ∧
      (∀ a < 2 ^ 52, (∀ k < 17, a < pa k ∨ pa k + 8 ≤ a) → r.byteAt a = s.byteAt a) ∧
      Still iss (fun _ th => { th with written := (r.thread t).written }.past iss.pc (iss.next (.lpsave o))) { s.begun iss with copies := r.copies } r) ∧
  (∀ (pa : Nat → Nat) (rec : Nat), (s.thread t).fresh → Alone s iss (.lprest o) o t → 8 ∣ va (.lprest o) → owned false (va (.lprest o)) pa →
    rec < 2 ^ 1088 → (∀ k < 136, s.byteAt (pa (k / 8) + k % 8) = rec / 256 ^ k % 256) → recordOk rec = true →
    ∃ r, exec (.lprest o) s = .next r ∧
      Still iss (fun _ th => th.jumped (iss.next (.lprest o))) ((s.begun iss).modThread t fun th => th.setRecord rec) r) ∧
  ((s.thread t).fresh → Alone s iss (.lpsave o) o t → 8 ∣ va (.lpsave o) → (s.begun iss).recordFault x (va (.lpsave o)) true = none →
    ((s.begun iss).recordWait t 0 0 0).saveRecord x (va (.lpsave o)) (s.thread t).loopRecord 0 17 = (y, .next) → y.hole = false →
    s.Passes iss (.lpsave o) y) ∧
  ((s.thread t).fresh → Alone s iss (.lprest o) o t → 8 ∣ va (.lprest o) → (s.begun iss).recordFault x (va (.lprest o)) false = none →
    ((s.begun iss).recordWait t 0 0 0).loadRecord x (va (.lprest o)) 0 0 17 = (y, .jump 0) → y.hole = false →
    s.Goes iss (.lprest o) (iss.next (.lprest o)) y) ∧
  (∀ th : Thread, th.depth ≤ 4 → th.rot < 64 → th.callDepth < 2 ^ 16 →
    (∀ i < th.depth, (th.lc i).start < 2 ^ 55 ∧ (th.lc i).stop < 2 ^ 55 ∧ (th.lc i).len < 3 ∧ 0 < (th.lc i).count ∧ (th.lc i).count < 2 ^ 40 ∧
      (th.lc i).feed < 2 ^ 32 ∧ (th.lc i).stages ≤ 8 ∧ (th.lc i).frame < 2 ^ 16) →
    recordOk th.loopRecord = true ∧ th.loopRecord < 2 ^ 1088 ∧
    (th.setRecord th.loopRecord).depth = th.depth ∧ (th.setRecord th.loopRecord).rot = th.rot ∧
    (th.setRecord th.loopRecord).callDepth = th.callDepth ∧ ∀ i < th.depth, (th.setRecord th.loopRecord).lc i = th.lc i)

/-- 10 R235, R236: TCADD sends its counter the update that adds B, after a release at its scope, TCSET the one that sets it to B; TCRD gives the counter,
TCWAIT goes on at B or more, or once an update has ended its wait, and waits below it. An update bears the ck of its core and is applied when a core of the
package enters its next ck; the other counters stay. -/
def Obligations.Counters : Prop := ∀ (o : Ops) (sc : Scope) (s : State) (iss : Issue) (t c : Nat),
  let die := s.asterOf t
  let b (i : Instr) := s.srcB iss t i o.b
  let okay (i : Instr) : Prop := Alone s iss i o t ∧ s.srcA iss t i o = c ∧ c ≤ 4095 ∧ s.hasCounter (s.ctxKey t) die c = true ∧ (s.thread t).phase = 0
  (okay (.tcadd o sc) → s.releaseReady t sc = true →
    s.Passes iss (.tcadd o sc) (((s.begun iss).doRelease t sc).arrives (s.arrivalOf die c t (.add (b (.tcadd o sc)))))) ∧
  (okay (.tcset o) → s.Passes iss (.tcset o) ((s.begun iss).arrives (s.arrivalOf die c t (.set (b (.tcset o)))))) ∧
  (∀ (p core : Nat) (a : Arrival), core < 512 → s.arrivals = [a] → a.die / 8 = p → a.num < 4096 → a.ck ≤ (s.core (coreKey p core)).ck → s.held p = false →
    (isMarl (coreKey p core) = false → dieOf (coreKey p core) ∉ s.lost ∧ dieOf (coreKey p core) ∉ s.dead) → ∃ r, exec (.issueCk p core) s = .next r ∧ r.arrivals = [] ∧
      (∀ v, a.act = .add v → r.counter a.die a.num = (s.counter a.die a.num + v) % 2 ^ 64) ∧
      (∀ v, a.act = .set v → r.counter a.die a.num = v % 2 ^ 64) ∧
      (∀ d n, n < 4096 → ¬ (d = a.die ∧ n = a.num) → r.counter d n = s.counter d n)) ∧
  (okay (.tcrd o) → s.Puts iss (.tcrd o) o 2 [t] (fun _ => s.counter die c) (s.begun iss)) ∧
  (okay (.tcwait o) → b (.tcwait o) ≤ s.counter die c → s.Passes iss (.tcwait o) (s.begun iss)) ∧
  (Alone s iss (.tcwait o) o t → (s.thread t).phase = 3 → s.Passes iss (.tcwait o) (s.begun iss)) ∧
  (okay (.tcwait o) → s.counter die c < b (.tcwait o) → s.Stays iss (.tcwait o) (.blocked (.counter die c)) (s.begun iss))

/-- 10 R228 to R230, R237: TRIGPOST arms its slot with the operands it was given and the next number; TRIGCAN frees an ARMED slot and leaves any other alone;
TRIGPRB gives a slot's state and cause. 10 R231, R232: the oldest ARMED slot of a counter fires once the counter has reached its threshold, unless its context
is suspended, and enters the start queue; nothing younger fires before it. -/
def Obligations.TriggeredSlots : Prop :=
  (∀ (o : Ops) (f : TrigFn) (s : State) (iss : Issue) (t : Nat),
    let die := s.asterOf t
    let post : Instr := .trigpost o f
    let n (i : Instr) := s.srcA iss t i o
    let okay (i : Instr) : Prop := Alone s iss i o t ∧ n i ≤ 8191 ∧ s.hasSlot (s.ctxKey t) die (n i) = true
    (Alone s iss post o t →
      s.postCause (s.ctxKey t) die f (s.srcC iss t post o) (s.pairAt iss t o.a 0) (s.pairAt iss t o.a 2) (s.pairAt iss t o.a 4) (s.srcB iss t post o.b) = 0 →
      s.releaseReady t (if isMarl iss.core then .pkg else .die) = true →
      s.Passes iss post (State.evalCounter
        { ((s.begun iss).doRelease t (if isMarl iss.core then .pkg else .die)).setAslot die (s.srcC iss t post o)
            { src := s.pairAt iss t o.a 0, dst := s.pairAt iss t o.a 2, param := s.pairAt iss t o.a 4, value := s.srcB iss t post o.b
              threshold := f.threshold.toNat, seq := tget s.asterSeq die 0, ctx := s.ctxKey t % 64, trigger := f.trigger.toNat, done := f.done.toNat
              reach := if scopeRank f.scope < (if isMarl iss.core then 2 else 1) then (if isMarl iss.core then .pkg else .die) else f.scope
              kind := f.kind, scope := f.scope, cen := f.cen, st := .armed } with
          asterSeq := tset s.asterSeq die ((tget s.asterSeq die 0 + 1) % 2 ^ 32) } die f.trigger.toNat)) ∧
    (okay (.trigcan o) → (s.aslot die (n (.trigcan o))).st = .armed →
      s.Passes iss (.trigcan o) (((s.begun iss).setAslot die (n (.trigcan o)) { s.aslot die (n (.trigcan o)) with st := .free }).evalCounter die
        (s.aslot die (n (.trigcan o))).trigger)) ∧
    (okay (.trigcan o) → (s.aslot die (n (.trigcan o))).st ≠ .armed → s.Passes iss (.trigcan o) (s.begun iss)) ∧
    (okay (.trigprb o) → s.Puts iss (.trigprb o) o 1 [t] (fun _ => (s.aslot die (n (.trigprb o))).cause * 256 +
      match (s.aslot die (n (.trigprb o))).st with | .free => 0 | .armed => 1 | .fired => 2 | .done => 3 | .failed => 4) (s.begun iss))) ∧
  (∀ (s : State) (die c n : Nat) (rest : List Nat), s.armedOn die c = n :: rest → n < 8192 →
    let x := s.aslot die n
    let stuck : Prop := s.counter die c < x.threshold ∨ s.ctxSuspended (die / 8 * 64 + x.ctx) = true ∨ s.rests (die / 8) = true
    (stuck → s.evalCounter die c = s) ∧
    (¬ stuck → ((s.evalCounter die c).aslot die n).st = .fired ∧
      ∃ l, tget (s.evalCounter die c).startQueue die [] = tget s.startQueue die [] ++ n :: l ∧ ∀ m ∈ l, m ∈ rest))

/-- 10 R239, R240, 19 R332: after a release at PACKAGE, TREADY and TDEC send their task's die its update; when the ck ends, the first submits an ARMED task
and is counted as misused on another, the second lowers the count and submits an ARMED task at 0, and is counted as misused at 0. LAUNCH hands its record to
the aggregator of its die. -/
def Obligations.LaunchesAndTasks : Prop := ∀ (o : Ops) (s : State) (iss : Issue) (t : Nat),
  let b (i : Instr) := s.srcB iss t i o.b
  let die (i : Instr) := s.ctxKey t / 64 * 8 + b i / 4096 % 8
  let x := (s.begun iss).doRelease t .pkg
  let okay (i : Instr) : Prop := Alone s iss i o t ∧ b i / 2 ^ 15 % 2 ^ 17 = 0 ∧ s.hasTask (s.ctxKey t) (die i) (b i % 4096) = true ∧
    s.releaseReady t .pkg = true
  let sent (i : Instr) (cls : Nat) (act : Arrive) : State :=
    x.arrives { ck := (s.core (coreOf t)).ck, die := die i, num := b i % 4096, cls := cls, key := coreOf t * 64 + laneOf t, act := act }
  (okay (.tready o) → s.Passes iss (.tready o) (sent (.tready o) 0 .ready)) ∧
  (okay (.tdec o) → s.Passes iss (.tdec o) (sent (.tdec o) 1 .dec)) ∧
  (∀ (p core : Nat) (a : Arrival), core < 512 → s.arrivals = [a] → a.die / 8 = p → a.ck ≤ (s.core (coreKey p core)).ck → s.held p = false →
    (isMarl (coreKey p core) = false → dieOf (coreKey p core) ∉ s.lost ∧ dieOf (coreKey p core) ∉ s.dead) →
    let task := s.task a.die a.num
    let queue := tget s.submitted a.die []
    ∃ r, exec (.issueCk p core) s = .next r ∧ r.arrivals = [] ∧
      (a.act = .ready → task.st = .armed → r.task a.die a.num = { task with st := .ready } ∧ tget r.submitted a.die [] = queue ++ [a.num]) ∧
      (a.act = .dec → task.count ≠ 0 → ¬ (task.st = .armed ∧ task.count = 1) →
        r.task a.die a.num = { task with count := task.count - 1 } ∧ r.submitted = s.submitted) ∧
      (a.act = .dec → task.st = .armed → task.count = 1 →
        r.task a.die a.num = { task with count := 0, st := .ready } ∧ tget r.submitted a.die [] = queue ++ [a.num]) ∧
      ((a.act = .ready ∧ task.st ≠ .armed) ∨ (a.act = .dec ∧ task.count = 0) → r.tasks = s.tasks ∧ r.submitted = s.submitted ∧
        tget r.misuse a.die 0 = min (tget s.misuse a.die 0 + 1) (2 ^ 64 - 1))) ∧
  (let va := s.srcA iss t (.launch o) o
   let sc := s.launchScope t va
   let y := ((s.begun iss).doRelease t sc).childLaunch (s.ctxKey t) (s.asterOf t) va
   Alone s iss (.launch o) o t → 64 ∣ va → s.releaseReady t sc = true → y.hole = false → s.Passes iss (.launch o) y)

/-- 10 R242 to R244: TRAP and BKPT take their traps: TREC0 to TREC7 hold the record, TREC3 the PC after the instruction, and the thread stands at TVEC in
supervisor mode. With DBGCTL bit 0 set, BKPT halts the gang instead and the thread stands after it. 08 R164, R166, R167, 13 R285: an access that is not
aligned takes trap code 7 with its address in TREC4; a local one below 0 or past the gang's span, or in a slot pinned for others, code 8; a local store or
atomic in the copy ring's area, code 6 cause 8. Nothing else happens. 05 R116, checks 6 to 8, for MAD, LD and SRED: a v code not below the squad's budget,
then a 64-bit operand of an odd code, then an instruction that would make its chain longer than eight, takes the illegal-instruction trap whatever its guard,
with no other effect. 10 R243, 19 R347: a trap raised in supervisor mode is a double trap: nothing is delivered, the context is faulted on its package with
the trap's code and cause, and a context fault goes to its other packages. -/
def Obligations.TrapsAreTaken : Prop :=
  (∀ (o : Ops) (s : State) (iss : Issue) (t : Nat),
    (Alone s iss (.trap o) o t → s.Quiet t →
      s.Interrupts iss (.trap o) t 14 0 (s.srcB iss t (.trap o) o.b % 2 ^ 32) 0 (iss.next (.trap o))) ∧
    (Alone s iss (.bkpt o) o t → s.Quiet t → (s.dbg t).toNat.testBit 0 = false → s.Interrupts iss (.bkpt o) t 15 0 0 0 (iss.next (.bkpt o))) ∧
    (∀ g x, Alone s iss (.bkpt o) o t → (s.core iss.core).gang = some g → s.gang g = some x → x.st = .running → (s.dbg t).toNat.testBit 0 = true →
      ∃ r, exec (.bkpt o) s = .next r ∧ (r.gang g).map (fun y => (y.st, y.halt, y.bkpt)) = some (.stopping, true, iss.pc) ∧
        (∀ c ∈ x.cores, (r.core c).stop = true) ∧ r.regs = s.regs ∧
        ((∀ c ∈ x.cores, ∀ j < 2, ∀ ch, ((s.core c).slot j).chain = some ch → t ∈ ch.members → c = iss.core ∧ j = iss.slot ∧ iss.again = false) →
          (r.thread t).pc = iss.next (.bkpt o)))) ∧
  (∀ (o : Ops) (s : State) (iss : Issue) (t : Nat), s.hole = false → s.Quiet t →
    let traps (i : Instr) (code cause data kind : Nat) : Prop := s.Interrupts iss i t code cause data kind (s.chainAt iss).head
    let apart (i : Instr) (size : Fmt) (kind : Nat) : Prop := Alone s iss i o t → (s.thread t).fresh →
      ¬ size.width / 8 ∣ s.globalAddr iss t i o → traps i 7 0 (s.globalAddr iss t i o) kind
    let near (i : Instr) (size : Fmt) (kind : Nat) (writes : Bool) : Prop := Alone s iss i o t →
      let a := s.localAddr iss t i o
      let data := (BitVec.ofInt 64 a).toNat
      let core := s.gangCore iss.core (a.toNat / 0x180000)
      (¬ ((size.width / 8 : Nat) : Int) ∣ a → traps i 7 0 data kind) ∧
      (((size.width / 8 : Nat) : Int) ∣ a → a < 0 ∨ core = none ∨ (∃ c, core = some c ∧ s.pinForeign c (a.toNat % 0x180000) (s.ctxKey t) = true) → traps i 8 0 data kind) ∧
      (∀ c, ((size.width / 8 : Nat) : Int) ∣ a → 0 ≤ a → isMarl iss.core = false → core = some c → s.pinForeign c (a.toNat % 0x180000) (s.ctxKey t) = false →
        writes = true → 0x17F800 ≤ a.toNat % 0x180000 → traps i 6 8 data kind)
    (∀ f : MemFn, apart (.ld o f) f.size 1 ∧ apart (.st o f) f.size 2 ∧ apart (.stRel o f) f.size 2 ∧ near (.ldl o f) f.size 1 false ∧ near (.stl o f) f.size 2 true) ∧
    (∀ f : AtomFn, apart (.atom o f) f.size 3 ∧ apart (.atoml o f) f.size 3 ∧ near (.atoms o f) f.size 3 true)) ∧
  (∀ (o : Ops) (s : State) (iss : Issue) (t : Nat), s.hole = false → s.Quiet t →
    s.issue = some iss → iss.threads = [t] → coreOf t = iss.core → (s.thread t).done = false → (s.thread t).lossPend = false →
    let ops := [o.d, o.a, bFld o.b, o.c]
    let low : Prop := ∀ x ∈ ops, ∀ r, x = .v r → r.toNat < (s.squad (squadOf t)).budget
    let odd (l : List Fld) : Prop := ∃ x ∈ l, (∃ r, x = .v r ∧ r.toNat % 2 = 1) ∨ ∃ r, x = .k r ∧ r.toNat % 2 = 1
    let traps (i : Instr) (cause : Nat) : Prop := s.Interrupts iss i t 1 cause 0 0 (s.chainAt iss).head
    let illegal (i : Instr) (pairs : List Fld) : Prop := (¬ low → traps i 6) ∧ (low → odd pairs → traps i 7) ∧
      (low → ¬ odd pairs → o.h.chain = true → 8 ≤ (s.chainAt iss).count → traps i 8)
    (∀ f, illegal (.mad o f) (if f.fmt.width = 64 then ops else [])) ∧
    (∀ f, illegal (.ld o f) (o.a :: if f.size.width = 64 then [o.d] else [])) ∧
    (∀ f, illegal (.sred o f) (if f.fmt.width = 64 then [o.d, o.a] else []))) ∧
  (∀ (o : Ops) (s : State) (iss : Issue) (t : Nat),
    let q := squadOf t
    Alone s iss (.trap o) o t → (s.thread t).supervisor = true →
    ∃ r, exec (.trap o) s = .next r ∧ (r.ctx (s.ctxKey t)).faulted = true ∧
      ((s.ctx (s.ctxKey t)).faulted = false → (r.ctx (s.ctxKey t)).faultCode = 14) ∧
      (r.squad q).trec = (s.squad q).trec ∧ (r.squad q).handling = (s.squad q).handling ∧ (r.thread t).run = .trapPending ∧
      (∀ p, p ≠ pkgOf (coreOf t) → p < 64 → (s.ctx (s.ctxKey t)).packages.testBit p = true → (p, (s.squad q).ctx, 14) ∈ r.faultMsgs) ∧ r.regs = s.regs)

/-- 10 R245: ERET in supervisor mode goes to TREC3 in user mode, and the thread leaves the handler; the squad's next trap is delivered in the next ck at the
earliest (01 R32). 10 R246, R247: in user mode ERET, SHOOTDN and CNTCFG, a SYSRD of a register that only supervisor mode reads and a SYSWR of one that only it
writes take the privilege trap and have no other effect. -/
def Obligations.TrapReturnAndPrivilege : Prop :=
  (∀ (o : Ops) (s : State) (iss : Issue) (t : Nat),
    let epc := (((s.squad (squadOf t)).trec[3]?).getD 0).toNat
    Alone s iss (.eret o) o t → (s.thread t).supervisor = true → 4 ∣ epc →
    s.Goes iss (.eret o) epc
      (((s.begun iss).modThread t fun th => { th with inHandler := false, supervisor := false }).modSquad (squadOf t) fun q =>
        { q with handling := q.handling &&& ~~~(BitVec.ofNat 64 (2 ^ laneOf t)), freeAt := (s.core iss.core).ck + 1 })) ∧
  (∀ (o : Ops) (s : State) (iss : Issue) (t : Nat),
    let traps (i : Instr) : Prop := Alone s iss i o t → s.Quiet t → s.Interrupts iss i t 13 0 0 0 (s.chainAt iss).head
    let n (i : Instr) := s.srcB iss t i o.b
    traps (.eret o) ∧ traps (.shootdn o) ∧ traps (.cntcfg o) ∧
    (n (.sysrd o) ∈ [0x010, 0x020, 0x021, 0x022, 0x023, 0x024, 0x025, 0x026, 0x027, 0x028, 0x02C, 0x02D, 0x02E, 0x02F, 0x040] → traps (.sysrd o)) ∧
    (n (.syswr o) ∈ [0x008, 0x009, 0x010, 0x020, 0x021, 0x022, 0x023, 0x024, 0x025, 0x026, 0x027, 0x028, 0x02C, 0x02D, 0x02E, 0x02F, 0x031, 0x032, 0x040] →
      traps (.syswr o)))

/-- 10 R247, R248: SYSRD gives a register's value, the 64-bit ones to a pair. 10 R247, R248: SYSWR writes the register it names and nothing else. -/
def Obligations.SystemRegisters : Prop :=
  (∀ (o : Ops) (s : State) (iss : Issue) (t : Nat),
    let th := s.thread t
    let q := s.squad (squadOf t)
    let ctx := s.ctx (s.ctxKey t)
    let n := s.srcB iss t (.sysrd o) o.b
    let narrow (m v : Nat) : Prop := n = m → s.Puts iss (.sysrd o) o 1 [t] (fun _ => v) (s.begun iss)
    let wide (m v : Nat) : Prop := n = m → pairOk q.budget o.d = true → s.Puts iss (.sysrd o) o 2 [t] (fun _ => v) (s.begun iss)
    Alone s iss (.sysrd o) o t →
    (narrow 0x000 (laneOf t + squadOf t % 32 * 64) ∧ narrow 0x001 (s.coreId (coreOf t)) ∧ wide 0x002 (s.clock (pkgOf (coreOf t))) ∧
     narrow 0x003 q.ctx ∧ narrow 0x004 q.budget ∧ narrow 0x008 (tget s.fmterr (coreOf t) 0).toNat ∧ narrow 0x009 (tget s.sclerr (coreOf t) 0).toNat ∧
     narrow 0x029 th.supervisor.toNat ∧ narrow 0x030 (if isMarl (coreOf t) then th.astsel else dieOf (coreOf t) % 8) ∧
     narrow 0x031 (tget s.asterErr (s.asterOf t) 0) ∧ wide 0x032 ctx.racecnt ∧ narrow 0x033 ctx.raceMode) ∧
    (th.supervisor = true →
      wide 0x010 (th.depth + th.rot * 2 ^ 8 + th.callDepth * 2 ^ 16) ∧ wide 0x028 ctx.tvec ∧ narrow 0x040 (s.dbg t).toNat ∧
      (∀ j < 8, wide (0x020 + j) ((q.trec[j]?).getD 0).toNat) ∧ (∀ j < 4, wide (0x02C + j) ((th.sscratch[j]?).getD 0).toNat))) ∧
  (∀ (o : Ops) (s : State) (iss : Issue) (t : Nat),
    let n := s.srcB iss t (.syswr o) o.b
    let a1 := s.readFld iss t o.a 1
    let a2 := s.readFld iss t o.a 2
    let x := s.begun iss
    let core := coreOf t
    let narrow (m : Nat) (y : State) : Prop := n = m → s.Passes iss (.syswr o) y
    let wide (m : Nat) (y : State) : Prop := n = m → pairOk (s.squad (squadOf t)).budget o.a = true → s.Passes iss (.syswr o) y
    Alone s iss (.syswr o) o t →
    (isMarl core = true → a1 < 8 → narrow 0x030 (x.modThread t fun th => { th with astsel := a1 })) ∧
    (isMarl core = false → narrow 0x030 x) ∧
    ((s.thread t).supervisor = true →
      narrow 0x008 { x with fmterr := tset s.fmterr core (BitVec.ofNat 32 a1) } ∧
      narrow 0x009 { x with sclerr := tset s.sclerr core (BitVec.ofNat 32 a1) } ∧
      narrow 0x031 { x with asterErr := tset s.asterErr (s.asterOf t) a1 } ∧
      narrow 0x040 (x.setDbg t (BitVec.ofNat 32 (a1 % 2))) ∧
      wide 0x023 (x.modSquad (squadOf t) fun q => { q with trec := q.trec.set 3 (BitVec.ofNat 64 a2) }) ∧
      (4 ∣ a2 → wide 0x028 (x.modCtx (s.ctxKey t) fun c => { c with tvec := a2 })) ∧
      wide 0x032 (x.modCtx (s.ctxKey t) fun c => { c with racecnt := a2 }) ∧
      (∀ j < 4, wide (0x02C + j) (x.modThread t fun th => { th with sscratch := th.sscratch.set j (BitVec.ofNat 64 a2) })) ∧
      (headerOk a2 = true → (∀ i, (s.thread t).depth ≤ i → i < a2 % 8 → ((s.thread t).lc i).ok = true) →
        wide 0x010 (x.modThread t fun th => { th with depth := a2 % 8, rot := a2 / 2 ^ 8 % 64, callDepth := a2 / 2 ^ 16 % 2 ^ 16 }))))

/-- 10 R249, R250: SHOOTDN in supervisor mode goes to every package of the domain and holds the thread, which goes on once all have carried it out; CNTCFG
configures a counter and CNTRD gives its count. -/
def Obligations.ShootdownAndCounters : Prop := ∀ (o : Ops) (s : State) (iss : Issue) (t : Nat),
  let base := s.pairAt iss t o.a 0
  let ctl := s.pairAt iss t o.a 2
  let log := match ctl / 2 ^ 6 % 4 with | 0 => 16 | 1 => 21 | _ => 30
  let a := s.srcA iss t (.cntcfg o) o
  let packages := (List.range 64).filter fun q => s.inDomain (pkgOf iss.core) q
  let b (i : Instr) := s.srcB iss t i o.b
  (Alone s iss (.shootdn o) o t → (s.thread t).supervisor = true → (s.thread t).phase = 0 → ctl / 2 ^ 33 = 0 → ctl / 2 ^ 6 % 4 ≠ 3 →
    (ctl.testBit 32 = true ∨ 2 ^ log ∣ base) →
    s.Stays iss (.shootdn o) (.blocked .again) (({ s.begun iss with
      nextId := s.nextId + 1
      shootdowns := tset s.shootdowns s.nextId
        { ctx := ctl % 64, all := ctl.testBit 32, base := base, size := (ctl / 2 ^ 8 % 2 ^ 24 + 1) * 2 ^ log, left := packages } }.castOut
            (pkgOf iss.core) (endSocket (homeAgent iss.core)) (.shootdown s.nextId) packages).modThread t fun th => { th with phase := 1, token := s.nextId })) ∧
  (Alone s iss (.shootdn o) o t → (s.thread t).supervisor = true → (s.thread t).phase = 1 → tget? s.shootdowns (s.thread t).token = none →
    s.Passes iss (.shootdn o) (s.begun iss)) ∧
  (Alone s iss (.cntcfg o) o t → (s.thread t).supervisor = true → b (.cntcfg o) ≤ 63 → a < 2 ^ 18 → 1 ≤ a % 2 ^ 16 → a % 2 ^ 16 ≤ 14 →
    s.Passes iss (.cntcfg o) { s.begun iss with
      evCfg := tset s.evCfg (iss.core * 64 + b (.cntcfg o)) (a % 2 ^ 16, a.testBit 16)
      evCount := if a.testBit 17 then tset s.evCount (iss.core * 64 + b (.cntcfg o)) 0 else s.evCount }) ∧
  (Alone s iss (.cntrd o) o t → b (.cntrd o) ≤ 63 →
    s.Puts iss (.cntrd o) o 2 [t] (fun _ => tget s.evCount (iss.core * 64 + b (.cntrd o)) 0) (s.begun iss))

/-- 09 R202, R204 to R214: a squad that gathers at a matrix instruction whose operands pass hands it to the matrix unit, last in the order of acceptance, with
the operands of its lowest guarded lane, and holds; with no guarded lane the instruction has no effect. -/
def Obligations.MatrixInstructionsQueue : Prop := ∀ (o : Ops) (f : MatFn) (isNew : Bool) (s : State) (iss : Issue) (q l : Nat),
  let a (i : Instr) := s.srcA iss l i o
  let b (i : Instr) := s.srcB iss l i o.b
  let c := iss.core
  let ctx := s.ctxKey l
  let off := f.offset.toNat
  let queues (i : Instr) (okay : Prop) (op : MatOp) : Prop := Together s iss i o q →
    (s.guarded iss o = [] → s.Passes iss i (s.begun iss)) ∧
    ((s.guarded iss o).head? = some l → okay → s.Stays iss i .hold
      (({ s.begun iss with nextId := s.nextId + 1 } : State).modCore c fun x => { x with mat := { x.mat with
        queue := x.mat.queue ++ [{ id := s.nextId, squad := q, len := i.length, op := op }] } }))
  queues (.mald o f)
    (32 ∣ off ∧ off + b (.mald o f) ≤ 0x800000 ∧ 0 < b (.mald o f) ∧ 32 ∣ b (.mald o f) ∧ 32 ∣ a (.mald o f) ∧
      s.overWindow c (a (.mald o f)) (b (.mald o f)) = false ∧ s.rangeTrap c ctx (a (.mald o f)) (b (.mald o f)) 1 false = none)
    (.mald (a (.mald o f)) off (b (.mald o f))) ∧
  queues (.mwld o f) (32 ∣ a (.mwld o f) + off ∧ a (.mwld o f) + off + imageBytes f.planes f.structure' ≤ 0x800000)
    (.mwld (a (.mwld o f) + off) f.planes f.structure') ∧
  queues (.mstrm o f)
    (let n := f.rows.toNat * rowPitch (MatUnit.nextStructure (s.core c).mat)
     0 < f.rows.toNat ∧ f.rows.toNat ≤ 256 ∧ 32 ∣ a (.mstrm o f) + off ∧ s.overWindow c (a (.mstrm o f) + off) n = false ∧
     s.rangeTrap c ctx (a (.mstrm o f) + off) n 1 false = none)
    (.mstrm f.acc.toNat (a (.mstrm o f) + off) f.rows.toNat f.fmt) ∧
  queues (.mdrn o f)
    (let n := f.rows.toNat * 256 * drainSize f.fmt
     let at' := a (.mdrn o f) + off
     0 < f.rows.toNat ∧ f.rows.toNat ≤ 256 ∧ 32 ∣ at' ∧ s.overWindow c at' n = false ∧ s.rangeTrap c ctx at' n 2 false = none ∧
     s.rangeTrap c ctx at' n 2 true = none ∧
     (f.bias = true → 32 ∣ b (.mdrn o f) ∧ s.overWindow c (b (.mdrn o f)) 1024 = false ∧ s.rangeTrap c ctx (b (.mdrn o f)) 1024 1 false = none))
    (.mdrn f.acc.toNat (a (.mdrn o f) + off) (b (.mdrn o f)) f.rows.toNat f.fmt f.bias f.relu) ∧
  queues (.macc o isNew f) True (.macc f.acc.toNat isNew) ∧ queues (.mzero o f) True (.mzero f.acc.toNat) ∧
  queues (.mqsc o) True .mqsc ∧ queues (.mwait o f) True (.mwait f.acc.toNat) ∧ queues (.mrmap o) True (.mrmap o)

/-- 09 R203 to R212: the matrix unit accepts the head of its order when its condition holds, then lets its squad go on: MACC maps its name to the lowest free
tile, MWLD occupies the shadow set, the others join the operations in flight. 09 R205, R208 to R211, 14 R288: the ends of matrix operations. MALD's bytes
stand in the Adobe layer, a shadow load's weights in the shadow set, a row's sums in its tile, MDRN's rows in the scratchpad; MACC.new and MZERO leave +0,
MACC.copy the old tile; the operation is no longer in flight. 09 R206, R208, 04 R98, 14 R288: a shadow load reads its image with the uncorrectable slice rows
replaced and counts them; a stream retires one row: every column's sums, block by block, join the row of the tile. -/
def Obligations.MatrixUnit : Prop :=
  (∀ (s : State) (p c : Nat) (e : MatEntry) (rest : List MatEntry),
    let k := coreKey p c
    let u := (s.core k).mat
    u.queue = e :: rest → (s.core k).stop = false →
    (u.accepts e.op = false → exec (.matrixAccept p c) s = .next s) ∧
    (u.accepts e.op = true → ∃ r, exec (.matrixAccept p c) s = .next r ∧ (r.core k).mat.queue = rest ∧ r.scratch = s.scratch ∧
      (∀ a src dst n fmt bias ub relu, e.op = .mald src dst n ∨ e.op = .mstrm a src n fmt ∨ e.op = .mzero a ∨ e.op = .mdrn a dst bias n fmt ub relu →
        ∃ x, (r.core k).mat.ops = u.ops ++ [x] ∧ x.id = e.id ∧ x.op = e.op) ∧
      (∀ off pl sp, e.op = .mwld off pl sp → (r.core k).mat.loading = some e.id ∧ (r.core k).mat.next = some (off, pl, sp)) ∧
      (∀ a isNew t, e.op = .macc a isNew → u.freeTile = some t → (r.core k).mat.map = u.map.set a t) ∧
      (∀ t ∈ s.squadThreads e.squad, (s.thread t).run = .hold → e.op ≠ .mqsc → (∀ a, e.op ≠ .mwait a) → (r.thread t).run = .ready))) ∧
  (∀ (s : State) (p c op : Nat) (e : MatEntry),
    let k := coreKey p c
    let u := (s.core k).mat
    let ends (i : Instr) (what : MatUnit → State → Prop) : Prop :=
      ∃ r, exec i s = .next r ∧ (∀ x ∈ (r.core k).mat.ops, x.id ≠ op) ∧ what (r.core k).mat r
    u.op op = some e →
    (∀ src dst n, e.op = .mald src dst n → (∀ x ∈ u.ops, x.id < op → ∀ a b m, x.op ≠ .mald a b m) →
      ends (.maldComplete p c op) fun v _ => ∀ i < n, tget? v.adobe (dst + i) = some (BitVec.ofNat 8 (s.localRead k (src + i) 1))) ∧
    (∀ isNew a, e.op = .macc a isNew → u.before op e.touched = false →
      ends (.maccComplete p c op) fun v _ => ∀ i < 65536, tget v.tiles (e.tile * 65536 + i) 0 =
        if isNew then 0 else tget u.tiles (e.old * 65536 + i) 0) ∧
    (∀ a, e.op = .mzero a → u.before op [e.tile] = false →
      ends (.mzeroComplete p c op) fun v _ => ∀ i < 65536, tget v.tiles (e.tile * 65536 + i) 0 = 0) ∧
    (∀ a src rows fmt, e.op = .mstrm a src rows fmt → e.rows = rows → ends (.mstrmComplete p c op) fun v _ => v.tiles = u.tiles) ∧
    (∀ a dst bias rows fmt ub relu, e.op = .mdrn a dst bias rows fmt ub relu → u.before op [e.tile] = false → ∃ r, exec (.mdrnComplete p c op) s = .next r ∧
      (∀ x ∈ (r.core k).mat.ops, x.id ≠ op) ∧
      (dst + rows * 256 * drainSize fmt ≤ scratchSize → s.gangCore k 0 = some k →
        ∀ j < rows * 256, r.scratchRead (scratchKey k (dst + j * drainSize fmt)) (drainSize fmt) =
          drainElem (tget u.tiles (e.tile * 65536 + j) 0).toNat (if ub then some (s.localRead k (bias + 4 * (j % 256)) 4) else none) relu fmt %
            256 ^ drainSize fmt))) ∧
  (∀ (s : State) (p c : Nat),
    let k := coreKey p c
    let u := (s.core k).mat
    (∀ id off pl sp (fixed bad : List Nat), u.loading = some id → u.next = some (off, pl, sp) → u.loaded = false →
      (∀ x ∈ u.ops, x.id < id → ∀ src dst m, x.op = .mald src dst m → rangesMeet dst m off (imageBytes pl sp) = false) →
      ∃ r, exec (.mwldShadowComplete p c fixed bad) s = .next r ∧
        (∃ w, ((r.core k).mat.shadow = w ∨ (r.core k).mat.active = w) ∧ w.planes = pl ∧ w.sp = sp ∧
          ∀ i < Planes.count pl * 8192, (i, if (off + i) / 32 ∈ bad ∧ (off + i) / 32 < off / 32 + imageBytes pl sp / 32 then (0xAA : Byte)
            else s.adobeByte k (off + i)) ∈ w.trits) ∧
        (r.core k).mat.uncorrectable = u.uncorrectable +
          (((List.range (imageBytes pl sp / 32)).map (· + off / 32)).filter fun x => bad.contains x).length) ∧
    (∀ op e a src rows fmt, u.op op = some e → e.op = .mstrm a src rows fmt → e.rows < rows → u.before op [e.tile] = false →
      ∃ r, exec (.mstrmRowRetire p c op) s = .next r ∧
        (∀ n < 256, tget (r.core k).mat.tiles (e.tile * 65536 + e.rows * 256 + n) 0 =
          let w := u.active
          let at' := src + e.rows * rowPitch w.sp
          BitVec.ofNat 32 ((List.range (Sparsity.blocks w.sp)).foldl (fun acc bt =>
            blockStep acc
              (w.partialSum n bt fun i => let b := s.localRead k at' (rowPitch w.sp) / 256 ^ i; if fmt = .s4 then (BitVec.ofNat 4 b).toInt else (BitVec.ofNat 8 b).toInt)
              (s.localRead k at' (rowPitch w.sp) / 256 ^ (Sparsity.blocks w.sp * 128 + 2 * bt) % 2 ^ 16)
              ((w.squares[bt * 2 + n / 128]?).getD 0).toNat) (tget u.tiles (e.tile * 65536 + e.rows * 256 + n) 0).toNat)) ∧
        (∀ j, ¬ (e.tile * 65536 + e.rows * 256 ≤ j ∧ j < e.tile * 65536 + e.rows * 256 + 256) → tget (r.core k).mat.tiles j 0 = tget u.tiles j 0) ∧
        (∃ y ∈ (r.core k).mat.ops, y.id = op ∧ y.rows = e.rows + 1)))

/-- 01 R19 to R23, 10 R248: in each ck a core's clock advances, CLOCK with it, and at most two groups are picked, at most one on a Marl core, beside the
threads that go on with an instruction that has issued; where issue has stopped for a quiesce point (19 R338), only those go on; registers and memory stay. In
a held package and on a lost die nothing advances (22 R385, 20 R362). 01 R21, 09 R221, 01 R32: an entry that has waited 1,024 ck ages; an entry's YIELD window
ends after its 32 ck; the oldest pending trap of a squad, ties to the lower PC, is delivered where no trap of the squad is in its handler or has left it in
this ck and issue has not stopped. -/
def Obligations.IssueOfACore : Prop :=
  (∀ (s : State) (p c : Nat),
    let k := coreKey p c
    let stands : Prop := s.held (pkgOf k) = true ∨ (isMarl k = false ∧ (dieOf k ∈ s.lost ∨ dieOf k ∈ s.dead))
    (stands → exec (.issueCk p c) s = .next s) ∧
    (¬ stands → ∃ r l, exec (.issueCk p c) s = .next r ∧ (r.core k).ck = (s.core k).ck + 1 ∧ r.clock (pkgOf k) = max (s.clock (pkgOf k)) ((s.core k).ck + 1) ∧
      r.picks = s.picks ++ l ∧ (∀ x ∈ l, x.core = k) ∧
      (let new := l.filter fun x => !x.again
       new.length ≤ 2 ∧ (isMarl k = true → new.length ≤ 1)) ∧
      ((s.core k).stop = true → ∀ x ∈ l, x.again = true ∧ ∀ t ∈ x.threads, (r.thread t).phase ≠ 0) ∧
      r.regs = s.regs ∧ r.mem = s.mem ∧ r.scratch = s.scratch ∧ r.copies = s.copies)) ∧
  (∀ (s : State) (p c pc squad : Nat),
    let k := coreKey p c
    let q := squadKey k squad
    let o := s.core (coreOfSquad q)
    (exec (.entryAged p c pc) s = .next (s.modCore k fun x => { x with entries := x.entries.map fun e =>
      { e with aged := e.aged || (e.pc = pc && decide (1024 ≤ e.wait)) } })) ∧
    (exec (.yieldWindowEnd p c pc) s = .next (s.modCore k fun x => { x with entries := x.entries.map fun e =>
      { e with yieldUntil := if e.pc = pc ∧ e.yieldUntil ≤ x.ck then 0 else e.yieldUntil } })) ∧
    ((s.squad q).handling ≠ 0 ∨ s.squadPicked q = true ∨ o.ck < (s.squad q).freeAt ∨ o.stop = true ∨ (s.squad q).trapped = [] →
      exec (.trapDelivery p c squad) s = .next s) ∧
    ((s.squad q).handling = 0 → s.squadPicked q = false → (s.squad q).freeAt ≤ o.ck → o.stop = false → (s.squad q).trapped ≠ [] → ∃ r y, exec (.trapDelivery p c squad) s = .next r ∧
      y ∈ (s.squad q).trapped ∧ (∀ x ∈ (s.squad q).trapped, y.ck < x.ck ∨ (y.ck = x.ck ∧ y.pc ≤ x.pc)) ∧
      (r.squad q).handling = y.mask ∧ (r.squad q).trapped = (s.squad q).trapped.erase y ∧
      ((r.squad q).trec[2]?) = some (BitVec.ofNat 64 y.pc) ∧ ((r.squad q).trec[3]?) = some (BitVec.ofNat 64 y.epc) ∧
      (∀ l < 64, y.mask.getLsbD l = true → (r.thread (threadKey q l)).supervisor = true ∧ (r.thread (threadKey q l)).inHandler = true ∧
        (r.thread (threadKey q l)).pc = (s.ctx (pkgOf (coreOfSquad q) * 64 + (s.squad q).ctx)).tvec) ∧ r.regs = s.regs))

/-- 03 R56, R59, R63: a registration at the home with no other owner in its way registers every word to the requester's agent, a word that it gains with its
release count, and sends the grant; a word of another owner costs it an invalidate notice to that owner first; one of an agent with a lower number at the home
is served before it, as is what it already waits for. (A line that comes to be registered finds room in its LLC slice of 48 MiB here, 00 R3.) 03 R56, R57: the
grant of a word to a Marl core that still owns it makes its caches hold the word owned: the bytes it had stored stand, the others come with the grant; the
registration is over. -/
def Obligations.RegistrationAndGrants : Prop :=
  (∀ (s : State) (id : Nat) (m : Msg), s.msg id = some m → m.kind = .reg → m.past = true → m.st = .accepted →
    s.hole = false → id < s.nextId → m.items ≠ [] → (∀ k, m.client ≠ .copy k) →
    (s.lowerAgent id m = true ∨ s.laneBlocked id m = true ∨ s.serving id = true → exec (.registrationRequest id) s = .next s) ∧
    (s.serving id = false → s.laneBlocked id m = false → s.lowerAgent id m = false → (∀ i ∈ m.items, ∀ e, s.ownerOf i.w = some e → e.agent = m.agent) →
      (∀ i ∈ m.items, (s.entries i.w).length < 4 ∧ i.w / 16 = (m.items.headD ⟨0, 0, 0⟩).w / 16 ∧
        (s.entries i.w = [] → s.occupied (llcLevel (i.w / 2 ^ 44)) i.w + 16 ≤ 12 * 2 ^ 20)) →
      ∃ r, exec (.registrationRequest id) s = .next r ∧
        (∀ i ∈ m.items, (r.ownerOf i.w).map (fun e => e.agent) = some m.agent ∧
          (s.ownerOf i.w = none → (r.ownerOf i.w).map (fun e => e.relcount) = some (s.releases m.agent))) ∧
        (∃ g, r.msg s.nextId = some g ∧ g.kind = .grant ∧ g.orig = id ∧ g.agent = m.agent ∧ g.items.map (·.w) = m.items.map (·.w)) ∧
        r.mem = s.mem ∧ r.regs = s.regs) ∧
    (∀ i e, s.serving id = false → s.laneBlocked id m = false → s.lowerAgent id m = false → (m.items.find? fun j => match s.ownerOf j.w with | some x => x.agent ≠ m.agent | none => false) = some i → s.ownerOf i.w = some e →
      ∃ r, exec (.registrationRequest id) s = .next r ∧
        (∃ n, r.msg s.nextId = some n ∧ n.kind = .inv ∧ n.dst = e.agent ∧ n.orig = id ∧ i ∈ n.items) ∧
        r.owners = s.owners ∧ r.copies = s.copies ∧ r.mem = s.mem ∧ r.regs = s.regs)) ∧
  (∀ (s : State) (id core : Nat) (g m : Msg) (i j : Item) (e : OwnerEntry) (c : Copy),
    s.msg id = some g → s.msg g.orig = some m → id ≠ g.orig → g.kind = .grant → g.st = .accepted → s.hole = false → isMarl core = true → numOf core < 352 →
    g.agent = marlAgent core → m.agent = g.agent → m.level = marlLevel core → m.held = [] → m.policy = .all → m.win = none →
    g.items = [i] → m.items = [j] → j.w = i.w → i.w < 2 ^ 50 → s.ownerOf i.w = some e → e.agent = g.agent → s.copy m.level i.w = some c → c.pend = true →
    c.win = none → c.pol = .all → s.buffered g.agent i.w = none → c.owned = false → (∀ y, (id, y) ∈ s.msgs → y = g) →
    ∃ r, exec (.registrationGrant id) s = .next r ∧
      (∃ d, r.copy m.level i.w = some d ∧ d.owned = true ∧ d.pend = false ∧ d.val = mergeWord c.mask c.val i.val) ∧
      r.performed id = true ∧ r.live g.orig = false ∧ r.mem = s.mem ∧ r.owners = s.owners ∧ r.regs = s.regs)

/-- 03 R58, R77, R81, 13 R282: a load at its home is answered with the latest values where no agent owns a word but those whose words it reads where it is
(its own, of a unit on its package the unit's die), and is forwarded to the owner where another does; it waits for a grant that is on its way. The last owner
that takes the load answers it, with all its words as they are then. 03 R58, R71, 08 R169, R177: an answer gives a load its bytes, or those that its own core
has stored in the word meanwhile, and an atomic's lane the value it fetched: one register, or a pair; no other register and no memory changes, and the request
is over. -/
def Obligations.LoadsAndAnswers : Prop :=
  (∀ (s : State) (id : Nat) (x : Msg), s.msg id = some x → s.hole = false →
    (x.kind = .load → x.st = .accepted → s.serving id = false → x.attr = 0 →
      ((∃ i ∈ x.items, s.granting i.w = true) → exec (.loadRequest id) s = .next s) ∧
      ((∀ i ∈ x.items, s.granting i.w = false ∧ ∀ e, s.ownerOf i.w = some e → x.reads e.agent = true) → x.got = [] → id < s.nextId →
        ∃ r, exec (.loadRequest id) s = .next r ∧
          r.msg id = some { x with st := .answered, away := !x.near x.dst, ans := x.items.map fun i => s.wordVal i.w } ∧
          r.mem = s.mem ∧ r.regs = s.regs ∧ r.owners = s.owners) ∧
      (∀ i e, x.items = [i] → s.granting i.w = false → s.ownerOf i.w = some e → x.reads e.agent = false → id < s.nextId →
        ∃ r n, exec (.loadRequest id) s = .next r ∧ r.msg s.nextId = some n ∧ n.kind = .fwd ∧ n.dst = e.agent ∧ n.orig = id ∧ n.items = [i] ∧
          r.mem = s.mem ∧ r.regs = s.regs ∧ r.owners = s.owners)) ∧
    (∀ y i, x.kind = .fwd → x.st = .accepted → x.items = [i] → x.orig ≠ id → s.msg x.orig = some y → y.st = .accepted → s.granting i.w = false →
      (∀ e, s.ownerOf i.w = some e → e.agent = x.agent) → s.releases x.agent ≠ x.rel → x.near x.dst = false → id < s.nextId → x.orig < s.nextId →
      (y.items = [i] → y.got = [] → (∀ n z, (n, z) ∈ s.msgs → n ≠ id → z.orig = x.orig → z.st = .finished) → ∃ r, exec (.forwardedLoad id) s = .next r ∧
        r.msg x.orig = some { y with st := .answered, away := !y.near x.dst, ans := [s.wordVal i.w] } ∧
        r.performed id = true ∧ r.regs = s.regs ∧ r.mem = s.mem) ∧
      (∀ n z, n ≠ id → n ≠ x.orig → n < s.nextId → s.msg n = some z → z.kind = .fwd → z.orig = x.orig → z.st = .accepted →
        (∀ j ∈ y.items, s.granting j.w = false) → ∃ r, exec (.forwardedLoad id) s = .next r ∧ r.msg x.orig = some y ∧
        r.performed id = true ∧ r.regs = s.regs ∧ r.mem = s.mem))) ∧
  (∀ (s : State) (id t a b : Nat) (x : Msg), s.msg id = some x → s.hole = false → x.st = .answered →
    x.away = false → x.negative = false → a ≠ b →
    let gets (i : Instr) (dest : List Nat) (v : Nat) : Prop := ∃ r, exec i s = .next r ∧ r.live id = false ∧ r.mem = s.mem ∧
      (dest = [a] → tget r.regs a 0 = BitVec.ofNat 32 v ∧ ∀ k, k ≠ a → tget r.regs k 0 = tget s.regs k 0) ∧
      (dest = [a, b] → tget r.regs a 0 = BitVec.ofNat 32 v ∧ tget r.regs b 0 = BitVec.ofNat 32 (v / 2 ^ 32) ∧
        ∀ k, k ≠ a → k ≠ b → tget r.regs k 0 = tget s.regs k 0)
    let there (w : Nat) : Prop := x.agent % 1024 < 8 → (s.copy (l2Level (agentDie x.agent)) w).all (fun c => !c.owned) = true
    (x.kind = .load → x.client = .thread t →
      (x.attr = 0 → ∀ i ∈ x.items, there i.w ∧ (s.copy x.level i.w).all (fun c => !c.owned && !c.pend) = true) → x.items.length = x.ans.length →
      gets (.loadAnswer id) x.dest (loaded x.size (bytesOf x.pa (x.size.width / 8) x.ans))) ∧
    (∀ i v c, x.kind = .load → x.client = .thread t → x.attr = 0 → x.items = [i] → x.ans = [v] → there i.w → s.copy x.level i.w = some c → c.pend = true →
      c.win = none → gets (.loadAnswer id) x.dest (loaded x.size (bytesOf x.pa (x.size.width / 8) [mergeWord c.mask c.val v]))) ∧
    (∀ l, x.kind = .atomic → x.lanes = [l] → gets (.atomicAnswer id) l.dest (joinWords x.ans)))

/-- 03 R59 to R61: an invalidate notice takes a word from its one owner, whose latest value goes to the home; the request that it serves waits for the
acknowledgement, which has its way to go as homes are passengers of their own (an agent that has released since the home's message was made up reports no
race); a revocation makes the owner write the word back, from its buffer, which holds the latest value until the home has it. 03 R59, R62: a write-back
changes the home only where its agent still owns the word; the acknowledgement ends it and frees its place. -/
def Obligations.NoticesAndWriteBacks : Prop :=
  (∀ (s : State) (id : Nat) (n : Msg) (i : Item) (e : OwnerEntry), s.msg id = some n → n.st = .accepted →
    n.items = [i] → s.granting i.w = false → s.entries i.w = [e] → e.mask.testBit (i.w % 16) = true → e.agent = n.agent → s.releases n.agent ≠ n.rel →
    s.hole = false → s.Wf → inRam (4 * i.w) = true →
    (∀ x, n.kind = .inv → n.near n.dst = false → n.orig ≠ id → s.msg n.orig = some x → x.kind = .reg → x.st = .accepted → x.items = [i] → x.agent ≠ n.agent →
      (∀ k z, (k, z) ∈ s.msgs → k ≠ id → z.orig = n.orig → z.st = .finished) → n.orig < s.nextId → id < s.nextId →
      ∃ r, exec (.invalidateNotice id) s = .next r ∧ r.homeWord i.w = s.wordVal i.w ∧
        r.ownerOf i.w = none ∧ (∀ l ∈ agentLevels n.agent, (∀ c, s.copy l i.w = some c → c.pend = false) → r.copy l i.w = none) ∧
        r.msg n.orig = some x ∧ r.serving n.orig = true ∧ r.performed id = true ∧ r.regs = s.regs) ∧
    (n.kind = .rev → n.near n.dst = false → id < s.nextId → s.buffered n.agent i.w = none → ∃ r z, exec (.revocation id) s = .next r ∧
        r.msg s.nextId = some z ∧ z.kind = .wb ∧ z.agent = n.agent ∧ z.orig = n.orig ∧ z.items = [{ i with bm := 15, val := s.wordVal i.w }] ∧
        r.wordVal i.w = s.wordVal i.w ∧ r.mem = s.mem ∧ r.owners = s.owners ∧ r.performed id = true ∧ r.regs = s.regs)) ∧
  (∀ (s : State) (id : Nat) (x : Msg) (i : Item), s.msg id = some x → x.kind = .wb → x.items = [i] → s.hole = false →
    s.Wf → inRam (4 * i.w) = true →
    (∀ e, x.st = .accepted → s.ownerOf i.w = some e → e.agent = x.agent → ∃ r, exec (.writeBack id) s = .next r ∧ r.homeWord i.w = s.wordVal i.w ∧
      (r.msg id).map (·.st) = some .answered ∧ (s.entries i.w = [e] → r.ownerOf i.w = none) ∧ (∀ a, a / 4 ≠ i.w → memGet r.mem a = memGet s.mem a) ∧ r.regs = s.regs) ∧
    (x.st = .accepted → (∀ e, s.ownerOf i.w = some e → e.agent ≠ x.agent) → ∃ r, exec (.writeBack id) s = .next r ∧
      r.msg id = some { x with st := .answered, away := !x.near x.dst } ∧ r.mem = s.mem ∧ r.owners = s.owners ∧ r.copies = s.copies ∧ r.regs = s.regs) ∧
    (x.st = .answered → x.away = false → ∃ r, exec (.writeBackAck id) s = .next r ∧ r.live id = false ∧ r.mem = s.mem ∧ r.regs = s.regs ∧ r.owners = s.owners))

/-- 03 R71, R81, R52, 08 R176: an atomic and a write performed at the home of words that nobody owns: the home holds the new value, or the bytes that the
write names, and the atomic's answer holds the old value. 03 R59, R61: for a line that leaves the LLC every owner of a word of it is sent a revocation that
carries no verdict (its words go home with the write-back that answers it, 03 R60); an owned word that leaves an L1 is owned by the L2 with the same value,
one that leaves the L2 is written back, and a valid copy is dropped. -/
def Obligations.HomeWritesAndEvictions : Prop :=
  (∀ (s : State) (id : Nat) (x : Msg) (i : Item), s.msg id = some x → x.st = .accepted → x.items = [i] →
    s.hole = false → s.Wf → inRam (4 * i.w) = true → s.laneBlocked id x = false →
    (∀ l, x.kind = .atomic → x.attr = 0 → s.serving id = false → s.ownerOf i.w = none → x.lanes = [l] → x.size.width = 32 →
      ∃ r, exec (.homeAtomic id) s = .next r ∧
        r.homeWord i.w = BitVec.ofNat 32 (atomValue x.op x.size (s.homeWord i.w).toNat l.c l.cmp) ∧
        (r.msg id).map (fun y => (y.st, y.ans)) = some (.answered, [s.homeWord i.w]) ∧
        (∀ a, a / 4 ≠ i.w → memGet r.mem a = memGet s.mem a) ∧ r.regs = s.regs) ∧
    (x.kind = .remote → x.attr = 3 → x.pa / 4 = i.w → inRam x.pa = true →
      ∃ r, exec (.remoteWrite id) s = .next r ∧
        (∀ b < 4, memGet r.mem (4 * i.w + b) = if i.bm.testBit b then i.val.extractLsb' (8 * b) 8 else memGet s.mem (4 * i.w + b)) ∧
        (∀ a, a / 4 ≠ i.w → memGet r.mem a = memGet s.mem a) ∧ r.performed id = true ∧ r.regs = s.regs)) ∧
  (∀ (s : State), s.hole = false →
    (∀ line, (∀ j < 16, s.wordMoving (line * 16 + j) = false) → ∃ r, exec (.llcEvict line) s = .next r ∧
      (∀ e ∈ s.entries (16 * line), ∃ k n, s.nextId ≤ k ∧ r.msg k = some n ∧ n.kind = .rev ∧ n.quiet = true ∧ n.dst = e.agent ∧
        n.items.map (·.w) = ((List.range 16).filter fun j => e.mask.testBit j).map (line * 16 + ·)) ∧
      r.owners = s.owners ∧ r.copies = s.copies ∧ r.mem = s.mem ∧ r.regs = s.regs) ∧
    (∀ line, (∃ j < 16, s.wordMoving (line * 16 + j) = true) → exec (.llcEvict line) s = .next s) ∧
    (∀ cluster w c, cluster < 4096 → w < 2 ^ 50 → s.copy cluster w = some c → c.owned = true → tget? s.pinned (copyKey (cluster / 8) w) = none → ∃ r d, exec (.levelEvict cluster w) s = .next r ∧
      r.copy cluster w = none ∧ r.copy (4096 + cluster / 8) w = some d ∧ d.owned = true ∧ d.holder = 8 ∧ d.val = s.copyVal c ∧ r.regs = s.regs ∧ r.mem = s.mem) ∧
    (∀ die w c, die < 4096 → w < 2 ^ 50 → s.copy (4096 + die) w = some c → c.owned = true → c.holder = 8 → s.registering (dieAgent die) w = false →
      ∃ r n, exec (.levelEvict (4096 + die) w) s = .next r ∧ r.copy (4096 + die) w = none ∧ r.msg s.nextId = some n ∧ n.kind = .wb ∧ n.agent = dieAgent die ∧
        n.items = [{ w := w, val := c.val }] ∧ r.regs = s.regs ∧ r.mem = s.mem) ∧
    (∀ level w c, level < 4096 ∨ 8192 ≤ level ∧ level < 16384 → w < 2 ^ 50 → s.copy level w = some c → c.owned = false → c.pend = false →
      ∃ r, exec (.levelEvict level w) s = .next r ∧ r.copy level w = none ∧ r.regs = s.regs ∧ r.mem = s.mem))

/-- 10 R233, R234, R236, 15 R291: the head of a unit's start queue starts; a triggered operation whose work has ended is DONE, with the release count of its
unit raised and the raise of its done counter sent; one that met an error is FAILED with its cause, AERRCNT rises and nothing is raised for it; a signal is an
update of a counter that the poster is granted, applied when the ck ends, and is rejected for another. -/
def Obligations.TriggeredOperations : Prop := ∀ (s : State) (p d n : Nat), s.hole = false →
  let die := p * 8 + d
  let x := s.aslot die n
  (∀ rest, tget s.startQueue die [] = n :: rest → s.inFlight die < 256 → (tget s.startCk die (0, 0)).1 ≠ s.clock p → s.rests p = false →
    (({ s with startQueue := tset s.startQueue die rest, startCk := tset s.startCk die (s.clock p, 1) } : State).startSlot die n).hole = false →
    n < 8192 → s.asterMoving die (p * 64 + x.ctx) x.src x.reads = false → ∃ r, exec (.trigOpStart p d) s = .next r ∧ tget r.startQueue die [] = rest ∧ (r.aslot die n).started = true) ∧
  (x.st = .fired → x.started = true → x.failing = 0 → s.slotQuiet x = true →
    (x.kind = .send ∨ x.kind = .fetch ∨ x.kind = .task ∨ ((x.kind = .sendsig ∨ x.kind = .red) ∧ x.signalled = true) ∨ (x.kind = .copy ∧ x.copyEnd = some 0)) →
    let y := (s.setAslot die n { x with st := .done, msgs := [] }).bumpRelease (asterAgent die)
    exec (.trigOpComplete p d n) s = .next (if x.cen = true then y.arrives { ck := s.clock p, die := die, num := x.done, cls := 2, key := n, act := .add 1 } else y)) ∧
  (x.st = .fired → x.started = true → x.failing ≠ 0 → x.kind ≠ .copy → s.slotQuiet x = true →
    let y : AsterSlot := { x with st := .failed, cause := x.failing, msgs := [], value := if x.failing = 5 then x.value / 8 * 8 else x.value }
    exec (.trigOpFail p d n x.failing) s = .next { (s.setAslot die n y) with asterErr := tset s.asterErr die (min (tget s.asterErr die 0 + 1) (2 ^ 32 - 1)) }) ∧
  (∀ id m i, s.msg id = some m → m.kind = .signal → m.st = .accepted → m.dst = p * 1024 + 168 + d → d < 8 → m.items = [i] →
    (∀ a ∈ s.arrivals, a.msg ≠ some id) →
    let granted : Prop := s.hasCounter (p * 64 + m.ctx % 64) die m.pa = true ∧
      (m.agent / 1024 = p ∨ (s.ctx (p * 64 + m.ctx % 64)).packages.testBit (s.pkgNum (m.agent / 1024)) = true) ∧ s.lost.contains die = false
    (granted → exec (.signal id) s =
      .next (s.arrives { ck := s.clock p, die := die, num := m.pa, cls := 3, key := m.agent, act := .add i.val.toNat, msg := some id })) ∧
    (∀ e j, ¬ granted → m.client = .aster e j → (s.aslot e j).failing = 0 → ∃ r, exec (.signal id) s = .next r ∧
      (r.aslot e j).failing = 4 ∧ r.counters = s.counters ∧ r.performed id = true))

/-- 19 R324 to R345: a command at the head of its queue is taken by its kind: the head index advances, the command has its effect, its status entry is
written. 19 R326, R327, R334, 12 R265 to R268, R271: what a launch record's 64 bytes r may not hold, and the error and detail of each; else the launch that
they describe. The order of the checks is the model's (logs 49, 92), as is error 8 for a gang of more than four cores. -/
def Obligations.CommandsAreTaken : Prop :=
  (∀ (s : State) (p j i a r die : Nat), s.nextCommand p j = some (i, a, r, die) →
    let x := s.homePut (s.queueDesc p j + 12) 4 ((i + 1) % 2 ^ 32)
    let k := p * 64 + bits r 13 8
    let ends (what : Instr) (y : State) : Prop := y.hole = false → exec what s = .next y
    (r % 256 = 0 ∨ 9 ≤ r % 256 → ends (.launchCommand p j) (x.statusPut p j i 4 1 0)) ∧
    (∀ y e, r % 256 = 1 → x.parseLaunch die a r (.queue j i) = (y, .inr e) → ends (.launchCommand p j) (y.statusPut p j i 4 e.1 e.2)) ∧
    (∀ y l, r % 256 = 1 → x.parseLaunch die a r (.queue j i) = (y, .inl l) → ends (.launchCommand p j) (y.takeLaunch l)) ∧
    (∀ y e, r % 256 = 2 → x.parseMarl die a r (.queue j i) = (y, .inr e) → ends (.mstart p j) (y.statusPut p j i 4 e.1 e.2)) ∧
    (∀ y l, r % 256 = 2 → x.parseMarl die a r (.queue j i) = (y, .inl l) → ends (.mstart p j) (y.takeLaunch l)) ∧
    (r % 256 = 3 → bits r 63 14 = 0 → bits r 511 128 = 0 → bits r 127 64 < 2 ^ 46 → 64 ∣ bits r 127 64 →
      let d := x.physRead (p * 2 ^ 46 + bits r 127 64) 128
      (x.createFails p (bits r 13 8) d = true → ends (.ctxcreate p j) (x.statusPut p j i 4 6 0)) ∧
      (x.createFails p (bits r 13 8) d = false → ends (.ctxcreate p j) (((x.createCtx p (bits r 13 8) d).putStatus k).statusPut p j i 3 0 0))) ∧
    ((∀ c ∈ s.ctxs, c.1 / 64 = p → (c.2.destroying.map (·.1)) ≠ some j) → r % 256 = 4 → bits r 511 14 = 0 →
      (tget? x.ctxs k = none → ends (.ctxdestroy p j) (x.statusPut p j i 4 5 0)) ∧
      (∀ c, tget? x.ctxs k = some c → c.destroying = none →
        let y := (x.modCtx k fun c => { c with destroying := some (j, i) }).stopGangs k 9
        ends (.ctxdestroy p j) (if y.destroyed k = true then (y.dropCtx k).statusPut p j i 3 0 0 else y.statusPut p j i 1 0 0))) ∧
    (r % 256 = 5 → bits r 63 14 = 0 → bits r 511 80 = 0 → 0 < bits r 79 64 → bits r 79 64 < 4096 →
      (x.ctxLive k = false → ends (.toksig p j) (x.statusPut p j i 4 5 0)) ∧
      (x.ctxLive k = true →
        let f (c : Ctx) : Ctx :=
          { c with tokens := tset c.tokens (bits r 79 64) [hostPlace], tokenScope := tdel c.tokenScope (bits r 79 64), tokenPend := tdel c.tokenPend (bits r 79 64) }
        ends (.toksig p j) ((x.modCtx k f).statusPut p j i 3 0 0))) ∧
    (let d := p * 8 + bits r 18 16
     let t := bits r 47 32
     r % 256 = 6 → bits r 15 14 = 0 → bits r 31 19 = 0 → t < 4096 → bits r 511 128 = 0 → x.ctxLive k = true → 64 ∣ bits r 127 64 →
      x.hasTask k d t = true → (x.task d t).st = .free →
      ends (.taskarm p j) ((x.setTask d t { st := .armed, count := bits r 63 48, record := bits r 127 64, ctx := bits r 13 8 }).statusPut p j i 3 0 0)) ∧
    (∀ id g, bits r 63 14 = 0 → bits r 511 160 = 0 → x.ctxLive k = true → x.namedGang k (bits r 127 64) (bits r 159 128) = some (id, g) →
      (r % 256 = 7 → g.haltCmd = none → g.st = .running → ends (.halt p j) ((x.stopGang id fun y => { y with halt := true, haltCmd := some (j, i) }).statusPut p j i 1 0 0)) ∧
      (r % 256 = 7 → g.haltCmd = none → g.st = .stopping → ends (.halt p j) ((x.setGang id { g with halt := true, haltCmd := some (j, i) }).statusPut p j i 1 0 0)) ∧
      (r % 256 = 7 → g.haltCmd ≠ none → ends (.halt p j) (x.statusPut p j i 4 11 0)) ∧
      (∀ l n, r % 256 = 8 → g.st = .halted → x.launch g.launch = some l → g.record = some n → x.recordFine l g n = true →
        ends (.resume p j) (((x.setGang id { g with st := .suspended, since := x.clock p }).homePut (x.gangRecord k n + 13) 1 1).statusPut p j i 3 0 0)))) ∧
  (∀ (s : State) (die addr r : Nat) (src : Source),
    let p := die / 8
    let k := p * 64 + bits r 31 26
    let n := bits r 22 20 + 1
    let squads (i : Nat) : Nat := bits r (37 + 8 * i) (32 + 8 * i)
    let budget (i : Nat) : Nat := 32 * 2 ^ bits r (39 + 8 * i) (38 + 8 * i)
    let S := squads 0 + squads 1 + squads 2 + squads 3
    let parses (y : State) (z : Launch ⊕ (Nat × Nat)) : Prop := s.parseLaunch die addr r src = (y, z)
    let read (y : State) (va m : Nat) := y.virtRead k [2 ^ 21 + die] false va m
    let kind : Prop := bits r 7 0 = 1 ∧ bits r 15 8 = 0 ∧ bits r 447 432 = 0 ∧ bits r 431 416 < 4096 ∧ ∀ i < 4, bits r (463 + 16 * i) (448 + 16 * i) < 4096
    let even : Prop := 16 ∣ bits r 319 256 ∧ 16 ∣ bits r 383 320 ∧ 16 ∣ bits r 415 384 ∧ 16 ≤ bits r 415 384 ∧ 4 ∣ bits r 127 64
    let roles : Prop := (∀ i < 4, squads i ≤ 32) ∧ 0 < S ∧ S ≤ 32
    (¬ kind → parses s (.inr (1, 0))) ∧
    (kind → s.ctxLive k = false → parses s (.inr (5, 0))) ∧
    (kind → s.ctxLive k = true → 11 < bits r 19 16 → parses s (.inr (3, 0))) ∧
    (kind → s.ctxLive k = true → bits r 19 16 ≤ 11 → ¬ even → parses s (.inr (7, 0))) ∧
    (kind → s.ctxLive k = true → bits r 19 16 ≤ 11 → even → ¬ roles → parses s (.inr (3, 0))) ∧
    (kind → s.ctxLive k = true → bits r 19 16 ≤ 11 → even → roles → ¬ 16 ∣ bits r 191 128 → parses s (.inr (7, 0))) ∧
    (kind → s.ctxLive k = true → bits r 19 16 ≤ 11 → even → roles → 16 ∣ bits r 191 128 →
      (∀ y c, read s (bits r 191 128) 80 = (y, .inr c) → parses y (.inr (13, c))) ∧
      (∀ y tb, read s (bits r 191 128) 80 = (y, .inl tb) →
        let ls := (List.range n).map fun j => bits tb (64 * j + 63) (64 * j)
        let at' (j : Nat) : Nat := bits tb (64 * j + 63) (64 * j)
        let dom (e : Nat) : Nat := bits e 7 4
        let scope (e : Nat) : Nat := bits e 3 2
        let among (d : Nat) : List Nat := ls.filter fun e => dom e = d
        let size (d : Nat) : Nat := ((among d).map fun e => bits e 63 32).prod
        let good : Prop :=
          (∀ j < n, bits (at' j) 31 8 = 0 ∧ bits (at' j) 1 0 = 0 ∧ dom (at' j) ≤ 6 ∧ (if dom (at' j) ≤ 3 then 0 else dom (at' j) - 3) ≤ scope (at' j) ∧
            (0 < j → dom (at' (j - 1)) ≤ dom (at' j) ∧ scope (at' (j - 1)) ≤ scope (at' j))) ∧
          dom (at' 0) = 0 ∧ size 0 = 64 ∧ size 1 = S ∧ (among 2).length = 1 ∧ (size 2 = 1 ∨ size 2 = 2 ∨ 4 ≤ size 2) ∧ (among 3).length = 1 ∧
          (among 5).length ≤ 1 ∧ (among 6).length ≤ 1 ∧ (among 6 ≠ [] → dom (at' (n - 1)) = 6 ∧ bits (at' (n - 1)) 63 32 = 1) ∧
          (among 5 ≠ [] → if among 6 = [] then size 5 = 1 else size 5 ≤ y.hreg p 0x2118)
        let sys : Prop := dom (at' (n - 1)) = 6
        let there : Prop := sys → (y.ctx k).packages.testBit (y.pkgNum p) = true
        let fits : Prop := size 2 ≤ 4 ∧ squads 0 * budget 0 + squads 1 * budget 1 + squads 2 * budget 2 + squads 3 * budget 3 ≤ 1024
        (bits tb 511 (64 * n) ≠ 0 → parses y (.inr (2, n))) ∧
        (bits tb 511 (64 * n) = 0 → ¬ good → ∃ j < n, parses y (.inr (2, j))) ∧
        (bits tb 511 (64 * n) = 0 → good → ¬ there → parses y (.inr (5, 0))) ∧
        (bits tb 511 (64 * n) = 0 → good → there → ¬ fits → parses y (.inr (8, 0))) ∧
        (bits tb 511 (64 * n) = 0 → good → there → fits → r.testBit 23 = false →
          (∀ z c, read y (bits r 127 64) 4 = (z, .inr c) → parses z (.inr (13, c))) ∧
          (∀ z v, read y (bits r 127 64) 4 = (z, .inl v) → ∃ l, parses z (.inl l) ∧ l.pkg = p ∧ l.ctx = bits r 31 26 ∧ l.die = die ∧ l.addr = addr ∧ l.source = src ∧ l.body = r ∧
            l.levels = ls ∧ l.base = bits r 127 64 ∧ l.native = none ∧ l.next = 0 ∧ l.st = .taken ∧ (∀ i < 4, l.entries[i]? = some (bits tb (543 + 32 * i) (512 + 32 * i))) ∧
            (¬ sys → l.index = 0) ∧ (sys → l.index = ((List.range (z.pkgNum p)).filter fun i => (y.ctx k).packages.testBit i).length))))))

/-- 19 R333, R335: in a ck of its launch logic a die places the first of the gangs that want to run, in order, that has a place, whether or not its producers'
writes are acknowledged: the next gang of its launch stands on those cores, and the launch is dispatched with its last gang. The gang's cores issue once those
writes are acknowledged. 19 R343, R333: the first gang that has a place is a suspended one: it runs again on that place from its record: the registers, the
squads, the bound windows, EMPTY, and the threads with their PC, mode and predicates. 19 R337: a gang that has no place pre-empts: the victims are running
gangs of a lower priority that have run at least their quantum, of which 0xFFFF never ends; the fewest that free a place, of the lowest priority, go to their
quiesce point, the others go on; without such a place nobody does. 19 R338, R344, R347: a gang at its quiesce point whose windows hold no owned words is saved
and leaves its cores: suspended, or halted where a HALT asked for it. -/
def Obligations.GangsRunAndAreSaved : Prop :=
  (∀ (s : State) (p d : Nat), s.takes p = true → d < 8 → s.lost.contains (p * 8 + d) = false →
    s.dead.contains (p * 8 + d) = false → tget s.submitted (p * 8 + d) [] = [] →
    let die := p * 8 + d
    let b := ({ s with submitted := tset s.submitted die [] } : State).beginGangs die
    let x : State := { b with logicCk := tset b.logicCk die (tget b.logicCk die 0 + 1) }
    (x.wants die = [] → x.hole = false → exec (.launchLogicCk p d) s = .next x) ∧
    (∀ prio id cs l, (x.wants die).findSome? (fun w => (x.placeFor die w.2).map fun cs => (w, cs)) = some ((prio, .start id), cs) → x.launch id = some l →
      ((x.markWaiting die (x.wants die)).dispatchGang id l die cs).hole = false →
      ∃ r g, exec (.launchLogicCk p d) s = .next r ∧ r.gang s.nextId = some g ∧ g.launch = id ∧ g.st = .running ∧ g.cores = cs ∧ g.index = l.linear l.next ∧
        (∀ k ∈ cs, (r.core k).gang = some s.nextId) ∧ (∀ k ∈ cs, (r.core k).stop = g.waits.isSome) ∧
        (r.launch id).map (fun y => (y.next, y.st)) = some (l.next + 1, if l.next + 1 = l.gangs then .dispatched else .taken))) ∧
  (∀ (s : State) (p d : Nat), s.takes p = true → d < 8 → s.lost.contains (p * 8 + d) = false →
    s.dead.contains (p * 8 + d) = false → tget s.submitted (p * 8 + d) [] = [] →
    let die := p * 8 + d
    let b := ({ s with submitted := tset s.submitted die [] } : State).beginGangs die
    let x : State := { b with logicCk := tset b.logicCk die (tget b.logicCk die 0 + 1) }
    ∀ prio id cs g l i, (x.wants die).findSome? (fun w => (x.placeFor die w.2).map fun cs => (w, cs)) = some ((prio, .resume id), cs) → x.gang id = some g →
      x.launch g.launch = some l → g.record = some i → l.marl = false → (x.resumeGang id cs).hole = false →
      let rec' := x.gangRecord l.ctxKey i
      (∀ w, rec' < 4 * w + 4 → 4 * w < rec' + 0x3001000 → x.ownerOf w = none) →
      ∃ r, exec (.launchLogicCk p d) s = .next r ∧ (r.gang id).map (fun y => (y.st, y.cores, y.record)) = some (.running, cs, none) ∧
        ∀ w k, cs[w]? = some k →
          let pa := rec' + 0x1000 + w * 0xC00000
          (r.core k).gang = some id ∧ (r.core k).wg = w ∧ (r.core k).stop = false ∧
          (∀ j < 32, let o := pa + 0x100 + 32 * j
            let y := r.window k j
            y.st = (if x.physRead (o + 16) 1 = 0 then .unbound else .empty) ∧ y.base = x.physRead o 8 ∧ y.off = x.physRead (o + 8) 4 ∧ y.size = x.physRead (o + 12) 4) ∧
          (∀ j < 65536, tget r.regs (k * 65536 + j) 0 = BitVec.ofNat 32 (x.physRead (pa + 0x86000 + 4 * j) 4)) ∧
          (∀ q < 32, x.physRead (pa + 0x1000 + 0x200 * q + 324) 4 = 1 →
            let y := r.squad (squadKey k q)
            let u := x.physRead (pa + 0x1000 + 0x200 * q + 320) 4
            y.budget = 32 * 2 ^ bits u 11 10 ∧ y.base = bits u 9 0 ∧ y.role = bits u 13 12 ∧ y.ctx = l.ctx ∧
            (∀ j < 64, tget y.k j 0 = BitVec.ofNat 32 (x.physRead (pa + 0x1000 + 0x200 * q + 4 * j) 4)) ∧
            ∀ lane < 64, let t := pa + 0x6000 + 0x100 * (64 * q + lane)
              let mode := x.physRead (t + 8) 1
              mode = 1 ∨ mode = 2 → let th := r.thread (threadKey (squadKey k q) lane)
                th.run = .ready ∧ th.pc = x.physRead t 8 ∧ th.supervisor = decide (mode = 2) ∧ th.preds = BitVec.ofNat 16 (x.physRead (t + 10) 2 / 2 * 2) ∧
                th.sealed = x.physRead (t + 12) 2)) ∧
  (∀ (s : State) (p d : Nat), s.takes p = true → d < 8 → s.lost.contains (p * 8 + d) = false →
    s.dead.contains (p * 8 + d) = false → tget s.submitted (p * 8 + d) [] = [] →
    let die := p * 8 + d
    let b := ({ s with submitted := tset s.submitted die [] } : State).beginGangs die
    let x : State := { b with logicCk := tset b.logicCk die (tget b.logicCk die 0 + 1) }
    ∀ prio w l, x.wants die = [(prio, w)] → x.launchOf w = some l → x.fit l die = none → x.hole = false →
      let leaving (g : Nat) : Bool := match x.gang g with | some y => y.st = .stopping | none => true
      let held (cs : List Nat) : List Nat := (x.blockers l cs).filter fun g => !leaving g
      let prioOf (g : Nat) : Nat := ((x.gang g).bind fun y => x.launch y.launch).elim 0 fun z => bits z.body 19 16
      let victim (g : Nat) : Prop := ∃ y z, x.gang g = some y ∧ x.launch y.launch = some z ∧ y.st = .running ∧ bits z.body 19 16 < prio ∧
        let quantum := x.hreg z.pkg (0x4000 + 64 * (y.die % 8) + 4 * bits z.body 19 16)
        quantum ≠ 0xFFFF ∧ y.since + 1024 * quantum ≤ x.clock z.pkg
      ∃ r, exec (.launchLogicCk p d) s = .next r ∧
        ((∀ cs ∈ l.places die, ∃ g ∈ held cs, ¬ victim g) → r.gangs = x.gangs ∧ r.cores = x.cores) ∧
        ((∃ cs ∈ l.places die, ∀ g ∈ held cs, victim g) → ∃ ds ∈ l.places die,
          (∀ g ∈ held ds, victim g ∧ (r.gang g).map (·.st) = some .stopping) ∧ (∀ g, g ∉ held ds → r.gang g = x.gang g) ∧
          ∀ cs ∈ l.places die, (∀ g ∈ held cs, victim g) → (held ds).length ≤ (held cs).length ∧
            ((held ds).length = (held cs).length → ∀ a ∈ held ds, ∃ c ∈ held cs, prioOf a ≤ prioOf c))) ∧
  (∀ (s : State) (id i : Nat) (g : Gang) (l : Launch), s.gang id = some g → s.launch g.launch = some l → s.hole = false →
    (g.st ≠ .stopping ∨ s.gangQuiet g = false → exec (.quiescePoint id) s = .next s) ∧
    (g.st = .stopping → s.gangQuiet g = true → s.toDrain g = [] → s.freeRecord l.ctxKey = some i → g.doom = 0 → (s.saveGang id g l (some i)).hole = false →
      ∃ r, exec (.quiescePoint id) s = .next r ∧
        (r.gang id).map (fun x => (x.st, x.record)) = some (if g.halt then .halted else .suspended, some i) ∧ ∀ k ∈ g.cores, (r.core k).gang ≠ some id) ∧
    (g.st = .stopping → s.gangQuiet g = true → s.toDrain g = [] → g.doom ≠ 0 → (s.saveGang id g l (s.freeRecord l.ctxKey)).hole = false →
      ∃ r, exec (.quiescePoint id) s = .next r ∧
        (r.gang id).map (fun x => (x.st, x.record)) = some (.ended, s.freeRecord l.ctxKey) ∧ ∀ k ∈ g.cores, (r.core k).gang ≠ some id))

/-- 09 R220, 12 R270, R275, R276, R273: a workgroup that is done stores its completion record, for the thread that exited last, and counts as completed; a
launch all of whose gangs have retired is complete and signals its token; a merge is submitted after 4,096 ck; a context fault that reaches a package faults
the context there. -/
def Obligations.LaunchesEnd : Prop := ∀ (s : State), s.hole = false →
  (∀ (p c id : Nat) (g : Gang) (l : Launch) (y : State),
    let k := coreKey p c
    let w := (s.core k).wg
    let exits := (s.core k).exits
    let t := k * 2048 + (s.core k).lastExit
    let s' := if (tget? s.threads t).isSome = true then s else s.setThread t { run := .exited }
    let va := (recRecords l.body + if l.marl then 0 else 16 * (w + l.g * g.index)) % 2 ^ 64
    (s.core k).gang = some id → s.gang id = some g → s.launch g.launch = some l → g.st = .running → g.completed.contains w = false →
    exits.length = (if l.marl then 1 else 64 * l.squads) → s.copyCmds = [] → (s.core k).mat.ops = [] → (s.core k).mat.queue = [] →
    (∀ x ∈ (s.core k).windows, x.2.st = .unbound) → y.hole = false →
    s'.putCompletion t va (exits.foldl max 0 + (exits.countP fun e => decide (e ≠ 0)) * 2 ^ 16 + exits.length * 2 ^ 32 + s.clock p * 2 ^ 64) = .put y →
    g.completed.length + 1 ≠ g.cores.length →
    exec (.workgroupComplete p c) s = .next (y.setGang id { g with completed := g.completed ++ [w] })) ∧
  (∀ (n : Nat) (x : Launch), s.launch n = some x → x.st = .dispatched → (∀ g ∈ s.gangs, g.2.launch = n → g.2.st = .retired) → x.pend = [] → x.words = [] →
    (s.ctx x.ctxKey).faulted = false → x.source = .child x.die → ∃ r, exec (.launchComplete n) s = .next r ∧ (r.launch n).map (·.st) = some .complete ∧
      (∀ g ∈ r.gangs, g.2.launch ≠ n) ∧ (recProduce x.body ≠ 0 → tget? (r.ctx x.ctxKey).tokens (recProduce x.body) = some x.placed) ∧ r.mem = s.mem ∧ r.regs = s.regs) ∧
  (∀ (p d : Nat) (m : Merge), (s.merges.find? fun x => x.id = m.id ∧ x.die = p * 8 + d) = some m →
    (s.clock p < m.opened + 4096 → exec (.aggregatorMergeTimeout p d m.id) s = .next s) ∧
    (∀ l, m.opened + 4096 ≤ s.clock p → m.children = [l] → s.ctxLive l.ctxKey = true →
      exec (.aggregatorMergeTimeout p d m.id) s = .next (({ s with merges := s.merges.filter fun x => x.id ≠ m.id } : State).takeLaunch l))) ∧
  (∀ (p ctx : Nat) (f : BitVec 16) (c : Ctx), (p, ctx, f.toNat) ∈ s.faultMsgs → tget? s.ctxs (p * 64 + ctx) = some c →
    (State.faultCtx { s with faultMsgs := s.faultMsgs.erase (p, ctx, f.toNat) } p ctx f.toNat).hole = false →
    ∃ r, exec (.contextFaultMessage p ctx f) s = .next r ∧ (r.ctx (p * 64 + ctx)).faulted = true ∧
      (c.faulted = false → (r.ctx (p * 64 + ctx)).faultCode = f.toNat ∧ (r.ctx (p * 64 + ctx)).faultClock = s.clock p))

/-- 19 R346, 12 R277: a die tells the count of its clusters whose cores are all free; a starved die offers a team to the die with the most; the receiver takes
it where the team is still migratable and it has room. -/
def Obligations.TeamsMigrate : Prop := ∀ (s : State) (p d : Nat), d < 8 →
  let die := p * 8 + d
  (s.lost.contains die = false → ∃ r, exec (.clusterAdvert p d) s = .next r ∧
    tget r.adverts die 0 = ((List.range 8).countP fun j => (List.range 4).all fun i => ((s.core (coreKey (die / 8) (32 * (die % 8) + 4 * j + i))).gang).isNone) ∧
    (∀ e, e ≠ die → tget r.adverts e 0 = tget s.adverts e 0)) ∧
  (∀ id l t e, s.migratable die = [(id, l, t)] → e < 8 → e ≠ d → s.lost.contains (p * 8 + e) = false → 0 < tget s.adverts (p * 8 + e) 0 →
    (∀ f < 8, f ≠ e → f ≠ d → tget s.adverts (p * 8 + f) 0 < tget s.adverts (p * 8 + e) 0) → s.takes p = true → s.starved die = true →
    s.lost.contains die = false → (∀ o ∈ s.offers, o.src ≠ die ∧ ¬ (o.launch = id ∧ o.team = t)) →
    exec (.migrationOffer p d) s = .next { s with offers := s.offers ++ [{ src := die, dst := p * 8 + e, launch := id, team := t }] }) ∧
  (s.starved die = false → exec (.migrationOffer p d) s = .next s) ∧
  (∀ o id l t, (s.offers.find? fun o => o.dst = die) = some o → s.hole = false → (∀ x ∈ s.offers, x.src ≠ die) →
    let x : State := { s with offers := s.offers.erase o }
    (x.migratable o.src).find? (fun x => x.1 = o.launch ∧ x.2.2 = o.team) = some (id, l, t) → s.lost.contains die = false →
    (x.fit l die = none → exec (.migrationOfferReceive p d) s = .next x) ∧
    (x.fit l die ≠ none → (x.touch l.ctxKey d).hole = false → ∃ r, exec (.migrationOfferReceive p d) s = .next r ∧
      (r.launch id).map (·.moved) = some ((t, die) :: l.moved.filter fun m => m.1 ≠ t) ∧ r.offers = s.offers.erase o))

/-- 20 R353 to R357, 01 R27: a thread whose access meets a fault parks, its open chain going back to its head; its record goes to the ring; RETRY lets it
execute again; DELIVER gives it the trap of code 9; a shootdown whose broadcast has come to every passenger of the package takes the pages' translations from
its caches. -/
def Obligations.TranslationFaults : Prop := ∀ (s : State) (p : Nat), s.hole = false →
  (∀ c squad lane y cause z n,
    let t := threadKey (squadKey (coreKey p c) squad) lane
    let th := s.thread t
    (tget? s.threads t).isSome = true → th.run = .ready → (∀ x ∈ s.picks, t ∉ x.threads) → th.phase = 0 → th.pc < 2 ^ 64 →
    s.translate (s.ctxKey t) (tcPath (coreOf t)) th.pc { user := !th.supervisor, fetch := true } = (y, .inr cause) → y.hole = false → (cause = 2 ∨ cause = 3) →
    y.park t th.pc cause 4 = (z, n) →
    exec (.translationFault p c squad lane (BitVec.ofNat 64 th.pc) 4) s = .next ((z.breakChain t).hold t (.parked n))) ∧
  ((∀ f ∈ s.faults, f.ctx / 64 = p → f.id ≠ none) ∨ s.ringSize p = 0 → exec (.faultRecordWrite p) s = .next s) ∧
  (∀ f, (s.faults.find? fun f => f.ctx / 64 = p ∧ f.id = none) = some f → s.ringSize p ≠ 0 →
    let tail := s.hreg p 0x200C
    (tail + 2 ^ 32 - s.hreg p 0x2010) % 2 ^ 32 < s.ringSize p →
    let y := s.homePut (p * 2 ^ 46 + s.hreg p 0x2000 % 2 ^ 46 + 32 * (tail % s.ringSize p)) 32
      (f.va * 2 ^ 192 + f.pc * 2 ^ 128 + tail * 2 ^ 96 + f.source * 2 ^ 64 + f.squad * 2 ^ 43 + f.kind * 2 ^ 40 + f.cause * 2 ^ 32 + f.ctx % 64)
    y.hole = false → ∃ r, exec (.faultRecordWrite p) s = .next r ∧ r.mem = y.mem ∧ r.hreg p 0x200C = (tail + 1) % 2 ^ 32 ∧
      ∀ g ∈ r.faults, g.num = f.num → g.id = some tail) ∧
  (∀ (id : BitVec 32) f t va kind pc, (s.faults.find? fun f => f.ctx / 64 = p ∧ f.id = some id.toNat) = some f → f.threads = [(t, va, kind, pc)] →
    (s.thread t).run = .parked f.num →
    (∃ r, exec (.frdoneRetry p id) s = .next r ∧ (r.thread t).run = .ready ∧ (r.thread t).pc = (s.thread t).pc ∧ (∀ g ∈ r.faults, g.num ≠ f.num) ∧
      (∀ e ∈ tget r.tcs (coreOf t) [], ¬ (e.ctx = f.ctx ∧ f.page * 2 ^ 16 % 2 ^ 57 / 2 ^ e.log = e.base / 2 ^ e.log)) ∧ r.mem = s.mem ∧ r.regs = s.regs) ∧
    (s.Quiet t → ∃ r, exec (.frdoneDeliver p id) s = .next r ∧ (r.thread t).supervisor = true ∧ (r.thread t).run = .ready ∧
      (r.thread t).pc = (s.ctx (s.ctxKey t)).tvec ∧ ((r.squad (squadOf t)).trec.headD 0).toNat % 2 ^ 16 = 9 + f.cause % 256 * 2 ^ 8 ∧
      (r.squad (squadOf t)).trec[2]? = some (BitVec.ofNat 64 pc) ∧ (r.squad (squadOf t)).trec[4]? = some (BitVec.ofNat 64 va) ∧
      (∀ g ∈ r.faults, g.num ≠ f.num) ∧ r.mem = s.mem ∧ r.regs = s.regs)) ∧
  (∀ sd x, tget? s.shootdowns sd = some x → p ∈ x.left → s.castPending (.shootdown sd) (some p) = false → s.shootBusy (p * 64 + x.ctx) x = false → s.shotWindows (p * 64 + x.ctx) x = [] → s.pins = [] →
    ∃ r, exec (.shootdownReceive p sd) s = .next r ∧
      (∀ c ∈ r.tcs, tcPkg c.1 = p → ∀ e ∈ c.2, e.ctx = p * 64 + x.ctx → x.all = false ∧ rangesMeet x.base x.size (upperHalf e.base) (2 ^ e.log) = false) ∧
      (r.shootdowns = if x.left.erase p = [] then tdel s.shootdowns sd else tset s.shootdowns sd { x with left := x.left.erase p }) ∧
      r.mem = s.mem ∧ r.regs = s.regs ∧ r.copies = s.copies)

/-- 21 R366 to R369, R371: in a ring cycle, where the passengers have room, every flit on a ring moves one hop: those for a passenger come to it, the others
stand in the next router's buffer, before those that enter; entering flits leave no buffer of 32 full. What a passenger sends comes to its router by a module
in service, or waits. A flit that passes its check brings its request to its home with the oldest number outstanding, or the answer to its requester, where an
acknowledgement ends the request; a packet of two flits is there with its second. One whose crossing changed bits that the check sees, or of an unknown type,
is dropped and counted, at its module too, which leaves service where the errors lie within one lane; every single changed bit is seen. The 32 places of a
passenger's ingress are the model's (log 61), as are the types and the router side's number, socket + 32 (log 19). -/
def Obligations.FlitsTravel : Prop := ∀ (s : State) (p : Nat),
  (s.held p = true → exec (.ringCycle p) s = .next s) ∧
  (s.held p = false → ∃ r, exec (.ringCycle p) s = .next r ∧ r.msgs = s.msgs ∧ r.regs = s.regs ∧ r.mem = s.mem ∧
    ((∀ i < 20, (s.ingressAt p i).length + (s.transitAt p 0 i).length + (s.transitAt p 1 i).length < 32) →
     (∀ g < 2, ∀ i < 20, ∀ f ∈ s.transitAt p g i, f.dst = 31 → f.mask ≠ 0) →
     (∀ i < 20, r.ingressAt p i = s.ingressAt p i ++ (s.transitAt p 0 i).filter (fun f => Flit.local' f i) ++
       (s.transitAt p 1 i).filter (fun f => Flit.local' f i)) ∧
     (∀ g < 2, ∀ i < 20, (s.transitAt p g i).filterMap (fun f => Flit.onward f i) <+: r.transitAt p g (nextRouter g i)) ∧
     (∀ g < 2, ∀ i < 20, (r.transitAt p g i).length ≤ 31))) ∧
  (∀ a f rest, a < 20 → s.upwardAt p a = f :: rest → s.held p = false →
    (∀ k, f.md = some k → f.type ≤ 20 → ∃ r, exec (.flitReceive p (a + 32) 0) s = .next r ∧ r.upwardAt p a = rest ∧
      r.injectAt p a = s.injectAt p a ++ [{ f with md := none }] ∧ r.msgs = s.msgs ∧ r.regs = s.regs ∧ r.mem = s.mem) ∧
    (f.md = none → (∀ k < 24, s.moduleWidth p a k < 32) → ∀ noise, exec (.flitReceive p (a + 32) noise) s = .next s)) ∧
  (∀ socket f rest id m, socket < 20 → s.ingressAt p socket = f :: rest → s.held p = false → f.cast = none → f.msg = some id → s.msg id = some m →
    f.line ≠ none ∨ f.src = socket ∨ f.md ≠ none → f.packet = 0 ∨ (f.packet, true) ∉ s.assembling →
    (f.answer = false → f.type ≤ 20 → endPkg m.dst = p → endSocket m.dst = socket → ∃ r, exec (.flitReceive p socket 0) s = .next r ∧
      r.ingressAt p socket = rest ∧ r.msg id = some (if f.packet = 0 ∨ (f.packet, false) ∈ s.assembling then { m with arrived := m.arrived + 1, lwms := m.lwms ++ [f.lwm] } else m) ∧
      (f.packet ≠ 0 → (f.packet, false) ∉ s.assembling → (f.packet, false) ∈ r.assembling) ∧ r.mem = s.mem ∧ r.regs = s.regs) ∧
    (f.packet = 0 → f.answer = true → f.type ≤ 20 → endPkg m.src = p → endSocket m.src = socket → m.st = .answered →
      ∃ r, exec (.flitReceive p socket 0) s = .next r ∧
        (m.kind = .load ∨ m.kind = .atomic ∨ m.kind = .wb → r.msg id = some { m with away := false } ∧ r.ingressAt p socket = rest) ∧
        (m.kind = .inv ∨ m.kind = .rev ∨ m.kind = .fwd ∨ m.kind = .grant ∨ m.kind = .remote ∨ m.kind = .signal → m.negative = false → r.live id = false) ∧
        r.mem = s.mem ∧ r.regs = s.regs) ∧
    (∀ noise, noiseSeen noise = true ∨ (noise = 0 ∧ 20 < f.type) → f.packet = 0 → f.line = none → m.st ≠ .finished → ∃ r, exec (.flitReceive p socket noise) s = .next r ∧
      r.msg id = some (if f.answer then m else { m with flying := m.flying - 1 }) ∧ r.ingressAt p socket = rest ∧
      r.hreg p (healthOff socket 0) = min (s.hreg p (healthOff socket 0) + 1) (2 ^ 64 - 1) ∧
      ∀ k, f.src ≠ socket → f.md = some k → k < 24 →
        bits (r.hreg p (moduleOff socket k)) 63 24 = min (bits (s.hreg p (moduleOff socket k)) 63 24 + 1) (2 ^ 40 - 1) ∧
        ∀ b < 640, noise = BitVec.ofNat 640 (2 ^ b) → s.moduleWidth p socket k = 64 → (s.module' p socket k).training = false →
          r.moduleWidth p socket k = 0 ∧ (r.module' p socket k).training = true ∧ (r.module' p socket k).failed.toNat.testBit (b / 8 % 64) = true)) ∧
  (∀ b < 640, noiseSeen (BitVec.ofNat 640 (2 ^ b)) = true)

/-- 21 R373, R374, R394, 20 R359: a request that reaches its home moves the window up to the oldest number it says is outstanding and is taken once; a copy of
a retired one is dropped; a copy of an executed one is counted, and the stored answer is sent again, or the forward that serves it. One with no answer in time
is reissued, or, across the fabric, gives up after FABRETRY reissues, also where its home has taken it; a negative reply ends it: its threads then take trap
code 9, cause 7. -/
def Obligations.RequestsAreReceived : Prop := ∀ (s : State) (id : Nat) (m : Msg), s.msg id = some m →
  let y : Msg := { m with arrived := m.arrived - 1, flying := m.flying - 1, lwms := m.lwms.drop 1 }
  let k := pairKey m.dst m.src
  let x := tget s.windows k {}
  let base := maxMod x.base (m.lwms.headD m.seq)
  let open' : Prop := (m.seq + 2 ^ 16 - base) % 2 ^ 16 < 2 ^ 15
  (m.arrived = 0 → exec (.requestReceive id) s = .next s) ∧
  (0 < m.arrived → m.past = true → s.held (endPkg m.dst) = false → s.deaf m = false →
    (m.st = .flying → open' → m.seq ∉ x.executed → s.filter y = .pass → ∃ r, exec (.requestReceive id) s = .next r ∧ r.msg id = some { y with st := .accepted } ∧
      m.seq ∈ (tget r.windows k {}).executed ∧ (tget r.windows k {}).base = base ∧ r.mem = s.mem ∧ r.regs = s.regs) ∧
    (m.st = .flying → ¬ open' → ∃ r, exec (.requestReceive id) s = .next r ∧ r.msg id = some y ∧ (tget r.windows k {}).base = base ∧
      r.upward = s.upward ∧ r.mem = s.mem ∧ r.regs = s.regs) ∧
    (m.st = .flying ∨ m.st = .accepted ∨ m.st = .answered → open' → m.seq ∈ x.executed →
      (∀ n ∈ s.msgs, n.2.orig = id → n.2.kind = .fwd → n.1 ≠ id) → ∃ r, exec (.requestReceive id) s = .next r ∧ r.msg id = some y ∧
      r.hreg (endPkg m.dst) (healthOff (endSocket m.dst) 2) = min (s.hreg (endPkg m.dst) (healthOff (endSocket m.dst) 2) + 1) (2 ^ 64 - 1) ∧ r.mem = s.mem ∧ r.regs = s.regs ∧
      (∀ a, (∀ n ∈ s.msgs, n.2.orig = id → n.2.kind ≠ .fwd) → m.kind ≠ .fwd → m.byGrant = false → tget? x.answers m.seq = some a →
        endPkg m.src = endPkg m.dst → endSocket m.src ≠ endSocket m.dst → ∃ f : Flit, f.answer = true ∧ f.msg = some id ∧ f.seq = m.seq ∧ f.dst = endSocket m.src ∧
          (a.1.length ≤ 14 → r.upwardAt (endPkg m.dst) (endSocket m.dst) = s.upwardAt (endPkg m.dst) (endSocket m.dst) ++ [f])) ∧
      (∀ j n, (s.msgs.filter fun z => z.2.orig = id && z.2.kind = .fwd) = [(j, n)] → s.msg j = some n → endPkg n.src = endPkg n.dst → endSocket n.src ≠ endSocket n.dst →
        r.msg j = some { n with flying := n.flying + 1 }))) ∧
  (m.st = .flying ∨ (m.st = .answered ∧ m.away = true) → m.past = true → m.rerouted = false →
    (endPkg m.src = endPkg m.dst → endSocket m.src ≠ endSocket m.dst → ∃ r, exec (.requestTimeout id) s = .next r ∧
      r.msg id = some { m with tries := m.tries + 1, flying := m.flying + 1 } ∧
      r.hreg (endPkg m.src) (healthOff (endSocket m.src) 1) = min (s.hreg (endPkg m.src) (healthOff (endSocket m.src) 1) + 1) (2 ^ 64 - 1)) ∧
    (∀ t, endPkg m.src ≠ endPkg m.dst → m.kind = .load → s.hreg (endPkg m.src) 0x2208 ≤ m.tries → m.client = .thread t → (s.thread t).token = id →
      ∃ r, exec (.requestTimeout id) s = .next r ∧ r.live id = false ∧ (r.thread t).failed = some (9, 7, m.va, 1) ∧ r.regs = s.regs ∧ r.mem = s.mem)) ∧
  (∀ t, m.st = .accepted → m.past = true → m.rerouted = false → endPkg m.src ≠ endPkg m.dst → m.kind = .atomic → s.hreg (endPkg m.src) 0x2208 ≤ m.tries →
    m.client = .thread t → (s.thread t).token = id → ∃ r, exec (.requestTimeout id) s = .next r ∧ (r.msg id).map (·.client) = some .none ∧
      (r.thread t).failed = some (9, 7, m.va, 3) ∧ r.regs = s.regs ∧ r.mem = s.mem) ∧
  (∀ t, m.st = .answered → m.away = false → m.negative = true → m.client = .thread t → (s.thread t).token = id → ∃ r, exec (.negativeReply id) s = .next r ∧ r.live id = false ∧
    (r.thread t).failed = some (9, 7, m.va, match m.kind with | .load => 1 | .atomic => 3 | _ => 2) ∧ r.regs = s.regs ∧ r.mem = s.mem)

/-- 21 R371, R375 to R377, 22 R388: a failed lane takes its module out of service; retrained, it has 32 lanes where one half is whole and none otherwise. A
dropped flit of a line is counted with its clock; the line trips at four drops within 10 us or a lost lock, its sender stops where the notice has another
plane to come by, and its training ends in service, in another training, or held out. -/
def Obligations.ModulesAndLinesRetrain : Prop := ∀ (s : State) (p : Nat),
  (∀ socket md lane, socket < 20 → md < 24 → lane < 64 → (s.module' p socket md).training = false → s.moduleWidth p socket md ≠ 0 →
    ∃ r, exec (.moduleLaneFail p socket md lane) s = .next r ∧ r.moduleWidth p socket md = 0 ∧ (r.module' p socket md).training = true ∧
      (r.module' p socket md).failed = (s.module' p socket md).failed ||| BitVec.ofNat 64 (2 ^ lane)) ∧
  (∀ socket md, (s.module' p socket md).training = true → ∃ r, exec (.moduleRetrainDone p socket md) s = .next r ∧
    r.moduleWidth p socket md = (if (s.module' p socket md).failed.toNat % 2 ^ 32 ≠ 0 ∧ (s.module' p socket md).failed.toNat / 2 ^ 32 ≠ 0 then 0 else 32) ∧
    (r.module' p socket md).training = false) ∧
  (∀ plane k, plane < 8 → k < 64 →
    let x := s.line p plane k
    let recent (n : Nat) (c : Nat) : Bool := decide (s.clock p < c + n * s.mhz p / 1000)
    (∀ lost, x.phase = .service → s.lineLit p k = true → (lost = true ∨ x.due = true) →
      ∃ r, exec (.lineRetrainStart p plane k lost) s = .next r ∧ (r.line p plane k).phase = .tripped ∧
        bits (r.hreg p (lineHealth plane k)) 31 16 = min (bits (s.hreg p (lineHealth plane k)) 31 16 + 1) (2 ^ 16 - 1)) ∧
    (∀ lost, x.phase ≠ .service ∨ (lost = false ∧ x.due = false) → exec (.lineRetrainStart p plane k lost) s = .next s) ∧
    (∀ socket f rest noise, socket < 20 → s.ingressAt p socket = f :: rest → f.line = some (plane * 64 + k) → s.held p = false → f.cast = none → noiseSeen noise = true →
      ∃ r, exec (.flitReceive p socket noise) s = .next r ∧ (r.line p plane k).drops = (s.clock p :: x.drops).take 4 ∧
        ((r.line p plane k).due = true ↔ x.due = true ∨ ∃ a b c more, x.drops = a :: b :: c :: more ∧ recent 10000 c = true) ∧
        bits (r.hreg p (lineHealth plane k)) 15 0 = min (bits (s.hreg p (lineHealth plane k)) 15 0 + 1) (2 ^ 16 - 1)) ∧
    (x.phase = .tripped → (∃ other, other ≠ plane ∧ other ∈ s.linesTo p 0 (linePeer p k) ++ s.linesTo p 1 (linePeer p k)) →
      exec (.retrainNotice p plane k) s = .next (s.setLine p plane k { x with phase := .training, sending := false })) ∧
    (x.phase ≠ .tripped ∨ (∀ other ∈ s.linesTo p 0 (linePeer p k) ++ s.linesTo p 1 (linePeer p k), other = plane) → exec (.retrainNotice p plane k) s = .next s) ∧
    (x.phase = .training → s.lineLit p k = true →
      exec (.lineRetrainDone p plane k true) s = .next (s.setLine p plane k { x with phase := .service, sending := true, drops := [], due := false, ordered := false })) ∧
    (x.phase = .training → (x.ordered = true ∨ 2 ≤ x.fails.countP (recent 1000000000)) → ∃ r, exec (.lineRetrainDone p plane k false) s = .next r ∧
      (r.line p plane k).phase = .heldOut ∧ (r.line p plane k).sending = false) ∧
    (x.phase = .training → x.ordered = false → x.fails.countP (recent 1000000000) < 2 → ∃ r, exec (.lineRetrainDone p plane k false) s = .next r ∧
      (r.line p plane k).phase = .training ∧ s.clock p ∈ (r.line p plane k).fails) ∧
    (s.hole = false → x.phase = .heldOut → k ≠ 0 → exec (.flrst p (BitVec.ofNat 32 (2 ^ 31 + k * 8 + plane))) s =
      .next (s.setLine p plane k { x with phase := .training, ordered := true, fails := [] })))

/-- 20 R362 to R365: a die's heartbeat goes out on both rings; a die not heard of for 8 us, or with an error, is declared lost: its router sends the broadcast
on both rings and to every peer on every plane in service; the broadcast, come to all of them, faults every context that has touched the die with code 16;
without its buddy it is a fatal error; the dump ends with FATAL bit 0; the host returns a die. -/
def Obligations.DiesAreLost : Prop := ∀ (s : State) (p d : Nat), d < 8 →
  let die := p * 8 + d
  (s.alive p = true → s.dieUp die = true → ∃ r, exec (.heartbeat p d) s = .next r ∧ tget (r.pkg p).beats d 0 = s.clock p ∧
    ∃ a b, r.upwardAt p d = s.upwardAt p d ++ [a, b] ∧ a.ring = some 0 ∧ b.ring = some 1 ∧ ∀ f, f = a ∨ f = b → f.dst = 31 ∧ ∀ i < 20, f.mask.testBit i = decide (i ≠ d)) ∧
  (∀ e h, s.alive p = true → s.dieUp die = true → (e = true ∨ h = true ∨ tget (s.pkg p).beats d 0 + 8000 * s.mhz p / 1000 ≤ s.clock p) →
    ∃ r, exec (.dieLostDetect p d e h) s = .next r ∧ r.dead = die :: s.dead ∧ r.mem = s.mem ∧ r.regs = s.regs ∧
      (∃ a b, r.injectAt p d = s.injectAt p d ++ [a, b] ∧ a.ring = some 0 ∧ b.ring = some 1 ∧
        ∀ f, f = a ∨ f = b → f.cast = some { what := .dieLoss die, pkg := p } ∧ ∀ i < 20, f.mask.testBit i = decide (i ≠ d)) ∧
      ∀ q < 64, q ≠ p → s.inDomain p q = true → ∀ plane ∈ s.linesTo p 0 q ++ s.linesTo p 1 q,
        ∃ f ∈ r.ingressAt q (18 + plane / 4), f.cast = some { what := .dieLoss die, pkg := q }) ∧
  (s.castPending (.dieLoss die) none = true → s.hole = false → exec (.dieLossBroadcast p d) s = .next s) ∧
  (s.alive p = true → s.clock p < tget (s.pkg p).beats d 0 + 8000 * s.mhz p / 1000 → exec (.dieLostDetect p d false false) s = .next s) ∧
  (die ∈ s.dead → s.hole = false → s.castPending (.dieLoss die) none = false → s.dieUp (buddyOf die) = true → s.dieWords die = [] → s.msgs = [] →
    (∀ c ∈ s.ctxs, c.1 / 64 = p → c.2.touched.testBit d = false) → ∃ r, exec (.dieLossBroadcast p d) s = .next r ∧ r.lost = die :: s.lost ∧ r.mem = s.mem ∧
      (∀ k, isMarl (k / 65536) = false → dieOf (k / 65536) = die → tget r.regs k 0 = 0) ∧
      (∀ k, ¬ (isMarl (k / 65536) = false ∧ dieOf (k / 65536) = die) → tget r.regs k 0 = tget s.regs k 0)) ∧
  (∀ r, die ∈ s.dead → s.hole = false → s.castPending (.dieLoss die) none = false → (s.dieUp (buddyOf die) = true → s.unmirrored die = false → exec (.dieLossBroadcast p d) s = .next r → die ∈ r.lost ∧
    (∀ k c, k / 64 = p → tget? s.ctxs k = some c → c.touched.testBit d = true → (r.ctx k).faulted = true ∧
      (s.msgs = [] → c.faulted = false → (r.ctx k).faultCode = 16 ∧ (r.ctx k).lostDie = d)))) ∧
  (die ∈ s.dead → s.hole = false → s.castPending (.dieLoss die) none = false → s.dieUp (buddyOf die) = false → s.fatal p = false → ∃ r, exec (.dieLossBroadcast p d) s = .next r ∧ die ∈ r.lost ∧
    (r.pkg p).dumping = some (1, d, s.clock p) ∧ r.rests p = true ∧ r.mem = s.mem ∧ r.regs = s.regs) ∧
  (∀ item socket v, s.hole = false → (s.pkg p).off = false →
    ((s.pkg p).dumping = none → s.hreg p 0x2300 = 1 → s.fatal p = false → (item = 5 ∧ socket < 20 ∨ item = 2 ∧ (socket = 8 ∨ socket = 9)) →
      ∃ r, exec (.fatalError p item socket v) s = .next r ∧ (r.pkg p).dumping = some (item, socket, s.clock p) ∧ r.rests p = true ∧ r.mem = s.mem) ∧
    (∀ i x c, (s.pkg p).dumping = some (i, x, c) → (s.writeDump p i x c v.toNat).hole = false → ∃ r, exec (.fatalError p item socket v) s = .next r ∧
      r.hreg p 0x2120 = 1 ∧ (r.pkg p).dumping = none)) ∧
  (die ∈ s.lost → s.alive p = true → s.fatal p = false → ∃ r, exec (.dieReturnToService p d) s = .next r ∧ r.lost = s.lost.erase die ∧
    tget (r.pkg p).beats d 0 = s.clock p)

/-- 22 R383 to R387: PWRCMD starts a transition that PWRSTAT shows, or is refused with its code; D-OFF takes none; D-HOLD sends every running gang to its
quiesce point; a transition that ends leaves PWRSTAT at its state, with the last code, D-OFF the package without its memory. -/
def Obligations.PowerStates : Prop := ∀ (s : State) (p : Nat), s.hole = false →
  (∀ v : BitVec 32, (s.pkg p).off = true →
    exec (.pwrcmdRun p v) s = .next s ∧ exec (.pwrcmdTrim p v) s = .next s ∧ exec (.pwrcmdHold p v) s = .next s ∧ exec (.pwrcmdOff p v) s = .next s) ∧
  (∀ v : BitVec 32, (s.pkg p).off = false →
    let bad : Prop := v.toNat / 2 ^ 13 ≠ 0 ∨ v.toNat / 4 % 2 ^ 6 ≠ 0 ∨ (v.toNat % 4 = 1 ∧ ¬ (10 ≤ v.toNat / 2 ^ 8 % 2 ^ 5 ∧ v.toNat / 2 ^ 8 % 2 ^ 5 ≤ 29))
    let dumps : Prop := (s.pkg p).dumping ≠ none ∧ (s.hreg p 0x2120).testBit 0 = false ∧ v.toNat % 4 ≠ 3
    let stat := s.hreg p 0x2404
    let code := s.powerRefusal p v.toNat
    let okay (what : Instr) (n : Nat) : Prop := v.toNat % 4 = n →
      (code ≠ 0 → ∃ r, exec what s = .next r ∧ r.hreg p 0x2404 = stat % 8 + code * 2 ^ 8 ∧ r.hreg p 0x2400 = s.hreg p 0x2400 ∧ r.gangs = s.gangs) ∧
      (code = 0 → ∃ r, exec what s = .next r ∧ r.hreg p 0x2404 = stat % 4 + 4 ∧ r.hreg p 0x2400 % 4 = n ∧ r.mem = s.mem ∧ r.regs = s.regs ∧
        (n = 2 → ∀ g x, s.gang g = some x → x.st = .running → s.gangCtx x / 64 = p → (r.gang g).map (·.st) = some .stopping) ∧ (n ≠ 2 → r.gangs = s.gangs))
    okay (.pwrcmdRun p v) 0 ∧ okay (.pwrcmdTrim p v) 1 ∧ okay (.pwrcmdHold p v) 2 ∧ okay (.pwrcmdOff p v) 3 ∧
    (code = 1 ↔ stat.testBit 2 = true) ∧
    (code = 2 ↔ stat.testBit 2 = false ∧ bad) ∧ (code = 3 ↔ stat.testBit 2 = false ∧ ¬ bad ∧ dumps) ∧
    (code = 4 ↔ stat.testBit 2 = false ∧ ¬ bad ∧ ¬ dumps ∧ v.toNat % 4 = stat % 4 ∧
      (v.toNat % 4 ≠ 1 ∨ v.toNat / 2 ^ 8 % 2 ^ 5 = s.hreg p 0x2400 / 2 ^ 8 % 2 ^ 5)) ∧ code ≤ 4) ∧
  ((s.hreg p 0x2404).testBit 2 = false ∨ (s.pkg p).off = true → exec (.powerTransitionDone p) s = .next s) ∧
  ((s.hreg p 0x2404).testBit 2 = true → (s.pkg p).off = false →
    (s.hreg p 0x2400 % 4 ≤ 1 → ∃ r, exec (.powerTransitionDone p) s = .next r ∧
      r.hreg p 0x2404 = s.hreg p 0x2400 % 4 + s.hreg p 0x2404 / 2 ^ 8 % 2 ^ 8 * 2 ^ 8 ∧ r.mem = s.mem ∧ r.regs = s.regs) ∧
    (s.hreg p 0x2400 % 4 = 2 → s.holdReady p = true → s.heldWords p = [] → exec (.powerTransitionDone p) s = .next (s.setHreg p 0x2404 (2 + s.hreg p 0x2404 / 2 ^ 8 % 2 ^ 8 * 2 ^ 8))) ∧
    (s.hreg p 0x2400 % 4 = 2 → s.holdReady p = false → exec (.powerTransitionDone p) s = .next s)) ∧
  (let dark (what : Instr) : Prop := ∃ r, exec what s = .next r ∧ r.hreg p 0x2404 = 3 ∧ (r.pkg p).off = true ∧ (∀ a, a / 2 ^ 46 = p → memGet r.mem a = 0) ∧
     (∀ a, a / 2 ^ 46 ≠ p → memGet r.mem a = memGet s.mem a) ∧ (r.pkg p).flash = (s.pkg p).flash ∧ (r.pkg p).fuse = (s.pkg p).fuse ∧
     ∀ k, k / 64 = p → tget? r.ctxs k = none
   dark (.powerRemoved p) ∧ ((s.hreg p 0x2404).testBit 2 = true → (s.pkg p).off = false → s.hreg p 0x2400 % 4 = 3 → dark (.powerTransitionDone p)))

/-- 22 R387, R388, R354, 21 R395, 19 R324: a sample sets the sensors, the sockets above 95 degrees in THALARM and the trip at 110; a 1 in bit 31 clears the
alarm; PKGNUM is written before the fabric trains; a doorbell writes a queue's tail; a register takes what is written to it. -/
def Obligations.HostRegisters : Prop := ∀ (s : State) (p : Nat) (v : BitVec 32), s.hole = false → s.Wf →
  (∀ sensors inlet outlet, (s.pkg p).off = false → ∃ r, exec (.thermalSample p sensors inlet outlet) s = .next r ∧
    (∀ i < 20, r.hreg p (0x2500 + 4 * i) % 2 ^ 12 = (sensors[i]?.getD 0).toNat % 2 ^ 12 ∧
      (r.hreg p 0x2560).testBit i = decide (95 * 16 < (sensors[i]?.getD 0).toNat % 2 ^ 12)) ∧
    ((r.hreg p 0x2560).testBit 31 = true ↔ (s.hreg p 0x2560).testBit 31 = true ∨ ∃ i < 20, 95 * 16 < (sensors[i]?.getD 0).toNat % 2 ^ 12) ∧
    ((∃ i < 20, 110 * 16 ≤ (sensors[i]?.getD 0).toNat % 2 ^ 12) → (r.pkg p).trip = true) ∧
    r.hreg p 0x2550 = inlet.toNat % 2 ^ 12 ∧ r.hreg p 0x2554 = outlet.toNat % 2 ^ 12 ∧ r.mem = s.mem ∧ r.regs = s.regs) ∧
  (exec (.thalarm p v) s = .next (if v.toNat.testBit 31 = true then s.setHreg p 0x2560 (s.hreg p 0x2560 % 2 ^ 31) else s)) ∧
  (∃ r, exec (.pkgnum p v) s = .next r ∧ r.pkgNum p = if s.hreg p 0x2300 = 1 then s.pkgNum p else v.toNat % 64) ∧
  (∀ j, j < 128 →
    let a := p * 2 ^ 46 + (s.hreg p 0x2800 + 32 * j) % 2 ^ 46 + 24
    4 ∣ a → inRam a = true → s.ownerOf (a / 4) = none → s.wordMoving (a / 4) = false → ∃ r, exec (.doorbell p j v) s = .next r ∧
      (∀ b < 4, memGet r.mem (a + b) = BitVec.ofNat 8 (v.toNat / 256 ^ b)) ∧ (∀ b, b < a ∨ a + 4 ≤ b → memGet r.mem b = memGet s.mem b) ∧
      r.releases (hostAgent p) = (s.releases (hostAgent p) + 1) % 2 ^ 16 ∧ r.regs = s.regs) ∧
  (∀ (off : Nat) (x : BitVec 128), (s.pkg p).off = false →
    (off = 0x2000 ∨ off = 0x2800 → exec (.registerWrite p off x) s = .next (s.setHreg p off (x.toNat % 2 ^ 64))) ∧
    (off = 0x2008 ∨ off = 0x2010 → exec (.registerWrite p off x) s = .next (s.setHreg p off (x.toNat % 2 ^ 32))) ∧
    (off = 0x200C ∨ off = 0x2120 ∨ off = 0x2300 ∨ off = 0x2404 → exec (.registerWrite p off x) s = .next s) ∧
    (off = 0x2208 → 1 ≤ x.toNat % 2 ^ 32 → x.toNat % 2 ^ 32 ≤ 15 → exec (.registerWrite p off x) s = .next (s.setHreg p off (x.toNat % 2 ^ 32))))

/-- 21 R378 to R382: both Marl dies boot from slot A, else both from slot B, else each from the one it accepts (log 72); BOOTSTAT is 1 where both accepted
images of one version, 3 where the versions differ, 2 where a die has none; the host's image may then stand in; the fused count rises to the running version;
a report holds the nonce, takes one leaf, and is signed with the identity key of the package's secret. -/
def Obligations.SecureBoot : Prop := ∀ (s : State) (p : Nat),
  let x := s.pkg p
  let slot (a : Nat) (i : Nat) : Byte := tget x.flash (a + i) 0xFF
  (∀ f g : Option Firmware, p < 64 → x.off = false → s.hreg p 0x2300 = 0 →
    (let take (md base : Nat) : Option Firmware := acceptImage (p * 2 + md) x.fuse (slot base)
     (take 0 0 ≠ none ∧ take 1 0 ≠ none ∧ f = take 0 0 ∧ g = take 1 0) ∨
     ((take 0 0 = none ∨ take 1 0 = none) ∧ take 0 0x1000000 ≠ none ∧ take 1 0x1000000 ≠ none ∧ f = take 0 0x1000000 ∧ g = take 1 0x1000000) ∨
     ((take 0 0 = none ∨ take 1 0 = none) ∧ (take 0 0x1000000 = none ∨ take 1 0x1000000 = none) ∧
      f = (take 0 0 <|> take 0 0x1000000) ∧ g = (take 1 0 <|> take 1 0x1000000))) →
    ∃ r, exec (.boot p) s = .next r ∧ (r.pkg p).firmware = [f, g] ∧
      r.hreg p 0x2300 = (match f, g with | some a, some b => if a.svn = b.svn then 1 else 3 | _, _ => 2)) ∧
  (s.hreg p 0x2300 ≠ 0 → x.off = false → exec (.boot p) s = .next s) ∧
  (∀ md image, md < 2 → x.firmware[md]? = some none → image.length ≤ 2 ^ 24 → x.off = false → s.hreg p 0x2300 = 2 →
    ∃ r, exec (.recoveryImage p md image) s = .next r ∧
      (r.pkg p).firmware = x.firmware.set md (acceptImage (p * 2 + md) x.fuse (fun i => (image[i]?).getD 0))) ∧
  (∀ f g, x.firmware = [some f, g] → s.hreg p 0x2300 = 1 → exec (.rollbackFuse p) s = .next (s.modPkg p fun y => { y with fuse := max y.fuse f.svn })) ∧
  (∀ f g (nonce : BitVec 384), x.firmware = [some f, g] → s.hreg p 0x2300 = 1 → x.off = false → x.leaf < 2 ^ 20 →
    ∃ r, exec (.attestation p nonce) s = .next r ∧ (r.pkg p).leaf = x.leaf + 1 ∧ (r.pkg p).report.length = 3236 ∧
      (∀ i < 48, (r.pkg p).report[i]? = some (nonce.extractLsb' (8 * i) 8)) ∧
      (∀ i < 96, (r.pkg p).report[176 + i]? =
        some ((Config.ecdsaSign (Config.identityKey (Config.deviceSecret p)) (Config.sha384 ((r.pkg p).report.take 176))).extractLsb' (8 * i) 8)) ∧ (r.pkg p).fuse = x.fuse ∧ r.mem = s.mem ∧ r.regs = s.regs)

/-- 22 R390, R391, R393, 19 R324: a drive's write to a word that nobody owns stands at its home, between two releases of its port's engine: the word is its
agent's with the count of the first; a read changes no memory; the host's write of a byte of memory stands there and its read changes nothing. -/
def Obligations.StorageAndHostMemory : Prop := ∀ (s : State) (p port : Nat), s.hole = false → s.Wf →
  (∀ (va : BitVec 64) b y pa, s.portUp p port = true → s.portMoving p port va.toNat 1 = false →
    (s.bumpRelease (siltAgent p port)).portTarget p port va.toNat true = (y, .inl (.cached pa)) → y.hole = false → y.Wf → inRam pa = true → pa % 4 = va.toNat % 4 →
    y.ownerOf (pa / 4) = none → (y.entries (pa / 4)).length < 4 → y.wordMoving (pa / 4) = false → ∃ r, exec (.storageDmaWrite p port va [b]) s = .next r ∧ memGet r.mem pa = b ∧
      (∀ a, a ≠ pa → memGet r.mem a = memGet y.mem a) ∧ r.regs = s.regs ∧
      r.releases (siltAgent p port) = (s.releases (siltAgent p port) + 2) % 2 ^ 16 ∧
      (r.ownerOf (pa / 4)).map (fun e => (e.agent, e.relcount)) = some (siltAgent p port, (s.releases (siltAgent p port) + 1) % 2 ^ 16)) ∧
  (∀ (va : BitVec 64) n, s.portUp p port = true → s.portMoving p port va.toNat n = false → s.owners = [] → (s.portRead p port va.toNat n).hole = false →
    ∃ r, exec (.storageDmaRead p port va n) s = .next r ∧ r.mem = s.mem ∧ r.regs = s.regs ∧ r.relcount = s.relcount) ∧
  (∀ width gen : BitVec 4, port < 8 → s.hreg p 0x2300 = 1 → (s.pkg p).off = false → ∃ r, exec (.storageLinkRetrain p port width gen) s = .next r ∧
    r.hreg p (0x2600 + 8 * port) = s.hreg p (0x2600 + 8 * port) % 2 ^ 7 + (if width = 0 then 0 else 2 ^ 7) + width.toNat * 2 ^ 8 + gen.toNat * 2 ^ 12) ∧
  (∀ pa data, exec (.hostLinkDmaAccess p pa false data) s = .next s) ∧
  (∀ pa b, (s.pkg p).off = false → let a := p * 2 ^ 46 + pa % 2 ^ 46
    inRam a = true → s.ownerOf (a / 4) = none → s.wordMoving (a / 4) = false → ∃ r, exec (.hostLinkDmaAccess p pa true [b]) s = .next r ∧ memGet r.mem a = b ∧
      (∀ c, c ≠ a → memGet r.mem c = memGet s.mem c) ∧ r.regs = s.regs)
end

