-- ==== Sys2Proof/Laws/Table.lean ====
section
/-! SUPPORT. Tables: reading what was written, and what was not. -/

namespace Sys2Proof.Machine

variable {α : Type}

theorem tget?_tset (t : Tab α) (i j : Nat) (v : α) : tget? (tset t i v) j = if i = j then some v else tget? t j := by
  induction t with
  | nil => simp [tset, tget?]
  | cons x t ih =>
    obtain ⟨k, w⟩ := x
    simp only [tset]
    split
    · simp only [tget?]
    · split
      · subst_vars; simp only [tget?]; split <;> simp_all
      · simp only [tget?]
        split
        · subst_vars; split <;> simp_all
        · exact ih

@[simp] theorem tget?_tset_self (t : Tab α) (i : Nat) (v : α) : tget? (tset t i v) i = some v := by simp [tget?_tset]
theorem tget?_tset_ne {i j : Nat} (t : Tab α) (v : α) (h : i ≠ j) : tget? (tset t i v) j = tget? t j := by simp [tget?_tset, h]

theorem tget_tset (t : Tab α) (i j : Nat) (v d : α) : tget (tset t i v) j d = if i = j then v else tget t j d := by
  simp only [tget, tget?_tset]; split <;> rfl
@[simp] theorem tget_tset_self (t : Tab α) (i : Nat) (v d : α) : tget (tset t i v) i d = v := by simp [tget_tset]
theorem tget_tset_ne {i j : Nat} (t : Tab α) (v d : α) (h : i ≠ j) : tget (tset t i v) j d = tget t j d := by simp [tget_tset, h]

@[simp] theorem tget_nil (i : Nat) (d : α) : tget ([] : Tab α) i d = d := rfl

theorem tget?_tdel (t : Tab α) (i j : Nat) : tget? (tdel t i) j = if i = j then none else tget? t j := by
  induction t with
  | nil => simp [tdel, tget?]
  | cons x t ih =>
    obtain ⟨k, w⟩ := x
    simp only [tdel]
    split
    · subst_vars; simp only [ih, tget?]; split <;> simp_all
    · simp only [tget?, ih]; split <;> split <;> simp_all

theorem tget?_tdel_ne {i j : Nat} (t : Tab α) (h : i ≠ j) : tget? (tdel t i) j = tget? t j := by simp [tget?_tdel, h]
@[simp] theorem tget?_tdel_self (t : Tab α) (i : Nat) : tget? (tdel t i) i = none := by simp [tget?_tdel]

/-- Entries of other keys removed. -/
theorem tget?_filter (t : Tab α) (p : Nat × α → Bool) (j : Nat) (h : ∀ v, p (j, v) = true) : tget? (t.filter p) j = tget? t j := by
  induction t with
  | nil => rfl
  | cons x t ih =>
    obtain ⟨k, w⟩ := x
    simp only [List.filter_cons]
    by_cases hk : k = j
    · subst hk; simp [h, tget?]
    · split <;> simp [tget?, hk, ih]

end Sys2Proof.Machine
end

