-- ==== Sys2Proof/Laws/State.lean ====
section
/-! SUPPORT. One lemma for each field of State and each plain update: the field an update writes, and every other field as it was. -/

namespace Sys2Proof.Machine

variable (s : State)

/-! ### setThread -/

@[simp] theorem State.setThread_regs (t : Nat) (x : Thread) : (s.setThread t x).regs = s.regs := rfl
@[simp] theorem State.setThread_threads (t : Nat) (x : Thread) : (s.setThread t x).threads = tset s.threads t x := rfl
@[simp] theorem State.setThread_squads (t : Nat) (x : Thread) : (s.setThread t x).squads = s.squads := rfl
@[simp] theorem State.setThread_cores (t : Nat) (x : Thread) : (s.setThread t x).cores = s.cores := rfl
@[simp] theorem State.setThread_scratch (t : Nat) (x : Thread) : (s.setThread t x).scratch = s.scratch := rfl
@[simp] theorem State.setThread_ctxs (t : Nat) (x : Thread) : (s.setThread t x).ctxs = s.ctxs := rfl
@[simp] theorem State.setThread_faultMsgs (t : Nat) (x : Thread) : (s.setThread t x).faultMsgs = s.faultMsgs := rfl
@[simp] theorem State.setThread_clocks (t : Nat) (x : Thread) : (s.setThread t x).clocks = s.clocks := rfl
@[simp] theorem State.setThread_evCfg (t : Nat) (x : Thread) : (s.setThread t x).evCfg = s.evCfg := rfl
@[simp] theorem State.setThread_evCount (t : Nat) (x : Thread) : (s.setThread t x).evCount = s.evCount := rfl
@[simp] theorem State.setThread_fmterr (t : Nat) (x : Thread) : (s.setThread t x).fmterr = s.fmterr := rfl
@[simp] theorem State.setThread_sclerr (t : Nat) (x : Thread) : (s.setThread t x).sclerr = s.sclerr := rfl
@[simp] theorem State.setThread_mem (t : Nat) (x : Thread) : (s.setThread t x).mem = s.mem := rfl
@[simp] theorem State.setThread_hole (t : Nat) (x : Thread) : (s.setThread t x).hole = s.hole := rfl
@[simp] theorem State.setThread_copies (t : Nat) (x : Thread) : (s.setThread t x).copies = s.copies := rfl
@[simp] theorem State.setThread_owners (t : Nat) (x : Thread) : (s.setThread t x).owners = s.owners := rfl
@[simp] theorem State.setThread_relcount (t : Nat) (x : Thread) : (s.setThread t x).relcount = s.relcount := rfl
@[simp] theorem State.setThread_msgs (t : Nat) (x : Thread) : (s.setThread t x).msgs = s.msgs := rfl
@[simp] theorem State.setThread_seqs (t : Nat) (x : Thread) : (s.setThread t x).seqs = s.seqs := rfl
@[simp] theorem State.setThread_windows (t : Nat) (x : Thread) : (s.setThread t x).windows = s.windows := rfl
@[simp] theorem State.setThread_mirror (t : Nat) (x : Thread) : (s.setThread t x).mirror = s.mirror := rfl
@[simp] theorem State.setThread_tcs (t : Nat) (x : Thread) : (s.setThread t x).tcs = s.tcs := rfl
@[simp] theorem State.setThread_icache (t : Nat) (x : Thread) : (s.setThread t x).icache = s.icache := rfl
@[simp] theorem State.setThread_pinned (t : Nat) (x : Thread) : (s.setThread t x).pinned = s.pinned := rfl
@[simp] theorem State.setThread_pinnedPages (t : Nat) (x : Thread) : (s.setThread t x).pinnedPages = s.pinnedPages := rfl
@[simp] theorem State.setThread_queues (t : Nat) (x : Thread) : (s.setThread t x).queues = s.queues := rfl
@[simp] theorem State.setThread_queueHolder (t : Nat) (x : Thread) : (s.setThread t x).queueHolder = s.queueHolder := rfl
@[simp] theorem State.setThread_copyCmds (t : Nat) (x : Thread) : (s.setThread t x).copyCmds = s.copyCmds := rfl
@[simp] theorem State.setThread_nonfinite (t : Nat) (x : Thread) : (s.setThread t x).nonfinite = s.nonfinite := rfl
@[simp] theorem State.setThread_tilthErrors (t : Nat) (x : Thread) : (s.setThread t x).tilthErrors = s.tilthErrors := rfl
@[simp] theorem State.setThread_tasks (t : Nat) (x : Thread) : (s.setThread t x).tasks = s.tasks := rfl
@[simp] theorem State.setThread_misuse (t : Nat) (x : Thread) : (s.setThread t x).misuse = s.misuse := rfl
@[simp] theorem State.setThread_submitted (t : Nat) (x : Thread) : (s.setThread t x).submitted = s.submitted := rfl
@[simp] theorem State.setThread_launches (t : Nat) (x : Thread) : (s.setThread t x).launches = s.launches := rfl
@[simp] theorem State.setThread_gangs (t : Nat) (x : Thread) : (s.setThread t x).gangs = s.gangs := rfl
@[simp] theorem State.setThread_lastServed (t : Nat) (x : Thread) : (s.setThread t x).lastServed = s.lastServed := rfl
@[simp] theorem State.setThread_merges (t : Nat) (x : Thread) : (s.setThread t x).merges = s.merges := rfl
@[simp] theorem State.setThread_logicCk (t : Nat) (x : Thread) : (s.setThread t x).logicCk = s.logicCk := rfl
@[simp] theorem State.setThread_adverts (t : Nat) (x : Thread) : (s.setThread t x).adverts = s.adverts := rfl
@[simp] theorem State.setThread_offers (t : Nat) (x : Thread) : (s.setThread t x).offers = s.offers := rfl
@[simp] theorem State.setThread_natives (t : Nat) (x : Thread) : (s.setThread t x).natives = s.natives := rfl
@[simp] theorem State.setThread_counters (t : Nat) (x : Thread) : (s.setThread t x).counters = s.counters := rfl
@[simp] theorem State.setThread_slots (t : Nat) (x : Thread) : (s.setThread t x).slots = s.slots := rfl
@[simp] theorem State.setThread_asterSeq (t : Nat) (x : Thread) : (s.setThread t x).asterSeq = s.asterSeq := rfl
@[simp] theorem State.setThread_asterErr (t : Nat) (x : Thread) : (s.setThread t x).asterErr = s.asterErr := rfl
@[simp] theorem State.setThread_startQueue (t : Nat) (x : Thread) : (s.setThread t x).startQueue = s.startQueue := rfl
@[simp] theorem State.setThread_startCk (t : Nat) (x : Thread) : (s.setThread t x).startCk = s.startCk := rfl
@[simp] theorem State.setThread_arrivals (t : Nat) (x : Thread) : (s.setThread t x).arrivals = s.arrivals := rfl
@[simp] theorem State.setThread_dbgctl (t : Nat) (x : Thread) : (s.setThread t x).dbgctl = s.dbgctl := rfl
@[simp] theorem State.setThread_hostRegs (t : Nat) (x : Thread) : (s.setThread t x).hostRegs = s.hostRegs := rfl
@[simp] theorem State.setThread_faults (t : Nat) (x : Thread) : (s.setThread t x).faults = s.faults := rfl
@[simp] theorem State.setThread_shootdowns (t : Nat) (x : Thread) : (s.setThread t x).shootdowns = s.shootdowns := rfl
@[simp] theorem State.setThread_pins (t : Nat) (x : Thread) : (s.setThread t x).pins = s.pins := rfl
@[simp] theorem State.setThread_regionMsgs (t : Nat) (x : Thread) : (s.setThread t x).regionMsgs = s.regionMsgs := rfl
@[simp] theorem State.setThread_lost (t : Nat) (x : Thread) : (s.setThread t x).lost = s.lost := rfl
@[simp] theorem State.setThread_dead (t : Nat) (x : Thread) : (s.setThread t x).dead = s.dead := rfl
@[simp] theorem State.setThread_upward (t : Nat) (x : Thread) : (s.setThread t x).upward = s.upward := rfl
@[simp] theorem State.setThread_assembling (t : Nat) (x : Thread) : (s.setThread t x).assembling = s.assembling := rfl
@[simp] theorem State.setThread_inject (t : Nat) (x : Thread) : (s.setThread t x).inject = s.inject := rfl
@[simp] theorem State.setThread_transit (t : Nat) (x : Thread) : (s.setThread t x).transit = s.transit := rfl
@[simp] theorem State.setThread_ingress (t : Nat) (x : Thread) : (s.setThread t x).ingress = s.ingress := rfl
@[simp] theorem State.setThread_modules (t : Nat) (x : Thread) : (s.setThread t x).modules = s.modules := rfl
@[simp] theorem State.setThread_lines (t : Nat) (x : Thread) : (s.setThread t x).lines = s.lines := rfl
@[simp] theorem State.setThread_lineNext (t : Nat) (x : Thread) : (s.setThread t x).lineNext = s.lineNext := rfl
@[simp] theorem State.setThread_pkgs (t : Nat) (x : Thread) : (s.setThread t x).pkgs = s.pkgs := rfl
@[simp] theorem State.setThread_pinSlots (t : Nat) (x : Thread) : (s.setThread t x).pinSlots = s.pinSlots := rfl
@[simp] theorem State.setThread_agenda (t : Nat) (x : Thread) : (s.setThread t x).agenda = s.agenda := rfl
@[simp] theorem State.setThread_picks (t : Nat) (x : Thread) : (s.setThread t x).picks = s.picks := rfl
@[simp] theorem State.setThread_issue (t : Nat) (x : Thread) : (s.setThread t x).issue = s.issue := rfl
@[simp] theorem State.setThread_tick (t : Nat) (x : Thread) : (s.setThread t x).tick = s.tick := rfl
@[simp] theorem State.setThread_freeCount (t : Nat) (x : Thread) : (s.setThread t x).freeCount = s.freeCount := rfl
@[simp] theorem State.setThread_nextId (t : Nat) (x : Thread) : (s.setThread t x).nextId = s.nextId := rfl

/-! ### setSquad -/

@[simp] theorem State.setSquad_regs (q : Nat) (x : Squad) : (s.setSquad q x).regs = s.regs := rfl
@[simp] theorem State.setSquad_threads (q : Nat) (x : Squad) : (s.setSquad q x).threads = s.threads := rfl
@[simp] theorem State.setSquad_squads (q : Nat) (x : Squad) : (s.setSquad q x).squads = tset s.squads q x := rfl
@[simp] theorem State.setSquad_cores (q : Nat) (x : Squad) : (s.setSquad q x).cores = s.cores := rfl
@[simp] theorem State.setSquad_scratch (q : Nat) (x : Squad) : (s.setSquad q x).scratch = s.scratch := rfl
@[simp] theorem State.setSquad_ctxs (q : Nat) (x : Squad) : (s.setSquad q x).ctxs = s.ctxs := rfl
@[simp] theorem State.setSquad_faultMsgs (q : Nat) (x : Squad) : (s.setSquad q x).faultMsgs = s.faultMsgs := rfl
@[simp] theorem State.setSquad_clocks (q : Nat) (x : Squad) : (s.setSquad q x).clocks = s.clocks := rfl
@[simp] theorem State.setSquad_evCfg (q : Nat) (x : Squad) : (s.setSquad q x).evCfg = s.evCfg := rfl
@[simp] theorem State.setSquad_evCount (q : Nat) (x : Squad) : (s.setSquad q x).evCount = s.evCount := rfl
@[simp] theorem State.setSquad_fmterr (q : Nat) (x : Squad) : (s.setSquad q x).fmterr = s.fmterr := rfl
@[simp] theorem State.setSquad_sclerr (q : Nat) (x : Squad) : (s.setSquad q x).sclerr = s.sclerr := rfl
@[simp] theorem State.setSquad_mem (q : Nat) (x : Squad) : (s.setSquad q x).mem = s.mem := rfl
@[simp] theorem State.setSquad_hole (q : Nat) (x : Squad) : (s.setSquad q x).hole = s.hole := rfl
@[simp] theorem State.setSquad_copies (q : Nat) (x : Squad) : (s.setSquad q x).copies = s.copies := rfl
@[simp] theorem State.setSquad_owners (q : Nat) (x : Squad) : (s.setSquad q x).owners = s.owners := rfl
@[simp] theorem State.setSquad_relcount (q : Nat) (x : Squad) : (s.setSquad q x).relcount = s.relcount := rfl
@[simp] theorem State.setSquad_msgs (q : Nat) (x : Squad) : (s.setSquad q x).msgs = s.msgs := rfl
@[simp] theorem State.setSquad_seqs (q : Nat) (x : Squad) : (s.setSquad q x).seqs = s.seqs := rfl
@[simp] theorem State.setSquad_windows (q : Nat) (x : Squad) : (s.setSquad q x).windows = s.windows := rfl
@[simp] theorem State.setSquad_mirror (q : Nat) (x : Squad) : (s.setSquad q x).mirror = s.mirror := rfl
@[simp] theorem State.setSquad_tcs (q : Nat) (x : Squad) : (s.setSquad q x).tcs = s.tcs := rfl
@[simp] theorem State.setSquad_icache (q : Nat) (x : Squad) : (s.setSquad q x).icache = s.icache := rfl
@[simp] theorem State.setSquad_pinned (q : Nat) (x : Squad) : (s.setSquad q x).pinned = s.pinned := rfl
@[simp] theorem State.setSquad_pinnedPages (q : Nat) (x : Squad) : (s.setSquad q x).pinnedPages = s.pinnedPages := rfl
@[simp] theorem State.setSquad_queues (q : Nat) (x : Squad) : (s.setSquad q x).queues = s.queues := rfl
@[simp] theorem State.setSquad_queueHolder (q : Nat) (x : Squad) : (s.setSquad q x).queueHolder = s.queueHolder := rfl
@[simp] theorem State.setSquad_copyCmds (q : Nat) (x : Squad) : (s.setSquad q x).copyCmds = s.copyCmds := rfl
@[simp] theorem State.setSquad_nonfinite (q : Nat) (x : Squad) : (s.setSquad q x).nonfinite = s.nonfinite := rfl
@[simp] theorem State.setSquad_tilthErrors (q : Nat) (x : Squad) : (s.setSquad q x).tilthErrors = s.tilthErrors := rfl
@[simp] theorem State.setSquad_tasks (q : Nat) (x : Squad) : (s.setSquad q x).tasks = s.tasks := rfl
@[simp] theorem State.setSquad_misuse (q : Nat) (x : Squad) : (s.setSquad q x).misuse = s.misuse := rfl
@[simp] theorem State.setSquad_submitted (q : Nat) (x : Squad) : (s.setSquad q x).submitted = s.submitted := rfl
@[simp] theorem State.setSquad_launches (q : Nat) (x : Squad) : (s.setSquad q x).launches = s.launches := rfl
@[simp] theorem State.setSquad_gangs (q : Nat) (x : Squad) : (s.setSquad q x).gangs = s.gangs := rfl
@[simp] theorem State.setSquad_lastServed (q : Nat) (x : Squad) : (s.setSquad q x).lastServed = s.lastServed := rfl
@[simp] theorem State.setSquad_merges (q : Nat) (x : Squad) : (s.setSquad q x).merges = s.merges := rfl
@[simp] theorem State.setSquad_logicCk (q : Nat) (x : Squad) : (s.setSquad q x).logicCk = s.logicCk := rfl
@[simp] theorem State.setSquad_adverts (q : Nat) (x : Squad) : (s.setSquad q x).adverts = s.adverts := rfl
@[simp] theorem State.setSquad_offers (q : Nat) (x : Squad) : (s.setSquad q x).offers = s.offers := rfl
@[simp] theorem State.setSquad_natives (q : Nat) (x : Squad) : (s.setSquad q x).natives = s.natives := rfl
@[simp] theorem State.setSquad_counters (q : Nat) (x : Squad) : (s.setSquad q x).counters = s.counters := rfl
@[simp] theorem State.setSquad_slots (q : Nat) (x : Squad) : (s.setSquad q x).slots = s.slots := rfl
@[simp] theorem State.setSquad_asterSeq (q : Nat) (x : Squad) : (s.setSquad q x).asterSeq = s.asterSeq := rfl
@[simp] theorem State.setSquad_asterErr (q : Nat) (x : Squad) : (s.setSquad q x).asterErr = s.asterErr := rfl
@[simp] theorem State.setSquad_startQueue (q : Nat) (x : Squad) : (s.setSquad q x).startQueue = s.startQueue := rfl
@[simp] theorem State.setSquad_startCk (q : Nat) (x : Squad) : (s.setSquad q x).startCk = s.startCk := rfl
@[simp] theorem State.setSquad_arrivals (q : Nat) (x : Squad) : (s.setSquad q x).arrivals = s.arrivals := rfl
@[simp] theorem State.setSquad_dbgctl (q : Nat) (x : Squad) : (s.setSquad q x).dbgctl = s.dbgctl := rfl
@[simp] theorem State.setSquad_hostRegs (q : Nat) (x : Squad) : (s.setSquad q x).hostRegs = s.hostRegs := rfl
@[simp] theorem State.setSquad_faults (q : Nat) (x : Squad) : (s.setSquad q x).faults = s.faults := rfl
@[simp] theorem State.setSquad_shootdowns (q : Nat) (x : Squad) : (s.setSquad q x).shootdowns = s.shootdowns := rfl
@[simp] theorem State.setSquad_pins (q : Nat) (x : Squad) : (s.setSquad q x).pins = s.pins := rfl
@[simp] theorem State.setSquad_regionMsgs (q : Nat) (x : Squad) : (s.setSquad q x).regionMsgs = s.regionMsgs := rfl
@[simp] theorem State.setSquad_lost (q : Nat) (x : Squad) : (s.setSquad q x).lost = s.lost := rfl
@[simp] theorem State.setSquad_dead (q : Nat) (x : Squad) : (s.setSquad q x).dead = s.dead := rfl
@[simp] theorem State.setSquad_upward (q : Nat) (x : Squad) : (s.setSquad q x).upward = s.upward := rfl
@[simp] theorem State.setSquad_assembling (q : Nat) (x : Squad) : (s.setSquad q x).assembling = s.assembling := rfl
@[simp] theorem State.setSquad_inject (q : Nat) (x : Squad) : (s.setSquad q x).inject = s.inject := rfl
@[simp] theorem State.setSquad_transit (q : Nat) (x : Squad) : (s.setSquad q x).transit = s.transit := rfl
@[simp] theorem State.setSquad_ingress (q : Nat) (x : Squad) : (s.setSquad q x).ingress = s.ingress := rfl
@[simp] theorem State.setSquad_modules (q : Nat) (x : Squad) : (s.setSquad q x).modules = s.modules := rfl
@[simp] theorem State.setSquad_lines (q : Nat) (x : Squad) : (s.setSquad q x).lines = s.lines := rfl
@[simp] theorem State.setSquad_lineNext (q : Nat) (x : Squad) : (s.setSquad q x).lineNext = s.lineNext := rfl
@[simp] theorem State.setSquad_pkgs (q : Nat) (x : Squad) : (s.setSquad q x).pkgs = s.pkgs := rfl
@[simp] theorem State.setSquad_pinSlots (q : Nat) (x : Squad) : (s.setSquad q x).pinSlots = s.pinSlots := rfl
@[simp] theorem State.setSquad_agenda (q : Nat) (x : Squad) : (s.setSquad q x).agenda = s.agenda := rfl
@[simp] theorem State.setSquad_picks (q : Nat) (x : Squad) : (s.setSquad q x).picks = s.picks := rfl
@[simp] theorem State.setSquad_issue (q : Nat) (x : Squad) : (s.setSquad q x).issue = s.issue := rfl
@[simp] theorem State.setSquad_tick (q : Nat) (x : Squad) : (s.setSquad q x).tick = s.tick := rfl
@[simp] theorem State.setSquad_freeCount (q : Nat) (x : Squad) : (s.setSquad q x).freeCount = s.freeCount := rfl
@[simp] theorem State.setSquad_nextId (q : Nat) (x : Squad) : (s.setSquad q x).nextId = s.nextId := rfl

/-! ### setCore -/

@[simp] theorem State.setCore_regs (c : Nat) (x : Core) : (s.setCore c x).regs = s.regs := rfl
@[simp] theorem State.setCore_threads (c : Nat) (x : Core) : (s.setCore c x).threads = s.threads := rfl
@[simp] theorem State.setCore_squads (c : Nat) (x : Core) : (s.setCore c x).squads = s.squads := rfl
@[simp] theorem State.setCore_cores (c : Nat) (x : Core) : (s.setCore c x).cores = tset s.cores c x := rfl
@[simp] theorem State.setCore_scratch (c : Nat) (x : Core) : (s.setCore c x).scratch = s.scratch := rfl
@[simp] theorem State.setCore_ctxs (c : Nat) (x : Core) : (s.setCore c x).ctxs = s.ctxs := rfl
@[simp] theorem State.setCore_faultMsgs (c : Nat) (x : Core) : (s.setCore c x).faultMsgs = s.faultMsgs := rfl
@[simp] theorem State.setCore_clocks (c : Nat) (x : Core) : (s.setCore c x).clocks = s.clocks := rfl
@[simp] theorem State.setCore_evCfg (c : Nat) (x : Core) : (s.setCore c x).evCfg = s.evCfg := rfl
@[simp] theorem State.setCore_evCount (c : Nat) (x : Core) : (s.setCore c x).evCount = s.evCount := rfl
@[simp] theorem State.setCore_fmterr (c : Nat) (x : Core) : (s.setCore c x).fmterr = s.fmterr := rfl
@[simp] theorem State.setCore_sclerr (c : Nat) (x : Core) : (s.setCore c x).sclerr = s.sclerr := rfl
@[simp] theorem State.setCore_mem (c : Nat) (x : Core) : (s.setCore c x).mem = s.mem := rfl
@[simp] theorem State.setCore_hole (c : Nat) (x : Core) : (s.setCore c x).hole = s.hole := rfl
@[simp] theorem State.setCore_copies (c : Nat) (x : Core) : (s.setCore c x).copies = s.copies := rfl
@[simp] theorem State.setCore_owners (c : Nat) (x : Core) : (s.setCore c x).owners = s.owners := rfl
@[simp] theorem State.setCore_relcount (c : Nat) (x : Core) : (s.setCore c x).relcount = s.relcount := rfl
@[simp] theorem State.setCore_msgs (c : Nat) (x : Core) : (s.setCore c x).msgs = s.msgs := rfl
@[simp] theorem State.setCore_seqs (c : Nat) (x : Core) : (s.setCore c x).seqs = s.seqs := rfl
@[simp] theorem State.setCore_windows (c : Nat) (x : Core) : (s.setCore c x).windows = s.windows := rfl
@[simp] theorem State.setCore_mirror (c : Nat) (x : Core) : (s.setCore c x).mirror = s.mirror := rfl
@[simp] theorem State.setCore_tcs (c : Nat) (x : Core) : (s.setCore c x).tcs = s.tcs := rfl
@[simp] theorem State.setCore_icache (c : Nat) (x : Core) : (s.setCore c x).icache = s.icache := rfl
@[simp] theorem State.setCore_pinned (c : Nat) (x : Core) : (s.setCore c x).pinned = s.pinned := rfl
@[simp] theorem State.setCore_pinnedPages (c : Nat) (x : Core) : (s.setCore c x).pinnedPages = s.pinnedPages := rfl
@[simp] theorem State.setCore_queues (c : Nat) (x : Core) : (s.setCore c x).queues = s.queues := rfl
@[simp] theorem State.setCore_queueHolder (c : Nat) (x : Core) : (s.setCore c x).queueHolder = s.queueHolder := rfl
@[simp] theorem State.setCore_copyCmds (c : Nat) (x : Core) : (s.setCore c x).copyCmds = s.copyCmds := rfl
@[simp] theorem State.setCore_nonfinite (c : Nat) (x : Core) : (s.setCore c x).nonfinite = s.nonfinite := rfl
@[simp] theorem State.setCore_tilthErrors (c : Nat) (x : Core) : (s.setCore c x).tilthErrors = s.tilthErrors := rfl
@[simp] theorem State.setCore_tasks (c : Nat) (x : Core) : (s.setCore c x).tasks = s.tasks := rfl
@[simp] theorem State.setCore_misuse (c : Nat) (x : Core) : (s.setCore c x).misuse = s.misuse := rfl
@[simp] theorem State.setCore_submitted (c : Nat) (x : Core) : (s.setCore c x).submitted = s.submitted := rfl
@[simp] theorem State.setCore_launches (c : Nat) (x : Core) : (s.setCore c x).launches = s.launches := rfl
@[simp] theorem State.setCore_gangs (c : Nat) (x : Core) : (s.setCore c x).gangs = s.gangs := rfl
@[simp] theorem State.setCore_lastServed (c : Nat) (x : Core) : (s.setCore c x).lastServed = s.lastServed := rfl
@[simp] theorem State.setCore_merges (c : Nat) (x : Core) : (s.setCore c x).merges = s.merges := rfl
@[simp] theorem State.setCore_logicCk (c : Nat) (x : Core) : (s.setCore c x).logicCk = s.logicCk := rfl
@[simp] theorem State.setCore_adverts (c : Nat) (x : Core) : (s.setCore c x).adverts = s.adverts := rfl
@[simp] theorem State.setCore_offers (c : Nat) (x : Core) : (s.setCore c x).offers = s.offers := rfl
@[simp] theorem State.setCore_natives (c : Nat) (x : Core) : (s.setCore c x).natives = s.natives := rfl
@[simp] theorem State.setCore_counters (c : Nat) (x : Core) : (s.setCore c x).counters = s.counters := rfl
@[simp] theorem State.setCore_slots (c : Nat) (x : Core) : (s.setCore c x).slots = s.slots := rfl
@[simp] theorem State.setCore_asterSeq (c : Nat) (x : Core) : (s.setCore c x).asterSeq = s.asterSeq := rfl
@[simp] theorem State.setCore_asterErr (c : Nat) (x : Core) : (s.setCore c x).asterErr = s.asterErr := rfl
@[simp] theorem State.setCore_startQueue (c : Nat) (x : Core) : (s.setCore c x).startQueue = s.startQueue := rfl
@[simp] theorem State.setCore_startCk (c : Nat) (x : Core) : (s.setCore c x).startCk = s.startCk := rfl
@[simp] theorem State.setCore_arrivals (c : Nat) (x : Core) : (s.setCore c x).arrivals = s.arrivals := rfl
@[simp] theorem State.setCore_dbgctl (c : Nat) (x : Core) : (s.setCore c x).dbgctl = s.dbgctl := rfl
@[simp] theorem State.setCore_hostRegs (c : Nat) (x : Core) : (s.setCore c x).hostRegs = s.hostRegs := rfl
@[simp] theorem State.setCore_faults (c : Nat) (x : Core) : (s.setCore c x).faults = s.faults := rfl
@[simp] theorem State.setCore_shootdowns (c : Nat) (x : Core) : (s.setCore c x).shootdowns = s.shootdowns := rfl
@[simp] theorem State.setCore_pins (c : Nat) (x : Core) : (s.setCore c x).pins = s.pins := rfl
@[simp] theorem State.setCore_regionMsgs (c : Nat) (x : Core) : (s.setCore c x).regionMsgs = s.regionMsgs := rfl
@[simp] theorem State.setCore_lost (c : Nat) (x : Core) : (s.setCore c x).lost = s.lost := rfl
@[simp] theorem State.setCore_dead (c : Nat) (x : Core) : (s.setCore c x).dead = s.dead := rfl
@[simp] theorem State.setCore_upward (c : Nat) (x : Core) : (s.setCore c x).upward = s.upward := rfl
@[simp] theorem State.setCore_assembling (c : Nat) (x : Core) : (s.setCore c x).assembling = s.assembling := rfl
@[simp] theorem State.setCore_inject (c : Nat) (x : Core) : (s.setCore c x).inject = s.inject := rfl
@[simp] theorem State.setCore_transit (c : Nat) (x : Core) : (s.setCore c x).transit = s.transit := rfl
@[simp] theorem State.setCore_ingress (c : Nat) (x : Core) : (s.setCore c x).ingress = s.ingress := rfl
@[simp] theorem State.setCore_modules (c : Nat) (x : Core) : (s.setCore c x).modules = s.modules := rfl
@[simp] theorem State.setCore_lines (c : Nat) (x : Core) : (s.setCore c x).lines = s.lines := rfl
@[simp] theorem State.setCore_lineNext (c : Nat) (x : Core) : (s.setCore c x).lineNext = s.lineNext := rfl
@[simp] theorem State.setCore_pkgs (c : Nat) (x : Core) : (s.setCore c x).pkgs = s.pkgs := rfl
@[simp] theorem State.setCore_pinSlots (c : Nat) (x : Core) : (s.setCore c x).pinSlots = s.pinSlots := rfl
@[simp] theorem State.setCore_agenda (c : Nat) (x : Core) : (s.setCore c x).agenda = s.agenda := rfl
@[simp] theorem State.setCore_picks (c : Nat) (x : Core) : (s.setCore c x).picks = s.picks := rfl
@[simp] theorem State.setCore_issue (c : Nat) (x : Core) : (s.setCore c x).issue = s.issue := rfl
@[simp] theorem State.setCore_tick (c : Nat) (x : Core) : (s.setCore c x).tick = s.tick := rfl
@[simp] theorem State.setCore_freeCount (c : Nat) (x : Core) : (s.setCore c x).freeCount = s.freeCount := rfl
@[simp] theorem State.setCore_nextId (c : Nat) (x : Core) : (s.setCore c x).nextId = s.nextId := rfl

/-! ### modThread -/

@[simp] theorem State.modThread_regs (t : Nat) (f : Thread → Thread) : (s.modThread t f).regs = s.regs := rfl
@[simp] theorem State.modThread_threads (t : Nat) (f : Thread → Thread) : (s.modThread t f).threads = tset s.threads t (f (s.thread t)) := rfl
@[simp] theorem State.modThread_squads (t : Nat) (f : Thread → Thread) : (s.modThread t f).squads = s.squads := rfl
@[simp] theorem State.modThread_cores (t : Nat) (f : Thread → Thread) : (s.modThread t f).cores = s.cores := rfl
@[simp] theorem State.modThread_scratch (t : Nat) (f : Thread → Thread) : (s.modThread t f).scratch = s.scratch := rfl
@[simp] theorem State.modThread_ctxs (t : Nat) (f : Thread → Thread) : (s.modThread t f).ctxs = s.ctxs := rfl
@[simp] theorem State.modThread_faultMsgs (t : Nat) (f : Thread → Thread) : (s.modThread t f).faultMsgs = s.faultMsgs := rfl
@[simp] theorem State.modThread_clocks (t : Nat) (f : Thread → Thread) : (s.modThread t f).clocks = s.clocks := rfl
@[simp] theorem State.modThread_evCfg (t : Nat) (f : Thread → Thread) : (s.modThread t f).evCfg = s.evCfg := rfl
@[simp] theorem State.modThread_evCount (t : Nat) (f : Thread → Thread) : (s.modThread t f).evCount = s.evCount := rfl
@[simp] theorem State.modThread_fmterr (t : Nat) (f : Thread → Thread) : (s.modThread t f).fmterr = s.fmterr := rfl
@[simp] theorem State.modThread_sclerr (t : Nat) (f : Thread → Thread) : (s.modThread t f).sclerr = s.sclerr := rfl
@[simp] theorem State.modThread_mem (t : Nat) (f : Thread → Thread) : (s.modThread t f).mem = s.mem := rfl
@[simp] theorem State.modThread_hole (t : Nat) (f : Thread → Thread) : (s.modThread t f).hole = s.hole := rfl
@[simp] theorem State.modThread_copies (t : Nat) (f : Thread → Thread) : (s.modThread t f).copies = s.copies := rfl
@[simp] theorem State.modThread_owners (t : Nat) (f : Thread → Thread) : (s.modThread t f).owners = s.owners := rfl
@[simp] theorem State.modThread_relcount (t : Nat) (f : Thread → Thread) : (s.modThread t f).relcount = s.relcount := rfl
@[simp] theorem State.modThread_msgs (t : Nat) (f : Thread → Thread) : (s.modThread t f).msgs = s.msgs := rfl
@[simp] theorem State.modThread_seqs (t : Nat) (f : Thread → Thread) : (s.modThread t f).seqs = s.seqs := rfl
@[simp] theorem State.modThread_windows (t : Nat) (f : Thread → Thread) : (s.modThread t f).windows = s.windows := rfl
@[simp] theorem State.modThread_mirror (t : Nat) (f : Thread → Thread) : (s.modThread t f).mirror = s.mirror := rfl
@[simp] theorem State.modThread_tcs (t : Nat) (f : Thread → Thread) : (s.modThread t f).tcs = s.tcs := rfl
@[simp] theorem State.modThread_icache (t : Nat) (f : Thread → Thread) : (s.modThread t f).icache = s.icache := rfl
@[simp] theorem State.modThread_pinned (t : Nat) (f : Thread → Thread) : (s.modThread t f).pinned = s.pinned := rfl
@[simp] theorem State.modThread_pinnedPages (t : Nat) (f : Thread → Thread) : (s.modThread t f).pinnedPages = s.pinnedPages := rfl
@[simp] theorem State.modThread_queues (t : Nat) (f : Thread → Thread) : (s.modThread t f).queues = s.queues := rfl
@[simp] theorem State.modThread_queueHolder (t : Nat) (f : Thread → Thread) : (s.modThread t f).queueHolder = s.queueHolder := rfl
@[simp] theorem State.modThread_copyCmds (t : Nat) (f : Thread → Thread) : (s.modThread t f).copyCmds = s.copyCmds := rfl
@[simp] theorem State.modThread_nonfinite (t : Nat) (f : Thread → Thread) : (s.modThread t f).nonfinite = s.nonfinite := rfl
@[simp] theorem State.modThread_tilthErrors (t : Nat) (f : Thread → Thread) : (s.modThread t f).tilthErrors = s.tilthErrors := rfl
@[simp] theorem State.modThread_tasks (t : Nat) (f : Thread → Thread) : (s.modThread t f).tasks = s.tasks := rfl
@[simp] theorem State.modThread_misuse (t : Nat) (f : Thread → Thread) : (s.modThread t f).misuse = s.misuse := rfl
@[simp] theorem State.modThread_submitted (t : Nat) (f : Thread → Thread) : (s.modThread t f).submitted = s.submitted := rfl
@[simp] theorem State.modThread_launches (t : Nat) (f : Thread → Thread) : (s.modThread t f).launches = s.launches := rfl
@[simp] theorem State.modThread_gangs (t : Nat) (f : Thread → Thread) : (s.modThread t f).gangs = s.gangs := rfl
@[simp] theorem State.modThread_lastServed (t : Nat) (f : Thread → Thread) : (s.modThread t f).lastServed = s.lastServed := rfl
@[simp] theorem State.modThread_merges (t : Nat) (f : Thread → Thread) : (s.modThread t f).merges = s.merges := rfl
@[simp] theorem State.modThread_logicCk (t : Nat) (f : Thread → Thread) : (s.modThread t f).logicCk = s.logicCk := rfl
@[simp] theorem State.modThread_adverts (t : Nat) (f : Thread → Thread) : (s.modThread t f).adverts = s.adverts := rfl
@[simp] theorem State.modThread_offers (t : Nat) (f : Thread → Thread) : (s.modThread t f).offers = s.offers := rfl
@[simp] theorem State.modThread_natives (t : Nat) (f : Thread → Thread) : (s.modThread t f).natives = s.natives := rfl
@[simp] theorem State.modThread_counters (t : Nat) (f : Thread → Thread) : (s.modThread t f).counters = s.counters := rfl
@[simp] theorem State.modThread_slots (t : Nat) (f : Thread → Thread) : (s.modThread t f).slots = s.slots := rfl
@[simp] theorem State.modThread_asterSeq (t : Nat) (f : Thread → Thread) : (s.modThread t f).asterSeq = s.asterSeq := rfl
@[simp] theorem State.modThread_asterErr (t : Nat) (f : Thread → Thread) : (s.modThread t f).asterErr = s.asterErr := rfl
@[simp] theorem State.modThread_startQueue (t : Nat) (f : Thread → Thread) : (s.modThread t f).startQueue = s.startQueue := rfl
@[simp] theorem State.modThread_startCk (t : Nat) (f : Thread → Thread) : (s.modThread t f).startCk = s.startCk := rfl
@[simp] theorem State.modThread_arrivals (t : Nat) (f : Thread → Thread) : (s.modThread t f).arrivals = s.arrivals := rfl
@[simp] theorem State.modThread_dbgctl (t : Nat) (f : Thread → Thread) : (s.modThread t f).dbgctl = s.dbgctl := rfl
@[simp] theorem State.modThread_hostRegs (t : Nat) (f : Thread → Thread) : (s.modThread t f).hostRegs = s.hostRegs := rfl
@[simp] theorem State.modThread_faults (t : Nat) (f : Thread → Thread) : (s.modThread t f).faults = s.faults := rfl
@[simp] theorem State.modThread_shootdowns (t : Nat) (f : Thread → Thread) : (s.modThread t f).shootdowns = s.shootdowns := rfl
@[simp] theorem State.modThread_pins (t : Nat) (f : Thread → Thread) : (s.modThread t f).pins = s.pins := rfl
@[simp] theorem State.modThread_regionMsgs (t : Nat) (f : Thread → Thread) : (s.modThread t f).regionMsgs = s.regionMsgs := rfl
@[simp] theorem State.modThread_lost (t : Nat) (f : Thread → Thread) : (s.modThread t f).lost = s.lost := rfl
@[simp] theorem State.modThread_dead (t : Nat) (f : Thread → Thread) : (s.modThread t f).dead = s.dead := rfl
@[simp] theorem State.modThread_upward (t : Nat) (f : Thread → Thread) : (s.modThread t f).upward = s.upward := rfl
@[simp] theorem State.modThread_assembling (t : Nat) (f : Thread → Thread) : (s.modThread t f).assembling = s.assembling := rfl
@[simp] theorem State.modThread_inject (t : Nat) (f : Thread → Thread) : (s.modThread t f).inject = s.inject := rfl
@[simp] theorem State.modThread_transit (t : Nat) (f : Thread → Thread) : (s.modThread t f).transit = s.transit := rfl
@[simp] theorem State.modThread_ingress (t : Nat) (f : Thread → Thread) : (s.modThread t f).ingress = s.ingress := rfl
@[simp] theorem State.modThread_modules (t : Nat) (f : Thread → Thread) : (s.modThread t f).modules = s.modules := rfl
@[simp] theorem State.modThread_lines (t : Nat) (f : Thread → Thread) : (s.modThread t f).lines = s.lines := rfl
@[simp] theorem State.modThread_lineNext (t : Nat) (f : Thread → Thread) : (s.modThread t f).lineNext = s.lineNext := rfl
@[simp] theorem State.modThread_pkgs (t : Nat) (f : Thread → Thread) : (s.modThread t f).pkgs = s.pkgs := rfl
@[simp] theorem State.modThread_pinSlots (t : Nat) (f : Thread → Thread) : (s.modThread t f).pinSlots = s.pinSlots := rfl
@[simp] theorem State.modThread_agenda (t : Nat) (f : Thread → Thread) : (s.modThread t f).agenda = s.agenda := rfl
@[simp] theorem State.modThread_picks (t : Nat) (f : Thread → Thread) : (s.modThread t f).picks = s.picks := rfl
@[simp] theorem State.modThread_issue (t : Nat) (f : Thread → Thread) : (s.modThread t f).issue = s.issue := rfl
@[simp] theorem State.modThread_tick (t : Nat) (f : Thread → Thread) : (s.modThread t f).tick = s.tick := rfl
@[simp] theorem State.modThread_freeCount (t : Nat) (f : Thread → Thread) : (s.modThread t f).freeCount = s.freeCount := rfl
@[simp] theorem State.modThread_nextId (t : Nat) (f : Thread → Thread) : (s.modThread t f).nextId = s.nextId := rfl

/-! ### modSquad -/

@[simp] theorem State.modSquad_regs (q : Nat) (f : Squad → Squad) : (s.modSquad q f).regs = s.regs := rfl
@[simp] theorem State.modSquad_threads (q : Nat) (f : Squad → Squad) : (s.modSquad q f).threads = s.threads := rfl
@[simp] theorem State.modSquad_squads (q : Nat) (f : Squad → Squad) : (s.modSquad q f).squads = tset s.squads q (f (s.squad q)) := rfl
@[simp] theorem State.modSquad_cores (q : Nat) (f : Squad → Squad) : (s.modSquad q f).cores = s.cores := rfl
@[simp] theorem State.modSquad_scratch (q : Nat) (f : Squad → Squad) : (s.modSquad q f).scratch = s.scratch := rfl
@[simp] theorem State.modSquad_ctxs (q : Nat) (f : Squad → Squad) : (s.modSquad q f).ctxs = s.ctxs := rfl
@[simp] theorem State.modSquad_faultMsgs (q : Nat) (f : Squad → Squad) : (s.modSquad q f).faultMsgs = s.faultMsgs := rfl
@[simp] theorem State.modSquad_clocks (q : Nat) (f : Squad → Squad) : (s.modSquad q f).clocks = s.clocks := rfl
@[simp] theorem State.modSquad_evCfg (q : Nat) (f : Squad → Squad) : (s.modSquad q f).evCfg = s.evCfg := rfl
@[simp] theorem State.modSquad_evCount (q : Nat) (f : Squad → Squad) : (s.modSquad q f).evCount = s.evCount := rfl
@[simp] theorem State.modSquad_fmterr (q : Nat) (f : Squad → Squad) : (s.modSquad q f).fmterr = s.fmterr := rfl
@[simp] theorem State.modSquad_sclerr (q : Nat) (f : Squad → Squad) : (s.modSquad q f).sclerr = s.sclerr := rfl
@[simp] theorem State.modSquad_mem (q : Nat) (f : Squad → Squad) : (s.modSquad q f).mem = s.mem := rfl
@[simp] theorem State.modSquad_hole (q : Nat) (f : Squad → Squad) : (s.modSquad q f).hole = s.hole := rfl
@[simp] theorem State.modSquad_copies (q : Nat) (f : Squad → Squad) : (s.modSquad q f).copies = s.copies := rfl
@[simp] theorem State.modSquad_owners (q : Nat) (f : Squad → Squad) : (s.modSquad q f).owners = s.owners := rfl
@[simp] theorem State.modSquad_relcount (q : Nat) (f : Squad → Squad) : (s.modSquad q f).relcount = s.relcount := rfl
@[simp] theorem State.modSquad_msgs (q : Nat) (f : Squad → Squad) : (s.modSquad q f).msgs = s.msgs := rfl
@[simp] theorem State.modSquad_seqs (q : Nat) (f : Squad → Squad) : (s.modSquad q f).seqs = s.seqs := rfl
@[simp] theorem State.modSquad_windows (q : Nat) (f : Squad → Squad) : (s.modSquad q f).windows = s.windows := rfl
@[simp] theorem State.modSquad_mirror (q : Nat) (f : Squad → Squad) : (s.modSquad q f).mirror = s.mirror := rfl
@[simp] theorem State.modSquad_tcs (q : Nat) (f : Squad → Squad) : (s.modSquad q f).tcs = s.tcs := rfl
@[simp] theorem State.modSquad_icache (q : Nat) (f : Squad → Squad) : (s.modSquad q f).icache = s.icache := rfl
@[simp] theorem State.modSquad_pinned (q : Nat) (f : Squad → Squad) : (s.modSquad q f).pinned = s.pinned := rfl
@[simp] theorem State.modSquad_pinnedPages (q : Nat) (f : Squad → Squad) : (s.modSquad q f).pinnedPages = s.pinnedPages := rfl
@[simp] theorem State.modSquad_queues (q : Nat) (f : Squad → Squad) : (s.modSquad q f).queues = s.queues := rfl
@[simp] theorem State.modSquad_queueHolder (q : Nat) (f : Squad → Squad) : (s.modSquad q f).queueHolder = s.queueHolder := rfl
@[simp] theorem State.modSquad_copyCmds (q : Nat) (f : Squad → Squad) : (s.modSquad q f).copyCmds = s.copyCmds := rfl
@[simp] theorem State.modSquad_nonfinite (q : Nat) (f : Squad → Squad) : (s.modSquad q f).nonfinite = s.nonfinite := rfl
@[simp] theorem State.modSquad_tilthErrors (q : Nat) (f : Squad → Squad) : (s.modSquad q f).tilthErrors = s.tilthErrors := rfl
@[simp] theorem State.modSquad_tasks (q : Nat) (f : Squad → Squad) : (s.modSquad q f).tasks = s.tasks := rfl
@[simp] theorem State.modSquad_misuse (q : Nat) (f : Squad → Squad) : (s.modSquad q f).misuse = s.misuse := rfl
@[simp] theorem State.modSquad_submitted (q : Nat) (f : Squad → Squad) : (s.modSquad q f).submitted = s.submitted := rfl
@[simp] theorem State.modSquad_launches (q : Nat) (f : Squad → Squad) : (s.modSquad q f).launches = s.launches := rfl
@[simp] theorem State.modSquad_gangs (q : Nat) (f : Squad → Squad) : (s.modSquad q f).gangs = s.gangs := rfl
@[simp] theorem State.modSquad_lastServed (q : Nat) (f : Squad → Squad) : (s.modSquad q f).lastServed = s.lastServed := rfl
@[simp] theorem State.modSquad_merges (q : Nat) (f : Squad → Squad) : (s.modSquad q f).merges = s.merges := rfl
@[simp] theorem State.modSquad_logicCk (q : Nat) (f : Squad → Squad) : (s.modSquad q f).logicCk = s.logicCk := rfl
@[simp] theorem State.modSquad_adverts (q : Nat) (f : Squad → Squad) : (s.modSquad q f).adverts = s.adverts := rfl
@[simp] theorem State.modSquad_offers (q : Nat) (f : Squad → Squad) : (s.modSquad q f).offers = s.offers := rfl
@[simp] theorem State.modSquad_natives (q : Nat) (f : Squad → Squad) : (s.modSquad q f).natives = s.natives := rfl
@[simp] theorem State.modSquad_counters (q : Nat) (f : Squad → Squad) : (s.modSquad q f).counters = s.counters := rfl
@[simp] theorem State.modSquad_slots (q : Nat) (f : Squad → Squad) : (s.modSquad q f).slots = s.slots := rfl
@[simp] theorem State.modSquad_asterSeq (q : Nat) (f : Squad → Squad) : (s.modSquad q f).asterSeq = s.asterSeq := rfl
@[simp] theorem State.modSquad_asterErr (q : Nat) (f : Squad → Squad) : (s.modSquad q f).asterErr = s.asterErr := rfl
@[simp] theorem State.modSquad_startQueue (q : Nat) (f : Squad → Squad) : (s.modSquad q f).startQueue = s.startQueue := rfl
@[simp] theorem State.modSquad_startCk (q : Nat) (f : Squad → Squad) : (s.modSquad q f).startCk = s.startCk := rfl
@[simp] theorem State.modSquad_arrivals (q : Nat) (f : Squad → Squad) : (s.modSquad q f).arrivals = s.arrivals := rfl
@[simp] theorem State.modSquad_dbgctl (q : Nat) (f : Squad → Squad) : (s.modSquad q f).dbgctl = s.dbgctl := rfl
@[simp] theorem State.modSquad_hostRegs (q : Nat) (f : Squad → Squad) : (s.modSquad q f).hostRegs = s.hostRegs := rfl
@[simp] theorem State.modSquad_faults (q : Nat) (f : Squad → Squad) : (s.modSquad q f).faults = s.faults := rfl
@[simp] theorem State.modSquad_shootdowns (q : Nat) (f : Squad → Squad) : (s.modSquad q f).shootdowns = s.shootdowns := rfl
@[simp] theorem State.modSquad_pins (q : Nat) (f : Squad → Squad) : (s.modSquad q f).pins = s.pins := rfl
@[simp] theorem State.modSquad_regionMsgs (q : Nat) (f : Squad → Squad) : (s.modSquad q f).regionMsgs = s.regionMsgs := rfl
@[simp] theorem State.modSquad_lost (q : Nat) (f : Squad → Squad) : (s.modSquad q f).lost = s.lost := rfl
@[simp] theorem State.modSquad_dead (q : Nat) (f : Squad → Squad) : (s.modSquad q f).dead = s.dead := rfl
@[simp] theorem State.modSquad_upward (q : Nat) (f : Squad → Squad) : (s.modSquad q f).upward = s.upward := rfl
@[simp] theorem State.modSquad_assembling (q : Nat) (f : Squad → Squad) : (s.modSquad q f).assembling = s.assembling := rfl
@[simp] theorem State.modSquad_inject (q : Nat) (f : Squad → Squad) : (s.modSquad q f).inject = s.inject := rfl
@[simp] theorem State.modSquad_transit (q : Nat) (f : Squad → Squad) : (s.modSquad q f).transit = s.transit := rfl
@[simp] theorem State.modSquad_ingress (q : Nat) (f : Squad → Squad) : (s.modSquad q f).ingress = s.ingress := rfl
@[simp] theorem State.modSquad_modules (q : Nat) (f : Squad → Squad) : (s.modSquad q f).modules = s.modules := rfl
@[simp] theorem State.modSquad_lines (q : Nat) (f : Squad → Squad) : (s.modSquad q f).lines = s.lines := rfl
@[simp] theorem State.modSquad_lineNext (q : Nat) (f : Squad → Squad) : (s.modSquad q f).lineNext = s.lineNext := rfl
@[simp] theorem State.modSquad_pkgs (q : Nat) (f : Squad → Squad) : (s.modSquad q f).pkgs = s.pkgs := rfl
@[simp] theorem State.modSquad_pinSlots (q : Nat) (f : Squad → Squad) : (s.modSquad q f).pinSlots = s.pinSlots := rfl
@[simp] theorem State.modSquad_agenda (q : Nat) (f : Squad → Squad) : (s.modSquad q f).agenda = s.agenda := rfl
@[simp] theorem State.modSquad_picks (q : Nat) (f : Squad → Squad) : (s.modSquad q f).picks = s.picks := rfl
@[simp] theorem State.modSquad_issue (q : Nat) (f : Squad → Squad) : (s.modSquad q f).issue = s.issue := rfl
@[simp] theorem State.modSquad_tick (q : Nat) (f : Squad → Squad) : (s.modSquad q f).tick = s.tick := rfl
@[simp] theorem State.modSquad_freeCount (q : Nat) (f : Squad → Squad) : (s.modSquad q f).freeCount = s.freeCount := rfl
@[simp] theorem State.modSquad_nextId (q : Nat) (f : Squad → Squad) : (s.modSquad q f).nextId = s.nextId := rfl

/-! ### modCore -/

@[simp] theorem State.modCore_regs (c : Nat) (f : Core → Core) : (s.modCore c f).regs = s.regs := rfl
@[simp] theorem State.modCore_threads (c : Nat) (f : Core → Core) : (s.modCore c f).threads = s.threads := rfl
@[simp] theorem State.modCore_squads (c : Nat) (f : Core → Core) : (s.modCore c f).squads = s.squads := rfl
@[simp] theorem State.modCore_cores (c : Nat) (f : Core → Core) : (s.modCore c f).cores = tset s.cores c (f (s.core c)) := rfl
@[simp] theorem State.modCore_scratch (c : Nat) (f : Core → Core) : (s.modCore c f).scratch = s.scratch := rfl
@[simp] theorem State.modCore_ctxs (c : Nat) (f : Core → Core) : (s.modCore c f).ctxs = s.ctxs := rfl
@[simp] theorem State.modCore_faultMsgs (c : Nat) (f : Core → Core) : (s.modCore c f).faultMsgs = s.faultMsgs := rfl
@[simp] theorem State.modCore_clocks (c : Nat) (f : Core → Core) : (s.modCore c f).clocks = s.clocks := rfl
@[simp] theorem State.modCore_evCfg (c : Nat) (f : Core → Core) : (s.modCore c f).evCfg = s.evCfg := rfl
@[simp] theorem State.modCore_evCount (c : Nat) (f : Core → Core) : (s.modCore c f).evCount = s.evCount := rfl
@[simp] theorem State.modCore_fmterr (c : Nat) (f : Core → Core) : (s.modCore c f).fmterr = s.fmterr := rfl
@[simp] theorem State.modCore_sclerr (c : Nat) (f : Core → Core) : (s.modCore c f).sclerr = s.sclerr := rfl
@[simp] theorem State.modCore_mem (c : Nat) (f : Core → Core) : (s.modCore c f).mem = s.mem := rfl
@[simp] theorem State.modCore_hole (c : Nat) (f : Core → Core) : (s.modCore c f).hole = s.hole := rfl
@[simp] theorem State.modCore_copies (c : Nat) (f : Core → Core) : (s.modCore c f).copies = s.copies := rfl
@[simp] theorem State.modCore_owners (c : Nat) (f : Core → Core) : (s.modCore c f).owners = s.owners := rfl
@[simp] theorem State.modCore_relcount (c : Nat) (f : Core → Core) : (s.modCore c f).relcount = s.relcount := rfl
@[simp] theorem State.modCore_msgs (c : Nat) (f : Core → Core) : (s.modCore c f).msgs = s.msgs := rfl
@[simp] theorem State.modCore_seqs (c : Nat) (f : Core → Core) : (s.modCore c f).seqs = s.seqs := rfl
@[simp] theorem State.modCore_windows (c : Nat) (f : Core → Core) : (s.modCore c f).windows = s.windows := rfl
@[simp] theorem State.modCore_mirror (c : Nat) (f : Core → Core) : (s.modCore c f).mirror = s.mirror := rfl
@[simp] theorem State.modCore_tcs (c : Nat) (f : Core → Core) : (s.modCore c f).tcs = s.tcs := rfl
@[simp] theorem State.modCore_icache (c : Nat) (f : Core → Core) : (s.modCore c f).icache = s.icache := rfl
@[simp] theorem State.modCore_pinned (c : Nat) (f : Core → Core) : (s.modCore c f).pinned = s.pinned := rfl
@[simp] theorem State.modCore_pinnedPages (c : Nat) (f : Core → Core) : (s.modCore c f).pinnedPages = s.pinnedPages := rfl
@[simp] theorem State.modCore_queues (c : Nat) (f : Core → Core) : (s.modCore c f).queues = s.queues := rfl
@[simp] theorem State.modCore_queueHolder (c : Nat) (f : Core → Core) : (s.modCore c f).queueHolder = s.queueHolder := rfl
@[simp] theorem State.modCore_copyCmds (c : Nat) (f : Core → Core) : (s.modCore c f).copyCmds = s.copyCmds := rfl
@[simp] theorem State.modCore_nonfinite (c : Nat) (f : Core → Core) : (s.modCore c f).nonfinite = s.nonfinite := rfl
@[simp] theorem State.modCore_tilthErrors (c : Nat) (f : Core → Core) : (s.modCore c f).tilthErrors = s.tilthErrors := rfl
@[simp] theorem State.modCore_tasks (c : Nat) (f : Core → Core) : (s.modCore c f).tasks = s.tasks := rfl
@[simp] theorem State.modCore_misuse (c : Nat) (f : Core → Core) : (s.modCore c f).misuse = s.misuse := rfl
@[simp] theorem State.modCore_submitted (c : Nat) (f : Core → Core) : (s.modCore c f).submitted = s.submitted := rfl
@[simp] theorem State.modCore_launches (c : Nat) (f : Core → Core) : (s.modCore c f).launches = s.launches := rfl
@[simp] theorem State.modCore_gangs (c : Nat) (f : Core → Core) : (s.modCore c f).gangs = s.gangs := rfl
@[simp] theorem State.modCore_lastServed (c : Nat) (f : Core → Core) : (s.modCore c f).lastServed = s.lastServed := rfl
@[simp] theorem State.modCore_merges (c : Nat) (f : Core → Core) : (s.modCore c f).merges = s.merges := rfl
@[simp] theorem State.modCore_logicCk (c : Nat) (f : Core → Core) : (s.modCore c f).logicCk = s.logicCk := rfl
@[simp] theorem State.modCore_adverts (c : Nat) (f : Core → Core) : (s.modCore c f).adverts = s.adverts := rfl
@[simp] theorem State.modCore_offers (c : Nat) (f : Core → Core) : (s.modCore c f).offers = s.offers := rfl
@[simp] theorem State.modCore_natives (c : Nat) (f : Core → Core) : (s.modCore c f).natives = s.natives := rfl
@[simp] theorem State.modCore_counters (c : Nat) (f : Core → Core) : (s.modCore c f).counters = s.counters := rfl
@[simp] theorem State.modCore_slots (c : Nat) (f : Core → Core) : (s.modCore c f).slots = s.slots := rfl
@[simp] theorem State.modCore_asterSeq (c : Nat) (f : Core → Core) : (s.modCore c f).asterSeq = s.asterSeq := rfl
@[simp] theorem State.modCore_asterErr (c : Nat) (f : Core → Core) : (s.modCore c f).asterErr = s.asterErr := rfl
@[simp] theorem State.modCore_startQueue (c : Nat) (f : Core → Core) : (s.modCore c f).startQueue = s.startQueue := rfl
@[simp] theorem State.modCore_startCk (c : Nat) (f : Core → Core) : (s.modCore c f).startCk = s.startCk := rfl
@[simp] theorem State.modCore_arrivals (c : Nat) (f : Core → Core) : (s.modCore c f).arrivals = s.arrivals := rfl
@[simp] theorem State.modCore_dbgctl (c : Nat) (f : Core → Core) : (s.modCore c f).dbgctl = s.dbgctl := rfl
@[simp] theorem State.modCore_hostRegs (c : Nat) (f : Core → Core) : (s.modCore c f).hostRegs = s.hostRegs := rfl
@[simp] theorem State.modCore_faults (c : Nat) (f : Core → Core) : (s.modCore c f).faults = s.faults := rfl
@[simp] theorem State.modCore_shootdowns (c : Nat) (f : Core → Core) : (s.modCore c f).shootdowns = s.shootdowns := rfl
@[simp] theorem State.modCore_pins (c : Nat) (f : Core → Core) : (s.modCore c f).pins = s.pins := rfl
@[simp] theorem State.modCore_regionMsgs (c : Nat) (f : Core → Core) : (s.modCore c f).regionMsgs = s.regionMsgs := rfl
@[simp] theorem State.modCore_lost (c : Nat) (f : Core → Core) : (s.modCore c f).lost = s.lost := rfl
@[simp] theorem State.modCore_dead (c : Nat) (f : Core → Core) : (s.modCore c f).dead = s.dead := rfl
@[simp] theorem State.modCore_upward (c : Nat) (f : Core → Core) : (s.modCore c f).upward = s.upward := rfl
@[simp] theorem State.modCore_assembling (c : Nat) (f : Core → Core) : (s.modCore c f).assembling = s.assembling := rfl
@[simp] theorem State.modCore_inject (c : Nat) (f : Core → Core) : (s.modCore c f).inject = s.inject := rfl
@[simp] theorem State.modCore_transit (c : Nat) (f : Core → Core) : (s.modCore c f).transit = s.transit := rfl
@[simp] theorem State.modCore_ingress (c : Nat) (f : Core → Core) : (s.modCore c f).ingress = s.ingress := rfl
@[simp] theorem State.modCore_modules (c : Nat) (f : Core → Core) : (s.modCore c f).modules = s.modules := rfl
@[simp] theorem State.modCore_lines (c : Nat) (f : Core → Core) : (s.modCore c f).lines = s.lines := rfl
@[simp] theorem State.modCore_lineNext (c : Nat) (f : Core → Core) : (s.modCore c f).lineNext = s.lineNext := rfl
@[simp] theorem State.modCore_pkgs (c : Nat) (f : Core → Core) : (s.modCore c f).pkgs = s.pkgs := rfl
@[simp] theorem State.modCore_pinSlots (c : Nat) (f : Core → Core) : (s.modCore c f).pinSlots = s.pinSlots := rfl
@[simp] theorem State.modCore_agenda (c : Nat) (f : Core → Core) : (s.modCore c f).agenda = s.agenda := rfl
@[simp] theorem State.modCore_picks (c : Nat) (f : Core → Core) : (s.modCore c f).picks = s.picks := rfl
@[simp] theorem State.modCore_issue (c : Nat) (f : Core → Core) : (s.modCore c f).issue = s.issue := rfl
@[simp] theorem State.modCore_tick (c : Nat) (f : Core → Core) : (s.modCore c f).tick = s.tick := rfl
@[simp] theorem State.modCore_freeCount (c : Nat) (f : Core → Core) : (s.modCore c f).freeCount = s.freeCount := rfl
@[simp] theorem State.modCore_nextId (c : Nat) (f : Core → Core) : (s.modCore c f).nextId = s.nextId := rfl

/-! ### modCtx -/

@[simp] theorem State.modCtx_regs (k : Nat) (f : Ctx → Ctx) : (s.modCtx k f).regs = s.regs := rfl
@[simp] theorem State.modCtx_threads (k : Nat) (f : Ctx → Ctx) : (s.modCtx k f).threads = s.threads := rfl
@[simp] theorem State.modCtx_squads (k : Nat) (f : Ctx → Ctx) : (s.modCtx k f).squads = s.squads := rfl
@[simp] theorem State.modCtx_cores (k : Nat) (f : Ctx → Ctx) : (s.modCtx k f).cores = s.cores := rfl
@[simp] theorem State.modCtx_scratch (k : Nat) (f : Ctx → Ctx) : (s.modCtx k f).scratch = s.scratch := rfl
@[simp] theorem State.modCtx_ctxs (k : Nat) (f : Ctx → Ctx) : (s.modCtx k f).ctxs = tset s.ctxs k (f (s.ctx k)) := rfl
@[simp] theorem State.modCtx_faultMsgs (k : Nat) (f : Ctx → Ctx) : (s.modCtx k f).faultMsgs = s.faultMsgs := rfl
@[simp] theorem State.modCtx_clocks (k : Nat) (f : Ctx → Ctx) : (s.modCtx k f).clocks = s.clocks := rfl
@[simp] theorem State.modCtx_evCfg (k : Nat) (f : Ctx → Ctx) : (s.modCtx k f).evCfg = s.evCfg := rfl
@[simp] theorem State.modCtx_evCount (k : Nat) (f : Ctx → Ctx) : (s.modCtx k f).evCount = s.evCount := rfl
@[simp] theorem State.modCtx_fmterr (k : Nat) (f : Ctx → Ctx) : (s.modCtx k f).fmterr = s.fmterr := rfl
@[simp] theorem State.modCtx_sclerr (k : Nat) (f : Ctx → Ctx) : (s.modCtx k f).sclerr = s.sclerr := rfl
@[simp] theorem State.modCtx_mem (k : Nat) (f : Ctx → Ctx) : (s.modCtx k f).mem = s.mem := rfl
@[simp] theorem State.modCtx_hole (k : Nat) (f : Ctx → Ctx) : (s.modCtx k f).hole = s.hole := rfl
@[simp] theorem State.modCtx_copies (k : Nat) (f : Ctx → Ctx) : (s.modCtx k f).copies = s.copies := rfl
@[simp] theorem State.modCtx_owners (k : Nat) (f : Ctx → Ctx) : (s.modCtx k f).owners = s.owners := rfl
@[simp] theorem State.modCtx_relcount (k : Nat) (f : Ctx → Ctx) : (s.modCtx k f).relcount = s.relcount := rfl
@[simp] theorem State.modCtx_msgs (k : Nat) (f : Ctx → Ctx) : (s.modCtx k f).msgs = s.msgs := rfl
@[simp] theorem State.modCtx_seqs (k : Nat) (f : Ctx → Ctx) : (s.modCtx k f).seqs = s.seqs := rfl
@[simp] theorem State.modCtx_windows (k : Nat) (f : Ctx → Ctx) : (s.modCtx k f).windows = s.windows := rfl
@[simp] theorem State.modCtx_mirror (k : Nat) (f : Ctx → Ctx) : (s.modCtx k f).mirror = s.mirror := rfl
@[simp] theorem State.modCtx_tcs (k : Nat) (f : Ctx → Ctx) : (s.modCtx k f).tcs = s.tcs := rfl
@[simp] theorem State.modCtx_icache (k : Nat) (f : Ctx → Ctx) : (s.modCtx k f).icache = s.icache := rfl
@[simp] theorem State.modCtx_pinned (k : Nat) (f : Ctx → Ctx) : (s.modCtx k f).pinned = s.pinned := rfl
@[simp] theorem State.modCtx_pinnedPages (k : Nat) (f : Ctx → Ctx) : (s.modCtx k f).pinnedPages = s.pinnedPages := rfl
@[simp] theorem State.modCtx_queues (k : Nat) (f : Ctx → Ctx) : (s.modCtx k f).queues = s.queues := rfl
@[simp] theorem State.modCtx_queueHolder (k : Nat) (f : Ctx → Ctx) : (s.modCtx k f).queueHolder = s.queueHolder := rfl
@[simp] theorem State.modCtx_copyCmds (k : Nat) (f : Ctx → Ctx) : (s.modCtx k f).copyCmds = s.copyCmds := rfl
@[simp] theorem State.modCtx_nonfinite (k : Nat) (f : Ctx → Ctx) : (s.modCtx k f).nonfinite = s.nonfinite := rfl
@[simp] theorem State.modCtx_tilthErrors (k : Nat) (f : Ctx → Ctx) : (s.modCtx k f).tilthErrors = s.tilthErrors := rfl
@[simp] theorem State.modCtx_tasks (k : Nat) (f : Ctx → Ctx) : (s.modCtx k f).tasks = s.tasks := rfl
@[simp] theorem State.modCtx_misuse (k : Nat) (f : Ctx → Ctx) : (s.modCtx k f).misuse = s.misuse := rfl
@[simp] theorem State.modCtx_submitted (k : Nat) (f : Ctx → Ctx) : (s.modCtx k f).submitted = s.submitted := rfl
@[simp] theorem State.modCtx_launches (k : Nat) (f : Ctx → Ctx) : (s.modCtx k f).launches = s.launches := rfl
@[simp] theorem State.modCtx_gangs (k : Nat) (f : Ctx → Ctx) : (s.modCtx k f).gangs = s.gangs := rfl
@[simp] theorem State.modCtx_lastServed (k : Nat) (f : Ctx → Ctx) : (s.modCtx k f).lastServed = s.lastServed := rfl
@[simp] theorem State.modCtx_merges (k : Nat) (f : Ctx → Ctx) : (s.modCtx k f).merges = s.merges := rfl
@[simp] theorem State.modCtx_logicCk (k : Nat) (f : Ctx → Ctx) : (s.modCtx k f).logicCk = s.logicCk := rfl
@[simp] theorem State.modCtx_adverts (k : Nat) (f : Ctx → Ctx) : (s.modCtx k f).adverts = s.adverts := rfl
@[simp] theorem State.modCtx_offers (k : Nat) (f : Ctx → Ctx) : (s.modCtx k f).offers = s.offers := rfl
@[simp] theorem State.modCtx_natives (k : Nat) (f : Ctx → Ctx) : (s.modCtx k f).natives = s.natives := rfl
@[simp] theorem State.modCtx_counters (k : Nat) (f : Ctx → Ctx) : (s.modCtx k f).counters = s.counters := rfl
@[simp] theorem State.modCtx_slots (k : Nat) (f : Ctx → Ctx) : (s.modCtx k f).slots = s.slots := rfl
@[simp] theorem State.modCtx_asterSeq (k : Nat) (f : Ctx → Ctx) : (s.modCtx k f).asterSeq = s.asterSeq := rfl
@[simp] theorem State.modCtx_asterErr (k : Nat) (f : Ctx → Ctx) : (s.modCtx k f).asterErr = s.asterErr := rfl
@[simp] theorem State.modCtx_startQueue (k : Nat) (f : Ctx → Ctx) : (s.modCtx k f).startQueue = s.startQueue := rfl
@[simp] theorem State.modCtx_startCk (k : Nat) (f : Ctx → Ctx) : (s.modCtx k f).startCk = s.startCk := rfl
@[simp] theorem State.modCtx_arrivals (k : Nat) (f : Ctx → Ctx) : (s.modCtx k f).arrivals = s.arrivals := rfl
@[simp] theorem State.modCtx_dbgctl (k : Nat) (f : Ctx → Ctx) : (s.modCtx k f).dbgctl = s.dbgctl := rfl
@[simp] theorem State.modCtx_hostRegs (k : Nat) (f : Ctx → Ctx) : (s.modCtx k f).hostRegs = s.hostRegs := rfl
@[simp] theorem State.modCtx_faults (k : Nat) (f : Ctx → Ctx) : (s.modCtx k f).faults = s.faults := rfl
@[simp] theorem State.modCtx_shootdowns (k : Nat) (f : Ctx → Ctx) : (s.modCtx k f).shootdowns = s.shootdowns := rfl
@[simp] theorem State.modCtx_pins (k : Nat) (f : Ctx → Ctx) : (s.modCtx k f).pins = s.pins := rfl
@[simp] theorem State.modCtx_regionMsgs (k : Nat) (f : Ctx → Ctx) : (s.modCtx k f).regionMsgs = s.regionMsgs := rfl
@[simp] theorem State.modCtx_lost (k : Nat) (f : Ctx → Ctx) : (s.modCtx k f).lost = s.lost := rfl
@[simp] theorem State.modCtx_dead (k : Nat) (f : Ctx → Ctx) : (s.modCtx k f).dead = s.dead := rfl
@[simp] theorem State.modCtx_upward (k : Nat) (f : Ctx → Ctx) : (s.modCtx k f).upward = s.upward := rfl
@[simp] theorem State.modCtx_assembling (k : Nat) (f : Ctx → Ctx) : (s.modCtx k f).assembling = s.assembling := rfl
@[simp] theorem State.modCtx_inject (k : Nat) (f : Ctx → Ctx) : (s.modCtx k f).inject = s.inject := rfl
@[simp] theorem State.modCtx_transit (k : Nat) (f : Ctx → Ctx) : (s.modCtx k f).transit = s.transit := rfl
@[simp] theorem State.modCtx_ingress (k : Nat) (f : Ctx → Ctx) : (s.modCtx k f).ingress = s.ingress := rfl
@[simp] theorem State.modCtx_modules (k : Nat) (f : Ctx → Ctx) : (s.modCtx k f).modules = s.modules := rfl
@[simp] theorem State.modCtx_lines (k : Nat) (f : Ctx → Ctx) : (s.modCtx k f).lines = s.lines := rfl
@[simp] theorem State.modCtx_lineNext (k : Nat) (f : Ctx → Ctx) : (s.modCtx k f).lineNext = s.lineNext := rfl
@[simp] theorem State.modCtx_pkgs (k : Nat) (f : Ctx → Ctx) : (s.modCtx k f).pkgs = s.pkgs := rfl
@[simp] theorem State.modCtx_pinSlots (k : Nat) (f : Ctx → Ctx) : (s.modCtx k f).pinSlots = s.pinSlots := rfl
@[simp] theorem State.modCtx_agenda (k : Nat) (f : Ctx → Ctx) : (s.modCtx k f).agenda = s.agenda := rfl
@[simp] theorem State.modCtx_picks (k : Nat) (f : Ctx → Ctx) : (s.modCtx k f).picks = s.picks := rfl
@[simp] theorem State.modCtx_issue (k : Nat) (f : Ctx → Ctx) : (s.modCtx k f).issue = s.issue := rfl
@[simp] theorem State.modCtx_tick (k : Nat) (f : Ctx → Ctx) : (s.modCtx k f).tick = s.tick := rfl
@[simp] theorem State.modCtx_freeCount (k : Nat) (f : Ctx → Ctx) : (s.modCtx k f).freeCount = s.freeCount := rfl
@[simp] theorem State.modCtx_nextId (k : Nat) (f : Ctx → Ctx) : (s.modCtx k f).nextId = s.nextId := rfl

/-! ### writeV -/

@[simp] theorem State.writeV_regs (t n v : Nat) : (s.writeV t n v).regs = tset s.regs (s.regKey t n) (BitVec.ofNat 32 v) := rfl
@[simp] theorem State.writeV_threads (t n v : Nat) : (s.writeV t n v).threads = s.threads := rfl
@[simp] theorem State.writeV_squads (t n v : Nat) : (s.writeV t n v).squads = s.squads := rfl
@[simp] theorem State.writeV_cores (t n v : Nat) : (s.writeV t n v).cores = s.cores := rfl
@[simp] theorem State.writeV_scratch (t n v : Nat) : (s.writeV t n v).scratch = s.scratch := rfl
@[simp] theorem State.writeV_ctxs (t n v : Nat) : (s.writeV t n v).ctxs = s.ctxs := rfl
@[simp] theorem State.writeV_faultMsgs (t n v : Nat) : (s.writeV t n v).faultMsgs = s.faultMsgs := rfl
@[simp] theorem State.writeV_clocks (t n v : Nat) : (s.writeV t n v).clocks = s.clocks := rfl
@[simp] theorem State.writeV_evCfg (t n v : Nat) : (s.writeV t n v).evCfg = s.evCfg := rfl
@[simp] theorem State.writeV_evCount (t n v : Nat) : (s.writeV t n v).evCount = s.evCount := rfl
@[simp] theorem State.writeV_fmterr (t n v : Nat) : (s.writeV t n v).fmterr = s.fmterr := rfl
@[simp] theorem State.writeV_sclerr (t n v : Nat) : (s.writeV t n v).sclerr = s.sclerr := rfl
@[simp] theorem State.writeV_mem (t n v : Nat) : (s.writeV t n v).mem = s.mem := rfl
@[simp] theorem State.writeV_hole (t n v : Nat) : (s.writeV t n v).hole = s.hole := rfl
@[simp] theorem State.writeV_copies (t n v : Nat) : (s.writeV t n v).copies = s.copies := rfl
@[simp] theorem State.writeV_owners (t n v : Nat) : (s.writeV t n v).owners = s.owners := rfl
@[simp] theorem State.writeV_relcount (t n v : Nat) : (s.writeV t n v).relcount = s.relcount := rfl
@[simp] theorem State.writeV_msgs (t n v : Nat) : (s.writeV t n v).msgs = s.msgs := rfl
@[simp] theorem State.writeV_seqs (t n v : Nat) : (s.writeV t n v).seqs = s.seqs := rfl
@[simp] theorem State.writeV_windows (t n v : Nat) : (s.writeV t n v).windows = s.windows := rfl
@[simp] theorem State.writeV_mirror (t n v : Nat) : (s.writeV t n v).mirror = s.mirror := rfl
@[simp] theorem State.writeV_tcs (t n v : Nat) : (s.writeV t n v).tcs = s.tcs := rfl
@[simp] theorem State.writeV_icache (t n v : Nat) : (s.writeV t n v).icache = s.icache := rfl
@[simp] theorem State.writeV_pinned (t n v : Nat) : (s.writeV t n v).pinned = s.pinned := rfl
@[simp] theorem State.writeV_pinnedPages (t n v : Nat) : (s.writeV t n v).pinnedPages = s.pinnedPages := rfl
@[simp] theorem State.writeV_queues (t n v : Nat) : (s.writeV t n v).queues = s.queues := rfl
@[simp] theorem State.writeV_queueHolder (t n v : Nat) : (s.writeV t n v).queueHolder = s.queueHolder := rfl
@[simp] theorem State.writeV_copyCmds (t n v : Nat) : (s.writeV t n v).copyCmds = s.copyCmds := rfl
@[simp] theorem State.writeV_nonfinite (t n v : Nat) : (s.writeV t n v).nonfinite = s.nonfinite := rfl
@[simp] theorem State.writeV_tilthErrors (t n v : Nat) : (s.writeV t n v).tilthErrors = s.tilthErrors := rfl
@[simp] theorem State.writeV_tasks (t n v : Nat) : (s.writeV t n v).tasks = s.tasks := rfl
@[simp] theorem State.writeV_misuse (t n v : Nat) : (s.writeV t n v).misuse = s.misuse := rfl
@[simp] theorem State.writeV_submitted (t n v : Nat) : (s.writeV t n v).submitted = s.submitted := rfl
@[simp] theorem State.writeV_launches (t n v : Nat) : (s.writeV t n v).launches = s.launches := rfl
@[simp] theorem State.writeV_gangs (t n v : Nat) : (s.writeV t n v).gangs = s.gangs := rfl
@[simp] theorem State.writeV_lastServed (t n v : Nat) : (s.writeV t n v).lastServed = s.lastServed := rfl
@[simp] theorem State.writeV_merges (t n v : Nat) : (s.writeV t n v).merges = s.merges := rfl
@[simp] theorem State.writeV_logicCk (t n v : Nat) : (s.writeV t n v).logicCk = s.logicCk := rfl
@[simp] theorem State.writeV_adverts (t n v : Nat) : (s.writeV t n v).adverts = s.adverts := rfl
@[simp] theorem State.writeV_offers (t n v : Nat) : (s.writeV t n v).offers = s.offers := rfl
@[simp] theorem State.writeV_natives (t n v : Nat) : (s.writeV t n v).natives = s.natives := rfl
@[simp] theorem State.writeV_counters (t n v : Nat) : (s.writeV t n v).counters = s.counters := rfl
@[simp] theorem State.writeV_slots (t n v : Nat) : (s.writeV t n v).slots = s.slots := rfl
@[simp] theorem State.writeV_asterSeq (t n v : Nat) : (s.writeV t n v).asterSeq = s.asterSeq := rfl
@[simp] theorem State.writeV_asterErr (t n v : Nat) : (s.writeV t n v).asterErr = s.asterErr := rfl
@[simp] theorem State.writeV_startQueue (t n v : Nat) : (s.writeV t n v).startQueue = s.startQueue := rfl
@[simp] theorem State.writeV_startCk (t n v : Nat) : (s.writeV t n v).startCk = s.startCk := rfl
@[simp] theorem State.writeV_arrivals (t n v : Nat) : (s.writeV t n v).arrivals = s.arrivals := rfl
@[simp] theorem State.writeV_dbgctl (t n v : Nat) : (s.writeV t n v).dbgctl = s.dbgctl := rfl
@[simp] theorem State.writeV_hostRegs (t n v : Nat) : (s.writeV t n v).hostRegs = s.hostRegs := rfl
@[simp] theorem State.writeV_faults (t n v : Nat) : (s.writeV t n v).faults = s.faults := rfl
@[simp] theorem State.writeV_shootdowns (t n v : Nat) : (s.writeV t n v).shootdowns = s.shootdowns := rfl
@[simp] theorem State.writeV_pins (t n v : Nat) : (s.writeV t n v).pins = s.pins := rfl
@[simp] theorem State.writeV_regionMsgs (t n v : Nat) : (s.writeV t n v).regionMsgs = s.regionMsgs := rfl
@[simp] theorem State.writeV_lost (t n v : Nat) : (s.writeV t n v).lost = s.lost := rfl
@[simp] theorem State.writeV_dead (t n v : Nat) : (s.writeV t n v).dead = s.dead := rfl
@[simp] theorem State.writeV_upward (t n v : Nat) : (s.writeV t n v).upward = s.upward := rfl
@[simp] theorem State.writeV_assembling (t n v : Nat) : (s.writeV t n v).assembling = s.assembling := rfl
@[simp] theorem State.writeV_inject (t n v : Nat) : (s.writeV t n v).inject = s.inject := rfl
@[simp] theorem State.writeV_transit (t n v : Nat) : (s.writeV t n v).transit = s.transit := rfl
@[simp] theorem State.writeV_ingress (t n v : Nat) : (s.writeV t n v).ingress = s.ingress := rfl
@[simp] theorem State.writeV_modules (t n v : Nat) : (s.writeV t n v).modules = s.modules := rfl
@[simp] theorem State.writeV_lines (t n v : Nat) : (s.writeV t n v).lines = s.lines := rfl
@[simp] theorem State.writeV_lineNext (t n v : Nat) : (s.writeV t n v).lineNext = s.lineNext := rfl
@[simp] theorem State.writeV_pkgs (t n v : Nat) : (s.writeV t n v).pkgs = s.pkgs := rfl
@[simp] theorem State.writeV_pinSlots (t n v : Nat) : (s.writeV t n v).pinSlots = s.pinSlots := rfl
@[simp] theorem State.writeV_agenda (t n v : Nat) : (s.writeV t n v).agenda = s.agenda := rfl
@[simp] theorem State.writeV_picks (t n v : Nat) : (s.writeV t n v).picks = s.picks := rfl
@[simp] theorem State.writeV_issue (t n v : Nat) : (s.writeV t n v).issue = s.issue := rfl
@[simp] theorem State.writeV_tick (t n v : Nat) : (s.writeV t n v).tick = s.tick := rfl
@[simp] theorem State.writeV_freeCount (t n v : Nat) : (s.writeV t n v).freeCount = s.freeCount := rfl
@[simp] theorem State.writeV_nextId (t n v : Nat) : (s.writeV t n v).nextId = s.nextId := rfl

/-! ### setHreg -/

@[simp] theorem State.setHreg_regs (p off v : Nat) : (s.setHreg p off v).regs = s.regs := rfl
@[simp] theorem State.setHreg_threads (p off v : Nat) : (s.setHreg p off v).threads = s.threads := rfl
@[simp] theorem State.setHreg_squads (p off v : Nat) : (s.setHreg p off v).squads = s.squads := rfl
@[simp] theorem State.setHreg_cores (p off v : Nat) : (s.setHreg p off v).cores = s.cores := rfl
@[simp] theorem State.setHreg_scratch (p off v : Nat) : (s.setHreg p off v).scratch = s.scratch := rfl
@[simp] theorem State.setHreg_ctxs (p off v : Nat) : (s.setHreg p off v).ctxs = s.ctxs := rfl
@[simp] theorem State.setHreg_faultMsgs (p off v : Nat) : (s.setHreg p off v).faultMsgs = s.faultMsgs := rfl
@[simp] theorem State.setHreg_clocks (p off v : Nat) : (s.setHreg p off v).clocks = s.clocks := rfl
@[simp] theorem State.setHreg_evCfg (p off v : Nat) : (s.setHreg p off v).evCfg = s.evCfg := rfl
@[simp] theorem State.setHreg_evCount (p off v : Nat) : (s.setHreg p off v).evCount = s.evCount := rfl
@[simp] theorem State.setHreg_fmterr (p off v : Nat) : (s.setHreg p off v).fmterr = s.fmterr := rfl
@[simp] theorem State.setHreg_sclerr (p off v : Nat) : (s.setHreg p off v).sclerr = s.sclerr := rfl
@[simp] theorem State.setHreg_mem (p off v : Nat) : (s.setHreg p off v).mem = s.mem := rfl
@[simp] theorem State.setHreg_hole (p off v : Nat) : (s.setHreg p off v).hole = s.hole := rfl
@[simp] theorem State.setHreg_copies (p off v : Nat) : (s.setHreg p off v).copies = s.copies := rfl
@[simp] theorem State.setHreg_owners (p off v : Nat) : (s.setHreg p off v).owners = s.owners := rfl
@[simp] theorem State.setHreg_relcount (p off v : Nat) : (s.setHreg p off v).relcount = s.relcount := rfl
@[simp] theorem State.setHreg_msgs (p off v : Nat) : (s.setHreg p off v).msgs = s.msgs := rfl
@[simp] theorem State.setHreg_seqs (p off v : Nat) : (s.setHreg p off v).seqs = s.seqs := rfl
@[simp] theorem State.setHreg_windows (p off v : Nat) : (s.setHreg p off v).windows = s.windows := rfl
@[simp] theorem State.setHreg_mirror (p off v : Nat) : (s.setHreg p off v).mirror = s.mirror := rfl
@[simp] theorem State.setHreg_tcs (p off v : Nat) : (s.setHreg p off v).tcs = s.tcs := rfl
@[simp] theorem State.setHreg_icache (p off v : Nat) : (s.setHreg p off v).icache = s.icache := rfl
@[simp] theorem State.setHreg_pinned (p off v : Nat) : (s.setHreg p off v).pinned = s.pinned := rfl
@[simp] theorem State.setHreg_pinnedPages (p off v : Nat) : (s.setHreg p off v).pinnedPages = s.pinnedPages := rfl
@[simp] theorem State.setHreg_queues (p off v : Nat) : (s.setHreg p off v).queues = s.queues := rfl
@[simp] theorem State.setHreg_queueHolder (p off v : Nat) : (s.setHreg p off v).queueHolder = s.queueHolder := rfl
@[simp] theorem State.setHreg_copyCmds (p off v : Nat) : (s.setHreg p off v).copyCmds = s.copyCmds := rfl
@[simp] theorem State.setHreg_nonfinite (p off v : Nat) : (s.setHreg p off v).nonfinite = s.nonfinite := rfl
@[simp] theorem State.setHreg_tilthErrors (p off v : Nat) : (s.setHreg p off v).tilthErrors = s.tilthErrors := rfl
@[simp] theorem State.setHreg_tasks (p off v : Nat) : (s.setHreg p off v).tasks = s.tasks := rfl
@[simp] theorem State.setHreg_misuse (p off v : Nat) : (s.setHreg p off v).misuse = s.misuse := rfl
@[simp] theorem State.setHreg_submitted (p off v : Nat) : (s.setHreg p off v).submitted = s.submitted := rfl
@[simp] theorem State.setHreg_launches (p off v : Nat) : (s.setHreg p off v).launches = s.launches := rfl
@[simp] theorem State.setHreg_gangs (p off v : Nat) : (s.setHreg p off v).gangs = s.gangs := rfl
@[simp] theorem State.setHreg_lastServed (p off v : Nat) : (s.setHreg p off v).lastServed = s.lastServed := rfl
@[simp] theorem State.setHreg_merges (p off v : Nat) : (s.setHreg p off v).merges = s.merges := rfl
@[simp] theorem State.setHreg_logicCk (p off v : Nat) : (s.setHreg p off v).logicCk = s.logicCk := rfl
@[simp] theorem State.setHreg_adverts (p off v : Nat) : (s.setHreg p off v).adverts = s.adverts := rfl
@[simp] theorem State.setHreg_offers (p off v : Nat) : (s.setHreg p off v).offers = s.offers := rfl
@[simp] theorem State.setHreg_natives (p off v : Nat) : (s.setHreg p off v).natives = s.natives := rfl
@[simp] theorem State.setHreg_counters (p off v : Nat) : (s.setHreg p off v).counters = s.counters := rfl
@[simp] theorem State.setHreg_slots (p off v : Nat) : (s.setHreg p off v).slots = s.slots := rfl
@[simp] theorem State.setHreg_asterSeq (p off v : Nat) : (s.setHreg p off v).asterSeq = s.asterSeq := rfl
@[simp] theorem State.setHreg_asterErr (p off v : Nat) : (s.setHreg p off v).asterErr = s.asterErr := rfl
@[simp] theorem State.setHreg_startQueue (p off v : Nat) : (s.setHreg p off v).startQueue = s.startQueue := rfl
@[simp] theorem State.setHreg_startCk (p off v : Nat) : (s.setHreg p off v).startCk = s.startCk := rfl
@[simp] theorem State.setHreg_arrivals (p off v : Nat) : (s.setHreg p off v).arrivals = s.arrivals := rfl
@[simp] theorem State.setHreg_dbgctl (p off v : Nat) : (s.setHreg p off v).dbgctl = s.dbgctl := rfl
@[simp] theorem State.setHreg_hostRegs (p off v : Nat) : (s.setHreg p off v).hostRegs = tset s.hostRegs (p * 2 ^ 20 + off) v := rfl
@[simp] theorem State.setHreg_faults (p off v : Nat) : (s.setHreg p off v).faults = s.faults := rfl
@[simp] theorem State.setHreg_shootdowns (p off v : Nat) : (s.setHreg p off v).shootdowns = s.shootdowns := rfl
@[simp] theorem State.setHreg_pins (p off v : Nat) : (s.setHreg p off v).pins = s.pins := rfl
@[simp] theorem State.setHreg_regionMsgs (p off v : Nat) : (s.setHreg p off v).regionMsgs = s.regionMsgs := rfl
@[simp] theorem State.setHreg_lost (p off v : Nat) : (s.setHreg p off v).lost = s.lost := rfl
@[simp] theorem State.setHreg_dead (p off v : Nat) : (s.setHreg p off v).dead = s.dead := rfl
@[simp] theorem State.setHreg_upward (p off v : Nat) : (s.setHreg p off v).upward = s.upward := rfl
@[simp] theorem State.setHreg_assembling (p off v : Nat) : (s.setHreg p off v).assembling = s.assembling := rfl
@[simp] theorem State.setHreg_inject (p off v : Nat) : (s.setHreg p off v).inject = s.inject := rfl
@[simp] theorem State.setHreg_transit (p off v : Nat) : (s.setHreg p off v).transit = s.transit := rfl
@[simp] theorem State.setHreg_ingress (p off v : Nat) : (s.setHreg p off v).ingress = s.ingress := rfl
@[simp] theorem State.setHreg_modules (p off v : Nat) : (s.setHreg p off v).modules = s.modules := rfl
@[simp] theorem State.setHreg_lines (p off v : Nat) : (s.setHreg p off v).lines = s.lines := rfl
@[simp] theorem State.setHreg_lineNext (p off v : Nat) : (s.setHreg p off v).lineNext = s.lineNext := rfl
@[simp] theorem State.setHreg_pkgs (p off v : Nat) : (s.setHreg p off v).pkgs = s.pkgs := rfl
@[simp] theorem State.setHreg_pinSlots (p off v : Nat) : (s.setHreg p off v).pinSlots = s.pinSlots := rfl
@[simp] theorem State.setHreg_agenda (p off v : Nat) : (s.setHreg p off v).agenda = s.agenda := rfl
@[simp] theorem State.setHreg_picks (p off v : Nat) : (s.setHreg p off v).picks = s.picks := rfl
@[simp] theorem State.setHreg_issue (p off v : Nat) : (s.setHreg p off v).issue = s.issue := rfl
@[simp] theorem State.setHreg_tick (p off v : Nat) : (s.setHreg p off v).tick = s.tick := rfl
@[simp] theorem State.setHreg_freeCount (p off v : Nat) : (s.setHreg p off v).freeCount = s.freeCount := rfl
@[simp] theorem State.setHreg_nextId (p off v : Nat) : (s.setHreg p off v).nextId = s.nextId := rfl

/-! ### setScratchByte -/

@[simp] theorem State.setScratchByte_regs (k : Nat) (b : Byte) : (s.setScratchByte k b).regs = s.regs := rfl
@[simp] theorem State.setScratchByte_threads (k : Nat) (b : Byte) : (s.setScratchByte k b).threads = s.threads := rfl
@[simp] theorem State.setScratchByte_squads (k : Nat) (b : Byte) : (s.setScratchByte k b).squads = s.squads := rfl
@[simp] theorem State.setScratchByte_cores (k : Nat) (b : Byte) : (s.setScratchByte k b).cores = s.cores := rfl
@[simp] theorem State.setScratchByte_scratch (k : Nat) (b : Byte) : (s.setScratchByte k b).scratch = tset s.scratch k b := rfl
@[simp] theorem State.setScratchByte_ctxs (k : Nat) (b : Byte) : (s.setScratchByte k b).ctxs = s.ctxs := rfl
@[simp] theorem State.setScratchByte_faultMsgs (k : Nat) (b : Byte) : (s.setScratchByte k b).faultMsgs = s.faultMsgs := rfl
@[simp] theorem State.setScratchByte_clocks (k : Nat) (b : Byte) : (s.setScratchByte k b).clocks = s.clocks := rfl
@[simp] theorem State.setScratchByte_evCfg (k : Nat) (b : Byte) : (s.setScratchByte k b).evCfg = s.evCfg := rfl
@[simp] theorem State.setScratchByte_evCount (k : Nat) (b : Byte) : (s.setScratchByte k b).evCount = s.evCount := rfl
@[simp] theorem State.setScratchByte_fmterr (k : Nat) (b : Byte) : (s.setScratchByte k b).fmterr = s.fmterr := rfl
@[simp] theorem State.setScratchByte_sclerr (k : Nat) (b : Byte) : (s.setScratchByte k b).sclerr = s.sclerr := rfl
@[simp] theorem State.setScratchByte_mem (k : Nat) (b : Byte) : (s.setScratchByte k b).mem = s.mem := rfl
@[simp] theorem State.setScratchByte_hole (k : Nat) (b : Byte) : (s.setScratchByte k b).hole = s.hole := rfl
@[simp] theorem State.setScratchByte_copies (k : Nat) (b : Byte) : (s.setScratchByte k b).copies = s.copies := rfl
@[simp] theorem State.setScratchByte_owners (k : Nat) (b : Byte) : (s.setScratchByte k b).owners = s.owners := rfl
@[simp] theorem State.setScratchByte_relcount (k : Nat) (b : Byte) : (s.setScratchByte k b).relcount = s.relcount := rfl
@[simp] theorem State.setScratchByte_msgs (k : Nat) (b : Byte) : (s.setScratchByte k b).msgs = s.msgs := rfl
@[simp] theorem State.setScratchByte_seqs (k : Nat) (b : Byte) : (s.setScratchByte k b).seqs = s.seqs := rfl
@[simp] theorem State.setScratchByte_windows (k : Nat) (b : Byte) : (s.setScratchByte k b).windows = s.windows := rfl
@[simp] theorem State.setScratchByte_mirror (k : Nat) (b : Byte) : (s.setScratchByte k b).mirror = s.mirror := rfl
@[simp] theorem State.setScratchByte_tcs (k : Nat) (b : Byte) : (s.setScratchByte k b).tcs = s.tcs := rfl
@[simp] theorem State.setScratchByte_icache (k : Nat) (b : Byte) : (s.setScratchByte k b).icache = s.icache := rfl
@[simp] theorem State.setScratchByte_pinned (k : Nat) (b : Byte) : (s.setScratchByte k b).pinned = s.pinned := rfl
@[simp] theorem State.setScratchByte_pinnedPages (k : Nat) (b : Byte) : (s.setScratchByte k b).pinnedPages = s.pinnedPages := rfl
@[simp] theorem State.setScratchByte_queues (k : Nat) (b : Byte) : (s.setScratchByte k b).queues = s.queues := rfl
@[simp] theorem State.setScratchByte_queueHolder (k : Nat) (b : Byte) : (s.setScratchByte k b).queueHolder = s.queueHolder := rfl
@[simp] theorem State.setScratchByte_copyCmds (k : Nat) (b : Byte) : (s.setScratchByte k b).copyCmds = s.copyCmds := rfl
@[simp] theorem State.setScratchByte_nonfinite (k : Nat) (b : Byte) : (s.setScratchByte k b).nonfinite = s.nonfinite := rfl
@[simp] theorem State.setScratchByte_tilthErrors (k : Nat) (b : Byte) : (s.setScratchByte k b).tilthErrors = s.tilthErrors := rfl
@[simp] theorem State.setScratchByte_tasks (k : Nat) (b : Byte) : (s.setScratchByte k b).tasks = s.tasks := rfl
@[simp] theorem State.setScratchByte_misuse (k : Nat) (b : Byte) : (s.setScratchByte k b).misuse = s.misuse := rfl
@[simp] theorem State.setScratchByte_submitted (k : Nat) (b : Byte) : (s.setScratchByte k b).submitted = s.submitted := rfl
@[simp] theorem State.setScratchByte_launches (k : Nat) (b : Byte) : (s.setScratchByte k b).launches = s.launches := rfl
@[simp] theorem State.setScratchByte_gangs (k : Nat) (b : Byte) : (s.setScratchByte k b).gangs = s.gangs := rfl
@[simp] theorem State.setScratchByte_lastServed (k : Nat) (b : Byte) : (s.setScratchByte k b).lastServed = s.lastServed := rfl
@[simp] theorem State.setScratchByte_merges (k : Nat) (b : Byte) : (s.setScratchByte k b).merges = s.merges := rfl
@[simp] theorem State.setScratchByte_logicCk (k : Nat) (b : Byte) : (s.setScratchByte k b).logicCk = s.logicCk := rfl
@[simp] theorem State.setScratchByte_adverts (k : Nat) (b : Byte) : (s.setScratchByte k b).adverts = s.adverts := rfl
@[simp] theorem State.setScratchByte_offers (k : Nat) (b : Byte) : (s.setScratchByte k b).offers = s.offers := rfl
@[simp] theorem State.setScratchByte_natives (k : Nat) (b : Byte) : (s.setScratchByte k b).natives = s.natives := rfl
@[simp] theorem State.setScratchByte_counters (k : Nat) (b : Byte) : (s.setScratchByte k b).counters = s.counters := rfl
@[simp] theorem State.setScratchByte_slots (k : Nat) (b : Byte) : (s.setScratchByte k b).slots = s.slots := rfl
@[simp] theorem State.setScratchByte_asterSeq (k : Nat) (b : Byte) : (s.setScratchByte k b).asterSeq = s.asterSeq := rfl
@[simp] theorem State.setScratchByte_asterErr (k : Nat) (b : Byte) : (s.setScratchByte k b).asterErr = s.asterErr := rfl
@[simp] theorem State.setScratchByte_startQueue (k : Nat) (b : Byte) : (s.setScratchByte k b).startQueue = s.startQueue := rfl
@[simp] theorem State.setScratchByte_startCk (k : Nat) (b : Byte) : (s.setScratchByte k b).startCk = s.startCk := rfl
@[simp] theorem State.setScratchByte_arrivals (k : Nat) (b : Byte) : (s.setScratchByte k b).arrivals = s.arrivals := rfl
@[simp] theorem State.setScratchByte_dbgctl (k : Nat) (b : Byte) : (s.setScratchByte k b).dbgctl = s.dbgctl := rfl
@[simp] theorem State.setScratchByte_hostRegs (k : Nat) (b : Byte) : (s.setScratchByte k b).hostRegs = s.hostRegs := rfl
@[simp] theorem State.setScratchByte_faults (k : Nat) (b : Byte) : (s.setScratchByte k b).faults = s.faults := rfl
@[simp] theorem State.setScratchByte_shootdowns (k : Nat) (b : Byte) : (s.setScratchByte k b).shootdowns = s.shootdowns := rfl
@[simp] theorem State.setScratchByte_pins (k : Nat) (b : Byte) : (s.setScratchByte k b).pins = s.pins := rfl
@[simp] theorem State.setScratchByte_regionMsgs (k : Nat) (b : Byte) : (s.setScratchByte k b).regionMsgs = s.regionMsgs := rfl
@[simp] theorem State.setScratchByte_lost (k : Nat) (b : Byte) : (s.setScratchByte k b).lost = s.lost := rfl
@[simp] theorem State.setScratchByte_dead (k : Nat) (b : Byte) : (s.setScratchByte k b).dead = s.dead := rfl
@[simp] theorem State.setScratchByte_upward (k : Nat) (b : Byte) : (s.setScratchByte k b).upward = s.upward := rfl
@[simp] theorem State.setScratchByte_assembling (k : Nat) (b : Byte) : (s.setScratchByte k b).assembling = s.assembling := rfl
@[simp] theorem State.setScratchByte_inject (k : Nat) (b : Byte) : (s.setScratchByte k b).inject = s.inject := rfl
@[simp] theorem State.setScratchByte_transit (k : Nat) (b : Byte) : (s.setScratchByte k b).transit = s.transit := rfl
@[simp] theorem State.setScratchByte_ingress (k : Nat) (b : Byte) : (s.setScratchByte k b).ingress = s.ingress := rfl
@[simp] theorem State.setScratchByte_modules (k : Nat) (b : Byte) : (s.setScratchByte k b).modules = s.modules := rfl
@[simp] theorem State.setScratchByte_lines (k : Nat) (b : Byte) : (s.setScratchByte k b).lines = s.lines := rfl
@[simp] theorem State.setScratchByte_lineNext (k : Nat) (b : Byte) : (s.setScratchByte k b).lineNext = s.lineNext := rfl
@[simp] theorem State.setScratchByte_pkgs (k : Nat) (b : Byte) : (s.setScratchByte k b).pkgs = s.pkgs := rfl
@[simp] theorem State.setScratchByte_pinSlots (k : Nat) (b : Byte) : (s.setScratchByte k b).pinSlots = s.pinSlots := rfl
@[simp] theorem State.setScratchByte_agenda (k : Nat) (b : Byte) : (s.setScratchByte k b).agenda = s.agenda := rfl
@[simp] theorem State.setScratchByte_picks (k : Nat) (b : Byte) : (s.setScratchByte k b).picks = s.picks := rfl
@[simp] theorem State.setScratchByte_issue (k : Nat) (b : Byte) : (s.setScratchByte k b).issue = s.issue := rfl
@[simp] theorem State.setScratchByte_tick (k : Nat) (b : Byte) : (s.setScratchByte k b).tick = s.tick := rfl
@[simp] theorem State.setScratchByte_freeCount (k : Nat) (b : Byte) : (s.setScratchByte k b).freeCount = s.freeCount := rfl
@[simp] theorem State.setScratchByte_nextId (k : Nat) (b : Byte) : (s.setScratchByte k b).nextId = s.nextId := rfl

end Sys2Proof.Machine
end

