-- ==== Sys2Proof/Laws/Access.lean ====
section
/-! SUPPORT. Threads, squads and cores after an update of one of them. -/

namespace Sys2Proof.Machine

variable (s : State)

@[simp] theorem State.thread_setThread (t u : Nat) (x : Thread) : (s.setThread t x).thread u = if t = u then x else s.thread u := by
  simp [State.thread, tget_tset]
@[simp] theorem State.thread_modThread (t u : Nat) (f : Thread → Thread) :
    (s.modThread t f).thread u = if t = u then f (s.thread u) else s.thread u := by
  simp only [State.modThread, thread_setThread]; split <;> simp_all
@[simp] theorem State.squad_setSquad (t u : Nat) (x : Squad) : (s.setSquad t x).squad u = if t = u then x else s.squad u := by
  simp [State.squad, tget_tset]
@[simp] theorem State.squad_modSquad (t u : Nat) (f : Squad → Squad) :
    (s.modSquad t f).squad u = if t = u then f (s.squad u) else s.squad u := by
  simp only [State.modSquad, squad_setSquad]; split <;> simp_all
@[simp] theorem State.core_setCore (t u : Nat) (x : Core) : (s.setCore t x).core u = if t = u then x else s.core u := by
  simp [State.core, tget_tset]
@[simp] theorem State.core_modCore (t u : Nat) (f : Core → Core) :
    (s.modCore t f).core u = if t = u then f (s.core u) else s.core u := by
  simp only [State.modCore, core_setCore]; split <;> simp_all

@[simp] theorem State.squad_setThread (t u : Nat) (x : Thread) : (s.setThread t x).squad u = s.squad u := rfl
@[simp] theorem State.core_setThread (t u : Nat) (x : Thread) : (s.setThread t x).core u = s.core u := rfl
@[simp] theorem State.squad_modThread (t u : Nat) (f : Thread → Thread) : (s.modThread t f).squad u = s.squad u := rfl
@[simp] theorem State.core_modThread (t u : Nat) (f : Thread → Thread) : (s.modThread t f).core u = s.core u := rfl
@[simp] theorem State.thread_setSquad (t u : Nat) (x : Squad) : (s.setSquad t x).thread u = s.thread u := rfl
@[simp] theorem State.core_setSquad (t u : Nat) (x : Squad) : (s.setSquad t x).core u = s.core u := rfl
@[simp] theorem State.thread_modSquad (t u : Nat) (f : Squad → Squad) : (s.modSquad t f).thread u = s.thread u := rfl
@[simp] theorem State.core_modSquad (t u : Nat) (f : Squad → Squad) : (s.modSquad t f).core u = s.core u := rfl
@[simp] theorem State.thread_setCore (t u : Nat) (x : Core) : (s.setCore t x).thread u = s.thread u := rfl
@[simp] theorem State.squad_setCore (t u : Nat) (x : Core) : (s.setCore t x).squad u = s.squad u := rfl
@[simp] theorem State.thread_modCore (t u : Nat) (f : Core → Core) : (s.modCore t f).thread u = s.thread u := rfl
@[simp] theorem State.squad_modCore (t u : Nat) (f : Core → Core) : (s.modCore t f).squad u = s.squad u := rfl
@[simp] theorem State.thread_writeV (t n v u : Nat) : (s.writeV t n v).thread u = s.thread u := rfl
@[simp] theorem State.squad_writeV (t n v u : Nat) : (s.writeV t n v).squad u = s.squad u := rfl
@[simp] theorem State.core_writeV (t n v u : Nat) : (s.writeV t n v).core u = s.core u := rfl
@[simp] theorem State.thread_modCtx (t : Nat) (f : Ctx → Ctx) (u : Nat) : (s.modCtx t f).thread u = s.thread u := rfl
@[simp] theorem State.squad_modCtx (t : Nat) (f : Ctx → Ctx) (u : Nat) : (s.modCtx t f).squad u = s.squad u := rfl
@[simp] theorem State.core_modCtx (t : Nat) (f : Ctx → Ctx) (u : Nat) : (s.modCtx t f).core u = s.core u := rfl
@[simp] theorem State.ctx_modCtx (t : Nat) (f : Ctx → Ctx) (u : Nat) : (s.modCtx t f).ctx u = if t = u then f (s.ctx u) else s.ctx u := by
  simp only [State.modCtx, State.ctx, tget_tset]; split <;> simp_all

@[simp] theorem State.regKey_writeV (t n v u m : Nat) : (s.writeV t n v).regKey u m = s.regKey u m := rfl

/-! ### Slots -/

theorem Core.slot_setSlot (c : Core) (i j : Nat) (x : Slot) : (c.setSlot i x).slot j = if (i = 0 ↔ j = 0) then x else c.slot j := by
  simp only [Core.slot, Core.setSlot]; split <;> split <;> simp_all
@[simp] theorem Core.slot_setSlot_self (c : Core) (i : Nat) (x : Slot) : (c.setSlot i x).slot i = x := by simp [Core.slot_setSlot]

end Sys2Proof.Machine
end

