-- ==== Sys2Proof/Laws/Run.lean ====
section
/-! SUPPORT. What a group's instruction does when no thread traps: the threads move on, the slot's chain goes on or ends, and everything else is as
the instruction's effect left it. -/

namespace Sys2Proof.Machine

/-! ### Leaving the issue table -/

section
variable (s : State) (t u : Nat)

theorem State.unplace_eq : s.unplace t = s.modCore (coreOf t) fun c =>
    { c with entries := c.entries.map fun e => { e with members := e.members.filter fun m => m.1 ≠ t }
             unplaced := c.unplaced.filter fun u => u.1 ≠ t } := rfl
@[simp] theorem State.unplace_thread : (s.unplace t).thread u = s.thread u := rfl
@[simp] theorem State.unplace_squad : (s.unplace t).squad u = s.squad u := rfl
@[simp] theorem State.unplace_regs : (s.unplace t).regs = s.regs := rfl
@[simp] theorem State.unplace_rest : (s.unplace t).rest = s.rest := rfl
theorem State.unplace_core : ((s.unplace t).core u).plain = (s.core u).plain := by
  simp only [unplace_eq, core_modCore]; split <;> rfl
theorem State.unplace_core_ne (h : coreOf t ≠ u) : (s.unplace t).core u = s.core u := by
  simp [unplace_eq, h]
theorem State.unplace_slot (i : Nat) : ((s.unplace t).core u).slot i = (s.core u).slot i := by
  simp only [unplace_eq, core_modCore]; split <;> rfl
end

/-- A thread without its scoreboard and what it keeps of an instruction. -/
def Thread.bare (th : Thread) : Thread := { th with busy := [], first := none }

theorem plain_of_bare {a b : Thread} (h : a.bare = b.bare) : a.plain = b.plain :=
  show a.bare.plain = b.bare.plain from congrArg Thread.plain h

/-- What one thread's way out of an instruction changes: that thread, as f has it, and the bookkeeping of its core. -/
structure Leaves (t : Nat) (f : Thread → Thread) (x r : State) : Prop where
  rest : r.rest = x.rest
  regs : r.regs = x.regs
  thread : (r.thread t).bare = (f (x.thread t)).bare
  others : ∀ u, u ≠ t → r.thread u = x.thread u
  squads : ∀ q, (r.squad q).plain = (x.squad q).plain
  k : ∀ q, (r.squad q).k = (x.squad q).k
  core : ∀ c, (r.core c).plain = (x.core c).plain
  cores : ∀ c, c ≠ coreOf t → r.core c = x.core c
  slot : ∀ c j, (r.core c).slot j = (x.core c).slot j

theorem Leaves.refl (t : Nat) (x : State) : Leaves t (fun th => th) x x :=
  ⟨rfl, rfl, rfl, fun _ _ => rfl, fun _ => rfl, fun _ => rfl, fun _ => rfl, fun _ _ => rfl, fun _ _ => rfl⟩

theorem retire_leaves (s : State) (t pc next : Nat) : Leaves t (fun th => th.past pc next) s (s.retire t pc next) where
  rest := rfl
  regs := rfl
  thread := by simp [State.retire, Thread.past, Thread.anew]
  others u h := by simp [State.retire, Ne.symm h]
  squads q := rfl
  k q := rfl
  core c := s.unplace_core t c
  cores c h := s.unplace_core_ne t c (Ne.symm h)
  slot c j := s.unplace_slot t c j

theorem goto_leaves (s : State) (t pc : Nat) : Leaves t (fun th => th.jumped pc) s (s.goto t pc) where
  rest := rfl
  regs := rfl
  thread := by simp [State.goto, Thread.jumped, Thread.anew]
  others u h := by simp [State.goto, Ne.symm h]
  squads q := rfl
  k q := rfl
  core c := s.unplace_core t c
  cores c h := s.unplace_core_ne t c (Ne.symm h)
  slot c j := s.unplace_slot t c j

theorem hold_leaves (s : State) (t : Nat) (x : Run) : Leaves t (fun th => { th with run := x }) s (s.hold t x) where
  rest := rfl
  regs := rfl
  thread := by simp [State.hold]
  others u h := by simp [State.hold, Ne.symm h]
  squads q := rfl
  k q := rfl
  core c := s.unplace_core t c
  cores c h := s.unplace_core_ne t c (Ne.symm h)
  slot c j := s.unplace_slot t c j

theorem stayAt_leaves (s : State) (t : Nat) (x : Run) (f : First) : Leaves t (fun th => { th with run := x }) s (s.stayAt t x f) := by
  have h := hold_leaves s t x
  unfold State.stayAt
  split
  · exact h
  · exact { h with
      thread := by simpa [Thread.bare] using h.thread
      others := fun u hu => by simpa [Ne.symm hu] using h.others u hu }

/-- Changing scoreboards only. -/
theorem Leaves.busy {t : Nat} {f : Thread → Thread} {x r : State} (h : Leaves t f x r) (b : Thread → List Busy) :
    Leaves t f x (r.modThread t fun th => { th with busy := b th }) where
  rest := h.rest
  regs := h.regs
  thread := by simpa [Thread.bare] using h.thread
  others u hu := by simpa [Ne.symm hu] using h.others u hu
  squads := h.squads
  k := h.k
  core := h.core
  cores := h.cores
  slot := h.slot

theorem Leaves.kbusy {t : Nat} {f : Thread → Thread} {x r : State} (h : Leaves t f x r) (q : Nat) (b : Squad → List Busy) :
    Leaves t f x (r.modSquad q fun y => { y with kbusy := b y }) where
  rest := h.rest
  regs := h.regs
  thread := h.thread
  others := h.others
  squads p := by
    simp only [State.squad_modSquad]; split
    · exact h.squads p
    · exact h.squads p
  k p := by
    simp only [State.squad_modSquad]; split
    · exact h.k p
    · exact h.k p
  core := h.core
  cores := h.cores
  slot := h.slot

/-- Registers of a squad's k file that enter flight change nothing else. -/
theorem Leaves.kFly {t : Nat} {f : Thread → Thread} {x r : State} (h : Leaves t f x r) (q : Nat) (l : List Busy) (ck : Nat) :
    Leaves t f x (r.kFly q l ck) := by
  unfold State.kFly; split
  · exact h
  · exact h.kbusy _ _

theorem leave_leaves (iss : Issue) (i : Instr) (o : Ops) (ch : Chain) (s0 s : State) (x : Nat × Ret) :
    Leaves x.1 (x.2.thread iss.pc (iss.next i)) s (s0.leave iss i o ch s x) := by
  obtain ⟨t, r⟩ := x
  cases r with
  | next =>
    simp only [State.leave]
    have h := retire_leaves s t iss.pc (iss.next i)
    split
    · split
      · exact (h.busy _).kFly _ _ _
      · exact h
    · exact h
  | jump p => exact goto_leaves s t p
  | stay r => exact stayAt_leaves s t r _
  | trap x => exact Leaves.refl t s
  | gone => exact Leaves.refl t s

/-- All threads of a group leave. -/
theorem leave_all {iss : Issue} {i : Instr} {o : Ops} {ch : Chain} {s0 : State} {g : Nat → Ret} {c : Nat} (ts : List Nat) (hn : ts.Nodup)
    (hc : ∀ t ∈ ts, coreOf t = c) (s : State) :
    let r := (ts.map fun t => (t, g t)).foldl (s0.leave iss i o ch) s
    r.rest = s.rest ∧ r.regs = s.regs ∧ (∀ t ∈ ts, (r.thread t).bare = ((g t).thread iss.pc (iss.next i) (s.thread t)).bare) ∧
    (∀ t, t ∉ ts → r.thread t = s.thread t) ∧ (∀ q, (r.squad q).plain = (s.squad q).plain) ∧ (∀ q, (r.squad q).k = (s.squad q).k) ∧
    (∀ d, (r.core d).plain = (s.core d).plain) ∧ (∀ d, d ≠ c → r.core d = s.core d) ∧
    (∀ d j, (r.core d).slot j = (s.core d).slot j) := by
  induction ts generalizing s with
  | nil => simp
  | cons t ts ih =>
    have hl := leave_leaves iss i o ch s0 s (t, g t)
    have hn' := List.nodup_cons.1 hn
    obtain ⟨a, b, c1, d, e, f, g1, h, k⟩ := ih hn'.2 (fun u hu => hc u (List.mem_cons_of_mem _ hu)) (s0.leave iss i o ch s (t, g t))
    simp only [List.map_cons, List.foldl_cons]
    refine ⟨a.trans hl.rest, b.trans hl.regs, ?_, ?_, fun q => (e q).trans (hl.squads q), fun q => (f q).trans (hl.k q),
      fun q => (g1 q).trans (hl.core q), ?_, fun q j => (k q j).trans (hl.slot q j)⟩
    · intro u hu
      rcases List.mem_cons.1 hu with h1 | h1
      · subst h1; rw [d u hn'.1]; exact hl.thread
      · rw [c1 u h1, hl.others u (fun h2 => hn'.1 (h2 ▸ h1 : (t, g t).1 ∈ ts))]
    · intro u hu
      rw [List.mem_cons, not_or] at hu
      rw [d u hu.2, hl.others u hu.1]
    · intro q hq
      rw [h q hq, hl.cores q (by rw [hc t (List.mem_cons_self ..)]; exact hq)]

theorem after_latch (x : Slot) (goes : Bool) (ck : Nat) (i : Instr) (o : Ops) (ch : Chain) : (x.after goes ck i o ch).latch = x.latch := by
  unfold Slot.after; split <;> rfl

theorem trapOf_of_smooth (t : Nat) (x : Ret) (h : x.strikes = false) : Ret.trapOf (t, x) = none := by
  cases x <;> simp_all [Ret.strikes, Ret.trapOf]

theorem parkTo_of_smooth (head : Nat) (s : State) (t : Nat) (x : Ret) (h : x.strikes = false) : State.parkTo head s (t, x) = s := by
  cases x with
  | stay r => cases r <;> simp_all [Ret.strikes, State.parkTo]
  | _ => rfl

theorem parkTo_all (head : Nat) (g : Nat → Ret) (l : List Nat) (hl : ∀ t ∈ l, (g t).strikes = false) (s : State) :
    (l.map fun t => (t, g t)).foldl (State.parkTo head) s = s := by
  induction l generalizing s with
  | nil => rfl
  | cons t l ih =>
    simp only [List.map_cons, List.foldl_cons, parkTo_of_smooth head s t (g t) (hl t (List.mem_cons_self ..))]
    exact ih (fun u hu => hl u (List.mem_cons_of_mem _ hu)) s

/-- Threads that all wait leave their instruction alike, whether its chain stays open or not. -/
theorem linger_all {iss : Issue} {i : Instr} {o : Ops} {ch : Chain} {s0 : State} {g : Nat → Ret} (ts : List Nat) (hg : ∀ t ∈ ts, (g t).waits = true) (s : State) :
    (ts.map fun t => (t, g t)).foldl (s0.linger iss o ch) s = (ts.map fun t => (t, g t)).foldl (s0.leave iss i o ch) s := by
  induction ts generalizing s with
  | nil => rfl
  | cons t ts ih =>
    simp only [List.map_cons, List.foldl_cons]
    have h : s0.linger iss o ch s (t, g t) = s0.leave iss i o ch s (t, g t) := by
      have := hg t (List.mem_cons_self ..)
      cases hx : g t <;> simp_all [Ret.waits, State.linger, State.leave]
    rw [h]
    exact ih (fun u hu => hg u (List.mem_cons_of_mem _ hu)) _

/-- finish where no thread traps or parks, and none or all of them only wait: the threads leave, the slot changes, unless the group goes on outside the slots. -/
theorem finish_eq {s : State} {iss : Issue} {i : Instr} {o : Ops} {ch : Chain} {g : Nat → Ret} (hg : ∀ t ∈ iss.threads, (g t).strikes = false)
    (hw : (∀ t ∈ iss.threads, (g t).waits = false) ∨ ∀ t ∈ iss.threads, (g t).waits = true) :
    s.finish iss i o ch (iss.threads.map fun t => (t, g t)) = (iss.threads.map fun t => (t, g t)).foldl (s.leave iss i o ch) s ∨
    ∃ goes ch', s.finish iss i o ch (iss.threads.map fun t => (t, g t)) =
      ((iss.threads.map fun t => (t, g t)).foldl (s.leave iss i o ch) s).modCore iss.core fun c =>
        c.setSlot iss.slot ((c.slot iss.slot).after goes (s.core iss.core).ck i o ch') := by
  have hstrike : ((iss.threads.map fun t => (t, g t)).any fun x => x.2.strikes) = false := by
    simp only [List.any_map, List.any_eq_false, Function.comp]
    intro t ht
    simp [hg t ht]
  have htraps : (iss.threads.map fun t => (t, g t)).filterMap Ret.trapOf = [] := by
    simp only [List.filterMap_map, List.filterMap_eq_nil_iff, Function.comp]
    intro t ht
    exact trapOf_of_smooth t _ (hg t ht)
  have hfold : ∀ b : Bool, ((iss.threads.map fun t => (t, g t)).foldl
      (if (b && (iss.threads.map fun t => (t, g t)).any fun x => x.2.waits) = true then s.linger iss o ch else s.leave iss i o ch) s) =
      (iss.threads.map fun t => (t, g t)).foldl (s.leave iss i o ch) s := by
    intro b
    rcases hw with h | h
    · have : ((iss.threads.map fun t => (t, g t)).any fun x => x.2.waits) = false := by
        simp only [List.any_map, List.any_eq_false, Function.comp]
        intro t ht
        simp [h t ht]
      simp [this]
    · split
      · exact linger_all _ h _
      · rfl
  simp only [State.finish, hstrike, htraps, Bool.false_and, Bool.false_eq_true, if_false, Bool.not_false, Bool.and_true,
    parkTo_all ch.head g iss.threads hg, hfold, orderTraps, gatherTraps, List.filter_nil]
  split
  · exact Or.inl rfl
  · exact Or.inr ⟨_, _, rfl⟩

/-- The end of a group's instruction where no thread traps or parks. -/
theorem finish_still {s : State} {iss : Issue} {i : Instr} {o : Ops} {ch : Chain} {g : Nat → Ret} (hn : iss.threads.Nodup)
    (hc : ∀ t ∈ iss.threads, coreOf t = iss.core) (hg : ∀ t ∈ iss.threads, (g t).strikes = false)
    (hw : (∀ t ∈ iss.threads, (g t).waits = false) ∨ ∀ t ∈ iss.threads, (g t).waits = true) :
    Still iss (fun t th => (g t).thread iss.pc (iss.next i) th) s (s.finish iss i o ch (iss.threads.map fun t => (t, g t))) := by
  obtain ⟨a, b, c1, d, e, f, g1, h, k⟩ := leave_all (iss := iss) (i := i) (o := o) (ch := ch) (s0 := s) (g := g) iss.threads hn hc s
  rcases finish_eq (s := s) (i := i) (o := o) (ch := ch) hg hw with hfin | ⟨goes, ch', hfin⟩ <;> rw [hfin]
  · exact ⟨⟨a, fun t ht => plain_of_bare (c1 t ht), d, e, g1 _, h, fun j _ => k _ j⟩, b, f, by rw [k]⟩
  refine ⟨⟨a, fun t ht => plain_of_bare (c1 t ht), d, e, ?_, ?_, ?_⟩, b, f, ?_⟩
  · simp only [State.core_modCore, if_true]
    rw [← g1 iss.core]
    simp only [Core.plain, Core.setSlot]; split <;> rfl
  · intro q hq
    simp only [State.core_modCore, Ne.symm hq, if_false]; exact h q hq
  · intro j hj
    simp only [State.core_modCore, if_true, Core.slot_setSlot]
    rw [if_neg (by intro hh; by_cases h0 : j = 0 <;> simp_all)]
    exact k _ _
  · simp only [State.core_modCore, if_true, Core.slot_setSlot_self, after_latch, k]

/-- The same, for the threads with their held operands. -/
theorem finish_bare {s : State} {iss : Issue} {i : Instr} {o : Ops} {ch : Chain} {g : Nat → Ret} (hn : iss.threads.Nodup)
    (hc : ∀ t ∈ iss.threads, coreOf t = iss.core) (hg : ∀ t ∈ iss.threads, (g t).strikes = false)
    (hw : (∀ t ∈ iss.threads, (g t).waits = false) ∨ ∀ t ∈ iss.threads, (g t).waits = true) :
    ∀ t ∈ iss.threads, ((s.finish iss i o ch (iss.threads.map fun t => (t, g t))).thread t).bare =
      ((g t).thread iss.pc (iss.next i) (s.thread t)).bare := by
  obtain ⟨-, -, c1, -⟩ := leave_all (iss := iss) (i := i) (o := o) (ch := ch) (s0 := s) (g := g) iss.threads hn hc s
  rcases finish_eq (s := s) (i := i) (o := o) (ch := ch) hg hw with hfin | ⟨goes, ch', hfin⟩ <;> rw [hfin] <;> exact c1

end Sys2Proof.Machine
end

