-- ==== Sys2Proof/Laws/Group.lean ====
section
/-! SUPPORT. A group's instruction, from its checks to the state it leaves. -/

namespace Sys2Proof.Machine

variable {s : State} {iss : Issue} {i : Instr} {o : Ops}

/-! ### The state a group's instruction finds -/

@[simp] theorem begun_thread (s : State) (iss : Issue) (t : Nat) : (s.begun iss).thread t = s.thread t := by unfold State.begun; split <;> rfl
@[simp] theorem begun_squad (s : State) (iss : Issue) (q : Nat) : (s.begun iss).squad q = s.squad q := by unfold State.begun; split <;> rfl
@[simp] theorem begun_regs (s : State) (iss : Issue) : (s.begun iss).regs = s.regs := by unfold State.begun; split <;> rfl
@[simp] theorem begun_rest (s : State) (iss : Issue) : (s.begun iss).rest = s.rest := by unfold State.begun; split <;> rfl
@[simp] theorem begun_regKey (s : State) (iss : Issue) (t n : Nat) : (s.begun iss).regKey t n = s.regKey t n := by simp [State.regKey]
theorem setSlot_plain (c : Core) (j : Nat) (x : Slot) : (c.setSlot j x).plain = c.plain := by
  simp only [Core.plain, Core.setSlot]; split <;> rfl
theorem begun_core (s : State) (iss : Issue) (c : Nat) : ((s.begun iss).core c).plain = (s.core c).plain := by
  unfold State.begun; split
  · simp only [State.core_modCore]; split
    · exact setSlot_plain ..
    · rfl
  · rfl
theorem begun_core_ne (s : State) (iss : Issue) (c : Nat) (h : c ≠ iss.core) : (s.begun iss).core c = s.core c := by
  unfold State.begun; split
  · simp [Ne.symm h]
  · rfl
theorem begun_slot (s : State) (iss : Issue) (c j : Nat) (h : j = 0 ↔ iss.slot ≠ 0) : ((s.begun iss).core c).slot j = (s.core c).slot j := by
  unfold State.begun; split
  · simp only [State.core_modCore]; split
    · rw [Core.slot_setSlot, if_neg (by intro hh; by_cases h0 : j = 0 <;> simp_all)]
    · rfl
  · rfl

@[simp] theorem begun_preTrap (s : State) (iss : Issue) (i : Instr) (o : Ops) (n t : Nat) :
    (s.begun iss).preTrap iss i o n t = s.preTrap iss i o n t := by
  simp only [State.preTrap, begun_thread, begun_squad]

@[simp] theorem begun_done (s : State) (iss : Issue) (t : Nat) : ((s.begun iss).thread t).done = (s.thread t).done := by rw [begun_thread]
theorem Issues.nodup (h : Issues s iss i o) : iss.threads.Nodup := List.Nodup.of_map _ h.lanes

theorem guarded_nodup (h : Issues s iss i o) : (s.guarded iss o).Nodup := h.nodup.filter _

theorem guarded_core (h : Issues s iss i o) {t : Nat} (ht : t ∈ s.guarded iss o) : coreOf t = iss.core := h.core t (List.mem_filter.1 ht).1

/-- Two guarded threads in one lane are one thread. -/
theorem lane_inj (h : Issues s iss i o) {t u : Nat} (ht : t ∈ s.guarded iss o) (hu : u ∈ s.guarded iss o) (hl : laneOf t = laneOf u) : t = u :=
  List.inj_on_of_nodup_map h.lanes (List.mem_filter.1 ht).1 (List.mem_filter.1 hu).1 hl

/-! ### Threads of the group one after the other -/

/-- The effect of a group's instruction: what it does for each guarded thread in turn. -/
def effect (o : Ops) (body : Body) (s0 s1 : State) (ts : List Nat) : State :=
  ts.foldl (fun a t => if (s0.thread t).guard o.h then (body s0 a t).1 else a) s1

theorem effect_filter (o : Ops) (body : Body) (s0 s1 : State) (ts : List Nat) :
    effect o body s0 s1 ts = (ts.filter fun t => (s0.thread t).guard o.h).foldl (fun a t => (body s0 a t).1) s1 := by
  induction ts generalizing s1 with
  | nil => rfl
  | cons t ts ih =>
    simp only [effect, List.foldl_cons, List.filter_cons] at *
    split
    · rw [ih]; rfl
    · rw [ih]

theorem runThread_fold {body : Body} {s0 : State} {n : Nat} {g : Nat → Ret} (ts : List Nat) (hl : ∀ t ∈ ts, s0.latchTrap iss i o t = false)
    (hd : ∀ t ∈ ts, (s0.thread t).done = false) (hc : ∀ t ∈ ts, s0.preTrap iss i o n t = none)
    (hb : ∀ t ∈ ts, (s0.thread t).guard o.h = true → ∀ a, (body s0 a t).2 = g t) (s1 : State) (l : List (Nat × Ret)) :
    ts.foldl (runThread i o body s0 iss n) (s1, l) =
      (effect o body s0 s1 ts, (ts.map fun t => (t, if (s0.thread t).guard o.h then g t else .next)).reverse ++ l) := by
  induction ts generalizing s1 l with
  | nil => rfl
  | cons t ts ih =>
    have h1 : runThread i o body s0 iss n (s1, l) t =
        (if (s0.thread t).guard o.h then (body s0 s1 t).1 else s1, (t, if (s0.thread t).guard o.h then g t else .next) :: l) := by
      simp only [runThread, hc t (List.mem_cons_self ..), hl t (List.mem_cons_self ..), hd t (List.mem_cons_self ..), Bool.false_eq_true, if_false]
      split
      · next h => rw [hb t (List.mem_cons_self ..) h]
      · rfl
    rw [List.foldl_cons, h1, ih (fun u hu => hl u (List.mem_cons_of_mem _ hu)) (fun u hu => hd u (List.mem_cons_of_mem _ hu))
      (fun u hu => hc u (List.mem_cons_of_mem _ hu)) (fun u hu => hb u (List.mem_cons_of_mem _ hu))]
    simp [effect]

/-- The state the effect starts from: the destination latch cleared (01 R24). -/
def cleared (s : State) (iss : Issue) (o : Ops) : State :=
  match latchOf o with | some b => (s.begun iss).clearLatch iss.core iss.slot b | none => s.begun iss

/-- A group's instruction whose threads all go on, jump or stay: none of them only waits, or all do. -/
theorem runGroup_still {body : Issue → Body} {g : Nat → Ret} (h : Issues s iss i o)
    (hb : ∀ t ∈ iss.threads, (s.thread t).guard o.h = true → ∀ a, (body iss (s.begun iss) a t).2 = g t)
    (hg : ∀ t ∈ iss.threads, (g t).strikes = false)
    (hw : (∀ t ∈ iss.threads, (g t).waits = false) ∨ ∀ t ∈ iss.threads, (s.thread t).guard o.h = true ∧ (g t).waits = true) :
    Still iss (fun t th => (if (s.thread t).guard o.h then g t else .next).thread iss.pc (iss.next i) th)
      ((s.guarded iss o).foldl (fun a t => (body iss (s.begun iss) a t).1) (cleared s iss o)) (runGroup i o body s) := by
  have hf := runThread_fold (body := body iss) (g := g) (n := (s.chainAt iss).count) iss.threads h.latches
    (by simpa using h.undone) (by simpa using h.checks) (by simpa using hb) (cleared s iss o) []
  have hr : runGroup i o body s = (effect o (body iss) (s.begun iss) (cleared s iss o) iss.threads).finish iss i o (s.chainAt iss)
      (iss.threads.map fun t => (t, if (s.thread t).guard o.h then g t else .next)) := by
    simp only [begun_thread] at hf
    have hx : runGroup i o body s = (iss.threads.foldl (runThread i o (body iss) (s.begun iss) iss (s.chainAt iss).count)
        (cleared s iss o, [])).1.finish iss i o (s.chainAt iss) (iss.threads.foldl (runThread i o (body iss) (s.begun iss) iss
        (s.chainAt iss).count) (cleared s iss o, [])).2.reverse := by simp only [runGroup, h.issue]; rfl
    rw [hx, hf]
    simp
  rw [hr, effect_filter]
  simp only [begun_thread]
  refine finish_still (g := fun t => if (s.thread t).guard o.h then g t else .next) h.nodup h.core ?_ ?_
  · intro t ht
    split
    · exact hg t ht
    · rfl
  · rcases hw with hw | hw
    · left
      intro t ht
      split
      · exact hw t ht
      · rfl
    · right
      intro t ht
      rw [if_pos (hw t ht).1]
      exact (hw t ht).2

/-- A group of one thread that goes on, jumps or stays. -/
theorem runGroup_alone {body : Issue → Body} {t : Nat} {r : Ret} (h : Alone s iss i o t)
    (hb : (body iss (s.begun iss) (cleared s iss o) t).2 = r) (hg : r.strikes = false) :
    Still iss (fun _ th => r.thread iss.pc (iss.next i) th) (body iss (s.begun iss) (cleared s iss o) t).1 (runGroup i o body s) := by
  have hr : runGroup i o body s = ((body iss (s.begun iss) (cleared s iss o) t).1).finish iss i o (s.chainAt iss)
      (iss.threads.map fun t => (t, r)) := by
    have hp := h.issues.checks t (by simp [h.only])
    have hx : runGroup i o body s = (iss.threads.foldl (runThread i o (body iss) (s.begun iss) iss (s.chainAt iss).count)
        (cleared s iss o, [])).1.finish iss i o (s.chainAt iss) (iss.threads.foldl (runThread i o (body iss) (s.begun iss) iss
        (s.chainAt iss).count) (cleared s iss o, [])).2.reverse := by simp only [runGroup, h.issues.issue]; rfl
    rw [hx]
    simp only [h.only, List.foldl_cons, List.foldl_nil, List.map_cons, List.map_nil, runThread, begun_preTrap, hp, h.issues.latches t (by simp [h.only]), h.issues.undone t (by simp [h.only]), begun_thread, h.guard, if_true, hb, Bool.false_eq_true, if_false,
      List.reverse_cons, List.reverse_nil, List.nil_append]
  rw [hr]
  refine finish_still (g := fun _ => r) h.issues.nodup h.issues.core (fun _ _ => hg) ?_
  cases hw : r.waits
  · exact Or.inl fun _ _ => rfl
  · exact Or.inr fun _ _ => rfl

end Sys2Proof.Machine
end

