-- ==== Sys2Proof/Laws/Dest.lean ====
section
/-! SUPPORT. What writing a result changes, for one thread and for every thread of a group (01 R13 to R15, R24, 05 R111). -/

namespace Sys2Proof.Machine

section
variable (s : State) (iss : Issue) (o : Ops) (t v n : Nat) (kw : Bool)

/-- The state with the destination latch written. -/
def latched : State := match latchOf o with | some b => s.writeLatch iss.core iss.slot b (laneOf t) v | none => s

theorem writeD_eq : s.writeD iss o t v n kw =
    if o.h.wbs then latched s iss o t v
    else match o.d with
      | .v r => if n = 2 then ((latched s iss o t v).writeV t r.toNat v).writeV t (r.toNat + 1) (v / 2 ^ 32)
          else (latched s iss o t v).writeV t r.toNat v
      | .k r => if kw then (if n = 2 then ((latched s iss o t v).writeK t r.toNat v).writeK t (r.toNat + 1) (v / 2 ^ 32)
          else (latched s iss o t v).writeK t r.toNat v) else latched s iss o t v
      | .pred p => (latched s iss o t v).modThread t fun th => th.setPred p.toNat (v % 2 = 1)
      | _ => latched s iss o t v := rfl

@[simp] theorem latched_thread (u : Nat) : (latched s iss o t v).thread u = s.thread u := by unfold latched; split <;> rfl
@[simp] theorem latched_squad (u : Nat) : (latched s iss o t v).squad u = s.squad u := by unfold latched; split <;> rfl
@[simp] theorem latched_regs : (latched s iss o t v).regs = s.regs := by unfold latched; split <;> rfl
@[simp] theorem latched_rest : (latched s iss o t v).rest = s.rest := by unfold latched; split <;> rfl
theorem latched_core (c : Nat) : ((latched s iss o t v).core c).plain = (s.core c).plain := by
  unfold latched; split
  · simp only [State.writeLatch, State.core_modCore]; split
    · exact setSlot_plain ..
    · rfl
  · rfl
theorem latched_core_ne (c : Nat) (h : c ≠ iss.core) : (latched s iss o t v).core c = s.core c := by
  unfold latched; split
  · simp [State.writeLatch, Ne.symm h]
  · rfl
theorem latched_slot (c j : Nat) (h : j = 0 ↔ iss.slot ≠ 0) : ((latched s iss o t v).core c).slot j = (s.core c).slot j := by
  unfold latched; split
  · simp only [State.writeLatch, State.core_modCore]; split
    · rw [Core.slot_setSlot, if_neg (by intro hh; by_cases h0 : j = 0 <;> simp_all)]
    · rfl
  · rfl
theorem latched_latch : (((latched s iss o t v).core iss.core).slot iss.slot).latch =
    match latchOf o with
    | some b => tset ((s.core iss.core).slot iss.slot).latch (b * 64 + laneOf t) (BitVec.ofNat 64 v)
    | none => ((s.core iss.core).slot iss.slot).latch := by
  unfold latched; cases latchOf o <;> simp [State.writeLatch]
theorem latched_regKey (u m : Nat) : (latched s iss o t v).regKey u m = s.regKey u m := by simp [State.regKey]

theorem writeD_rest : (s.writeD iss o t v n kw).rest = s.rest := by
  rw [writeD_eq, ← latched_rest s iss o t v]; repeat' split
  all_goals rfl
theorem writeD_cores (c : Nat) : (s.writeD iss o t v n kw).core c = (latched s iss o t v).core c := by
  rw [writeD_eq]; repeat' split
  all_goals rfl
theorem writeD_thread (u : Nat) : (s.writeD iss o t v n kw).thread u =
    match o.d with
    | .pred p => if u = t ∧ o.h.wbs = false then (s.thread u).setPred p.toNat (v % 2 = 1) else s.thread u
    | _ => s.thread u := by
  rw [writeD_eq]
  cases hw : o.h.wbs <;> cases o.d <;> simp only [Bool.false_eq_true, if_false, if_true, latched_thread, and_true]
  · split <;> simp
  · split
    · split <;> simp [State.writeK]
    · simp
  · simp only [State.thread_modThread, latched_thread, eq_comm]
  · simp
theorem writeD_squad (q : Nat) : ((s.writeD iss o t v n kw).squad q).plain = (s.squad q).plain := by
  rw [writeD_eq, ← latched_squad s iss o t v]
  have hk : ∀ (x : State) (j y : Nat), ((x.writeK t j y).squad q).plain = (x.squad q).plain := by
    intro x j y; simp only [State.writeK, State.squad_modSquad]; split <;> rfl
  repeat' split
  all_goals first
    | rfl
    | (simp only [hk])
theorem writeD_regKey (u m : Nat) : (s.writeD iss o t v n kw).regKey u m = s.regKey u m := by
  have h1 := congrArg Squad.base (writeD_squad s iss o t v n kw (squadOf u))
  have h2 : ((s.writeD iss o t v n kw).thread u).rotNow = (s.thread u).rotNow := by
    rw [writeD_thread]
    split
    · split
      · simp only [Thread.setPred]; split <;> rfl
      · rfl
    · rfl
  simp only [State.regKey, h2, show ((s.writeD iss o t v n kw).squad (squadOf u)).base = (s.squad (squadOf u)).base from h1]
theorem writeD_regs : (s.writeD iss o t v n kw).regs =
    if o.h.wbs then s.regs
    else match o.d with
      | .v r => if n = 2 then tset (tset s.regs (s.regKey t r.toNat) (BitVec.ofNat 32 v)) (s.regKey t (r.toNat + 1)) (BitVec.ofNat 32 (v / 2 ^ 32))
          else tset s.regs (s.regKey t r.toNat) (BitVec.ofNat 32 v)
      | _ => s.regs := by
  rw [writeD_eq]
  cases o.h.wbs <;> cases o.d <;> simp only [Bool.false_eq_true, if_false, if_true, latched_regs]
  · split <;> simp only [State.writeV_regs, State.regKey_writeV, latched_regs, latched_regKey]
  · split
    · split
      · exact latched_regs s iss o t v
      · exact latched_regs s iss o t v
    · simp
  · simp
theorem writeD_k (q : Nat) : ((s.writeD iss o t v n kw).squad q).k =
    if o.h.wbs = false ∧ kw = true ∧ q = squadOf t then
      match o.d with
      | .k r => if n = 2 then tset (tset (s.squad q).k r.toNat (BitVec.ofNat 32 v)) (r.toNat + 1) (BitVec.ofNat 32 (v / 2 ^ 32))
          else tset (s.squad q).k r.toNat (BitVec.ofNat 32 v)
      | _ => (s.squad q).k
    else (s.squad q).k := by
  rw [writeD_eq]
  cases o.h.wbs <;> cases o.d <;> simp only [Bool.false_eq_true, if_false, if_true, latched_squad, true_and]
  · split <;> simp
  · cases kw
    · simp
    · simp only [if_true, true_and]
      split
      · simp only [State.writeK, State.squad_modSquad, latched_squad]
        by_cases hq : q = squadOf t
        · subst hq; simp
        · simp [hq, Ne.symm hq]
      · simp only [State.writeK, State.squad_modSquad, latched_squad]
        by_cases hq : q = squadOf t
        · subst hq; simp
        · simp [hq, Ne.symm hq]
  all_goals simp

end

/-! ### Register keys -/

/-- Registers of threads in different lanes of a core, and different registers of one thread, have different keys. -/
theorem regKey_lane (x : State) {t u m j : Nat} (hc : coreOf t = coreOf u) (h : laneOf t ≠ laneOf u) : x.regKey t m ≠ x.regKey u j := by
  simp only [State.regKey, hc]
  intro hh
  have h1 := Nat.mod_lt (physReg (x.squad (squadOf t)).base (x.thread t).rotNow m) (show 0 < 1024 by decide)
  have h2 := Nat.mod_lt (physReg (x.squad (squadOf u)).base (x.thread u).rotNow j) (show 0 < 1024 by decide)
  omega
theorem regKey_succ (x : State) {t m : Nat} (hm : m < 256) : x.regKey t m ≠ x.regKey t (m + 1) := by
  simp only [State.regKey, physReg]
  intro hh
  generalize (x.squad (squadOf t)).base = b at hh
  generalize (x.thread t).rotNow = r at hh
  generalize (coreOf t * 64 + laneOf t) * 1024 = z at hh
  split at hh <;> split at hh <;> omega

/-! ### The writes of a group -/

/-- What the writes of the threads ts leave of a state x. -/
structure Writes (iss : Issue) (o : Ops) (n : Nat) (ts : List Nat) (v : Nat → Nat) (kw : Nat → Bool) (x r : State) : Prop where
  rest : r.rest = x.rest
  thread : ∀ t, r.thread t = match o.d with
    | .pred p => if t ∈ ts ∧ o.h.wbs = false then (x.thread t).setPred p.toNat (v t % 2 = 1) else x.thread t
    | _ => x.thread t
  squads : ∀ q, (r.squad q).plain = (x.squad q).plain
  core : ∀ c, (r.core c).plain = (x.core c).plain
  cores : ∀ c, c ≠ iss.core → r.core c = x.core c
  slot : ∀ c j, (j = 0 ↔ iss.slot ≠ 0) → (r.core c).slot j = (x.core c).slot j
  low : ∀ t ∈ ts, ∀ d, o.d = .v d → o.h.wbs = false → tget r.regs (x.regKey t d.toNat) 0 = BitVec.ofNat 32 (v t)
  high : ∀ t ∈ ts, ∀ d, o.d = .v d → o.h.wbs = false → n = 2 → tget r.regs (x.regKey t (d.toNat + 1)) 0 = BitVec.ofNat 32 (v t / 2 ^ 32)
  regs : ∀ key, (∀ t ∈ ts, ¬ x.namesReg o n t key) → tget r.regs key 0 = tget x.regs key 0
  kLow : ∀ t ∈ ts, ∀ d, o.d = .k d → o.h.wbs = false → kw t = true → tget (r.squad (squadOf t)).k d.toNat 0 = BitVec.ofNat 32 (v t)
  kHigh : ∀ t ∈ ts, ∀ d, o.d = .k d → o.h.wbs = false → n = 2 → kw t = true →
    tget (r.squad (squadOf t)).k (d.toNat + 1) 0 = BitVec.ofNat 32 (v t / 2 ^ 32)
  k : ∀ q j, (∀ t ∈ ts, ∀ d, o.d = .k d → o.h.wbs = false → kw t = true → squadOf t = q → j ≠ d.toNat ∧ (n = 2 → j ≠ d.toNat + 1)) →
    tget (r.squad q).k j 0 = tget (x.squad q).k j 0
  latch : ∀ t ∈ ts, ∀ b, latchOf o = some b →
    tget ((r.core iss.core).slot iss.slot).latch (b * 64 + laneOf t) 0 = BitVec.ofNat 64 (v t)
  latches : ∀ j, (∀ t ∈ ts, ∀ b, latchOf o = some b → j ≠ b * 64 + laneOf t) →
    tget ((r.core iss.core).slot iss.slot).latch j 0 = tget ((x.core iss.core).slot iss.slot).latch j 0

theorem Writes.nil (iss : Issue) (o : Ops) (n : Nat) (v : Nat → Nat) (kw : Nat → Bool) (x : State) : Writes iss o n [] v kw x x := by
  constructor <;> simp
  cases o.d <;> simp

theorem writes (iss : Issue) (o : Ops) (n : Nat) (v : Nat → Nat) (kw : Nat → Bool) (ts : List Nat) (hn : ts.Nodup)
    (hl : ∀ t ∈ ts, ∀ u ∈ ts, laneOf t = laneOf u → t = u) (hc : ∀ t ∈ ts, coreOf t = iss.core)
    (hk : ∀ t ∈ ts, ∀ u ∈ ts, kw t = true → kw u = true → squadOf t = squadOf u → t = u) (x : State) :
    Writes iss o n ts v kw x (ts.foldl (fun a t => a.writeD iss o t (v t) n (kw t)) x) := by
  induction ts generalizing x with
  | nil => exact Writes.nil ..
  | cons t ts ih =>
    have hn' := List.nodup_cons.1 hn
    have ih := ih hn'.2 (fun a ha b hb => hl a (List.mem_cons_of_mem _ ha) b (List.mem_cons_of_mem _ hb))
      (fun a ha => hc a (List.mem_cons_of_mem _ ha))
      (fun a ha b hb => hk a (List.mem_cons_of_mem _ ha) b (List.mem_cons_of_mem _ hb)) (x.writeD iss o t (v t) n (kw t))
    have ht : t ∈ t :: ts := List.mem_cons_self ..
    have hne : ∀ u ∈ ts, u ≠ t := fun u hu h => hn'.1 (h ▸ hu)
    have hlane : ∀ u ∈ ts, laneOf u ≠ laneOf t := fun u hu h => hne u hu (hl u (List.mem_cons_of_mem _ hu) t ht h)
    have hkey : ∀ u ∈ ts, ∀ m j, x.regKey u m ≠ x.regKey t j := fun u hu m j =>
      regKey_lane x (by rw [hc u (List.mem_cons_of_mem _ hu), hc t ht]) (hlane u hu)
    have hthr : ∀ u ∈ ts, ∀ key m, key = x.regKey t m → ¬ (x.writeD iss o t (v t) n (kw t)).namesReg o n u key := by
      rintro u hu key m rfl ⟨-, d, -, h | ⟨-, h⟩⟩
      · rw [writeD_regKey] at h; exact hkey u hu _ _ h.symm
      · rw [writeD_regKey] at h; exact hkey u hu _ _ h.symm
    rw [List.foldl_cons]
    refine ⟨ih.rest.trans (writeD_rest ..), ?_, fun q => (ih.squads q).trans (writeD_squad ..), ?_, ?_, ?_, ?_, ?_, ?_, ?_, ?_, ?_, ?_, ?_⟩
    · intro u
      rw [ih.thread u, writeD_thread]
      cases o.d with
      | pred p =>
        simp only [List.mem_cons]
        by_cases hu : u ∈ ts
        · simp [hu, hne u hu]
        · by_cases h2 : u = t
          · subst h2; simp [hu]
          · simp [hu, h2]
      | _ => rfl
    · intro c; rw [ih.core c, writeD_cores]; exact latched_core ..
    · intro c h; rw [ih.cores c h, writeD_cores]; exact latched_core_ne _ _ _ _ _ _ h
    · intro c j h; rw [ih.slot c j h, writeD_cores]; exact latched_slot _ _ _ _ _ _ _ h
    · intro u hu d hd hw
      rcases List.mem_cons.1 hu with h | h
      · subst h
        rw [ih.regs _ (fun y hy => hthr y hy _ _ rfl), writeD_regs]
        simp only [hw, hd, Bool.false_eq_true, if_false]
        split
        · rw [tget_tset_ne _ _ _ (Ne.symm (regKey_succ x d.isLt))]; simp
        · simp
      · have := ih.low u h d hd hw
        rwa [writeD_regKey] at this
    · intro u hu d hd hw h2
      rcases List.mem_cons.1 hu with h | h
      · subst h
        rw [ih.regs _ (fun y hy => hthr y hy _ _ rfl), writeD_regs]
        simp [hw, hd, h2]
      · have := ih.high u h d hd hw h2
        rwa [writeD_regKey] at this
    · intro key hkey'
      rw [ih.regs key, writeD_regs]
      · have h0 := hkey' t ht
        simp only [State.namesReg, not_and, not_exists, not_or] at h0
        split
        · rfl
        · next hw =>
          simp only [Bool.not_eq_true] at hw
          split
          · next d hd =>
            have h1 := h0 hw d hd
            split
            · next h2 => rw [tget_tset_ne _ _ _ (Ne.symm (h1.2 h2)), tget_tset_ne _ _ _ (Ne.symm h1.1)]
            · rw [tget_tset_ne _ _ _ (Ne.symm h1.1)]
          · rfl
      · intro u hu h
        refine hkey' u (List.mem_cons_of_mem _ hu) ?_
        simpa [State.namesReg, writeD_regKey] using h
    · intro u hu d hd hw hku
      rcases List.mem_cons.1 hu with h | h
      · subst h
        rw [ih.k _ _ ?_, writeD_k]
        · simp only [hw, hku, hd, and_self, if_true]
          split
          · rw [tget_tset_ne _ _ _ (by omega)]; simp
          · simp
        · intro y hy e he _ hky hq
          exact absurd (hk y (List.mem_cons_of_mem _ hy) u ht hky hku hq) (hne y hy)
      · exact ih.kLow u h d hd hw hku
    · intro u hu d hd hw h2 hku
      rcases List.mem_cons.1 hu with h | h
      · subst h
        rw [ih.k _ _ ?_, writeD_k]
        · simp [hw, hku, hd, h2]
        · intro y hy e he _ hky hq
          exact absurd (hk y (List.mem_cons_of_mem _ hy) u ht hky hku hq) (hne y hy)
      · exact ih.kHigh u h d hd hw h2 hku
    · intro q j hj
      rw [ih.k q j (fun u hu => hj u (List.mem_cons_of_mem _ hu)), writeD_k]
      split
      · next h =>
        obtain ⟨hw, hkt, hq⟩ := h
        split
        · next d hd =>
          have h1 := hj t ht d hd hw hkt hq.symm
          split
          · next h2 => rw [tget_tset_ne _ _ _ (Ne.symm (h1.2 h2)), tget_tset_ne _ _ _ (Ne.symm h1.1)]
          · rw [tget_tset_ne _ _ _ (Ne.symm h1.1)]
        · rfl
      · rfl
    · intro u hu b hb
      rcases List.mem_cons.1 hu with h | h
      · subst h
        rw [ih.latches _ ?_, writeD_cores, latched_latch, hb]
        · simp
        · intro y hy b' hb' h'
          rw [hb] at hb'; cases hb'
          exact hlane y hy (by omega)
      · exact ih.latch u h b hb
    · intro j hj
      rw [ih.latches j (fun u hu => hj u (List.mem_cons_of_mem _ hu)), writeD_cores, latched_latch]
      split
      · next b hb => rw [tget_tset_ne _ _ _ (Ne.symm (hj t ht b hb))]
      · rfl

/-! ### A group's instruction that writes a result -/

section
variable {s : State} {iss : Issue} {i : Instr} {o : Ops}

theorem cleared_rest (s : State) : (cleared s iss o).rest = s.rest := by
  unfold cleared; split <;> simp [State.clearLatch]
  exact begun_rest s iss
@[simp] theorem cleared_thread (s : State) (t : Nat) : (cleared s iss o).thread t = s.thread t := by
  unfold cleared; split <;> simp [State.clearLatch]
@[simp] theorem cleared_squad (s : State) (t : Nat) : (cleared s iss o).squad t = s.squad t := by
  unfold cleared; split <;> simp [State.clearLatch]
@[simp] theorem cleared_regs (s : State) : (cleared s iss o).regs = s.regs := by
  unfold cleared; split <;> simp [State.clearLatch]
@[simp] theorem cleared_regKey (s : State) (t n : Nat) : (cleared s iss o).regKey t n = s.regKey t n := by simp [State.regKey]
theorem cleared_core (c : Nat) : ((cleared s iss o).core c).plain = ((s.begun iss).core c).plain := by
  unfold cleared; split
  · simp only [State.clearLatch, State.core_modCore]; split
    · exact setSlot_plain ..
    · rfl
  · rfl
theorem cleared_core_ne (c : Nat) (h : c ≠ iss.core) : (cleared s iss o).core c = (s.begun iss).core c := by
  unfold cleared; split
  · simp [State.clearLatch, Ne.symm h]
  · rfl
theorem cleared_slot (c j : Nat) (h : j = 0 ↔ iss.slot ≠ 0) : ((cleared s iss o).core c).slot j = ((s.begun iss).core c).slot j := by
  unfold cleared; split
  · simp only [State.clearLatch, State.core_modCore]; split
    · rw [Core.slot_setSlot, if_neg (by intro hh; by_cases h0 : j = 0 <;> simp_all)]
    · rfl
  · rfl
theorem cleared_latches (j : Nat) (h : latchOf o ≠ some (j / 64)) :
    tget (((cleared s iss o).core iss.core).slot iss.slot).latch j 0 = tget (((s.begun iss).core iss.core).slot iss.slot).latch j 0 := by
  unfold cleared; split
  · next b hb =>
    simp only [State.clearLatch, State.core_modCore, if_true, Core.slot_setSlot_self]
    rw [tget, tget, tget?_filter]
    intro v
    simp only [ne_eq, decide_not, Bool.not_eq_true', decide_eq_false_iff_not]
    rintro rfl; exact h hb
  · rfl

theorem kWriter_eq (h : Issues s iss i o) {t : Nat} (ht : t ∈ iss.threads) :
    kWriter (s.begun iss) iss o t = decide ((s.guarded iss o).find? (fun u => squadOf u = squadOf t) = some t) := by
  have hf : (s.guarded iss o).find? (fun u => squadOf u = squadOf t) = iss.threads.find? fun u => squadOf u = squadOf t && (s.thread u).guard o.h := by
    simp only [State.guarded, List.find?_filter]
    congr 1
    funext u
    by_cases h1 : squadOf u = squadOf t <;> cases (s.thread u).guard o.h <;> simp [h1]
  rw [hf]
  simp only [kWriter, begun_thread]
  split
  · next f hx => exact h.writers t ht f hx
  · rfl
/-- The k destination is written by one thread of each squad (01 R15). -/
theorem kWriter_inj (h : Issues s iss i o) {t u : Nat} (ht : t ∈ s.guarded iss o) (hu : u ∈ s.guarded iss o) (hkt : kWriter (s.begun iss) iss o t = true)
    (hku : kWriter (s.begun iss) iss o u = true) (hq : squadOf t = squadOf u) : t = u := by
  rw [kWriter_eq h (List.mem_filter.1 ht).1, decide_eq_true_eq] at hkt
  rw [kWriter_eq h (List.mem_filter.1 hu).1, decide_eq_true_eq] at hku
  rw [hq, hku] at hkt
  exact (Option.some.inj hkt).symm

/-- Writes, then the threads move on. -/
theorem writes_wrote {n : Nat} {v : Nat → Nat} {kw : Nat → Bool} {ts : List Nat} {x y r : State} (hts : ∀ t ∈ ts, t ∈ iss.threads)
    (hk : ∀ t ∈ ts, kw t = decide (ts.find? (fun u => squadOf u = squadOf t) = some t)) (hw : Writes iss o n ts v kw x y)
    (hs : Still iss (fun _ th => th.past iss.pc (iss.next i)) y r) : Wrote iss i o n ts v x r where
  kept := by
    refine ⟨hs.kept.rest.trans hw.rest, ?_, ?_, fun q => (hs.kept.squads q).trans (hw.squads q),
      hs.kept.core.trans (hw.core _), fun c h => (hs.kept.cores c h).trans (hw.cores c h),
      fun j h => (hs.kept.slot j h).trans (hw.slot _ j h)⟩
    · intro t ht
      have e := hs.kept.threads t ht
      rw [hw.thread t] at e
      exact e.trans (by cases o.d <;> rfl)
    · intro t ht
      rw [hs.kept.others t ht, hw.thread t]
      cases o.d with
      | pred p => simp [show t ∉ ts from fun h => ht (hts t h)]
      | _ => rfl
  low := by rw [hs.regs]; exact hw.low
  high := by rw [hs.regs]; exact hw.high
  regs := by rw [hs.regs]; exact hw.regs
  kLow t ht d hd hb hf := by rw [hs.k]; exact hw.kLow t ht d hd hb (by rw [hk t ht]; exact decide_eq_true hf)
  kHigh t ht d hd hb h2 hf := by rw [hs.k]; exact hw.kHigh t ht d hd hb h2 (by rw [hk t ht]; exact decide_eq_true hf)
  k q j h := by
    rw [hs.k]
    exact hw.k q j (fun t ht d hd hb _ hq => h d hd hb ⟨t, ht, hq⟩)
  latch := by rw [hs.latch]; exact hw.latch
  latches j h := by
    rw [hs.latch]
    refine hw.latches j ?_
    rintro t - b hb rfl
    exact h (by rw [hb]; congr 1; have := Nat.mod_lt t (show 0 < 64 by decide); simp only [laneOf]; omega)

/-- The result is written over the state the group's instruction found. -/
theorem Wrote.of_cleared {n : Nat} {v : Nat → Nat} {ts : List Nat} {r : State} (h : Wrote iss i o n ts v (cleared s iss o) r) :
    Wrote iss i o n ts v (s.begun iss) r where
  kept := by
    have := h.kept
    refine ⟨this.rest.trans ((cleared_rest s).trans (begun_rest s iss).symm), ?_, ?_, ?_, this.core.trans (cleared_core _),
      fun c hc => (this.cores c hc).trans (cleared_core_ne c hc), fun j hj => (this.slot j hj).trans (cleared_slot _ j hj)⟩
    · simpa using this.threads
    · simpa using this.others
    · simpa using this.squads
  low := by simpa using h.low
  high := by simpa using h.high
  regs := by simpa [State.namesReg] using h.regs
  kLow := h.kLow
  kHigh := h.kHigh
  k := by simpa using h.k
  latch := h.latch
  latches j hj := (h.latches j hj).trans (cleared_latches j hj)

/-- A group's instruction that writes a result: every guarded thread's destination holds its value, and every thread is past the instruction. -/
theorem runGroup_wrote {body : Issue → Body} {n : Nat} {v : Nat → Nat} (h : Issues s iss i o)
    (hb : ∀ t ∈ s.guarded iss o, ∀ a, body iss (s.begun iss) a t = (a.writeD iss o t (v t) n (kWriter (s.begun iss) iss o t), .next)) :
    Wrote iss i o n (s.guarded iss o) v (s.begun iss) (runGroup i o body s) := by
  have hst := runGroup_still (body := body) (g := fun _ => .next) h
    (fun t ht hg a => by rw [hb t (List.mem_filter.2 ⟨ht, hg⟩) a]) (fun _ _ => rfl) (Or.inl fun _ _ => rfl)
  have hfold : (s.guarded iss o).foldl (fun a t => (body iss (s.begun iss) a t).1) (cleared s iss o) =
      (s.guarded iss o).foldl (fun a t => a.writeD iss o t (v t) n (kWriter (s.begun iss) iss o t)) (cleared s iss o) := by
    have key : ∀ (ts : List Nat) (x : State), (∀ t ∈ ts, t ∈ s.guarded iss o) → ts.foldl (fun a t => (body iss (s.begun iss) a t).1) x =
        ts.foldl (fun a t => a.writeD iss o t (v t) n (kWriter (s.begun iss) iss o t)) x := by
      intro ts
      induction ts with
      | nil => intro x _; rfl
      | cons t ts ih =>
        intro x hx
        simp only [List.foldl_cons, hb t (hx t (List.mem_cons_self ..))]
        exact ih _ (fun u hu => hx u (List.mem_cons_of_mem _ hu))
    exact key _ _ (fun _ h => h)
  simp only [hfold, ite_self] at hst
  refine Wrote.of_cleared (writes_wrote (kw := kWriter (s.begun iss) iss o) (fun t ht => (List.mem_filter.1 ht).1) (fun t ht => kWriter_eq h (List.mem_filter.1 ht).1)
    (writes iss o n v _ _ (guarded_nodup h) (fun t ht u hu => lane_inj h ht hu) (fun t ht => guarded_core h ht)
      (fun t ht u hu => kWriter_inj h ht hu) _) hst)

end

end Sys2Proof.Machine
end

