-- ==== Sys2Proof/Laws/Alu.lean ====
section
/-! SUPPORT. Sources as a group's instruction reads them, and the fixed-latency instructions (07 R134). -/

namespace Sys2Proof.Machine

variable {s : State} {iss : Issue} {i : Instr} {o : Ops}

/-! ### Operand fields -/

theorem readFld_v (s : State) (iss : Issue) (t n : Nat) (r : BitVec 8) :
    s.readFld iss t (.v r) n = s.readV t r.toNat + if n = 2 then s.readV t (r.toNat + 1) * 2 ^ 32 else 0 := rfl
theorem readFld_k (s : State) (iss : Issue) (t n : Nat) (r : BitVec 6) :
    s.readFld iss t (.k r) n = s.readK t r.toNat + if n = 2 then s.readK t (r.toNat + 1) * 2 ^ 32 else 0 := rfl
theorem readFld_b (s : State) (iss : Issue) (t n : Nat) (b : BitVec 2) (h : (s.thread t).first = none) : s.readFld iss t (.b b) n =
    if n = 2 then s.readLatch iss.core iss.slot b.toNat (laneOf t) else s.readLatch iss.core iss.slot b.toNat (laneOf t) % 2 ^ 32 := by
  simp only [State.readFld, h]
/-- A thread that goes on with an instruction reads the latches as its group issued with them. -/
theorem readFld_b_first (s : State) (iss : Issue) (t n : Nat) (b : BitVec 2) {f : First} (h : (s.thread t).first = some f) : s.readFld iss t (.b b) n =
    if n = 2 then tget f.latch b.toNat 0 else tget f.latch b.toNat 0 % 2 ^ 32 := by
  simp only [State.readFld, h]
theorem readFld_zero (s : State) (iss : Issue) (t n : Nat) : s.readFld iss t .zero n = 0 := rfl
theorem readFld_pred (s : State) (iss : Issue) (t n : Nat) (p : BitVec 4) :
    s.readFld iss t (.pred p) n = if (s.thread t).pred p.toNat then 1 else 0 := rfl

theorem begun_readV (t n : Nat) : (s.begun iss).readV t n = s.readV t n := by unfold State.readV; rw [begun_regs, begun_regKey]
theorem begun_readK (t n : Nat) : (s.begun iss).readK t n = s.readK t n := by unfold State.readK; rw [begun_squad]

/-- A field whose latch, if it is one, is valid reads as it did before the chain's start. -/
theorem begun_readFld {f : Fld} {t : Nat} (hf : ∀ b, f = .b b → (s.begun iss).latchAt iss t b.toNat = true) (n : Nat) :
    (s.begun iss).readFld iss t f n = s.readFld iss t f n := by
  cases f with
  | v r => rw [readFld_v, readFld_v, begun_readV, begun_readV]
  | k r => rw [readFld_k, readFld_k, begun_readK, begun_readK]
  | b b =>
    have h := hf b rfl
    cases hx : (s.thread t).first with
    | some f => rw [readFld_b_first s iss t n b hx, readFld_b_first (s.begun iss) iss t n b (by rw [begun_thread]; exact hx)]
    | none =>
      have h : (s.begun iss).latchValid iss.core iss.slot b.toNat = true := by simpa [State.latchAt, hx] using h
      have : s.begun iss = s := by
        unfold State.begun at h ⊢
        split
        · next hc => simp [hc, State.latchValid] at h
        · rfl
      rw [this]
  | zero => rfl
  | pred p => rw [readFld_pred, readFld_pred, begun_thread]

theorem Issues.valid (h : Issues s iss i o) {t : Nat} (ht : t ∈ iss.threads) {f : Fld} {n : Nat} (hf : (f, n) ∈ sources i o) :
    ∀ b, f = .b b → (s.begun iss).latchAt iss t b.toNat = true := by
  rintro b rfl
  have h1 := h.latches t ht
  simp only [State.latchTrap, List.any_eq_false] at h1
  simpa using h1 _ hf

theorem mem_sources (i : Instr) (o : Ops) {x : Fld × Nat} (h : x ∈ (fields i o).tail) : x ∈ sources i o := by
  simp only [sources, List.mem_append]; exact Or.inl (Or.inl h)

theorem begun_srcA (h : Issues s iss i o) {t : Nat} (ht : t ∈ iss.threads) : (s.begun iss).srcA iss t i o = s.srcA iss t i o :=
  begun_readFld (h.valid ht (n := (widthsOf i).2.1) (mem_sources i o (by simp [fields]))) _
theorem begun_srcC (h : Issues s iss i o) {t : Nat} (ht : t ∈ iss.threads) : (s.begun iss).srcC iss t i o = s.srcC iss t i o :=
  begun_readFld (h.valid ht (n := (widthsOf i).2.2.2) (mem_sources i o (by simp [fields]))) _
theorem begun_srcB (h : Issues s iss i o) {t : Nat} (ht : t ∈ iss.threads) : (s.begun iss).srcB iss t i o.b = s.srcB iss t i o.b := by
  have hb : ∀ b, bFld o.b = .b b → (s.begun iss).latchAt iss t b.toNat = true :=
    h.valid ht (n := (widthsOf i).2.2.1) (mem_sources i o (by simp [fields]))
  revert hb
  cases o.b with
  | fld f => exact fun hb => begun_readFld hb _
  | fldOff f _ => exact fun hb => begun_readFld hb _
  | imm32 _ => exact fun _ => rfl
  | imm61 _ => exact fun _ => rfl
  | off48 _ => exact fun _ => rfl

/-- A fixed-latency instruction: every guarded thread's destination holds f of its sources. -/
theorem alu_wrote {f : Nat → Nat → Nat → Nat} (h : Issues s iss i o) :
    Wrote iss i o (widthsOf i).1 (s.guarded iss o) (fun t => f (s.srcA iss t i o) (s.srcB iss t i o.b) (s.srcC iss t i o)) (s.begun iss)
      (alu i o f s) :=
  runGroup_wrote h (fun t ht a => by
    have ht := (List.mem_filter.1 ht).1
    simp only [begun_srcA h ht, begun_srcB h ht, begun_srcC h ht])

end Sys2Proof.Machine
end

