-- ==== Sys2Proof/Laws/Collect.lean ====
section
/-! SUPPORT. A collective whose squad arrives in one group (01 R29, R30, 07 R157). -/

namespace Sys2Proof.Machine

variable {s : State} {iss : Issue} {i : Instr} {o : Ops} {q : Nat}

/-! ### Which threads a squad has -/

/-- r has the threads x has, and perhaps those of ts. -/
def SameThreads (ts : List Nat) (x r : State) : Prop := ∀ t, (tget? r.threads t).isSome = ((tget? x.threads t).isSome || decide (t ∈ ts))

theorem SameThreads.squad {ts : List Nat} {x r : State} (h : SameThreads ts x r) (hp : ∀ t ∈ ts, (tget? x.threads t).isSome = true) (q : Nat) :
    r.squadThreads q = x.squadThreads q := by
  unfold State.squadThreads
  congr 1
  funext t
  rw [h t]
  by_cases ht : t ∈ ts
  · simp [ht, hp t ht]
  · simp [ht]

theorem setThread_same (x : State) (t : Nat) (th : Thread) (u : Nat) :
    (tget? (x.setThread t th).threads u).isSome = ((tget? x.threads u).isSome || decide (u = t)) := by
  simp only [State.setThread_threads, tget?_tset]
  by_cases h : t = u
  · simp [h]
  · simp [h, Ne.symm h]

@[simp] theorem State.kFly_threads (x : State) (q : Nat) (l : List Busy) (ck : Nat) : (x.kFly q l ck).threads = x.threads := by
  unfold State.kFly; split <;> rfl

theorem leave_threads (s0 : State) (iss : Issue) (i : Instr) (o : Ops) (ch : Chain) (s : State) (x : Nat × Ret) :
    ∃ l ⊆ [x.1], SameThreads l s (s0.leave iss i o ch s x) := by
  obtain ⟨t, r⟩ := x
  have h1 : ∀ (y : State), y.threads = s.threads → ∀ th, SameThreads [t] s (y.setThread t th) := by
    intro y hy th u
    rw [setThread_same, hy]; simp
  have h2 : ∀ (y : State) (th : Thread) (f : Thread → Thread), y.threads = s.threads → SameThreads [t] s ((y.setThread t th).modThread t f) := by
    intro y th f hy u
    rw [State.modThread, setThread_same, setThread_same, hy]; simp
  have h3 : ∀ (pc n : Nat) (f : Thread → Thread), SameThreads [t] s ((s.retire t pc n).modThread t f) := fun pc n f => h2 (s.unplace t) _ f rfl
  cases r with
  | next =>
    refine ⟨[t], List.Subset.refl _, ?_⟩
    simp only [State.leave]
    split
    · split
      · intro u; rw [State.kFly_threads]; exact h3 _ _ _ u
      · exact h1 _ rfl _
    · exact h1 _ rfl _
  | jump p => exact ⟨[t], List.Subset.refl _, h1 _ rfl _⟩
  | stay r =>
    refine ⟨[t], List.Subset.refl _, ?_⟩
    simp only [State.leave, State.stayAt]
    split
    · exact h1 _ rfl _
    · exact h2 (s.unplace t) _ _ rfl
  | trap x => exact ⟨[], by simp, fun u => by simp [State.leave]⟩
  | gone => exact ⟨[], by simp, fun u => by simp [State.leave]⟩

theorem leave_all_threads (s0 : State) (iss : Issue) (i : Instr) (o : Ops) (ch : Chain) (g : Nat → Ret) (ts : List Nat) (s : State) :
    ∃ l ⊆ ts, SameThreads l s ((ts.map fun t => (t, g t)).foldl (s0.leave iss i o ch) s) := by
  induction ts generalizing s with
  | nil => exact ⟨[], by simp, fun u => by simp⟩
  | cons t ts ih =>
    obtain ⟨l, hl, h⟩ := ih (s0.leave iss i o ch s (t, g t))
    obtain ⟨l', hl', h'⟩ := leave_threads s0 iss i o ch s (t, g t)
    refine ⟨l' ++ l, ?_, ?_⟩
    · intro u hu
      rcases List.mem_append.1 hu with hu | hu
      · simpa using Or.inl (List.mem_singleton.1 (hl' hu))
      · exact List.mem_cons_of_mem _ (hl hu)
    · intro u
      simp only [List.map_cons, List.foldl_cons]
      rw [h u, h' u]; simp [Bool.or_assoc]

/-! ### Arrival -/

/-- The operands a thread holds after arriving. -/
def Thread.arrived (th : Thread) (a b c : Nat) (g : Bool) : Thread := { th with heldA := a, heldB := b, heldC := c, heldGuard := g }

theorem plain_arrived (th : Thread) (a b c : Nat) (g : Bool) : (th.arrived a b c g).plain = th.plain := rfl

theorem arrive_fold {early : State → State → Nat → Option (State × Ret)} {s0 : State} {n : Nat} (ts : List Nat)
    (hl : ∀ t ∈ ts, s0.latchTrap iss i o t = false) (hn : ts.Nodup) (hc : ∀ t ∈ ts, s0.preTrap iss i o n t = none) (he : ∀ t ∈ ts, ∀ a, early s0 a t = none)
    (hv : ∀ t ∈ ts, (if isMarl iss.core then none else s0.convergence (squadOf t) iss.pc) = none) (s1 : State) (l : List (Nat × Ret)) :
    ∃ r, ts.foldl (arriveThread i o early s0 iss n) (s1, l) = (r, (ts.map fun t => (t, Ret.stay .hold)).reverse ++ l) ∧
      r.rest = s1.rest ∧ r.regs = s1.regs ∧ r.squads = s1.squads ∧ r.cores = s1.cores ∧ SameThreads ts s1 r ∧
      (∀ t ∈ ts, r.thread t = (s1.thread t).arrived (s0.srcA iss t i o) (s0.srcB iss t i o.b) (s0.srcC iss t i o) ((s0.thread t).guard o.h)) ∧
      (∀ t, t ∉ ts → r.thread t = s1.thread t) := by
  induction ts generalizing s1 l with
  | nil => exact ⟨s1, by simp [SameThreads]⟩
  | cons t ts ih =>
    have hn' := List.nodup_cons.1 hn
    have ht : t ∈ t :: ts := List.mem_cons_self ..
    have h1 : arriveThread i o early s0 iss n (s1, l) t = (s1.modThread t fun th =>
        th.arrived (s0.srcA iss t i o) (s0.srcB iss t i o.b) (s0.srcC iss t i o) ((s0.thread t).guard o.h), (t, .stay .hold) :: l) := by
      simp only [arriveThread, hc t ht, he t ht, hv t ht, hl t ht, Bool.and_false, Bool.false_eq_true, if_false]
      rfl
    obtain ⟨r, hr, a, b, c, d, e, f, g⟩ := ih (fun u hu => hl u (List.mem_cons_of_mem _ hu)) hn'.2 (fun u hu => hc u (List.mem_cons_of_mem _ hu))
      (fun u hu => he u (List.mem_cons_of_mem _ hu)) (fun u hu => hv u (List.mem_cons_of_mem _ hu)) (s1.modThread t fun th =>
        th.arrived (s0.srcA iss t i o) (s0.srcB iss t i o.b) (s0.srcC iss t i o) ((s0.thread t).guard o.h)) ((t, .stay .hold) :: l)
    refine ⟨r, ?_, a, b, c, d, ?_, ?_, ?_⟩
    · rw [List.foldl_cons, h1, hr]; simp
    · intro u
      rw [e u, State.modThread, setThread_same]
      simp only [List.mem_cons, Bool.or_assoc, Bool.decide_or]
    · intro u hu
      rcases List.mem_cons.1 hu with h | h
      · rw [h, g t hn'.1]; simp
      · have hne : t ≠ u := fun hh => hn'.1 (hh ▸ h)
        rw [f u h, State.thread_modThread, if_neg hne]
    · intro u hu
      rw [List.mem_cons, not_or] at hu
      rw [g u hu.2, State.thread_modThread, if_neg (Ne.symm hu.1)]

/-! ### Completion -/

theorem release_still (ts : List Nat) (hn : ts.Nodup) (hc : ∀ t ∈ ts, coreOf t = iss.core)  (x : State) (hpc : ∀ t ∈ ts, (x.thread t).pc = iss.pc) :
    let r := x.release i o ts
    r.rest = x.rest ∧ r.regs = x.regs ∧ (∀ t ∈ ts, (r.thread t).bare = ((x.thread t).past iss.pc (iss.next i)).bare) ∧
    (∀ t, t ∉ ts → r.thread t = x.thread t) ∧ (∀ q, (r.squad q).plain = (x.squad q).plain) ∧ (∀ q, (r.squad q).k = (x.squad q).k) ∧
    (∀ d, (r.core d).plain = (x.core d).plain) ∧ (∀ d, d ≠ iss.core → r.core d = x.core d) ∧
    (∀ d j, (r.core d).slot j = (x.core d).slot j) := by
  induction ts generalizing x with
  | nil => simp [State.release]
  | cons t ts ih =>
    have hn' := List.nodup_cons.1 hn
    have ht : t ∈ t :: ts := List.mem_cons_self ..
    have key : ∀ (b l : List Busy) (ck : Nat), Leaves t (fun th => th.past iss.pc (iss.next i)) x
        (((x.retire t (x.thread t).pc (((x.thread t).pc + i.length) % 2 ^ 64)).modThread t fun th =>
          { th with busy := th.busy ++ b }).kFly (squadOf t) l ck) := by
      intro b l ck
      rw [hpc t ht]
      exact ((retire_leaves x t iss.pc (iss.next i)).busy _).kFly _ _ _
    obtain ⟨b, l, ck, hb⟩ : ∃ b l ck, x.release i o (t :: ts) =
        (((x.retire t (x.thread t).pc (((x.thread t).pc + i.length) % 2 ^ 64)).modThread t fun th =>
          { th with busy := th.busy ++ b }).kFly (squadOf t) l ck).release i o ts := ⟨_, _, _, rfl⟩
    have hk := key b l ck
    obtain ⟨a, c, d, e, f, f2, g, h, k⟩ := ih hn'.2 (fun u hu => hc u (List.mem_cons_of_mem _ hu)) _
      (fun u hu => by
        rw [hk.others u (fun hh => hn'.1 (hh ▸ hu))]; exact hpc u (List.mem_cons_of_mem _ hu))
    rw [hb]
    refine ⟨a.trans hk.rest, c.trans hk.regs, ?_, ?_, fun q => (f q).trans (hk.squads q), fun q => (f2 q).trans (hk.k q),
      fun q => (g q).trans (hk.core q), ?_,
      fun q j => (k q j).trans (hk.slot q j)⟩
    · intro u hu
      rcases List.mem_cons.1 hu with h1 | h1
      · rw [h1, e t hn'.1]; exact hk.thread
      · rw [d u h1, hk.others u (fun hh => hn'.1 (hh ▸ h1))]
    · intro u hu
      rw [List.mem_cons, not_or] at hu
      rw [e u hu.2, hk.others u hu.1]
    · intro q hq
      rw [h q hq, hk.cores q (by rw [hc t ht]; exact hq)]

/-! ### A squad that arrives together -/

theorem Together.squads (h : Together s iss i o q) {t : Nat} (ht : t ∈ iss.threads) : squadOf t = q := by
  rw [h.all] at ht
  simp only [State.squadThreads, List.mem_filter, List.mem_map, List.mem_range] at ht
  obtain ⟨⟨l, hl, rfl⟩, -⟩ := ht
  simp only [squadOf, threadKey]; omega
theorem Together.present (h : Together s iss i o q) {t : Nat} (ht : t ∈ iss.threads) : (tget? s.threads t).isSome = true := by
  rw [h.all] at ht
  exact (List.mem_filter.1 ht).2

theorem begun_threads (s : State) (iss : Issue) : (s.begun iss).threads = s.threads := by unfold State.begun; split <;> rfl

theorem begun_squadThreads (s : State) (iss : Issue) (q : Nat) : (s.begun iss).squadThreads q = s.squadThreads q := by
  simp only [State.squadThreads, begun_threads]

theorem filter_squad (c : Nat) (p : Nat → Bool) (q : Nat) (hq : coreOfSquad q = c) (hp : ∀ x, p x = decide (x = q)) :
    ((List.range 32).map (squadKey c)).filter p = [q] := by
  have hq' : q = squadKey c (q % 32) := by simp only [squadKey, coreOfSquad] at *; omega
  have h1 : ((List.range 32).map (squadKey c)).filter p = ((List.range 32).filter fun k => k = q % 32).map (squadKey c) := by
    rw [List.filter_map]
    congr 1
    apply List.filter_congr
    intro k hk
    simp only [Function.comp, hp, decide_eq_decide]
    rw [hq']
    simp only [squadKey, List.mem_range] at *
    omega
  have h2 : ((List.range 32).filter fun k => k = q % 32) = [q % 32] := by
    have h3 : ∀ n : Fin 32, ((List.range 32).filter fun k => k = n.1) = [n.1] := by decide
    exact h3 ⟨q % 32, Nat.mod_lt _ (by decide)⟩
  rw [h1, h2, hq']
  simp only [List.map_cons, List.map_nil, squadKey, List.cons.injEq, and_true]
  omega

/-- Every thread of the squad holds at the collective, and the collective completes. -/
theorem runGathered_together {early : Issue → State → State → Nat → Option (State × Ret)}
    {act : Issue → List Nat → State → State × Gathered} (h : Together s iss i o q) (he : ∀ t ∈ iss.threads, ∀ a, early iss (s.begun iss) a t = none) :
    ∃ y, runGathered i o early act s = y.gatherDone iss i o act iss.threads ∧
      Still iss (fun _ th => { th with run := .hold }) (s.begun iss) y ∧
      ∀ t ∈ iss.threads, (y.thread t).bare = { ((s.thread t).arrived (s.srcA iss t i o) (s.srcB iss t i o.b) (s.srcC iss t i o)
        ((s.thread t).guard o.h)).bare with run := .hold } := by
  have hi := h.issues
  have hv : ∀ t ∈ iss.threads, (if isMarl iss.core then none else (s.begun iss).convergence (squadOf t) iss.pc) = none := by
    intro t ht
    split
    · rfl
    · rw [h.squads ht]
      have h1 : ((s.begun iss).squadThreads q).any (fun t => ((s.begun iss).thread t).run = .exited) = false := by
        simp only [begun_squadThreads, ← h.all, begun_thread, List.any_eq_false]
        intro u hu; simp [(h.here u hu).1]
      have h2 : ((s.begun iss).squadThreads q).find? (fun t => ((s.begun iss).thread t).run = .hold && ((s.begun iss).thread t).pc ≠ iss.pc ||
          ((s.begun iss).thread t).atBarrier) = none := by
        simp only [begun_squadThreads, ← h.all, begun_thread, List.find?_eq_none]
        intro u hu; simp [(h.here u hu).1, Thread.atBarrier]
      simp only [State.convergence, h1, h2, Bool.false_eq_true, if_false]
  obtain ⟨r, hr, a, b, c, d, e, f, g⟩ := arrive_fold (i := i) (o := o) (early := early iss) (n := (s.chainAt iss).count) iss.threads hi.latches
    hi.nodup (by simpa using hi.checks) (fun t ht a => he t ht a) hv (s.begun iss) []
  have hg : ∀ t ∈ iss.threads, ((fun _ => Ret.stay .hold : Nat → Ret) t).strikes = false := fun _ _ => rfl
  have hst := finish_still (s := r) (i := i) (o := o) (ch := s.chainAt iss) hi.nodup hi.core hg (Or.inl fun _ _ => rfl)
  have hba := finish_bare (s := r) (i := i) (o := o) (ch := s.chainAt iss) hi.nodup hi.core hg (Or.inl fun _ _ => rfl)
  have hb : ∀ t ∈ iss.threads, ((r.finish iss i o (s.chainAt iss) (iss.threads.map fun t => (t, .stay .hold))).thread t).bare =
      { ((s.thread t).arrived (s.srcA iss t i o) (s.srcB iss t i o.b) (s.srcC iss t i o) ((s.thread t).guard o.h)).bare with run := .hold } := by
    intro t ht
    rw [hba t ht, f t ht, begun_srcA hi ht, begun_srcB hi ht, begun_srcC hi ht]
    simp only [begun_thread]; rfl
  refine ⟨r.finish iss i o (s.chainAt iss) (iss.threads.map fun t => (t, .stay .hold)), ?_, ?_, hb⟩
  · have hx : runGathered i o early act s = (((List.range 32).map (squadKey iss.core)).filter fun q => iss.threads.any fun t => squadOf t = q).foldl
        (State.gatherSquad iss i o act) ((iss.threads.foldl (arriveThread i o (early iss) (s.begun iss) iss (s.chainAt iss).count) (s.begun iss, [])).1.finish
          iss i o (s.chainAt iss) (iss.threads.foldl (arriveThread i o (early iss) (s.begun iss) iss (s.chainAt iss).count) (s.begun iss, [])).2.reverse) := by
      simp only [runGathered, hi.issue]
    obtain ⟨t0, ht0⟩ : ∃ t, t ∈ iss.threads := List.exists_mem_of_ne_nil _ h.some'
    have hq : coreOfSquad q = iss.core := by rw [← h.squads ht0]; exact hi.core t0 ht0
    have hp : ∀ x, (iss.threads.any fun t => squadOf t = x) = decide (x = q) := by
      intro x
      by_cases hxq : x = q
      · subst hxq
        simp only [decide_true, List.any_eq_true]
        exact ⟨t0, ht0, by simp [h.squads ht0]⟩
      · simp only [hxq, decide_false, List.any_eq_false]
        intro t ht
        simp [h.squads ht, Ne.symm hxq]
    rw [hx, hr, filter_squad _ _ q hq hp]
    simp only [List.foldl_cons, List.foldl_nil, List.append_nil, List.reverse_reverse]
    obtain ⟨l, hl, hs⟩ := leave_all_threads r iss i o (s.chainAt iss) (fun _ => .stay .hold) iss.threads r
    have hq1 : (r.finish iss i o (s.chainAt iss) (iss.threads.map fun t => (t, .stay .hold))).squadThreads q = iss.threads := by
      have hfin : (r.finish iss i o (s.chainAt iss) (iss.threads.map fun t => (t, .stay .hold))).squadThreads q =
          ((iss.threads.map fun t => (t, Ret.stay .hold)).foldl (r.leave iss i o (s.chainAt iss)) r).squadThreads q := by
        rcases finish_eq (s := r) (i := i) (o := o) (ch := s.chainAt iss) hg (Or.inl fun _ _ => rfl) with hfin | ⟨goes, ch', hfin⟩
        · rw [hfin]
        · rw [hfin]; rfl
      rw [hfin, hs.squad (fun t ht => by rw [e t]; simp [hl ht]), e.squad (fun t ht => by rw [begun_threads]; exact h.present ht), begun_squadThreads, h.all]
    unfold State.gatherSquad
    rw [hq1, if_pos]
    refine ⟨h.some', ?_⟩
    simp only [List.all_eq_true, Bool.and_eq_true, decide_eq_true_eq]
    intro t ht
    have h3 := hb t ht
    exact ⟨congrArg Thread.run h3, (congrArg Thread.pc h3).trans (h.here t ht).2⟩
  · have hk := hst.kept
    refine ⟨⟨hk.rest.trans a, ?_, ?_, ?_, ?_, ?_, ?_⟩, hst.regs.trans b, ?_, ?_⟩
    · intro t ht
      rw [hk.threads t ht, f t ht]; rfl
    · intro t ht; rw [hk.others t ht, g t ht]
    · intro x; rw [hk.squads x]; simp only [State.squad, c]
    · rw [hk.core]; simp only [State.core, d]
    · intro x hx; rw [hk.cores x hx]; simp only [State.core, d]
    · intro j hj; rw [hk.slot j hj]; simp only [State.core, d]
    · intro x; rw [hst.k x]; simp only [State.squad, c]
    · rw [hst.latch]; simp only [State.core, d]

/-! ### A collective that writes a result -/

/-- What past does not look at. -/
def Thread.skin (th : Thread) : Thread := { th with run := .ready, busy := [], heldA := 0, heldB := 0, heldC := 0, heldGuard := false, first := none }

theorem past_skin (th : Thread) (pc n : Nat) : (th.past pc n).plain = (th.skin.past pc n).plain := by
  have h1 : ∀ j, th.skin.lc j = th.lc j := fun j => by unfold Thread.lc; split <;> rfl
  have h2 : ∀ j x, (th.skin.setLc j x) = (th.setLc j x).skin := fun j x => by unfold Thread.setLc; split <;> rfl
  unfold Thread.past Thread.loopUpdate
  simp only [h1, h2, show th.skin.depth = th.depth from rfl, show th.skin.inHandler = th.inHandler from rfl]
  split
  · rfl
  · split
    · rfl
    · split
      · split <;> split <;> rfl
      · rfl
theorem setPred_skin (th : Thread) (p : Nat) (v : Bool) : (th.setPred p v).skin = th.skin.setPred p v := by
  unfold Thread.setPred; split <;> rfl

theorem find_head (l : List Nat) (q : Nat) (h : ∀ t ∈ l, squadOf t = q) : l.find? (fun u => squadOf u = q) = l.head? := by
  cases l with
  | nil => rfl
  | cons a l => simp [h a (List.mem_cons_self ..)]

theorem collective_wrote {act : Issue → List Nat → State → State × Gathered} {n : Nat} {v : Nat → Nat} (h : Together s iss i o q)
    (hact : ∀ y : State, (∀ t ∈ iss.threads, (y.thread t).heldA = s.srcA iss t i o ∧ (y.thread t).heldB = s.srcB iss t i o.b ∧
      (y.thread t).heldC = s.srcC iss t i o ∧ (y.thread t).heldGuard = (s.thread t).guard o.h) →
      act iss iss.threads y = (writeAll iss o n v iss.threads y, .done)) :
    Wrote iss i o n (s.guarded iss o) v (s.begun iss) (runCollective i o act s) := by
  obtain ⟨y, hy, hst, hb⟩ := runGathered_together (act := act) (early := fun _ _ _ _ => none) h (fun _ _ _ => rfl)
  have hi := h.issues
  have hheld : ∀ t ∈ iss.threads, (y.thread t).heldA = s.srcA iss t i o ∧ (y.thread t).heldB = s.srcB iss t i o.b ∧
      (y.thread t).heldC = s.srcC iss t i o ∧ (y.thread t).heldGuard = (s.thread t).guard o.h := fun t ht =>
    ⟨congrArg Thread.heldA (hb t ht), congrArg Thread.heldB (hb t ht), congrArg Thread.heldC (hb t ht), congrArg Thread.heldGuard (hb t ht)⟩
  have hfil : iss.threads.filter (fun t => (y.thread t).heldGuard) = s.guarded iss o := by
    unfold State.guarded
    exact List.filter_congr (fun t ht => (hheld t ht).2.2.2)
  have hlead : y.leader iss.threads = (s.guarded iss o).head? := by
    unfold State.leader
    rw [← hfil, List.head?_filter]
  have hwa : writeAll iss o n v iss.threads y =
      (s.guarded iss o).foldl (fun a t => a.writeD iss o t (v t) n (decide ((s.guarded iss o).head? = some t))) y := by
    unfold writeAll
    rw [hlead, ← hfil, List.foldl_filter]
  have hg : ∀ t ∈ s.guarded iss o, squadOf t = q := fun t ht => h.squads (List.mem_filter.1 ht).1
  have hw := writes iss o n v (fun t => decide ((s.guarded iss o).head? = some t)) (s.guarded iss o) (guarded_nodup hi)
    (fun t ht u hu => lane_inj hi ht hu) (fun t ht => guarded_core hi ht)
    (fun t _ u _ ht hu _ => by
      simp only [decide_eq_true_eq] at ht hu
      rw [ht] at hu; exact Option.some.inj hu) y
  rw [← hwa] at hw
  have hpc : ∀ t ∈ iss.threads, ((writeAll iss o n v iss.threads y).thread t).pc = iss.pc := by
    intro t ht
    rw [hw.thread t]
    have h1 : (y.thread t).pc = iss.pc := (congrArg Thread.pc (hb t ht)).trans (h.here t ht).2
    have h2 : ∀ (p : Nat) (x : Bool), ((y.thread t).setPred p x).pc = (y.thread t).pc := fun p x => by unfold Thread.setPred; split <;> rfl
    cases o.d with
    | pred p => simp only; split
                · rw [h2, h1]
                · exact h1
    | _ => exact h1
  obtain ⟨a, b, c, d, e, e2, f, g, k⟩ := release_still (i := i) (o := o) iss.threads hi.nodup hi.core _ hpc
  have hr : runCollective i o act s = (writeAll iss o n v iss.threads y).release i o iss.threads := by
    unfold runCollective
    rw [hy]
    unfold State.gatherDone
    rw [hact y hheld]
  rw [hr]
  have hst2 : Still iss (fun _ th => th.past iss.pc (iss.next i)) (writeAll iss o n v iss.threads y)
      ((writeAll iss o n v iss.threads y).release i o iss.threads) :=
    ⟨⟨a, fun t ht => plain_of_bare (c t ht), d, e, f _, g, fun j _ => k _ _⟩, b, e2, by rw [k]⟩
  have hW : Wrote iss i o n (s.guarded iss o) v y ((writeAll iss o n v iss.threads y).release i o iss.threads) :=
    writes_wrote (kw := fun t => decide ((s.guarded iss o).head? = some t)) (fun t ht => (List.mem_filter.1 ht).1)
      (fun t ht => by rw [hg t ht, find_head _ q hg]) hw hst2
  have hsq : ∀ x, (y.squad x).base = (s.squad x).base := fun x => by
    have := congrArg Squad.base (hst.kept.squads x)
    rw [begun_squad] at this; exact this
  have hrot : ∀ t, (y.thread t).rotNow = (s.thread t).rotNow := by
    intro t
    by_cases ht : t ∈ iss.threads
    · have h1 := congrArg Thread.rotNow (hb t ht)
      exact h1
    · rw [hst.kept.others t ht, begun_thread]
  have hkey : ∀ t m, y.regKey t m = (s.begun iss).regKey t m := fun t m => by
    rw [begun_regKey]; simp only [State.regKey, hsq, hrot]
  refine ⟨⟨hW.kept.rest.trans hst.kept.rest, ?_, ?_, fun x => (hW.kept.squads x).trans (hst.kept.squads x), hW.kept.core.trans hst.kept.core,
    fun x hx => (hW.kept.cores x hx).trans (hst.kept.cores x hx), fun j hj => (hW.kept.slot j hj).trans (hst.kept.slot j hj)⟩,
    ?_, ?_, ?_, hW.kLow, hW.kHigh, ?_, hW.latch, ?_⟩
  · intro t ht
    have hskin : (y.thread t).skin = ((s.begun iss).thread t).skin := by
      have := congrArg Thread.skin (hb t ht)
      rw [begun_thread]; exact this
    have hcong : ∀ a b : Thread, a.skin = b.skin → (a.past iss.pc (iss.next i)).plain = (b.past iss.pc (iss.next i)).plain :=
      fun a b hab => by rw [past_skin a, past_skin b, hab]
    refine (hW.kept.threads t ht).trans (hcong _ _ ?_)
    cases o.d with
    | pred p =>
      simp only
      split
      · rw [setPred_skin, setPred_skin, hskin]
      · exact hskin
    | _ => exact hskin
  · intro t ht
    rw [hW.kept.others t ht, hst.kept.others t ht]
  · intro t ht x hx hwb; rw [← hkey]; exact hW.low t ht x hx hwb
  · intro t ht x hx hwb h2; rw [← hkey]; exact hW.high t ht x hx hwb h2
  · intro key hk
    rw [hW.regs key, hst.regs]
    intro t ht hh
    exact hk t ht (by simpa only [State.namesReg, hkey] using hh)
  · intro x j hj; rw [hW.k x j hj, hst.k]
  · intro j hj; rw [hW.latches j hj, hst.latch]

end Sys2Proof.Machine
end

