-- ==== Sys2Proof/Laws/Device.lean ====
section
/-! SUPPORT. The device's own writes: where nothing is on its way and no word is owned, a record written to memory touches no address outside it, and so does
the save of a gang (19 R340, R342). The resumption of a gang leaves State.hole as it was (R343). -/

namespace Sys2Proof.Machine

/-- A state with no request on its way, no owned word and no access outside memory, whose contexts are c: the device writes its records one byte after the other. -/
structure Calm (c : Tab Ctx) (s : State) : Prop where
  hole : s.hole = false
  msgs : s.msgs = []
  owners : s.owners = []
  ctxs : s.ctxs = c
theorem Calm.byte {x : Tab Ctx} {s : State} (h : Calm x s) {pa : Nat} (hp : pa < 2 ^ 39) (b : Nat) : Calm x (s.homeByte pa b) := by
  have h1 : s.settleWord (pa / 4) = s := by simp [State.settleWord, h.msgs]
  have h2 : s.revokeWord (pa / 4) = s := by simp [State.revokeWord, State.ownerOf, State.entries, h.owners, tget, tget?]
  have h3 : inRam pa = true := by simp only [inRam, decide_eq_true_eq]; omega
  simp only [State.homeByte, h1, h2, h3, if_true]
  exact ⟨h.hole, h.msgs, h.owners, h.ctxs⟩
theorem Calm.put {x : Tab Ctx} {s : State} (h : Calm x s) {pa n : Nat} (hp : pa + n ≤ 2 ^ 39) (v : Nat) : Calm x (s.homePut pa n v) := by
  induction n generalizing s pa v with
  | zero => exact h
  | succ n ih => exact ih (h.byte (by omega) v) (by omega) _
theorem Calm.fold {α : Type} {x : Tab Ctx} {f : State → α → State} {l : List α} (hf : ∀ s, Calm x s → ∀ y ∈ l, Calm x (f s y)) {s : State} (h : Calm x s) :
    Calm x (l.foldl f s) := by
  induction l generalizing s with
  | nil => exact h
  | cons y r ih => exact ih (fun s hs z hz => hf s hs z (List.mem_cons_of_mem _ hz)) (hf s h y (List.mem_cons_self ..))
theorem Calm.fields {x : Tab Ctx} {s : State} (h : Calm x s) {pa : Nat} {fs : List (Nat × Nat × Nat)} (hp : (fs.all fun f => decide (pa + f.1 + f.2.1 ≤ 2 ^ 39)) = true) :
    Calm x (s.putFields pa fs) := by
  refine Calm.fold (fun s hs f hf => hs.put ?_ _) h
  exact of_decide_eq_true (List.all_eq_true.1 hp f hf)
theorem Calm.wg {x : Tab Ctx} {s : State} (h : Calm x s) {pa k n : Nat} {done : Bool} (hb : pa + 0x246000 + scratchSize ≤ 2 ^ 39)
    (hp : (((s.meetErrors k (s.adobeRows k)).1.wgFields k n done (s.meetErrors k (s.adobeRows k)).2).all fun f => decide (pa + f.1 + f.2.1 ≤ 2 ^ 39)) = true) :
    Calm x (s.putWg pa k n done) := by
  have h1 : Calm x (s.meetErrors k (s.adobeRows k)).1 := ⟨h.hole, h.msgs, h.owners, h.ctxs⟩
  refine Calm.fold (fun t ht i hi => ?_) (h1.fields hp)
  rw [List.mem_range] at hi
  dsimp only
  split
  · exact ht
  · exact ht.byte (by omega) _
theorem Calm.clear {x : Tab Ctx} {s : State} (h : Calm x s) {pa n : Nat} (hp : (placed pa && placed (pa + n - 1)) = true) : Calm x (s.homeClear pa n) := by
  constructor <;> simp [State.homeClear, h.owners, h.hole, h.msgs, h.ctxs, hp]
theorem leaveCores_hole (s : State) (id : Nat) (g : Gang) : (s.leaveCores id g).hole = s.hole := by
  have h1 : ∀ (l : List Nat) (s : State), (l.foldl (fun s k => if (s.core k).gang = some id then s.clearCore k else s) s).hole = s.hole := by
    intro l
    induction l with
    | nil => intro s; rfl
    | cons k r ih => intro s; rw [List.foldl_cons, ih]; split <;> rfl
  unfold State.leaveCores
  dsimp only
  split
  · exact h1 _ _
  · split
    · exact h1 _ _
    · unfold State.freeQueues; split <;> exact h1 _ _
theorem Calm.gang {x : Tab Ctx} {s t : State} {l : Launch} {g : Gang} {i st k : Nat} (hw : g.wgs = [(0, k)])
    (ht : (s.homeClear (s.gangRecord l.ctxKey i) 0x3001000).putFields (s.gangRecord l.ctxKey i)
      ((s.homeClear (s.gangRecord l.ctxKey i) 0x3001000).headerFields l g st) = t) (h : Calm x t)
    (hb : wgRecord (s.gangRecord l.ctxKey i) 0 + 0x246000 + scratchSize ≤ 2 ^ 39)
    (hp : (((t.meetErrors k (t.adobeRows k)).1.wgFields k (0 + l.g * g.index) (g.completed.contains 0) (t.meetErrors k (t.adobeRows k)).2).all
      fun f => decide (wgRecord (s.gangRecord l.ctxKey i) 0 + f.1 + f.2.1 ≤ 2 ^ 39)) = true) : Calm x (s.putGang l g i st) := by
  unfold State.putGang
  rw [hw, List.foldl_cons, List.foldl_nil]
  dsimp only
  rw [ht]
  exact h.wg hb hp
theorem Calm.snapshot {x : Tab Ctx} {s : State} (h : Calm x s) {k d : Nat} (y : State) (hy : y.ctxs = x)
    (hp : let base := y.pool k + 0x1000 + d * 0x68000; let g := y.grant k d
      base + 8 * (grantRange (bits g 5 0) (bits g 12 6)).length + 48 * (grantRange (bits g 19 13) (bits g 27 20)).length ≤ 2 ^ 39) : Calm x (s.putSnapshot k d) := by
  have e1 : s.pool k = y.pool k := by simp only [State.pool, State.ctx, h.ctxs, hy]
  have e2 : s.grant k d = y.grant k d := by simp only [State.grant, State.ctx, h.ctxs, hy]
  have hz : ∀ {m : Nat} (l : List Nat) (z : Nat × Nat), z ∈ l.zip (List.range m) → z.2 < m := fun l z hz => List.mem_range.1 (List.of_mem_zip hz).2
  unfold State.putSnapshot
  rw [e1, e2]
  refine Calm.fields (Calm.fields h (List.all_eq_true.2 ?_)) (List.all_eq_true.2 ?_) <;> intro f hf <;> obtain ⟨z, hz', rfl⟩ := List.mem_map.1 hf <;>
    have := hz _ z hz' <;> simp only [decide_eq_true_eq] <;> dsimp only at hp ⊢ <;> omega
theorem saveGang_hole {s u : State} {id i : Nat} {g : Gang} {l : Launch} (hd : g.doom = 0) (hh : g.halt = false)
    (hu : g.cores.foldl (fun s k => ((s.core k).windows.filter fun w => w.2.st ≠ .unbound).foldl (fun s w => s.emptyWindow k w.1 w.2.st) s) (s.releaseGang g) = u)
    (h : ((u.putGang l g i 1).putSnapshot l.ctxKey (g.die % 8)).hole = false) : (s.saveGang id g l (some i)).hole = false := by
  unfold State.saveGang
  dsimp only
  rw [hd, hh, if_neg (by decide), if_neg (by decide), hu]
  show (State.leaveCores _ _ _).hole = false
  rw [leaveCores_hole]
  exact h

/-! ### What a resumed gang does to addresses outside memory: nothing -/

theorem foldl_hole {α : Type} {f : State → α → State} (hf : ∀ s x, (f s x).hole = s.hole) (l : List α) (s : State) : (l.foldl f s).hole = s.hole := by
  induction l generalizing s with
  | nil => rfl
  | cons x r ih => rw [List.foldl_cons, ih, hf]
theorem fireFrom_hole (die c : Nat) (l : List Nat) (s : State) : (s.fireFrom die c l).hole = s.hole := by
  induction l generalizing s with
  | nil => rfl
  | cons n r ih =>
    unfold State.fireFrom
    dsimp only
    split
    · rfl
    · rw [ih]; rfl
theorem evalCtx_hole (s : State) (k : Nat) : (s.evalCtx k).hole = s.hole := foldl_hole (fun s _ => fireFrom_hole _ _ _ s) _ _
theorem acquire_hole (s : State) (core : Nat) (sc : Scope) (mask : Nat) : (s.acquire core sc mask).hole = s.hole := by
  have h (s : State) (l : List Nat) (f : Core → Core) : (l.foldl (fun s c => s.modCore c f) s).hole = s.hole :=
    foldl_hole (f := fun s c => s.modCore c f) (fun _ _ => rfl) l s
  unfold State.acquire
  dsimp only
  split <;> split <;> try (first | rfl | (split <;> rfl))
  all_goals (split <;> split <;> exact h _ _ _)
theorem restoreThread_hole (s : State) (pa t : Nat) (fz : Thread) : (s.restoreThread pa t fz).hole = s.hole := by
  unfold State.restoreThread
  dsimp only
  split
  · split <;> rfl
  · rfl
theorem restoreSquad_hole (s : State) (l : Launch) (pa q gang : Nat) (fz : Frozen) : (s.restoreSquad l pa q gang fz).hole = s.hole := by
  unfold State.restoreSquad
  dsimp only
  split
  · rfl
  · exact foldl_hole (fun s n => restoreThread_hole s _ _ _) _ _
theorem restoreCmds_hole (s : State) (k : Nat) (cs : List CopyCmd) : (s.restoreCmds k cs).hole = s.hole :=
  foldl_hole (fun s c => by dsimp only; split <;> rfl) _ _
theorem ite_hole {c : Prop} [Decidable c] {s a b : State} (ha : a.hole = s.hole) (hb : b.hole = s.hole) : (if c then a else b).hole = s.hole := by
  split <;> assumption
theorem restoreScratch_hole (s : State) (pa k : Nat) : (s.restoreScratch pa k).hole = s.hole :=
  foldl_hole (fun s i => by split <;> rfl) _ _
theorem restoreCore_hole (s : State) (pa k : Nat) (fz : Frozen) : (s.restoreCore pa k fz).hole = s.hole := rfl
theorem restoreWg_hole (s : State) (l : Launch) (pa k gang w : Nat) (fz : Frozen) : (s.restoreWg l pa k gang w fz).hole = s.hole := by
  have h (t : State) (l' : List Nat) : (l'.foldl (fun t i => t.restoreSquad l pa (squadKey k i) gang fz) t).hole = t.hole := foldl_hole (fun t _ => restoreSquad_hole t _ _ _ _ _) l' t
  have m (t : State) (off : Nat) (pl : Planes) (sp : Sparsity) : (t.replayMwld k off pl sp).hole = t.hole := rfl
  rw [State.restoreWg, restoreCmds_hole, h]
  split
  · rw [m, restoreScratch_hole, restoreCore_hole]; rfl
  · rw [restoreScratch_hole, restoreCore_hole]; rfl
theorem resumeGang_hole (s : State) (id : Nat) (cs : List Nat) : (s.resumeGang id cs).hole = s.hole := by
  unfold State.resumeGang
  split
  · rfl
  · split
    · dsimp only
      rw [evalCtx_hole, foldl_hole (fun s k => acquire_hole s k _ _)]
      show State.hole (List.foldl _ _ _) = _
      rw [foldl_hole (fun s w => restoreWg_hole s _ _ _ _ _ _)]
      split <;> rfl
    · rfl

end Sys2Proof.Machine
end

