-- ==== Sys2Proof/Laws/Memory.lean ====
section
/-! SUPPORT. What memory operations do to a memory in canonical form: reads after writes, the bytes left alone, the form kept. -/

namespace Sys2Proof.Machine

/-- Every key of a memory lies above k. -/
def above (k : Nat) (m : List Host.Cell) : Prop := ∀ c ∈ m, k < c.1

theorem memWf_cons {k : Nat} {v : Byte} {m : List Host.Cell} : memWf ((k, v) :: m) = true ↔ v ≠ memDefault ∧ above k m ∧ memWf m = true := by
  induction m generalizing k v with
  | nil => simp [memWf, above]
  | cons c m ih =>
    obtain ⟨k', v'⟩ := c
    have h := @ih k' v'
    rw [memWf]
    simp only [Bool.and_eq_true, decide_eq_true_eq, ne_eq, above, List.mem_cons, forall_eq_or_imp] at h ⊢
    constructor
    · rintro ⟨⟨h1, h2⟩, h3⟩
      exact ⟨h1, ⟨h2, fun c hc => Nat.lt_trans h2 ((h.1 h3).2.1 c hc)⟩, h3⟩
    · rintro ⟨h1, ⟨h2, -⟩, h3⟩
      exact ⟨⟨h1, h2⟩, h3⟩

theorem memGet_above {k a : Nat} {m : List Host.Cell} (h : above k m) (ha : a ≤ k) : memGet m a = memDefault := by
  induction m with
  | nil => rfl
  | cons c m ih =>
    have hc : k < c.1 := h c (by simp)
    rw [memGet, if_neg (by omega)]
    exact ih fun d hd => h d (by simp [hd])

theorem mem_memSet {a : Nat} {v : Byte} {m : List Host.Cell} {d : Host.Cell} (h : d ∈ memSet m a v) : d = (a, v) ∨ d ∈ m := by
  induction m with
  | nil => rw [memSet] at h; split at h <;> simp_all
  | cons c m ih =>
    obtain ⟨k, w⟩ := c
    rw [memSet] at h
    split at h
    · split at h
      · exact .inr h
      · simpa using h
    · split at h
      · split at h
        · exact .inr (by simp [h])
        · simp only [List.mem_cons] at h ⊢; tauto
      · simp only [List.mem_cons] at h ⊢; tauto

theorem above_memSet {k a : Nat} {m : List Host.Cell} (v : Byte) (h : above k m) (ha : k < a) : above k (memSet m a v) := fun d hd => by
  rcases mem_memSet hd with rfl | hd
  · exact ha
  · exact h d hd

/-- The value written is read back, and no other byte changes. -/
theorem memGet_memSet {m : List Host.Cell} (h : memWf m = true) (a b : Nat) (v : Byte) : memGet (memSet m a v) b = if a = b then v else memGet m b := by
  induction m with
  | nil =>
    by_cases hv : v = memDefault
    · simp [memSet, memGet, hv]
    · simp [memSet, hv, memGet]
  | cons c m ih =>
    obtain ⟨k, w⟩ := c
    obtain ⟨-, hk, hm⟩ := memWf_cons.1 h
    have h0 : ∀ x, x < k → memGet ((k, w) :: m) x = memDefault := fun x hx => by
      rw [memGet, if_neg (by omega)]; exact memGet_above hk (by omega)
    rw [memSet]
    split
    · split
      · split
        · subst_vars; rw [h0 b ‹_›]
        · rfl
      · rw [memGet]
    · split
      · subst_vars
        split
        · split
          · subst_vars; rw [memGet_above hk (Nat.le_refl _)]
          · rw [memGet, if_neg ‹_›]
        · by_cases hb : k = b <;> simp [memGet, hb]
      · rw [memGet, memGet, ih hm]
        split
        · rw [if_neg (by omega)]
        · rfl

/-- The canonical form is kept. -/
theorem memWf_memSet {m : List Host.Cell} (h : memWf m = true) (a : Nat) (v : Byte) : memWf (memSet m a v) = true := by
  induction m with
  | nil => by_cases hv : v = memDefault <;> simp [memSet, memWf, hv]
  | cons c m ih =>
    obtain ⟨k, w⟩ := c
    obtain ⟨hw, hk, hm⟩ := memWf_cons.1 h
    rw [memSet]
    split
    · split
      · exact h
      · exact memWf_cons.2 ⟨‹_›, fun c hc => by
          rcases List.mem_cons.1 hc with rfl | hc
          · assumption
          · exact Nat.lt_trans ‹_› (hk c hc), h⟩
    · split
      · subst_vars
        split
        · exact hm
        · exact memWf_cons.2 ⟨‹_›, hk, hm⟩
      · exact memWf_cons.2 ⟨hw, above_memSet v hk (by omega), ih hm⟩

theorem memWf_memWrite {m : List Host.Cell} (h : memWf m = true) (a n v : Nat) : memWf (memWrite m a n v) = true := by
  induction n generalizing m a v with
  | zero => exact h
  | succ n ih => exact ih (memWf_memSet h _ _) _ _

theorem memWf_filter {m : List Host.Cell} (h : memWf m = true) (p : Host.Cell → Bool) : memWf (m.filter p) = true := by
  induction m with
  | nil => rfl
  | cons c m ih =>
    obtain ⟨k, w⟩ := c
    obtain ⟨hw, hk, hm⟩ := memWf_cons.1 h
    rw [List.filter_cons]
    split
    · exact memWf_cons.2 ⟨hw, fun c hc => hk c (List.mem_filter.1 hc).1, ih hm⟩
    · exact ih hm

/-- Every byte of a written range holds its byte of the value, and no other byte changes. -/
theorem memGet_memWrite {m : List Host.Cell} (h : memWf m = true) (a n v b : Nat) :
    memGet (memWrite m a n v) b = if a ≤ b ∧ b < a + n then BitVec.ofNat 8 (v / 256 ^ (b - a)) else memGet m b := by
  induction n generalizing m a v with
  | zero => rw [memWrite, if_neg (by omega)]
  | succ n ih =>
    rw [memWrite, ih (memWf_memSet h _ _), memGet_memSet h]
    by_cases hb : a = b
    · subst hb
      rw [if_neg (by omega), if_pos rfl, if_pos (by omega), Nat.sub_self, Nat.pow_zero, Nat.div_one]
    · rw [if_neg hb]
      by_cases h1 : a + 1 ≤ b ∧ b < a + 1 + n
      · rw [if_pos h1, if_pos (by omega), Nat.div_div_eq_div_mul, ← Nat.pow_succ', show (b - (a + 1)).succ = b - a by omega]
      · rw [if_neg h1, if_neg (by omega)]

/-- Equal reads of two memories in canonical form are equal memories. -/
theorem mem_ext {m n : List Host.Cell} (hm : memWf m = true) (hn : memWf n = true) (h : ∀ a, memGet m a = memGet n a) : m = n := by
  induction m generalizing n with
  | nil =>
    cases n with
    | nil => rfl
    | cons c n =>
      have := h c.1
      simp only [memGet, if_true] at this
      exact absurd this.symm (memWf_cons.1 hn).1
  | cons c m ih =>
    obtain ⟨k, v⟩ := c
    obtain ⟨hv, hk, hm'⟩ := memWf_cons.1 hm
    cases n with
    | nil =>
      have := h k
      simp only [memGet, if_true] at this
      exact absurd this hv
    | cons d n =>
      obtain ⟨l, w⟩ := d
      obtain ⟨hw, hl, hn'⟩ := memWf_cons.1 hn
      have hkl : k = l := by
        rcases Nat.lt_trichotomy k l with hlt | heq | hgt
        · have := h k
          rw [memGet, if_pos rfl, memGet, if_neg (by omega), memGet_above hl (by omega)] at this
          exact absurd this hv
        · exact heq
        · have := h l
          rw [memGet, if_neg (by omega), memGet_above hk (by omega), memGet, if_pos rfl] at this
          exact absurd this.symm hw
      subst hkl
      have hvw : v = w := by have := h k; simpa [memGet] using this
      subst hvw
      rw [ih hm' hn' fun a => by
        by_cases ha : a ≤ k
        · rw [memGet_above hk ha, memGet_above hl ha]
        · have := h a
          rwa [memGet, memGet, if_neg (by omega), if_neg (by omega)] at this]

/-! ### The operations that change memory -/

theorem setHomeWord_wf {s : State} (h : memWf s.mem = true) (w : Nat) (v : Word) : memWf (s.setHomeWord w v).mem = true := by
  unfold State.setHomeWord
  split
  · exact memWf_memWrite h _ _ _
  · split <;> exact h

/-- The home's value of a word that was written at its home. -/
theorem homeWord_setHomeWord {s : State} (h : memWf s.mem = true) (w x : Nat) (v : Word) (hw : inRam (4 * w) = true) :
    (s.setHomeWord w v).homeWord x = if w = x then v else s.homeWord x := by
  have read : ∀ m a, memRead m a 4 = (memGet m a).toNat + 256 * ((memGet m (a + 1)).toNat + 256 * ((memGet m (a + 2)).toNat + 256 * (memGet m (a + 3)).toNat)) := by
    intro m a; simp [memRead]
  unfold State.setHomeWord State.homeWord
  rw [if_pos hw]
  simp only [read, memGet_memWrite h]
  by_cases hx : w = x
  · subst hx
    have e (i : Nat) (hi : i < 4) : (4 * w ≤ 4 * w + i ∧ 4 * w + i < 4 * w + 4) := by omega
    have e0 : 4 * w ≤ 4 * w ∧ 4 * w < 4 * w + 4 := by omega
    simp only [if_pos e0, if_pos (e 1 (by omega)), if_pos (e 2 (by omega)), if_pos (e 3 (by omega)), if_true, Nat.sub_self, Nat.add_sub_cancel_left,
      BitVec.toNat_ofNat, Nat.reducePow]
    have := v.isLt
    apply BitVec.eq_of_toNat_eq
    simp only [BitVec.toNat_ofNat]
    omega
  · have e (i : Nat) (hi : i < 4) : ¬ (4 * w ≤ 4 * x + i ∧ 4 * x + i < 4 * w + 4) := by omega
    have e0 : ¬ (4 * w ≤ 4 * x ∧ 4 * x < 4 * w + 4) := by omega
    simp only [if_neg e0, if_neg (e 1 (by omega)), if_neg (e 2 (by omega)), if_neg (e 3 (by omega)), if_neg hx]

/-! ### Operations that keep the form: what moves copies, owner entries and messages leaves memory alone -/

theorem dropWindowWord_mem (s : State) (k : Nat) : (s.dropWindowWord k).mem = s.mem := by unfold State.dropWindowWord State.modWindowWord; dsimp only; split <;> rfl

theorem keepWindowWord_mem (s : State) (k : Nat) : (s.keepWindowWord k).mem = s.mem := by unfold State.keepWindowWord State.modWindowWord; dsimp only; split <;> rfl

theorem dropAt_mem (s : State) (l w : Nat) : (s.dropAt l w).mem = s.mem := by
  unfold State.dropAt
  split
  · split
    · rfl
    · split
      · exact dropWindowWord_mem _ _
      · rfl
  · rfl

theorem keepAt_mem (s : State) (l w : Nat) (v : Word) : (s.keepAt l w v).mem = s.mem := by
  unfold State.keepAt
  split
  · split
    · rfl
    · split
      · exact keepWindowWord_mem _ _
      · rfl
  · rfl

theorem foldl_mem {α : Type} {f : State → α → State} (hf : ∀ s x, (f s x).mem = s.mem) (l : List α) (s : State) : (l.foldl f s).mem = s.mem := by
  induction l generalizing s with
  | nil => rfl
  | cons x l ih => rw [List.foldl_cons, ih, hf]

theorem dropAgent_mem (s : State) (a w : Nat) : (s.dropAgent a w).mem = s.mem := foldl_mem (fun s l => dropAt_mem s l w) _ _

theorem keepAgent_mem (s : State) (a w : Nat) (v : Word) : (s.keepAgent a w v).mem = s.mem := foldl_mem (fun s l => keepAt_mem s l w v) _ _

theorem setMirror_mem (s : State) (a w : Nat) (v : Word) : (s.setMirror a w v).mem = s.mem := by
  unfold State.setMirror; dsimp only; repeat' first | rfl | split

theorem dropMirror_mem (s : State) (a w : Nat) : (s.dropMirror a w).mem = s.mem := by
  unfold State.dropMirror; split <;> rfl

theorem scratchWrite_mem (s : State) (k n v : Nat) : (s.scratchWrite k n v).mem = s.mem := by
  induction n generalizing s k v with
  | zero => rfl
  | succ n ih => rw [State.scratchWrite, ih]; rfl

theorem revokeWord_wf {s : State} (h : memWf s.mem = true) (w : Nat) : memWf (s.revokeWord w).mem = true := by
  unfold State.revokeWord
  split
  · rw [dropMirror_mem]; exact setHomeWord_wf (by rwa [keepAgent_mem]) _ _
  · exact h

theorem sendPacket_mem (s : State) (p a : Nat) (away : Bool) (f : Flit) (n : Nat) : (s.sendPacket p a away f n).mem = s.mem := by
  unfold State.sendPacket; dsimp only; repeat' first | rfl | split

theorem launchCopy_mem (s : State) (id : Nat) (m : Msg) : (s.launchCopy id m).mem = s.mem := by
  unfold State.launchCopy; dsimp only; split
  · rfl
  · rw [sendPacket_mem]

theorem post_mem (s : State) (id : Nat) (m : Msg) : (s.post id m).mem = s.mem := by
  unfold State.post; split
  · rfl
  · split
    · rfl
    · exact launchCopy_mem _ _ _

theorem postQueued_mem (s : State) (id a b n : Nat) : (s.postQueued id a b n).mem = s.mem := by
  induction n generalizing s with
  | zero => rfl
  | succ n ih =>
    unfold State.postQueued
    split
    · split
      · rw [ih, post_mem]
      · rfl
    · rfl

theorem finishMsg_mem (s : State) (id : Nat) : (s.finishMsg id).mem = s.mem := by
  unfold State.finishMsg
  split
  · rfl
  · dsimp only; rw [postQueued_mem]; split <;> split <;> rfl

theorem storeAnswer_mem (s : State) (m : Msg) : (s.storeAnswer m).mem = s.mem := rfl

theorem answer_mem (s : State) (id : Nat) (m : Msg) (e : Nat) : (s.answer id m e).mem = s.mem := by
  unfold State.answer State.answerFlit; dsimp only; split
  · rfl
  · rw [sendPacket_mem]; rfl

theorem ack_mem (s : State) (id : Nat) : (s.ack id).mem = s.mem := by
  unfold State.ack
  split
  · rfl
  · split
    · rw [finishMsg_mem, storeAnswer_mem]
    · exact answer_mem _ _ _ _

theorem send_mem (s : State) (m : Msg) : (s.send m).1.mem = s.mem := post_mem _ _ _

theorem setCopy_mem (s : State) (l w : Nat) (c : Copy) : (s.setCopy l w c).mem = s.mem := rfl

theorem modWindowWord_mem (s : State) (k : Nat) (f : Nat → Window → Window) : (s.modWindowWord k f).mem = s.mem := by
  unfold State.modWindowWord; dsimp only; split <;> rfl

theorem evictAgent_mem (s : State) (a l w : Nat) : (s.evictAgent a l w).mem = s.mem := by
  unfold State.evictAgent State.writeBack
  split
  · split
    · exact send_mem _ _
    · exact dropAt_mem _ _ _
  · rfl

theorem giveUpHigh_mem (s : State) (l w : Nat) : (s.giveUpHigh l w).mem = s.mem := by
  unfold State.giveUpHigh; dsimp only
  repeat' split
  all_goals first | rfl | exact evictAgent_mem _ _ _ _ | exact dropAt_mem _ _ _

/-- A level that makes room leaves memory alone where what it gives up does. -/
theorem roomBy_mem {give : State → Nat → Nat → State} (hg : ∀ s l w, (give s l w).mem = s.mem) (s : State) (l w : Nat) : (s.roomBy give l w).mem = s.mem := by
  unfold State.roomBy; dsimp only
  repeat' split
  all_goals first | rfl | exact hg _ _ _

theorem evictL1_mem (s : State) (c w : Nat) : (s.evictL1 c w).mem = s.mem := by
  unfold State.evictL1
  split
  · split
    · dsimp only
      repeat' split
      all_goals (simp only [setCopy_mem, roomBy_mem giveUpHigh_mem]; first | rfl | exact keepWindowWord_mem _ _)
    · exact dropAt_mem _ _ _
  · rfl

/-- A level that gives a word up leaves memory alone: the data goes to the level above, or into a write-back. -/
theorem giveUp_mem (s : State) (l w : Nat) : (s.giveUp l w).mem = s.mem := by
  unfold State.giveUp; split
  · exact evictL1_mem _ _ _
  · exact giveUpHigh_mem _ _ _

theorem makeRoom_mem (s : State) (l w : Nat) : (s.makeRoom l w).mem = s.mem := roomBy_mem giveUp_mem s l w

theorem markFirst_mem (s : State) (l w : Nat) : (s.markFirst l w).mem = s.mem := by unfold State.markFirst; split <;> rfl

theorem expel_mem (s : State) (l a w : Nat) (p : Policy) : (s.expel l a w p).mem = s.mem := by
  unfold State.expel; dsimp only
  repeat' split
  all_goals simp only [giveUp_mem, dropAt_mem, markFirst_mem]

theorem moveCopy_mem (s : State) (h : Nat) (c : Copy) (k : Option Nat) : (s.moveCopy h c k).1.mem = s.mem := by
  unfold State.moveCopy
  repeat' split
  all_goals simp only [scratchWrite_mem, dropWindowWord_mem]

theorem putCopy_mem (s : State) (l w : Nat) (c : Copy) (bm : Nat) (v : Word) : (s.putCopy l w c bm v).mem = s.mem := by
  unfold State.putCopy; split
  · exact scratchWrite_mem _ _ _ _
  · rfl

/-- A granted word's data is put at its owner's levels; memory is left alone. -/
theorem grantItem_mem (s : State) (m : Msg) (w : Nat) (v : Word) : (s.grantItem m w v).mem = s.mem := by
  unfold State.grantItem; dsimp only
  repeat' split
  all_goals simp only [setCopy_mem, modWindowWord_mem, scratchWrite_mem, dropAt_mem, setMirror_mem, moveCopy_mem, makeRoom_mem, roomBy_mem giveUpHigh_mem]

theorem afterGrant_mem (s : State) (m : Msg) (w : Nat) : (s.afterGrant m w).mem = s.mem := by
  unfold State.afterGrant; split
  · split
    · exact expel_mem _ _ _ _ _
    · rfl
  · rfl

theorem foldl_wf {α : Type} {f : State → α → State} (hf : ∀ s x, memWf s.mem = true → memWf (f s x).mem = true) (l : List α) {s : State}
    (h : memWf s.mem = true) : memWf (l.foldl f s).mem = true := by
  induction l generalizing s with
  | nil => exact h
  | cons x l ih => exact ih (hf s x h)

theorem staleWindows_mem (s : State) (c va pa n : Nat) : (s.staleWindows c va pa n).mem = s.mem := by
  unfold State.staleWindows
  split
  · rfl
  · exact foldl_mem (fun s c => foldl_mem (fun s y => by
      dsimp only
      split
      · rfl
      · exact foldl_mem (fun s j => by
          split
          · rfl
          · split
            · rw [dropWindowWord_mem]; rfl
            · rfl) _ _) _ _) _ _

theorem grantItems_mem (m : Msg) (l : List (Nat × Word)) (s : State) : (l.foldl (fun s v => s.grantItem m v.1 v.2) s).mem = s.mem := by
  induction l generalizing s with
  | nil => rfl
  | cons v l ih => rw [List.foldl_cons, ih, grantItem_mem]

theorem putHeld_mem (m : Msg) (s : State) (i : Item) : (State.putHeld m s i).mem = s.mem := by
  unfold State.putHeld
  split
  · dsimp only; rw [putCopy_mem, setCopy_mem, moveCopy_mem]
  · rfl

theorem staleAfter_mem (s : State) (m : Msg) : (s.staleAfter m).mem = s.mem := by
  unfold State.staleAfter
  repeat' split
  all_goals first | rfl | exact staleWindows_mem _ _ _ _ _

/-- A registration's grant at its requester leaves memory alone. -/
theorem granted_mem (s : State) (id : Nat) (m : Msg) (vs : List (Nat × Word)) : (s.granted id m vs).mem = s.mem := by
  unfold State.granted
  generalize s.lostHeld m = lost
  dsimp only
  generalize (if lost = [] then m else _) = y
  have h1 := grantItems_mem y vs s
  generalize List.foldl _ s vs = s1 at h1 ⊢
  split
  · rw [finishMsg_mem, staleAfter_mem, foldl_mem (putHeld_mem m), h1]
  · exact (send_mem _ _).trans ((finishMsg_mem _ _).trans h1)

theorem applyGrant_wf {s : State} (h : memWf s.mem = true) (id : Nat) : memWf (s.applyGrant id).mem = true := by
  unfold State.applyGrant
  split
  · exact h
  · split
    · rwa [ack_mem]
    · dsimp only
      rw [foldl_mem (fun s i => afterGrant_mem s _ _)]
      refine foldl_wf (fun s y hs => ?_) _ (by rwa [granted_mem, ack_mem])
      split
      · split
        · exact hs
        · rwa [keepAgent_mem]
      · rw [dropMirror_mem]
        exact setHomeWord_wf (by rwa [keepAgent_mem]) _ _

theorem settleWord_wf {s : State} (h : memWf s.mem = true) (w : Nat) : memWf (s.settleWord w).mem = true := by
  unfold State.settleWord; split
  · exact applyGrant_wf h _
  · exact h

theorem homeByte_wf {s : State} (h : memWf s.mem = true) (pa b : Nat) : memWf (s.homeByte pa b).mem = true := by
  have := revokeWord_wf (settleWord_wf h (pa / 4)) (pa / 4)
  unfold State.homeByte; dsimp only; split
  · exact memWf_memSet this _ _
  · split <;> exact this

theorem homePut_wf {s : State} (h : memWf s.mem = true) (pa n v : Nat) : memWf (s.homePut pa n v).mem = true := by
  induction n generalizing s pa v with
  | zero => exact h
  | succ n ih => exact ih (homeByte_wf h _ _) _ _

theorem homeClear_wf {s : State} (h : memWf s.mem = true) (pa n : Nat) : memWf (s.homeClear pa n).mem = true := by
  unfold State.homeClear; dsimp only
  have := foldl_wf (f := fun (s : State) w => (s.settleWord w).revokeWord w) (fun s w hs => revokeWord_wf (settleWord_wf hs w) w)
    ((s.owners.flatMap fun e => (List.range 16).map fun j => e.1 * 16 + j).filter fun w => decide (4 * w < pa + n ∧ pa < 4 * w + 4)) h
  split
  · exact memWf_filter this _
  · exact this

theorem putFields_wf {s : State} (h : memWf s.mem = true) (pa : Nat) (fs : List (Nat × Nat × Nat)) : memWf (s.putFields pa fs).mem = true :=
  foldl_wf (fun _ _ hs => homePut_wf hs _ _ _) _ h

theorem cutMsgs_mem (s : State) (p : Nat) : (s.cutMsgs p).mem = s.mem := by
  unfold State.cutMsgs
  exact foldl_mem (fun s i => by repeat' first | rfl | split) _ _

theorem wipePkg_wf {s : State} (h : memWf s.mem = true) (p : Nat) : memWf (s.wipePkg p).mem = true := by
  rw [← cutMsgs_mem s p] at h
  unfold State.wipePkg; exact memWf_filter h _

end Sys2Proof.Machine
end

