-- ==== Sys2Proof/Laws/PerInstr.lean ====
section
/-! SUPPORT. What holds of every instruction's encoding fields, one lemma for each constructor (05 R108, 06 R125 to R132): it has operands and a row of the
opcode table exactly where it has an operation code, and its function field takes nine bits. -/

namespace Sys2Proof

theorem Fmt.code_lt (m : Fmt) : m.code < 16 := by cases m <;> decide
theorem Rm.code_lt (m : Rm) : m.code < 4 := by cases m <;> decide
theorem Scope.code_lt (m : Scope) : m.code < 4 := by cases m <;> decide
theorem Policy.code_lt (m : Policy) : m.code < 8 := by cases m <;> decide
theorem Cond.code_lt (m : Cond) : m.code < 8 := by cases m <;> decide
theorem FCond.code_lt (m : FCond) : m.code < 8 := by cases m <;> decide
theorem RedOp.code_lt (m : RedOp) : m.code < 8 := by cases m <;> decide
theorem AtomOp.code_lt (m : AtomOp) : m.code < 8 := by cases m <;> decide
theorem ShflMode.code_lt (m : ShflMode) : m.code < 4 := by cases m <;> decide
theorem VoteKind.code_lt (m : VoteKind) : m.code < 4 := by cases m <;> decide
theorem PlogOp.code_lt (m : PlogOp) : m.code < 4 := by cases m <;> decide
theorem Level.code_lt (m : Level) : m.code < 4 := by cases m <;> decide

theorem intBits_lt (f : IntFn) : intBits f < 512 := by
  have := f.fmt.code_lt; have := f.sat.toNat_le; have := f.sub.isLt
  simp only [intBits]; omega

theorem fltBits_lt (f : FltFn) : fltBits f < 512 := by
  have := f.fmt.code_lt; have := f.rm.code_lt; have := f.packed.toNat_le
  simp only [fltBits]; omega

theorem memBits_lt (o : Ops) (f : MemFn) : (if o.isWide then 0 else f.scope.code * 128 + f.policy.code * 16 + f.size.code) < 512 := by
  have := f.scope.code_lt; have := f.policy.code_lt; have := f.size.code_lt
  split <;> omega

theorem atomBits_lt (o : Ops) (f : AtomFn) :
    (if o.isWide then f.op.code * 16 else f.scope.code * 128 + f.op.code * 16 + f.size.code) < 512 := by
  have := f.scope.code_lt; have := f.op.code_lt; have := f.size.code_lt
  split <;> omega

theorem redBits_lt (f : RedFn) : f.fmt.code * 32 + f.op.code * 4 + f.rm.code < 512 := by
  have := f.fmt.code_lt; have := f.op.code_lt; have := f.rm.code_lt; omega

/-- The shape of an instruction's fields: operands and a table row where there is an operation code, and a function field of nine bits. -/
def Laws.Encoding.Statement (i : Instr) : Prop :=
  i.ops.isSome = i.opcode.isSome ∧ i.row.isSome = i.opcode.isSome ∧ i.fnBits < 512

namespace Laws.Encoding

theorem add (o : Ops) (f : IntFn) : Statement (.add o f) := ⟨rfl, rfl, intBits_lt f⟩
theorem sub (o : Ops) (f : IntFn) : Statement (.sub o f) := ⟨rfl, rfl, intBits_lt f⟩
theorem mul (o : Ops) (f : IntFn) : Statement (.mul o f) := ⟨rfl, rfl, intBits_lt f⟩
theorem mulhi (o : Ops) (f : IntFn) : Statement (.mulhi o f) := ⟨rfl, rfl, intBits_lt f⟩
theorem mad (o : Ops) (f : IntFn) : Statement (.mad o f) := ⟨rfl, rfl, intBits_lt f⟩
theorem div (o : Ops) (f : IntFn) : Statement (.div o f) := ⟨rfl, rfl, intBits_lt f⟩
theorem rem (o : Ops) (f : IntFn) : Statement (.rem o f) := ⟨rfl, rfl, intBits_lt f⟩
theorem neg (o : Ops) (f : IntFn) : Statement (.neg o f) := ⟨rfl, rfl, intBits_lt f⟩
theorem abs (o : Ops) (f : IntFn) : Statement (.abs o f) := ⟨rfl, rfl, intBits_lt f⟩
theorem min (o : Ops) (f : IntFn) : Statement (.min o f) := ⟨rfl, rfl, intBits_lt f⟩
theorem max (o : Ops) (f : IntFn) : Statement (.max o f) := ⟨rfl, rfl, intBits_lt f⟩
theorem and (o : Ops) (f : IntFn) : Statement (.and o f) := ⟨rfl, rfl, intBits_lt f⟩
theorem or (o : Ops) (f : IntFn) : Statement (.or o f) := ⟨rfl, rfl, intBits_lt f⟩
theorem xor (o : Ops) (f : IntFn) : Statement (.xor o f) := ⟨rfl, rfl, intBits_lt f⟩
theorem andn (o : Ops) (f : IntFn) : Statement (.andn o f) := ⟨rfl, rfl, intBits_lt f⟩
theorem shl (o : Ops) (f : IntFn) : Statement (.shl o f) := ⟨rfl, rfl, intBits_lt f⟩
theorem shr (o : Ops) (f : IntFn) : Statement (.shr o f) := ⟨rfl, rfl, intBits_lt f⟩
theorem rol (o : Ops) (f : IntFn) : Statement (.rol o f) := ⟨rfl, rfl, intBits_lt f⟩
theorem popc (o : Ops) (f : IntFn) : Statement (.popc o f) := ⟨rfl, rfl, intBits_lt f⟩
theorem clz (o : Ops) (f : IntFn) : Statement (.clz o f) := ⟨rfl, rfl, intBits_lt f⟩
theorem ctz (o : Ops) (f : IntFn) : Statement (.ctz o f) := ⟨rfl, rfl, intBits_lt f⟩
theorem brev (o : Ops) (f : IntFn) : Statement (.brev o f) := ⟨rfl, rfl, intBits_lt f⟩
theorem bfx (o : Ops) (f : IntFn) : Statement (.bfx o f) := ⟨rfl, rfl, intBits_lt f⟩
theorem bfi (o : Ops) (f : IntFn) : Statement (.bfi o f) := ⟨rfl, rfl, intBits_lt f⟩
theorem cmp (o : Ops) (f : IntFn) (cond : Cond) : Statement (.cmp o f cond) := ⟨rfl, rfl, intBits_lt _⟩
theorem sel (o : Ops) (f : IntFn) : Statement (.sel o f) := ⟨rfl, rfl, intBits_lt f⟩
theorem mov (o : Ops) (f : IntFn) : Statement (.mov o f) := ⟨rfl, rfl, intBits_lt f⟩
theorem lea (o : Ops) (f : IntFn) : Statement (.lea o f) := ⟨rfl, rfl, intBits_lt f⟩
theorem plog (o : Ops) (op : PlogOp) : Statement (.plog o op) := ⟨rfl, rfl, by have := op.code_lt; simp only [Instr.fnBits]; omega⟩
theorem fadd (o : Ops) (f : FltFn) : Statement (.fadd o f) := ⟨rfl, rfl, fltBits_lt f⟩
theorem fsub (o : Ops) (f : FltFn) : Statement (.fsub o f) := ⟨rfl, rfl, fltBits_lt f⟩
theorem fmul (o : Ops) (f : FltFn) : Statement (.fmul o f) := ⟨rfl, rfl, fltBits_lt f⟩
theorem ffma (o : Ops) (f : FltFn) : Statement (.ffma o f) := ⟨rfl, rfl, fltBits_lt f⟩
theorem fmin (o : Ops) (f : FltFn) : Statement (.fmin o f) := ⟨rfl, rfl, fltBits_lt f⟩
theorem fmax (o : Ops) (f : FltFn) : Statement (.fmax o f) := ⟨rfl, rfl, fltBits_lt f⟩
theorem fabs (o : Ops) (f : FltFn) : Statement (.fabs o f) := ⟨rfl, rfl, fltBits_lt f⟩
theorem fneg (o : Ops) (f : FltFn) : Statement (.fneg o f) := ⟨rfl, rfl, fltBits_lt f⟩
theorem fcpsgn (o : Ops) (f : FltFn) : Statement (.fcpsgn o f) := ⟨rfl, rfl, fltBits_lt f⟩
theorem fdiv (o : Ops) (f : FltFn) : Statement (.fdiv o f) := ⟨rfl, rfl, fltBits_lt f⟩
theorem fsqrt (o : Ops) (f : FltFn) : Statement (.fsqrt o f) := ⟨rfl, rfl, fltBits_lt f⟩
theorem frcp (o : Ops) (f : FltFn) : Statement (.frcp o f) := ⟨rfl, rfl, fltBits_lt f⟩
theorem frsq (o : Ops) (f : FltFn) : Statement (.frsq o f) := ⟨rfl, rfl, fltBits_lt f⟩
theorem fexp2 (o : Ops) (f : FltFn) : Statement (.fexp2 o f) := ⟨rfl, rfl, fltBits_lt f⟩
theorem flog2 (o : Ops) (f : FltFn) : Statement (.flog2 o f) := ⟨rfl, rfl, fltBits_lt f⟩
theorem fsin (o : Ops) (f : FltFn) : Statement (.fsin o f) := ⟨rfl, rfl, fltBits_lt f⟩
theorem fcos (o : Ops) (f : FltFn) : Statement (.fcos o f) := ⟨rfl, rfl, fltBits_lt f⟩
theorem ftanh (o : Ops) (f : FltFn) : Statement (.ftanh o f) := ⟨rfl, rfl, fltBits_lt f⟩
theorem fcmp (o : Ops) (f : FcmpFn) : Statement (.fcmp o f) := ⟨rfl, rfl, by have := f.fmt.code_lt; have := f.cond.code_lt; simp only [Instr.fnBits]; omega⟩
theorem frint (o : Ops) (f : FltFn) : Statement (.frint o f) := ⟨rfl, rfl, fltBits_lt f⟩
theorem fclass (o : Ops) (f : FltFn) : Statement (.fclass o f) := ⟨rfl, rfl, fltBits_lt f⟩
theorem fscale (o : Ops) (f : FltFn) : Statement (.fscale o f) := ⟨rfl, rfl, fltBits_lt f⟩
theorem shfl (o : Ops) (f : ShflFn) : Statement (.shfl o f) := ⟨rfl, rfl, by have := f.mode.code_lt; have := f.seg.isLt; have := f.wide.toNat_le; simp only [Instr.fnBits]; omega⟩
theorem bcast (o : Ops) (wide : Bool) : Statement (.bcast o wide) := ⟨rfl, rfl, by have := wide.toNat_le; simp only [Instr.fnBits]; omega⟩
theorem vote (o : Ops) (kind : VoteKind) : Statement (.vote o kind) := ⟨rfl, rfl, by have := kind.code_lt; simp only [Instr.fnBits]; omega⟩
theorem sred (o : Ops) (f : RedFn) : Statement (.sred o f) := ⟨rfl, rfl, redBits_lt f⟩
theorem sscan (o : Ops) (f : RedFn) : Statement (.sscan o f) := ⟨rfl, rfl, redBits_lt f⟩
theorem cvt (o : Ops) (f : CvtFn) : Statement (.cvt o f) := ⟨rfl, rfl, by have := f.tgt.code_lt; have := f.rm.code_lt; have := f.sat.toNat_le; simp only [Instr.fnBits]; omega⟩
theorem cvtpk (o : Ops) (f : FltFn) : Statement (.cvtpk o f) := ⟨rfl, rfl, fltBits_lt f⟩
theorem ld (o : Ops) (f : MemFn) : Statement (.ld o f) := ⟨rfl, rfl, memBits_lt o f⟩
theorem st (o : Ops) (f : MemFn) : Statement (.st o f) := ⟨rfl, rfl, memBits_lt o f⟩
theorem stRel (o : Ops) (f : MemFn) : Statement (.stRel o f) := ⟨rfl, rfl, memBits_lt o f⟩
theorem ldl (o : Ops) (f : MemFn) : Statement (.ldl o f) := ⟨rfl, rfl, memBits_lt o f⟩
theorem stl (o : Ops) (f : MemFn) : Statement (.stl o f) := ⟨rfl, rfl, memBits_lt o f⟩
theorem pref (o : Ops) (f : MemFn) : Statement (.pref o f) := ⟨rfl, rfl, memBits_lt o f⟩
theorem region (o : Ops) : Statement (.region o) := ⟨rfl, rfl, Nat.zero_lt_succ 511⟩
theorem acq (o : Ops) (scope : Scope) : Statement (.acq o scope) := ⟨rfl, rfl, by have := scope.code_lt; simp only [Instr.fnBits]; omega⟩
theorem rel (o : Ops) (scope : Scope) : Statement (.rel o scope) := ⟨rfl, rfl, by have := scope.code_lt; simp only [Instr.fnBits]; omega⟩
theorem fence (o : Ops) (scope : Scope) : Statement (.fence o scope) := ⟨rfl, rfl, by have := scope.code_lt; simp only [Instr.fnBits]; omega⟩
theorem atom (o : Ops) (f : AtomFn) : Statement (.atom o f) := ⟨rfl, rfl, atomBits_lt o f⟩
theorem atoml (o : Ops) (f : AtomFn) : Statement (.atoml o f) := ⟨rfl, rfl, atomBits_lt o f⟩
theorem atoms (o : Ops) (f : AtomFn) : Statement (.atoms o f) := ⟨rfl, rfl, atomBits_lt o f⟩
theorem wmap (o : Ops) : Statement (.wmap o) := ⟨rfl, rfl, Nat.zero_lt_succ 511⟩
theorem wunmap (o : Ops) : Statement (.wunmap o) := ⟨rfl, rfl, Nat.zero_lt_succ 511⟩
theorem wfill (o : Ops) : Statement (.wfill o) := ⟨rfl, rfl, Nat.zero_lt_succ 511⟩
theorem wdrain (o : Ops) : Statement (.wdrain o) := ⟨rfl, rfl, Nat.zero_lt_succ 511⟩
theorem wstat (o : Ops) : Statement (.wstat o) := ⟨rfl, rfl, Nat.zero_lt_succ 511⟩
theorem barinit (o : Ops) (lvl : Level) : Statement (.barinit o lvl) := ⟨rfl, rfl, by have := lvl.code_lt; simp only [Instr.fnBits]; omega⟩
theorem bararv (o : Ops) (lvl : Level) : Statement (.bararv o lvl) := ⟨rfl, rfl, by have := lvl.code_lt; simp only [Instr.fnBits]; omega⟩
theorem barwait (o : Ops) (lvl : Level) : Statement (.barwait o lvl) := ⟨rfl, rfl, by have := lvl.code_lt; simp only [Instr.fnBits]; omega⟩
theorem barsync (o : Ops) (lvl : Level) : Statement (.barsync o lvl) := ⟨rfl, rfl, by have := lvl.code_lt; simp only [Instr.fnBits]; omega⟩
theorem qcfg (o : Ops) : Statement (.qcfg o) := ⟨rfl, rfl, Nat.zero_lt_succ 511⟩
theorem qpush (o : Ops) : Statement (.qpush o) := ⟨rfl, rfl, Nat.zero_lt_succ 511⟩
theorem qpop (o : Ops) : Statement (.qpop o) := ⟨rfl, rfl, Nat.zero_lt_succ 511⟩
theorem copy (o : Ops) : Statement (.copy o) := ⟨rfl, rfl, Nat.zero_lt_succ 511⟩
theorem cbseal (o : Ops) : Statement (.cbseal o) := ⟨rfl, rfl, Nat.zero_lt_succ 511⟩
theorem cbwait (o : Ops) : Statement (.cbwait o) := ⟨rfl, rfl, Nat.zero_lt_succ 511⟩
theorem cbpoll (o : Ops) : Statement (.cbpoll o) := ⟨rfl, rfl, Nat.zero_lt_succ 511⟩
theorem mald (o : Ops) (f : MatFn) : Statement (.mald o f) := ⟨rfl, rfl, Nat.zero_lt_succ 511⟩
theorem mwld (o : Ops) (f : MatFn) : Statement (.mwld o f) := ⟨rfl, rfl, Nat.zero_lt_succ 511⟩
theorem mstrm (o : Ops) (f : MatFn) : Statement (.mstrm o f) := ⟨rfl, rfl, Nat.zero_lt_succ 511⟩
theorem macc (o : Ops) (isNew : Bool) (f : MatFn) : Statement (.macc o isNew f) := ⟨rfl, rfl, by have := isNew.toNat_le; simp only [Instr.fnBits]; omega⟩
theorem mdrn (o : Ops) (f : MatFn) : Statement (.mdrn o f) := ⟨rfl, rfl, Nat.zero_lt_succ 511⟩
theorem mzero (o : Ops) (f : MatFn) : Statement (.mzero o f) := ⟨rfl, rfl, Nat.zero_lt_succ 511⟩
theorem mqsc (o : Ops) : Statement (.mqsc o) := ⟨rfl, rfl, Nat.zero_lt_succ 511⟩
theorem mwait (o : Ops) (f : MatFn) : Statement (.mwait o f) := ⟨rfl, rfl, Nat.zero_lt_succ 511⟩
theorem mrmap (o : Ops) : Statement (.mrmap o) := ⟨rfl, rfl, Nat.zero_lt_succ 511⟩
theorem nop (o : Ops) : Statement (.nop o) := ⟨rfl, rfl, Nat.zero_lt_succ 511⟩
theorem bra (o : Ops) : Statement (.bra o) := ⟨rfl, rfl, Nat.zero_lt_succ 511⟩
theorem brx (o : Ops) : Statement (.brx o) := ⟨rfl, rfl, Nat.zero_lt_succ 511⟩
theorem call (o : Ops) : Statement (.call o) := ⟨rfl, rfl, Nat.zero_lt_succ 511⟩
theorem callx (o : Ops) : Statement (.callx o) := ⟨rfl, rfl, Nat.zero_lt_succ 511⟩
theorem ret (o : Ops) : Statement (.ret o) := ⟨rfl, rfl, Nat.zero_lt_succ 511⟩
theorem exit (o : Ops) : Statement (.exit o) := ⟨rfl, rfl, Nat.zero_lt_succ 511⟩
theorem yield (o : Ops) : Statement (.yield o) := ⟨rfl, rfl, Nat.zero_lt_succ 511⟩
theorem lpbeg (o : Ops) (f : LpbegFn) : Statement (.lpbeg o f) := ⟨rfl, rfl, by have := f.len.isLt; have := f.rotate.toNat_le; have := f.stages.isLt; simp only [Instr.fnBits]; omega⟩
theorem lpbrk (o : Ops) (dm1 : BitVec 2) : Statement (.lpbrk o dm1) := ⟨rfl, rfl, by have := dm1.isLt; simp only [Instr.fnBits]; omega⟩
theorem lpsave (o : Ops) : Statement (.lpsave o) := ⟨rfl, rfl, Nat.zero_lt_succ 511⟩
theorem lprest (o : Ops) : Statement (.lprest o) := ⟨rfl, rfl, Nat.zero_lt_succ 511⟩
theorem trigpost (o : Ops) (f : TrigFn) : Statement (.trigpost o f) := ⟨rfl, rfl, Nat.zero_lt_succ 511⟩
theorem tcadd (o : Ops) (scope : Scope) : Statement (.tcadd o scope) := ⟨rfl, rfl, by have := scope.code_lt; simp only [Instr.fnBits]; omega⟩
theorem tcrd (o : Ops) : Statement (.tcrd o) := ⟨rfl, rfl, Nat.zero_lt_succ 511⟩
theorem tcwait (o : Ops) : Statement (.tcwait o) := ⟨rfl, rfl, Nat.zero_lt_succ 511⟩
theorem tcset (o : Ops) : Statement (.tcset o) := ⟨rfl, rfl, Nat.zero_lt_succ 511⟩
theorem trigcan (o : Ops) : Statement (.trigcan o) := ⟨rfl, rfl, Nat.zero_lt_succ 511⟩
theorem trigprb (o : Ops) : Statement (.trigprb o) := ⟨rfl, rfl, Nat.zero_lt_succ 511⟩
theorem launch (o : Ops) : Statement (.launch o) := ⟨rfl, rfl, Nat.zero_lt_succ 511⟩
theorem tready (o : Ops) : Statement (.tready o) := ⟨rfl, rfl, Nat.zero_lt_succ 511⟩
theorem tdec (o : Ops) : Statement (.tdec o) := ⟨rfl, rfl, Nat.zero_lt_succ 511⟩
theorem trap (o : Ops) : Statement (.trap o) := ⟨rfl, rfl, Nat.zero_lt_succ 511⟩
theorem eret (o : Ops) : Statement (.eret o) := ⟨rfl, rfl, Nat.zero_lt_succ 511⟩
theorem bkpt (o : Ops) : Statement (.bkpt o) := ⟨rfl, rfl, Nat.zero_lt_succ 511⟩
theorem sysrd (o : Ops) : Statement (.sysrd o) := ⟨rfl, rfl, Nat.zero_lt_succ 511⟩
theorem syswr (o : Ops) : Statement (.syswr o) := ⟨rfl, rfl, Nat.zero_lt_succ 511⟩
theorem shootdn (o : Ops) : Statement (.shootdn o) := ⟨rfl, rfl, Nat.zero_lt_succ 511⟩
theorem cntcfg (o : Ops) : Statement (.cntcfg o) := ⟨rfl, rfl, Nat.zero_lt_succ 511⟩
theorem cntrd (o : Ops) : Statement (.cntrd o) := ⟨rfl, rfl, Nat.zero_lt_succ 511⟩
theorem issueCk (p c : Nat) : Statement (.issueCk p c) := ⟨rfl, rfl, Nat.zero_lt_succ 511⟩
theorem entryAged (p c pc : Nat) : Statement (.entryAged p c pc) := ⟨rfl, rfl, Nat.zero_lt_succ 511⟩
theorem yieldWindowEnd (p c pc : Nat) : Statement (.yieldWindowEnd p c pc) := ⟨rfl, rfl, Nat.zero_lt_succ 511⟩
theorem trapDelivery (p c squad : Nat) : Statement (.trapDelivery p c squad) := ⟨rfl, rfl, Nat.zero_lt_succ 511⟩
theorem registrationRequest (m : Nat) : Statement (.registrationRequest m) := ⟨rfl, rfl, Nat.zero_lt_succ 511⟩
theorem registrationGrant (m : Nat) : Statement (.registrationGrant m) := ⟨rfl, rfl, Nat.zero_lt_succ 511⟩
theorem loadRequest (m : Nat) : Statement (.loadRequest m) := ⟨rfl, rfl, Nat.zero_lt_succ 511⟩
theorem forwardedLoad (m : Nat) : Statement (.forwardedLoad m) := ⟨rfl, rfl, Nat.zero_lt_succ 511⟩
theorem loadAnswer (m : Nat) : Statement (.loadAnswer m) := ⟨rfl, rfl, Nat.zero_lt_succ 511⟩
theorem invalidateNotice (m : Nat) : Statement (.invalidateNotice m) := ⟨rfl, rfl, Nat.zero_lt_succ 511⟩
theorem revocation (m : Nat) : Statement (.revocation m) := ⟨rfl, rfl, Nat.zero_lt_succ 511⟩
theorem writeBack (m : Nat) : Statement (.writeBack m) := ⟨rfl, rfl, Nat.zero_lt_succ 511⟩
theorem writeBackAck (m : Nat) : Statement (.writeBackAck m) := ⟨rfl, rfl, Nat.zero_lt_succ 511⟩
theorem homeAtomic (m : Nat) : Statement (.homeAtomic m) := ⟨rfl, rfl, Nat.zero_lt_succ 511⟩
theorem remoteWrite (m : Nat) : Statement (.remoteWrite m) := ⟨rfl, rfl, Nat.zero_lt_succ 511⟩
theorem llcEvict (line : Nat) : Statement (.llcEvict line) := ⟨rfl, rfl, Nat.zero_lt_succ 511⟩
theorem levelEvict (level word : Nat) : Statement (.levelEvict level word) := ⟨rfl, rfl, Nat.zero_lt_succ 511⟩
theorem regionEntryTaken (p ctx r : Nat) : Statement (.regionEntryTaken p ctx r) := ⟨rfl, rfl, Nat.zero_lt_succ 511⟩
theorem windowSectorFetchDone (m : Nat) : Statement (.windowSectorFetchDone m) := ⟨rfl, rfl, Nat.zero_lt_succ 511⟩
theorem wfillComplete (p c slot : Nat) : Statement (.wfillComplete p c slot) := ⟨rfl, rfl, Nat.zero_lt_succ 511⟩
theorem wdrainComplete (p c slot : Nat) : Statement (.wdrainComplete p c slot) := ⟨rfl, rfl, Nat.zero_lt_succ 511⟩
theorem copyCommandStart (cmd : Nat) : Statement (.copyCommandStart cmd) := ⟨rfl, rfl, Nat.zero_lt_succ 511⟩
theorem copyCommandComplete (cmd : Nat) : Statement (.copyCommandComplete cmd) := ⟨rfl, rfl, Nat.zero_lt_succ 511⟩
theorem copyCommandFail (cmd : Nat) : Statement (.copyCommandFail cmd) := ⟨rfl, rfl, Nat.zero_lt_succ 511⟩
theorem matrixAccept (p c : Nat) : Statement (.matrixAccept p c) := ⟨rfl, rfl, Nat.zero_lt_succ 511⟩
theorem maldComplete (p c op : Nat) : Statement (.maldComplete p c op) := ⟨rfl, rfl, Nat.zero_lt_succ 511⟩
theorem mwldShadowComplete (p c : Nat) (corrected uncorrectable : List Nat) : Statement (.mwldShadowComplete p c corrected uncorrectable) := ⟨rfl, rfl, Nat.zero_lt_succ 511⟩
theorem mstrmRowRetire (p c op : Nat) : Statement (.mstrmRowRetire p c op) := ⟨rfl, rfl, Nat.zero_lt_succ 511⟩
theorem mstrmComplete (p c op : Nat) : Statement (.mstrmComplete p c op) := ⟨rfl, rfl, Nat.zero_lt_succ 511⟩
theorem mdrnComplete (p c op : Nat) : Statement (.mdrnComplete p c op) := ⟨rfl, rfl, Nat.zero_lt_succ 511⟩
theorem maccComplete (p c op : Nat) : Statement (.maccComplete p c op) := ⟨rfl, rfl, Nat.zero_lt_succ 511⟩
theorem mzeroComplete (p c op : Nat) : Statement (.mzeroComplete p c op) := ⟨rfl, rfl, Nat.zero_lt_succ 511⟩
theorem trigOpStart (p d : Nat) : Statement (.trigOpStart p d) := ⟨rfl, rfl, Nat.zero_lt_succ 511⟩
theorem trigOpComplete (p d slot : Nat) : Statement (.trigOpComplete p d slot) := ⟨rfl, rfl, Nat.zero_lt_succ 511⟩
theorem trigOpFail (p d slot cause : Nat) : Statement (.trigOpFail p d slot cause) := ⟨rfl, rfl, Nat.zero_lt_succ 511⟩
theorem signal (m : Nat) : Statement (.signal m) := ⟨rfl, rfl, Nat.zero_lt_succ 511⟩
theorem aggregatorMergeTimeout (p d merge : Nat) : Statement (.aggregatorMergeTimeout p d merge) := ⟨rfl, rfl, Nat.zero_lt_succ 511⟩
theorem doorbell (p j : Nat) (tail : BitVec 32) : Statement (.doorbell p j tail) := ⟨rfl, rfl, Nat.zero_lt_succ 511⟩
theorem launchCommand (p j : Nat) : Statement (.launchCommand p j) := ⟨rfl, rfl, Nat.zero_lt_succ 511⟩
theorem mstart (p j : Nat) : Statement (.mstart p j) := ⟨rfl, rfl, Nat.zero_lt_succ 511⟩
theorem ctxcreate (p j : Nat) : Statement (.ctxcreate p j) := ⟨rfl, rfl, Nat.zero_lt_succ 511⟩
theorem ctxdestroy (p j : Nat) : Statement (.ctxdestroy p j) := ⟨rfl, rfl, Nat.zero_lt_succ 511⟩
theorem toksig (p j : Nat) : Statement (.toksig p j) := ⟨rfl, rfl, Nat.zero_lt_succ 511⟩
theorem taskarm (p j : Nat) : Statement (.taskarm p j) := ⟨rfl, rfl, Nat.zero_lt_succ 511⟩
theorem halt (p j : Nat) : Statement (.halt p j) := ⟨rfl, rfl, Nat.zero_lt_succ 511⟩
theorem resume (p j : Nat) : Statement (.resume p j) := ⟨rfl, rfl, Nat.zero_lt_succ 511⟩
theorem launchLogicCk (p d : Nat) : Statement (.launchLogicCk p d) := ⟨rfl, rfl, Nat.zero_lt_succ 511⟩
theorem quiescePoint (gang : Nat) : Statement (.quiescePoint gang) := ⟨rfl, rfl, Nat.zero_lt_succ 511⟩
theorem workgroupComplete (p c : Nat) : Statement (.workgroupComplete p c) := ⟨rfl, rfl, Nat.zero_lt_succ 511⟩
theorem launchComplete (l : Nat) : Statement (.launchComplete l) := ⟨rfl, rfl, Nat.zero_lt_succ 511⟩
theorem clusterAdvert (p d : Nat) : Statement (.clusterAdvert p d) := ⟨rfl, rfl, Nat.zero_lt_succ 511⟩
theorem migrationOffer (p d : Nat) : Statement (.migrationOffer p d) := ⟨rfl, rfl, Nat.zero_lt_succ 511⟩
theorem migrationOfferReceive (p d : Nat) : Statement (.migrationOfferReceive p d) := ⟨rfl, rfl, Nat.zero_lt_succ 511⟩
theorem contextFaultMessage (p ctx : Nat) (fault : BitVec 16) : Statement (.contextFaultMessage p ctx fault) := ⟨rfl, rfl, Nat.zero_lt_succ 511⟩
theorem translationFault (p c squad lane : Nat) (va : BitVec 64) (kind : BitVec 3) : Statement (.translationFault p c squad lane va kind) := ⟨rfl, rfl, Nat.zero_lt_succ 511⟩
theorem faultRecordWrite (p : Nat) : Statement (.faultRecordWrite p) := ⟨rfl, rfl, Nat.zero_lt_succ 511⟩
theorem frdoneRetry (p : Nat) (id : BitVec 32) : Statement (.frdoneRetry p id) := ⟨rfl, rfl, Nat.zero_lt_succ 511⟩
theorem frdoneDeliver (p : Nat) (id : BitVec 32) : Statement (.frdoneDeliver p id) := ⟨rfl, rfl, Nat.zero_lt_succ 511⟩
theorem shootdownReceive (p sd : Nat) : Statement (.shootdownReceive p sd) := ⟨rfl, rfl, Nat.zero_lt_succ 511⟩
theorem negativeReply (m : Nat) : Statement (.negativeReply m) := ⟨rfl, rfl, Nat.zero_lt_succ 511⟩
theorem heartbeat (p d : Nat) : Statement (.heartbeat p d) := ⟨rfl, rfl, Nat.zero_lt_succ 511⟩
theorem dieLostDetect (p d : Nat) (error hostReset : Bool) : Statement (.dieLostDetect p d error hostReset) := ⟨rfl, rfl, Nat.zero_lt_succ 511⟩
theorem dieLossBroadcast (p d : Nat) : Statement (.dieLossBroadcast p d) := ⟨rfl, rfl, Nat.zero_lt_succ 511⟩
theorem fatalError (p item socket : Nat) (valid : BitVec 64) : Statement (.fatalError p item socket valid) := ⟨rfl, rfl, Nat.zero_lt_succ 511⟩
theorem flitReceive (p socket : Nat) (noise : BitVec 640) : Statement (.flitReceive p socket noise) := ⟨rfl, rfl, Nat.zero_lt_succ 511⟩
theorem ringCycle (p : Nat) : Statement (.ringCycle p) := ⟨rfl, rfl, Nat.zero_lt_succ 511⟩
theorem requestReceive (m : Nat) : Statement (.requestReceive m) := ⟨rfl, rfl, Nat.zero_lt_succ 511⟩
theorem requestTimeout (m : Nat) : Statement (.requestTimeout m) := ⟨rfl, rfl, Nat.zero_lt_succ 511⟩
theorem moduleLaneFail (p socket md lane : Nat) : Statement (.moduleLaneFail p socket md lane) := ⟨rfl, rfl, Nat.zero_lt_succ 511⟩
theorem moduleRetrainDone (p socket md : Nat) : Statement (.moduleRetrainDone p socket md) := ⟨rfl, rfl, Nat.zero_lt_succ 511⟩
theorem lineRetrainStart (p plane line : Nat) (lostLock : Bool) : Statement (.lineRetrainStart p plane line lostLock) := ⟨rfl, rfl, Nat.zero_lt_succ 511⟩
theorem retrainNotice (p plane line : Nat) : Statement (.retrainNotice p plane line) := ⟨rfl, rfl, Nat.zero_lt_succ 511⟩
theorem lineRetrainDone (p plane line : Nat) (good : Bool) : Statement (.lineRetrainDone p plane line good) := ⟨rfl, rfl, Nat.zero_lt_succ 511⟩
theorem flrst (p : Nat) (v : BitVec 32) : Statement (.flrst p v) := ⟨rfl, rfl, Nat.zero_lt_succ 511⟩
theorem pkgnum (p : Nat) (v : BitVec 32) : Statement (.pkgnum p v) := ⟨rfl, rfl, Nat.zero_lt_succ 511⟩
theorem pwrcmdRun (p : Nat) (v : BitVec 32) : Statement (.pwrcmdRun p v) := ⟨rfl, rfl, Nat.zero_lt_succ 511⟩
theorem pwrcmdTrim (p : Nat) (v : BitVec 32) : Statement (.pwrcmdTrim p v) := ⟨rfl, rfl, Nat.zero_lt_succ 511⟩
theorem pwrcmdHold (p : Nat) (v : BitVec 32) : Statement (.pwrcmdHold p v) := ⟨rfl, rfl, Nat.zero_lt_succ 511⟩
theorem pwrcmdOff (p : Nat) (v : BitVec 32) : Statement (.pwrcmdOff p v) := ⟨rfl, rfl, Nat.zero_lt_succ 511⟩
theorem powerTransitionDone (p : Nat) : Statement (.powerTransitionDone p) := ⟨rfl, rfl, Nat.zero_lt_succ 511⟩
theorem thermalSample (p : Nat) (sensors : List (BitVec 32)) (inlet outlet : BitVec 32) : Statement (.thermalSample p sensors inlet outlet) := ⟨rfl, rfl, Nat.zero_lt_succ 511⟩
theorem thalarm (p : Nat) (v : BitVec 32) : Statement (.thalarm p v) := ⟨rfl, rfl, Nat.zero_lt_succ 511⟩
theorem registerWrite (p off : Nat) (v : BitVec 128) : Statement (.registerWrite p off v) := ⟨rfl, rfl, Nat.zero_lt_succ 511⟩
theorem storageDmaWrite (p port : Nat) (va : BitVec 64) (data : List (BitVec 8)) : Statement (.storageDmaWrite p port va data) := ⟨rfl, rfl, Nat.zero_lt_succ 511⟩
theorem boot (p : Nat) : Statement (.boot p) := ⟨rfl, rfl, Nat.zero_lt_succ 511⟩
theorem recoveryImage (p md : Nat) (image : List (BitVec 8)) : Statement (.recoveryImage p md image) := ⟨rfl, rfl, Nat.zero_lt_succ 511⟩
theorem rollbackFuse (p : Nat) : Statement (.rollbackFuse p) := ⟨rfl, rfl, Nat.zero_lt_succ 511⟩
theorem attestation (p : Nat) (nonce : BitVec 384) : Statement (.attestation p nonce) := ⟨rfl, rfl, Nat.zero_lt_succ 511⟩
theorem dieReturnToService (p d : Nat) : Statement (.dieReturnToService p d) := ⟨rfl, rfl, Nat.zero_lt_succ 511⟩
theorem powerRemoved (p : Nat) : Statement (.powerRemoved p) := ⟨rfl, rfl, Nat.zero_lt_succ 511⟩
theorem storageDmaRead (p port : Nat) (va : BitVec 64) (n : Nat) : Statement (.storageDmaRead p port va n) := ⟨rfl, rfl, Nat.zero_lt_succ 511⟩
theorem storageLinkRetrain (p port : Nat) (width gen : BitVec 4) : Statement (.storageLinkRetrain p port width gen) := ⟨rfl, rfl, Nat.zero_lt_succ 511⟩
theorem hostLinkDmaAccess (p pa : Nat) (write : Bool) (data : List (BitVec 8)) : Statement (.hostLinkDmaAccess p pa write data) := ⟨rfl, rfl, Nat.zero_lt_succ 511⟩
theorem atomicAnswer (m : Nat) : Statement (.atomicAnswer m) := ⟨rfl, rfl, Nat.zero_lt_succ 511⟩

end Laws.Encoding

end Sys2Proof
end

