-- ==== Sys2Proof/Tests/Slice0.lean ====
section
/-! SUPPORT. Tests: the words of 05 and 06 decode to their instructions, each check of 05 R116 refuses an ill-formed term, single steps give the values that the
spec's rules and worked examples state, and every statement's hypotheses are met by a concrete state, clause by clause. -/

namespace Sys2Proof.Machine

-- One theorem after the other: each kernel evaluation in its turn.
set_option Elab.async false

/-! ### States and operands of the tests -/

/-- The conditions of Issues as a Bool. -/
def issuesB (s : State) (iss : Issue) (i : Instr) (o : Ops) : Bool :=
  i.WellFormed && decide (s.issue = some iss) && (iss.threads.all fun t => coreOf t = iss.core) && decide (iss.threads.map laneOf).Nodup &&
  (iss.threads.all fun t => s.preTrap iss i o (s.chainAt iss).count t = none) && (iss.threads.all fun t => (s.begun iss).latchTrap iss i o t = false) &&
  (iss.threads.all fun t => (s.thread t).done = false) && (iss.threads.all fun t => match (s.thread t).first with
    | some f => f.kw = decide ((iss.threads.find? fun u => squadOf u = squadOf t && (s.thread u).guard o.h) = some t)
    | none => true)

theorem issues_of {s : State} {iss : Issue} {i : Instr} {o : Ops} (h : issuesB s iss i o = true) : Issues s iss i o := by
  simp only [issuesB, Bool.and_eq_true, decide_eq_true_eq, List.all_eq_true] at h
  obtain ⟨⟨⟨⟨⟨⟨⟨h1, h2⟩, h3⟩, h4⟩, h5⟩, h6⟩, h7⟩, h8⟩ := h
  exact ⟨h1, h2, h3, h4, h5, h6, h7, fun t ht f hf => by simpa [hf] using h8 t ht⟩

theorem alone_of {s : State} {iss : Issue} {i : Instr} {o : Ops} {t : Nat}
    (h : (issuesB s iss i o && decide (iss.threads = [t]) && (s.thread t).guard o.h) = true) : Alone s iss i o t := by
  simp only [Bool.and_eq_true, decide_eq_true_eq] at h
  exact ⟨issues_of h.1.1, h.1.2, h.2⟩

theorem together_of {s : State} {iss : Issue} {i : Instr} {o : Ops} {q : Nat}
    (h : (issuesB s iss i o && decide (iss.threads = s.squadThreads q) && decide (iss.threads ≠ []) &&
      iss.threads.all fun t => decide ((s.thread t).run = .ready) && decide ((s.thread t).pc = iss.pc)) = true) : Together s iss i o q := by
  simp only [Bool.and_eq_true, decide_eq_true_eq, List.all_eq_true] at h
  exact ⟨issues_of h.1.1.1, h.1.1.2, h.1.2, h.2⟩

/-- n threads of squad 0 of a core, issued together at PC 0x1000. -/
def group (core n : Nat) : Issue :=
  { core := core, slot := 0, pc := 0x1000, nbytes := 8, threads := (List.range n).map (threadKey (squadKey core 0)) }

/-- A core with n threads of a gang of context 0, whose 64 KiB page at 0x10000 is Cached, at 0x20000, by its translation cache; numbers of new messages start at 100. -/
def machine (core n : Nat) : State :=
  { ctxs := [(0, { tvec := 0x8000, packages := 1, grants := (List.range 8).map fun _ => 1 * 2 ^ 6 + 1 * 2 ^ 20 + 1 * 2 ^ 34 })]
    squads := [(squadKey core 0, { gang := 1 })]
    cores := [(core, { gang := some 1, windows := (List.range 32).map fun j => (j, {}) })]
    gangs := [(1, { launch := 2, index := 0, die := core / 512 * 8, st := .running, cores := [core] })]
    launches := [(2, { pkg := 0, ctx := 0, die := 0, addr := 0x100, source := .child 0, body := 0, marl := isMarl core, st := .dispatched })]
    threads := (List.range n).map fun l => (threadKey (squadKey core 0) l, { pc := 0x1000 })
    tcs := [(core, [{ ctx := 0, base := 0x10000, log := 16, leaf := 0x2001F }])]
    issue := some (group core n)
    nextId := 100 }

/-- An operand list without guard, latch or chain. -/
def ops (d a b c : Fld) (long : Bool := false) : Ops := ⟨⟨0, false, false, false, 0, long⟩, d, a, .fld b, c⟩
/-- Registers v of a thread set. -/
def State.withV (s : State) (t : Nat) (l : List (Nat × Nat)) : State :=
  { s with regs := l.foldl (fun r x => tset r (s.regKey t x.1) (BitVec.ofNat 32 x.2)) s.regs }
/-- Thread 0 of squad 0 of a core, the group that it issues in, its machine with v registers set. -/
def tid (core : Nat) : Nat := threadKey (squadKey core 0) 0
def one (core : Nat) (l : List (Nat × Nat)) : State := (machine core 1).withV (tid core) l
def g0 : Issue := group 0 1
def t0 : Nat := tid 0
def nextOf (o : Host.Outcome State Fault Refusal) : Option State := match o with | .next r => some r | _ => none

/-- d, a and b name v8, v10 and v12, c names v14. -/
def dab : Ops := ops (.v 8) (.v 10) (.v 12) .zero
def dabc : Ops := ops (.v 8) (.v 10) (.v 12) (.v 14)
def da : Ops := ops (.v 8) (.v 10) .zero .zero
def pab : Ops := ops (.pred 2) (.v 10) (.v 12) .zero
def xa : Ops := ops .zero (.v 10) .zero .zero


/-! ### Decoding (words assembled bit by bit from the tables of 05 and 06) -/

theorem test_decode_integer : let z : Fld := .zero
  decode 0x48510180A040E404 = .ok (.add ⟨⟨9, true, true, false, 0, false⟩, .v 8, .v 10, .fld (.v 12), z⟩ ⟨.s32, true, 0⟩) ∧
  decode 0x48510180A040E408 = .ok (.sub ⟨⟨9, true, true, false, 0, false⟩, .v 8, .v 10, .fld (.v 12), z⟩ ⟨.s32, true, 0⟩) ∧
  decode 0x48510180A040E40C = .ok (.mul ⟨⟨9, true, true, false, 0, false⟩, .v 8, .v 10, .fld (.v 12), z⟩ ⟨.s32, true, 0⟩) ∧
  decode 0x70510180A040E410 = .ok (.mulhi ⟨⟨9, true, true, false, 0, false⟩, .v 8, .v 10, .fld (.v 12), z⟩ ⟨.n64, false, 0⟩) ∧
  decode 0x48038180A040E414 = .ok (.mad ⟨⟨9, true, true, false, 0, false⟩, .v 8, .v 10, .fld (.v 12), .v 14⟩ ⟨.s32, true, 0⟩) ∧
  decode 0x70510180A040E418 = .ok (.div ⟨⟨9, true, true, false, 0, false⟩, .v 8, .v 10, .fld (.v 12), z⟩ ⟨.n64, false, 0⟩) ∧
  decode 0x70510180A040E41C = .ok (.rem ⟨⟨9, true, true, false, 0, false⟩, .v 8, .v 10, .fld (.v 12), z⟩ ⟨.n64, false, 0⟩) ∧
  decode 0x48512880A040E420 = .ok (.neg ⟨⟨9, true, true, false, 0, false⟩, .v 8, .v 10, .fld z, z⟩ ⟨.s32, true, 0⟩) ∧
  decode 0x48512880A040E424 = .ok (.abs ⟨⟨9, true, true, false, 0, false⟩, .v 8, .v 10, .fld z, z⟩ ⟨.s32, true, 0⟩) ∧
  decode 0x70510180A040E428 = .ok (.min ⟨⟨9, true, true, false, 0, false⟩, .v 8, .v 10, .fld (.v 12), z⟩ ⟨.n64, false, 0⟩) ∧
  decode 0x70510180A040E42C = .ok (.max ⟨⟨9, true, true, false, 0, false⟩, .v 8, .v 10, .fld (.v 12), z⟩ ⟨.n64, false, 0⟩) ∧
  decode 0x50510180A040E430 = .ok (.and ⟨⟨9, true, true, false, 0, false⟩, .v 8, .v 10, .fld (.v 12), z⟩ ⟨.n32, false, 0⟩) ∧
  decode 0x50510180A040E434 = .ok (.or ⟨⟨9, true, true, false, 0, false⟩, .v 8, .v 10, .fld (.v 12), z⟩ ⟨.n32, false, 0⟩) ∧
  decode 0x50510180A040E438 = .ok (.xor ⟨⟨9, true, true, false, 0, false⟩, .v 8, .v 10, .fld (.v 12), z⟩ ⟨.n32, false, 0⟩) ∧
  decode 0x50510180A040E43C = .ok (.andn ⟨⟨9, true, true, false, 0, false⟩, .v 8, .v 10, .fld (.v 12), z⟩ ⟨.n32, false, 0⟩) ∧
  decode 0x68510180A040E440 = .ok (.shl ⟨⟨9, true, true, false, 0, false⟩, .v 8, .v 10, .fld (.v 12), z⟩ ⟨.s64, true, 0⟩) ∧
  decode 0x60510180A040E444 = .ok (.shr ⟨⟨9, true, true, false, 0, false⟩, .v 8, .v 10, .fld (.v 12), z⟩ ⟨.s64, false, 0⟩) ∧
  decode 0x50510180A040E448 = .ok (.rol ⟨⟨9, true, true, false, 0, false⟩, .v 8, .v 10, .fld (.v 12), z⟩ ⟨.n32, false, 0⟩) ∧
  decode 0x50512880A040E44C = .ok (.popc ⟨⟨9, true, true, false, 0, false⟩, .v 8, .v 10, .fld z, z⟩ ⟨.n32, false, 0⟩) ∧
  decode 0x50512880A040E450 = .ok (.clz ⟨⟨9, true, true, false, 0, false⟩, .v 8, .v 10, .fld z, z⟩ ⟨.n32, false, 0⟩) ∧
  decode 0x50512880A040E454 = .ok (.ctz ⟨⟨9, true, true, false, 0, false⟩, .v 8, .v 10, .fld z, z⟩ ⟨.n32, false, 0⟩) ∧
  decode 0x50512880A040E458 = .ok (.brev ⟨⟨9, true, true, false, 0, false⟩, .v 8, .v 10, .fld z, z⟩ ⟨.n32, false, 0⟩) ∧
  decode 0x40038180A040E45C = .ok (.bfx ⟨⟨9, true, true, false, 0, false⟩, .v 8, .v 10, .fld (.v 12), .v 14⟩ ⟨.s32, false, 0⟩) ∧
  decode 0x50038180A040E460 = .ok (.bfi ⟨⟨9, true, true, false, 0, false⟩, .v 8, .v 10, .fld (.v 12), .v 14⟩ ⟨.n32, false, 0⟩) ∧
  decode 0x1D10180A010E464 = .ok (.cmp ⟨⟨9, true, true, false, 0, false⟩, .pred 2, .v 10, .fld (.v 12), z⟩ ⟨.s8, false, 3⟩ .le) ∧
  decode 0x50010180A040E468 = .ok (.sel ⟨⟨9, true, true, false, 0, false⟩, .v 8, .v 10, .fld (.v 12), .pred 4⟩ ⟨.n32, false, 0⟩) ∧
  decode 0x505101944040E46C = .ok (.mov ⟨⟨9, true, true, false, 0, false⟩, .v 8, z, .fld (.v 12), z⟩ ⟨.n32, false, 0⟩) ∧
  decode 0x65D10180A040E470 = .ok (.lea ⟨⟨9, true, true, false, 0, false⟩, .v 8, .v 10, .fld (.v 12), z⟩ ⟨.s64, false, 11⟩) ∧
  decode 0x15100A03010E474 = .ok (.plog ⟨⟨9, true, true, false, 0, false⟩, .pred 2, .pred 3, .fld (.pred 5), z⟩ .xor) := by decide +kernel

theorem test_decode_float : let z : Fld := .zero
  decode 0x86510180A040E480 = .ok (.fadd ⟨⟨9, true, true, false, 0, false⟩, .v 8, .v 10, .fld (.v 12), z⟩ ⟨.f16, .rtz, true⟩) ∧
  decode 0x86510180A040E484 = .ok (.fsub ⟨⟨9, true, true, false, 0, false⟩, .v 8, .v 10, .fld (.v 12), z⟩ ⟨.f16, .rtz, true⟩) ∧
  decode 0x86510180A040E488 = .ok (.fmul ⟨⟨9, true, true, false, 0, false⟩, .v 8, .v 10, .fld (.v 12), z⟩ ⟨.f16, .rtz, true⟩) ∧
  decode 0x86038180A040E48C = .ok (.ffma ⟨⟨9, true, true, false, 0, false⟩, .v 8, .v 10, .fld (.v 12), .v 14⟩ ⟨.f16, .rtz, true⟩) ∧
  decode 0x92510180A040E490 = .ok (.fmin ⟨⟨9, true, true, false, 0, false⟩, .v 8, .v 10, .fld (.v 12), z⟩ ⟨.bf16, .rne, true⟩) ∧
  decode 0x92510180A040E494 = .ok (.fmax ⟨⟨9, true, true, false, 0, false⟩, .v 8, .v 10, .fld (.v 12), z⟩ ⟨.bf16, .rne, true⟩) ∧
  decode 0x92512880A040E498 = .ok (.fabs ⟨⟨9, true, true, false, 0, false⟩, .v 8, .v 10, .fld z, z⟩ ⟨.bf16, .rne, true⟩) ∧
  decode 0x92512880A040E49C = .ok (.fneg ⟨⟨9, true, true, false, 0, false⟩, .v 8, .v 10, .fld z, z⟩ ⟨.bf16, .rne, true⟩) ∧
  decode 0x92510180A040E4A0 = .ok (.fcpsgn ⟨⟨9, true, true, false, 0, false⟩, .v 8, .v 10, .fld (.v 12), z⟩ ⟨.bf16, .rne, true⟩) ∧
  decode 0xBC510180A040E4A4 = .ok (.fdiv ⟨⟨9, true, true, false, 0, false⟩, .v 8, .v 10, .fld (.v 12), z⟩ ⟨.f64, .rdn, false⟩) ∧
  decode 0xBC512880A040E4A8 = .ok (.fsqrt ⟨⟨9, true, true, false, 0, false⟩, .v 8, .v 10, .fld z, z⟩ ⟨.f64, .rdn, false⟩) ∧
  decode 0xA0512880A040E4AC = .ok (.frcp ⟨⟨9, true, true, false, 0, false⟩, .v 8, .v 10, .fld z, z⟩ ⟨.f32, .rne, false⟩) ∧
  decode 0xA0512880A040E4B0 = .ok (.frsq ⟨⟨9, true, true, false, 0, false⟩, .v 8, .v 10, .fld z, z⟩ ⟨.f32, .rne, false⟩) ∧
  decode 0xA0512880A040E4B4 = .ok (.fexp2 ⟨⟨9, true, true, false, 0, false⟩, .v 8, .v 10, .fld z, z⟩ ⟨.f32, .rne, false⟩) ∧
  decode 0xA0512880A040E4B8 = .ok (.flog2 ⟨⟨9, true, true, false, 0, false⟩, .v 8, .v 10, .fld z, z⟩ ⟨.f32, .rne, false⟩) ∧
  decode 0xA0512880A040E4BC = .ok (.fsin ⟨⟨9, true, true, false, 0, false⟩, .v 8, .v 10, .fld z, z⟩ ⟨.f32, .rne, false⟩) ∧
  decode 0xA0512880A040E4C0 = .ok (.fcos ⟨⟨9, true, true, false, 0, false⟩, .v 8, .v 10, .fld z, z⟩ ⟨.f32, .rne, false⟩) ∧
  decode 0xA0512880A040E4C4 = .ok (.ftanh ⟨⟨9, true, true, false, 0, false⟩, .v 8, .v 10, .fld z, z⟩ ⟨.f32, .rne, false⟩) ∧
  decode 0xBC510180A010E4C8 = .ok (.fcmp ⟨⟨9, true, true, false, 0, false⟩, .pred 2, .v 10, .fld (.v 12), z⟩ ⟨.f64, .uno⟩) ∧
  decode 0x86512880A040E4CC = .ok (.frint ⟨⟨9, true, true, false, 0, false⟩, .v 8, .v 10, .fld z, z⟩ ⟨.f16, .rtz, true⟩) ∧
  decode 0x80512880A040E4D0 = .ok (.fclass ⟨⟨9, true, true, false, 0, false⟩, .v 8, .v 10, .fld z, z⟩ ⟨.f16, .rne, false⟩) ∧
  decode 0xBC510180A040E4D4 = .ok (.fscale ⟨⟨9, true, true, false, 0, false⟩, .v 8, .v 10, .fld (.v 12), z⟩ ⟨.f64, .rdn, false⟩) := by decide +kernel

theorem test_decode_lane : let z : Fld := .zero
  decode 0xAC510180A040E500 = .ok (.shfl ⟨⟨9, true, true, false, 0, false⟩, .v 8, .v 10, .fld (.v 12), z⟩ ⟨.down, 5, true⟩) ∧
  decode 0x4510180A040E504 = .ok (.bcast ⟨⟨9, true, true, false, 0, false⟩, .v 8, .v 10, .fld (.v 12), z⟩ true) ∧
  decode 0xC05128803010E508 = .ok (.vote ⟨⟨9, true, true, false, 0, false⟩, .pred 2, .pred 3, .fld z, z⟩ .uni) ∧
  decode 0xA1512880A040E50C = .ok (.sred ⟨⟨9, true, true, false, 0, false⟩, .v 8, .v 10, .fld z, z⟩ ⟨.f32, .add, .rup⟩) ∧
  decode 0x7A512880A040E510 = .ok (.sscan ⟨⟨9, true, true, false, 0, false⟩, .v 8, .v 10, .fld z, z⟩ ⟨.n64, .xor, .rne⟩) ∧
  decode 0x225100A0A040E550 = .ok (.cvt ⟨⟨9, true, true, false, 0, false⟩, .v 8, .v 10, .fld z, z⟩ ⟨.s16, .n32, true, .rne⟩) ∧
  decode 0x98510180A040E554 = .ok (.cvtpk ⟨⟨9, true, true, false, 0, false⟩, .v 8, .v 10, .fld (.v 12), z⟩ ⟨.bf16, .rup, false⟩) := by decide +kernel

theorem test_decode_memory : let z : Fld := .zero
  decode 0xA1D10180A040E580 = .ok (.ld ⟨⟨9, true, true, false, 0, false⟩, .v 8, .v 10, .fld (.v 12), z⟩ ⟨.pkg, .nllc, .n16⟩) ∧
  decode 0xA1838180AA20E584 = .ok (.st ⟨⟨9, true, true, false, 0, false⟩, z, .v 10, .fld (.v 12), .v 14⟩ ⟨.pkg, .nllc, .n16⟩) ∧
  decode 0xA1838180AA20E588 = .ok (.stRel ⟨⟨9, true, true, false, 0, false⟩, z, .v 10, .fld (.v 12), .v 14⟩ ⟨.pkg, .nllc, .n16⟩) ∧
  decode 0x5D10180A040E58C = .ok (.ldl ⟨⟨9, true, true, false, 0, false⟩, .v 8, .v 10, .fld (.v 12), z⟩ ⟨.grp, .all, .f64⟩) ∧
  decode 0x838180AA20E590 = .ok (.stl ⟨⟨9, true, true, false, 0, false⟩, z, .v 10, .fld (.v 12), .v 14⟩ ⟨.grp, .all, .n8⟩) ∧
  decode 0xC8510180AA20E594 = .ok (.pref ⟨⟨9, true, true, false, 0, false⟩, z, .v 10, .fld (.v 12), z⟩ ⟨.sys, .strm, .s8⟩) ∧
  decode 0x38180AA20E5A0 = .ok (.region ⟨⟨9, true, true, false, 0, false⟩, z, .v 10, .fld (.v 12), .v 14⟩) ∧
  decode 0x405101944A20E5A4 = .ok (.acq ⟨⟨9, true, true, false, 0, false⟩, z, z, .fld (.v 12), z⟩ .die) ∧
  decode 0x405128944A20E5A8 = .ok (.rel ⟨⟨9, true, true, false, 0, false⟩, z, z, .fld z, z⟩ .die) ∧
  decode 0x405128944A20E5AC = .ok (.fence ⟨⟨9, true, true, false, 0, false⟩, z, z, .fld z, z⟩ .die) := by decide +kernel

theorem test_decode_sync : let z : Fld := .zero
  decode 0xFB838180A040E600 = .ok (.atom ⟨⟨9, true, true, false, 0, false⟩, .v 8, .v 10, .fld (.v 12), .v 14⟩ ⟨.sys, .cas, .n64⟩) ∧
  decode 0x4D038180A040E604 = .ok (.atoml ⟨⟨9, true, true, false, 0, false⟩, .v 8, .v 10, .fld (.v 12), .v 14⟩ ⟨.die, .min, .f32⟩) ∧
  decode 0x32038180A040E608 = .ok (.atoms ⟨⟨9, true, true, false, 0, false⟩, .v 8, .v 10, .fld (.v 12), .v 14⟩ ⟨.grp, .exch, .s32⟩) ∧
  decode 0x38180AA20E620 = .ok (.wmap ⟨⟨9, true, true, false, 0, false⟩, z, .v 10, .fld (.v 12), .v 14⟩) ∧
  decode 0x512880AA20E624 = .ok (.wunmap ⟨⟨9, true, true, false, 0, false⟩, z, .v 10, .fld z, z⟩) ∧
  decode 0x512880AA20E628 = .ok (.wfill ⟨⟨9, true, true, false, 0, false⟩, z, .v 10, .fld z, z⟩) ∧
  decode 0x512880AA20E62C = .ok (.wdrain ⟨⟨9, true, true, false, 0, false⟩, z, .v 10, .fld z, z⟩) ∧
  decode 0x512880A040E630 = .ok (.wstat ⟨⟨9, true, true, false, 0, false⟩, .v 8, .v 10, .fld z, z⟩) ∧
  decode 0x510180AA20E640 = .ok (.barinit ⟨⟨9, true, true, false, 0, false⟩, z, .v 10, .fld (.v 12), z⟩ .sq) ∧
  decode 0x405101944040E644 = .ok (.bararv ⟨⟨9, true, true, false, 0, false⟩, .v 8, z, .fld (.v 12), z⟩ .wg) ∧
  decode 0x80510180A010E648 = .ok (.barwait ⟨⟨9, true, true, false, 0, false⟩, .pred 2, .v 10, .fld (.v 12), z⟩ .gang) ∧
  decode 0x405101944010E64C = .ok (.barsync ⟨⟨9, true, true, false, 0, false⟩, .pred 2, z, .fld (.v 12), z⟩ .wg) ∧
  decode 0x510180AA20E650 = .ok (.qcfg ⟨⟨9, true, true, false, 0, false⟩, z, .v 10, .fld (.v 12), z⟩) ∧
  decode 0x510180AA20E654 = .ok (.qpush ⟨⟨9, true, true, false, 0, false⟩, z, .v 10, .fld (.v 12), z⟩) ∧
  decode 0x5101944040E658 = .ok (.qpop ⟨⟨9, true, true, false, 0, false⟩, .v 8, z, .fld (.v 12), z⟩) ∧
  decode 0x510180AA20E660 = .ok (.copy ⟨⟨9, true, true, false, 0, false⟩, z, .v 10, .fld (.v 12), z⟩) ∧
  decode 0x5128944040E664 = .ok (.cbseal ⟨⟨9, true, true, false, 0, false⟩, .v 8, z, .fld z, z⟩) ∧
  decode 0x5101944A20E668 = .ok (.cbwait ⟨⟨9, true, true, false, 0, false⟩, z, z, .fld (.v 12), z⟩) ∧
  decode 0x5101944010E66C = .ok (.cbpoll ⟨⟨9, true, true, false, 0, false⟩, .pred 2, z, .fld (.v 12), z⟩) := by decide +kernel

theorem test_decode_matrix : let z : Fld := .zero
  decode 0x100000510180AA20E682 = .ok (.mald ⟨⟨9, true, true, false, 0, true⟩, z, .v 10, .fld (.v 12), z⟩ ⟨0, .tern, .dense, .s8, false, false, 0, 0x1000⟩) ∧
  decode 0x240000000000080000512880AA20E686 = .ok (.mwld ⟨⟨9, true, true, false, 0, true⟩, z, .v 10, .fld z, z⟩ ⟨0, .int8, .sp8, .s8, false, false, 0, 0x800⟩) ∧
  decode 0xC30000400000004000512880AA20E68A = .ok (.mstrm ⟨⟨9, true, true, false, 0, true⟩, z, .v 10, .fld z, z⟩ ⟨3, .tern, .dense, .s4, false, false, 64, 0x40⟩) ∧
  decode 0x800000000000000000D128944A20E68E = .ok (.macc ⟨⟨9, true, true, false, 0, true⟩, z, z, .fld z, z⟩ true ⟨2, .tern, .dense, .s8, false, false, 0, 0⟩) ∧
  decode 0x427000200000200000510180AA20E692 = .ok (.mdrn ⟨⟨9, true, true, false, 0, true⟩, z, .v 10, .fld (.v 12), z⟩ ⟨1, .tern, .dense, .bf16, true, true, 32, 0x2000⟩) ∧
  decode 0xC000000000000000005128944A20E696 = .ok (.mzero ⟨⟨9, true, true, false, 0, true⟩, z, z, .fld z, z⟩ ⟨3, .tern, .dense, .s8, false, false, 0, 0⟩) ∧
  decode 0x5128944A20E698 = .ok (.mqsc ⟨⟨9, true, true, false, 0, false⟩, z, z, .fld z, z⟩) ∧
  decode 0x4000000000000000005128944A20E69E = .ok (.mwait ⟨⟨9, true, true, false, 0, true⟩, z, z, .fld z, z⟩ ⟨1, .tern, .dense, .s8, false, false, 0, 0⟩) ∧
  decode 0x5128944040E6A0 = .ok (.mrmap ⟨⟨9, true, true, false, 0, false⟩, .v 8, z, .fld z, z⟩) := by decide +kernel

theorem test_decode_control : let z : Fld := .zero
  decode 0x5128944A200300 = .ok (.nop ⟨⟨0, false, false, false, 0, false⟩, z, z, .fld z, z⟩) ∧
  decode 0x40005128944A20E705 = .ok (.bra ⟨⟨9, true, true, false, 0, false⟩, z, z, .imm32 0x40, z⟩) ∧
  decode 0x512880AA20E708 = .ok (.brx ⟨⟨9, true, true, false, 0, false⟩, z, .v 10, .fld z, z⟩) ∧
  decode 0x40005128944A20E70D = .ok (.call ⟨⟨9, true, true, false, 0, false⟩, z, z, .imm32 0x40, z⟩) ∧
  decode 0x512880AA20E710 = .ok (.callx ⟨⟨9, true, true, false, 0, false⟩, z, .v 10, .fld z, z⟩) ∧
  decode 0x5128944A20E714 = .ok (.ret ⟨⟨9, true, true, false, 0, false⟩, z, z, .fld z, z⟩) ∧
  decode 0x5101944A20E718 = .ok (.exit ⟨⟨9, true, true, false, 0, false⟩, z, z, .fld (.v 12), z⟩) ∧
  decode 0x5128944A20E71C = .ok (.yield ⟨⟨9, true, true, false, 0, false⟩, z, z, .fld z, z⟩) ∧
  decode 0x401BD12880AA20E721 = .ok (.lpbeg ⟨⟨9, true, true, false, 0, false⟩, z, .v 10, .imm32 0x40, z⟩ ⟨1, true, 7⟩) ∧
  decode 0x15128944A20E724 = .ok (.lpbrk ⟨⟨9, true, true, false, 0, false⟩, z, z, .fld z, z⟩ 2) ∧
  decode 0x510180AA20E728 = .ok (.lpsave ⟨⟨9, true, true, false, 0, false⟩, z, .v 10, .fld (.v 12), z⟩) ∧
  decode 0x510180AA20E72C = .ok (.lprest ⟨⟨9, true, true, false, 0, false⟩, z, .v 10, .fld (.v 12), z⟩) := by decide +kernel

theorem test_decode_fabric : let z : Fld := .zero
  decode 0x74123456789ABCDE00038180AA20E782 = .ok (.trigpost ⟨⟨9, true, true, false, 0, true⟩, z, .v 10, .fld (.v 12), .v 14⟩ ⟨.red, .pkg, true, 0x123, 0x456, 0x789ABCDE⟩) ∧
  decode 0xC0510180AA20E784 = .ok (.tcadd ⟨⟨9, true, true, false, 0, false⟩, z, .v 10, .fld (.v 12), z⟩ .sys) ∧
  decode 0x512880A040E788 = .ok (.tcrd ⟨⟨9, true, true, false, 0, false⟩, .v 8, .v 10, .fld z, z⟩) ∧
  decode 0x510180AA20E78C = .ok (.tcwait ⟨⟨9, true, true, false, 0, false⟩, z, .v 10, .fld (.v 12), z⟩) ∧
  decode 0x510180AA20E790 = .ok (.tcset ⟨⟨9, true, true, false, 0, false⟩, z, .v 10, .fld (.v 12), z⟩) ∧
  decode 0x512880AA20E794 = .ok (.trigcan ⟨⟨9, true, true, false, 0, false⟩, z, .v 10, .fld z, z⟩) ∧
  decode 0x512880A040E798 = .ok (.trigprb ⟨⟨9, true, true, false, 0, false⟩, .v 8, .v 10, .fld z, z⟩) ∧
  decode 0x512880AA20E7A0 = .ok (.launch ⟨⟨9, true, true, false, 0, false⟩, z, .v 10, .fld z, z⟩) ∧
  decode 0x5101944A20E7A4 = .ok (.tready ⟨⟨9, true, true, false, 0, false⟩, z, z, .fld (.v 12), z⟩) ∧
  decode 0x5101944A20E7A8 = .ok (.tdec ⟨⟨9, true, true, false, 0, false⟩, z, z, .fld (.v 12), z⟩) ∧
  decode 0x5101944A20E7C0 = .ok (.trap ⟨⟨9, true, true, false, 0, false⟩, z, z, .fld (.v 12), z⟩) ∧
  decode 0x5128944A20E7C4 = .ok (.eret ⟨⟨9, true, true, false, 0, false⟩, z, z, .fld z, z⟩) ∧
  decode 0x5128944A20E7C8 = .ok (.bkpt ⟨⟨9, true, true, false, 0, false⟩, z, z, .fld z, z⟩) ∧
  decode 0x5101944040E7CC = .ok (.sysrd ⟨⟨9, true, true, false, 0, false⟩, .v 8, z, .fld (.v 12), z⟩) ∧
  decode 0x510180AA20E7D0 = .ok (.syswr ⟨⟨9, true, true, false, 0, false⟩, z, .v 10, .fld (.v 12), z⟩) ∧
  decode 0x512880AA20E7D4 = .ok (.shootdn ⟨⟨9, true, true, false, 0, false⟩, z, .v 10, .fld z, z⟩) ∧
  decode 0x510180AA20E7D8 = .ok (.cntcfg ⟨⟨9, true, true, false, 0, false⟩, z, .v 10, .fld (.v 12), z⟩) ∧
  decode 0x5101944040E7DC = .ok (.cntrd ⟨⟨9, true, true, false, 0, false⟩, .v 8, z, .fld (.v 12), z⟩) := by decide +kernel

/-- 05 R104, R107, R116, 06 R123 to R133: what the decoder refuses, with the number of the check: opcode 0, an unassigned code, a length that the row lacks, f32
with packed, an immediate beside a B register, a reserved policy, an operand code above 324, a latch destination of a load, a latch field of a load. -/
theorem test_decode_refuses : decode 0x0 = .bad 3 ∧
    decode 0xA05100A0403A0C78 = .bad 3 ∧
    decode 0x40512880A0400021 = .bad 3 ∧
    decode 0xA25100A0403A0C80 = .bad 4 ∧
    decode 0xA05100A0403A0C81 = .bad 4 ∧
    decode 0x40AA512880A0400181 = .bad 4 ∧
    decode 0x40510194A0400004 = .bad 5 ∧
    decode 0x4082512880AA080181 = .bad 5 ∧
    decode 0x4082512880A0420181 = .bad 5 := by decide +kernel

/-! ### Well-formed terms: each check refuses an ill-formed one -/

theorem test_wf_accepts : (Instr.add dab ⟨.s32, true, 0⟩).WellFormed = true ∧ (Instr.issueCk 0 0).WellFormed = true := by decide
theorem test_wf_length : (Instr.neg (ops (.v 8) (.v 10) .zero .zero true) ⟨.s32, false, 0⟩).WellFormed = false := by decide
theorem test_wf_form : (Instr.ld (ops (.v 8) (.v 10) .zero .zero true) ⟨.grp, .all, .s32⟩).WellFormed = false := by decide
theorem test_wf_function : (Instr.fadd dab ⟨.f32, .rne, true⟩).WellFormed = false := by decide
theorem test_wf_extension : (Instr.macc (ops .zero .zero .zero .zero true) true ⟨0, .tern, .dense, .s8, false, false, 1, 0⟩).WellFormed = false := by decide
theorem test_wf_immediate : (Instr.bra { ops .zero .zero .zero .zero with b := .imm32 2 }).WellFormed = false := by decide
theorem test_wf_operand : (Instr.ld (ops (.b 1) (.v 10) (.v 12) .zero) ⟨.grp, .all, .s32⟩).WellFormed = false := by decide


/-! ### Values of single steps (07 R136 to R156, the worked examples of 07, 08 and 09) -/

/-- The v registers of thread 0 after an instruction. -/
def after (i : Instr) (s : State) (l : List Nat) : Option (List Nat) := (nextOf (exec i s)).map fun r => l.map (r.readV t0 ·)
/-- v8 after an instruction with v10 = a, v12 = b. -/
def val8 (i : Instr) (a b : Nat) : Option (List Nat) := after i (one 0 [(10, a), (12, b)]) [8]

theorem test_add_wraps : val8 (.add dab ⟨.s32, false, 0⟩) 0x7FFFFFFF 1 = some [0x80000000] := by decide +kernel
theorem test_add_saturates : val8 (.add dab ⟨.s32, true, 0⟩) 0x7FFFFFFF 1 = some [0x7FFFFFFF] := by decide +kernel
theorem test_sub_natural_saturates : val8 (.sub dab ⟨.n8, true, 0⟩) 1 2 = some [0] := by decide +kernel
theorem test_mulhi_signed : val8 (.mulhi dab ⟨.s32, false, 0⟩) 0xFFFFFFFF 1 = some [0xFFFFFFFF] := by decide +kernel
theorem test_mulhi_natural : val8 (.mulhi dab ⟨.n32, false, 0⟩) 0xFFFFFFFF 2 = some [1] := by decide +kernel
theorem test_div_by_zero : val8 (.div dab ⟨.n32, false, 0⟩) 7 0 = some [0xFFFFFFFF] := by decide +kernel
theorem test_div_least : val8 (.div dab ⟨.s32, false, 0⟩) 0x80000000 0xFFFFFFFF = some [0x80000000] := by decide +kernel
theorem test_rem_toward_zero : val8 (.rem dab ⟨.s32, false, 0⟩) 0xFFFFFFF9 2 = some [0xFFFFFFFF] := by decide +kernel
theorem test_shl_past_width : val8 (.shl dab ⟨.n32, false, 0⟩) 1 32 = some [0] := by decide +kernel
theorem test_shr_past_width : val8 (.shr dab ⟨.s32, false, 0⟩) 0x80000000 200 = some [0xFFFFFFFF] := by decide +kernel
theorem test_clz_of_zero : val8 (.clz da ⟨.n32, false, 0⟩) 0 0 = some [32] := by decide +kernel
theorem test_lea_is_wide : after (.lea dab ⟨.s32, false, 3⟩) (one 0 [(10, 0), (11, 1), (12, 0xFFFFFFFF)]) [8, 9] = some [0xFFFFFFF8, 0] := by decide +kernel
theorem test_pair_source_is_destination : after (.add (ops (.v 8) (.v 8) (.v 8) .zero) ⟨.n64, false, 0⟩) (one 0 [(8, 0x80000001), (9, 1)]) [8, 9] =
    some [2, 3] := by decide +kernel
/-- The example after 07 R154. -/
theorem test_fadd_rounding : val8 (.fadd dab ⟨.f32, .rne, false⟩) 0x3F800000 0x33800000 = some [0x3F800000] ∧
    val8 (.fadd dab ⟨.f32, .rup, false⟩) 0x3F800000 0x33800000 = some [0x3F800001] := by decide +kernel
theorem test_fsub_negative_zero : val8 (.fsub dab ⟨.f32, .rdn, false⟩) 0x3F800000 0x3F800000 = some [0x80000000] := by decide +kernel
/-- 07 R155. -/
theorem test_cvt_clamps : val8 (.cvt da ⟨.s32, .f32, false, .rtz⟩) 0x4F32D05E 0 = some [2147483647] ∧
    val8 (.cvt da ⟨.s32, .f32, false, .rtz⟩) 0xC039999A 0 = some [0xFFFFFFFE] := by decide +kernel
theorem test_cvt_saturates : val8 (.cvt da ⟨.n8, .s32, false, .rne⟩) 300 0 = some [44] ∧ val8 (.cvt da ⟨.n8, .s32, true, .rne⟩) 300 0 = some [255] := by
  decide +kernel
/-- The example after 04 R99. -/
theorem test_block_sums : blockStep (blockStep 0 (2 ^ 20) 0x3F80 0x4180) 1 0x3F80 0x3F80 = rnd (.fin false 16777216 1) .f32 .rne := by decide +kernel
/-- The example after 02 R41: the first and the last back edge of a pipelined loop. -/
theorem test_loop_back_edge :
    let lc : Lc := { start := 0x400 / 4, stop := 0x410 / 4, len := 0, count := 4, feed := 3, stages := 2, rotate := true }
    let th : Thread := { pc := 0x410, depth := 1, lc0 := lc, preds := 0x0101 }
    (th.past 0x410 0x418).pc = 0x400 ∧ (th.past 0x410 0x418).rot = 63 ∧ ((th.past 0x410 0x418).lc 0).count = 3 ∧ (th.past 0x410 0x418).preds = 0x0301 := by
  decide +kernel
theorem test_loop_last_trip :
    let lc : Lc := { start := 0x400 / 4, stop := 0x410 / 4, len := 0, count := 1, feed := 0, stages := 2, rotate := true }
    let th : Thread := { pc := 0x410, depth := 1, rot := 61, lc0 := lc, preds := 0x0201 }
    (th.past 0x410 0x418).pc = 0x418 ∧ (th.past 0x410 0x418).depth = 0 ∧ (th.past 0x410 0x418).rot = 61 ∧ (th.past 0x410 0x418).preds = 0x0201 := by
  decide +kernel
/-- The example after 09 R219, at the PC 0x1000. -/
theorem test_call_links : after (.call { ops .zero .zero .zero .zero with b := .imm32 0x100 }) (one 0 [(0, 1)]) [0, 1] = some [0x100C, 0] := by decide +kernel

/-! ### Witnesses: decoding, memory, arithmetic -/

theorem test_witness_decodeOfEncode : (Instr.add dab ⟨.s32, true, 0⟩).WellFormed = true ∧ (Instr.add dab ⟨.s32, true, 0⟩).isEvent = false := by decide
/-- NOP of 05 R117 at the PC of thread 0, in its fetch block. -/
def fetching : State := (machine 0 1).withFetchWord 64 0x005128944A200300
def picked : Issue := { core := 0, slot := 0, pc := 0x1000, threads := [t0] }
theorem test_witness_stepRunsTheDecoded :
    let i : Instr := .nop (ops .zero .zero .zero .zero)
    fetching.picks = [picked] ∧ picked.threads = [t0] ∧
    ({ fetching with picks := [] } : State).fetchBlock t0 0x1000 = ({ fetching with picks := [] }, .inl 0x005128944A200300) ∧
    (0x005128944A200300 : Nat) % 4 ≠ 3 ∧ decode (0x005128944A200300 % 2 ^ 64) = .ok i := by decide +kernel
theorem test_witness_stepRunsTheNextStep : ({ machine 0 1 with agenda := [.issueCk 0 0] } : State).picks = [] ∧ (Instr.issueCk 0 0).isEvent = true ∧
    (machine 0 1).picks = [] ∧ (machine 0 1).agenda = [] := by decide +kernel
theorem test_witness_memoryStaysCanonical : fetching.Wf ∧ (nextOf (step fetching)).isSome = true :=
  ⟨show memWf fetching.mem = true by decide +kernel, by decide +kernel⟩

/-- Every instruction of the statements on arithmetic issues, with one thread of a Loam core, five of them, and one of a Marl core. -/
def sInt : IntFn := ⟨.s32, false, 0⟩
def nInt : IntFn := ⟨.n32, false, 0⟩
def fFlt : FltFn := ⟨.f32, .rne, false⟩
def pairs (l : List (Ops → Instr)) (o : Ops) : List (Instr × Ops) := l.map fun c => (c o, o)
def plainInt : List (List (Instr × Ops)) :=
  [pairs ([Instr.add, .sub, .mul, .mulhi, .div, .rem, .min, .max, .shl, .shr, .lea].map (fun c o => c o sInt)) dab,
   pairs ([Instr.and, .or, .xor, .andn, .rol].map (fun c o => c o nInt)) dab,
   pairs ([Instr.neg, .abs].map (fun c o => c o sInt)) da, pairs ([Instr.popc, .clz, .ctz, .brev].map (fun c o => c o nInt)) da,
   pairs ([Instr.mad, .bfx].map (fun c o => c o sInt)) dabc, pairs [fun o => Instr.bfi o nInt] dabc,
   pairs [fun o => Instr.cmp o ⟨.s32, false, 2⟩ .lt] pab, pairs [fun o => Instr.sel o nInt] (ops (.v 8) (.v 10) (.v 12) (.pred 3)),
   pairs [fun o => Instr.mov o nInt] (ops (.v 8) .zero (.v 12) .zero), pairs [fun o => Instr.plog o .xor] (ops (.pred 1) (.pred 2) (.pred 3) .zero)]
def plainFlt : List (List (Instr × Ops)) :=
  [pairs ([Instr.fadd, .fsub, .fmul, .fdiv, .fscale, .fmin, .fmax, .fcpsgn].map (fun c o => c o fFlt)) dab, pairs [fun o => Instr.ffma o fFlt] dabc,
   pairs ([Instr.fsqrt, .fabs, .fneg, .frint, .fclass, .frcp, .frsq, .fexp2, .flog2, .fsin, .fcos, .ftanh].map (fun c o => c o fFlt)) da,
   pairs [fun o => Instr.fcmp o ⟨.f32, .uno⟩] pab, pairs [fun o => Instr.cvt o ⟨.s32, .f32, false, .rtz⟩] da,
   pairs [fun o => Instr.cvtpk o ⟨.f16, .rne, false⟩] dab]
def plain : List (Instr × Ops) := plainInt.flatten ++ plainFlt.flatten
theorem issues_all {s : State} {g : Issue} {l : List (Instr × Ops)} (h : (l.all fun x => issuesB s g x.1 x.2) = true) : ∀ x ∈ l, Issues s g x.1 x.2 :=
  fun x hx => issues_of (List.all_eq_true.1 h x hx)
theorem test_witness_gives : ∀ x ∈ plain, Issues (machine 0 1) g0 x.1 x.2 := issues_all (by decide +kernel)
theorem test_witness_gives_group : ∀ x ∈ plain, Issues (machine 0 5) (group 0 5) x.1 x.2 := issues_all (by decide +kernel)
theorem test_witness_gives_marl : ∀ x ∈ plain, Issues (machine 256 1) (group 256 1) x.1 x.2 := issues_all (by decide +kernel)
/-- Exact sums: the operands' denominators are positive. -/
theorem test_witness_exactSums : 0 < (3 : Nat) ∧ 0 < (4 : Nat) ∧ 0 < (5 : Nat) := by decide

theorem test_witness_laneMoves : Together (machine 0 64) (group 0 64) (.shfl dab ⟨.up, 3, false⟩) dab (squadKey 0 0) ∧
    Together (machine 0 64) (group 0 64) (.bcast dab false) dab (squadKey 0 0) ∧
    Together (machine 0 64) (group 0 64) (.vote (ops (.v 8) (.pred 2) .zero .zero) .ballot) (ops (.v 8) (.pred 2) .zero .zero) (squadKey 0 0) ∧
    isMarl (group 0 64).core = false ∧ (group 0 64).threads = (List.range 64).map (threadKey (squadKey 0 0)) :=
  ⟨together_of (by decide +kernel), together_of (by decide +kernel), together_of (by decide +kernel), by decide +kernel, by decide +kernel⟩
theorem test_witness_laneMoves_marl : isMarl 256 = true ∧ (group 256 1).threads = [tid 256] ∧
    Together (machine 256 1) (group 256 1) (.shfl dab ⟨.xor, 3, true⟩) dab (squadKey 256 0) ∧
    Together (machine 256 1) (group 256 1) (.bcast dab true) dab (squadKey 256 0) :=
  ⟨by decide +kernel, by decide +kernel, together_of (by decide +kernel), together_of (by decide +kernel)⟩
theorem test_witness_laneSums : Together (machine 0 64) (group 0 64) (.sred da ⟨.f32, .add, .rne⟩) da (squadKey 0 0) ∧
    Together (machine 0 64) (group 0 64) (.sscan da ⟨.f32, .add, .rne⟩) da (squadKey 0 0) ∧
    Together (machine 256 1) (group 256 1) (.sred da ⟨.s32, .min, .rne⟩) da (squadKey 256 0) ∧
    Together (machine 256 1) (group 256 1) (.sscan da ⟨.s32, .min, .rne⟩) da (squadKey 256 0) :=
  ⟨together_of (by decide +kernel), together_of (by decide +kernel), together_of (by decide +kernel), together_of (by decide +kernel)⟩


/-! ### Witnesses: memory -/

theorem alone_all {s : State} {g : Issue} {t : Nat} {l : List (Instr × Ops)}
    (h : (l.all fun x => issuesB s g x.1 x.2 && decide (g.threads = [t]) && (s.thread t).guard x.2.h) = true) : ∀ x ∈ l, Alone s g x.1 x.2 t :=
  fun x hx => alone_of (List.all_eq_true.1 h x hx)

/-- A, B and C named, no destination. -/
def xab : Ops := ops .zero (.v 10) (.v 12) .zero
def xabc : Ops := ops .zero (.v 10) (.v 12) (.v 14)
def word : MemFn := ⟨.grp, .all, .n32⟩
def wide : MemFn := ⟨.die, .all, .n64⟩

/-- Words that the thread of a core's own level and its agent at the home own. -/
def own (s : State) (core : Nat) (ws : List Nat) : State :=
  let x := s.who (tid core)
  ws.foldl (fun s w =>
    let s := s.setCopy x.level w { val := BitVec.ofNat 32 (0x80000000 + w), owned := true, holder := x.holder }
    let s := if isMarl core then s else s.setCopy (l2Level (dieOf core)) w { val := 5, owned := true, holder := clusterOf core % 8 }
    s.register w x.agent) s
/-- The conditions of Holds as a Bool. -/
def holdsB (s : State) (x : Who) (w : Nat) : Bool :=
  (match s.copy x.level w with | some c => c.owned && !c.pend && decide (c.holder = x.holder) && decide (c.win = none) | none => false) &&
  (match s.ownerOf w with | some e => decide (e.agent = x.agent) | none => false) &&
  (isMarl x.core || match s.copy (l2Level (dieOf x.core)) w with | some d => d.owned && decide (d.holder = clusterOf x.core % 8) | none => false) &&
  decide (pkgOf x.core < 64 ∧ numOf x.core < 352)
theorem holds_of {s : State} {x : Who} {w : Nat} (h : holdsB s x w = true) : Holds s x w := by
  simp only [holdsB, Bool.and_eq_true, Bool.or_eq_true] at h
  obtain ⟨⟨⟨h1, h2⟩, h3⟩, h4⟩ := h
  refine ⟨of_decide_eq_true h4, ?_, ?_, fun hm => ?_⟩
  · revert h1
    split
    · intro h; simp only [Bool.and_eq_true, Bool.not_eq_true', decide_eq_true_eq] at h
      exact ⟨_, ‹_›, h.1.1.1, h.1.1.2, h.1.2, h.2⟩
    · intro h; cases h
  · revert h2
    split
    · intro h; exact ⟨_, ‹_›, of_decide_eq_true h⟩
    · intro h; cases h
  · rw [hm] at h3
    revert h3
    split
    · intro h; simp only [Bool.false_eq_true, false_or, Bool.and_eq_true, decide_eq_true_eq] at h
      exact ⟨_, ‹_›, h⟩
    · intro h; simp at h
theorem holds_all {s : State} {x : Who} {l : List Item} (h : (l.all fun j => holdsB s x j.w) = true) : ∀ j ∈ l, Holds s x j.w :=
  fun j hj => holds_of (List.all_eq_true.1 h j hj)
theorem msg_of_empty {s : State} (h : s.msgs = []) (k : Nat) : s.msg k = none := by simp [State.msg, h, tget?]

def local1 : State := (one 0 [(10, 0x100), (14, 7)]).scratchWrite (scratchKey 0 0x100) 8 0xF1E2D3C4B5A69788
theorem test_witness_localMemory :
    (∀ x ∈ [(Instr.ldl dab word, dab), (.stl xabc word, xabc), (.atoms dabc ⟨.grp, .add, .n32⟩, dabc)],
      Alone local1 g0 x.1 x.2 t0) ∧
    local1.hole = false ∧ (local1.thread t0).fresh ∧ isMarl g0.core = false ∧
    (∀ x ∈ [(Instr.ldl dab word, dab), (.stl xabc word, xabc), (.atoms dabc ⟨.grp, .add, .n32⟩, dabc)], local1.localAddr g0 t0 x.1 x.2 = 0x100) ∧
    (4 : Int) ∣ 0x100 ∧ local1.gangCore g0.core 0 = some 0 ∧ local1.pinForeign 0 0x100 (local1.ctxKey t0) = false ∧ local1.windowAt 0 0x100 = none :=
  ⟨alone_all (by decide +kernel), by decide +kernel, ⟨by decide +kernel, by decide +kernel⟩, by decide +kernel, by decide +kernel, by decide, by decide +kernel,
    by decide +kernel, by decide +kernel⟩
/-- 08 R179: the old value is written to D, the sum to the scratchpad. -/
theorem test_atoms_adds : (nextOf (exec (.atoms dabc ⟨.grp, .add, .n32⟩) local1)).map (fun r => (r.readV t0 8, r.scratchRead (scratchKey 0 0x100) 4)) =
    some (0xB5A69788, 0xB5A6978F) := by decide +kernel

/-- The address 0x10100 in v10, its words owned; the state after its translation, to 0x20100. -/
def owning (core : Nat) : State := own (one core [(10, 0x10100), (14, 0xDEADBEEF), (15, 0x12345678)]) core [0x8040, 0x8041]
def after' (core : Nat) (write : Bool) : State × (Target ⊕ Nat) :=
  let x := (owning core).who (tid core)
  ((owning core).begun (group core 1)).translate x.ctx (tcPath x.core) 0x10100 { user := x.user, write := write }
theorem owning_translates (core : Nat) (write : Bool) (h : core = 0 ∨ core = 256) : after' core write = ((after' core write).1, .inl (.cached 0x20100)) :=
  Prod.ext rfl (by rcases h with rfl | rfl <;> cases write <;> decide +kernel)
/-- Loads, stores and atomics of those words. -/
def accesses : List (Instr × Ops) :=
  [(.st xabc ⟨.die, .nl1, .n64⟩, xabc), (.stRel xabc ⟨.die, .nllc, .n64⟩, xabc), (.ld dab word, dab), (.ld dab wide, dab), (.st xabc word, xabc), (.stRel xabc wide, xabc), (.atom dabc ⟨.grp, .cas, .n64⟩, dabc), (.atoml dabc ⟨.grp, .add, .n32⟩, dabc)]
theorem accesses_alone (core : Nat) (h : core = 0 ∨ core = 256) : ∀ x ∈ accesses, Alone (owning core) (group core 1) x.1 x.2 (tid core) := by
  rcases h with rfl | rfl <;> exact alone_all (by decide +kernel)
theorem accesses_at (core : Nat) (h : core = 0 ∨ core = 256) :
    ∀ x ∈ accesses, (owning core).globalAddr (group core 1) (tid core) x.1 x.2 = 0x10100 := by
  rcases h with rfl | rfl <;> decide +kernel
/-- 00 R3: few words and lines leave room for two more words at every level. -/
theorem roomy {s : State} (hc : s.copies.length ≤ 64) (hp : s.pinned.length ≤ 64) (ho : s.owners.length ≤ 64) :
    ∀ level k, levelRoom level = some k → ∀ w, s.occupied level w + 2 ≤ k := by
  intro level k hk w
  have h1 := List.length_filter_le (fun c : Nat × Copy => decide (c.1 / 2 ^ 50 = level) && decide (c.2.win = none) && sharesRoom level w (c.1 % 2 ^ 50)) s.copies
  have h2 := List.length_filter_le (fun c : Nat × Word => decide (c.1 / 2 ^ 50 = level - 4096)) s.pinned
  have h3 : (s.ownedLines (level - 8192) w).length ≤ s.owners.length := by
    rw [State.ownedLines, List.length_map]; exact List.length_filter_le _ _
  have h4 : s.occupied level w ≤ 64 + 64 + 16 * 64 := by
    unfold State.occupied
    split <;> split <;> omega
  unfold levelRoom at hk
  split at hk <;> [skip; split at hk <;> [skip; split at hk]] <;> simp at hk <;> omega
/-- 03 R58: the words of 0x20100 are found at the requester's level. -/
theorem test_witness_load (core : Nat) (h : core = 0 ∨ core = 256) : (8 : Nat) ∣ 0x10100 ∧ ((owning core).thread (tid core)).fresh ∧
    (after' core false).1.hole = false ∧ (after' core false).1.overlaps (tid core) ((itemsOf 0x20100 8 0).map (·.w)) = false ∧
    (after' core false).1.lookup ((owning core).who (tid core)) (itemsOf 0x20100 8 0) .die = .hit 0 [0x80008040, 0x80008041] ∧
    (∀ x ∈ [Policy.all, .strm, .nl1, .nl2, .nllc].map (fun pol => (Instr.ld dab ⟨.die, pol, .n64⟩, dab)), Alone (owning core) (group core 1) x.1 x.2 (tid core)) ∧
    (∀ level k, levelRoom level = some k → ∀ w, (after' core false).1.occupied level w + 2 ≤ k) := by
  refine ⟨by decide, ⟨?_, ?_⟩, ?_, ?_, ?_, alone_all ?_, roomy ?_ ?_ ?_⟩ <;> rcases h with rfl | rfl <;> decide +kernel
/-- A store of both words, and a store-release at DIE: the state after the release. -/
def released (core : Nat) : State := (after' core true).1.doRelease (tid core) .die
theorem test_witness_store (core : Nat) (h : core = 0 ∨ core = 256) : (8 : Nat) ∣ 0x20100 ∧ (after' core true).1.hole = false ∧
    (owning core).overlaps (tid core) ((itemsOf 0x20100 8 0).map (·.w)) = false ∧
    (after' core true).1.overlaps (tid core) ((itemsOf 0x20100 8 0).map (·.w)) = false ∧
    (after' core true).1.wbPending ((owning core).who (tid core)).agent ((itemsOf 0x20100 8 0).map (·.w)) = false ∧
    (after' core true).1.releaseReady (tid core) .die = true ∧
    (∀ j ∈ itemsOf 0x20100 8 0, Holds (after' core true).1 ((owning core).who (tid core)) j.w) ∧
    (∀ j ∈ itemsOf 0x20100 8 0, Holds (released core) ((owning core).who (tid core)) j.w) ∧
    (∀ k, (after' core true).1.msg k = none) ∧ (∀ k, (released core).msg k = none) ∧
    ∀ j ∈ itemsOf 0x20100 8 0, tget? (released core).pinned (copyKey (dieOf ((owning core).who (tid core)).core) j.w) = none := by
  refine ⟨by decide, ?_, ?_, ?_, ?_, ?_, holds_all ?_, holds_all ?_, msg_of_empty ?_, msg_of_empty ?_, ?_⟩ <;> rcases h with rfl | rfl <;> decide +kernel
/-- 08 R177: the example after R177's rule: ATOM returns the old value and leaves the sum. -/
theorem test_atom_adds : (nextOf (exec (.atom dabc ⟨.grp, .add, .n32⟩) (own (one 0 [(10, 0x10100), (14, 5)]) 0 [0x8040]))).map
    (fun r => (r.readV t0 8, r.wordVal 0x8040)) = some (0x80008040, 0x80008045) := by decide +kernel

/-- PREF: at a page that is not mapped; where every word of the sector is held; where none is. -/
def pref : MemFn := ⟨.die, .all, .s8⟩
def sector (core : Nat) (ws : List Nat) : State := own (one core [(10, 0x10100)]) core ws
def sector' (core : Nat) (ws : List Nat) : State × (Target ⊕ Nat) :=
  let x := (sector core ws).who (tid core)
  ((sector core ws).begun (group core 1)).translate x.ctx (tcPath x.core) 0x10100 { user := x.user }
theorem test_witness_prefetch (core : Nat) (h : core = 0 ∨ core = 256) :
    Alone (sector core []) (group core 1) (.pref xab pref) xab (tid core) ∧
    (sector core []).globalAddr (group core 1) (tid core) (.pref xab pref) xab = 0x10100 ∧
    (sector' core []).1.hole = false ∧ (sector' core []).2 = .inl (.cached 0x20100) ∧
    (((List.range 8).map fun j => 0x8040 + j).filter fun w => (sector' core []).1.find ((sector core []).who (tid core)) w 15 .die = .miss) ≠ [] := by
  refine ⟨alone_of ?_, ?_, ?_, ?_, ?_⟩ <;> rcases h with rfl | rfl <;> decide +kernel
theorem test_witness_prefetch_held : let ws := (List.range 8).map fun j => 0x8040 + j
    Alone (sector 0 ws) g0 (.pref xab pref) xab t0 ∧ (sector' 0 ws).2 = .inl (.cached 0x20100) ∧ (sector' 0 ws).1.hole = false ∧
    (ws.filter fun w => (sector' 0 ws).1.find ((sector 0 ws).who t0) w 15 .die = .miss) = [] :=
  ⟨alone_of (by decide +kernel), by decide +kernel, by decide +kernel, by decide +kernel⟩
def unmapped : State := one 0 [(10, 0x900000)]
theorem test_witness_prefetch_nowhere : Alone unmapped g0 (.pref xab pref) xab t0 ∧
    ((unmapped.begun g0).translate (unmapped.who t0).ctx (tcPath 0) (unmapped.globalAddr g0 t0 (.pref xab pref) xab) { user := (unmapped.who t0).user }).2 = .inr 2 ∧
    ((unmapped.begun g0).translate (unmapped.who t0).ctx (tcPath 0) (unmapped.globalAddr g0 t0 (.pref xab pref) xab) { user := (unmapped.who t0).user }).1.hole = false :=
  ⟨alone_of (by decide +kernel), by decide +kernel, by decide +kernel⟩
def regional : State := one 0 [(10, 3), (12, 0x4000), (14, 0x200)]
def regional' (ms : List (Nat × Nat × Nat × Nat × Nat × Nat)) : State := { regional.modThread t0 fun th => { th with phase := 1 } with regionMsgs := ms }
theorem test_witness_region : Alone regional g0 (.region xabc) xabc t0 ∧ (regional.thread t0).phase ≠ 1 ∧ regional.srcA g0 t0 (.region xabc) xabc ≤ 62 ∧
    256 ∣ regional.srcB g0 t0 (.region xabc) xabc.b ∧ 256 ∣ regional.srcC g0 t0 (.region xabc) xabc ∧
    Alone (regional' []) g0 (.region xabc) xabc t0 ∧ ((regional' []).thread t0).phase = 1 ∧ (∀ m ∈ (regional' []).regionMsgs, m.2.2.2.2.2 ≠ t0) ∧
    Alone (regional' [(0, 0, 3, 0x4000, 0x200, t0)]) g0 (.region xabc) xabc t0 ∧
    (∃ m ∈ (regional' [(0, 0, 3, 0x4000, 0x200, t0)]).regionMsgs, m.2.2.2.2.2 = t0) :=
  ⟨alone_of (by decide +kernel), by decide +kernel, by decide +kernel, by decide +kernel, by decide +kernel, alone_of (by decide +kernel),
    by decide +kernel, by decide +kernel, alone_of (by decide +kernel), ⟨(0, 0, 3, 0x4000, 0x200, t0), by decide +kernel, rfl⟩⟩
theorem test_witness_regionTaken : ((regional' [(0, 0, 3, 0x4000, 0x200, t0), (1, 0, 3, 0x4000, 0x200, t0)]).regionMsgs.filter fun m =>
    m.1 = 0 ∧ m.2.1 = 0 ∧ m.2.2.1 = 3) = [(0, 0, 3, 0x4000, 0x200, t0)] := by decide +kernel

/-- ACQ, REL and FENCE. -/
def xb : Ops := ops .zero .zero (.v 12) .zero
def none' : Ops := ops .zero .zero .zero .zero
theorem test_witness_acquire (core : Nat) (h : core = 0 ∨ core = 256) (sc : Scope) :
    Alone (one core [(12, 0x8000000A)]) (group core 1) (.acq xb sc) xb (tid core) ∧ (one core [(12, 0x8000000A)]).loadsPending (tid core) = false ∧
    (one core [(12, 0x8000000A)]).fillsPending core 0 0x8000000A = false := by
  refine ⟨alone_of ?_, ?_, ?_⟩ <;> cases sc <;> rcases h with rfl | rfl <;> decide +kernel
theorem test_witness_release (core : Nat) (h : core = 0 ∨ core = 256) (sc : Scope) : (one core []).hole = false ∧
    Alone (one core []) (group core 1) (.rel none' sc) none' (tid core) ∧ Alone (one core []) (group core 1) (.fence none' sc) none' (tid core) ∧
    (one core []).loadsPending (tid core) = false ∧ (one core []).releaseReady (tid core) sc = true := by
  refine ⟨?_, alone_of ?_, alone_of ?_, ?_, ?_⟩ <;> cases sc <;> rcases h with rfl | rfl <;> decide +kernel
def unreleased : State := { (one 0 []).modThread t0 fun th => { th with pending := [90] } with msgs := [(90, { kind := .wb, src := 0, dst := 65536, agent := 0 })] }
theorem test_witness_release_waits : Alone unreleased g0 (.rel none' .die) none' t0 ∧ unreleased.releaseReady t0 .die = false :=
  ⟨alone_of (by decide +kernel), by decide +kernel⟩

/-! ### Witnesses: windows, barriers, queues, copies -/

/-- Slot 3 of core 0 bound to the local range 0x8000 of 0x100 bytes, over 0x10000. -/
def slot3 (st : WinState) (owned : List Nat) : Window :=
  { st := st, off := 0x8000, size := 0x100, base := 0x10000, filler := 7, present := owned.map fun w => (w, 1), owned := owned }
def windowed (st : WinState) (owned : List Nat) (l : List (Nat × Nat)) : State :=
  owned.foldl (fun s w => s.setCopy 0 (0x8000 + w) { owned := true, win := some (scratchKey 0 (0x8000 + 4 * w)) })
    ((one 0 l).modWindow 0 3 fun _ => slot3 st owned)
/-- Operands of WMAP: 0x1000 bytes at the local offset 0x8000, and size 0. -/
def mapping (size : Nat) : State := one 0 [(10, 0x10000), (11, 0), (12, 0x8000), (14, size + 3)]
theorem test_witness_wmap : Alone (mapping 0x1000) g0 (.wmap xabc) xabc t0 ∧ (mapping 0x1000).srcC g0 t0 (.wmap xabc) xabc = 0x1003 ∧
    0x1003 / 32 % 8 = 0 ∧ ((mapping 0x1000).window 0 3).st = .unbound ∧ (mapping 0x1000).wmapOk 0 3 0x10000 0x8000 0x1000 = true ∧
    (mapping 0x1000).srcA g0 t0 (.wmap xabc) xabc = 0x10000 ∧ (mapping 0x1000).srcB g0 t0 (.wmap xabc) xabc.b = 0x8000 ∧
    Alone (mapping 0) g0 (.wmap xabc) xabc t0 ∧ (mapping 0).srcC g0 t0 (.wmap xabc) xabc / 256 * 256 = 0 ∧ ((mapping 0).window 0 3).st = .unbound :=
  ⟨alone_of (by decide +kernel), by decide +kernel, by decide, by decide +kernel, by decide +kernel, by decide +kernel, by decide +kernel,
    alone_of (by decide +kernel), by decide +kernel, by decide +kernel⟩
/-- A window in each state whose slot number stands in v10. -/
theorem windowed_alone (i : Ops → Instr) (o : Ops) (st : WinState) (owned : List Nat)
    (h : (issuesB (windowed st owned [(10, 3)]) g0 (i o) o && decide (g0.threads = [t0]) && ((windowed st owned [(10, 3)]).thread t0).guard o.h) = true) :
    Alone (windowed st owned [(10, 3)]) g0 (i o) o t0 := alone_of h
def filled (st : WinState) : State :=
  (((windowed st [] [(10, 3)]).begun g0).modWindow 0 3 fun x => { x with st := .filling, filler := t0, fillLeft := List.range (0x100 / 32) }).pumpFill 0 3 (0x100 / 32)
theorem test_witness_wfill (st : WinState) (h : st = .empty ∨ st = .filling ∨ st = .full) : Alone (windowed st [] [(10, 3)]) g0 (.wfill xa) xa t0 ∧
    (windowed st [] [(10, 3)]).srcA g0 t0 (.wfill xa) xa = 3 ∧ (windowed st [] [(10, 3)]).hole = false ∧ (filled st).hole = false ∧
    ((windowed st [] [(10, 3)]).window 0 3).st = st ∧ ((windowed st [] [(10, 3)]).window 0 3).size = 0x100 := by
  refine ⟨windowed_alone .wfill xa st [] ?_, ?_, ?_, ?_, ?_, ?_⟩ <;> rcases h with rfl | rfl | rfl <;> decide +kernel
theorem test_witness_wdrain (st : WinState) (h : st = .empty ∨ st = .full ∨ st = .draining) : Alone (windowed st [3, 4, 9] [(10, 3)]) g0 (.wdrain xa) xa t0 ∧
    (windowed st [3, 4, 9] [(10, 3)]).srcA g0 t0 (.wdrain xa) xa = 3 ∧ (windowed st [3, 4, 9] [(10, 3)]).hole = false ∧
    ((windowed st [3, 4, 9] [(10, 3)]).window 0 3).st = st := by
  refine ⟨windowed_alone .wdrain xa st _ ?_, ?_, ?_, ?_⟩ <;> rcases h with rfl | rfl | rfl <;> decide +kernel
/-- 08 R184: a drain sends one write-back for each run of owned words. -/
theorem test_wdrain_runs : (nextOf (exec (.wdrain xa) (windowed .full [3, 4, 9] [(10, 3)]))).map (fun r => (r.nextId, (r.window 0 3).st)) =
    some (102, .draining) := by decide +kernel
theorem test_witness_wunmap (st : WinState) (h : st = .empty ∨ st = .full) : Alone (windowed st [] [(10, 3)]) g0 (.wunmap xa) xa t0 ∧
    (windowed st [] [(10, 3)]).srcA g0 t0 (.wunmap xa) xa = 3 ∧ (windowed st [] [(10, 3)]).windowPending 0 3 = false ∧
    (windowed st [] [(10, 3)]).ownedWords 0 3 = [] ∧ ((windowed st [] [(10, 3)]).window 0 3).st = st ∧
    Alone (windowed st [] [(10, 3)]) g0 (.wstat da) da t0 ∧ (windowed st [] [(10, 3)]).srcA g0 t0 (.wstat da) da = 3 := by
  refine ⟨windowed_alone .wunmap xa st _ ?_, ?_, ?_, ?_, ?_, windowed_alone .wstat da st _ ?_, ?_⟩ <;> rcases h with rfl | rfl <;> decide +kernel
/-- WUNMAP of a window that fills or drains; of one that is UNBOUND by the time the thread, which waited, executes again. -/
theorem test_witness_wunmap_waits (st : WinState) (h : st = .filling ∨ st = .draining) : Alone (windowed st [] [(10, 3)]) g0 (.wunmap xa) xa t0 ∧
    (windowed st [] [(10, 3)]).srcA g0 t0 (.wunmap xa) xa = 3 ∧ (windowed st [] [(10, 3)]).hole = false ∧ ((windowed st [] [(10, 3)]).window 0 3).st = st := by
  refine ⟨windowed_alone .wunmap xa st _ ?_, ?_, ?_, ?_⟩ <;> rcases h with rfl | rfl <;> decide +kernel
def unbound : State := (windowed .unbound [] [(10, 3)]).modThread t0 fun th => { th with phase := 1 }
theorem test_witness_wunmap_over : Alone unbound g0 (.wunmap xa) xa t0 ∧ unbound.srcA g0 t0 (.wunmap xa) xa = 3 ∧ unbound.hole = false ∧
    (unbound.thread t0).phase = 1 ∧ (unbound.window 0 3).st = .unbound :=
  ⟨alone_of (by decide +kernel), by decide +kernel, by decide +kernel, by decide +kernel, by decide +kernel⟩
/-- 08 R186, the example after R186: one owned word of an EMPTY window. -/
theorem test_wstat : (nextOf (exec (.wstat da) (windowed .empty [8] [(10, 3)]))).map (·.readV t0 8) = some 0x101 := by decide +kernel
/-- A fill and a drain that are over; the answer of a sector's fetch. -/
def fetched : State :=
  { (windowed .filling [] []).modWindow 0 3 fun w => { w with fills := [90] } with
    msgs := [(90, { kind := .load, src := 0, dst := 65536, agent := 0, st := .answered, client := .window 0 3, win := some (scratchKey 0 0x8000),
                    items := [{ w := 0x8001, bm := 15 }], ans := [0x1234], region := 2 })] }
theorem test_witness_windowEnds : (windowed .filling [] []).hole = false ∧ ((windowed .filling [] []).window 0 3).st = .filling ∧
    (∀ id ∈ ((windowed .filling [] []).window 0 3).fills, (windowed .filling [] []).live id = false) ∧ ((windowed .filling [] []).window 0 3).fillLeft = [] ∧
    ((windowed .draining [] []).window 0 3).st = .draining ∧ ((windowed .draining [] []).window 0 3).drains = [] ∧
    (windowed .draining [] []).windowPending 0 3 = false ∧ (windowed .draining [] []).ownedWords 0 3 = [] := by decide +kernel
theorem test_witness_sectorFetch : fetched.hole = false ∧
    (fetched.msg 90).map (fun x => decide (x.client = .window 0 3 ∧ x.win = some (scratchKey 0 0x8000) ∧ x.st = .answered ∧ x.away = false ∧ x.negative = false ∧
      x.items = [{ w := 0x8001, bm := 15 }] ∧ x.ans = [0x1234])) = some true ∧
    ((fetched.copy (l2Level 0) 0x8001).all fun c => !c.owned) = true ∧ ((fetched.copy 0 0x8001).all fun c => !c.owned && !c.pend) = true ∧
    (fetched.window 0 3).fillLeft = [] ∧ 90 ∈ (fetched.window 0 3).fills ∧ scratchKey 0 0x8000 / 2 ^ 21 = 0 ∧ (fetched.window 0 3).off ≤ scratchKey 0 0x8000 % 2 ^ 21 ∧
    tget? (fetched.window 0 3).present ((scratchKey 0 0x8000 % 2 ^ 21 - (fetched.window 0 3).off) / 4 + 0x8001 % 8) = none := by decide +kernel

/-- A barrier 7 of a core, with a count or token in v10 and its number in v12. -/
def barred (core n : Nat) (lvl : Level) (b : Barrier) (a : Nat) : State :=
  let s := (group core n).threads.foldl (fun s t => s.withV t [(10, a), (12, 7)]) (machine core n)
  s.setBar (s.barCore core lvl) 7 b
def db : Ops := ops (.v 8) .zero (.v 12) .zero
def pb : Ops := ops (.pred 2) .zero (.v 12) .zero
theorem test_witness_barriers (lvl : Level) (h : lvl = .wg ∨ lvl = .gang) : let s := barred 0 1 lvl { expected := 2, phase := 0xFFFF } 5
    Alone s g0 (.barinit xab lvl) xab t0 ∧ Alone s g0 (.bararv db lvl) db t0 ∧ Alone s g0 (.barwait pab lvl) pab t0 ∧ Alone s g0 (.barsync pb lvl) pb t0 ∧
    (∀ o ∈ [xab, db, pab, pb], s.srcB g0 t0 (.barsync o lvl) o.b = 7) ∧ s.srcA g0 t0 (.barinit xab lvl) xab = 5 ∧ s.releaseReady t0 .grp = true ∧
    (s.bar (s.barCore 0 lvl) 7).expected = 2 ∧ (s.bar (s.barCore 0 lvl) 7).arrivals = 0 ∧ (s.thread t0).phase ≠ 2 ∧
    (s.bar (s.barCore 0 lvl) 7).arrivals + 1 ≠ (s.bar (s.barCore 0 lvl) 7).expected := by
  refine ⟨alone_of ?_, alone_of ?_, alone_of ?_, alone_of ?_, ?_⟩ <;> rcases h with rfl | rfl <;> decide +kernel
/-- The last arrival; a wait on the phase that stands. -/
theorem test_witness_lastArrival : let s := barred 0 1 .wg { expected := 2, phase := 0xFFFF, arrivals := 1 } 0xFFFF
    Alone s g0 (.barsync pb .wg) pb t0 ∧ Alone s g0 (.barwait pab .wg) pab t0 ∧ (s.bar 0 7).arrivals + 1 = (s.bar 0 7).expected ∧
    ((s.bar 0 7).phase + 2 ^ 16 - s.srcA g0 t0 (.barwait pab .wg) pab % 2 ^ 16) % 2 ^ 16 = 0 :=
  ⟨alone_of (by decide +kernel), alone_of (by decide +kernel), by decide +kernel, by decide +kernel⟩
/-- The example after 08 R191: phase 8 and token 0x8005 give 0x8003. -/
theorem test_barwait_stale : (nextOf (exec (.barwait pab .wg) (barred 0 1 .wg { expected := 2, phase := 8 } 0x8005))).map
    (fun r => (r.thread t0).preds.getLsbD 2) = some true ∧
    (nextOf (exec (.barwait pab .wg) (barred 0 1 .wg { expected := 2, phase := 8 } 8))).map (fun r => (r.thread t0).run) = some (.blocked (.barrier 0 7 8)) := by
  decide +kernel
theorem test_witness_squadBarriers : let s := barred 0 64 .sq { expected := 2, phase := 5, arrivals := 0 } 3
    let g := group 0 64
    let q := squadKey 0 0
    Together s g (.barinit xab .sq) xab q ∧ Together s g (.bararv db .sq) db q ∧ Together s g (.barwait pab .sq) pab q ∧
    (∀ t ∈ g.threads, s.releaseReady t .grp = true ∧ (s.thread t).phase ≠ 2) ∧ (s.guarded g xab).head? = some t0 ∧ s.srcB g t0 (.barinit xab .sq) xab.b = 7 ∧
    (s.bar 0 7).arrivals = 0 ∧ (s.bar 0 7).expected ≠ 0 ∧ s.srcA g t0 (.barinit xab .sq) xab = 3 ∧ (s.bar 0 7).phase = 5 :=
  ⟨together_of (by decide +kernel), together_of (by decide +kernel), together_of (by decide +kernel), by decide +kernel, by decide +kernel, by decide +kernel,
    by decide +kernel, by decide +kernel, by decide +kernel, by decide +kernel⟩
theorem test_witness_squadLast : let s := barred 0 64 .sq { expected := 2, phase := 5, arrivals := 1 } 3
    Together s (group 0 64) (.barsync pb .sq) pb (squadKey 0 0) ∧ (s.bar 0 7).phase < 2 ^ 16 ∧ (s.bar 0 7).arrivals + 1 = (s.bar 0 7).expected :=
  ⟨together_of (by decide +kernel), by decide +kernel, by decide +kernel⟩

/-- Queue 5 of the cluster, held by the gang. -/
def queued (x : Queue) (a : Nat) : State :=
  let s := { one 0 [(10, a % 2 ^ 32), (11, a / 2 ^ 32), (12, 5)] with queueHolder := [(0, 1)] }
  s.setQueue 5 x
theorem test_witness_qcfg : let s := queued {} (0x100 + 4 * 2 ^ 32)
    Alone s g0 (.qcfg xab) xab t0 ∧ s.srcB g0 t0 (.qcfg xab) xab.b = 5 ∧ s.queueKey 0 5 = some 5 ∧ (s.queue 5).tail = 0 ∧ (s.queue 5).waiters = [] ∧
    s.srcA g0 t0 (.qcfg xab) xab = 0x100 + 4 * 2 ^ 32 ∧ s.ringTrap 0 0x100 16 = none ∧
    Alone (queued {} 0) g0 (.qcfg xab) xab t0 ∧ (queued {} 0).srcA g0 t0 (.qcfg xab) xab = 0 :=
  ⟨alone_of (by decide +kernel), by decide +kernel, by decide +kernel, by decide +kernel, by decide +kernel, by decide +kernel, by decide +kernel,
    alone_of (by decide +kernel), by decide +kernel⟩
def ring (tail : Nat) : Queue := { cap := 4, base := 0x100, head := 3, tail := tail }
theorem test_witness_queue : Alone (queued (ring 6) 9) g0 (.qpush xab) xab t0 ∧ (queued (ring 6) 9).releaseReady t0 .grp = true ∧
    ((queued (ring 6) 9).queue 5).cap = 4 ∧ ((queued (ring 6) 9).queue 5).tail - ((queued (ring 6) 9).queue 5).head < 4 ∧
    Alone (queued (ring 7) 9) g0 (.qpush xab) xab t0 ∧ ¬ ((queued (ring 7) 9).queue 5).tail - ((queued (ring 7) 9).queue 5).head < 4 ∧
    Alone (queued (ring 7) 9) g0 (.qpop db) db t0 ∧ (queued (ring 7) 9).loadsPending t0 = false ∧ ((queued (ring 7) 9).queue 5).waiters = [] ∧
    (queued (ring 7) 9).srcB g0 t0 (.qpop db) db.b = 5 :=
  ⟨alone_of (by decide +kernel), by decide +kernel, by decide +kernel, by decide +kernel, alone_of (by decide +kernel), by decide +kernel,
    alone_of (by decide +kernel), by decide +kernel, by decide +kernel, by decide +kernel⟩

/-- A copy of v10 to v15 with control word 0; the thread's sealed batches and copies. -/
def copyOps : Ops := { xa with b := .imm32 0 }
def copyO : Ops := ops .zero (.v 10) (.v 16) .zero
def copying (sealed : Nat) (cs : List (Nat × Nat)) (b : Nat) : State :=
  (one 0 [(10, 0x10000), (12, b), (14, 0x300), (16, 0)]).modThread t0 fun th => { th with sealed := sealed, copies := cs }
theorem test_witness_copy : Alone (copying 0 [] 0) g0 (.copy copyO) copyO t0 ∧ ctlBad ((copying 0 [] 0).srcB g0 t0 (.copy copyO) copyO.b) = false ∧
    ((copying 0 [] 0).core 0).ringWait = [] ∧ (copying 0 [] 0).ringBusy 0 0 = false ∧
    Alone (copying 0 [] 0) g0 (.cbseal (ops (.v 8) .zero .zero .zero)) (ops (.v 8) .zero .zero .zero) t0 :=
  ⟨alone_of (by decide +kernel), by decide +kernel, by decide +kernel, by decide +kernel, alone_of (by decide +kernel)⟩
/-- Batches 1 and 2 sealed, a copy of batch 2 left: batch 1 has ended, batch 2 has not. -/
theorem test_witness_batches : Alone (copying 2 [(2, 77)] 1) g0 (.cbwait xb) xb t0 ∧ Alone (copying 2 [(2, 77)] 1) g0 (.cbpoll pb) pb t0 ∧
    Alone (copying 2 [(2, 77)] 2) g0 (.cbpoll pb) pb t0 ∧ (copying 2 [(2, 77)] 1).srcB g0 t0 (.cbwait xb) xb.b = 1 ∧
    2 ^ 15 ≤ (1 + 2 ^ 16 - 2) % 2 ^ 16 ∧ (∀ c ∈ [((2 : Nat), (77 : Nat))], ¬ ((1 + 2 ^ 16 - c.1) % 2 ^ 16 < 2 ^ 15 ∧ (2 + 2 ^ 16 - c.1) % 2 ^ 16 < 2 ^ 15)) ∧
    ((copying 2 [(2, 77)] 1).thread t0).note = none ∧ ((copying 2 [(2, 77)] 2).thread t0).sealed = 2 ∧
    ¬ (∀ c ∈ [((2 : Nat), (77 : Nat))], ¬ ((2 + 2 ^ 16 - c.1) % 2 ^ 16 < 2 ^ 15 ∧ (2 + 2 ^ 16 - c.1) % 2 ^ 16 < 2 ^ 15)) :=
  ⟨alone_of (by decide +kernel), alone_of (by decide +kernel), alone_of (by decide +kernel), by decide +kernel, by decide, by decide, by decide +kernel,
    by decide +kernel, by decide⟩
/-- Command 77 of entry 5 of the ring of core 0: from scratchpad 0x400 to 0x800 (ctl 3), or between global addresses (ctl 0), its layout at a. -/
def command77 (active : Bool) (ctl layout : Nat) : CopyCmd :=
  { core := 0, ring := some (0, 5), tid := t0, batch := 3, active := active, src := 0x400, dst := 0x800, layout := layout, ctl := ctl }
def commanded (c : CopyCmd) : State :=
  let s : State :=
    { (machine 0 1).modThread t0 fun th => { th with copies := [(3, 77), (3, 78)] } with
      copyCmds := [(77, c)], mem := memWrite [] 0x20200 32 (2 + 7 * 2 ^ 100)
      tcs := [(0, [{ ctx := 0, base := 0x10000, log := 16, leaf := 0x2001F }]), (2 ^ 20, [{ ctx := 0, base := 0x10000, log := 16, leaf := 0x2001F }])] }
  s.scratchWrite (scratchKey 0 0x400) 32 0x1122334455667788
def layoutWord (i : Nat) : Word := if i = 0 then 2 else if i = 3 then 112 else 0
/-- A command whose layout record has come; its core's L1 holds the record's words too. -/
def recorded (c : CopyCmd) : CopyCmd := { c with record := (List.range 8).map fun i => (0x4080 + i, (layoutWord i, 0)) }
def holding (c : CopyCmd) : State := (List.range 8).foldl (fun s i => s.setCopy 0 (0x8080 + i) { val := layoutWord i }) (commanded c)
/-- What running a command gives: the state after it and its cause; 99 where it goes on. -/
def endOf (c : CopyCmd) : State × Nat := match (commanded c).runCopy 77 c with | .ended s n => (s, n) | _ => (commanded c, 99)
theorem endOf_ended (c : CopyCmd) (h : (endOf c).2 ≠ 99) : (commanded c).runCopy 77 c = .ended (endOf c).1 (endOf c).2 := by
  unfold endOf at *
  generalize (commanded c).runCopy 77 c = m at *
  cases m with
  | ended s n => rfl
  | on s => exact absurd rfl h
  | wait => exact absurd rfl h
theorem test_witness_copyStarts : tget? (commanded (command77 false 3 0x10200)).copyCmds 77 = some (command77 false 3 0x10200) ∧
    ((commanded (command77 false 3 0x10200)).core 0).stop = false ∧ (commanded (command77 false 3 0x10200)).rests 0 = false ∧
    (∀ x ∈ (commanded (command77 false 3 0x10200)).copyCmds, ¬ x.1 < 77) := by decide +kernel
/-- A copy from local to local memory that has its record; with dep set; with a misaligned layout address. -/
def local77 : CopyCmd := recorded (command77 true 3 0x10200)
def dep77 : CopyCmd := recorded (command77 true 0x543 0x10200)
def bad77 : CopyCmd := command77 true 3 4
theorem test_witness_copyEnds : (∀ c ∈ [local77, dep77], tget? (commanded c).copyCmds 77 = some c ∧ (commanded c).runCopy 77 c = .ended (endOf c).1 0) ∧
    (∀ c ∈ [local77, dep77], (endOf c).1.hole = false ∧ ((endOf c).1.core 0).ringWait = [] ∧ (tget? (endOf c).1.threads c.tid).isSome = true) ∧
    local77.ctl.testBit 6 = false ∧ dep77.ctl.testBit 6 = true := by
  refine ⟨fun c hc => ?_, by decide +kernel, by decide, by decide⟩
  have h : ∀ c ∈ [local77, dep77], (endOf c).2 = 0 ∧ tget? (commanded c).copyCmds 77 = some c := by decide +kernel
  exact ⟨(h c hc).2, by rw [endOf_ended c (by rw [(h c hc).1]; decide), (h c hc).1]⟩
theorem test_witness_copyFails : (commanded bad77).runCopy 77 bad77 = .ended (endOf bad77).1 4 ∧ (endOf bad77).1.hole = false ∧
    ((endOf bad77).1.core 0).ringWait = [] ∧ bad77.layout % 32 ≠ 0 ∧ bad77.msgs = [] ∧ bad77.cause = 0 ∧ bad77.moves = none ∧ (commanded bad77).hole = false := by
  have h : (endOf bad77).2 = 4 := by decide +kernel
  refine ⟨?_, by decide +kernel, by decide +kernel, by decide, by decide, by decide, by decide, by decide +kernel⟩
  rw [endOf_ended _ (by rw [h]; decide), h]
/-- Its layout record is in no level: it is asked for at its home; one request is on its way. -/
def asks77 : CopyCmd := command77 true 3 0x10200
def waits77 : CopyCmd := { asks77 with msgs := [50] }
theorem test_witness_copyAsks : asks77.layout % 32 = 0 ∧ asks77.record = [] ∧ asks77.msgs = [] ∧ asks77.moves = none ∧
    (∀ i < 8, (commanded asks77).copyLoad asks77 (asks77.layout / 4 + i) = (commanded asks77, .ask (.cached (0x20200 + 4 * i)))) ∧
    (let s : State := { commanded waits77 with msgs := [(50, { kind := .load, src := 0, dst := 0, agent := 0 })] }; s.live 50 = true ∧ s.hole = false) := by decide +kernel
/-- The record's words are at hand: the layout, and its moves, none of which meets the ring entry. -/
def layout77 : Layout := (layoutOf (2 + 7 * 2 ^ 100) 3).get!
theorem test_witness_copyLocal : asks77.ctl.testBit 0 = true ∧ asks77.ctl.testBit 1 = true ∧ asks77.ctl / 4 % 4 = 0 ∧ asks77.words = [] ∧
    (∀ i < 8, (holding asks77).copyLoad asks77 (asks77.layout / 4 + i) = (holding asks77, .val (layoutWord i))) ∧
    layoutOf (joinWords ((List.range 8).map layoutWord)) asks77.ctl = some layout77 ∧ asks77.src % 2 ^ layout77.esize = 0 ∧ layout77.dir = false ∧
    asks77.dst % 8 = 0 ∧ (holding asks77).hole = false ∧ ((holding asks77).core 0).ringWait = [] ∧
    (((holding asks77).copyMoves asks77 layout77 []).all fun m => match m.2, (holding asks77).copyLocal asks77 m.1 with
      | .inl _, .inl n => decide (n ≠ ringKey 0 5 + 28) | _, _ => false) = true := by decide +kernel

/-! ### Witnesses: control, loops, counters, slots, tasks -/

def thread1 (core : Nat) (th : Thread) (l : List (Nat × Nat)) : State := { one core l with threads := [(tid core, th)] }
def level (a b : Nat) : Lc := { start := a / 4, stop := b / 4, count := 3, feed := 3, frame := 7 }
def rel' (off : BitVec 32) : Ops := { none' with b := .imm32 off }
/-- A thread in the body 0x1000 to 0x4000, with a target of 0x3000 in v10 and a return to 0x2000 in v0. -/
def inBody : State := thread1 0 { pc := 0x1000, depth := 1, lc0 := level 0x1000 0x4000 } [(0, 0x2000), (10, 0x3000)]
theorem test_witness_control : Alone inBody g0 (.bra (rel' 0x100)) (rel' 0x100) t0 ∧ Alone inBody g0 (.brx xa) xa t0 ∧
    Alone inBody g0 (.call (rel' 0x100)) (rel' 0x100) t0 ∧ Alone inBody g0 (.callx xa) xa t0 ∧ Alone inBody g0 (.ret none') none' t0 ∧
    (((0x1000 : Int) + inBody.offset g0 t0 (rel' 0x100).b) % 2 ^ 64).toNat = 0x1100 ∧ 4 ∣ 0x1100 ∧ inBody.srcA g0 t0 (.brx xa) xa = 0x3000 ∧ 4 ∣ 0x3000 ∧
    (level 0x1000 0x4000).start ≤ 0x1100 / 4 % 2 ^ 55 ∧ 0x3000 / 4 % 2 ^ 55 ≤ (level 0x1000 0x4000).stop ∧
    inBody.readV t0 0 + inBody.readV t0 1 * 2 ^ 32 = 0x2000 ∧ ¬ (level 0x1000 0x4000).frame = (inBody.thread t0).callDepth :=
  ⟨alone_of (by decide +kernel), alone_of (by decide +kernel), alone_of (by decide +kernel), alone_of (by decide +kernel), alone_of (by decide +kernel),
    by decide +kernel, by decide, by decide +kernel, by decide, by decide, by decide, by decide +kernel, by decide +kernel⟩
/-- 02 R44, 10 R243: a branch out of the body takes the loop-nesting trap (code 5, cause 5: 10 R241). -/
theorem test_branch_leaves_body : (nextOf (exec (.bra (rel' 0xFFFFF800)) inBody)).map (fun r => (((r.squad (squadOf t0)).trec.headD 0).toNat % 65536,
    (r.thread t0).pc)) = some (0x505, 0x8000) := by decide +kernel
theorem test_witness_nopExitYield : Alone (one 0 []) g0 (.nop none') none' t0 ∧ Alone (one 0 []) g0 (.exit xb) xb t0 ∧ Alone (one 0 []) g0 (.yield none') none' t0 ∧
    (one 0 []).releaseReady t0 .grp = true ∧ ((one 0 []).thread t0).run ≠ .exited ∧
    (∀ u ∈ (one 0 []).squadThreads (squadOf t0), ((one 0 []).thread u).run ≠ .hold) :=
  ⟨alone_of (by decide +kernel), alone_of (by decide +kernel), alone_of (by decide +kernel), by decide +kernel, by decide +kernel, by decide +kernel⟩
/-- An addition at the end of a body whose level has n iterations left; elsewhere. -/
def atEnd (n : Nat) : State := thread1 0 { pc := 0x1000, depth := 1, lc0 := { level 0x800 0x1000 with count := n, stages := 3, rotate := true } } []
theorem test_witness_loopEnds : Alone (atEnd 3) g0 (.add dab sInt) dab t0 ∧ Alone (atEnd 1) g0 (.add dab sInt) dab t0 ∧ Alone inBody g0 (.add dab sInt) dab t0 ∧
    ((atEnd 3).thread t0).depth = 1 ∧ 0x1000 / 4 % 2 ^ 55 = (((atEnd 3).thread t0).lc 0).stop ∧ (((atEnd 3).thread t0).lc 0).count > 1 ∧
    (((atEnd 1).thread t0).lc 0).count ≤ 1 ∧ 0x1000 / 4 % 2 ^ 55 ≠ ((inBody.thread t0).lc 0).stop :=
  ⟨alone_of (by decide +kernel), alone_of (by decide +kernel), alone_of (by decide +kernel), by decide +kernel, by decide +kernel, by decide +kernel,
    by decide +kernel, by decide +kernel⟩
/-- LPBEG inside a level of the same frame, with a count of 5 and of 0; LPBRK out of two levels. -/
def opening (n : Nat) : State := thread1 0 { pc := 0x1000, depth := 1, lc0 := { level 0x800 0x2000 with frame := 0 } } [(10, n)]
def lpOps : Ops := { xa with b := .imm32 0x20 }
theorem test_witness_lpbeg : Alone (opening 5) g0 (.lpbeg lpOps ⟨0, false, 2⟩) lpOps t0 ∧ Alone (opening 0) g0 (.lpbeg lpOps ⟨0, false, 2⟩) lpOps t0 ∧
    ((opening 5).thread t0).inHandler = false ∧ ((opening 5).thread t0).depth < 4 ∧ (opening 5).srcA g0 t0 (.lpbeg lpOps ⟨0, false, 2⟩) lpOps = 5 ∧
    (opening 0).srcA g0 t0 (.lpbeg lpOps ⟨0, false, 2⟩) lpOps = 0 ∧ g0.next (.lpbeg lpOps ⟨0, false, 2⟩) = 0x100C ∧
    (((opening 5).thread t0).lc 0).start ≤ 0x100C / 4 ∧ 0x1020 / 4 < (((opening 5).thread t0).lc 0).stop ∧
    (((0x1000 : Int) + (opening 5).offset g0 t0 lpOps.b) % 2 ^ 64).toNat = 0x1020 :=
  ⟨alone_of (by decide +kernel), alone_of (by decide +kernel), by decide +kernel, by decide +kernel, by decide +kernel, by decide +kernel, by decide +kernel,
    by decide +kernel, by decide +kernel, by decide +kernel⟩
def nested : State := thread1 0 { pc := 0x1000, depth := 2, lc0 := level 0x800 0x4000, lc1 := level 0x900 0x2000 } []
theorem test_witness_lpbrk : Alone nested g0 (.lpbrk none' 1) none' t0 ∧ (nested.thread t0).inHandler = false ∧ (1 : BitVec 2).toNat + 1 ≤ (nested.thread t0).depth :=
  ⟨alone_of (by decide +kernel), by decide +kernel, by decide +kernel⟩
/-- LPSAVE and LPREST at 0x10100, whose words the thread owns (a record of depth 0 read back as zeros of a Never page would do as well). -/
def saving : State := own (thread1 0 { pc := 0x1000, depth := 1, lc0 := level 0x800 0x2000 } [(10, 0x10100)]) 0 ((List.range 34).map fun j => 0x8040 + j)
def saved : State × Ret := ((saving.begun g0).recordWait t0 0 0 0).saveRecord (saving.who t0) 0x10100 (saving.thread t0).loopRecord 0 17
def restoring : State := { saved.1 with issue := some g0 }
def restored : State × Ret := ((restoring.begun g0).recordWait t0 0 0 0).loadRecord (restoring.who t0) 0x10100 0 0 17
/-- The conditions of Mapped as a Bool. -/
def mappedB (s : State) (x : Who) (va : Nat) (write : Bool) (pa : Nat) : Bool := canonical va && placed pa &&
  match (tcPath x.core).findSome? (fun id => s.tcFind id x.ctx (va % 2 ^ 57)) with
  | some e => decide (leafCause e.leaf { user := x.user, write := write } = 0 ∧ s.ownTarget (x.ctx / 64) (targetOf e.leaf e.log (va % 2 ^ 57)) = .cached pa)
  | none => false
theorem mapped_of {s : State} {x : Who} {va : Nat} {write : Bool} {pa : Nat} (h : mappedB s x va write pa = true) : s.Mapped x va write pa := by
  simp only [mappedB, Bool.and_eq_true] at h
  refine ⟨h.1.1, h.1.2, ?_⟩
  have h := h.2
  revert h
  split
  · intro h; exact ⟨_, ‹_›, of_decide_eq_true h⟩
  · intro h; cases h
/-- The seventeen accesses of a record at 0x10100. -/
def placeOf (k : Nat) : Nat := 0x20100 + 8 * k
theorem records {s : State} {write : Bool} (h : ∀ k < 17, (mappedB s (s.who t0) ((0x10100 + 8 * k) % 2 ^ 64) write (placeOf k) &&
      ((itemsOf (placeOf k) 8 0).all fun j => holdsB s (s.who t0) j.w) && !s.overlaps t0 ((itemsOf (placeOf k) 8 0).map (·.w)) &&
      !s.wbPending (s.who t0).agent ((itemsOf (placeOf k) 8 0).map (·.w))) = true) :
    ∀ k < 17, s.Mapped (s.who t0) ((0x10100 + 8 * k) % 2 ^ 64) write (placeOf k) ∧ 8 ∣ placeOf k ∧ placeOf k < 2 ^ 52 ∧ (∀ j < 17, j ≠ k → placeOf j ≠ placeOf k) ∧
      (∀ j ∈ itemsOf (placeOf k) 8 0, Holds s (s.who t0) j.w) ∧ s.overlaps t0 ((itemsOf (placeOf k) 8 0).map (·.w)) = false ∧
      s.wbPending (s.who t0).agent ((itemsOf (placeOf k) 8 0).map (·.w)) = false := by
  intro k hk
  have h := h k hk
  simp only [Bool.and_eq_true, Bool.not_eq_true'] at h
  exact ⟨mapped_of h.1.1.1, by unfold placeOf; omega, by unfold placeOf; omega, fun j _ hj => by unfold placeOf; omega, holds_all h.1.1.2, h.1.2, h.2⟩
theorem test_witness_records : (∀ k < 17, saving.Mapped (saving.who t0) ((0x10100 + 8 * k) % 2 ^ 64) true (placeOf k) ∧ 8 ∣ placeOf k ∧ placeOf k < 2 ^ 52 ∧
      (∀ j < 17, j ≠ k → placeOf j ≠ placeOf k) ∧ (∀ j ∈ itemsOf (placeOf k) 8 0, Holds saving (saving.who t0) j.w) ∧
      saving.overlaps t0 ((itemsOf (placeOf k) 8 0).map (·.w)) = false ∧ saving.wbPending (saving.who t0).agent ((itemsOf (placeOf k) 8 0).map (·.w)) = false) ∧
    saving.uncachedPending t0 = false ∧ saving.hole = false := ⟨records (by decide +kernel), by decide +kernel, by decide +kernel⟩
/-- The record of a thread in a level stands at 0x20100. -/
theorem test_witness_recordsThere : (∀ k < 17, restoring.Mapped (restoring.who t0) ((0x10100 + 8 * k) % 2 ^ 64) false (placeOf k) ∧ 8 ∣ placeOf k ∧ placeOf k < 2 ^ 52 ∧
      (∀ j < 17, j ≠ k → placeOf j ≠ placeOf k) ∧ (∀ j ∈ itemsOf (placeOf k) 8 0, Holds restoring (restoring.who t0) j.w) ∧
      restoring.overlaps t0 ((itemsOf (placeOf k) 8 0).map (·.w)) = false ∧ restoring.wbPending (restoring.who t0).agent ((itemsOf (placeOf k) 8 0).map (·.w)) = false) ∧
    restoring.uncachedPending t0 = false ∧ restoring.hole = false ∧ (saving.thread t0).loopRecord < 2 ^ 1088 ∧ recordOk (saving.thread t0).loopRecord = true ∧
    (∀ k < 136, restoring.byteAt (placeOf (k / 8) + k % 8) = (saving.thread t0).loopRecord / 256 ^ k % 256) :=
  ⟨records (by decide +kernel), by decide +kernel, by decide +kernel, by decide +kernel, by decide +kernel, by decide +kernel⟩
theorem test_witness_lpsave : (saving.thread t0).fresh ∧ Alone saving g0 (.lpsave xab) xab t0 ∧ saving.globalAddr g0 t0 (.lpsave xab) xab = 0x10100 ∧ 8 ∣ 0x10100 ∧
    (saving.begun g0).recordFault (saving.who t0) 0x10100 true = none ∧ saved.2 = .next ∧ saved.1.hole = false :=
  ⟨⟨by decide +kernel, by decide +kernel⟩, alone_of (by decide +kernel), by decide +kernel, by decide, by decide +kernel, by decide +kernel, by decide +kernel⟩
theorem test_witness_lprest : (restoring.thread t0).fresh ∧ Alone restoring g0 (.lprest xab) xab t0 ∧ restoring.globalAddr g0 t0 (.lprest xab) xab = 0x10100 ∧
    (restoring.begun g0).recordFault (restoring.who t0) 0x10100 false = none ∧ restored.2 = .jump 0 ∧ restored.1.hole = false :=
  ⟨⟨by decide +kernel, by decide +kernel⟩, alone_of (by decide +kernel), by decide +kernel, by decide +kernel, by decide +kernel, by decide +kernel⟩
theorem test_witness_loopRecord : let th : Thread := { depth := 2, rot := 63, callDepth := 0xFFFF, lc0 := level 0x800 0x4000, lc1 := level 0x900 0x2000 }
    th.depth ≤ 4 ∧ th.rot < 64 ∧ th.callDepth < 2 ^ 16 ∧ (∀ i < th.depth, (th.lc i).start < 2 ^ 55 ∧ (th.lc i).stop < 2 ^ 55 ∧ (th.lc i).len < 3 ∧
      0 < (th.lc i).count ∧ (th.lc i).count < 2 ^ 40 ∧ (th.lc i).feed < 2 ^ 32 ∧ (th.lc i).stages ≤ 8 ∧ (th.lc i).frame < 2 ^ 16) := by decide +kernel

/-- Counter 5 of die 0 at v, its number in v10, b in v12. -/
def counting (v b : Nat) : State := (one 0 [(10, 5), (12, b)]).setCounter 0 5 v
theorem test_witness_counters : Alone (counting 7 3) g0 (.tcadd xab .die) xab t0 ∧ Alone (counting 7 3) g0 (.tcset xab) xab t0 ∧
    Alone (counting 7 3) g0 (.tcrd da) da t0 ∧ Alone (counting 7 3) g0 (.tcwait xab) xab t0 ∧ (counting 7 3).asterOf t0 = 0 ∧
    (∀ x ∈ [(Instr.tcadd xab .die, xab), (.tcset xab, xab), (.tcrd da, da), (.tcwait xab, xab)], (counting 7 3).srcA g0 t0 x.1 x.2 = 5) ∧
    (counting 7 3).hasCounter ((counting 7 3).ctxKey t0) 0 5 = true ∧ ((counting 7 3).thread t0).phase = 0 ∧ (counting 7 3).releaseReady t0 .die = true ∧
    (counting 7 3).srcB g0 t0 (.tcwait xab) xab.b ≤ (counting 7 3).counter 0 5 :=
  ⟨alone_of (by decide +kernel), alone_of (by decide +kernel), alone_of (by decide +kernel), alone_of (by decide +kernel), by decide +kernel, by decide +kernel,
    by decide +kernel, by decide +kernel, by decide +kernel, by decide +kernel⟩
/-- Its updates arrived; its wait over. -/
def updating (act : Arrive) : State := { counting 7 3 with arrivals := [(counting 7 3).arrivalOf 0 5 t0 act] }
def resumed : State := (counting 2 3).modThread t0 fun th => { th with phase := 3 }
theorem test_witness_counterUpdates : (∀ act ∈ [Arrive.add (2 ^ 64 - 1), .set 9], let a := (counting 7 3).arrivalOf 0 5 t0 act
      (updating act).arrivals = [a] ∧ a.die / 8 = 0 ∧ a.num = 5 ∧ a.act = act ∧ a.ck ≤ ((updating act).core (coreKey 0 0)).ck ∧ (updating act).held 0 = false ∧
      dieOf (coreKey 0 0) ∉ (updating act).lost ∧ dieOf (coreKey 0 0) ∉ (updating act).dead) ∧ Alone resumed g0 (.tcwait xab) xab t0 ∧ (resumed.thread t0).phase = 3 :=
  ⟨by decide +kernel, alone_of (by decide +kernel), by decide +kernel⟩
theorem test_witness_counterWaits : Alone (counting 2 3) g0 (.tcwait xab) xab t0 ∧ (counting 2 3).srcA g0 t0 (.tcwait xab) xab = 5 ∧
    (counting 2 3).counter 0 5 < (counting 2 3).srcB g0 t0 (.tcwait xab) xab.b ∧ ((counting 2 3).thread t0).phase = 0 :=
  ⟨alone_of (by decide +kernel), by decide +kernel, by decide +kernel, by decide +kernel⟩
/-- Slots X = 7, Y = 8 and Z = 9 armed on counter 5 in that order with thresholds 2, 1, 1 (the example after 10 R232). -/
def posted (v : Nat) : State :=
  let slot (n threshold : Nat) (s : State) : State := s.setAslot 0 n { threshold := threshold, trigger := 5, seq := n, kind := .send, st := .armed }
  { slot 9 1 (slot 8 1 (slot 7 2 (one 0 [(10, 5), (12, 1)]))) with counters := [(5, v)] }
theorem test_witness_slotsFire : (posted 1).armedOn 0 5 = [7, 8, 9] ∧ (posted 1).counter 0 5 < ((posted 1).aslot 0 7).threshold ∧ (posted 2).armedOn 0 5 = [7, 8, 9] ∧
    ¬ ((posted 2).counter 0 5 < ((posted 2).aslot 0 7).threshold ∨ (posted 2).ctxSuspended 0 = true ∨ (posted 2).rests 0 = true) := by decide +kernel
theorem test_slots_fire_in_order : let added (v : Nat) : State := { posted v with arrivals := [(posted v).arrivalOf 0 5 t0 (.add 1)] }
    (nextOf (exec (.issueCk 0 0) (added 1))).map (fun r => tget r.startQueue 0 []) = some [7, 8, 9] ∧
    (nextOf (exec (.issueCk 0 0) (added 0))).map (fun r => tget r.startQueue 0 []) = some [] := by decide +kernel
/-- TRIGPOST of each kind to slot 9, operands in v10 to v18. -/
def trigOps : Ops := ops .zero (.v 10) (.v 16) (.v 18) true
def posting (a b p v : Nat) : State := one 0 [(10, a), (12, b), (14, p % 2 ^ 32), (15, p / 2 ^ 32), (16, v), (18, 9)]
theorem test_witness_trigpost : ∀ x ∈ [((⟨.send, .die, false, 5, 0, 3⟩ : TrigFn), posting 0x10000 0x10000 64 0), (⟨.sendsig, .pkg, true, 5, 5, 3⟩, posting 0x10000 0x10000 0 7),
      (⟨.fetch, .pkg, true, 5, 5, 3⟩, posting 0x10000 0x10000 64 0), (⟨.red, .pkg, false, 5, 0, 3⟩, posting 0x10000 0x10000 (64 + 2 ^ 36 * 5) 7),
      (⟨.copy, .die, false, 5, 0, 3⟩, posting 0x10000 5 0 0), (⟨.task, .pkg, true, 5, 5, 3⟩, posting 0 0 0 7)],
    Alone x.2 g0 (.trigpost trigOps x.1) trigOps t0 ∧ x.2.postCause (x.2.ctxKey t0) 0 x.1 (x.2.srcC g0 t0 (.trigpost trigOps x.1) trigOps) (x.2.pairAt g0 t0 trigOps.a 0)
      (x.2.pairAt g0 t0 trigOps.a 2) (x.2.pairAt g0 t0 trigOps.a 4) (x.2.srcB g0 t0 (.trigpost trigOps x.1) trigOps.b) = 0 ∧ x.2.releaseReady t0 .die = true := by
  have h := List.all_eq_true.1 (show ([((⟨.send, .die, false, 5, 0, 3⟩ : TrigFn), posting 0x10000 0x10000 64 0), (⟨.sendsig, .pkg, true, 5, 5, 3⟩, posting 0x10000 0x10000 0 7),
      (⟨.fetch, .pkg, true, 5, 5, 3⟩, posting 0x10000 0x10000 64 0), (⟨.red, .pkg, false, 5, 0, 3⟩, posting 0x10000 0x10000 (64 + 2 ^ 36 * 5) 7),
      (⟨.copy, .die, false, 5, 0, 3⟩, posting 0x10000 5 0 0), (⟨.task, .pkg, true, 5, 5, 3⟩, posting 0 0 0 7)].all fun x =>
    (issuesB x.2 g0 (.trigpost trigOps x.1) trigOps && decide (g0.threads = [t0]) && (x.2.thread t0).guard trigOps.h) &&
    decide (x.2.postCause (x.2.ctxKey t0) 0 x.1 (x.2.srcC g0 t0 (.trigpost trigOps x.1) trigOps) (x.2.pairAt g0 t0 trigOps.a 0)
      (x.2.pairAt g0 t0 trigOps.a 2) (x.2.pairAt g0 t0 trigOps.a 4) (x.2.srcB g0 t0 (.trigpost trigOps x.1) trigOps.b) = 0) && x.2.releaseReady t0 .die) = true by decide +kernel)
  intro x hx
  have := h x hx
  rw [Bool.and_eq_true, Bool.and_eq_true] at this
  exact ⟨alone_of this.1.1, of_decide_eq_true this.1.2, this.2⟩
/-- TRIGCAN of an ARMED slot and of a DONE one; TRIGPRB. -/
def probing (st : SlotState) : State := (one 0 [(10, 9)]).setAslot 0 9 { st := st, trigger := 5, cause := 3 }
theorem test_witness_trigcan : Alone (probing .armed) g0 (.trigcan xa) xa t0 ∧ Alone (probing .done) g0 (.trigcan xa) xa t0 ∧ Alone (probing .done) g0 (.trigprb da) da t0 ∧
    (probing .armed).srcA g0 t0 (.trigcan xa) xa = 9 ∧ (probing .done).srcA g0 t0 (.trigprb da) da = 9 ∧ (probing .armed).hasSlot 0 0 9 = true ∧
    ((probing .armed).aslot 0 9).st = .armed ∧ ((probing .done).aslot 0 9).st ≠ .armed :=
  ⟨alone_of (by decide +kernel), alone_of (by decide +kernel), alone_of (by decide +kernel), by decide +kernel, by decide +kernel, by decide +kernel,
    by decide +kernel, by decide +kernel⟩
/-- Task 5 of die 0. -/
def tasked (x : Task) : State := (one 0 [(12, 5)]).setTask 0 5 x
theorem test_witness_tasks (x : Task) (h : x = { st := .armed, count := 1 } ∨ x = { st := .armed, count := 2 } ∨ x = { st := .ready, count := 1 }) :
    Alone (tasked x) g0 (.tready xb) xb t0 ∧ Alone (tasked x) g0 (.tdec xb) xb t0 ∧ (tasked x).srcB g0 t0 (.tready xb) xb.b = 5 ∧
    (tasked x).hasTask 0 0 5 = true ∧ (tasked x).releaseReady t0 .pkg = true ∧ (tasked x).task 0 5 = x := by
  refine ⟨alone_of ?_, alone_of ?_, ?_, ?_, ?_, ?_⟩ <;> rcases h with rfl | rfl | rfl <;> decide +kernel
/-- An update of task 5 that has arrived. -/
def scheduling (x : Task) (act : Arrive) : State := { tasked x with arrivals := [{ die := 0, num := 5, cls := 0, key := 0, act := act }] }
theorem test_witness_taskUpdates : ∀ x ∈ [({ st := .armed, count := 1 } : Task), { st := .armed, count := 2 }, { st := .ready, count := 1 }, { st := .armed, count := 0 }],
    ∀ act ∈ [Arrive.ready, .dec], (scheduling x act).arrivals.map (fun a => (a.die, a.num, a.act)) = [(0, 5, act)] ∧ (scheduling x act).task 0 5 = x ∧
      (scheduling x act).clock 0 ≤ ((scheduling x act).core (coreKey 0 0)).ck := by decide +kernel
def launching : State := one 0 [(10, 0x10100)]
theorem test_witness_launch : Alone launching g0 (.launch xa) xa t0 ∧ launching.srcA g0 t0 (.launch xa) xa = 0x10100 ∧ 64 ∣ 0x10100 ∧
    launching.launchScope t0 0x10100 = .pkg ∧ launching.releaseReady t0 .pkg = true ∧
    (((launching.begun g0).doRelease t0 .pkg).childLaunch (launching.ctxKey t0) (launching.asterOf t0) 0x10100).hole = false :=
  ⟨alone_of (by decide +kernel), by decide +kernel, by decide, by decide +kernel, by decide +kernel, by decide +kernel⟩

/-! ### Witnesses: traps, system registers, shootdowns, matrix, issue -/

/-- A thread in user mode, or in its handler. -/
def trapping (core : Nat) (sup : Bool) (l : List (Nat × Nat)) : State :=
  ((one core l).modThread (tid core) fun th => { th with supervisor := sup, inHandler := sup }).modSquad (squadKey core 0) fun q =>
    { q with handling := if sup then 1 else 0, trec := List.replicate 8 0x3000, budget := 64 }
theorem test_witness_traps (core : Nat) (h : core = 0 ∨ core = 256) : Alone (trapping core false [(12, 7)]) (group core 1) (.trap xb) xb (tid core) ∧
    Alone (trapping core false [(12, 7)]) (group core 1) (.bkpt none') none' (tid core) ∧ (trapping core false [(12, 7)]).Quiet (tid core) ∧
    ((trapping core false [(12, 7)]).dbg (tid core)).toNat.testBit 0 = false := by
  refine ⟨alone_of ?_, alone_of ?_, ⟨?_, ?_, ?_, ?_, ?_, ?_⟩, ?_⟩ <;> rcases h with rfl | rfl <;> decide +kernel
/-- 10 R241, R242, R244: code 14, the operand in TREC4, the PC after the instruction in TREC3. -/
theorem test_trap_record : (nextOf (exec (.trap xb) (trapping 0 false [(12, 0x89ABCDEF)]))).map (fun r => ((r.squad (squadOf t0)).trec.map (·.toNat)).take 5) =
    some [14 + 8 * 2 ^ 35, 1, 0x1000, 0x1008, 0x89ABCDEF] := by decide +kernel
def halting : State := (one 0 []).setDbg t0 1
theorem test_witness_bkptHalts : Alone halting g0 (.bkpt none') none' t0 ∧ (halting.core 0).gang = some 1 ∧ (halting.gang 1).map (·.st) = some .running ∧
    (halting.dbg t0).toNat.testBit 0 = true := ⟨alone_of (by decide +kernel), by decide +kernel, by decide +kernel, by decide +kernel⟩
theorem test_witness_doubleTrap : Alone (trapping 0 true []) g0 (.trap xb) xb t0 ∧ ((trapping 0 true []).thread t0).supervisor = true ∧
    ((trapping 0 true []).ctx ((trapping 0 true []).ctxKey t0)).faulted = false := ⟨alone_of (by decide +kernel), by decide +kernel, by decide +kernel⟩
theorem test_witness_eret : Alone (trapping 0 true []) g0 (.eret none') none' t0 ∧ ((trapping 0 true []).squad (squadOf t0)).trec[3]? = some 0x3000 ∧ 4 ∣ 0x3000 :=
  ⟨alone_of (by decide +kernel), by decide +kernel, by decide⟩
/-- SYSRD and SYSWR of register n. -/
def rd (n : Nat) : Ops := { ops (.v 8) .zero .zero .zero with b := .imm32 (BitVec.ofNat 32 n) }
def wr (n : Nat) : Ops := { xa with b := .imm32 (BitVec.ofNat 32 n) }
theorem test_witness_privilege : (∀ x ∈ [(Instr.eret none', none'), (.shootdn xa, xa), (.cntcfg xab, xab)], Alone (trapping 0 false []) g0 x.1 x.2 t0) ∧
    (∀ x ∈ [0x010, 0x020, 0x027, 0x028, 0x02C, 0x02F, 0x040].map (fun n => (Instr.sysrd (rd n), rd n)), Alone (trapping 0 false []) g0 x.1 x.2 t0) ∧
    (∀ x ∈ [0x008, 0x009, 0x010, 0x020, 0x027, 0x028, 0x02C, 0x02F, 0x031, 0x032, 0x040].map (fun n => (Instr.syswr (wr n), wr n)),
      Alone (trapping 0 false []) g0 x.1 x.2 t0) ∧ (trapping 0 false []).Quiet t0 :=
  ⟨alone_all (by decide +kernel), alone_all (by decide +kernel), alone_all (by decide +kernel), ⟨by decide +kernel, by decide +kernel, by decide +kernel, by decide +kernel, by decide +kernel, by decide +kernel⟩⟩
theorem test_witness_sysrd (sup : Bool) (core : Nat) (h : core = 0 ∨ core = 256) :
    (∀ x ∈ [0x000, 0x001, 0x002, 0x003, 0x004, 0x008, 0x009, 0x010, 0x020, 0x027, 0x028, 0x029, 0x02C, 0x02F, 0x030, 0x031, 0x032, 0x033, 0x040].map (fun n => (Instr.sysrd (rd n), rd n)),
      Alone (trapping core sup []) (group core 1) x.1 x.2 (tid core)) ∧ pairOk ((trapping core sup []).squad (squadOf (tid core))).budget (.v 8) = true := by
  refine ⟨?_, ?_⟩ <;> rcases h with rfl | rfl <;> cases sup <;> first | exact alone_all (by decide +kernel) | decide +kernel
/-- 0x304 in v10: an aligned address, a header of depth 4, where the levels above the thread's stand at lengths that may be read back. -/
theorem test_witness_syswr (core : Nat) (h : core = 0 ∨ core = 256) :
    (∀ x ∈ [0x008, 0x009, 0x010, 0x023, 0x028, 0x02C, 0x02F, 0x030, 0x031, 0x032, 0x040].map (fun n => (Instr.syswr (wr n), wr n)),
      Alone (trapping core true [(10, 4)]) (group core 1) x.1 x.2 (tid core)) ∧ ((trapping core true [(10, 4)]).thread (tid core)).supervisor = true ∧
    (trapping core true [(10, 4)]).readFld (group core 1) (tid core) (.v 10) 1 = 4 ∧ pairOk ((trapping core true []).squad (squadOf (tid core))).budget (.v 10) = true ∧
    (trapping core true [(10, 4)]).readFld (group core 1) (tid core) (.v 10) 2 = 4 ∧ 4 ∣ 4 := by
  refine ⟨?_, ?_, ?_, ?_, ?_, by decide⟩ <;> rcases h with rfl | rfl <;> first | exact alone_all (by decide +kernel) | decide +kernel
/-- LSTAT (0x010): a header of depth 0, and one that opens a level whose registers hold a loop. -/
def looped : State := (trapping 0 true [(10, 1)]).modThread t0 fun th => { th with lc0 := level 0x800 0x2000 }
theorem test_witness_lstat : Alone looped g0 (.syswr (wr 0x010)) (wr 0x010) t0 ∧ headerOk 1 = true ∧ headerOk 0 = true ∧
    (∀ i, (looped.thread t0).depth ≤ i → i < 1 % 8 → ((looped.thread t0).lc i).ok = true) :=
  ⟨alone_of (by decide +kernel), by decide +kernel, by decide +kernel, fun i _ hi => by
    have : i = 0 := by omega
    subst this; decide +kernel⟩

/-- SHOOTDN of one 64 KiB page, of a whole context; after its end; CNTCFG and CNTRD of counter 63. -/
def shooting (base ctl phase : Nat) : State :=
  (one 0 [(10, base), (12, ctl % 2 ^ 32), (13, ctl / 2 ^ 32)]).modThread t0 fun th => { th with supervisor := true, phase := phase, token := 44 }
theorem test_witness_shootdown : Alone (shooting 0x10000 5 0) g0 (.shootdn xa) xa t0 ∧ Alone (shooting 3 (2 ^ 32 + 5) 0) g0 (.shootdn xa) xa t0 ∧
    Alone (shooting 0 0 1) g0 (.shootdn xa) xa t0 ∧ (shooting 0x10000 5 0).pairAt g0 t0 xa.a 0 = 0x10000 ∧ (shooting 0x10000 5 0).pairAt g0 t0 xa.a 2 = 5 ∧
    ((shooting 0x10000 5 0).thread t0).supervisor = true ∧ ((shooting 0x10000 5 0).thread t0).phase = 0 ∧ 2 ^ 16 ∣ 0x10000 ∧
    (shooting 3 (2 ^ 32 + 5) 0).pairAt g0 t0 xa.a 2 = 2 ^ 32 + 5 ∧ (2 ^ 32 + 5).testBit 32 = true ∧ tget? (shooting 0 0 1).shootdowns 44 = none :=
  ⟨alone_of (by decide +kernel), alone_of (by decide +kernel), alone_of (by decide +kernel), by decide +kernel, by decide +kernel, by decide +kernel,
    by decide +kernel, by decide, by decide +kernel, by decide +kernel, by decide +kernel⟩
def configuring : State := (trapping 0 true [(10, 0x3000E), (12, 63)])
theorem test_witness_counting : Alone configuring g0 (.cntcfg xab) xab t0 ∧ Alone configuring g0 (.cntrd db) db t0 ∧ configuring.srcB g0 t0 (.cntcfg xab) xab.b = 63 ∧
    configuring.srcA g0 t0 (.cntcfg xab) xab = 0x3000E ∧ 0x3000E < 2 ^ 18 ∧ 0x3000E % 2 ^ 16 = 14 ∧ configuring.srcB g0 t0 (.cntrd db) db.b = 63 :=
  ⟨alone_of (by decide +kernel), alone_of (by decide +kernel), by decide +kernel, by decide +kernel, by decide, by decide, by decide +kernel⟩

/-- Matrix instructions of a squad of 64 lanes: A = 0x200, B = 0x400. -/
def matrixed : State := (group 0 64).threads.foldl (fun s t => s.withV t [(10, 0x200), (12, 0x400)]) (machine 0 64)
def mf (rows : BitVec 16) (offset : BitVec 32) (fmt : Fmt) (bias : Bool) : MatFn := ⟨0, .tern, .dense, fmt, bias, false, rows, offset⟩
def mx (a b : Fld) : Ops := ops .zero a b .zero true
def mats : List (Instr × Ops) :=
  [(.mald (mx (.v 10) (.v 12)) (mf 0 64 .s8 false), mx (.v 10) (.v 12)), (.mwld (mx (.v 10) .zero) (mf 0 64 .s8 false), mx (.v 10) .zero),
   (.mstrm (mx (.v 10) .zero) (mf 2 64 .s4 false), mx (.v 10) .zero), (.mdrn (mx (.v 10) (.v 12)) (mf 2 64 .f16 true), mx (.v 10) (.v 12)),
   (.macc (mx .zero .zero) true (mf 0 0 .s8 false), mx .zero .zero), (.mzero (mx .zero .zero) (mf 0 0 .s8 false), mx .zero .zero), (.mqsc none', none'),
   (.mwait (mx .zero .zero) (mf 0 0 .s8 false), mx .zero .zero), (.mrmap (ops (.v 8) .zero .zero .zero), ops (.v 8) .zero .zero .zero)]
theorem test_witness_matrixQueues : ∀ x ∈ mats, Together matrixed (group 0 64) x.1 x.2 (squadKey 0 0) ∧ (matrixed.guarded (group 0 64) x.2).head? = some t0 := by
  have h := List.all_eq_true.1 (show (mats.all fun x => (issuesB matrixed (group 0 64) x.1 x.2 && decide ((group 0 64).threads = matrixed.squadThreads (squadKey 0 0)) &&
    decide ((group 0 64).threads ≠ []) && (group 0 64).threads.all fun t => decide ((matrixed.thread t).run = .ready) && decide ((matrixed.thread t).pc = (group 0 64).pc)) &&
    decide ((matrixed.guarded (group 0 64) x.2).head? = some t0)) = true by decide +kernel)
  intro x hx
  have := h x hx
  rw [Bool.and_eq_true] at this
  exact ⟨together_of this.1, of_decide_eq_true this.2⟩
theorem test_witness_matrixOperands : matrixed.srcA (group 0 64) t0 (mats.head!).1 (mats.head!).2 = 0x200 ∧ matrixed.srcB (group 0 64) t0 (mats.head!).1 (mx (.v 10) (.v 12)).b = 0x400 ∧
    matrixed.overWindow 0 0x200 0x400 = false ∧ matrixed.rangeTrap 0 0 0x200 0x400 1 false = none ∧ 32 ∣ 0x240 ∧
    0x240 + imageBytes .tern .dense ≤ 0x800000 ∧ matrixed.overWindow 0 0x240 (2 * rowPitch (MatUnit.nextStructure (matrixed.core 0).mat)) = false ∧
    matrixed.rangeTrap 0 0 0x240 (2 * rowPitch (MatUnit.nextStructure (matrixed.core 0).mat)) 1 false = none ∧
    matrixed.overWindow 0 0x240 (2 * 256 * drainSize .f16) = false ∧ matrixed.rangeTrap 0 0 0x240 (2 * 256 * drainSize .f16) 2 false = none ∧
    matrixed.rangeTrap 0 0 0x240 (2 * 256 * drainSize .f16) 2 true = none ∧ matrixed.overWindow 0 0x400 1024 = false ∧
    matrixed.rangeTrap 0 0 0x400 1024 2 false = none := by decide +kernel
/-- A squad none of whose lanes is guarded (p5 is 0). -/
theorem test_witness_matrixUnguarded : let o : Ops := { none' with h := ⟨5, false, false, false, 0, false⟩ }
    Together matrixed (group 0 64) (.mqsc o) o (squadKey 0 0) ∧ matrixed.guarded (group 0 64) o = [] := ⟨together_of (by decide +kernel), by decide +kernel⟩

/-- A matrix unit with an entry at the head of its order, or an operation in flight. -/
def unit1 (op : MatOp) : State := (machine 0 1).modCore 0 fun c => { c with mat := { c.mat with queue := [{ id := 5, squad := squadKey 0 0, len := 16, op := op }] } }
def flying (e : MatEntry) : State := (machine 0 1).modCore 0 fun c => { c with mat := { c.mat with ops := [e] } }
def entry (op : MatOp) : MatEntry := { id := 5, squad := squadKey 0 0, len := 16, op := op }
theorem test_witness_matrixAccepts : (∀ op ∈ [MatOp.mald 0x200 0 32, .mstrm 0 0x200 2 .s8, .mzero 0, .mdrn 0 0x200 0 2 .f32 false false, .mwld 0 .tern .dense, .macc 0 true],
      ((unit1 op).core 0).mat.queue = [entry op] ∧ ((unit1 op).core 0).stop = false ∧ ((unit1 op).core 0).mat.accepts op = true) ∧
    (((unit1 (.mwld 0 .tern .dense)).modCore 0 fun c => { c with mat := { c.mat with loading := some 3 } }).core 0).mat.accepts (.mwld 0 .tern .dense) = false ∧
    ((unit1 (.macc 0 true)).core 0).mat.freeTile.isSome = true := by decide +kernel
theorem test_witness_matrixEnds : (∀ op ∈ [MatOp.mald 0x200 0 32, .macc 0 true, .mzero 0, .mdrn 0 0x200 0 2 .f32 false false],
      ((flying (entry op)).core 0).mat.op 5 = some (entry op) ∧ (∀ x ∈ ((flying (entry op)).core 0).mat.ops, ¬ x.id < 5) ∧
      ((flying (entry op)).core 0).mat.before 5 (entry op).touched = false ∧ ((flying (entry op)).core 0).mat.before 5 [(entry op).tile] = false) ∧
    ((flying { entry (.mstrm 0 0x200 2 .s8) with rows := 2 }).core 0).mat.op 5 = some { entry (.mstrm 0 0x200 2 .s8) with rows := 2 } ∧
    0x200 + 2 * 256 * drainSize .f32 ≤ scratchSize ∧ (flying (entry (.mdrn 0 0x200 0 2 .f32 false false))).gangCore 0 0 = some 0 := by decide +kernel
theorem test_witness_matrixLoads : let s := (machine 0 1).modCore 0 fun c => { c with mat := { c.mat with loading := some 5, next := some (0, .tern, .dense) } }
    (s.core 0).mat.loading = some 5 ∧ (s.core 0).mat.next = some (0, .tern, .dense) ∧ (s.core 0).mat.loaded = false ∧ (s.core 0).mat.ops = [] := by decide +kernel
theorem test_witness_rowRetires : let e := { entry (.mstrm 0 0x200 2 .s8) with rows := 1 }
    ((flying e).core 0).mat.op 5 = some e ∧ e.rows < 2 ∧ ((flying e).core 0).mat.before 5 [e.tile] = false := by decide +kernel

/-- Issue has stopped; traps pending of a squad. -/
def record (ck pc mask : Nat) : TrapRec :=
  { ck := ck, pc := pc, mask := BitVec.ofNat 64 mask, code := 1, cause := 0, data := 0, kind := 0, epc := pc, bytes := 0, nbytes := 8 }
def pending (h : BitVec 64) : State := (one 0 []).modSquad (squadKey 0 0) fun q => { q with handling := h, trapped := [record 9 0x3000 2, record 5 0x2000 1] }
theorem test_witness_issueStops : (((machine 0 1).modCore 0 fun c => { c with stop := true }).core (coreKey 0 0)).stop = true ∧ isMarl (coreKey 0 256) = true := by
  decide +kernel
theorem test_witness_trapDelivery : ((pending 0).squad (squadKey (coreKey 0 0) 0)).handling = 0 ∧ (pending 0).squadPicked (squadKey (coreKey 0 0) 0) = false ∧
    ((pending 0).squad (squadKey (coreKey 0 0) 0)).trapped ≠ [] ∧ ((pending 1).squad (squadKey (coreKey 0 0) 0)).handling ≠ 0 ∧
    ((pending 0).squad (squadKey (coreKey 0 0) 0)).freeAt ≤ ((pending 0).core (coreOfSquad (squadKey (coreKey 0 0) 0))).ck ∧
    ((pending 0).core (coreOfSquad (squadKey (coreKey 0 0) 0))).stop = false := by decide +kernel
/-- 01 R32: the oldest is delivered. -/
theorem test_oldest_trap : (nextOf (exec (.trapDelivery 0 0 0) (pending 0))).map (fun r => (r.squad (squadKey 0 0)).handling) = some 1 := by decide +kernel

/-! ### Witnesses: coherence at the home and at the owners -/

theorem none_all {α : Type} {P : α → Prop} {o : Option α} (h : o = none) : ∀ e, o = some e → P e := by
  rintro e he; rw [h] at he; cases he
theorem some_all {α : Type} {P : α → Prop} [DecidablePred P] {o : Option α} (h : (o.all fun e => decide (P e)) = true) : ∀ e, o = some e → P e := by
  rintro e he; subst he; simpa using h

/-- Word 0x8040 of package 0, held by memory; the agents of die 0 and of Marl core 256; messages with it. -/
def w0 : Nat := 0x8040
def agD : Nat := dieAgent 0
def agM : Nat := marlAgent 256
def it0 : Item := { w := w0, val := 5 }
def home0 (ms : List (Nat × Msg)) : State :=
  { machine 0 1 with mem := memWrite [] (4 * w0) 4 0x11223344, relcount := [(agD, 7), (agM, 9)], msgs := ms }
def regOf (a lvl : Nat) (l : List Item) : Msg :=
  { kind := .reg, src := a, dst := homeEnd w0, agent := a, level := lvl, items := l, past := true, st := .accepted, client := .none }
/-- Core 256 owns word 0x8040, whose value there is 3. -/
def State.ownedM (s : State) : State := (s.setCopy 16384 w0 { owned := true, val := 3 }).register w0 agM
def registering : State := home0 [(50, regOf agD 0 [it0])]
theorem test_witness_registers : registering.msg 50 = some (regOf agD 0 [it0]) ∧ registering.hole = false ∧ registering.serving 50 = false ∧ 50 < registering.nextId ∧
    (∀ i ∈ [it0], ∀ e, registering.ownerOf i.w = some e → e.agent = agD) ∧
    (∀ i ∈ [it0], (registering.entries i.w).length < 4 ∧ i.w / 16 = w0 / 16) ∧ registering.laneBlocked 50 (regOf agD 0 [it0]) = false ∧
    registering.lowerAgent 50 (regOf agD 0 [it0]) = false ∧ registering.occupied (llcLevel (w0 / 2 ^ 44)) w0 + 16 ≤ 12 * 2 ^ 20 ∧ registering.entries w0 = [] :=
  ⟨by decide +kernel, by decide +kernel, by decide +kernel, by decide +kernel, by simpa using none_all (by decide +kernel), by decide +kernel, by decide +kernel, by decide +kernel,
    by decide +kernel, by decide +kernel⟩
/-- Registrations that wait at the home: of core 256, for one of die 0; of a higher lane, for a lower one's; one that a notice serves. -/
def laneReg (l : Nat) : Msg := { regOf agD 0 [it0] with client := .thread (threadKey (squadKey 0 0) l) }
def rivals : State := home0 [(50, regOf agD 0 [it0]), (51, regOf agM 16384 [it0])]
def lanes2 : State := home0 [(50, laneReg 0), (51, laneReg 1)]
def served : State := home0 [(51, regOf agD 0 [it0]), (60, { kind := .inv, src := homeEnd w0, dst := agM, agent := agM, orig := 51, items := [it0], st := .accepted })]
theorem test_witness_registrationWaits : rivals.msg 51 = some (regOf agM 16384 [it0]) ∧ rivals.lowerAgent 51 (regOf agM 16384 [it0]) = true ∧
    lanes2.msg 51 = some (laneReg 1) ∧ lanes2.laneBlocked 51 (laneReg 1) = true ∧ served.msg 51 = some (regOf agD 0 [it0]) ∧ served.serving 51 = true ∧
    rivals.hole = false ∧ lanes2.hole = false ∧ served.hole = false ∧ 51 < rivals.nextId := by decide +kernel
theorem test_witness_invalidates : (registering.ownedM).msg 50 = some (regOf agD 0 [it0]) ∧ (registering.ownedM).hole = false ∧
    (registering.ownedM).serving 50 = false ∧ 50 < (registering.ownedM).nextId ∧ (registering.ownedM).laneBlocked 50 (regOf agD 0 [it0]) = false ∧
    (registering.ownedM).lowerAgent 50 (regOf agD 0 [it0]) = false ∧
    ([it0].find? fun j => match (registering.ownedM).ownerOf j.w with | some x => x.agent ≠ agD | none => false) = some it0 ∧
    ((registering.ownedM).ownerOf it0.w).map (·.agent) = some agM := by decide +kernel
/-- 03 R56, R59: a registration of a word nobody owns grants what memory holds. -/
theorem test_registrationRequest : (nextOf (exec (.registrationRequest 50) registering)).map (fun r => ((r.ownerOf w0).map (·.agent),
    (r.msg 100).map fun g => g.items.map (·.val))) = some (some agD, some [0x11223344]) := by decide +kernel

def grantOf : Msg := { kind := .grant, src := homeEnd w0, dst := agM, agent := agM, orig := 50, items := [{ w := w0, val := 0x11223344 }], st := .accepted }
/-- The grant of a word of which core 256 has stored the bytes 0 and 1. -/
def granting : State :=
  ((home0 [(50, regOf agM 16384 [{ w := w0 }]), (60, grantOf)]).setCopy 16384 w0 { pend := true, mask := 3, val := 0xAABBCCDD }).register w0 agM
theorem test_witness_grant : (∃ g m i j e c, granting.msg 60 = some g ∧ granting.msg g.orig = some m ∧ 60 ≠ g.orig ∧ g.kind = .grant ∧ g.st = .accepted ∧
    granting.hole = false ∧ isMarl 256 = true ∧ numOf 256 < 352 ∧ g.agent = marlAgent 256 ∧ m.agent = g.agent ∧ m.level = marlLevel 256 ∧ m.held = [] ∧
    m.policy = .all ∧ m.win = none ∧ g.items = [i] ∧ m.items = [j] ∧ j.w = i.w ∧ i.w < 2 ^ 50 ∧ granting.ownerOf i.w = some e ∧ e.agent = g.agent ∧
    granting.copy m.level i.w = some c ∧ c.pend = true ∧ c.win = none ∧ c.pol = .all ∧ granting.buffered g.agent i.w = none ∧ c.owned = false ∧
    ∀ y ∈ granting.msgs, y.1 = 60 → y.2 = g) := by
  refine ⟨(granting.msg 60).get!, (granting.msg 50).get!, { w := w0, val := 0x11223344 }, { w := w0 }, (granting.ownerOf w0).get!, (granting.copy 16384 w0).get!, ?_⟩
  decide +kernel
theorem test_registrationGrant : (nextOf (exec (.registrationGrant 60) granting)).map (fun r => (r.copy 16384 w0).map (·.val)) = some (some 0x1122CCDD) := by decide +kernel

def loadOf : Msg :=
  { kind := .load, src := agD, dst := homeEnd w0, agent := agD, items := [{ w := w0 }], past := true, st := .accepted, client := .thread t0, pa := 4 * w0 }
def fwdOf : Msg := { kind := .fwd, src := homeEnd w0, dst := agM, agent := agM, orig := 50, items := [{ w := w0 }], st := .accepted }
def loading : State := home0 [(50, loadOf)]
/-- The load forwarded to core 256, whose word no release has raced. -/
def forwarded : State := { ({ home0 [(50, loadOf), (60, fwdOf)] with relcount := [(agM, 8)] } : State).ownedM with relcount := [(agM, 9)] }
theorem test_witness_loadAnswered : loading.granting w0 = false ∧ loading.msg 50 = some loadOf ∧ loading.hole = false ∧ loading.serving 50 = false ∧ loadOf.attr = 0 ∧
    (∀ i ∈ loadOf.items, ∀ e, loading.ownerOf i.w = some e → loadOf.reads e.agent = true) ∧ loadOf.got = [] ∧ 50 < loading.nextId :=
  ⟨by decide +kernel, by decide +kernel, by decide +kernel, by decide +kernel, rfl, fun i hi e he => by
    obtain rfl : i = { w := w0 } := by simpa [loadOf] using hi
    exact absurd he (by rw [show loading.ownerOf w0 = none by decide +kernel]; simp), rfl, by decide +kernel⟩
/-- A grant of its word is on its way: the load waits. -/
theorem test_witness_loadWaits : let s := home0 [(50, loadOf), (51, regOf agM 16384 [{ w := w0 }]), (60, { kind := .grant, src := homeEnd w0, dst := agM, agent := agM, orig := 51, items := [{ w := w0 }], st := .accepted })]
    s.msg 50 = some loadOf ∧ s.hole = false ∧ s.serving 50 = false ∧ s.granting w0 = true := by decide +kernel
theorem test_witness_loadForwarded : (loading.ownedM).msg 50 = some loadOf ∧ (loading.ownedM).hole = false ∧ (loading.ownedM).serving 50 = false ∧
    ((loading.ownedM).ownerOf w0).map (·.agent) = some agM ∧ loadOf.reads agM = false ∧ (loading.ownedM).granting w0 = false ∧ 50 < (loading.ownedM).nextId := by decide +kernel
theorem test_witness_forwardedLoad : forwarded.msg 60 = some fwdOf ∧ forwarded.hole = false ∧ forwarded.msg fwdOf.orig = some loadOf ∧ fwdOf.orig ≠ 60 ∧
    forwarded.granting w0 = false ∧ (∀ e, forwarded.ownerOf w0 = some e → e.agent = fwdOf.agent) ∧ forwarded.releases agM ≠ fwdOf.rel ∧
    (∀ x ∈ forwarded.msgs, x.1 ≠ 60 → x.2.orig = fwdOf.orig → x.2.st = .finished) ∧ fwdOf.near fwdOf.dst = false ∧ loadOf.got = [] ∧ loadOf.items = fwdOf.items ∧
    60 < forwarded.nextId :=
  ⟨by decide +kernel, by decide +kernel, by decide +kernel, by decide +kernel, by decide +kernel, some_all (by decide +kernel), by decide +kernel, by decide +kernel,
    by decide +kernel, by decide, by decide +kernel, by decide +kernel⟩
/-- Two owners, of words of one load: the second has still to take it. -/
def forwarded2 : State :=
  { forwarded with msgs := [(50, { loadOf with items := [{ w := w0 }, { w := w0 + 1 }] }), (60, fwdOf), (61, { fwdOf with dst := agM + 1, agent := agM + 1, items := [{ w := w0 + 1 }] })] }
theorem test_witness_forwardedLoads : forwarded2.msg 60 = some fwdOf ∧ forwarded2.hole = false ∧ forwarded2.granting w0 = false ∧ forwarded2.granting (w0 + 1) = false ∧
    (forwarded2.msg fwdOf.orig).map (fun y => (y.st, y.items.length)) = some (.accepted, 2) ∧
    (∀ e, forwarded2.ownerOf w0 = some e → e.agent = fwdOf.agent) ∧ forwarded2.releases agM ≠ fwdOf.rel ∧
    (forwarded2.msg 61).map (fun z => (z.kind, z.orig, z.st)) = some (.fwd, 50, .accepted) ∧ 61 < forwarded2.nextId :=
  ⟨by decide +kernel, by decide +kernel, by decide +kernel, by decide +kernel, by decide +kernel, some_all (by decide +kernel), by decide +kernel, by decide +kernel, by decide +kernel⟩
/-- 03 R58: the owner's value, 3, answers the load; where a second owner has still to take it, the first answers nothing. -/
theorem test_forwardedLoads : ([forwarded, forwarded2].map fun s => (nextOf (exec (.forwardedLoad 60) s)).map fun r => (r.msg 50).map fun y => (y.st, y.ans)) =
    [some (some (.answered, [3])), some (some (.accepted, []))] := by decide +kernel
def answered (m : Msg) : State := home0 [(50, m)]
def answer1 : Msg := { loadOf with st := .answered, size := .s8, dest := [77], ans := [0x11223384] }
def answer2 : Msg := { loadOf with kind := .atomic, st := .answered, size := .n64, client := .none, ans := [0x11223384, 0x55667788],
                                   lanes := [{ tid := t0, c := 1, cmp := 0, dest := [77, 80] }] }
theorem test_witness_answers : (∀ m ∈ [answer1, answer2], (answered m).msg 50 = some m ∧ (answered m).hole = false ∧ m.st = .answered ∧ m.away = false ∧ m.negative = false) ∧
    answer1.kind = .load ∧ answer1.client = .thread t0 ∧ answer1.dest = [77] ∧ answer2.kind = .atomic ∧ (answer2.lanes.map (·.dest)) = [[77, 80]] ∧
    answer1.items.length = answer1.ans.length ∧ ((answered answer1).copy answer1.level w0).isNone = true ∧ ((answered answer1).copy (l2Level 0) w0).isNone = true := by
  decide +kernel
/-- The core has stored byte 0 of the word meanwhile: the load gives that byte and the others of the answer. -/
def meanwhile' : State := (answered { answer1 with size := .n32 }).setCopy 0 w0 { pend := true, mask := 1, val := 0x99 }
theorem test_witness_answerMeanwhile : (meanwhile'.msg 50).map (fun x => (x.attr, x.items, x.ans)) = some (0, [{ w := w0 }], [0x11223384]) ∧
    (meanwhile'.copy 0 w0).map (fun c => (c.pend, c.win)) = some (true, none) ∧ ((meanwhile'.copy (l2Level 0) w0).all fun c => !c.owned) = true := by decide +kernel
theorem test_answerMeanwhile : (nextOf (exec (.loadAnswer 50) meanwhile')).map (fun r => tget r.regs 77 0) = some 0x11223399 := by decide +kernel
/-- A signed byte of a load fills the register; an atomic's pair. -/
theorem test_answers : (nextOf (exec (.loadAnswer 50) (answered answer1))).map (fun r => tget r.regs 77 0) = some 0xFFFFFF84 ∧
    (nextOf (exec (.atomicAnswer 50) (answered answer2))).map (fun r => (tget r.regs 77 0, tget r.regs 80 0)) = some (0x11223384, 0x55667788) := by decide +kernel

def noticeOf (k : MsgKind) : Msg := { kind := k, src := homeEnd w0, dst := agM, agent := agM, orig := 50, items := [it0], st := .accepted }
def noticed (k : MsgKind) : State :=
  { ({ home0 [(50, regOf agD 0 [it0]), (60, noticeOf k)] with relcount := [(agM, 8)] } : State).ownedM with relcount := [(agM, 9), (agD, 7)] }
theorem test_witness_notices : (∀ k ∈ [MsgKind.inv, .rev], (noticed k).msg 60 = some (noticeOf k) ∧ (noticed k).granting w0 = false ∧
    (noticed k).entries w0 = [((noticed k).ownerOf w0).get!] ∧ ((noticed k).ownerOf w0).map (fun e => (e.mask.testBit 0, e.agent, (noticed k).races e)) = some (true, agM, false) ∧
    (noticed k).hole = false ∧ memWf (noticed k).mem = true ∧ inRam (4 * w0) = true) ∧ (noticed .inv).msg 50 = some (regOf agD 0 [it0]) ∧ agD ≠ agM ∧
    (noticed .inv).releases agM ≠ (noticeOf .inv).rel ∧ (noticed .rev).releases agM ≠ (noticeOf .rev).rel ∧ (noticeOf .inv).near agM = false ∧ (noticeOf .rev).near agM = false ∧ (noticed .rev).buffered agM w0 = none ∧ 60 < (noticed .rev).nextId ∧
    (∀ l ∈ agentLevels agM, ((noticed .rev).copy l w0).all (fun c => !c.pend) = true ∧ ((noticed .inv).copy l w0).all (fun c => !c.pend) = true) ∧ (∀ x ∈ (noticed .inv).msgs, x.1 ≠ 60 → x.2.orig = 50 → x.2.st = .finished) ∧ 50 < (noticed .inv).nextId ∧ 60 < (noticed .inv).nextId := by decide +kernel
/-- 03 R60: the notice's word leaves core 256 with its latest value, 3; the request waits for the acknowledgement. A revoked word is written back. -/
theorem test_notices : (nextOf (exec (.invalidateNotice 60) (noticed .inv))).map (fun r => (r.homeWord w0, (r.ownerOf w0).map (·.agent))) = some (3, none) ∧
    (nextOf (exec (.revocation 60) (noticed .rev))).map (fun r => ((r.msg 100).map fun z => (z.kind, z.items.map (·.val)), r.wordVal w0)) =
      some (some (.wb, [3]), 3) := by decide +kernel
def wbOf (st : Flight) : Msg := { kind := .wb, src := agD, dst := homeEnd w0, agent := agD, items := [{ w := w0, val := 0x500 }], st := st, past := true }
def wbs : State := home0 [(50, wbOf .accepted)]
theorem test_witness_writeBacks : (wbs.register w0 agD).msg 50 = some (wbOf .accepted) ∧ ((wbs.register w0 agD).ownerOf w0).map (·.agent) = some agD ∧
    ((wbs.register w0 agD).entries w0).length = 1 ∧
    (wbs.register w0 agD).hole = false ∧ memWf (wbs.register w0 agD).mem = true ∧ inRam (4 * w0) = true ∧ wbs.msg 50 = some (wbOf .accepted) ∧ wbs.ownerOf w0 = none ∧
    wbs.hole = false ∧ memWf wbs.mem = true ∧ (home0 [(50, wbOf .answered)]).msg 50 = some (wbOf .answered) ∧ (wbOf .answered).away = false := by decide +kernel
theorem test_writeBack : (nextOf (exec (.writeBack 50) (wbs.register w0 agD))).map (fun r => r.homeWord w0) = some 0x500 := by decide +kernel

def atomOf : Msg :=
  { loadOf with kind := .atomic, op := .add, size := .s32, lanes := [{ tid := t0, c := 0xFFFFFFFF, cmp := 0, dest := [77] }] }
def remoteOf : Msg := { loadOf with kind := .remote, attr := 3, items := [{ w := w0, bm := 5, val := 0xA0B000C0 }] }
theorem test_witness_homeWrites : (∀ m ∈ [atomOf, remoteOf], (home0 [(50, m)]).msg 50 = some m ∧ m.st = .accepted ∧ m.pa / 4 = w0 ∧ inRam m.pa = true ∧
    (home0 [(50, m)]).hole = false ∧ memWf (home0 [(50, m)]).mem = true ∧ (home0 [(50, m)]).serving 50 = false ∧ (home0 [(50, m)]).ownerOf w0 = none ∧
      (home0 [(50, m)]).laneBlocked 50 m = false) ∧
    atomOf.attr = 0 ∧ atomOf.size.width = 32 ∧ remoteOf.attr = 3 := by decide +kernel
theorem test_homeWrites : (nextOf (exec (.homeAtomic 50) (home0 [(50, atomOf)]))).map (fun r => r.homeWord w0) = some 0x11223343 ∧
    (nextOf (exec (.remoteWrite 50) (home0 [(50, remoteOf)]))).map (fun r => r.homeWord w0) = some 0x11B033C0 := by decide +kernel
/-- Word 0x8040 owned by cluster 0, by L2, valid there. -/
def caching (level : Nat) (c : Copy) : State := ((home0 []).register w0 agD).setCopy level w0 c
theorem test_witness_lineLeaves : memWf (home0 []).ownedM.mem = true ∧ (home0 []).ownedM.hole = false ∧
    (∀ j < 16, (home0 []).ownedM.wordMoving (w0 / 16 * 16 + j) = false ∧ inRam (4 * (w0 / 16 * 16 + j)) = true) ∧
    (∀ j < 16, ∀ e ∈ (home0 []).ownedM.entries w0, ∀ f ∈ (home0 []).ownedM.entries w0, e.mask.testBit j = true → f.mask.testBit j = true → e = f) := by
  decide +kernel
theorem test_witness_levels : ((caching 0 { owned := true }).copy 0 w0).map (·.owned) = some true ∧ (caching 0 { owned := true }).pinned = [] ∧
    ((caching 4096 { owned := true, holder := 8 }).copy 4096 w0).map (fun c => (c.owned, c.holder)) = some (true, 8) ∧
    (caching 4096 { owned := true, holder := 8 }).registering agD w0 = false ∧
    (∀ level ∈ [0, 4095, 8192, 16383], ((caching level {}).copy level w0).map (fun c => (c.owned, c.pend)) = some (false, false) ∧ (caching level {}).hole = false) := by
  decide +kernel

/-! ### Witnesses: triggered operations, commands, launches -/

def slotS (x : AsterSlot) : State := { (machine 0 1).setAslot 0 7 x with clocks := [(0, 50)] }
def starting : State := { slotS { st := .fired, kind := .send, src := 0x10100, dst := 0x10180, param := 8 } with startQueue := [(0, [7, 8])] }
theorem test_witness_slotStarts : starting.hole = false ∧ tget starting.startQueue 0 [] = [7, 8] ∧ starting.inFlight 0 < 256 ∧
    (tget starting.startCk 0 (0, 0)).1 ≠ starting.clock 0 ∧ starting.rests 0 = false ∧ starting.asterMoving 0 0 0x10100 (starting.aslot 0 7).reads = false ∧ (starting.aslot 0 7).src = 0x10100 ∧
    (({ starting with startQueue := tset starting.startQueue 0 [8], startCk := tset starting.startCk 0 (starting.clock 0, 1) } : State).startSlot 0 7).hole = false := by
  decide +kernel
/-- One of each kind whose work has ended, its done counter to be raised. -/
theorem test_witness_slotCompletes : ∀ x ∈ [({ kind := .send, cen := true, done := 5 } : AsterSlot), { kind := .fetch, cen := true, done := 5 }, { kind := .task },
      { kind := .sendsig, signalled := true, cen := true }, { kind := .red, signalled := true }, { kind := .copy, copyEnd := some 0, cen := true }],
    let s := slotS { x with st := .fired, started := true }
    s.hole = false ∧ (s.aslot 0 7).st = .fired ∧ (s.aslot 0 7).started = true ∧ (s.aslot 0 7).failing = 0 ∧ s.slotQuiet (s.aslot 0 7) = true ∧
    (s.aslot 0 7).kind = x.kind ∧ (s.aslot 0 7).signalled = x.signalled ∧ (s.aslot 0 7).copyEnd = x.copyEnd := by decide +kernel
theorem test_witness_slotEnds : ∀ c ∈ [0, 5], let s := slotS { st := .fired, kind := .task, started := true, failing := c, value := 77 }
    s.hole = false ∧ (s.aslot 0 7).st = .fired ∧ (s.aslot 0 7).started = true ∧ (s.aslot 0 7).failing = c ∧ s.slotQuiet (s.aslot 0 7) = true ∧
    (s.aslot 0 7).kind = .task ∧ (s.aslot 0 7).cen = false := by decide +kernel
def signalOf (c : Nat) : Msg :=
  { kind := .signal, src := 3, dst := 168, agent := 3, items := [{ w := 0, val := 9 }], st := .accepted, past := true, pa := c, client := .aster 3 8 }
def signalling (c : Nat) : State := { machine 0 1 with msgs := [(50, signalOf c)], counters := [(5, 7)] }
theorem test_witness_signal : (∀ c ∈ [0, 5, 63, 64, 4095], (signalling c).msg 50 = some (signalOf c) ∧ (signalling c).hole = false ∧ (signalOf c).dst = 0 * 1024 + 168 + 0 ∧
    (signalling c).hasCounter 0 0 c = decide (c < 64) ∧ (signalling c).lost.contains 0 = false ∧ (signalling c).arrivals = [] ∧ (signalOf c).ctx = 0 ∧
      (signalOf c).agent / 1024 = 0) ∧ (signalOf 64).client = .aster 3 8 := by decide +kernel
/-- 15 R290, R291: the signal of 9 arrives at counter 5; counter 4,095, not granted, fails its slot with cause 4. -/
theorem test_signal : (nextOf (exec (.signal 50) (signalling 5))).map (fun r => r.arrivals.map fun a => (a.die, a.num, a.act)) = some [(0, 5, .add 9)] ∧
    (nextOf (exec (.signal 50) (signalling 4095))).map (fun r => (r.aslot 3 8).failing) = some 4 := by decide +kernel

/-- Package 0 in D-RUN, its queue 2 of four entries at 0x50000 holding one command; its descriptors at 0x40000. -/
def cmdState (cmd : Nat) : State :=
  (({ machine 0 1 with issue := none, pkgs := [(0, {})], mem := memWrite (memWrite [] 0x40040 32
    (0x50000 + 0x84 * 2 ^ 64 + 3 * 2 ^ 96 + 0x60000 * 2 ^ 128 + 4 * 2 ^ 192)) (0x50000 + 64 * 3) 64 cmd } : State).setHreg 0 0x2800 0x40000).setHreg 0 0x2300 1
/-- The command taken, and the state past its queue's head. -/
def taken (s : State) : State := s.homePut (s.queueDesc 0 2 + 12) 4 4
/-- The state with the command queue's next index 3, an address, the record and its die. -/
def takes (s : State) (r : Nat) : Bool := match s.nextCommand 0 2 with | some (i, _, w, _) => decide (i = 3 ∧ w = r) | none => false
/-- 12 R255: a launch record of 64 lanes of one gang of two workgroups; a Marl record. -/
def record64 : Nat := 1 + 3 * 2 ^ 20 + 2 ^ 56 + 0x10000 * 2 ^ 64 + 0x11000 * 2 ^ 128 + 0x12000 * 2 ^ 192 + 0x12000 * 2 ^ 256 + 0x13000 * 2 ^ 320 + 16 * 2 ^ 384 + 7 * 2 ^ 416
def marlRecord : Nat := 2 + 3 * 2 ^ 32 + 0x10000 * 2 ^ 64 + 0x12000 * 2 ^ 256 + 0x13000 * 2 ^ 320 + 16 * 2 ^ 384
def levels4 : Nat := 64 * 2 ^ 32 + (2 ^ 32 + 16) * 2 ^ 64 + (2 ^ 32 + 32) * 2 ^ 128 + (2 * 2 ^ 32 + 48) * 2 ^ 192
def mapped (s : State) : State := { s with tcs := (2 ^ 21, [{ ctx := 0, base := 0x10000, log := 16, leaf := 0x2001F }]) :: s.tcs, mem := memWrite s.mem 0x21000 80 levels4 }
/-- What a command's record answers: a launch, or its error code. -/
def parsed (x : State × (Launch ⊕ (Nat × Nat))) : Option Nat := match x.2 with | .inl _ => none | .inr e => some e.1
def parsing (s : State) (f : State → Nat → Nat → Nat → Source → State × (Launch ⊕ (Nat × Nat))) : Option (Option Nat × Bool) :=
  (s.nextCommand 0 2).map fun n => let y := f (taken s) n.2.2.2 n.2.1 n.2.2.1 (.queue 2 3); (parsed y, match y.2 with
    | .inl l => (y.1.takeLaunch l).hole | .inr e => (y.1.statusPut 0 2 3 4 e.1 e.2).hole)
theorem test_witness_unknownCommand : ∀ k ∈ [0, 9, 255], takes (cmdState k) k = true ∧ ((taken (cmdState k)).statusPut 0 2 3 4 1 0).hole = false := by decide +kernel
theorem test_witness_launchRecords : takes (cmdState record64) record64 = true ∧ (parsing (mapped (cmdState record64)) State.parseLaunch) = some (none, false) ∧
    ((parsing (cmdState 1) State.parseLaunch).map fun x => (x.1.isSome, x.2)) = some (true, false) ∧
    (parsing (mapped (cmdState marlRecord)) State.parseMarl) = some (none, false) ∧ ((parsing (cmdState 2) State.parseMarl).map fun x => (x.1.isSome, x.2)) = some (true, false) := by
  decide +kernel
/-- CTXCREATE of context n with a descriptor at 0x70000. -/
def creating (n d : Nat) : State :=
  { cmdState (3 + n * 2 ^ 8 + 0x70000 * 2 ^ 64) with mem := memWrite (cmdState (3 + n * 2 ^ 8 + 0x70000 * 2 ^ 64)).mem 0x70000 128 (d + 0x8000 * 2 ^ 64) }
theorem test_witness_ctxcreate : ∀ x ∈ [(5, 0), (0, 0)], let s := creating x.1 x.2; let r := 3 + x.1 * 2 ^ 8 + 0x70000 * 2 ^ 64
    takes s r = true ∧ r % 256 = 3 ∧ bits r 63 14 = 0 ∧ bits r 511 128 = 0 ∧ bits r 127 64 < 2 ^ 46 ∧ 64 ∣ bits r 127 64 ∧
    (taken s).createFails 0 x.1 ((taken s).physRead (bits r 127 64) 128) = decide (x.1 = 0) ∧ ((taken s).statusPut 0 2 3 4 6 0).hole = false ∧
    ((((taken s).createCtx 0 x.1 ((taken s).physRead (bits r 127 64) 128)).putStatus x.1).statusPut 0 2 3 3 0 0).hole = false := by decide +kernel
def destroying (n : Nat) : State := { cmdState (4 + n * 2 ^ 8) with gangs := [], launches := [], slots := [] }
theorem test_witness_ctxdestroy : ∀ n ∈ [0, 7], let x := taken (destroying n); takes (destroying n) (4 + n * 2 ^ 8) = true ∧ (4 + n * 2 ^ 8) % 256 = 4 ∧
    bits (4 + n * 2 ^ 8) 511 14 = 0 ∧ (∀ c ∈ (destroying n).ctxs, c.1 / 64 = 0 → (c.2.destroying.map (·.1)) ≠ some 2) ∧
    ((tget? x.ctxs n).map fun c => c.destroying) = (if n = 7 then none else some none) ∧ x.gangs = [] ∧ x.launches = [] ∧ x.slots = [] ∧
    (x.statusPut 0 2 3 4 5 0).hole = false ∧
    ((x.modCtx n fun c => { c with destroying := some (2, 3) }).stopGangs n 9).destroyed n = true ∧
    ((((x.modCtx n fun c => { c with destroying := some (2, 3) }).stopGangs n 9).dropCtx n).statusPut 0 2 3 3 0 0).hole = false := by decide +kernel
/-- A gang of the context runs: the destruction waits. -/
theorem test_witness_ctxdestroyWaits : let s : State := cmdState 4; let y := ((taken s).modCtx 0 fun c => { c with destroying := some (2, 3) }).stopGangs 0 9
    takes s 4 = true ∧ ((tget? (taken s).ctxs 0).map fun c => c.destroying) = some none ∧ y.destroyed 0 = false ∧ (y.statusPut 0 2 3 1 0 0).hole = false := by
  decide +kernel
theorem test_witness_toksig : ∀ n ∈ [0, 7], let r := 5 + n * 2 ^ 8 + 9 * 2 ^ 64; let x := taken (cmdState r); takes (cmdState r) r = true ∧ r % 256 = 5 ∧ bits r 63 14 = 0 ∧
    bits r 511 80 = 0 ∧ 0 < bits r 79 64 ∧ bits r 79 64 < 4096 ∧ x.ctxLive n = decide (n = 0) ∧ (x.statusPut 0 2 3 4 5 0).hole = false ∧
    (x.statusPut 0 2 3 3 0 0).hole = false := by decide +kernel
theorem test_witness_taskarm : let r := 6 + 3 * 2 ^ 32 + 2 * 2 ^ 48 + 0x11000 * 2 ^ 64; let x := taken (cmdState r); takes (cmdState r) r = true ∧ r % 256 = 6 ∧
    bits r 15 14 = 0 ∧ bits r 31 19 = 0 ∧ bits r 47 32 < 4096 ∧ bits r 511 128 = 0 ∧ x.ctxLive 0 = true ∧ 64 ∣ bits r 127 64 ∧ x.hasTask 0 0 3 = true ∧
    (x.task 0 3).st = .free ∧ (x.statusPut 0 2 3 3 0 0).hole = false := by decide +kernel
def halts (cmd : Option (Nat × Nat)) : State :=
  { cmdState (7 + 0x100 * 2 ^ 64) with gangs := [(1, { launch := 2, index := 0, die := 0, st := .running, cores := [0], haltCmd := cmd })] }
theorem test_witness_halt : ∀ c ∈ [none, some (5, 1)], let r := 7 + 0x100 * 2 ^ 64; let x := taken (halts c); takes (halts c) r = true ∧ bits r 63 14 = 0 ∧
    bits r 511 160 = 0 ∧ r % 256 = 7 ∧ x.ctxLive 0 = true ∧
    ((x.namedGang 0 0x100 0).map fun y => (y.1, y.2.haltCmd, decide (y.2.st = .running))) = some (1, c, true) ∧
    ((x.stopGang 1 fun y => { y with halt := true, haltCmd := some (2, 3) }).statusPut 0 2 3 1 0 0).hole = false ∧ (x.statusPut 0 2 3 4 11 0).hole = false := by decide +kernel
/-- HALT of a gang that goes to its quiesce point already. -/
def haltStopping : State :=
  { cmdState (7 + 0x100 * 2 ^ 64) with gangs := [(1, { launch := 2, index := 0, die := 0, st := .stopping, cores := [0] })] }
theorem test_witness_haltStopping : let x := taken haltStopping; takes haltStopping (7 + 0x100 * 2 ^ 64) = true ∧ x.ctxLive 0 = true ∧
    ((x.namedGang 0 0x100 0).map fun y => (y.1, y.2.haltCmd, y.2.st)) = some (1, none, .stopping) ∧
    ((x.setGang 1 { launch := 2, index := 0, die := 0, st := .stopping, cores := [0], halt := true, haltCmd := some (2, 3) }).statusPut 0 2 3 1 0 0).hole = false := by
  decide +kernel
/-- A launch of two gangs, the record of its gang 0 as 19 R344 lays it out. -/
def launch2 : Launch :=
  { pkg := 0, ctx := 0, die := 0, addr := 0x100, source := .child 0, body := record64, levels := [64 * 2 ^ 32, 2 ^ 32 + 16, 2 ^ 32 + 32, 2 * 2 ^ 32 + 48], st := .taken, next := 1 }
def pooled (s : State) : State :=
  { s with launches := [(2, launch2)], ctxs := s.ctxs.map fun (x : Nat × Ctx) => (x.1, ({ x.2 with savepool := 0x80000000, savegangs := 1 } : Ctx)) }
def halted : Gang := { launch := 2, index := 0, die := 0, st := .halted, cores := [0], record := some 1 }
def resumes : State := let s : State := { pooled (cmdState (8 + 0x100 * 2 ^ 64)) with gangs := [(1, halted)] }
  { s with mem := memWrite (memWrite s.mem (s.gangRecord 0 1) 1024 ((s.headerFields launch2 halted 2).foldl (fun r f =>
    if f.1 < 1024 then r + f.2.2 % 2 ^ (8 * f.2.1) * 2 ^ (8 * f.1) else r) 0)) (wgRecord (s.gangRecord 0 1) 0) 32 1 }
theorem test_witness_resume : let r := 8 + 0x100 * 2 ^ 64; let x := taken resumes; takes resumes r = true ∧ r % 256 = 8 ∧ bits r 63 14 = 0 ∧ bits r 511 160 = 0 ∧
    x.ctxLive 0 = true ∧ x.namedGang 0 0x100 0 = some (1, halted) ∧ x.launch 2 = some launch2 ∧ x.recordFine launch2 halted 1 = true ∧
    (((x.setGang 1 { halted with st := .suspended, since := x.clock 0 }).homePut (x.gangRecord 0 1 + 13) 1 1).statusPut 0 2 3 3 0 0).hole = false := by decide +kernel

/-- Die 0 with no core taken; its next ck of the launch logic. -/
def idle (l : List (Nat × Launch)) : State := { cmdState 0 with gangs := [], cores := [], threads := [], squads := [], launches := l }
def logic (s : State) : State :=
  let b := ({ s with submitted := tset s.submitted 0 [] } : State).beginGangs 0
  { b with logicCk := tset b.logicCk 0 (tget b.logicCk 0 0 + 1) }
theorem test_witness_logic : ∀ l ∈ [[], [(2, { launch2 with next := 0 })], [(2, launch2)]], let s := idle l
    s.takes 0 = true ∧ s.lost.contains 0 = false ∧ s.dead.contains 0 = false ∧ tget s.submitted 0 [] = [] ∧ s.hole = false ∧
    decide ((logic s).wants 0 = []) = decide (l = []) := by decide +kernel
theorem test_witness_dispatch : ∀ n ∈ [0, 1], let x := logic (idle [(2, { launch2 with next := n })])
    (match (x.wants 0).findSome? (fun w => (x.placeFor 0 w.2).map fun cs => (w, cs)) with
     | some ((_, .start id), cs) => decide (id = 2 ∧ cs ≠ [] ∧ x.launch id = some { launch2 with next := n }) &&
        !((x.markWaiting 0 (x.wants 0)).dispatchGang id { launch2 with next := n } 0 cs).hole
     | _ => false) = true := by decide +kernel
def stopping (st : GangState) : Gang := { launch := 2, index := 0, die := 0, st := st, cores := [0] }
def quiescing (st : GangState) : State := ({ pooled (cmdState 0) with gangs := [(1, stopping st)] } : State).modCore 0 fun c => { c with stop := true }
theorem test_witness_quiesce : (quiescing .running).gang 1 = some (stopping .running) ∧ (quiescing .stopping).gang 1 = some (stopping .stopping) ∧
    (quiescing .stopping).launch 2 = some launch2 ∧ (quiescing .stopping).hole = false ∧ (quiescing .stopping).gangQuiet (stopping .stopping) = true ∧
    (quiescing .stopping).toDrain (stopping .stopping) = [] ∧ (quiescing .stopping).freeRecord launch2.ctxKey = some 0 := by decide +kernel
/-- The save of the gang meets no address outside memory: its record and its die's snapshot area lie in package 0's memory. -/
def unbinding : State := (stopping .stopping).cores.foldl (fun s k => ((s.core k).windows.filter fun w => w.2.st ≠ .unbound).foldl (fun s w => s.emptyWindow k w.1 w.2.st) s)
  ((quiescing .stopping).releaseGang (stopping .stopping))
theorem test_witness_saved : ((quiescing .stopping).saveGang 1 (stopping .stopping) launch2 (some 0)).hole = false := by
  have h : Calm unbinding.ctxs (unbinding.putGang launch2 (stopping .stopping) 0 1) := by
    refine Calm.gang (k := 0) rfl rfl (Calm.fields (Calm.clear ⟨?_, ?_, ?_, rfl⟩ ?_) ?_) ?_ ?_ <;> decide +kernel
  have h := h.snapshot (k := launch2.ctxKey) (d := (stopping .stopping).die % 8) unbinding rfl (by decide +kernel)
  exact saveGang_hole rfl rfl rfl h.hole
/-- A gang that ends at its quiesce point (19 R347), with a record free for it, and with none. -/
def doomed (n : Nat) : State :=
  let g : Gang := { stopping .stopping with doom := 9 }
  let s : State := { pooled (cmdState 0) with gangs := [(1, g)], ctxs := (pooled (cmdState 0)).ctxs.map fun (x : Nat × Ctx) => (x.1, ({ x.2 with savegangs := n } : Ctx)) }
  s.modCore 0 fun c => { c with stop := true }
theorem test_witness_doomed : ∀ n ∈ [0, 1], let g : Gang := { stopping .stopping with doom := 9 }
    (doomed n).gang 1 = some g ∧ (doomed n).launch 2 = some launch2 ∧ (doomed n).hole = false ∧ (doomed n).gangQuiet g = true ∧ (doomed n).toDrain g = [] ∧
    (doomed n).freeRecord launch2.ctxKey = (if n = 0 then none else some 0) ∧ ((doomed 0).saveGang 1 g launch2 none).hole = false := by
  decide +kernel

/-! ### Witnesses: the ends of launches, migration, faults, flits, requests -/

/-- A gang of two workgroups of which the one of core 0 is done, whose core owns the words of its completion record. -/
def finishing : State :=
  let s := own (machine 0 1) 0 [0x8800, 0x8801, 0x8802, 0x8803]
  ({ s with issue := none, gangs := [(1, { stopping .running with cores := [0, 1] })], launches := [(2, { launch2 with st := .dispatched })] } : State).modCore 0
    fun c => { c with exits := (List.range 64).map fun i => i % 3, windows := [], lastExit := 0 }
theorem test_witness_workgroupEnds : let g : Gang := { stopping .running with cores := [0, 1] }; let l : Launch := { launch2 with st := .dispatched }
    (finishing.core 0).gang = some 1 ∧ finishing.gang 1 = some g ∧ finishing.launch g.launch = some l ∧ finishing.hole = false ∧ g.completed.contains (finishing.core 0).wg = false ∧
    (finishing.core 0).exits.length = (if l.marl then 1 else 64 * l.squads) ∧ finishing.copyCmds = [] ∧ (finishing.core 0).mat.ops = [] ∧
    (finishing.core 0).mat.queue = [] ∧ (finishing.core 0).windows = [] ∧
    (match finishing.putCompletion t0 ((recRecords l.body + 16 * ((finishing.core 0).wg + l.g * g.index)) % 2 ^ 64)
      ((finishing.core 0).exits.foldl max 0 + ((finishing.core 0).exits.countP fun e => decide (e ≠ 0)) * 2 ^ 16 + (finishing.core 0).exits.length * 2 ^ 32 +
        finishing.clock 0 * 2 ^ 64) with | .put y => !y.hole | _ => false) = true ∧
    0 * 2048 + (finishing.core 0).lastExit = t0 ∧ (tget? finishing.threads t0).isSome = true ∧ g.completed.length + 1 ≠ g.cores.length := by decide +kernel
def completing : State :=
  { machine 0 1 with gangs := [(1, stopping .retired)], launches := [(2, { launch2 with st := .dispatched, placed := [0] })] }
theorem test_witness_launchEnds : completing.hole = false ∧ completing.launch 2 = some { launch2 with st := .dispatched, placed := [0] } ∧
    (∀ g ∈ completing.gangs, g.2.launch = 2 → g.2.st = .retired) ∧ (completing.ctx launch2.ctxKey).faulted = false ∧ launch2.pend = [] ∧ launch2.words = [] ∧
    launch2.source = .child launch2.die ∧ recProduce launch2.body = 7 := by decide +kernel
def merge9 : Merge := { id := 9, die := 0, opened := 5, children := [launch2] }
def merging (c : Nat) : State := { machine 0 1 with merges := [merge9], clocks := [(0, c)] }
theorem test_witness_merge : ∀ c ∈ [4100, 4101], (merging c).hole = false ∧ ((merging c).merges.find? fun x => x.id = merge9.id ∧ x.die = 0) = some merge9 ∧
    ((merging c).clock 0 < merge9.opened + 4096 ↔ c = 4100) ∧ (merging c).ctxLive launch2.ctxKey = true := by decide +kernel
def faulting : State :=
  { machine 0 1 with faultMsgs := [(0, 0, 9)], clocks := [(0, 44)], ctxs := [(0, { tvec := 0x8000, savepool := 0x80000000, savegangs := 1, grants := List.replicate 8 0 })] }
theorem test_witness_contextFault : faulting.hole = false ∧ (0, 0, (9 : BitVec 16).toNat) ∈ faulting.faultMsgs ∧ ((tget? faulting.ctxs (0 * 64 + 0)).map (·.faulted)) = some false ∧
    (State.faultCtx { faulting with faultMsgs := faulting.faultMsgs.erase (0, 0, 9) } 0 0 9).hole = false := by decide +kernel

/-- A launch of a team that die 0 may offer to die 3. -/
def team : Launch := { launch2 with next := 0, body := record64 + 2 ^ 24, levels := [64 * 2 ^ 32, 2 ^ 32 + 16, 2 ^ 32 + 32, 2 ^ 32 + 48], since := some 0 }
def offering (o : List Offer) : State :=
  { cmdState 0 with gangs := [], launches := [(2, team)], clocks := [(0, 65536)], adverts := [(3, 5), (4, 2)], offers := o }
def offer3 : Offer := { src := 0, dst := 3, launch := 2, team := 0 }
theorem test_witness_offer : let s := offering []; s.migratable 0 = [(2, team, 0)] ∧ s.lost.contains (0 * 8 + 3) = false ∧ 0 < tget s.adverts 3 0 ∧
    (∀ f < 8, f ≠ 3 → f ≠ 0 → tget s.adverts f 0 < tget s.adverts 3 0) ∧ s.takes 0 = true ∧ s.starved 0 = true ∧ s.lost.contains 0 = false ∧
    (machine 0 1).starved 0 = false := by decide +kernel
theorem test_witness_offerTaken : ((offering [offer3]).offers.find? fun o => o.dst = 3) = some offer3 ∧ (offering [offer3]).hole = false ∧
    (∀ x ∈ (offering [offer3]).offers, x.src ≠ 3) ∧ ((offering []).migratable 0).find? (fun x => x.1 = 2 ∧ x.2.2 = 0) = some (2, team, 0) ∧
    (offering [offer3]).lost.contains 3 = false ∧ ((offering []).fit team 3).isSome = true ∧ ((offering []).touch team.ctxKey 3).hole = false := by decide +kernel
/-- No cluster of die 3 is free: the team does not fit. -/
def crowded : State :=
  { offering [offer3] with cores := (List.range 32).map fun i => (coreKey 0 (96 + i), ({ gang := some 9 } : Core)) }
theorem test_witness_offerDropped : let x : State := { crowded with offers := [] }; (crowded.offers.find? fun o => o.dst = 3) = some offer3 ∧ crowded.hole = false ∧
    (x.migratable 0).find? (fun x => x.1 = 2 ∧ x.2.2 = 0) = some (2, team, 0) ∧ x.fit team 3 = none ∧ crowded.lost.contains 3 = false := by decide +kernel

/-- A thread whose next instruction's page is not mapped; its fault in the ring at 0x80000; a retried one. -/
def unmappedPc : State := ({ machine 0 1 with issue := none } : State).modThread t0 fun th => { th with pc := 0x40000 }
def fault40 : ParkedFault :=
  { num := 40, id := none, ctx := 0, page := 4, va := 0x40010, pc := 0x40000, source := 0, squad := 0, kind := 4, cause := 2, threads := [(t0, 0x40010, 4, 0x40000)] }
theorem test_witness_translationFault : unmappedPc.hole = false ∧ (tget? unmappedPc.threads t0).isSome = true ∧ (unmappedPc.thread t0).run = .ready ∧ unmappedPc.picks = [] ∧
    (unmappedPc.thread t0).phase = 0 ∧ (unmappedPc.thread t0).pc = 0x40000 ∧
    (match unmappedPc.translate (unmappedPc.ctxKey t0) (tcPath (coreOf t0)) 0x40000 { user := true, fetch := true } with
     | (y, .inr cause) => decide (y.hole = false ∧ cause = 2) | _ => false) = true ∧ (unmappedPc.thread t0).supervisor = false := by decide +kernel
def ringed : State := ({ cmdState 0 with faults := [fault40] }.setHreg 0 0x2008 0x14).setHreg 0 0x2000 0x80000
theorem test_witness_faultRecord : ringed.hole = false ∧ ({ cmdState 0 with faults := [fault40] } : State).ringSize 0 = 0 ∧
    (ringed.faults.find? fun f => f.ctx / 64 = 0 ∧ f.id = none) = some fault40 ∧ ringed.ringSize 0 ≠ 0 ∧
    (ringed.hreg 0 0x200C + 2 ^ 32 - ringed.hreg 0 0x2010) % 2 ^ 32 < ringed.ringSize 0 ∧
    (ringed.homePut (ringed.hreg 0 0x2000 % 2 ^ 46 + 32 * (ringed.hreg 0 0x200C % ringed.ringSize 0)) 32
      (fault40.va * 2 ^ 192 + fault40.pc * 2 ^ 128 + fault40.kind * 2 ^ 40 + fault40.cause * 2 ^ 32)).hole = false := by decide +kernel
def retrying : State :=
  { ({ machine 0 1 with issue := none, faults := [{ fault40 with id := some 3 }] } : State).modThread t0 (fun th => { th with run := .parked 40, pc := 0x40000 }) with
    tcs := [(0, [{ ctx := 0, base := 0x40000, log := 16, leaf := 0x2001F }])] }
theorem test_witness_retry : retrying.hole = false ∧ (retrying.faults.find? fun f => f.ctx / 64 = 0 ∧ f.id = some (3 : BitVec 32).toNat) = some { fault40 with id := some 3 } ∧
    (retrying.thread t0).run = .parked fault40.num ∧ retrying.Quiet t0 :=
  ⟨by decide +kernel, by decide +kernel, by decide +kernel, ⟨by decide +kernel, by decide +kernel, by decide +kernel, by decide +kernel, by decide +kernel, by decide +kernel⟩⟩
def shot : Shootdown := { ctx := 0, all := false, base := 0x10000, size := 0x10000, left := [0, 1] }
def shootingDown : State := { machine 0 1 with issue := none, shootdowns := [(33, shot)] }
theorem test_witness_shootdownReceive : shootingDown.hole = false ∧ tget? shootingDown.shootdowns 33 = some shot ∧ 0 ∈ shot.left ∧ shootingDown.castPending (.shootdown 33) (some 0) = false ∧
    shootingDown.shootBusy (0 * 64 + shot.ctx) shot = false ∧ shootingDown.shotWindows (0 * 64 + shot.ctx) shot = [] ∧ shootingDown.pins = [] := by decide +kernel
/-- 20 R356: the page's translation leaves the cache of core 0. -/
theorem test_shootdownReceive : (nextOf (exec (.shootdownReceive 0 33) shootingDown)).map (fun r => tget r.tcs 0 []) = some [] := by decide +kernel

/-- A load from socket 0 to its home, one flit, at the home's socket; it came to it by module 3 (k), or from its own passenger. -/
def flit (dst src : Nat) (k : Option Nat := none) : Flit := { dst := dst, src := src, pkg := 0, msg := some 50, md := k }
def flyMsg : Msg := { loadOf with st := .flying, flying := 1 }
def home : Nat := endSocket flyMsg.dst
def arrivingOf (f : Flit) : State := { machine 0 1 with msgs := [(50, flyMsg)], ingress := [(home, [f])], assembling := [(9, false)] }
/-- One flit by a module, one of its own passenger, the second of packet 9, the first of packet 8, one of a type that no message has. -/
def arrivals' : List Flit :=
  [flit home 0 (some 3), flit home home, { flit home 0 (some 3) with packet := 9 }, { flit home 0 (some 3) with packet := 8 }, { flit home 0 (some 3) with type := 21 }]
theorem test_witness_flit : (∀ f ∈ arrivals', let s := arrivingOf f
      s.ingressAt 0 home = [f] ∧ s.held 0 = false ∧ f.cast = none ∧ f.msg = some 50 ∧ s.msg 50 = some flyMsg ∧ (f.line ≠ none ∨ f.src = home ∨ f.md ≠ none) ∧
      (f.packet = 0 ∨ (f.packet, true) ∉ s.assembling) ∧ f.answer = false ∧ f.line = none) ∧
    endPkg flyMsg.dst = 0 ∧ home < 20 ∧ noiseSeen 5 = true ∧ flyMsg.st ≠ .finished ∧ (arrivals'.map fun f => decide (f.type ≤ 20)) = [true, true, true, true, false] ∧
    (arrivingOf (flit home 0 (some 3))).moduleWidth 0 home 3 = 64 ∧ ((arrivingOf (flit home 0 (some 3))).module' 0 home 3).training = false := by decide +kernel
/-- The answers to a load of socket 0 and to a notice of a home, each at its requester, and one that socket `home` is to send again. -/
def replied (k : MsgKind) : Msg := { flyMsg with kind := k, st := .answered, away := true, src := if k = .load then 0 else homeEnd w0, dst := if k = .load then homeEnd w0 else 0 }
def replying (k : MsgKind) : State :=
  let z := endSocket (replied k).src
  { machine 0 1 with msgs := [(50, replied k)], ingress := [(z, [{ flit z z with answer := true }])] }
theorem test_witness_answerFlit : ∀ k ∈ [MsgKind.load, .atomic, .wb, .inv, .rev, .fwd, .grant, .remote, .signal], let z := endSocket (replied k).src
    (replying k).ingressAt 0 z = [{ flit z z with answer := true }] ∧ (replying k).held 0 = false ∧ (replying k).msg 50 = some (replied k) ∧ z < 20 ∧
      endPkg (replied k).src = 0 ∧ (replied k).negative = false := by decide +kernel
/-- 21 R373: the answer of a load waits for its reader; a notice's acknowledgement ends it. -/
theorem test_answerFlit : (nextOf (exec (.flitReceive 0 0 0) (replying .load))).map (fun r => (r.msg 50).map (·.away)) = some (some false) ∧
    (nextOf (exec (.flitReceive 0 home 0) (replying .inv))).map (fun r => r.live 50) = some false := by decide +kernel
/-- What a passenger sends waits for the router side of its socket: by module 3; none is in service. -/
def leaving (k : Option Nat) : State := { machine 0 1 with upward := [(6, [flit 9 6 k])] }
def leavingNone : State := (List.range 24).foldl (fun s k => s.setWidth 0 6 k 0) (leaving none)
theorem test_witness_upward : ((leaving (some 3)).upwardAt 0 6 = [flit 9 6 (some 3)] ∧ (leaving (some 3)).held 0 = false) ∧ leavingNone.upwardAt 0 6 = [flit 9 6] ∧
    leavingNone.held 0 = false ∧ ∀ k < 24, leavingNone.moduleWidth 0 6 k < 32 := by decide +kernel
def held0 : State := (machine 0 1).setHreg 0 0x2404 2
def multicast (m : Nat) : Flit := { dst := 31, src := 3, mask := m, ring := some 0 }
def rings : State :=
  { machine 0 1 with transit := [(3, [flit 5 0, flit 4 0, multicast 24]), (64 + 3, [flit 4 1])], inject := [(2, List.replicate 40 (flit 9 2))], ingress := [(3, [flit 3 3])] }
theorem test_witness_rings : held0.held 0 = true ∧ rings.held 0 = false ∧
    (∀ i < 20, (rings.ingressAt 0 i).length + (rings.transitAt 0 0 i).length + (rings.transitAt 0 1 i).length < 32) ∧
    (∀ g < 2, ∀ i < 20, ∀ f ∈ rings.transitAt 0 g i, f.dst = 31 → f.mask ≠ 0) := by decide +kernel
/-- 21 R367, R369: one hop: the multicast is at socket 3 and goes on to 4. -/
theorem test_ringCycle : (nextOf (exec (.ringCycle 0) rings)).map (fun r => ((r.ingressAt 0 3).length, (r.transitAt 0 0 4).map (·.mask))) = some (2, [0, 0, 16]) := by decide +kernel
/-- A copy of request 50 has come to its home: its window new, executed, or past it; its answer stored; or a forward serves it. -/
def seqKey : Nat := pairKey flyMsg.dst flyMsg.src
def came (m : Msg) (w : Tab SeqWin) : State := { machine 0 1 with msgs := [(50, { m with arrived := 1 })], windows := w }
def executedWin : Tab SeqWin := [(seqKey, { base := 0, executed := [0], answers := [(0, ([7], false))] })]
def answeredMsg : Msg := { flyMsg with st := .answered, away := true }
def fwdAway : Msg := { kind := .fwd, src := homeEnd w0, dst := agM, agent := agM, orig := 50, items := [{ w := w0 }], past := true }
def cameForwarded : State := { came { flyMsg with st := .accepted } executedWin with msgs := [(50, { flyMsg with st := .accepted, arrived := 1 }), (60, fwdAway)] }
theorem test_witness_requests : (arrivingOf (flit home 0)).msg 50 = some flyMsg ∧ flyMsg.arrived = 0 ∧ flyMsg.past = true ∧ flyMsg.st = .flying ∧
    (∀ s ∈ [came flyMsg [], came flyMsg [(seqKey, { base := 5 })], came flyMsg executedWin, came answeredMsg executedWin, cameForwarded],
      s.held (endPkg flyMsg.dst) = false ∧ s.deaf { flyMsg with arrived := 1 } = false ∧ (s.msg 50).isSome = true) ∧
    maxMod 0 flyMsg.seq = 0 ∧ (flyMsg.seq + 2 ^ 16 - maxMod 5 flyMsg.seq) % 2 ^ 16 ≥ 2 ^ 15 ∧
    (match (came flyMsg []).filter { flyMsg with arrived := 0, flying := 0 } with | .pass => true | _ => false) = true ∧ flyMsg.seq ∉ (tget (came flyMsg []).windows seqKey {}).executed ∧
    flyMsg.seq ∈ (tget executedWin seqKey {}).executed ∧ tget? (tget executedWin seqKey {}).answers 0 = some ([7], false) ∧ answeredMsg.byGrant = false ∧
    endPkg answeredMsg.src = endPkg answeredMsg.dst ∧ endSocket answeredMsg.src ≠ endSocket answeredMsg.dst ∧
    (cameForwarded.msgs.filter fun z => z.2.orig = 50 && z.2.kind = .fwd) = [(60, fwdAway)] ∧ cameForwarded.msg 60 = some fwdAway ∧
    endPkg fwdAway.src = endPkg fwdAway.dst ∧ endSocket fwdAway.src ≠ endSocket fwdAway.dst ∧ (∀ n ∈ cameForwarded.msgs, n.2.orig = 50 → n.2.kind = .fwd → n.1 ≠ 50) := by decide +kernel
/-- 21 R373, R394: the home sends the stored answer, or the forward, again. -/
theorem test_requestReceive : (nextOf (exec (.requestReceive 50) (came answeredMsg executedWin))).map (fun r => (r.upwardAt 0 home).map (·.dst)) = some [0] ∧
    (nextOf (exec (.requestReceive 50) cameForwarded)).map (fun r => (r.msg 60).map (·.flying)) = some (some 2) := by decide +kernel
/-- Requests of a thread that waits for them, with FABRETRY 8: on its package, across the fabric, an atomic that its home has taken, one turned away. -/
def lateMsg (d tries : Nat) : Msg := { flyMsg with dst := d, tries := tries }
def lateAtomic : Msg := { lateMsg (flyMsg.dst + 1024) 8 with kind := .atomic, st := .accepted }
def turnedAway : Msg := { flyMsg with st := .answered, negative := true }
def late (m : Msg) : State := (({ machine 0 1 with msgs := [(50, m)] } : State).modThread t0 fun th => { th with token := 50 }).setHreg 0 0x2208 8
theorem test_witness_timeouts : (∀ m ∈ [lateMsg flyMsg.dst 3, lateMsg (flyMsg.dst + 1024) 8, lateAtomic, turnedAway], (late m).msg 50 = some m ∧ m.past = true ∧ m.rerouted = false ∧
      m.client = .thread t0 ∧ ((late m).thread t0).token = 50 ∧ (late m).hreg (endPkg m.src) 0x2208 ≤ 8) ∧
    endPkg flyMsg.src = endPkg flyMsg.dst ∧ endSocket flyMsg.src ≠ endSocket flyMsg.dst ∧ endPkg flyMsg.src ≠ endPkg (flyMsg.dst + 1024) ∧ turnedAway.away = false := by decide +kernel

/-! ### Witnesses: modules, lines, dies, power, the host's side -/

/-- Package 0 up: BOOTSTAT 1, PWRSTAT and PWRCMD as given. -/
def up (stat cmd : Nat) : State := ((({ machine 0 1 with pkgs := [(0, {})] } : State).setHreg 0 0x2300 1).setHreg 0 0x2404 stat).setHreg 0 0x2400 cmd
/-- Module 23 of socket 19, its lane 0 or its lane 40 failed. -/
def training (f : BitVec 64) : State := { machine 0 1 with modules := [(19 * 32 + 23, { failed := f, training := true })] }
theorem test_witness_modules : ((machine 0 1).module' 0 19 23).training = false ∧ (machine 0 1).moduleWidth 0 19 23 ≠ 0 ∧
    ([1, 0x10000000000, 0x10000000001].all fun f => ((training f).module' 0 19 23).training) = true := by decide +kernel
theorem test_moduleRetrainDone : ([1, 0x10000000000, 0x10000000001].map fun f => (nextOf (exec (.moduleRetrainDone 0 19 23) (training f))).map fun r => r.moduleWidth 0 19 23) =
    [some 32, some 32, some 0] := by decide +kernel
/-- Line 5 of plane 3 between packages 0 and 59, both up. -/
def lined (x : Line) : State :=
  (({ ((((machine 0 1).setHreg 0 0x2300 1).setHreg 59 0x2300 1).setHreg 0 0x2118 64).setHreg 59 0x2118 64 with clocks := [(0, 1000)] } : State).setHreg 59 0x211C 59).setLine 0 3 5 x
/-- A flit that came by the line stands at Silt die 0 of package 0. -/
def byLine (x : Line) : State := { lined x with ingress := [(18, [{ flit 18 18 with line := some (3 * 64 + 5) }])] }
/-- Package 59 receives on plane 3 alone. -/
def lastLine (x : Line) : State :=
  ([0, 1, 2, 4, 5, 6, 7] : List Nat).foldl (fun s plane => s.setLine 59 plane 59 { phase := .heldOut }) (lined x)
theorem test_witness_lines : ((lined { phase := .service }).lineLit 0 5 = true ∧ ((lined { phase := .service }).line 0 3 5).due = false ∧
      ((lined { phase := .service, due := true }).line 0 3 5).phase = .service ∧ (lined { phase := .service, due := true }).lineLit 0 5 = true) ∧
    (let s := byLine { phase := .service, drops := [990, 980, 970] }; s.ingressAt 0 18 = [{ flit 18 18 with line := some (3 * 64 + 5) }] ∧ s.held 0 = false ∧
      (s.line 0 3 5).drops = [990, 980, 970] ∧ s.clock 0 < 970 + 10000 * s.mhz 0 / 1000) ∧
    ((lined { phase := .tripped }).line 0 3 5).phase = .tripped ∧ linePeer 0 5 = 59 ∧
    4 ∈ (lined { phase := .tripped }).linesTo 0 0 59 ++ (lined { phase := .tripped }).linesTo 0 1 59 ∧ (let s := lastLine { phase := .tripped }; (s.line 0 3 5).phase = .tripped ∧ s.linesTo 0 0 59 ++ s.linesTo 0 1 59 = [3]) ∧
    (∀ x ∈ ([{ phase := .training, ordered := true }, { phase := .training, fails := [3, 4] }, { phase := .training, fails := [3] }] : List Line),
      ((lined x).line 0 3 5).phase = .training ∧ (lined x).lineLit 0 5 = true ∧ ((lined x).line 0 3 5).ordered = x.ordered ∧
      ((lined x).line 0 3 5).fails.countP (fun c => decide ((lined x).clock 0 < c + 1000000000 * (lined x).mhz 0 / 1000)) = x.fails.length) ∧
    ((lined { phase := .heldOut }).line 0 3 5).phase = .heldOut ∧ (lined { phase := .heldOut }).hole = false := by decide +kernel
/-- 21 R377: the fourth drop within 10 us makes the line due. -/
theorem test_fourDrops : (nextOf (exec (.flitReceive 0 18 5) (byLine { phase := .service, drops := [990, 980, 970] }))).map (fun r => (r.line 0 3 5).due) = some true := by
  decide +kernel

/-- Package 0 at ck 30,000: die 3 has no heartbeat on record; then dead; then with a context that has touched it, or with its buddy lost too. -/
def beating : State := { up 0 0 with clocks := [(0, 30000)] }
def dying : State := { beating with dead := [3], regs := [(5, 7), (100 * 65536 + 3, 9)] }
def touched : State := { dying with ctxs := [(0, { touched := 8, savepool := 0x80000000 })] }
def alone2 : State := { dying with lost := [2] }
theorem test_witness_dies : beating.alive 0 = true ∧ beating.dieUp 3 = true ∧ tget (beating.pkg 0).beats 3 0 + 8000 * beating.mhz 0 / 1000 ≤ beating.clock 0 ∧
    ({ beating with clocks := [(0, 5)] } : State).clock 0 < tget (beating.pkg 0).beats 3 0 + 8000 * beating.mhz 0 / 1000 ∧
    ({ beating with clocks := [(0, 5)] } : State).alive 0 = true := by decide +kernel
/-- Package 59 has lines in service to package 0; a notice of the loss is still on its way. -/
def paired : State := { lined { phase := .service } with clocks := [(0, 30000)] }
def telling : State := { dying with ingress := [(6, [{ (flit 6 3) with msg := none, cast := some { what := .dieLoss 3, pkg := 0 } }])] }
theorem test_witness_dieCasts : paired.alive 0 = true ∧ paired.dieUp 3 = true ∧ 59 < 64 ∧ paired.inDomain 0 59 = true ∧
    paired.linesTo 0 0 59 ++ paired.linesTo 0 1 59 ≠ [] ∧ telling.castPending (.dieLoss 3) none = true ∧ telling.hole = false ∧
    (∀ s ∈ [dying, { dying with ctxs := [(0, { touched := 8, savepool := 0x80000000 })] }, { dying with lost := [2] }], s.castPending (.dieLoss 3) none = false) := by decide +kernel

theorem test_witness_dieLoss : 3 ∈ dying.dead ∧ dying.hole = false ∧ dying.dieUp (buddyOf 3) = true ∧ dying.dieWords 3 = [] ∧ dying.msgs = [] ∧
    (∀ c ∈ dying.ctxs, c.1 / 64 = 0 → c.2.touched.testBit 3 = false) ∧ 3 ∈ touched.dead ∧ touched.hole = false ∧ touched.dieUp (buddyOf 3) = true ∧
    touched.unmirrored 3 = false ∧ ((tget? touched.ctxs 0).map fun c => (c.touched.testBit 3, c.faulted)) = some (true, false) ∧ touched.msgs = [] ∧
    (nextOf (exec (.dieLossBroadcast 0 3) touched)).isSome = true ∧ 3 ∈ alone2.dead ∧ alone2.hole = false ∧ alone2.dieUp (buddyOf 3) = false ∧ alone2.fatal 0 = false := by
  decide +kernel
def dumps : State := beating.modPkg 0 fun y => { y with dumping := some (1, 3, 7) }
theorem test_witness_fatal : beating.hole = false ∧ (beating.pkg 0).off = false ∧ (beating.pkg 0).dumping = none ∧ beating.hreg 0 0x2300 = 1 ∧ beating.fatal 0 = false ∧
    dumps.hole = false ∧ (dumps.pkg 0).off = false ∧ (dumps.pkg 0).dumping = some (1, 3, 7) := by decide +kernel
def returning : State := { beating with lost := [3] }
theorem test_witness_dieReturns : 3 ∈ returning.lost ∧ returning.alive 0 = true ∧ returning.fatal 0 = false := by decide +kernel

/-- Package 0 in D-OFF; with a dump under way; at the state that is asked for. -/
def dark : State := (up 3 0).modPkg 0 fun y => { y with off := true }
def dumping' : State := (up 0 0).modPkg 0 fun y => { y with dumping := some (1, 3, 7) }
theorem test_witness_powerRefusals : dark.hole = false ∧ (dark.pkg 0).off = true ∧ (dumping'.pkg 0).dumping ≠ none ∧ (dumping'.hreg 0 0x2120).testBit 0 = false ∧
    dumping'.powerRefusal 0 2 = 3 ∧ dumping'.powerRefusal 0 3 = 0 ∧ (up 0 0).powerRefusal 0 0 = 4 ∧ (up 1 (1 + 12 * 256)).powerRefusal 0 (1 + 12 * 256) = 4 ∧
    (up 1 (1 + 12 * 256)).powerRefusal 0 (1 + 13 * 256) = 0 ∧ ((up 0 0).pkg 0).off = false ∧ (dumping'.pkg 0).off = false := by decide +kernel
theorem test_witness_powerCommands : (∀ v ∈ [1 + 10 * 256, 2, 3], (up 0 0).hole = false ∧ (up 0 0).powerRefusal 0 v = 0) ∧ (up 1 0).powerRefusal 0 0 = 0 ∧ (up 1 0).hole = false ∧
    (∀ v ∈ [0, 1, 2, 3], (up 4 0).powerRefusal 0 v = 1 ∧ (up 0 0).powerRefusal 0 (v + 2 ^ 13) = 2) ∧ ((up 0 0).gang 1).map (·.st) = some .running ∧
    (up 0 0).gangCtx ((up 0 0).gang 1).get! / 64 = 0 := by decide +kernel
/-- 22 R384: the supply steps 10 and 29 are allowed, 9 and 30 refused with code 2. -/
theorem test_pwrcmdTrim : ([9, 10, 29, 30].map fun k => (nextOf (exec (.pwrcmdTrim 0 (BitVec.ofNat 32 (1 + k * 256))) (up 0 0))).map fun r => r.hreg 0 0x2404) =
    [some (2 * 256), some 4, some 4, some (2 * 256)] := by decide +kernel
/-- 22 R383: the code of a write refused during the transition stays when the transition ends. -/
theorem test_codeKept : (nextOf (exec (.powerTransitionDone 0) (up (4 + 256) 1))).map (fun r => r.hreg 0 0x2404) = some (1 + 256) := by decide +kernel
theorem test_witness_transitions : ((up 4 1).pkg 0).off = false ∧ ((up 2 2).hreg 0 0x2404).testBit 2 = false ∧ (∀ c ∈ [0, 1, 2, 3], ((up 4 c).hreg 0 0x2404).testBit 2 = true ∧ (up 4 c).hreg 0 0x2400 % 4 = c) ∧
    (up 4 2).holdReady 0 = false ∧ (let s : State := { up 4 2 with gangs := [], launches := [], slots := [] }; s.holdReady 0 = true ∧ s.heldWords 0 = []) := by decide +kernel

theorem test_witness_hostRegisters : (up 0 0).hole = false ∧ memWf (up 0 0).mem = true ∧ ((up 0 0).pkg 0).off = false ∧
    (∀ j ∈ [0, 127], let s := (up 0 0).setHreg 0 0x2800 0x40000; let a := (s.hreg 0 0x2800 + 32 * j) % 2 ^ 46 + 24
      4 ∣ a ∧ inRam a = true ∧ s.ownerOf (a / 4) = none ∧ s.wordMoving (a / 4) = false ∧ s.hole = false ∧ memWf s.mem = true) := by decide +kernel
/-- 22 R387: 95.0625 degrees alarm and 95 do not; 110 trip. -/
theorem test_thermalSample : (nextOf (exec (.thermalSample 0 [0, 1521, 1520] 5 6) (up 0 0))).map (fun r => (r.hreg 0 0x2560, (r.pkg 0).trip)) = some (2 ^ 31 + 2, false) ∧
    (nextOf (exec (.thermalSample 0 [1760] 5 6) (up 0 0))).map (fun r => (r.pkg 0).trip) = some true := by decide +kernel

/-- Package 0 before boot with erased flash; after it, waiting for a recovery image, or running an image. -/
def booting (stat : Nat) (fw : List (Option Firmware)) : State :=
  ({ machine 0 1 with pkgs := [(0, { firmware := fw, fuse := 3 })] } : State).setHreg 0 0x2300 stat
theorem test_witness_boot : (∀ md < 2, acceptImage (0 * 2 + md) 3 (fun _ => 0xFF) = none) ∧ (booting 0 []).hreg 0 0x2300 = 0 ∧ ((booting 0 []).pkg 0).off = false ∧
    ((booting 0 []).pkg 0).flash = [] ∧ ((booting 0 []).pkg 0).fuse = 3 := by decide +kernel
theorem test_witness_firmware : (booting 2 [none, none]).hreg 0 0x2300 = 2 ∧ ((booting 2 [none, none]).pkg 0).firmware[1]? = some none ∧
    ((booting 2 [none, none]).pkg 0).off = false ∧ ((booting 1 [some ⟨7, 5⟩, some ⟨7, 5⟩]).pkg 0).firmware = [some ⟨7, 5⟩, some ⟨7, 5⟩] ∧
    (booting 1 [some ⟨7, 5⟩, some ⟨7, 5⟩]).hreg 0 0x2300 = 1 ∧ ((booting 1 [some ⟨7, 5⟩, some ⟨7, 5⟩]).pkg 0).leaf < 2 ^ 20 := by decide +kernel

/-- Port 3 up for context 0, which its cache maps. -/
def storing : State :=
  { (up 0 0).setHreg 0 (0x2600 + 24) (2 ^ 6 + 2 ^ 7) with tcs := [(2 ^ 22 + 3, [{ ctx := 0, base := 0x10000, log := 16, leaf := 0x2001F }])] }
theorem test_witness_storage : storing.hole = false ∧ memWf storing.mem = true ∧ storing.portUp 0 3 = true ∧ storing.portMoving 0 3 0x10005 1 = false ∧
    storing.owners = [] ∧ (storing.portRead 0 3 0x10005 1).hole = false ∧ 3 < 8 ∧ storing.hreg 0 0x2300 = 1 ∧ (storing.pkg 0).off = false ∧
    (match (storing.bumpRelease (siltAgent 0 3)).portTarget 0 3 0x10005 true with
     | (y, .inl (.cached pa)) => decide (pa = 0x20005) && !y.hole && memWf y.mem && inRam pa && decide (pa % 4 = 0x10005 % 4) && decide (y.ownerOf (pa / 4) = none) &&
        decide ((y.entries (pa / 4)).length < 4) && !y.wordMoving (pa / 4)
     | _ => false) = true := by decide +kernel
theorem test_witness_hostMemory : let a := 0 * 2 ^ 46 + 0x40003 % 2 ^ 46; ((up 0 0).pkg 0).off = false ∧ inRam a = true ∧ (up 0 0).ownerOf (a / 4) = none ∧
    (up 0 0).wordMoving (a / 4) = false := by decide +kernel

/-! ### Witnesses: numbers -/

theorem test_witness_roots : (0 : Nat) < 2 ∧ 200 ≤ Nat.log2 1 + 200 ∧ (match val 0x40000000 .f32 with | .fin false n _ => decide (0 < n) | _ => false) = true ∧ Fmt.isFloat .f32 = true := by
  decide +kernel
theorem test_witness_minMax : (0x7FC00001 : Nat) < 2 ^ 32 ∧ val 0x7FC00001 .f32 = .nan ∧ val 0xFF800001 .f32 = .nan ∧ val 0x80000000 .f32 ≠ .nan ∧ val 0 .f32 ≠ .nan := by decide +kernel
/-- 04 R89: -0 is below +0; one NaN gives the other operand. -/
theorem test_minMax : minnum .f32 0 0x80000000 = 0x80000000 ∧ maxnum .f32 0x80000000 0 = 0 ∧ minnum .f16 0x7E01 0x3C00 = 0x3C00 ∧ maxnum .f16 0x7E01 0xFE00 = 0x7E00 := by decide +kernel
/-- Values that an operation of 07 R153 takes exactly: 8 = 2^3, the integer -3, 2.5; whose result underflows (the reciprocal of 2^127); an f16 below zero. -/
theorem test_witness_transcendentals : (val 0x41000000 .f32).real = some ((2 : Rat) ^ (3 : Int)) ∧ (val 0xC0400000 .f32).real = some ((-3 : Int) : Rat) ∧
    (val 0x40200000 .f32).real = some ((2 : Int) + 1 / 2 : Rat) ∧ (transc .rcp (val 0x7F000000 .f32)).real = some (1 / 2 ^ 127) ∧
    (0 : Nat) < 1 ∧ (3 : Nat) ≤ 4096 * 2 ∧ (val 0xBC00 .f16).isNan = false ∧ (∃ n d, val 0xBC00 .f16 = .fin true n d ∧ 0 < n) ∧ val 0x7E00 .f16 = .nan := by
  refine ⟨by decide +kernel, by decide +kernel, by decide +kernel, by decide +kernel, by decide, by decide, by decide +kernel, ?_, by decide +kernel⟩
  exact ⟨_, _, rfl, by decide +kernel⟩
/-- 04 R87: a sum that a format holds, and the least that overflows f16 at round to nearest. -/
theorem test_witness_rounding : (0 : Nat) < 3 ∧ rnd (.fin true 3 2) .f16 .rne = 0xBE00 ∧ rnd (.fin false 65520 1) .f16 .rne = 0x7C00 ∧
    rnd (.fin false 65519 1) .f16 .rne = 0x7BFF ∧ rnd (.fin true 65520 1) .f16 .rup = 0xFBFF := by decide +kernel

/-! ### Witnesses: local memory of groups and windows, accesses that ask -/

/-- Five threads whose v10 holds 0x100 + 8 l and whose v14 holds l. -/
def locals : State := (List.range 5).foldl (fun s l => s.withV (threadKey (squadKey 0 0) l) [(10, 0x100 + 8 * l), (14, l)]) (machine 0 5)
theorem test_witness_localGroups : let g := group 0 5
    (∀ x ∈ [(Instr.ldl dab word, dab), (.stl xabc word, xabc)], Issues locals g x.1 x.2) ∧ locals.hole = false ∧ isMarl g.core = false ∧
    g.threads.Pairwise (fun a b => laneOf a < laneOf b) ∧ locals.guarded g dab = g.threads ∧
    (∀ x ∈ [(Instr.ldl dab word, dab), (.stl xabc word, xabc)], ∀ t ∈ g.threads, (locals.thread t).failed = none ∧ (locals.thread t).phase = 0 ∧
      (locals.thread t).first = none ∧ locals.localAddr g t x.1 x.2 = 0x100 + 8 * laneOf t ∧ locals.gangCore g.core 0 = some 0 ∧
      locals.pinForeign 0 (0x100 + 8 * laneOf t) (locals.ctxKey t) = false ∧ locals.windowAt 0 (0x100 + 8 * laneOf t) = none) :=
  ⟨issues_all (by decide +kernel), by decide +kernel, by decide +kernel, by decide +kernel, by decide +kernel, by decide +kernel⟩
/-- 08 R165: the higher lane's store to the same byte stands. -/
theorem test_stl_lane_order : let s := (List.range 5).foldl (fun s l => s.withV (threadKey (squadKey 0 0) l) [(10, 0x100), (14, l + 1)]) (machine 0 5)
    (nextOf (exec (.stl xabc word) { s with issue := some (group 0 5) })).map (fun r => r.scratchRead (scratchKey 0 0x100) 4) = some 5 := by decide +kernel

/-- LDL, STL and ATOMS of 4 bytes at place 4 of slot 3, bound to 0x10000. -/
def inWindow (st : WinState) (owned : List Nat) : State := windowed st owned [(10, 0x8010), (14, 7)]
def winAccesses : List (Instr × Ops) := [(.ldl dab word, dab), (.stl xabc word, xabc), (.atoms dabc ⟨.grp, .add, .n32⟩, dabc)]
def winAfter (st : WinState) (owned : List Nat) (write : Bool) : State × (Target ⊕ Nat) :=
  ((inWindow st owned).begun g0).translate ((inWindow st owned).who t0).ctx (tcPath 0) 0x10010 { user := ((inWindow st owned).who t0).user, write := write }
theorem test_witness_windowAccesses : ∀ y ∈ [(WinState.unbound, ([] : List Nat)), (.empty, []), (.full, [3, 4, 9]), (.filling, []), (.draining, [4])],
    (∀ x ∈ winAccesses, Alone (inWindow y.1 y.2) g0 x.1 x.2 t0) ∧
    (let s := inWindow y.1 y.2
     s.hole = false ∧ (s.thread t0).failed = none ∧ (s.thread t0).phase = 0 ∧ (s.thread t0).first = none ∧ (∀ x ∈ winAccesses, s.localAddr g0 t0 x.1 x.2 = 0x8010) ∧
     s.gangCore 0 0 = some 0 ∧ s.pinForeign 0 0x8010 (s.ctxKey t0) = false ∧ s.windowAt 0 0x8010 = some 3 ∧ (s.window 0 3).st = y.1 ∧ (s.window 0 3).part = [] ∧
     (tget? (s.window 0 3).present 4).isSome = y.2.contains 4 ∧ (s.window 0 3).fills = [] ∧
     ∀ write, (winAfter y.1 y.2 write).2 = .inl (.cached 0x20010) ∧ (winAfter y.1 y.2 write).1.hole = false) := by
  intro y hy
  refine ⟨alone_all ?_, ?_⟩ <;> revert y <;> decide +kernel
theorem test_witness_windowFaults (y : WinState) : (inWindow y []).Quiet t0 := by
  unfold State.Quiet; cases y <;> decide +kernel
theorem test_witness_windowStores : (0x20010 : Nat) % 4 = 0x8010 % 4 ∧ ∀ st ∈ [WinState.empty, .full], let y := (winAfter st [] true).1; let x := (inWindow st []).who t0
    y.trapsRaces x.ctx = false ∧ x.remote (0x20010 / 4) = false ∧ y.storeWaits x (itemsOf 0x20010 4 0) = false ∧
    ∀ j ∈ itemsOf 0x20010 4 0, y.copy x.level j.w = none := by decide +kernel
/-- 08 R182: a store in a window that fills takes window fault 2. -/
theorem test_windowFault : (nextOf (exec (.stl xabc word) (inWindow .filling []))).map (fun r => ((r.squad (squadOf t0)).trec.headD 0).toNat % 65536) = some (10 + 2 * 256) := by
  decide +kernel

/-- The address 0x10100 of a page with a given leaf. -/
def paged (core leaf : Nat) : State :=
  { one core [(10, 0x10100), (14, 0xDEADBEEF), (15, 0x12345678)] with tcs := [(core, [{ ctx := 0, base := 0x10000, log := 16, leaf := leaf }])] }
def pagedAfter (core leaf : Nat) (write : Bool) : State × (Target ⊕ Nat) :=
  ((paged core leaf).begun (group core 1)).translate ((paged core leaf).who (tid core)).ctx (tcPath core) 0x10100 { user := ((paged core leaf).who (tid core)).user, write := write }
/-- Leaves: Cached; never cached; pinned to die 3; pinned to slot 2 of core 5 and of core 0. -/
def cachedLeaf : Nat := 0x2001F
def neverLeaf : Nat := 0x200DF
def dieLeaf : Nat := 0x2009F + 3 * 2 ^ 55
def coreLeaf (k : Nat) : Nat := 0x5F + k * 2 ^ 16 + 2 * 2 ^ 24
def asking : List (Instr × Ops) :=
  [(.ld dab word, dab), (.st xabc word, xabc), (.stRel xabc word, xabc), (.atom dabc ⟨.grp, .add, .n32⟩, dabc), (.atoml dabc ⟨.grp, .add, .n32⟩, dabc)]
theorem asking_alone (leaf : Nat) (h : leaf ∈ [cachedLeaf, neverLeaf, dieLeaf, coreLeaf 5, coreLeaf 0]) :
    (∀ x ∈ asking, Alone (paged 0 leaf) g0 x.1 x.2 t0) ∧ (∀ x ∈ asking, (paged 0 leaf).globalAddr g0 t0 x.1 x.2 = 0x10100) ∧
    (((paged 0 leaf).thread t0).failed = none ∧ ((paged 0 leaf).thread t0).phase = 0 ∧ ((paged 0 leaf).thread t0).first = none) := by
  refine ⟨alone_all ?_, ?_, ?_⟩ <;> revert leaf <;> decide +kernel
theorem test_witness_loadAsks : (4 : Nat) ∣ 0x10100 ∧ pagedAfter 0 cachedLeaf false = ((pagedAfter 0 cachedLeaf false).1, .inl (.cached 0x20100)) ∧
    (let y := (pagedAfter 0 cachedLeaf false).1; y.hole = false ∧ y.overlaps t0 ((itemsOf 0x20100 4 0).map (·.w)) = false ∧
      (match y.lookup ((paged 0 cachedLeaf).who t0) (itemsOf 0x20100 4 0) .grp with | .miss => true | _ => false) = true) ∧
    pagedAfter 0 (coreLeaf 0) false = ((pagedAfter 0 (coreLeaf 0) false).1, .inl (.pinCore 0 0x20100)) ∧
    (pagedAfter 0 (coreLeaf 0) false).1.hole = false ∧ (pagedAfter 0 (coreLeaf 0) false).1.uncachedPending t0 = false :=
  ⟨by decide, Prod.ext rfl (by decide +kernel), by decide +kernel, Prod.ext rfl (by decide +kernel), by decide +kernel, by decide +kernel⟩
theorem test_witness_uncached (write : Bool) : (∀ x ∈ [(neverLeaf, Target.never 0x20100), (dieLeaf, .pinDie 3 0x20100), (coreLeaf 5, .pinCore 5 0x20100)],
    (pagedAfter 0 x.1 write).2 = .inl x.2 ∧ (pagedAfter 0 x.1 write).1.hole = false ∧ (paged 0 x.1).uncachedPending t0 = false ∧
      (paged 0 x.1).releaseReady t0 .grp = true) ∧ (5 : Nat) ≠ 0 ∧ (3 : Nat) ≠ dieOf 0 := by
  refine ⟨?_, by decide, by decide⟩; cases write <;> decide +kernel
theorem test_witness_storeRegisters (core : Nat) (h : core = 0 ∨ core = 256) :
    (∀ x ∈ [(Instr.st xabc wide, xabc), (.stRel xabc wide, xabc)], Alone (paged core cachedLeaf) (group core 1) x.1 x.2 (tid core)) ∧ (8 : Nat) ∣ 0x10100 ∧
    (pagedAfter core cachedLeaf true).2 = .inl (.cached 0x20100) ∧
    (let y := (pagedAfter core cachedLeaf true).1; let x := (paged core cachedLeaf).who (tid core)
     y.hole = false ∧ y.storeWaits x (itemsOf 0x20100 8 0) = false ∧ y.trapsRaces x.ctx = false ∧ x.remote (0x20100 / 4) = false ∧
     y.releaseReady (tid core) .die = true ∧ ∀ j ∈ itemsOf 0x20100 8 0x12345678DEADBEEF, y.copy x.level j.w = none) := by
  refine ⟨alone_all ?_, by decide, ?_, ?_⟩ <;> rcases h with rfl | rfl <;> decide +kernel

/-- The word of 0x10100 owned by the die: held by its L2 (8), or by cluster 3. -/
def atDie (holder : Nat) : State :=
  let s := (((paged 0 cachedLeaf).setCopy (l2Level 0) 0x8040 { val := 6, owned := true, holder := holder }).register 0x8040 (dieAgent 0))
  if holder = 8 then s else s.setCopy (l1Level 3) 0x8040 { val := 9, owned := true, holder := 1 }
def atDieAfter (holder : Nat) : State × (Target ⊕ Nat) :=
  ((atDie holder).begun g0).translate ((atDie holder).who t0).ctx (tcPath 0) 0x10100 { user := ((atDie holder).who t0).user, write := true }
def atoms' : List (Instr × Ops) := [(.atom dabc ⟨.grp, .add, .n32⟩, dabc), (.atoml dabc ⟨.grp, .add, .n32⟩, dabc)]
theorem test_witness_atomicAtDie (holder : Nat) (h : holder = 8 ∨ holder = 3) : (∀ x ∈ atoms', Alone (atDie holder) g0 x.1 x.2 t0) ∧
    (∀ x ∈ atoms', (atDie holder).globalAddr g0 t0 x.1 x.2 = 0x10100) ∧ (atDieAfter holder).2 = .inl (.cached 0x20100) ∧
    (let y := (atDieAfter holder).1; let x := (atDie holder).who t0
     y.hole = false ∧ (atDie holder).overlaps t0 [0x8040] = false ∧ y.wbPending x.agent [0x8040] = false ∧ y.ownsHere x [0x8040] = false ∧
     (y.copy x.level 0x8040).isNone = true ∧ (y.ownerOf 0x8040).map (·.agent) = some x.agent ∧
     (y.copy (l2Level 0) 0x8040).map (fun d => (d.owned, d.win, d.holder)) = some (true, none, holder) ∧
     (holder = 8 ∨ (y.copy (l1Level holder) 0x8040).map (fun c => (c.owned, c.pend, c.win)) = some (true, false, none))) := by
  refine ⟨alone_all ?_, ?_, ?_, ?_⟩ <;> rcases h with rfl | rfl <;> decide +kernel
theorem test_witness_atomicAsks : (pagedAfter 0 cachedLeaf true).2 = .inl (.cached 0x20100) ∧ (let y := (pagedAfter 0 cachedLeaf true).1; let x := (paged 0 cachedLeaf).who t0
    y.hole = false ∧ y.ownsHere x [0x8040] = false ∧ y.ownsDie x [0x8040] = false ∧ y.wbPending x.agent [0x8040] = false ∧ (y.copy x.level 0x8040).isNone = true) := by decide +kernel
/-- 03 R71: the cluster's value 9 is added to; the L2 then holds the sum. -/
theorem test_atomicAtDie : ([8, 3].map fun h => (nextOf (exec (.atom dabc ⟨.grp, .add, .n32⟩) ((atDie h).withV t0 [(14, 1)]))).map fun r => (r.readV t0 8, r.wordVal 0x8040)) =
    [some (6, 7), some (9, 10)] := by decide +kernel
/-- Five lanes with one address at an owned word. -/
def lanes5 : State := own ((List.range 5).foldl (fun s l => s.withV (threadKey (squadKey 0 0) l) [(10, 0x10100), (14, 1)]) (machine 0 5)) 0 [0x8040]
def lanes5After : State × (Target ⊕ Nat) :=
  (lanes5.begun (group 0 5)).translate (lanes5.who t0).ctx (tcPath 0) 0x10100 { user := (lanes5.who t0).user, write := true }
theorem test_witness_atoml : let i : Instr := .atoml dabc ⟨.grp, .add, .n32⟩; let g := group 0 5
    Issues lanes5 g i dabc ∧ g.threads.Pairwise (fun a b => laneOf a < laneOf b) ∧ lanes5.guarded g dabc = t0 :: (g.threads.drop 1) ∧
    (∀ u ∈ g.threads, (lanes5.thread u).failed = none ∧ (lanes5.thread u).phase = 0 ∧ (lanes5.thread u).first = none ∧ (lanes5.thread u).pending = [] ∧
      lanes5.globalAddr g u i dabc = 0x10100 ∧ (lanes5.who u).ctx = (lanes5.who t0).ctx ∧ (lanes5.who u).user = (lanes5.who t0).user) ∧
    lanes5After.2 = .inl (.cached 0x20100) ∧ lanes5After.1.hole = false ∧ lanes5After.1.wbPending (lanes5.who t0).agent [0x8040] = false ∧
    (∀ j ∈ itemsOf 0x20100 4 0, Holds lanes5After.1 (lanes5.who t0) j.w) :=
  ⟨issues_of (by decide +kernel), by decide +kernel, by decide +kernel, by decide +kernel, by decide +kernel, by decide +kernel, by decide +kernel,
    holds_all (by decide +kernel)⟩
/-- 08 R178: lane l fetches the word plus l. -/
theorem test_atoml : (nextOf (exec (.atoml dabc ⟨.grp, .add, .n32⟩) lanes5)).map (fun r => ((List.range 5).map fun l => r.readV (threadKey (squadKey 0 0) l) 8, r.wordVal 0x8040)) =
    some ([0x80008040, 0x80008041, 0x80008042, 0x80008043, 0x80008044], 0x80008045) := by decide +kernel

/-! ### Witnesses: what waits -/

/-- A request of the thread's that has not ended: a load, an atomic, a registration. -/
def busy (s : State) (k : MsgKind) : State := { s.modThread t0 fun th => { th with pending := [90] } with msgs := [(90, { kind := k, src := 0, dst := 65536, agent := 0, st := .accepted })] }
/-- ACQ of every region while a load has not returned; while a window of the core fills; with a window's fetched word on its way. -/
def acquiring : State := one 0 [(12, 0xFFFFFFFF), (13, 0xFFFFFFFF)]
def filling3 : State := windowed .filling [] [(12, 0xFFFFFFFF), (13, 0xFFFFFFFF)]
def fetching3 (st : Flight) : State :=
  { (windowed .full [] [(12, 4), (13, 0)]).modWindow 0 3 fun w => { w with present := [(4, 2), (5, 3)] } with
    msgs := [(90, { kind := .load, src := 0, dst := 65536, agent := 0, st := st, region := 2, client := .window 0 3 })] }
theorem test_witness_acquire_waits : Alone (busy acquiring .load) g0 (.acq xb .die) xb t0 ∧ (busy acquiring .load).loadsPending t0 = true ∧
    Alone filling3 g0 (.acq xb .die) xb t0 ∧ filling3.loadsPending t0 = false ∧ filling3.fillsPending 0 (filling3.ctxKey t0) (filling3.srcB g0 t0 (.acq xb .die) xb.b) = true ∧
    (∀ st ∈ [Flight.accepted, .answered], Alone (fetching3 st) g0 (.acq xb .grp) xb t0 ∧ (fetching3 st).loadsPending t0 = false ∧
      (fetching3 st).fillsPending 0 ((fetching3 st).ctxKey t0) ((fetching3 st).srcB g0 t0 (.acq xb .grp) xb.b) = false ∧ 0 ∈ (fetching3 st).gangCores 0) :=
  ⟨alone_of (by decide +kernel), by decide +kernel, alone_of (by decide +kernel), by decide +kernel, by decide +kernel, fun st h =>
    ⟨alone_of (by revert st; decide +kernel), by revert st; decide +kernel, by revert st; decide +kernel, by revert st; decide +kernel⟩⟩
/-- 03 R70: the FULL window loses the word of region 2, keeps that of region 3, and is EMPTY. -/
theorem test_acquireWindow : (nextOf (exec (.acq xb .grp) (fetching3 .answered))).map (fun r => ((r.window 0 3).st, (r.window 0 3).present)) = some (.empty, [(5, 3)]) := by decide +kernel
theorem test_witness_fence_waits : Alone (busy (one 0 []) .load) g0 (.fence none' .grp) none' t0 ∧ (busy (one 0 []) .load).loadsPending t0 = true ∧
    Alone unreleased g0 (.fence none' .die) none' t0 ∧ unreleased.releaseReady t0 .die = false :=
  ⟨alone_of (by decide +kernel), by decide +kernel, alone_of (by decide +kernel), by decide +kernel⟩
/-- A barrier whose phase has moved while a load has not returned; the wait's second half, once it has. -/
def behindBar : State := barred 0 1 .wg { expected := 2, phase := 8, arrivals := 1 } 7
def halfway : State := behindBar.modThread t0 fun th => { th with phase := 4, heldC := 2 }
theorem test_witness_barrier_loads : Alone (busy behindBar .load) g0 (.barwait pab .wg) pab t0 ∧ Alone (busy behindBar .load) g0 (.barsync pb .wg) pb t0 ∧
    ((busy behindBar .load).loadsPending t0 = true ∧ (busy behindBar .load).releaseReady t0 .grp = true ∧ ((busy behindBar .load).thread t0).phase = 0) ∧
    ((behindBar.bar 0 7).phase + 2 ^ 16 - behindBar.srcA g0 t0 (.barwait pab .wg) pab % 2 ^ 16) % 2 ^ 16 ≠ 0 ∧ (behindBar.bar 0 7).arrivals + 1 = (behindBar.bar 0 7).expected ∧
    Alone halfway g0 (.barwait pab .wg) pab t0 ∧ (halfway.thread t0).phase = 4 ∧ (halfway.thread t0).heldC ≠ 0 ∧ halfway.loadsPending t0 = false ∧
    halfway.releaseReady t0 .grp = true ∧ (halfway.bar (halfway.barCore 0 .wg) 7).expected ≠ 0 :=
  ⟨alone_of (by decide +kernel), alone_of (by decide +kernel), by decide +kernel, by decide +kernel, by decide +kernel, alone_of (by decide +kernel), by decide +kernel,
    by decide +kernel, by decide +kernel, by decide +kernel, by decide +kernel⟩
/-- QPOP of an empty queue; QPUSH and QPOP while the thread's own access has not ended. -/
theorem test_witness_queue_waits : Alone (queued (ring 3) 9) g0 (.qpop db) db t0 ∧ ((queued (ring 3) 9).queue 5).tail = ((queued (ring 3) 9).queue 5).head ∧
    (queued (ring 3) 9).loadsPending t0 = false ∧ (queued (ring 3) 9).queueKey 0 5 = some 5 ∧
    Alone (busy (queued (ring 6) 9) .atomic) g0 (.qpush xab) xab t0 ∧ (busy (queued (ring 6) 9) .atomic).releaseReady t0 .grp = false ∧
    Alone (busy (queued (ring 6) 9) .load) g0 (.qpop db) db t0 ∧ (busy (queued (ring 6) 9) .load).loadsPending t0 = true ∧ ((busy (queued (ring 6) 9) .load).thread t0).phase = 0 ∧
    ((busy (queued (ring 6) 9) .load).queue 5).cap ≠ 0 :=
  ⟨alone_of (by decide +kernel), by decide +kernel, by decide +kernel, by decide +kernel, alone_of (by decide +kernel), by decide +kernel, alone_of (by decide +kernel),
    by decide +kernel, by decide +kernel, by decide +kernel⟩

/-! ### Witnesses: loop faults, access traps, illegal instructions -/

theorem quiet_of {s : State} {t : Nat} (h : (decide ((s.squad (squadOf t)).handling = 0) && decide ((s.squad (squadOf t)).trapped = []) && !s.squadPicked (squadOf t) &&
    !(s.thread t).supervisor && decide ((s.squad (squadOf t)).freeAt ≤ (s.core (coreOf t)).ck) && !(s.core (coreOf t)).stop) = true) : s.Quiet t := by
  simp only [Bool.and_eq_true, decide_eq_true_eq, Bool.not_eq_true'] at h
  exact ⟨h.1.1.1.1.1, h.1.1.1.1.2, h.1.1.1.2, h.1.1.2, h.1.2, h.2⟩

/-- A thread in d levels, its squad's budget 64. -/
def inLevels (d : Nat) : State :=
  (thread1 0 { pc := 0x1000, depth := d, lc0 := { level 0x800 0x2000 with frame := 0 }, lc1 := { level 0x900 0x1F00 with frame := 0 } } [(10, 5)]).modSquad (squadOf t0) fun q =>
    { q with budget := 64 }
def farOps : Ops := { xa with b := .imm32 0x2000 }
/-- LPBEG of a fifth level; of a rotating one with 64 registers; of one that ends past the level around it. -/
theorem test_witness_lpbegFaults : (∀ x ∈ [(4, lpOps, false), (1, lpOps, true), (1, farOps, false)], Alone (inLevels x.1) g0 (.lpbeg x.2.1 ⟨0, x.2.2, 2⟩) x.2.1 t0 ∧ (inLevels x.1).Quiet t0 ∧
      ((inLevels x.1).thread t0).inHandler = false ∧ ((inLevels x.1).thread t0).depth = x.1) ∧ ¬ 256 ≤ ((inLevels 1).squad (squadOf t0)).budget ∧
    (((0x1000 : Int) + (inLevels 1).offset g0 t0 farOps.b) % 2 ^ 64).toNat = 0x3000 ∧ ¬ 0x3000 / 4 < (((inLevels 1).thread t0).lc 0).stop ∧
    (((inLevels 1).thread t0).lc 0).frame = ((inLevels 1).thread t0).callDepth := by
  refine ⟨?_, by decide +kernel, by decide +kernel, by decide +kernel, by decide +kernel⟩
  intro x hx
  refine ⟨alone_of ?_, quiet_of ?_, ?_⟩ <;> revert x <;> decide +kernel
/-- LPBRK of two levels by four threads, one of them not guarded; of three where two are open; at the end PC of the outer one. -/
def nested4 : State :=
  { machine 0 4 with
    issue := some (group 0 4)
    threads := (List.range 4).map fun l => (threadKey (squadKey 0 0) l,
      { pc := 0x1000, depth := 2, preds := if l = 3 then 0 else 4, lc0 := level 0x800 0x4000, lc1 := level 0x900 0x2000 }) }
def guard2 : Ops := { none' with h := ⟨2, false, false, false, 0, false⟩ }
def endPc : State := thread1 0 { pc := 0x1000, depth := 1, lc0 := level 0x800 0x1000 } []
theorem test_witness_lpbrkGroups : Issues nested4 (group 0 4) (.lpbrk guard2 1) guard2 ∧
    (∀ u ∈ nested4.guarded (group 0 4) guard2, (nested4.thread u).inHandler = false ∧ (1 : BitVec 2).toNat + 1 ≤ (nested4.thread u).depth) ∧
    (nested4.guarded (group 0 4) guard2).length = 3 ∧ Alone nested g0 (.lpbrk none' 2) none' t0 ∧ nested.Quiet t0 ∧ (nested.thread t0).depth < (2 : BitVec 2).toNat + 1 ∧
    endPc.Quiet t0 ∧ endPc.issue = some g0 ∧ (endPc.thread t0).done = false ∧ (endPc.thread t0).lossPend = false ∧ (Instr.lpbrk none' 0).WellFormed = true ∧
    (endPc.thread t0).inHandler = false ∧ (∃ j < 4, j < (endPc.thread t0).depth ∧ ((endPc.thread t0).lc j).stop = g0.pc / 4 % 2 ^ 55) :=
  ⟨issues_of (by decide +kernel), by decide +kernel, by decide +kernel, alone_of (by decide +kernel), quiet_of (by decide +kernel), by decide +kernel, quiet_of (by decide +kernel),
    by decide +kernel, by decide +kernel, by decide +kernel, by decide +kernel, by decide +kernel, ⟨0, by decide, by decide +kernel, by decide +kernel⟩⟩
theorem test_witness_lpsave_windows : ∀ c ∈ saving.gangCores 0, ∀ y ∈ (saving.core c).windows, y.2.st = .unbound := by decide +kernel

/-- v10 at a: an address that is not aligned; one below 0, one past the gang's span; one in the copy ring's area. -/
def astray (a : Nat) (off : Nat := 0) : State := one 0 [(10, a), (12, off), (14, 7)]
theorem test_witness_accessTraps : (∀ a ∈ [0x10102, 0x102, 0xFFFFFF00, 0x180000, 0x17F800, 0x10000], (astray a).Quiet t0 ∧ (astray a).hole = false ∧
      (∀ x ∈ accesses.filter (fun x => x.1 ≠ .ld dab wide) ++ winAccesses, Alone (astray a) g0 x.1 x.2 t0)) ∧
    (∀ x ∈ accesses, ¬ 4 ∣ (astray 0x10102).globalAddr g0 t0 x.1 x.2) ∧ ((astray 0x102).thread t0).fresh ∧
    (∀ x ∈ winAccesses, (astray 0x102).localAddr g0 t0 x.1 x.2 = 0x102 ∧ (astray 0 0xFFFFFF00).localAddr g0 t0 x.1 x.2 < 0 ∧
      (astray 0x180000).localAddr g0 t0 x.1 x.2 = 0x180000 ∧ (astray 0x17F800).localAddr g0 t0 x.1 x.2 = 0x17F800) ∧
    (astray 0x180000).gangCore 0 1 = none ∧ (astray 0x17F800).gangCore 0 0 = some 0 ∧ (astray 0x17F800).pinForeign 0 0x17F800 ((astray 0x17F800).ctxKey t0) = false ∧
    (let s : State := { astray 0x10000 with pinSlots := [(1, 9)] }; s.pinForeign 0 0x10000 (s.ctxKey t0) = true) := by
  refine ⟨fun a ha => ⟨quiet_of ?_, ?_, alone_all ?_⟩, ?_, ⟨?_, ?_⟩, ?_, ?_, ?_, ?_, ?_⟩ 
  iterate 3 (revert a; decide +kernel)
  all_goals decide +kernel
/-- 08 R166: code 7, and the address in TREC4. -/
theorem test_misaligned : (nextOf (exec (.ldl dab word) (astray 0x102))).map (fun r => (((r.squad (squadOf t0)).trec.headD 0).toNat % 65536, (r.squad (squadOf t0)).trec[4]?)) =
    some (7, some 0x102) := by decide +kernel

/-- A squad of 64 registers: v code 64, a pair of an odd code, a chain of eight. -/
def few (chain : Option Chain) : State :=
  ((one 0 []).modSquad (squadOf t0) fun q => { q with budget := 64 }).modCore 0 fun c => { c with slot0 := { c.slot0 with chain := chain } }
def high : Ops := ops (.v 8) (.v 64) (.v 12) (.v 14)
def uneven : Ops := ops (.v 9) (.v 10) (.v 12) (.v 14)
def chained : Ops := { dabc with h := ⟨0, false, true, false, 0, false⟩ }
def eight : Option Chain := some ⟨0xFC0, 3, 7, [t0]⟩
theorem test_witness_illegal : (∀ c ∈ [none, eight], (few c).Quiet t0 ∧ (few c).hole = false ∧ (few c).issue = some g0 ∧ ((few c).thread t0).done = false ∧ ((few c).thread t0).lossPend = false) ∧
    g0.threads = [t0] ∧ coreOf t0 = g0.core ∧ ¬ (64 : BitVec 9).toNat < ((few none).squad (squadOf t0)).budget ∧ (9 : BitVec 9).toNat % 2 = 1 ∧ chained.h.chain = true ∧
    8 ≤ ((few eight).chainAt g0).count := by
  refine ⟨fun c hc => ⟨quiet_of ?_, ?_⟩, ?_⟩ 
  iterate 2 (revert c; decide +kernel)
  all_goals decide +kernel
/-- 05 R116: checks 6, 7 and 8. -/
theorem test_illegal : ([(high, none), (uneven, none), (chained, eight)].map fun x => (nextOf (exec (.mad x.1 ⟨.s64, false, 0⟩) (few x.2))).map fun r =>
    ((r.squad (squadOf t0)).trec.headD 0).toNat % 65536) = [some (1 + 6 * 256), some (1 + 7 * 256), some (1 + 8 * 256)] := by decide +kernel

/-- BKPT with DBGCTL bit 0 set: the gang's cores have no chain open. -/
theorem test_witness_bkptPc : ∀ c ∈ ((halting.gang 1).map (·.cores)).getD [], ∀ j < 2, ((halting.core c).slot j).chain = none := by decide +kernel
theorem test_bkptPc : (nextOf (exec (.bkpt none') halting)).map (fun r => ((r.gang 1).map (·.bkpt), (r.thread t0).pc)) = some (some 0x1000, 0x1008) := by decide +kernel
/-- In a held package, or on a lost die, no core's clock advances; a core that has stopped for a quiesce point still goes on with what has begun. -/
theorem test_witness_clockStands : held0.held (pkgOf (coreKey 0 0)) = true ∧ isMarl (coreKey 0 0) = false ∧ dieOf (coreKey 0 0) ∈ ({ machine 0 1 with lost := [0] } : State).lost ∧
    dieOf (coreKey 0 0) ∈ ({ machine 0 1 with dead := [0] } : State).dead ∧ (machine 0 1).held 0 = false ∧ dieOf (coreKey 0 0) ∉ (machine 0 1).lost := by decide +kernel
theorem test_witness_updateStands : ∀ act ∈ [Arrive.ready, .dec], (scheduling {} act).held 0 = false ∧ dieOf (coreKey 0 0) ∉ (scheduling {} act).lost ∧
    dieOf (coreKey 0 0) ∉ (scheduling {} act).dead ∧ (∀ a ∈ (scheduling {} act).arrivals, a.ck ≤ ((scheduling {} act).core (coreKey 0 0)).ck ∧ a.die / 8 = 0) := by decide +kernel

/-! ### Witnesses: launch records, the launch logic's other cases -/

/-- Die 0 with the pages of `record64` mapped and a level table of its own. -/
def tabled (tb : Nat) : State := { cmdState record64 with tcs := (mapped (cmdState record64)).tcs, mem := memWrite (cmdState record64).mem 0x21000 80 tb }
def kindOf (r : Nat) : Bool := decide (bits r 7 0 = 1 ∧ bits r 15 8 = 0 ∧ bits r 447 432 = 0 ∧ bits r 431 416 < 4096 ∧ (List.range 4).all fun i => bits r (463 + 16 * i) (448 + 16 * i) < 4096)
def evenOf (r : Nat) : Bool := decide (16 ∣ bits r 319 256 ∧ 16 ∣ bits r 383 320 ∧ 16 ∣ bits r 415 384 ∧ 16 ≤ bits r 415 384 ∧ 4 ∣ bits r 127 64)
def squadsOf (r i : Nat) : Nat := bits r (37 + 8 * i) (32 + 8 * i)
def budgetOf (r i : Nat) : Nat := 32 * 2 ^ bits r (39 + 8 * i) (38 + 8 * i)
def totalOf (r : Nat) : Nat := squadsOf r 0 + squadsOf r 1 + squadsOf r 2 + squadsOf r 3
def rolesOf (r : Nat) : Bool := decide (((List.range 4).all fun i => squadsOf r i ≤ 32) ∧ 0 < totalOf r ∧ totalOf r ≤ 32)
/-- The checks of a record in order: kind, live context, priority, alignment, roles, the level table's address; ahead of each failing one all hold. -/
def checks (r : Nat) : List Bool :=
  [kindOf r, (tabled levels4).ctxLive (bits r 31 26), decide (bits r 19 16 ≤ 11), evenOf r, rolesOf r, decide (16 ∣ bits r 191 128)]
theorem test_witness_recordFields : ([record64, record64 + 1, record64 + 2 ^ 26, record64 + 12 * 2 ^ 16, record64 + 8 * 2 ^ 256, record64 - 2 ^ 56, record64 + 8 * 2 ^ 128].map fun r =>
      (checks r).idxOf false) = [6, 0, 1, 2, 3, 4, 5] ∧
    ([record64 + 1, record64 + 2 ^ 26, record64 + 12 * 2 ^ 16, record64 + 8 * 2 ^ 256, record64 - 2 ^ 56, record64 + 8 * 2 ^ 128].map fun r =>
      match ((tabled levels4).parseLaunch 0 0x100 r (.child 0)).2 with | .inr e => some e | _ => none) =
      [some (1, 0), some (5, 0), some (3, 0), some (7, 0), some (3, 0), some (7, 0)] := by decide +kernel
def goodOf (s : State) (S n tb : Nat) : Bool :=
  let at' (j : Nat) : Nat := bits tb (64 * j + 63) (64 * j)
  let dom (e : Nat) : Nat := bits e 7 4
  let scope (e : Nat) : Nat := bits e 3 2
  let among (d : Nat) : List Nat := ((List.range n).map at').filter fun e => dom e = d
  let size (d : Nat) : Nat := ((among d).map fun e => bits e 63 32).prod
  decide ((∀ j < n, bits (at' j) 31 8 = 0 ∧ bits (at' j) 1 0 = 0 ∧ dom (at' j) ≤ 6 ∧ (if dom (at' j) ≤ 3 then 0 else dom (at' j) - 3) ≤ scope (at' j) ∧
      (0 < j → dom (at' (j - 1)) ≤ dom (at' j) ∧ scope (at' (j - 1)) ≤ scope (at' j))) ∧
    dom (at' 0) = 0 ∧ size 0 = 64 ∧ size 1 = S ∧ (among 2).length = 1 ∧ (size 2 = 1 ∨ size 2 = 2 ∨ 4 ≤ size 2) ∧ (among 3).length = 1 ∧
    (among 5).length ≤ 1 ∧ (among 6).length ≤ 1 ∧ (among 6 ≠ [] → dom (at' (n - 1)) = 6 ∧ bits (at' (n - 1)) 63 32 = 1) ∧
    (among 5 ≠ [] → if among 6 = [] then size 5 = 1 else size 5 ≤ s.hreg 0 0x2118))
/-- A fifth level, of the System domain; a workgroup level of eight; a sixteenth-bit set in level 0; a byte set past the last level. -/
def levels5 : Nat := levels4 + (2 ^ 32 + 108) * 2 ^ 256
def levels8 : Nat := levels4 + 7 * 2 ^ 160
def record5 : Nat := record64 + 2 ^ 20
/-- The context of no package. -/
def nowhere (s : State) : State := { s with ctxs := s.ctxs.map fun (x : Nat × Ctx) => (x.1, ({ x.2 with packages := 0 } : Ctx)) }
theorem test_witness_levelTables : ∀ x ∈ [(record64, levels4), (record64, levels8), (record64, levels4 + 2 ^ 16), (record64, levels4 + 2 ^ 300), (record5, levels5)],
    let z := (tabled x.2).virtRead 0 [2 ^ 21] false 0x11000 80; let n := bits x.1 22 20 + 1
    bits x.1 191 128 = 0x11000 ∧ (match z.2 with | .inl v => decide (v = x.2) | _ => false) = true ∧ x.1.testBit 23 = false ∧
    decide (bits x.2 511 (64 * n) ≠ 0) = decide (x.2 = levels4 + 2 ^ 300) ∧ goodOf z.1 (totalOf x.1) n x.2 = decide (x.2 ≠ levels4 + 2 ^ 16) ∧
    decide (bits (bits x.2 (64 * n - 1) (64 * n - 64)) 7 4 = 6) = decide (x.1 = record5) ∧ (z.1.ctx 0).packages.testBit (z.1.pkgNum 0) = true ∧ ((nowhere z.1).ctx 0).packages.testBit 0 = false ∧
    (nowhere z.1).pkgNum 0 = 0 ∧
    decide (bits x.2 191 160 ≤ 4) = decide (x.2 ≠ levels8) ∧
    squadsOf x.1 0 * budgetOf x.1 0 + squadsOf x.1 1 * budgetOf x.1 1 + squadsOf x.1 2 * budgetOf x.1 2 + squadsOf x.1 3 * budgetOf x.1 3 ≤ 1024 := by decide +kernel
/-- The table and the kernel base at addresses that nothing maps. -/
theorem test_witness_recordFaults : (match ((cmdState record64).virtRead 0 [2 ^ 21] false 0x11000 80).2 with | .inr _ => true | _ => false) = true ∧
    (match ((tabled levels4).virtRead 0 [2 ^ 21] false 0x40000 4).2, ((tabled levels4).virtRead 0 [2 ^ 21] false 0x10000 4).2 with
      | .inr _, .inl _ => true | _, _ => false) = true := by decide +kernel
theorem test_launchLevels : ([(record64, levels4 + 2 ^ 300), (record64, levels4 + 2 ^ 16), (record5, levels5), (record64, levels8), (record64 + 0x30000 * 2 ^ 64, levels4)].map fun x =>
    match ((if x.1 = record5 then nowhere (tabled x.2) else tabled x.2).parseLaunch 0 0x100 x.1 (.child 0)).2 with | .inr e => some e.1 | _ => none) = [some 2, some 2, some 5, some 8, some 13] ∧
    (match ((tabled levels4).parseLaunch 0 0x100 record64 (.child 0)).2 with | .inl l => decide (l.base = 0x10000 ∧ l.levels.length = 4 ∧ l.index = 0) | _ => false) = true := by
  decide +kernel

/-- A suspended gang whose record holds one squad with a user thread; die 0 has a place for it. -/
def suspended : Gang := { halted with st := .suspended }
def waiting' : State :=
  let s : State := { pooled (cmdState 0) with gangs := [(1, suspended)], cores := [], threads := [], squads := [] }
  let pa := s.gangRecord 0 1 + 0x1000
  { s with mem := memWrite (memWrite (memWrite s.mem (pa + 0x1000 + 320) 8 (2 ^ 10 + 2 ^ 32)) (pa + 0x6000) 16 (0x10020 + 2 ^ 64 + 6 * 2 ^ 80)) (pa + 0x86000) 4 77 }
theorem test_witness_resumes : waiting'.takes 0 = true ∧ waiting'.lost.contains 0 = false ∧ waiting'.dead.contains 0 = false ∧ tget waiting'.submitted 0 [] = [] ∧
    (((logic waiting').wants 0).findSome? fun w => ((logic waiting').placeFor 0 w.2).map fun cs => (w, cs)) = some ((0, .resume 1), [0]) ∧
    (logic waiting').gang 1 = some suspended ∧ (logic waiting').launch 2 = some launch2 ∧ launch2.marl = false ∧ (logic waiting').owners = [] := by decide +kernel
/-- What the resumption meets stays inside memory. -/
theorem test_witness_resumesInside : ((logic waiting').resumeGang 1 [0]).hole = false := by rw [resumeGang_hole]; decide +kernel
/-- Every core of die 0 is held by a running gang of priority 0 that has run its quantum; a launch of priority n wants to run. -/
def full (n : Nat) : State :=
  State.setHreg { idle [(2, { launch2 with next := 0, body := record64 + n * 2 ^ 16 }), (3, { launch2 with st := .dispatched, next := 2 })] with
    gangs := [(1, { launch := 3, index := 0, die := 0, st := .running, cores := (List.range 32).map (coreKey 0) })]
    cores := (List.range 32).map fun i => (coreKey 0 i, ({ gang := some 1 } : Core))
    clocks := [(0, 5000)] } 0 0x4000 1
/-- At priority 5 the gang is a victim, at priority 0 it is none. -/
theorem test_witness_preempts : ∀ n ∈ [0, 5], let x := logic (full n); let l : Launch := { launch2 with next := 0, body := record64 + n * 2 ^ 16 }
    (full n).takes 0 = true ∧ (full n).lost.contains 0 = false ∧ (full n).dead.contains 0 = false ∧ tget (full n).submitted 0 [] = [] ∧ x.wants 0 = [(n, .start 2)] ∧
    x.launchOf (.start 2) = some l ∧ x.fit l 0 = none ∧ x.hole = false ∧ ((l.places 0).all fun cs => x.blockers l cs = [1]) = true ∧ l.places 0 ≠ [] ∧
    ((x.gang 1).map fun y => (y.st, y.launch, decide (1024 * x.hreg 0 0x4000 + y.since ≤ x.clock 0))) = some (GangState.running, 3, true) ∧ x.hreg 0 0x4000 ≠ 0xFFFF ∧
    ((x.launch 3).map fun z => bits z.body 19 16) = some 0 := by decide +kernel
theorem test_preempt : ([0, 5].map fun n => (nextOf (exec (.launchLogicCk 0 0) (full n))).bind fun r => (r.gang 1).map (·.st)) = [some .running, some .stopping] := by
  decide +kernel

end Sys2Proof.Machine
end

section
/-! The step of a picked group, and one ck of a core (01 R19 to R23, R32). -/

namespace Sys2Proof.Machine

/-! ### A group fetches (05 R105, R116) -/

theorem frame_of_decode {block pc x n : Nat} {i : Instr} (hx : x = block / 2 ^ (8 * (pc % 32))) (hn : n = 8 + 4 * (x % 4)) (hlen : x % 4 ≠ 3)
    (room : n ≤ 32 - pc % 32) (hi : decode (x % 2 ^ (8 * n)) = .ok i) : frame block pc = .instr i (x % 2 ^ (8 * n)) n := by
  subst hn hx
  simp only [frame, if_neg hlen, if_neg (Nat.not_lt.2 room), Nat.min_eq_left room, hi]

/-- A group whose threads share one mode fetches once, and all of it issues. -/
theorem State.fetch_of_frame {s y : State} {iss : Issue} {t b bytes n : Nat} {ts : List Nat} {i : Instr} (hts : iss.threads = t :: ts)
    (hsup : ∀ u ∈ iss.threads, (s.thread u).supervisor = (s.thread t).supervisor) (hb : s.fetchBlock t iss.pc = (y, .inl b))
    (hf : frame b iss.pc = .instr i bytes n) : s.fetch iss = ({ y with issue := some { iss with bytes := bytes, nbytes := n } }, some i) := by
  have part : ∀ sup : Bool, (iss.threads.filter fun u => (s.thread u).supervisor = sup) =
      if (s.thread t).supervisor = sup then iss.threads else [] := by
    intro sup
    split
    · exact List.filter_eq_self.2 fun u hu => by simp [hsup u hu, *]
    · exact List.filter_eq_nil_iff.2 fun u hu => by simp [hsup u hu, *]
  unfold State.fetch
  simp only [part]
  cases hm : (s.thread t).supervisor <;> simp [hts, hb, hf]

/-- Settles O4: a group's step by its fetch, a hardware step by the definition of step. -/
theorem stepRunsTheDecoded : Obligations.StepRunsTheDecoded := by
  intro s
  refine ⟨?_, ?_, ?_⟩
  · intro iss rest t ts y b i hp hts hsup hb x n hlen room hi
    have hf := State.fetch_of_frame (s := { s with picks := rest }) hts hsup hb (frame_of_decode rfl rfl hlen room hi)
    simp only [step, hp, stepPick, hf]
    rfl
  · intro i rest hp ha hi
    simp only [step, hp, ha, stepEvent, hi, if_true]
  · intro hp ha
    simp only [step, hp, ha, stepEvent]

/-! ### What a core's ck reads and leaves -/

/-- The registers and memories that issue leaves alone, and what it reads of CLOCK, the picks and core k. -/
structure IssueView where
  regs : Tab Word
  mem : List Host.Cell
  scratch : Tab Byte
  copies : Tab Copy
  clocks : Tab Nat
  picks : List Issue
  ck : Nat
  stop : Bool

def State.issueView (s : State) (k : Nat) : IssueView :=
  ⟨s.regs, s.mem, s.scratch, s.copies, s.clocks, s.picks, (s.core k).ck, (s.core k).stop⟩

theorem foldl_issueView {α : Type} {f : State → α → State} {k : Nat} (hf : ∀ s x, (f s x).issueView k = s.issueView k) (l : List α) (s : State) :
    (l.foldl f s).issueView k = s.issueView k := by
  induction l generalizing s with
  | nil => rfl
  | cons x l ih => rw [List.foldl_cons, ih, hf]

section
variable (s : State) (k : Nat)

theorem State.issueView_modCore (c : Nat) {f : Core → Core} (hck : ∀ x, (f x).ck = x.ck) (hstop : ∀ x, (f x).stop = x.stop) :
    (s.modCore c f).issueView k = s.issueView k := by
  have h : ((s.modCore c f).core k).ck = (s.core k).ck ∧ ((s.modCore c f).core k).stop = (s.core k).stop := by
    rw [State.core_modCore]; split
    · exact ⟨hck _, hstop _⟩
    · exact ⟨rfl, rfl⟩
  simp only [State.issueView, h.1, h.2]
  rfl

/-! ### Updates that arrive (10 R236): requests, counters and tasks -/

theorem State.issueView_sendPacket (p a : Nat) (away : Bool) (f : Flit) (n : Nat) : (s.sendPacket p a away f n).issueView k = s.issueView k := by
  unfold State.sendPacket; dsimp only; split <;> split <;> rfl

theorem State.issueView_launchCopy (id : Nat) (m : Msg) : (s.launchCopy id m).issueView k = s.issueView k := by
  unfold State.launchCopy; dsimp only; split
  · rfl
  · exact State.issueView_sendPacket _ k _ _ _ _ _

theorem State.issueView_post (id : Nat) (m : Msg) : (s.post id m).issueView k = s.issueView k := by
  unfold State.post; split
  · rfl
  · split
    · rfl
    · exact State.issueView_launchCopy _ k _ _

theorem State.issueView_postQueued (id a b n : Nat) : (s.postQueued id a b n).issueView k = s.issueView k := by
  induction n generalizing s with
  | zero => rfl
  | succ n ih =>
    unfold State.postQueued
    split
    · split
      · rw [ih, State.issueView_post]
      · rfl
    · rfl

theorem State.issueView_finishMsg (id : Nat) : (s.finishMsg id).issueView k = s.issueView k := by
  unfold State.finishMsg
  split
  · rfl
  · dsimp only; rw [State.issueView_postQueued]; split <;> split <;> rfl

theorem State.issueView_answer (id : Nat) (m : Msg) (e : Nat) : (s.answer id m e).issueView k = s.issueView k := by
  unfold State.answer State.answerFlit; dsimp only; split
  · rfl
  · rw [State.issueView_sendPacket]; rfl

theorem State.issueView_ack (id : Nat) : (s.ack id).issueView k = s.issueView k := by
  unfold State.ack
  split
  · rfl
  · split
    · rw [State.issueView_finishMsg]; rfl
    · exact State.issueView_answer _ _ _ _ _

theorem State.issueView_fireFrom (die c : Nat) (l : List Nat) : (s.fireFrom die c l).issueView k = s.issueView k := by
  induction l generalizing s with
  | nil => rfl
  | cons n l ih =>
    simp only [State.fireFrom]; split
    · rfl
    · rw [ih]; rfl

theorem State.issueView_setCounter (die c v : Nat) : (s.setCounter die c v).issueView k = s.issueView k := by
  unfold State.setCounter State.evalCounter
  dsimp only
  rw [State.issueView_fireFrom]; rfl

theorem State.issueView_taskReady (die n : Nat) : (s.taskReady die n).issueView k = s.issueView k := by
  unfold State.taskReady; split <;> rfl

theorem State.issueView_taskDec (die n : Nat) : (s.taskDec die n).issueView k = s.issueView k := by
  unfold State.taskDec; dsimp only; split
  · rfl
  · split <;> rfl

theorem State.issueView_applyArrival (a : Arrival) : (s.applyArrival a).issueView k = s.issueView k := by
  have act : ∀ r : State, r.issueView k = s.issueView k →
      (match a.msg with | some m => r.ack m | none => r).issueView k = s.issueView k := by
    intro r hr
    split
    · rw [State.issueView_ack, hr]
    · exact hr
  refine act _ ?_
  split
  · exact State.issueView_setCounter _ _ _ _ _
  · exact State.issueView_setCounter _ _ _ _ _
  · exact State.issueView_taskReady _ _ _ _
  · exact State.issueView_taskDec _ _ _ _

theorem State.issueView_settleArrivals (p ck : Nat) : (s.settleArrivals p ck).issueView k = s.issueView k := by
  unfold State.settleArrivals
  exact foldl_issueView (fun s a => State.issueView_applyArrival s k a) _ _

/-! ### Pending traps (01 R32) -/

theorem State.issueView_deliverTrap (q : Nat) : (s.deliverTrap q).issueView k = s.issueView k := by
  unfold State.deliverTrap
  split
  · rfl
  · refine (foldl_issueView (fun _ _ => ?_) _ _).trans ?_ <;> rfl

theorem State.issueView_settleTraps (q : Nat) : (s.settleTraps q).issueView k = s.issueView k := by
  unfold State.settleTraps; dsimp only; split
  · exact State.issueView_deliverTrap _ _ _
  · rfl

theorem State.issueView_settleCore (c : Nat) : (s.settleCore c).issueView k = s.issueView k := by
  refine foldl_issueView (fun s q => ?_) _ _
  split
  · rfl
  · exact State.issueView_settleTraps _ _ _

/-! ### The issue table and the slots (01 R17 to R22) -/

theorem Core.place_ck (c : Core) (t pc kernel since yield : Nat) : (c.place t pc kernel since yield).ck = c.ck := by
  unfold Core.place; split
  · rfl
  · split <;> rfl

theorem Core.place_stop (c : Core) (t pc kernel since yield : Nat) : (c.place t pc kernel since yield).stop = c.stop := by
  unfold Core.place; split
  · rfl
  · split <;> rfl

theorem Core.setSlot_ck (c : Core) (i : Nat) (x : Slot) : (c.setSlot i x).ck = c.ck := by unfold Core.setSlot; split <;> rfl
theorem Core.setSlot_stop (c : Core) (i : Nat) (x : Slot) : (c.setSlot i x).stop = c.stop := by unfold Core.setSlot; split <;> rfl

theorem State.issueView_arrange (c : Nat) : (s.arrange c).issueView k = s.issueView k := by
  refine (foldl_issueView (fun s u => ?_) _ _).trans ?_
  · have place : (s.modCore c fun x => x.place u.1 (s.thread u.1).pc (s.kernelOf u.1) u.2 (s.thread u.1).yieldUntil).issueView k = s.issueView k :=
      State.issueView_modCore _ _ _ (fun _ => Core.place_ck _ _ _ _ _ _) fun _ => Core.place_stop _ _ _ _ _ _
    dsimp only; split <;> exact place
  · refine (State.issueView_modCore _ k c (f := fun x => { x with unplaced := [] }) (fun _ => rfl) fun _ => rfl).trans ?_
    exact State.issueView_modCore _ k c (fun _ => rfl) fun _ => rfl

theorem State.issueView_occupy (c slot : Nat) (g : Cand) : (s.occupy c slot g).issueView k = s.issueView k := by
  have pipes : ∀ (y : Core) (n : Nat) (P : Core → Prop), (∀ m, P { y with pipe0 := m }) → (∀ m, P { y with pipe1 := m }) → P y →
      P (if g.port = .arith then if y.pipe0 ≤ y.ck then { y with pipe0 := n } else { y with pipe1 := n } else y) := by
    intro y n P h0 h1 h
    split
    · split
      · exact h0 n
      · exact h1 n
    · exact h
  refine State.issueView_modCore _ _ _ (fun x => ?_) fun x => ?_
  · exact pipes _ _ (fun y => y.ck = x.ck) (fun _ => Core.setSlot_ck _ _ _) (fun _ => Core.setSlot_ck _ _ _) (Core.setSlot_ck _ _ _)
  · exact pipes _ _ (fun y => y.stop = x.stop) (fun _ => Core.setSlot_stop _ _ _) (fun _ => Core.setSlot_stop _ _ _) (Core.setSlot_stop _ _ _)

theorem State.issueView_waits (c : Nat) (picks : List (Nat × Cand)) : (s.waits c picks).issueView k = s.issueView k :=
  State.issueView_modCore _ _ _ (fun _ => rfl) fun _ => rfl

end

/-! ### The stages of a ck -/

/-- A core's ck goes up from ck, and CLOCK with it. -/
def State.ckUp (s : State) (k ck : Nat) : State :=
  let s := if ck ≥ s.clock (pkgOf k) then { s with clocks := tset s.clocks (pkgOf k) (ck + 1) } else s
  s.modCore k fun c => { c with ck := c.ck + 1 }

/-- The event counters that rise with the ck. -/
def State.ckCounts (s : State) (k : Nat) : State :=
  let s := s.count k 1 1
  let holds := (s.threads.filter fun x => coreOf x.1 = k ∧ x.2.run = .hold).length
  let s := if isMarl k then s else s.count k 12 holds
  let streaming : Bool := (s.core k).mat.ops.any fun e => match e.op with | .mstrm _ _ _ _ => true | _ => false
  if isMarl k || streaming then s else s.count k 11 1

/-- What picks cost: the event counters of issue, slots and pipes, the wait counts. -/
def State.charge (s : State) (k : Nat) (picks : List (Nat × Cand)) : State :=
  let new := s.firsts picks
  let s := new.foldl (fun s x => s.count k 4 x.2.threads.length) (s.count k 2 new.length)
  let s := if new.length = 2 then s.count k 3 1 else s
  (picks.foldl (fun s x => s.occupy k x.1 x.2) s).waits k picks

/-- A ck in which issue has not stopped: the threads that go on, then the picks. -/
def State.issueNew (s : State) (k : Nat) : State :=
  let x := (s.settleCore k).arrange k
  let y := x.charge k (x.choose k)
  { y with picks := y.picks ++ x.resumes k (fun _ => true) ++
      (x.choose k).map fun g => { core := k, slot := g.1, pc := g.2.pc, threads := g.2.threads } }

/-- A core that has no ck: its package is held, or its die is lost. -/
def State.stands (s : State) (k : Nat) : Prop :=
  s.held (pkgOf k) = true ∨ (isMarl k = false ∧ (dieOf k ∈ s.lost ∨ dieOf k ∈ s.dead))

section
variable (s : State) (k : Nat)

theorem State.issueStep_of_stands (h : s.stands k) : s.issueStep k = s := by
  unfold State.issueStep
  exact if_pos (by simpa only [List.contains_iff_mem, State.stands] using h)

theorem State.issueStep_of_not_stands (h : ¬ s.stands k) : s.issueStep k =
    let x := ((s.settleArrivals (pkgOf k) (s.core k).ck).ckUp k (s.core k).ck).ckCounts k
    if x.rests (pkgOf k) then x else if (x.core k).stop then x.finishIssued k else x.issueNew k := by
  unfold State.issueStep
  exact if_neg (by simpa only [List.contains_iff_mem, State.stands] using h)

/-- The view of a core whose ck has advanced. -/
def IssueView.tick (v : IssueView) (p : Nat) : IssueView :=
  { v with clocks := if v.ck ≥ tget v.clocks p 0 then tset v.clocks p (v.ck + 1) else v.clocks, ck := v.ck + 1 }

theorem IssueView.tick_clock (v : IssueView) (p : Nat) : tget (v.tick p).clocks p 0 = max (tget v.clocks p 0) (v.ck + 1) := by
  simp only [IssueView.tick]; split
  · rw [tget_tset_self]; omega
  · omega

/-- The view of a core that has added to the picks. -/
def IssueView.pick (v : IssueView) (l : List Issue) : IssueView := { v with picks := v.picks ++ l }

theorem State.issueView_pick (l m : List Issue) : ({ s with picks := s.picks ++ l ++ m } : State).issueView k = (s.issueView k).pick (l ++ m) := by
  rw [List.append_assoc]; rfl

theorem State.issueView_ckUp {ck : Nat} (h : (s.core k).ck = ck) : (s.ckUp k ck).issueView k = (s.issueView k).tick (pkgOf k) := by
  subst h
  by_cases h : tget s.clocks (pkgOf k) 0 ≤ (s.core k).ck
  · simp only [State.ckUp, State.clock, State.issueView, IssueView.tick, ge_iff_le, h, if_true, State.core_modCore]
    rfl
  · simp [State.ckUp, State.clock, State.issueView, IssueView.tick, h]

theorem State.issueView_ckCounts : (s.ckCounts k).issueView k = s.issueView k := by
  unfold State.ckCounts; dsimp only
  split <;> split <;> rfl

/-- The updates of the ck that ends, the clocks, the event counters of the ck. -/
theorem State.issueView_ckBegun :
    (((s.settleArrivals (pkgOf k) (s.core k).ck).ckUp k (s.core k).ck).ckCounts k).issueView k = (s.issueView k).tick (pkgOf k) := by
  have h := State.issueView_settleArrivals s k (pkgOf k) (s.core k).ck
  have hck : ((s.settleArrivals (pkgOf k) (s.core k).ck).core k).ck = (s.core k).ck := congrArg IssueView.ck h
  rw [State.issueView_ckCounts, State.issueView_ckUp _ _ hck, h]

theorem State.issueView_charge (picks : List (Nat × Cand)) : (s.charge k picks).issueView k = s.issueView k := by
  refine (State.issueView_waits _ _ _ _).trans ((foldl_issueView (fun s x => State.issueView_occupy s k _ _ _) _ _).trans ?_)
  split <;> (refine (foldl_issueView (fun _ _ => ?_) _ _).trans ?_ <;> rfl)

end

/-! ### What is picked -/

section
variable {s : State} {k : Nat}

theorem State.choose_length (s : State) (k : Nat) : (s.choose k).length ≤ 2 := by
  unfold State.choose; dsimp only
  split
  · simp
  · simp
  · simp
  · split
    · split <;> simp
    · split <;> simp

/-- A Marl core has no second slot (01 R33). -/
theorem State.choose_length_of_marl (h : isMarl k = true) : (s.choose k).length ≤ 1 := by
  unfold State.choose; dsimp only
  simp only [h, if_true]
  split <;> simp_all

theorem State.mem_resumes {may : Nat → Bool} {x : Issue} (hx : x ∈ s.resumes k may) :
    x.core = k ∧ x.again = true ∧ ∀ t ∈ x.threads, may t = true := by
  obtain ⟨g, -, rfl⟩ := List.mem_map.1 hx
  refine ⟨rfl, rfl, fun t ht => ?_⟩
  obtain ⟨l, -, hl⟩ := List.mem_flatMap.1 ht
  obtain ⟨y, hy, rfl⟩ := List.mem_map.1 (List.mem_filter.1 (List.mem_filter.1 hl).1).1
  have hall := (List.mem_filter.1 hy).2
  simp only [Bool.and_eq_true] at hall
  obtain ⟨⟨-, hmay⟩, -⟩ := hall
  exact hmay

theorem State.phase_of_midway {t : Nat} (h : s.midway t = true) : (s.thread t).phase ≠ 0 :=
  of_decide_eq_true (Bool.and_eq_true_iff.1 h).1

theorem foldl_ready_phase (ts : List Nat) (s : State) (t : Nat) :
    ((ts.foldl (fun s t => s.modThread t fun th => { th with run := .ready }) s).thread t).phase = (s.thread t).phase := by
  induction ts generalizing s with
  | nil => rfl
  | cons u ts ih => rw [List.foldl_cons, ih, State.thread_modThread]; split <;> rfl

/-- What a core adds to the picks where issue has stopped (19 R338): threads in the middle of an instruction. -/
theorem State.issueView_finishIssued (s : State) (k : Nat) : ∃ l, (s.finishIssued k).issueView k = (s.issueView k).pick l ∧
    ∀ x ∈ l, x.core = k ∧ x.again = true ∧ ∀ t ∈ x.threads, ((s.finishIssued k).thread t).phase ≠ 0 := by
  have phase : ∀ t, ((s.finishIssued k).thread t).phase = (s.thread t).phase := foldl_ready_phase _ s
  simp only [phase]
  unfold State.finishIssued; dsimp only
  generalize hts : ((s.threads.filter _).map _ : List Nat) = ts
  have mid : ∀ t ∈ ts, s.midway t = true := by
    intro t ht
    rw [← hts] at ht
    obtain ⟨x, hx, rfl⟩ := List.mem_map.1 ht
    obtain ⟨-, -, -, hmid, -⟩ := of_decide_eq_true (List.mem_filter.1 hx).2
    exact hmid
  have hv := foldl_issueView (f := fun (s : State) t => s.modThread t fun th => { th with run := .ready }) (k := k) (fun _ _ => rfl) ts s
  generalize List.foldl _ s ts = y at hv ⊢
  refine ⟨s.resumes k s.midway ++ ts.map fun t => { core := k, slot := 0, pc := (y.thread t).pc, threads := [t], again := true }, ?_, fun x hx => ?_⟩
  · rw [← hv]; exact y.issueView_pick k _ _
  · rcases List.mem_append.1 hx with hx | hx
    · obtain ⟨hc, ha, hm⟩ := State.mem_resumes hx
      exact ⟨hc, ha, fun t ht => State.phase_of_midway (hm t ht)⟩
    · obtain ⟨t, ht, rfl⟩ := List.mem_map.1 hx
      exact ⟨rfl, rfl, fun u hu => State.phase_of_midway (mid u (List.mem_singleton.1 hu ▸ ht))⟩

/-- What a core adds to the picks of its package: new groups within its slots (01 R22, R33). -/
def Issue.fits (k : Nat) (l : List Issue) : Prop :=
  (∀ x ∈ l, x.core = k) ∧ (l.filter fun x => !x.again).length ≤ 2 ∧ (isMarl k = true → (l.filter fun x => !x.again).length ≤ 1)

theorem Issue.fits_of_again {l : List Issue} (h : ∀ x ∈ l, x.core = k ∧ x.again = true) : Issue.fits k l := by
  have : (l.filter fun x => !x.again) = [] := List.filter_eq_nil_iff.2 fun x hx => by simp [(h x hx).2]
  exact ⟨fun x hx => (h x hx).1, by simp [this], by simp [this]⟩

theorem State.issueView_issueNew (s : State) (k : Nat) :
    ∃ l, (s.issueNew k).issueView k = (s.issueView k).pick l ∧ Issue.fits k l := by
  unfold State.issueNew; dsimp only
  have hx := (State.issueView_arrange (s.settleCore k) k k).trans (State.issueView_settleCore s k k)
  generalize (s.settleCore k).arrange k = x at hx
  have hv := (State.issueView_charge x k (x.choose k)).trans hx
  generalize x.charge k (x.choose k) = y at hv
  refine ⟨x.resumes k (fun _ => true) ++ (x.choose k).map fun g => { core := k, slot := g.1, pc := g.2.pc, threads := g.2.threads }, ?_, fun z hz => ?_, ?_⟩
  · rw [← hv]; exact y.issueView_pick k _ _
  · rcases List.mem_append.1 hz with hz | hz
    · exact (State.mem_resumes hz).1
    · obtain ⟨g, -, rfl⟩ := List.mem_map.1 hz; rfl
  · have old : ((x.resumes k fun _ => true).filter fun z => !z.again) = [] :=
      List.filter_eq_nil_iff.2 fun z hz => by simp [(State.mem_resumes hz).2.1]
    have len : ((x.resumes k (fun _ => true) ++ (x.choose k).map fun g => ({ core := k, slot := g.1, pc := g.2.pc, threads := g.2.threads } : Issue)).filter
        fun z => !z.again).length = (x.choose k).length := by
      rw [List.filter_append, old, List.filter_map]; simp [Function.comp_def]
    rw [len]
    exact ⟨x.choose_length k, State.choose_length_of_marl⟩

/-- One ck of a core that has one. -/
theorem State.issueView_issueStep (h : ¬ s.stands k) :
    ∃ l, (s.issueStep k).issueView k = ((s.issueView k).tick (pkgOf k)).pick l ∧ Issue.fits k l ∧
      ((s.core k).stop = true → ∀ x ∈ l, x.again = true ∧ ∀ t ∈ x.threads, ((s.issueStep k).thread t).phase ≠ 0) := by
  rw [State.issueStep_of_not_stands s k h]
  have hx := State.issueView_ckBegun s k
  dsimp only
  generalize ((s.settleArrivals (pkgOf k) (s.core k).ck).ckUp k (s.core k).ck).ckCounts k = x at hx ⊢
  have hs : (x.core k).stop = (s.core k).stop := congrArg IssueView.stop hx
  rw [← hx, ← hs]
  split
  · exact ⟨[], by simp [IssueView.pick], Issue.fits_of_again (by simp), by simp⟩
  · split
    · obtain ⟨l, hl, hm⟩ := x.issueView_finishIssued k
      refine ⟨l, hl, Issue.fits_of_again fun y hy => ?_, fun _ y hy => (hm y hy).2⟩
      obtain ⟨hc, ha, -⟩ := hm y hy
      exact ⟨hc, ha⟩
    · obtain ⟨l, hl, hf⟩ := x.issueView_issueNew k
      exact ⟨l, hl, hf, fun hstop => absurd hstop ‹_›⟩

end

/-! ### Delivery of a pending trap (01 R32, 10 R243) -/

theorem oldestTrap_eq_none {l : List TrapRec} : oldestTrap l = none ↔ l = [] := by
  cases l with
  | nil => simp [oldestTrap]
  | cons r rs =>
    simp only [oldestTrap, reduceCtorEq, iff_false]
    split
    · simp
    · split <;> simp

theorem oldestTrap_spec {l : List TrapRec} {y : TrapRec} (h : oldestTrap l = some y) :
    y ∈ l ∧ ∀ x ∈ l, y.ck < x.ck ∨ (y.ck = x.ck ∧ y.pc ≤ x.pc) := by
  induction l generalizing y with
  | nil => simp [oldestTrap] at h
  | cons r rs ih =>
    simp only [oldestTrap] at h
    cases ho : oldestTrap rs with
    | none =>
      obtain rfl : r = y := by simpa [ho] using h
      simp [oldestTrap_eq_none.1 ho]
    | some z =>
      obtain ⟨hz, hmin⟩ := ih ho
      simp only [ho] at h
      split at h
      · obtain rfl : z = y := by simpa using h
        refine ⟨List.mem_cons_of_mem _ hz, List.forall_mem_cons.2 ⟨by omega, hmin⟩⟩
      · obtain rfl : r = y := by simpa using h
        refine ⟨List.mem_cons_self .., List.forall_mem_cons.2 ⟨by omega, fun x hx => ?_⟩⟩
        have := hmin x hx
        omega

/-- A thread that is changed one or more times in a row is as the change leaves it. -/
theorem foldl_modThread_of_mem {key : Nat → Nat} {f : Thread → Thread} {P : Thread → Prop} (hf : ∀ th, P (f th)) {l : Nat} (ls : List Nat) (hl : l ∈ ls)
    (s : State) : P ((ls.foldl (fun s l => s.modThread (key l) f) s).thread (key l)) := by
  induction ls using List.reverseRecOn with
  | nil => simp at hl
  | append_singleton ls a ih =>
    rw [List.foldl_append, List.foldl_cons, List.foldl_nil, State.thread_modThread]
    split
    · exact hf _
    · next hne =>
      rcases List.mem_append.1 hl with h | h
      · exact ih h
      · exact absurd (by rw [List.mem_singleton.1 h]) hne

theorem foldl_modThread_squad {key : Nat → Nat} {f : Thread → Thread} (ls : List Nat) (s : State) (q : Nat) :
    (ls.foldl (fun s l => s.modThread (key l) f) s).squad q = s.squad q := by
  induction ls generalizing s with
  | nil => rfl
  | cons a ls ih => rw [List.foldl_cons, ih]; rfl

theorem State.squad_count (s : State) (c ev n q : Nat) : (s.count c ev n).squad q = s.squad q := rfl

theorem mem_lanes {m : BitVec 64} {l : Nat} (h : l < 64) : l ∈ lanes m ↔ m.getLsbD l = true := by
  simp [lanes, h, BitVec.getLsbD]

section
variable {s : State} {q : Nat}

theorem State.settleTraps_of_waits (h : (s.squad q).handling ≠ 0 ∨ s.squadPicked q = true ∨ (s.core (coreOfSquad q)).ck < (s.squad q).freeAt ∨
    (s.core (coreOfSquad q)).stop = true ∨ (s.squad q).trapped = []) : s.settleTraps q = s := by
  unfold State.settleTraps; dsimp only
  split
  · next hd =>
    obtain ⟨h1, h2, h3, h4⟩ := hd
    have none' : oldestTrap (s.squad q).trapped = none := by
      rcases h with h | h | h | h | h
      · exact absurd h1 h
      · simp [h2] at h
      · omega
      · simp [h4] at h
      · exact oldestTrap_eq_none.2 h
    unfold State.deliverTrap; simp only [none']
  · rfl

/-- Delivery of record y: the squad holds it in TREC0 to TREC7, its threads are in their handler at TVEC. -/
theorem State.deliverTrap_of_oldest {y : TrapRec} (h : oldestTrap (s.squad q).trapped = some y) :
    (s.deliverTrap q).squad q = { s.squad q with
      trec := y.words (q % 32) ((s.squad q).trapped.erase y).length, handling := y.mask, trapped := (s.squad q).trapped.erase y } ∧
    (∀ l < 64, y.mask.getLsbD l = true → ((s.deliverTrap q).thread (threadKey q l)).supervisor = true ∧
      ((s.deliverTrap q).thread (threadKey q l)).inHandler = true ∧
      ((s.deliverTrap q).thread (threadKey q l)).pc = (s.ctx (pkgOf (coreOfSquad q) * 64 + (s.squad q).ctx)).tvec) := by
  unfold State.deliverTrap; simp only [h]
  generalize htvec : (s.ctx (pkgOf (coreOfSquad q) * 64 + (s.squad q).ctx)).tvec = tvec
  refine ⟨?_, fun l hl hm => ?_⟩
  · rw [foldl_modThread_squad, State.squad_count, State.squad_modSquad, if_pos rfl]
  · exact foldl_modThread_of_mem (P := fun th => th.supervisor = true ∧ th.inHandler = true ∧ th.pc = tvec) (fun th => ⟨rfl, rfl, rfl⟩) _ ((mem_lanes hl).2 hm) _

end

/-! ### Aging and YIELD windows (01 R21, 09 R221) -/

theorem execEntryAged_eq (p c pc : Nat) (s : State) : execEntryAged p c pc s =
    .next (s.modCore (coreKey p c) fun x => { x with entries := x.entries.map fun e =>
      { e with aged := e.aged || (e.pc = pc && decide (1024 ≤ e.wait)) } }) := by
  have entry : ∀ e : Entry, (if e.pc = pc ∧ e.wait ≥ 1024 then { e with aged := true } else e) =
      { e with aged := e.aged || (e.pc = pc && decide (1024 ≤ e.wait)) } := by
    intro e
    by_cases h : e.pc = pc ∧ e.wait ≥ 1024
    · simp [h.1, h.2]
    · have : (decide (e.pc = pc) && decide (1024 ≤ e.wait)) = false := by simpa using h
      rw [if_neg h, this, Bool.or_false]
  simp only [execEntryAged, entry]

theorem execYieldWindowEnd_eq (p c pc : Nat) (s : State) : execYieldWindowEnd p c pc s =
    .next (s.modCore (coreKey p c) fun x => { x with entries := x.entries.map fun e =>
      { e with yieldUntil := if e.pc = pc ∧ e.yieldUntil ≤ x.ck then 0 else e.yieldUntil } }) := by
  have entry : ∀ (x : Core) (e : Entry), (if e.pc = pc ∧ e.yieldUntil ≤ x.ck then { e with yieldUntil := 0 } else e) =
      { e with yieldUntil := if e.pc = pc ∧ e.yieldUntil ≤ x.ck then 0 else e.yieldUntil } := by
    intro x e; split <;> rfl
  simp only [execYieldWindowEnd, entry]

/-- Settles O42: a core's ck by its stages, each of which leaves the core's view; delivery by the oldest of the pending traps. -/
theorem issueOfACore : Obligations.IssueOfACore := by
  refine ⟨fun s p c => ⟨fun h => ?_, fun h => ?_⟩, fun s p c pc squad => ⟨execEntryAged_eq p c pc s, execYieldWindowEnd_eq p c pc s, fun h => ?_, ?_⟩⟩
  · exact congrArg Host.Outcome.next (State.issueStep_of_stands s _ h)
  · obtain ⟨l, hv, ⟨hcore, htwo, hone⟩, hstop⟩ := State.issueView_issueStep h
    exact ⟨_, l, rfl, congrArg IssueView.ck hv, (congrArg (fun v => tget (IssueView.clocks v) _ 0) hv).trans (IssueView.tick_clock _ _),
      congrArg IssueView.picks hv, hcore, ⟨htwo, hone⟩, hstop,
      congrArg IssueView.regs hv, congrArg IssueView.mem hv, congrArg IssueView.scratch hv, congrArg IssueView.copies hv⟩
  · exact congrArg Host.Outcome.next (State.settleTraps_of_waits h)
  · intro hh hp hf hs ht
    obtain ⟨y, hy⟩ := Option.ne_none_iff_exists'.1 (mt oldestTrap_eq_none.1 ht)
    obtain ⟨hmem, hmin⟩ := oldestTrap_spec hy
    obtain ⟨hq, hth⟩ := State.deliverTrap_of_oldest hy
    refine ⟨_, y, congrArg Host.Outcome.next (if_pos ⟨hh, hp, hf, hs⟩), hmem, hmin, by rw [hq], by rw [hq], by rw [hq]; rfl, by rw [hq]; rfl, hth, ?_⟩
    exact congrArg IssueView.regs (State.issueView_deliverTrap s 0 _)

end Sys2Proof.Machine
end

section
/-! A trap of one thread that is delivered at once (01 R32, 10 R241 to R243): the record, the handler's entry, and what stays as it was. -/

namespace Sys2Proof.Machine

/-! ### States that differ in slots and scoreboards only -/

/-- y holds what x holds, but for what a core keeps of its issue. -/
structure Agrees (x y : State) : Prop where
  rest : y.rest = x.rest
  threads : ∀ t, y.thread t = x.thread t
  squads : ∀ q, y.squad q = x.squad q
  regs : y.regs = x.regs
  cores : ∀ c, (y.core c).plain = (x.core c).plain

theorem cleared_agrees (s : State) (iss : Issue) (o : Ops) : Agrees s (cleared s iss o) where
  rest := cleared_rest s
  threads := cleared_thread s
  squads := cleared_squad s
  regs := cleared_regs s
  cores c := (cleared_core c).trans (begun_core s iss c)

/-- Writing a thread back as it was. -/
theorem Agrees.setThread {x y : State} (h : Agrees x y) {t : Nat} {th : Thread} (ht : th = x.thread t) : Agrees x (y.setThread t th) where
  rest := h.rest
  threads u := by rw [State.thread_setThread]; split
                  · subst_vars; rfl
                  · exact h.threads u
  squads := h.squads
  regs := h.regs
  cores := h.cores

/-- What is neither a register nor of a thread, squad or core. -/
theorem Agrees.field {α : Type} {x y : State} (h : Agrees x y) (f : State → α) (hf : ∀ s, f s.rest = f s) : f y = f x := by rw [← hf y, h.rest, hf]
theorem Agrees.ctx {x y : State} (h : Agrees x y) (k : Nat) : y.ctx k = x.ctx k := h.field (·.ctx k) fun _ => rfl
theorem Agrees.ctxKey {x y : State} (h : Agrees x y) (t : Nat) : y.ctxKey t = x.ctxKey t := by simp only [State.ctxKey, h.squads]
theorem Agrees.ck {x y : State} (h : Agrees x y) (c : Nat) : (y.core c).ck = (x.core c).ck :=
  show (y.core c).plain.ck = (x.core c).plain.ck from congrArg Core.ck (h.cores c)
theorem Agrees.stop {x y : State} (h : Agrees x y) (c : Nat) : (y.core c).stop = (x.core c).stop :=
  show (y.core c).plain.stop = (x.core c).plain.stop from congrArg Core.stop (h.cores c)

theorem State.Quiet.of_agrees {x y : State} {t : Nat} (h : x.Quiet t) (hxy : Agrees x y) : y.Quiet t := by
  have hp : y.picks = x.picks := hxy.field State.picks fun _ => rfl
  simpa only [State.Quiet, State.squadPicked, hxy.squads, hxy.threads, hxy.ck, hxy.stop, hp] using h

theorem Delivered.of_agrees {iss : Issue} {t code cause data kind epc : Nat} {x y r : State} (h : Delivered iss t code cause data kind epc y r)
    (hxy : Agrees x y) : Delivered iss t code cause data kind epc x r where
  trec := h.trec
  handling := h.handling
  trapped := h.trapped
  mode := h.mode
  pc := by rw [h.pc, hxy.ctxKey, hxy.ctx]
  loops := by rw [← hxy.threads t]; exact h.loops
  others u hu := (h.others u hu).trans (hxy.threads u)
  squads q hq := (h.squads q hq).trans (hxy.squads q)
  k := h.k.trans (congrArg Squad.k (hxy.squads _))
  regs := h.regs.trans hxy.regs
  scratch := h.scratch.trans (hxy.field State.scratch fun _ => rfl)
  mem := h.mem.trans (hxy.field State.mem fun _ => rfl)
  copies := h.copies.trans (hxy.field State.copies fun _ => rfl)
  chain := h.chain

/-! ### Taking a trap -/

theorem laneMask_single (t : Nat) : laneMask [t] = BitVec.ofNat 64 (2 ^ laneOf t) := BitVec.zero_or

theorem lanes_laneMask_single (t : Nat) : lanes (laneMask [t]) = [laneOf t] := by
  have hlt : laneOf t < 64 := Nat.mod_lt _ (by decide)
  have hbit : ∀ l ∈ List.range 64, (laneMask [t]).toNat.testBit l = decide (l = laneOf t) := by
    intro l hl
    rw [List.mem_range] at hl
    rw [laneMask_single, BitVec.toNat_ofNat, Nat.testBit_mod_two_pow, Nat.testBit_two_pow]
    simp [hl, eq_comm]
  rw [lanes, List.filter_congr hbit, List.filter_eq, List.count_eq_one_of_mem List.nodup_range (List.mem_range.2 hlt), List.replicate_one]

theorem threadKey_laneOf (t : Nat) : threadKey (squadOf t) (laneOf t) = t := by simp only [threadKey, squadOf, laneOf]; omega

/-- The thread as it waits for the delivery of record r, and as it enters its handler at tvec. -/
def Thread.trapped (th : Thread) (r : TrapRec) : Thread :=
  { th.anew with run := .trapPending, pc := r.epc, lossPend := th.lossPend && r.code ≠ 16 }
def Thread.handles (th : Thread) (r : TrapRec) (tvec : Nat) : Thread :=
  { th with run := .ready, pc := tvec, supervisor := true, inHandler := true, note := if r.code = 12 then none else th.note }

/-- The squad as record r has been delivered. -/
def Squad.serves (q : Squad) (slot : Nat) (r : TrapRec) : Squad := { q with trec := r.words slot 0, handling := r.mask, trapped := [] }

@[simp] theorem State.thread_count (s : State) (c ev n t : Nat) : (s.count c ev n).thread t = s.thread t := rfl
@[simp] theorem State.core_count (s : State) (c ev n k : Nat) : (s.count c ev n).core k = s.core k := rfl

theorem State.settleTraps_of_free {s : State} {q : Nat} (hh : (s.squad q).handling = 0) (hp : s.squadPicked q = false)
    (hf : (s.squad q).freeAt ≤ (s.core (coreOfSquad q)).ck) (hs : (s.core (coreOfSquad q)).stop = false) : s.settleTraps q = s.deliverTrap q :=
  if_pos ⟨hh, hp, hf, hs⟩

/-- Delivery of the only pending record of a squad, of one thread. -/
theorem State.deliverTrap_of_single {s : State} {t : Nat} {r : TrapRec} (h : (s.squad (squadOf t)).trapped = [r]) (hm : r.mask = laneMask [t]) :
    s.deliverTrap (squadOf t) = ((s.modSquad (squadOf t) fun x => x.serves (squadOf t % 32) r).count (coreOf t) 13 1).modThread t fun th =>
      th.handles r (s.ctx (s.ctxKey t)).tvec := by
  unfold State.deliverTrap
  simp only [h, oldestTrap, List.erase_cons_head, List.length_nil, hm, lanes_laneMask_single, List.foldl_cons, List.foldl_nil, threadKey_laneOf]
  rw [← hm]
  rfl

theorem State.unplace_ck (s : State) (t c : Nat) : ((s.unplace t).core c).ck = (s.core c).ck :=
  show ((s.unplace t).core c).plain.ck = _ by rw [s.unplace_core]; rfl
theorem State.unplace_stop (s : State) (t c : Nat) : ((s.unplace t).core c).stop = (s.core c).stop :=
  show ((s.unplace t).core c).plain.stop = _ by rw [s.unplace_core]; rfl

/-- The record of one thread's trap: its eight words, with no other trap pending. -/
theorem TrapRec.words_single (iss : Issue) (t code cause data kind epc ck : Nat) :
    TrapRec.words { code := code, cause := cause, ck := ck, pc := iss.pc, epc := epc, data := data, kind := kind, nbytes := iss.nbytes, bytes := iss.bytes, mask := laneMask [t] }
      (squadOf t % 32) 0 = recordOf iss t code cause data kind epc := by
  simp only [TrapRec.words, recordOf, lanes_laneMask_single, List.headD_cons, Nat.zero_mod, Nat.zero_mul, Nat.zero_add]
  rw [laneMask_single]
  congr 2
  omega

/-- The trap of one thread of a quiet squad is delivered as it is taken. -/
theorem State.takeTrap_delivered {s : State} {iss : Issue} {t : Nat} (h : s.Quiet t) (code cause data kind epc : Nat)
    (hchain : iss.again = false → ((s.core iss.core).slot iss.slot).chain = none) :
    Delivered iss t code cause data kind epc s (s.takeTrap (squadOf t)
      { code := code, cause := cause, pc := iss.pc, epc := epc, data := data, kind := kind, nbytes := iss.nbytes, bytes := iss.bytes, mask := laneMask [t] }) := by
  obtain ⟨hhandling, htrapped, hpicked, hsup, hfree, hstop⟩ := h
  generalize hr : ({ code := code, cause := cause, pc := iss.pc, epc := epc, data := data, kind := kind, nbytes := iss.nbytes, bytes := iss.bytes, mask := laneMask [t] } : TrapRec) = r
  have hm : r.mask = laneMask [t] := by rw [← hr]
  have htake : s.takeTrap (squadOf t) r = (((s.unplace t).modThread t (·.trapped r)).modSquad (squadOf t) fun x =>
      { x with trapped := x.trapped ++ [{ r with ck := ((s.unplace t).core (coreOf t)).ck }] }).settleTraps (squadOf t) := by
    unfold State.takeTrap
    rw [hm, lanes_laneMask_single, List.map_singleton, threadKey_laneOf]
    exact if_neg (by simp [hsup])
  generalize ((s.unplace t).core (coreOf t)).ck = ck at htake
  generalize hx : (((s.unplace t).modThread t (·.trapped r)).modSquad (squadOf t) fun x => { x with trapped := x.trapped ++ [{ r with ck := ck }] }) = x at htake
  have hsq : ∀ q, x.squad q = if squadOf t = q then { s.squad q with trapped := (s.squad q).trapped ++ [{ r with ck := ck }] } else s.squad q := by
    intro q; rw [← hx]; simp
  have hth : ∀ u, x.thread u = if t = u then (s.thread u).trapped r else s.thread u := by intro u; rw [← hx]; simp
  have hcore : ∀ c, x.core c = (s.unplace t).core c := by intro c; rw [← hx]; rfl
  rw [State.settleTraps_of_free (by simp [hsq, hhandling]) (by rw [← hx]; exact hpicked) (by rw [hcore, State.unplace_ck, hsq, if_pos rfl]; exact hfree) (by rw [hcore, State.unplace_stop]; exact hstop),
    State.deliverTrap_of_single (r := { r with ck := ck }) (by simp [hsq, htrapped]) hm] at htake
  rw [htake]
  refine ⟨?_, ?_, ?_, ?_, ?_, ?_, ?_, ?_, ?_, ?_, ?_, ?_, ?_, ?_⟩
  · rw [← TrapRec.words_single iss t code cause data kind epc ck, ← hr]; simp [Squad.serves, State.squad_count]
  · rw [← laneMask_single, ← hm]; simp [Squad.serves, State.squad_count]
  · simp [Squad.serves, State.squad_count]
  · simp [Thread.handles]
  · simp [Thread.handles, hsq, State.ctxKey]; rw [← hx]; rfl
  · simp [Thread.handles, hth, Thread.trapped, Thread.anew]
  · intro u hu; simp [hth, Ne.symm hu]
  · intro q hq; simp [State.squad_count, hsq, Ne.symm hq]
  · simp [Squad.serves, State.squad_count, hsq]
  · rw [← hx]; rfl
  · rw [← hx]; rfl
  · rw [← hx]; rfl
  · rw [← hx]; rfl
  · intro ha; simp [hcore, State.unplace_slot, hchain ha]

/-! ### The end of an instruction at which one thread traps -/

theorem Trap.rank_lt (y : Trap) : y.rank < 11 := by
  unfold Trap.rank
  repeat' split
  all_goals decide

theorem orderTraps_single (x : Nat × Trap × List Nat) : orderTraps [x] = [x] := by
  have h := x.2.1.rank_lt
  unfold orderTraps
  simp only [List.filter_cons, List.filter_nil]
  generalize x.2.1.rank = n at h ⊢
  interval_cases n <;> rfl

/-- A group of one thread that traps: its slot's chain ends, and the trap is taken with the chain's head to continue at (01 R27). -/
theorem State.finish_of_trap (s : State) (iss : Issue) (i : Instr) (o : Ops) (ch : Chain) (t : Nat) (y : Trap) :
    ∃ x : State, s.finish iss i o ch [(t, .trap y)] = x.takeGathered iss (iss.next i) ch.head (squadOf t, y, [t]) ∧ Agrees s x ∧
      (iss.again = false → ((x.core iss.core).slot iss.slot).chain = none) := by
  have htraps : orderTraps (gatherTraps ([(t, Ret.trap y)].filterMap Ret.trapOf)) = [(squadOf t, y, [t])] := by
    simp only [List.filterMap_cons, List.filterMap_nil, Ret.trapOf, gatherTraps, List.find?_nil, orderTraps_single]
  unfold State.finish
  rw [htraps]
  simp only [List.foldl_cons, List.foldl_nil, List.any_cons, Ret.strikes, Bool.true_or, Bool.not_true, Bool.and_false, Bool.false_and, Bool.false_eq_true, if_false,
    State.leave, State.backTo, Ret.waits, State.parkTo, ite_self]
  refine ⟨_, rfl, ?_, ?_⟩
  · split
    · exact ⟨rfl, fun _ => rfl, fun _ => rfl, rfl, fun _ => rfl⟩
    · refine ⟨rfl, fun _ => rfl, fun _ => rfl, rfl, fun c => ?_⟩
      rw [State.core_modCore]
      split
      · exact setSlot_plain ..
      · rfl
  · intro ha
    simp [ha, Slot.after]

theorem State.finish_trap_delivered {s : State} {iss : Issue} {t : Nat} (h : s.Quiet t) (i : Instr) (o : Ops) (ch : Chain) {y : Trap}
    (hy : y.code ≠ 14 ∧ y.code ≠ 15) : Delivered iss t y.code y.cause y.data y.kind ch.head s (s.finish iss i o ch [(t, .trap y)]) := by
  obtain ⟨x, hx, hsx, hc⟩ := s.finish_of_trap iss i o ch t y
  have hd := State.takeTrap_delivered (iss := iss) (h.of_agrees hsx) y.code y.cause y.data y.kind ch.head hc
  rw [hx]
  simp only [State.takeGathered, hy, or_self, if_false]
  exact hd.of_agrees hsx

/-! ### A group of one thread -/

section
variable {s : State} {iss : Issue} {i : Instr} {o : Ops} {body : Issue → Body} {t : Nat}

theorem runGroup_one (hi : s.issue = some iss) (ht : iss.threads = [t]) :
    runGroup i o body s = (runThread i o (body iss) (s.begun iss) iss (s.chainAt iss).count (cleared s iss o, []) t).1.finish iss i o (s.chainAt iss)
      (runThread i o (body iss) (s.begun iss) iss (s.chainAt iss).count (cleared s iss o, []) t).2.reverse := by
  have h : runGroup i o body s = (iss.threads.foldl (runThread i o (body iss) (s.begun iss) iss (s.chainAt iss).count) (cleared s iss o, [])).1.finish iss i o
      (s.chainAt iss) (iss.threads.foldl (runThread i o (body iss) (s.begun iss) iss (s.chainAt iss).count) (cleared s iss o, [])).2.reverse := by
    simp only [runGroup, hi]; rfl
  rw [h, ht]; rfl

/-- A check at issue fails: the trap is delivered, whatever the guard (05 R109). -/
theorem runGroup_preTrap {y : Trap} (hi : s.issue = some iss) (ht : iss.threads = [t]) (hq : s.Quiet t) (hd : (s.thread t).done = false)
    (hp : s.preTrap iss i o (s.chainAt iss).count t = some y) (hy : y.code ≠ 14 ∧ y.code ≠ 15) :
    Delivered iss t y.code y.cause y.data y.kind (s.chainAt iss).head s (runGroup i o body s) := by
  have hr : runThread i o (body iss) (s.begun iss) iss (s.chainAt iss).count (cleared s iss o, []) t = (cleared s iss o, [(t, .trap y)]) := by
    simp only [runThread, begun_done, hd, Bool.false_eq_true, if_false, begun_preTrap, hp]
  rw [runGroup_one hi ht, hr]
  have ha := cleared_agrees s iss o
  exact (State.finish_trap_delivered (hq.of_agrees ha) i o _ hy).of_agrees ha

/-- The instruction's effect on its one thread is a trap. -/
theorem runGroup_trap {y : Trap} (h : Alone s iss i o t) (hq : s.Quiet t) (hb : (body iss (s.begun iss) (cleared s iss o) t).2 = .trap y)
    (ha : Agrees s (body iss (s.begun iss) (cleared s iss o) t).1) (hy : y.code ≠ 14 ∧ y.code ≠ 15) :
    Delivered iss t y.code y.cause y.data y.kind (s.chainAt iss).head s (runGroup i o body s) := by
  have ht : t ∈ iss.threads := by simp [h.only]
  have hr : runThread i o (body iss) (s.begun iss) iss (s.chainAt iss).count (cleared s iss o, []) t =
      ((body iss (s.begun iss) (cleared s iss o) t).1, [(t, .trap y)]) := by
    simp only [runThread, h.issues.undone t ht, begun_preTrap, h.issues.checks t ht, begun_thread, h.guard, if_true,
      h.issues.latches t ht, hb, Bool.false_eq_true, if_false]
  rw [runGroup_one h.issues.issue h.only, hr]
  exact (State.finish_trap_delivered (hq.of_agrees ha) i o _ hy).of_agrees ha

end

end Sys2Proof.Machine
end

section
/-! Loop control (02 R36 to R42, 09 R222, R223). -/

namespace Sys2Proof.Machine

/-! ### What a well-formed instruction leaves out (05 R111, 01 R25) -/

theorem operOk_of_wellFormed {i : Instr} (h : i.WellFormed = true) {op : Nat} (ho : i.opcode = some op) : i.operOk = true := by
  simp only [Instr.WellFormed, Instr.isEvent, ho, Option.isNone_some, Bool.false_or, Bool.and_eq_true] at h
  exact h.2

/-- Each operand field is of its kind; an instruction of variable latency fills no latch. -/
theorem fields_of_wellFormed {i : Instr} {o : Ops} {r : Row} {op : Nat} (h : i.WellFormed = true) (ho : i.opcode = some op) (hr : i.row = some r)
    (hi : i.ops = some o) : r.d.okFld o.d = true ∧ r.a.okFld o.a = true ∧ r.c.okFld o.c = true ∧
      (r.b = .none → bFld o.b = .zero) ∧ (variableLatency op = true → latchOf o = none) := by
  have hok := operOk_of_wellFormed h ho
  unfold Instr.operOk at hok
  rw [ho, hi, hr] at hok
  simp only [Bool.and_eq_true] at hok
  obtain ⟨⟨⟨⟨⟨hd, ha⟩, hc⟩, hb⟩, hl⟩, -⟩ := hok
  refine ⟨hd, ha, hc, fun hn => ?_, fun hv => ?_⟩
  · rw [hn] at hb
    revert hb
    cases o.b with
    | fld f => exact of_decide_eq_true
    | fldOff f _ => exact of_decide_eq_true
    | _ => exact fun _ => rfl
  simp only [hv, if_true, Bool.and_eq_true, decide_eq_true_eq, Bool.not_eq_true'] at hl
  obtain ⟨⟨hlatch, -⟩, hnot⟩ := hl
  unfold latchOf
  split
  · next hb => rw [hb] at hnot; cases hnot
  · exact if_pos hlatch

theorem add_dest_ne_pred {o : Ops} {f : IntFn} (h : (Instr.add o f).WellFormed = true) (p : BitVec 4) : o.d ≠ .pred p := by
  intro hd
  obtain ⟨hk, -⟩ := fields_of_wellFormed h rfl rfl rfl
  rw [hd] at hk
  cases hk

theorem lpbeg_latchOf {o : Ops} {f : LpbegFn} (h : (Instr.lpbeg o f).WellFormed = true) : latchOf o = none := by
  obtain ⟨-, -, -, -, hl⟩ := fields_of_wellFormed h rfl rfl rfl
  exact hl rfl

theorem lpbrk_latchOf {o : Ops} {d : BitVec 2} (h : (Instr.lpbrk o d).WellFormed = true) : latchOf o = none := by
  obtain ⟨-, -, -, -, hl⟩ := fields_of_wellFormed h rfl rfl rfl
  exact hl rfl

/-- LPBRK names no register. -/
theorem fields_lpbrk {o : Ops} {d : BitVec 2} (h : (Instr.lpbrk o d).WellFormed = true) : ∀ x ∈ fields (.lpbrk o d) o, x.1 = .zero := by
  obtain ⟨hd, ha, hc, hb, -⟩ := fields_of_wellFormed h rfl rfl rfl
  have hz : ∀ f, Kind.none.okFld f = true → f = .zero := fun f hf => of_decide_eq_true hf
  simp [fields, hz _ hd, hz _ ha, hz _ hc, hb rfl]

theorem cleared_of_latchOf {o : Ops} (h : latchOf o = none) (s : State) (iss : Issue) : cleared s iss o = s.begun iss := by simp only [cleared, h]

/-! ### The loop update (02 R37, R38) -/

@[simp] theorem Thread.lc_setLc (th : Thread) (i : Nat) (x : Lc) : (th.setLc i x).lc i = x := by
  match i with
  | 0 | 1 | 2 | _ + 3 => rfl
@[simp] theorem Thread.setLc_depth (th : Thread) (i : Nat) (x : Lc) : (th.setLc i x).depth = th.depth := by unfold Thread.setLc; split <;> rfl
@[simp] theorem Thread.setLc_rot (th : Thread) (i : Nat) (x : Lc) : (th.setLc i x).rot = th.rot := by unfold Thread.setLc; split <;> rfl
@[simp] theorem Thread.setLc_callDepth (th : Thread) (i : Nat) (x : Lc) : (th.setLc i x).callDepth = th.callDepth := by unfold Thread.setLc; split <;> rfl
@[simp] theorem Thread.setLc_preds (th : Thread) (i : Nat) (x : Lc) : (th.setLc i x).preds = th.preds := by unfold Thread.setLc; split <;> rfl

/-- The thread has executed the last instruction of its innermost open body. -/
def Thread.endsBody (th : Thread) (pc : Nat) : Prop := 0 < th.depth ∧ th.inHandler = false ∧ pc / 4 % 2 ^ 55 = (th.lc (th.depth - 1)).stop

section
variable {th : Thread} {pc next : Nat}

theorem Thread.loopUpdate_elsewhere (h : ¬ th.endsBody pc) : th.loopUpdate pc next = (th, next) := by
  unfold Thread.loopUpdate
  split
  · rfl
  · next hd =>
    rw [not_or] at hd
    exact if_pos fun hpc => h ⟨Nat.pos_of_ne_zero hd.1, Bool.eq_false_iff.2 hd.2, hpc⟩

theorem Thread.loopUpdate_last (h : th.endsBody pc) (hc : (th.lc (th.depth - 1)).count ≤ 1) :
    th.loopUpdate pc next = ({ th with depth := th.depth - 1 }, (th.lc (th.depth - 1)).stop * 4 + 8 + 4 * (th.lc (th.depth - 1)).len) := by
  obtain ⟨hd, hh, hpc⟩ := h
  simp only [Thread.loopUpdate, hh, Nat.pos_iff_ne_zero.1 hd, Bool.false_eq_true, or_self, if_false, hpc, ne_eq, not_true, not_lt.2 hc, gt_iff_lt, exitPc]

/-- A back edge: one iteration less in the level, the base lowered in a rotating loop, the stage predicates shifted in a pipelined one. -/
theorem Thread.loopUpdate_back (h : th.endsBody pc) (hc : (th.lc (th.depth - 1)).count > 1) :
    let l := th.lc (th.depth - 1)
    let x := th.loopUpdate pc next
    x.2 = l.start * 4 ∧ x.1.depth = th.depth ∧ x.1.rot = (if l.rotate then (th.rot + 63) % 64 else th.rot) ∧
    x.1.preds = (if l.stages ≥ 1 then shiftStages th.preds (decide (l.feed - 1 > 0)) else th.preds) ∧
    x.1.lc (th.depth - 1) = { l with count := l.count - 1, feed := l.feed - 1 } := by
  obtain ⟨hd, hh, hpc⟩ := h
  simp only [Thread.loopUpdate, hh, Nat.pos_iff_ne_zero.1 hd, Bool.false_eq_true, or_self, if_false, hpc, ne_eq, not_true, hc, if_true]
  have hlc : ∀ (x : Thread) (r : Nat) (p : BitVec 16) (j : Nat), ({ x with rot := r, preds := p } : Thread).lc j = x.lc j := fun x r p j => by
    unfold Thread.lc; split <;> rfl
  refine ⟨trivial, ?_, ?_, ?_, ?_⟩
  · split <;> split <;> simp
  · split <;> split <;> simp
  · split <;> split <;> simp
  · split <;> split <;> exact (hlc _ _ _ _).trans (Thread.lc_setLc ..)

end

/-- The shift of the stage predicates: p8 is new, p9 to p15 take the one below, p0 to p7 stay. -/
theorem shiftStages_getLsbD (p : BitVec 16) (more : Bool) (j : Nat) : (shiftStages p more).getLsbD j =
    if j = 8 then more else if 9 ≤ j ∧ j ≤ 15 then p.getLsbD (j - 1) else p.getLsbD j := by
  have hbit : ∀ k, p.toNat.testBit k = p.getLsbD k := fun _ => rfl
  have hnew : p.toNat % 2 ^ 8 + (p.toNat / 2 ^ 8 * 2 % 2 ^ 8 + more.toNat) * 2 ^ 8 =
      2 ^ 8 * (2 ^ 1 * (p.toNat / 2 ^ 8 % 2 ^ 7) + more.toNat) + p.toNat % 2 ^ 8 := by omega
  have hmore : more.toNat < 2 ^ 1 := by cases more <;> decide
  rw [shiftStages, BitVec.getLsbD_ofNat, hnew, Nat.testBit_two_pow_mul_add _ (Nat.mod_lt _ (by decide)), Nat.testBit_two_pow_mul_add _ hmore,
    Nat.testBit_mod_two_pow, Nat.testBit_mod_two_pow, Nat.testBit_div_two_pow, hbit, hbit]
  rcases Nat.lt_trichotomy j 8 with hj | rfl | hj
  · simp [hj, hj.ne, show j < 16 by omega, show ¬ 9 ≤ j by omega]
  · cases more <;> rfl
  · by_cases h15 : j ≤ 15
    · simp [hj.ne', show ¬ j < 8 by omega, show 9 ≤ j by omega, h15, show j < 16 by omega, show ¬ j - 8 < 1 by omega, show j - 8 - 1 < 7 by omega,
        show j - 8 - 1 + 8 = j - 1 by omega]
    · simp [hj.ne', show ¬ j < 16 by omega, h15, BitVec.getLsbD_of_ge p j (by omega)]

/-- LPBEG of a pipelined loop sets p8 and clears p9 to p15. -/
theorem stage_preds (p : BitVec 16) : BitVec.ofNat 16 (p.toNat % 2 ^ 8 + 2 ^ 8) = p &&& 0x00FF ||| 0x0100 := by
  apply BitVec.eq_of_toNat_eq
  have hand : p.toNat &&& 255 = p.toNat % 2 ^ 8 := Nat.and_two_pow_sub_one_eq_mod _ 8
  have hor : p.toNat % 2 ^ 8 ||| 256 = 2 ^ 8 * 1 + p.toNat % 2 ^ 8 := by
    rw [Nat.or_comm]
    exact (Nat.two_pow_add_eq_or_of_lt (Nat.mod_lt _ (show 0 < 2 ^ 8 by decide)) 1).symm
  have hp : (p &&& 0x00FF ||| 0x0100).toNat = p.toNat &&& 255 ||| 256 := by simp
  rw [hp, hand, hor, BitVec.toNat_ofNat]
  omega

/-! ### Opening and leaving levels (02 R36, R42) -/

/-- The level that LPBEG opens nests in the innermost open one of the same call depth. -/
def Thread.nests (th : Thread) (start stop : Nat) : Prop :=
  0 < th.depth → (th.lc (th.depth - 1)).frame = th.callDepth → (th.lc (th.depth - 1)).start ≤ start ∧ stop < (th.lc (th.depth - 1)).stop

theorem Thread.not_nests_iff {th : Thread} {start stop : Nat} : ¬ th.nests start stop ↔
    th.depth > 0 ∧ (th.lc (th.depth - 1)).frame = th.callDepth ∧ ¬ ((th.lc (th.depth - 1)).start ≤ start ∧ stop < (th.lc (th.depth - 1)).stop) := by
  simp only [Thread.nests, Classical.not_imp, gt_iff_lt]

/-- The thread with the level open that LPBEG opens. -/
def Thread.opens (th : Thread) (f : LpbegFn) (start stop n : Nat) : Thread :=
  { th.setLc th.depth { start := start, stop := stop, len := f.len.toNat, count := n + max f.stages.toNat 1 - 1, feed := n, stages := f.stages.toNat
                        rotate := f.rotate, frame := th.callDepth } with
    depth := th.depth + 1, preds := if 1 ≤ f.stages.toNat then th.preds &&& 0x00FF ||| 0x0100 else th.preds }

section
variable {th : Thread} {f : LpbegFn} {budget next target n : Nat} (hh : th.inHandler = false)
include hh

theorem Thread.lpbeg_of_full (hd : th.depth = 4) : th.lpbeg budget f next target n = (th, .trap ⟨5, 1, target, 0⟩) := by simp [Thread.lpbeg, hh, hd]

theorem Thread.lpbeg_of_small (hd : th.depth < 4) (hw : ¬ (f.rotate = true → 256 ≤ budget)) :
    th.lpbeg budget f next target n = (th, .trap ⟨1, 11, 0, 0⟩) := by
  obtain ⟨hr, hb⟩ := Classical.not_imp.1 hw
  simp [Thread.lpbeg, hh, hd.ne, hr, not_le.1 hb]

theorem Thread.lpbeg_of_wide (hd : th.depth < 4) (hw : f.rotate = true → 256 ≤ budget) : th.lpbeg budget f next target n =
    if th.depth > 0 ∧ (th.lc (th.depth - 1)).frame = th.callDepth ∧
        ¬ ((th.lc (th.depth - 1)).start ≤ pcField next ∧ pcField target < (th.lc (th.depth - 1)).stop) then (th, .trap ⟨5, 1, target, 0⟩)
    else if pcField target < pcField next then (th, .trap ⟨5, 1, target, 0⟩)
    else if n = 0 then (th, .jump (pcField target * 4 + 8 + 4 * f.len.toNat))
    else (th.opens f (pcField next) (pcField target) n, .jump next) := by
  have hb : (f.rotate && decide (budget < 256)) = false := by
    rw [Bool.and_eq_false_imp]; intro hr; simpa using hw hr
  simp only [Thread.lpbeg, hh, hd.ne, hb, Bool.false_eq_true, if_false, stage_preds, exitPc, ge_iff_le,
    Thread.opens, Thread.setLc_depth, Thread.setLc_preds]

theorem Thread.lpbeg_of_unnested (hd : th.depth < 4) (hw : f.rotate = true → 256 ≤ budget)
    (hn : ¬ (th.nests (pcField next) (pcField target) ∧ pcField next ≤ pcField target)) :
    th.lpbeg budget f next target n = (th, .trap ⟨5, 1, target, 0⟩) := by
  rw [Thread.lpbeg_of_wide hh hd hw]
  by_cases h : th.nests (pcField next) (pcField target)
  · rw [if_neg (fun hc => Thread.not_nests_iff.2 hc h), if_pos (not_le.1 fun hle => hn ⟨h, hle⟩)]
  · rw [if_pos (Thread.not_nests_iff.1 h)]

theorem Thread.lpbeg_of_nested (hd : th.depth < 4) (hw : f.rotate = true → 256 ≤ budget) (hn : th.nests (pcField next) (pcField target))
    (hle : pcField next ≤ pcField target) : th.lpbeg budget f next target n =
    if n = 0 then (th, .jump (pcField target * 4 + 8 + 4 * f.len.toNat)) else (th.opens f (pcField next) (pcField target) n, .jump next) := by
  rw [Thread.lpbeg_of_wide hh hd hw, if_neg (fun hc => Thread.not_nests_iff.2 hc hn), if_neg (not_lt.2 hle)]

end

theorem Thread.lpbrk_of_open {th : Thread} {d : Nat} (hh : th.inHandler = false) (hd : d ≤ th.depth) : th.lpbrk d =
    ({ th with depth := th.depth - d }, .jump ((th.lc (th.depth - d)).stop * 4 + 8 + 4 * (th.lc (th.depth - d)).len)) := by
  simp [Thread.lpbrk, hh, hd, exitPc]

theorem Thread.lpbrk_of_few {th : Thread} {d : Nat} (hh : th.inHandler = false) (hd : th.depth < d) : ∃ data, th.lpbrk d = (th, .trap ⟨5, 4, data, 0⟩) := by
  simp [Thread.lpbrk, hh, hd]

/-- A control instruction at the end of an open level (02 R39). -/
theorem Thread.loopFault_of_end {th : Thread} {pc : Nat} (hh : th.inHandler = false) (h : ∃ j < 4, j < th.depth ∧ (th.lc j).stop = pc / 4 % 2 ^ 55) :
    th.loopFault pc true = 3 := by
  obtain ⟨j, hj, hd, hs⟩ := h
  unfold Thread.loopFault
  simp only [hh, Bool.false_eq_true, if_false, if_true]
  refine if_neg ?_
  interval_cases j <;> simp [hd, hs]

theorem lpbrk_preTrap {s : State} {iss : Issue} {o : Ops} {dm1 : BitVec 2} {t n : Nat} (hl : (s.thread t).lossPend = false)
    (hf : (Instr.lpbrk o dm1).WellFormed = true) (hc : o.h.chain = false) (hh : (s.thread t).inHandler = false)
    (h : ∃ j < 4, j < (s.thread t).depth ∧ ((s.thread t).lc j).stop = iss.pc / 4 % 2 ^ 55) :
    s.preTrap iss (.lpbrk o dm1) o n t = some ⟨5, 3, ((s.thread t).lc ((s.thread t).depth - 1)).stop * 4, 0⟩ := by
  have hz := fields_lpbrk hf
  have hbudget : ((fields (.lpbrk o dm1) o).all fun f => fldBudget (s.squad (squadOf t)).budget f.1 f.2) = true :=
    List.all_eq_true.2 fun x hx => by rw [hz x hx]; rfl
  have heven : ((fields (.lpbrk o dm1) o).all fun f => fldEven f.1 f.2) = true := List.all_eq_true.2 fun x hx => by rw [hz x hx]; rfl
  have hmarl : marlIllegal (.lpbrk o dm1) = false := rfl
  have hport : decide (portOf (.lpbrk o dm1) = .ctl) = true := rfl
  simp only [State.preTrap, hl, hbudget, heven, hc, hmarl, hport, Thread.loopFault_of_end hh h, Bool.false_and, Bool.and_false, Bool.not_true, Bool.false_eq_true,
    if_false]

/-! ### Groups that jump -/

/-- The end of a group's instruction, told of a state whose threads differ in what the scoreboard and the requests in hand hold. -/
theorem Still.of_plain {iss : Issue} {f g : Nat → Thread → Thread} {x y r : State} (h : Still iss f y r) (hrest : y.rest = x.rest) (hregs : y.regs = x.regs)
    (hsq : y.squads = x.squads) (hcores : y.cores = x.cores) (hin : ∀ t ∈ iss.threads, (f t (y.thread t)).plain = (g t (x.thread t)).plain)
    (hout : ∀ t, t ∉ iss.threads → y.thread t = x.thread t) : Still iss g x r := by
  have hs : ∀ q, y.squad q = x.squad q := fun q => by simp only [State.squad, hsq]
  have hc : ∀ c, y.core c = x.core c := fun c => by simp only [State.core, hcores]
  obtain ⟨⟨rest, threads, others, squads, core, cores, slot⟩, regs, k, latch⟩ := h
  exact ⟨⟨rest.trans hrest, fun t ht => (threads t ht).trans (hin t ht), fun t ht => (others t ht).trans (hout t ht), fun q => by rw [squads, hs],
    by rw [core, hc], fun c h => by rw [cores c h, hc], fun j h => by rw [slot j h, hc]⟩, regs.trans hregs, fun q => by rw [k, hs], by rw [latch, hc]⟩

/-- The same where the end of the instruction finds the very threads. -/
theorem Still.of_threads {iss : Issue} {f g : Nat → Thread → Thread} {x y r : State} (h : Still iss f y r) (hrest : y.rest = x.rest) (hregs : y.regs = x.regs)
    (hsq : y.squads = x.squads) (hcores : y.cores = x.cores) (hin : ∀ t ∈ iss.threads, f t (y.thread t) = g t (x.thread t))
    (hout : ∀ t, t ∉ iss.threads → y.thread t = x.thread t) : Still iss g x r :=
  h.of_plain hrest hregs hsq hcores (fun t ht => congrArg Thread.plain (hin t ht)) hout

/-- Threads written one after the other. -/
theorem foldl_setThread (f : Nat → Thread) (ts : List Nat) (s : State) :
    let r := ts.foldl (fun a t => a.setThread t (f t)) s
    r.rest = s.rest ∧ r.regs = s.regs ∧ r.squads = s.squads ∧ r.cores = s.cores ∧ ∀ t, r.thread t = if t ∈ ts then f t else s.thread t := by
  induction ts generalizing s with
  | nil => simp
  | cons u ts ih =>
    obtain ⟨hrest, hregs, hsq, hcores, hth⟩ := ih (s.setThread u (f u))
    refine ⟨hrest, hregs, hsq, hcores, fun t => ?_⟩
    rw [List.foldl_cons, hth t, State.thread_setThread]
    by_cases ht : t ∈ ts
    · simp [ht]
    · by_cases hu : u = t
      · simp [hu]
      · simp [ht, hu, Ne.symm hu]

section
variable {s : State} {iss : Issue} {i : Instr} {o : Ops} {t : Nat}

theorem begun_offset (h : Issues s iss i o) (ht : t ∈ iss.threads) : (s.begun iss).offset iss t o.b = s.offset iss t o.b := by
  have hb : ∀ b, bFld o.b = .b b → (s.begun iss).latchAt iss t b.toNat = true :=
    h.valid ht (n := (widthsOf i).2.2.1) (mem_sources i o (by simp [fields]))
  revert hb
  cases o.b with
  | fld f => intro hb; simp only [State.offset, begun_readFld (f := f) hb]
  | fldOff f v => exact fun _ => rfl
  | imm32 v => exact fun _ => rfl
  | imm61 v => exact fun _ => rfl
  | off48 v => exact fun _ => rfl

theorem begun_relTarget (h : Issues s iss i o) (ht : t ∈ iss.threads) :
    (s.begun iss).relTarget iss t o = (((iss.pc : Int) + s.offset iss t o.b) % 2 ^ 64).toNat := by
  rw [State.relTarget, begun_offset h ht]; rfl

/-! ### The end of a body (02 R37, R38) -/

theorem fields_of_plain_past {a th : Thread} {pc next : Nat} (h : a.plain = (th.past pc next).plain) : let x := th.loopUpdate pc next
    a.pc = x.2 ∧ a.depth = x.1.depth ∧ a.rot = x.1.rot ∧ a.preds = x.1.preds ∧ ∀ j, a.lc j = x.1.lc j :=
  ⟨(congrArg Thread.pc h :), (congrArg Thread.depth h :), (congrArg Thread.rot h :), (congrArg Thread.preds h :), fun j => (congrArg (·.lc j) h :)⟩

theorem add_past {f : IntFn} (h : Alone s iss (.add o f) o t) :
    ∃ r, exec (.add o f) s = .next r ∧ (r.thread t).plain = ((s.thread t).past iss.pc (iss.next (.add o f))).plain := by
  have ht : t ∈ iss.threads := by simp [h.only]
  have hw : Wrote iss (.add o f) o _ _ _ (s.begun iss) (intAlu (.add o f) o f (fun a b _ => a + b) s) := alu_wrote h.issues
  refine ⟨_, rfl, (hw.kept.threads t ht).trans ?_⟩
  rw [begun_thread]
  split
  · next p hd => exact absurd hd (add_dest_ne_pred h.issues.formed p)
  · rfl

/-! ### LPBEG and LPBRK -/

/-- An effect that writes the thread alone, and a jump. -/
theorem runGroup_setThread_goes {body : Issue → Body} {th : Thread} {pc : Nat} (h : Alone s iss i o t) (hl : latchOf o = none)
    (hb : body iss (s.begun iss) (s.begun iss) t = ((s.begun iss).setThread t th, .jump pc)) :
    Still iss (fun _ th => th.jumped pc) ((s.begun iss).setThread t th) (runGroup i o body s) := by
  have hst := runGroup_alone (body := body) (r := .jump pc) h (by rw [cleared_of_latchOf hl, hb]) rfl
  rw [cleared_of_latchOf hl, hb] at hst
  exact hst

/-- An effect that writes the thread back, and a trap. -/
theorem runGroup_setThread_trap {body : Issue → Body} {y : Trap} (h : Alone s iss i o t) (hq : s.Quiet t) (hl : latchOf o = none)
    (hb : body iss (s.begun iss) (s.begun iss) t = ((s.begun iss).setThread t (s.thread t), .trap y)) (hy : y.code ≠ 14 ∧ y.code ≠ 15) :
    Delivered iss t y.code y.cause y.data y.kind (s.chainAt iss).head s (runGroup i o body s) := by
  have hc := cleared_of_latchOf hl s iss
  refine runGroup_trap h hq (by rw [hc, hb]) ?_ hy
  rw [hc, hb, ← hc]
  exact (cleared_agrees s iss o).setThread rfl

/-- LPBEG's effect on its thread. -/
def State.lpbegOf (s : State) (iss : Issue) (o : Ops) (f : LpbegFn) (t : Nat) : Thread × Ret :=
  (s.thread t).lpbeg (s.squad (squadOf t)).budget f (iss.next (.lpbeg o f)) (((iss.pc : Int) + s.offset iss t o.b) % 2 ^ 64).toNat (s.srcA iss t (.lpbeg o f) o)

theorem exec_lpbeg {f : LpbegFn} (h : Alone s iss (.lpbeg o f) o t) : ∃ body : Issue → Body, exec (.lpbeg o f) s = .next (runGroup (.lpbeg o f) o body s) ∧
    body iss (s.begun iss) (s.begun iss) t = ((s.begun iss).setThread t (s.lpbegOf iss o f t).1, (s.lpbegOf iss o f t).2) := by
  have ht : t ∈ iss.threads := by simp [h.only]
  refine ⟨_, rfl, ?_⟩
  simp only [begun_thread, begun_squad, begun_relTarget h.issues ht, begun_srcA h.issues ht, State.lpbegOf, Issue.next]

theorem lpbeg_interrupts {f : LpbegFn} {y : Trap} (h : Alone s iss (.lpbeg o f) o t) (hq : s.Quiet t) (hr : s.lpbegOf iss o f t = (s.thread t, .trap y))
    (hy : y.code ≠ 14 ∧ y.code ≠ 15) : s.Interrupts iss (.lpbeg o f) t y.code y.cause y.data y.kind (s.chainAt iss).head := by
  obtain ⟨body, he, hb⟩ := exec_lpbeg h
  rw [hr] at hb
  exact ⟨_, he, runGroup_setThread_trap h hq (lpbeg_latchOf h.issues.formed) hb hy⟩

theorem lpbeg_goes {f : LpbegFn} {th : Thread} {pc : Nat} (h : Alone s iss (.lpbeg o f) o t) (hr : s.lpbegOf iss o f t = (th, .jump pc)) :
    s.Goes iss (.lpbeg o f) pc ((s.begun iss).setThread t th) := by
  obtain ⟨body, he, hb⟩ := exec_lpbeg h
  rw [hr] at hb
  exact ⟨_, he, runGroup_setThread_goes h (lpbeg_latchOf h.issues.formed) hb⟩

/-- A thread written back as it was. -/
theorem State.Goes.of_setThread {pc : Nat} (h : s.Goes iss i pc ((s.begun iss).setThread t (s.thread t))) : s.Goes iss i pc (s.begun iss) := by
  obtain ⟨r, he, hst⟩ := h
  have hth : ∀ u, ((s.begun iss).setThread t (s.thread t)).thread u = (s.begun iss).thread u := by
    intro u; rw [State.thread_setThread]; split
    · subst_vars; rw [begun_thread]
    · rfl
  exact ⟨r, he, hst.of_threads rfl rfl rfl rfl (fun u _ => by rw [hth]) fun u _ => hth u⟩

end

/-- Where LPBRK sends a thread that leaves d levels. -/
def Thread.exitOf (th : Thread) (d : Nat) : Nat := (th.lc (th.depth - d)).stop * 4 + 8 + 4 * (th.lc (th.depth - d)).len

theorem lpbrk_still {s : State} {iss : Issue} {o : Ops} {dm1 : BitVec 2} (h : Issues s iss (.lpbrk o dm1) o)
    (hu : ∀ u ∈ s.guarded iss o, (s.thread u).inHandler = false ∧ dm1.toNat + 1 ≤ (s.thread u).depth) : ∃ r, exec (.lpbrk o dm1) s = .next r ∧
      Still iss (fun u th => if (s.thread u).guard o.h then { th with depth := th.depth - (dm1.toNat + 1) }.jumped (th.exitOf (dm1.toNat + 1))
        else th.past iss.pc (iss.next (.lpbrk o dm1))) (s.begun iss) r := by
  generalize hd : dm1.toNat + 1 = d at hu
  have hbody : ∀ t ∈ s.guarded iss o, (s.thread t).lpbrk d = ({ s.thread t with depth := (s.thread t).depth - d }, .jump ((s.thread t).exitOf d)) := by
    intro t ht
    obtain ⟨hh, hle⟩ := hu t ht
    exact Thread.lpbrk_of_open hh hle
  have hmem : ∀ t, t ∈ s.guarded iss o ↔ t ∈ iss.threads ∧ (s.thread t).guard o.h = true := fun t => List.mem_filter
  refine ⟨_, rfl, ?_⟩
  have hst := runGroup_still (body := fun _ s0 s t => (s.setThread t ((s0.thread t).lpbrk d).1, ((s0.thread t).lpbrk d).2))
    (g := fun t => .jump ((s.thread t).exitOf d)) h (fun t ht hg _ => by simp only [begun_thread, hbody t ((hmem t).2 ⟨ht, hg⟩)]) (fun _ _ => rfl) (Or.inl fun _ _ => rfl)
  rw [cleared_of_latchOf (lpbrk_latchOf h.formed)] at hst
  obtain ⟨hrest, hregs, hsq, hcores, hth⟩ := foldl_setThread (fun t => (((s.begun iss).thread t).lpbrk d).1) (s.guarded iss o) (s.begun iss)
  rw [hd]
  refine Still.of_threads hst hrest hregs hsq hcores (fun t ht => ?_) fun t ht => ?_
  · rw [hth t]
    simp only [begun_thread]
    by_cases hg : (s.thread t).guard o.h = true
    · have htg := (hmem t).2 ⟨ht, hg⟩
      simp only [hg, if_true, if_pos htg, hbody t htg]
      rfl
    · simp only [hg, if_neg fun hm => hg ((hmem t).1 hm).2]
      rfl
  · rw [hth t, if_neg fun hm => ht ((hmem t).1 hm).1]

theorem lpbrk_interrupts {s : State} {iss : Issue} {o : Ops} {dm1 : BitVec 2} {t : Nat} (h : Alone s iss (.lpbrk o dm1) o t) (hq : s.Quiet t)
    (hh : (s.thread t).inHandler = false) (hd : (s.thread t).depth < dm1.toNat + 1) :
    ∃ data, s.Interrupts iss (.lpbrk o dm1) t 5 4 data 0 (s.chainAt iss).head := by
  obtain ⟨data, hr⟩ := Thread.lpbrk_of_few hh hd
  refine ⟨data, _, rfl, runGroup_setThread_trap h hq (lpbrk_latchOf h.issues.formed) (y := ⟨5, 4, data, 0⟩) ?_ (by simp)⟩
  simp only [begun_thread, hr]

/-- Settles O31: the loop update by its three cases, LPBEG by the cases of its checks, LPBRK thread by thread. -/
theorem loops : Obligations.Loops := by
  refine ⟨fun o f s iss t h => ?_, fun o f s iss t => ?_, fun o dm1 s iss t => ⟨fun h hu => lpbrk_still h hu, fun h hq hh hd => lpbrk_interrupts h hq hh hd, ?_⟩⟩
  · obtain ⟨r, he, hr⟩ := add_past h
    obtain ⟨hpc, hdepth, hrot, hpreds, hlc⟩ := fields_of_plain_past hr
    refine ⟨r, he, fun hn => ?_, fun hends hc => ?_, fun hends hc => ?_⟩
    · rw [Thread.loopUpdate_elsewhere hn] at hpc hdepth hrot hpreds
      exact ⟨hpc, hdepth, hrot, hpreds⟩
    · obtain ⟨hpc', hdepth', hrot', hpreds', hlc'⟩ := Thread.loopUpdate_back (next := iss.next (.add o f)) hends hc
      refine ⟨hpc.trans hpc', hdepth.trans hdepth', hrot.trans hrot', fun p => ?_, (hlc _).trans hlc'⟩
      rw [hpreds.trans hpreds']
      split
      · next hs => rw [shiftStages_getLsbD]; simp only [hs, true_and]
      · next hs => simp only [hs, false_and, if_false]
    · rw [Thread.loopUpdate_last hends hc] at hpc hdepth hrot hpreds
      exact ⟨hpc, hdepth, hrot, hpreds⟩
  · intro i th n start stop nests wide faults h hh
    refine ⟨fun hd hq => ?_, fun hd hw hq => ?_, fun hd hw hn hq => ?_, fun hd hw hn hle => ⟨fun h0 => ?_, fun h0 => ?_⟩⟩
    · exact ⟨_, lpbeg_interrupts h hq (Thread.lpbeg_of_full hh hd) (by simp)⟩
    · exact ⟨_, lpbeg_interrupts h hq (Thread.lpbeg_of_small hh hd hw) (by simp)⟩
    · exact ⟨_, lpbeg_interrupts h hq (Thread.lpbeg_of_unnested hh hd hw hn) (by simp)⟩
    · exact (lpbeg_goes h ((Thread.lpbeg_of_nested hh hd hw hn hle).trans (if_pos h0))).of_setThread
    · have hgo := lpbeg_goes h ((Thread.lpbeg_of_nested hh hd hw hn hle).trans (if_neg h0))
      rw [State.modThread, begun_thread]
      exact hgo
  · intro hq hi ht hc hd hl hf hch hh hend
    exact ⟨_, _, rfl, runGroup_preTrap hi ht hq hd (lpbrk_preTrap hl hf hch hh hend) (by simp)⟩

end Sys2Proof.Machine
end

section
/-! The loop-state record (02 R48): its fields, and what is saved and installed. -/

namespace Sys2Proof.Machine

/-! ### A loop-control set in its 32 bytes -/

/-- The fields of a set that the record holds. -/
structure Lc.Fits (l : Lc) : Prop where
  start : l.start < 2 ^ 55
  stop : l.stop < 2 ^ 55
  len : l.len < 3
  count : 0 < l.count ∧ l.count < 2 ^ 40
  feed : l.feed < 2 ^ 32
  stages : l.stages ≤ 8
  frame : l.frame < 2 ^ 16

section
variable {l : Lc} (h : l.Fits)
include h

theorem Lc.word_lt : l.word < 2 ^ 256 := by
  obtain ⟨hstart, hstop, hlen, hcount, hfeed, hstages, hframe⟩ := h
  have hr := l.rotate.toNat_le
  unfold Lc.word
  omega

theorem Lc.ofWord_word : Lc.ofWord l.word = l := by
  obtain ⟨hstart, hstop, hlen, hcount, hfeed, hstages, hframe⟩ := h
  have hr := l.rotate.toNat_le
  have hrot : Nat.testBit l.word 172 = l.rotate := by
    have hbit : l.word / 2 ^ 172 % 2 = l.rotate.toNat := by rw [Lc.word]; omega
    rw [Nat.testBit_eq_decide_div_mod_eq, hbit]
    cases l.rotate <;> rfl
  change _ = (⟨l.start, l.stop, l.len, l.count, l.feed, l.stages, l.rotate, l.frame⟩ : Lc)
  simp only [Lc.ofWord, hrot, Lc.mk.injEq, true_and, bits]
  simp only [Lc.word, Nat.pow_zero, Nat.div_one]
  refine ⟨?_, ?_, ?_, ?_, ?_, ?_, ?_⟩ <;> omega

theorem Lc.setClear_word : setClear l.word = true := by
  obtain ⟨hstart, hstop, hlen, hcount, hfeed, hstages, hframe⟩ := h
  have hr := l.rotate.toNat_le
  have hbit : Nat.testBit l.word 173 = false := by
    rw [Nat.testBit_eq_decide_div_mod_eq, decide_eq_false_iff_not, Lc.word]
    omega
  simp only [setClear, hbit, bits, Bool.not_false, Bool.and_true, Bool.and_eq_true]
  simp only [Lc.word]
  refine ⟨⟨⟨decide_eq_true ?_, decide_eq_true ?_⟩, decide_eq_true ?_⟩, decide_eq_true ?_⟩ <;> omega

theorem Lc.ok_of_fits : l.ok = true := by
  obtain ⟨hstart, hstop, hlen, hcount, hfeed, hstages, hframe⟩ := h
  simp only [Lc.ok, hstages, decide_true, Bool.true_and, Bool.and_eq_true, decide_eq_true_eq]
  omega

end

/-! ### The record of a thread -/

/-- The 32 bytes of set i in a thread's record. -/
def Thread.setWord (th : Thread) (i : Nat) : Nat := if i < th.depth then (th.lc i).word else 0

theorem foldl_range_four {α : Type} (f : α → Nat → α) (a : α) : (List.range 4).foldl f a = f (f (f (f a 0) 1) 2) 3 := rfl

theorem Thread.loopRecord_eq (th : Thread) : th.loopRecord =
    th.loopHeader + th.setWord 0 * 2 ^ 64 + th.setWord 1 * 2 ^ 320 + th.setWord 2 * 2 ^ 576 + th.setWord 3 * 2 ^ 832 := by
  have h : th.loopRecord = (List.range 4).foldl (fun r i => r + th.setWord i * 2 ^ (64 + 256 * i)) th.loopHeader := rfl
  rw [h, foldl_range_four]

section
variable {th : Thread} (hd : th.depth ≤ 4) (hr : th.rot < 64) (hc : th.callDepth < 2 ^ 16) (hl : ∀ i < th.depth, (th.lc i).Fits)

include hl in
theorem Thread.setWord_lt (i : Nat) : th.setWord i < 2 ^ 256 := by
  unfold Thread.setWord
  split
  · exact Lc.word_lt (hl i ‹_›)
  · exact Nat.two_pow_pos 256

include hd hr hc in
theorem Thread.loopHeader_lt : th.loopHeader < 2 ^ 32 := by unfold Thread.loopHeader; omega

include hd hr hc hl

/-- The record's length, its header and its sets. -/
theorem Thread.loopRecord_parts : th.loopRecord < 2 ^ 1088 ∧ th.loopRecord % 2 ^ 64 = th.loopHeader ∧
    ∀ i < 4, th.loopRecord / 2 ^ (64 + 256 * i) % 2 ^ 256 = th.setWord i := by
  have h0 := Thread.setWord_lt hl 0
  have h1 := Thread.setWord_lt hl 1
  have h2 := Thread.setWord_lt hl 2
  have h3 := Thread.setWord_lt hl 3
  have hh := Thread.loopHeader_lt hd hr hc
  rw [Thread.loopRecord_eq]
  refine ⟨?_, ?_, fun i hi => ?_⟩
  · omega
  · omega
  · interval_cases i <;> omega

/-- The fields of the header. -/
theorem Thread.loopRecord_header : bits th.loopRecord 2 0 = th.depth ∧ bits th.loopRecord 13 8 = th.rot ∧ bits th.loopRecord 31 16 = th.callDepth ∧
    headerOk th.loopRecord = true := by
  obtain ⟨-, hh, -⟩ := Thread.loopRecord_parts hd hr hc hl
  rw [Thread.loopHeader] at hh
  generalize th.loopRecord = x at hh ⊢
  have hdepth : bits x 2 0 = th.depth := by rw [bits]; omega
  have hrot : bits x 13 8 = th.rot := by rw [bits]; omega
  have hcall : bits x 31 16 = th.callDepth := by rw [bits]; omega
  have hhigh : bits x 63 32 = 0 := by rw [bits]; omega
  have hmid : bits x 15 14 = 0 := by rw [bits]; omega
  have hlow : bits x 7 3 = 0 := by rw [bits]; omega
  refine ⟨hdepth, hrot, hcall, ?_⟩
  simp only [headerOk, hhigh, hmid, hlow, hdepth, hd, decide_true, Bool.and_self]

theorem Thread.recordOk_loopRecord : recordOk th.loopRecord = true := by
  obtain ⟨-, -, hset⟩ := Thread.loopRecord_parts hd hr hc hl
  obtain ⟨hdepth, -, -, hok⟩ := Thread.loopRecord_header hd hr hc hl
  rw [recordOk, hok, Bool.true_and, List.all_eq_true]
  intro i hi
  simp only [hset i (List.mem_range.1 hi), hdepth, Thread.setWord]
  by_cases h : i < th.depth
  · simp only [if_pos h, Lc.setClear_word (hl i h), Lc.ofWord_word (hl i h), Lc.ok_of_fits (hl i h), Bool.or_true, Bool.and_self]
  · rw [if_neg h, decide_eq_true (Nat.le_of_not_lt h)]
    rfl

end

theorem Thread.setRecord_lc (th : Thread) (x : Nat) {i : Nat} (hi : i < 4) : (th.setRecord x).lc i = Lc.ofWord (x / 2 ^ (64 + 256 * i) % 2 ^ 256) := by
  rw [Thread.setRecord, foldl_range_four]
  interval_cases i <;> rfl

theorem Thread.setRecord_header (th : Thread) (x : Nat) : (th.setRecord x).depth = bits x 2 0 ∧ (th.setRecord x).rot = bits x 13 8 ∧
    (th.setRecord x).callDepth = bits x 31 16 := by
  rw [Thread.setRecord, foldl_range_four]
  simp only [Thread.setLc_depth, Thread.setLc_rot, Thread.setLc_callDepth, Thread.setHeader, and_self]

end Sys2Proof.Machine
end

section
/-! Accesses of eight bytes to words that the requester owns (03 R55, R56): what the stores of a record leave, word by word and byte by byte. -/

namespace Sys2Proof.Machine

/-! ### A word that the requester owns (03 R55, R56) -/

/-- The requester's agent and first level are those of its core. -/
structure Who.Proper (x : Who) : Prop where
  agent : x.agent = homeAgent x.core
  level : x.level = if isMarl x.core then marlLevel x.core else l1Level (clusterOf x.core)

theorem who_proper (s : State) (t : Nat) : (s.who t).Proper := ⟨rfl, rfl⟩

theorem copyKey_inj {l k w v : Nat} (hw : w < 2 ^ 50) (hv : v < 2 ^ 50) (h : copyKey l w = copyKey k v) : l = k ∧ w = v := by
  unfold copyKey at h
  omega

theorem dieAgent_place (d : Nat) : dieAgent d % 1024 < 8 ∧ agentDie (dieAgent d) = d := by
  simp only [agentDie, dieAgent]; omega

theorem marlAgent_place {c : Nat} (hm : isMarl c = true) (hn : numOf c < 352) :
    ¬ marlAgent c % 1024 < 8 ∧ marlAgent c % 1024 < 104 ∧ agentMarl (marlAgent c) = c := by
  have key : ∀ p n a, 256 ≤ n → n < 352 → a = p * 1024 + 8 + (n - 256) →
      ¬ a % 1024 < 8 ∧ a % 1024 < 104 ∧ a / 1024 * 512 + (a % 1024 - 8 + 256) = p * 512 + n := by omega
  obtain ⟨h8, h104, hback⟩ := key (pkgOf c) (numOf c) _ (of_decide_eq_true hm) hn rfl
  exact ⟨h8, h104, hback.trans (Nat.div_add_mod' c 512)⟩

theorem clusterOf_eq (c : Nat) : dieOf c * 8 + clusterOf c % 8 = clusterOf c := by
  simp only [dieOf, clusterOf, numOf]; omega

/-- An owned word's latest value is that of the copy at the requester's first level. -/
theorem Holds.wordVal {s : State} {x : Who} {w : Nat} (h : Holds s x w) (hx : x.Proper) : ∃ c, s.copy x.level w = some c ∧ s.wordVal w = c.val := by
  obtain ⟨⟨-, hnum⟩, ⟨c, hc, hown, -, -, hwin⟩, ⟨e, he, hagent⟩, hdie⟩ := h
  obtain ⟨ha, hl⟩ := hx
  refine ⟨c, hc, ?_⟩
  have hdata : s.agentData x.agent w = some c.val := by
    rw [homeAgent] at ha
    cases hm : isMarl x.core with
    | true =>
      obtain ⟨h8, h104, hback⟩ := marlAgent_place hm hnum
      rw [hm, if_pos rfl] at ha hl
      simp only [State.agentData, ha, h8, h104, if_false, if_true, hback, ← hl, hc, hown]
    | false =>
      obtain ⟨d, hd, hdown, hholder⟩ := hdie hm
      obtain ⟨h8, hback⟩ := dieAgent_place (dieOf x.core)
      have hne : d.holder ≠ 8 := hholder ▸ (Nat.mod_lt _ (by decide)).ne
      have hl1 : l1Level (dieOf x.core * 8 + d.holder) = x.level := by rw [hl, hm, hholder, clusterOf_eq]; rfl
      rw [hm, if_neg Bool.false_ne_true] at ha
      simp only [State.agentData, ha, h8, if_true, hback, State.dieData, hd, hdown, hne, if_false, hl1, hc, hown, State.copyVal, hwin]
  rw [State.wordVal, he]
  simp only [hagent, hdata, Option.getD_some]

/-- A word's data at the requester's first level replaced. -/
def State.putWord (s : State) (x : Who) (w : Nat) (v : Word) : State :=
  match s.copy x.level w with
  | some c => s.setCopy x.level w { c with val := v }
  | none => s

theorem copy_putWord (s : State) (x : Who) (w : Nat) (v : Word) (l u : Nat) :
    (s.putWord x w v).copy l u = (s.copy l u).map fun c => if copyKey x.level w = copyKey l u then { c with val := v } else c := by
  unfold State.putWord
  split
  · next c hc =>
    simp only [State.copy, State.setCopy, tget?_tset] at hc ⊢
    split
    · next hk => rw [← hk, hc]; rfl
    · exact Option.map_id'.symm
  · next hc =>
    by_cases hk : copyKey x.level w = copyKey l u
    · rw [State.copy, ← hk]
      rw [State.copy] at hc
      rw [hc]; rfl
    · simp only [hk, if_false, Option.map_id']

/-! ### What a store at owned words leaves (03 R56) -/

/-- A copy without its data. -/
def Copy.blank (c : Copy) : Copy := { c with val := 0 }

theorem Copy.blank_withVal (c : Copy) (v : Word) (p : Prop) [Decidable p] : (if p then { c with val := v } else c).blank = c.blank := by
  split <;> rfl

/-- y is s but for the data of copies and the words that the requester's thread has written. -/
structure Keeps (x : Who) (s y : State) : Prop where
  still : { y with copies := [], threads := [] } = { s with copies := [], threads := [] }
  flags : ∀ l w, (y.copy l w).map Copy.blank = (s.copy l w).map Copy.blank
  threads : ∀ t, y.thread t = if t = x.tid then { s.thread t with written := (y.thread t).written } else s.thread t

section
variable {x : Who} {s y z : State}

/-- What reads neither copies nor threads. -/
theorem Keeps.field {α : Sort _} (h : Keeps x s y) (f : State → α) (hf : ∀ s, f { s with copies := [], threads := [] } = f s) : f y = f s := by
  rw [← hf y, h.still, hf]

theorem Keeps.refl (x : Who) (s : State) : Keeps x s s := ⟨rfl, fun _ _ => rfl, fun t => by split <;> rfl⟩

theorem Keeps.trans (h : Keeps x s y) (k : Keeps x y z) : Keeps x s z where
  still := k.still.trans h.still
  flags l w := (k.flags l w).trans (h.flags l w)
  threads t := by
    have h1 := h.threads t
    have h2 := k.threads t
    split at h1
    · next ht => rw [if_pos ht] at h2 ⊢; rw [h2, h1]
    · next ht => rw [if_neg ht] at h2 ⊢; rw [h2, h1]

theorem Keeps.pending (h : Keeps x s y) (t : Nat) : (y.thread t).pending = (s.thread t).pending := by
  rw [h.threads t]; split <;> rfl

/-- Every level has the same copies, but for their data. -/
theorem Keeps.copy (h : Keeps x s y) {l w : Nat} {c : Copy} (hc : s.copy l w = some c) : ∃ d, y.copy l w = some d ∧ d.blank = c.blank := by
  have := h.flags l w
  rw [hc, Option.map_some, Option.map_eq_some_iff] at this
  exact this

theorem Holds.of_keeps {w : Nat} (h : Holds s x w) (k : Keeps x s y) : Holds y x w := by
  obtain ⟨hplace, ⟨c, hc, hown, hpend, hholder, hwin⟩, ⟨e, he, ha⟩, hdie⟩ := h
  obtain ⟨d, hd, hdc⟩ := k.copy hc
  refine ⟨hplace, ⟨d, hd, ?_, ?_, ?_, ?_⟩, ⟨e, (k.field (·.ownerOf w) fun _ => rfl).trans he, ha⟩, fun hm => ?_⟩
  · exact (congrArg Copy.owned hdc).trans hown
  · exact (congrArg Copy.pend hdc).trans hpend
  · exact (congrArg Copy.holder hdc).trans hholder
  · exact (congrArg Copy.win hdc).trans hwin
  · obtain ⟨c, hc, hown, hholder⟩ := hdie hm
    obtain ⟨d, hd, hdc⟩ := k.copy hc
    exact ⟨d, hd, (congrArg Copy.owned hdc).trans hown, (congrArg Copy.holder hdc).trans hholder⟩

theorem putWord_keeps (s : State) (x : Who) (w : Nat) (v : Word) : Keeps x s (s.putWord x w v) where
  still := by unfold State.putWord; split <;> rfl
  flags l u := by
    rw [copy_putWord]
    cases s.copy l u with
    | none => rfl
    | some c => simp only [Option.map_some, Copy.blank_withVal]
  threads t := by
    have : (s.putWord x w v).thread t = s.thread t := by unfold State.putWord; split <;> rfl
    rw [this]; split <;> rfl

theorem written_keeps (s : State) (x : Who) (f : Thread → List Nat) : Keeps x s (s.modThread x.tid fun th => { th with written := f th }) where
  still := rfl
  flags _ _ := rfl
  threads t := by
    rw [State.thread_modThread]
    by_cases h : t = x.tid
    · rw [if_pos h, if_pos h.symm]
    · rw [if_neg h, if_neg (Ne.symm h)]

/-- A word's latest value is what its copies, its owner and its home hold. -/
theorem Keeps.wordVal (h : Keeps x s y) {w : Nat} (hc : ∀ l, y.copy l w = s.copy l w) : y.wordVal w = s.wordVal w := by
  have howner : y.ownerOf w = s.ownerOf w := h.field (·.ownerOf w) fun _ => rfl
  have hhome : y.homeWord w = s.homeWord w := h.field (·.homeWord w) fun _ => rfl
  have hbuf : ∀ a, y.buffered a w = s.buffered a w := fun a => h.field (·.buffered a w) fun _ => rfl
  have hval : y.copyVal = s.copyVal := h.field State.copyVal fun _ => rfl
  simp only [State.wordVal, howner, hhome, State.agentData, State.dieData, hc, hbuf, hval]

theorem wordVal_putWord_ne (s : State) (x : Who) {w u : Nat} (v : Word) (hw : w < 2 ^ 50) (hu : u < 2 ^ 50) (hne : u ≠ w) :
    (s.putWord x w v).wordVal u = s.wordVal u := by
  refine (putWord_keeps s x w v).wordVal fun l => ?_
  rw [copy_putWord]
  have hk : copyKey x.level w ≠ copyKey l u := fun hk => hne (copyKey_inj hw hu hk).2.symm
  simp only [hk, if_false, Option.map_id']

theorem wordVal_putWord (hx : x.Proper) {w : Nat} (h : Holds s x w) (v : Word) : (s.putWord x w v).wordVal w = v := by
  obtain ⟨d, hd, hval⟩ := (h.of_keeps (putWord_keeps s x w v)).wordVal hx
  obtain ⟨-, ⟨c, hc, -⟩, -⟩ := h
  rw [copy_putWord, hc] at hd
  rw [hval, ← Option.some.inj hd]
  simp

/-! ### The accesses of the record -/

/-- An 8-byte access that a translation cache maps to two words that the requester owns, with no earlier request in its way. -/
structure Reaches (s : State) (x : Who) (va : Nat) (write : Bool) (pa : Nat) : Prop where
  mapped : s.Mapped x va write pa
  low : Holds s x (pa / 4)
  high : Holds s x (pa / 4 + 1)
  free : s.overlaps x.tid [pa / 4, pa / 4 + 1] = false
  acked : s.wbPending x.agent [pa / 4, pa / 4 + 1] = false

theorem Reaches.of_keeps {va pa : Nat} {write : Bool} (h : Reaches s x va write pa) (k : Keeps x s y) : Reaches y x va write pa where
  mapped := (k.field (·.Mapped x va write pa) fun _ => rfl) ▸ h.mapped
  low := h.low.of_keeps k
  high := h.high.of_keeps k
  free := by
    have hm : ∀ id, y.msg id = s.msg id := fun id => k.field (·.msg id) fun _ => rfl
    rw [← h.free, State.overlaps, State.overlaps, k.pending]
    simp only [hm]
  acked := (k.field (·.wbPending x.agent [pa / 4, pa / 4 + 1]) fun _ => rfl).trans h.acked

theorem translate_of_mapped {va pa : Nat} {write : Bool} (h : s.Mapped x va write pa) :
    s.translate x.ctx (tcPath x.core) va { user := x.user, write := write } = (s, .inl (.cached pa)) := by
  obtain ⟨hcan, hplaced, e, he, hleaf, htg⟩ := h
  unfold State.translate
  simp only [hcan, he, hleaf, State.admitLeaf, htg, Target.exists', hplaced, Bool.not_true, Bool.false_eq_true, if_false, if_true]

end

theorem mergeWord_all (x y : Word) : mergeWord 15 x y = x := by
  have hx := x.isLt
  apply BitVec.eq_of_toNat_eq
  have hbit : ∀ i < 4, Nat.testBit 15 i = true := by decide
  rw [mergeWord, foldl_range_four, hbit 0 (by decide), hbit 1 (by decide), hbit 2 (by decide), hbit 3 (by decide), BitVec.toNat_ofNat]
  simp only [if_true]
  omega

theorem tset_tset {α : Type} (t : Tab α) (i : Nat) (v w : α) : tset (tset t i v) i w = tset t i w := by
  induction t with
  | nil => simp [tset]
  | cons p t ih =>
    obtain ⟨k, u⟩ := p
    rcases Nat.lt_trichotomy i k with h | rfl | h
    · simp [tset, h]
    · simp [tset]
    · simp [tset, Nat.not_lt.2 h.le, h.ne, ih]

theorem State.setCopy_setCopy (s : State) (l w : Nat) (c d : Copy) : (s.setCopy l w c).setCopy l w d = s.setCopy l w d := by
  simp only [State.setCopy, tset_tset]

section
variable {s : State} {x : Who}

theorem storeWord_of_holds {w : Nat} (h : Holds s x w) (v : Word) (region : Nat) (late : Bool) :
    s.storeWord x w 15 v region none .all late = .done (s.putWord x w v) := by
  obtain ⟨-, ⟨c, hc, hown, hpend, hholder, hwin⟩, -⟩ := h
  simp only [State.storeWord, hc, hpend, hown, Bool.false_eq_true, if_false, if_true, State.moveCopy, hwin, hholder, State.expel, State.putCopy, mergeWord_all,
    State.setCopy_setCopy, State.putWord]

theorem owned_of_holds {w : Nat} (h : Holds s x w) : ∃ c, s.copy x.level w = some c ∧ c.owned = true ∧ c.pend = false := by
  obtain ⟨-, ⟨c, hc, hown, hpend, -⟩, -⟩ := h
  exact ⟨c, hc, hown, hpend⟩

theorem mixed_of_holds {items : List Item} (h : ∀ i ∈ items, Holds s x i.w) : s.mixed x.level items = false := by
  rw [State.mixed, Bool.and_eq_false_iff, Bool.not_eq_false']
  refine .inr (List.all_eq_true.2 fun i hi => ?_)
  obtain ⟨c, hc, hown, -⟩ := owned_of_holds (h i hi)
  simp only [hc, hown]

theorem splitPending_of_holds {items : List Item} (h : ∀ i ∈ items, Holds s x i.w) : s.splitPending x.level items = false := by
  rw [State.splitPending, Bool.and_eq_false_iff]
  refine .inr (List.any_eq_false.2 fun i hi => ?_)
  obtain ⟨c, hc, -, hpend⟩ := owned_of_holds (h i hi)
  simp only [hc, hpend, Bool.false_eq_true, not_false_eq_true]

theorem remotePending_of_holds {items : List Item} (h : ∀ i ∈ items, Holds s x i.w) : s.remotePending x (items.map (·.w)) = false := by
  refine List.any_eq_false.2 fun w hw => ?_
  obtain ⟨i, hi, rfl⟩ := List.mem_map.1 hw
  obtain ⟨c, hc, -, hpend⟩ := owned_of_holds (h i hi)
  simp only [hc, hpend, Bool.and_false, Bool.false_eq_true, not_false_eq_true]

theorem storeWaits_of_holds {items : List Item} (h : ∀ i ∈ items, Holds s x i.w) (hf : s.overlaps x.tid (items.map (·.w)) = false)
    (ha : s.wbPending x.agent (items.map (·.w)) = false) : s.storeWaits x items = false := by
  simp only [State.storeWaits, hf, ha, splitPending_of_holds h, remotePending_of_holds h, Bool.or_self]

/-- No window of the gang maps an address. -/
def State.Unmapped (s : State) (core va : Nat) : Prop := isMarl core = true ∨
  ∀ c ∈ s.gangCores core, ∀ y ∈ (s.core c).windows, y.2.st = .unbound ∨ va < y.2.base ∨ y.2.base + y.2.size ≤ va

theorem foldl_eq_of_fixed {α β : Type} (f : α → β → α) (a : α) (l : List β) (h : ∀ b ∈ l, f a b = a) : l.foldl f a = a := by
  induction l with
  | nil => rfl
  | cons b l ih => rw [List.foldl_cons, h b List.mem_cons_self, ih fun c hc => h c (List.mem_cons_of_mem b hc)]

theorem staleWindows_of_unmapped {core va : Nat} (h : s.Unmapped core va) (pa n : Nat) : s.staleWindows core va pa n = s := by
  unfold State.staleWindows
  split
  · rfl
  · next hm =>
    exact foldl_eq_of_fixed _ s _ fun c hc => foldl_eq_of_fixed _ s _ fun y hy => if_pos (h.resolve_left hm c hc y hy)

/-- Eight bytes put into two words that the requester owns, and noted as written. -/
def State.put8 (s : State) (x : Who) (pa d : Nat) : State :=
  ((s.putWord x (pa / 4) (wordAt d 0)).putWord x (pa / 4 + 1) (wordAt d 1)).modThread x.tid fun th =>
    { th with written := ([pa / 4, pa / 4 + 1] ++ th.written).eraseDups }

theorem put8_keeps (s : State) (x : Who) (pa d : Nat) : Keeps x s (s.put8 x pa d) :=
  ((putWord_keeps s x _ _).trans (putWord_keeps _ x _ _)).trans (written_keeps _ x _)

theorem Keeps.core {y : State} (k : Keeps x s y) (c : Nat) : y.core c = s.core c := by
  simp only [State.core, k.field State.cores fun _ => rfl]

theorem State.Unmapped.of_keeps {y : State} {core va : Nat} (h : s.Unmapped core va) (k : Keeps x s y) : y.Unmapped core va := by
  have hgang : y.gangCores core = s.gangCores core := by simp only [State.gangCores, k.core, k.field State.cores fun _ => rfl]
  simpa only [State.Unmapped, hgang, k.core] using h

/-- The two words of an 8-byte access. -/
theorem itemsOf_eight (pa d : Nat) : itemsOf pa 8 d = [{ w := pa / 4, val := wordAt d 0 }, { w := pa / 4 + 1, val := wordAt d 1 }] := if_pos rfl

theorem Reaches.items {va pa : Nat} {write : Bool} (h : Reaches s x va write pa) (d : Nat) : ∀ i ∈ itemsOf pa 8 d, Holds s x i.w := by
  intro i hi
  simp only [itemsOf_eight, List.mem_cons, List.not_mem_nil, or_false] at hi
  rcases hi with rfl | rfl
  · exact h.low
  · exact h.high

theorem storeTo_of_reaches {va pa : Nat} (h : Reaches s x va true pa) (hw : s.Unmapped x.core va) (d : Nat) :
    s.storeTo x (.cached pa) va 8 d .all false = (s.put8 x pa d, .next) := by
  have hmixed := mixed_of_holds (h.items d)
  have hlow := storeWord_of_holds h.low (wordAt d 0) (s.regionOf x.ctx va)
  have hhigh := storeWord_of_holds (h.high.of_keeps (putWord_keeps s x (pa / 4) (wordAt d 0))) (wordAt d 1) (s.regionOf x.ctx va)
  have hstale : (s.put8 x pa d).staleWindows x.core va pa 2 = s.put8 x pa d := staleWindows_of_unmapped (hw.of_keeps (put8_keeps s x pa d)) pa 2
  rw [State.put8] at hstale
  rw [itemsOf_eight] at hmixed
  simp only [State.storeTo, State.storeAt, State.storeBy, itemsOf_eight, hmixed, Bool.or_false, Bool.false_eq_true, if_false, List.foldl_cons, List.foldl_nil,
    Option.map_none, hlow, hhigh, Option.isSome_none, List.map_cons, List.map_nil, List.length_cons, List.length_nil, Nat.zero_add, Nat.reduceAdd, if_true, hstale,
    State.afterStore, State.put8]

theorem Reaches.storeWaits {va pa : Nat} {write : Bool} (h : Reaches s x va write pa) : s.storeWaits x (itemsOf pa 8 0) = false :=
  storeWaits_of_holds (h.items 0) h.free h.acked

/-! ### The seventeen stores -/

/-- The state after the stores of record d from number k on. -/
def State.putRecord (s : State) (x : Who) (pa : Nat → Nat) (d k : Nat) : Nat → State
  | 0 => s
  | n + 1 => (s.put8 x (pa k) (d / 2 ^ (64 * k) % 2 ^ 64)).putRecord x pa d (k + 1) n

theorem putRecord_keeps (pa : Nat → Nat) (d k n : Nat) (s : State) : Keeps x s (s.putRecord x pa d k n) := by
  induction n generalizing s k with
  | zero => exact Keeps.refl x s
  | succ n ih => exact (put8_keeps s x _ _).trans (ih (k + 1) _)

/-- No request of the thread outside Cached pages has not ended. -/
theorem uncachedPending_of_keeps {y : State} (k : Keeps x s y) (t : Nat) : y.uncachedPending t = s.uncachedPending t := by
  have hm : ∀ id, y.msg id = s.msg id := fun id => by simp only [State.msg, k.field State.msgs fun _ => rfl]
  simp only [State.uncachedPending, k.pending, hm]

theorem saveRecord_end (va d k : Nat) (h : s.uncachedPending x.tid = false) : s.saveRecord x va d k 0 = (s, .next) := by
  unfold State.saveRecord
  refine if_neg fun hc => ?_
  obtain ⟨id, hid, hlive⟩ := List.any_eq_true.1 hc
  have := List.any_eq_false.1 h id hid
  unfold State.live at hlive
  revert hlive this
  cases s.msg id <;> simp

theorem saveRecord_of_reaches {pa : Nat → Nat} {va : Nat} (d : Nat) {n k : Nat} (s : State) (hu : s.uncachedPending x.tid = false)
    (h : ∀ j, k ≤ j → j < k + n → Reaches s x ((va + 8 * j) % 2 ^ 64) true (pa j) ∧ s.Unmapped x.core ((va + 8 * j) % 2 ^ 64)) :
    s.saveRecord x va d k n = (s.putRecord x pa d k n, .next) := by
  induction n generalizing s k with
  | zero => exact saveRecord_end va d k hu
  | succ n ih =>
    obtain ⟨hr, hw⟩ := h k le_rfl (by omega)
    have hk := put8_keeps s x (pa k) (d / 2 ^ (64 * k) % 2 ^ 64)
    simp only [State.saveRecord, translate_of_mapped hr.mapped, hr.storeWaits, Bool.false_eq_true, if_false, storeTo_of_reaches hr hw]
    refine ih _ ((uncachedPending_of_keeps hk _).trans hu) fun j h1 h2 => ?_
    obtain ⟨hj, hwj⟩ := h j (by omega) (by omega)
    exact ⟨hj.of_keeps hk, hwj.of_keeps hk⟩

end

/-! ### The bytes that LPSAVE leaves -/

theorem mod_div_mod (x : Nat) {b c e : Nat} (h : c + e ≤ b) : x % 2 ^ b / 2 ^ c % 2 ^ e = x / 2 ^ c % 2 ^ e := by
  obtain ⟨f, rfl⟩ := Nat.le.dest h
  rw [Nat.add_assoc, Nat.pow_add, Nat.mod_mul_right_div_self, Nat.mod_mod_of_dvd _ (Nat.pow_dvd_pow 2 (Nat.le_add_right e f))]

/-- Byte r of word i of number j of a record. -/
theorem wordAt_byte (d j : Nat) {i r : Nat} (hi : i < 2) (hr : r < 4) :
    (wordAt (d / 2 ^ (64 * j) % 2 ^ 64) i).toNat / 2 ^ (8 * r) % 256 = d / 256 ^ (8 * j + 4 * i + r) % 256 := by
  have h256 : (256 : Nat) = 2 ^ 8 := rfl
  rw [wordAt, BitVec.toNat_ofNat, h256, mod_div_mod _ (by omega), Nat.div_div_eq_div_mul, ← Nat.pow_add, mod_div_mod _ (by omega), Nat.div_div_eq_div_mul,
    ← Nat.pow_add, ← Nat.pow_mul]
  congr 3
  omega

section
variable {s : State} {x : Who} {pa : Nat}

theorem wordVal_put8_ne (s : State) (x : Who) (d : Nat) {u : Nat} (hp : pa / 4 + 1 < 2 ^ 50) (hu : u < 2 ^ 50) (h : u ≠ pa / 4 ∧ u ≠ pa / 4 + 1) :
    (s.put8 x pa d).wordVal u = s.wordVal u := by
  exact ((written_keeps _ x _).wordVal fun _ => rfl).trans
    ((wordVal_putWord_ne _ x _ hp hu h.2).trans (wordVal_putWord_ne s x _ (Nat.lt_of_succ_lt hp) hu h.1))

theorem wordVal_put8 (hx : x.Proper) (d : Nat) (hp : pa / 4 + 1 < 2 ^ 50) (hlow : Holds s x (pa / 4)) (hhigh : Holds s x (pa / 4 + 1)) :
    ∀ i < 2, (s.put8 x pa d).wordVal (pa / 4 + i) = wordAt d i := by
  have hnoted : ∀ u, (s.put8 x pa d).wordVal u = ((s.putWord x (pa / 4) (wordAt d 0)).putWord x (pa / 4 + 1) (wordAt d 1)).wordVal u :=
    fun u => (written_keeps _ x _).wordVal fun _ => rfl
  intro i hi
  rw [hnoted]
  match i, hi with
  | 0, _ => exact (wordVal_putWord_ne _ x _ hp (Nat.lt_of_succ_lt hp) (Nat.succ_ne_self _).symm).trans (wordVal_putWord hx hlow _)
  | 1, _ => exact wordVal_putWord hx (hhigh.of_keeps (putWord_keeps s x _ _)) _

end

/-- Seventeen places of eight bytes, apart from each other. -/
structure Apart (pa : Nat → Nat) : Prop where
  aligned : ∀ k < 17, 8 ∣ pa k
  small : ∀ k < 17, pa k < 2 ^ 52
  ne : ∀ j < 17, ∀ k < 17, j ≠ k → pa j ≠ pa k

section
variable {pa : Nat → Nat} {s : State} {x : Who}

theorem wordVal_putRecord_ne (hp : Apart pa) (d : Nat) {u : Nat} (hu : u < 2 ^ 50) (n k : Nat) (s : State) (hn : k + n ≤ 17)
    (h : ∀ j, k ≤ j → j < k + n → u ≠ pa j / 4 ∧ u ≠ pa j / 4 + 1) : (s.putRecord x pa d k n).wordVal u = s.wordVal u := by
  induction n generalizing s k with
  | zero => rfl
  | succ n ih =>
    have hd := hp.aligned k (by omega)
    have hs := hp.small k (by omega)
    have hhigh : pa k / 4 + 1 < 2 ^ 50 := by omega
    exact (ih (k + 1) _ (by omega) fun j h1 h2 => h j (by omega) (by omega)).trans
      (wordVal_put8_ne s x _ hhigh hu (h k le_rfl (by omega)))

theorem wordVal_putRecord (hp : Apart pa) (hx : x.Proper) (d : Nat) (n k : Nat) (s : State) (hn : k + n ≤ 17)
    (h : ∀ j, k ≤ j → j < k + n → Holds s x (pa j / 4) ∧ Holds s x (pa j / 4 + 1)) :
    ∀ j, k ≤ j → j < k + n → ∀ i < 2, (s.putRecord x pa d k n).wordVal (pa j / 4 + i) = wordAt (d / 2 ^ (64 * j) % 2 ^ 64) i := by
  induction n generalizing s k with
  | zero => intro j h1 h2; omega
  | succ n ih =>
    intro j h1 h2 i hi
    have hd := hp.aligned j (by omega)
    have hs := hp.small j (by omega)
    rcases Nat.eq_or_lt_of_le h1 with rfl | hlt
    · obtain ⟨hlow, hhigh⟩ := h k le_rfl (by omega)
      refine (wordVal_putRecord_ne hp d (by omega) n (k + 1) _ (by omega) fun m h3 h4 => ?_).trans (wordVal_put8 hx _ (by omega) hlow hhigh i hi)
      have hm := hp.aligned m (by omega)
      have hne := hp.ne m (by omega) k (by omega) (by omega)
      omega
    · have hk := put8_keeps s x (pa k) (d / 2 ^ (64 * k) % 2 ^ 64)
      refine ih (k + 1) _ (by omega) (fun m h3 h4 => ?_) j hlt (by omega) i hi
      obtain ⟨hlow, hhigh⟩ := h m (by omega) (by omega)
      exact ⟨hlow.of_keeps hk, hhigh.of_keeps hk⟩

/-- The bytes of the record stand at its places, every other byte as before. -/
theorem byteAt_putRecord (hp : Apart pa) (hx : x.Proper) (d : Nat) (h : ∀ j < 17, Holds s x (pa j / 4) ∧ Holds s x (pa j / 4 + 1)) :
    (∀ k < 136, (s.putRecord x pa d 0 17).byteAt (pa (k / 8) + k % 8) = d / 256 ^ k % 256) ∧
    ∀ a < 2 ^ 52, (∀ k < 17, a < pa k ∨ pa k + 8 ≤ a) → (s.putRecord x pa d 0 17).byteAt a = s.byteAt a := by
  refine ⟨fun k hk => ?_, fun a ha hout => ?_⟩
  · have hd := hp.aligned (k / 8) (by omega)
    have hword := wordVal_putRecord hp hx d 17 0 s le_rfl (fun j _ hj => h j (by omega)) (k / 8) (Nat.zero_le _) (by omega) (k % 8 / 4) (by omega)
    have hw : (pa (k / 8) + k % 8) / 4 = pa (k / 8) / 4 + k % 8 / 4 := by omega
    have hr : (pa (k / 8) + k % 8) % 4 = k % 4 := by omega
    have hk8 : 8 * (k / 8) + 4 * (k % 8 / 4) + k % 4 = k := by omega
    rw [State.byteAt, hw, hr, hword, wordAt_byte d (k / 8) (by omega) (by omega), hk8]
  · have hsame : (s.putRecord x pa d 0 17).wordVal (a / 4) = s.wordVal (a / 4) :=
      wordVal_putRecord_ne hp d (by omega) 17 0 s le_rfl fun j _ hj => by
        have hd := hp.aligned j (by omega)
        have := hout j (by omega)
        omega
    rw [State.byteAt, State.byteAt, hsame]

end

end Sys2Proof.Machine
end

section
/-! LPSAVE and LPREST (02 R48, 09 R224) of a group of one thread. -/

namespace Sys2Proof.Machine

/-! ### The state that the accesses find -/

theorem mem_tset {α : Type} {t : Tab α} {i : Nat} {v : α} {p : Nat × α} (h : p ∈ tset t i v) : p ∈ t ∨ p = (i, v) := by
  induction t with
  | nil => exact .inr (List.mem_singleton.1 h)
  | cons q t ih =>
    obtain ⟨k, w⟩ := q
    rw [tset] at h
    split at h
    · exact (List.mem_cons.1 h).symm
    · split at h
      · exact (List.mem_cons.1 h).elim .inr fun h => .inl (List.mem_cons_of_mem _ h)
      · rcases List.mem_cons.1 h with h | h
        · exact .inl (h ▸ List.mem_cons_self)
        · exact (ih h).imp_left (List.mem_cons_of_mem _)

theorem mem_of_tget? {α : Type} {t : Tab α} {i : Nat} {v : α} (h : tget? t i = some v) : (i, v) ∈ t := by
  induction t with
  | nil => cases h
  | cons q t ih =>
    obtain ⟨k, w⟩ := q
    rw [tget?] at h
    split at h
    · next hk => rw [← hk, ← Option.some.inj h]; exact List.mem_cons_self
    · exact List.mem_cons_of_mem _ (ih h)

/-- A core that is in a gang stands in the table. -/
theorem mem_cores_of_gang {s : State} {c g : Nat} (h : (s.core c).gang = some g) : (c, s.core c) ∈ s.cores := by
  unfold State.core tget at h ⊢
  cases hc : tget? s.cores c with
  | none => rw [hc] at h; cases h
  | some v => exact mem_of_tget? hc

theorem mem_gangCores_of_modCore {s : State} {c k core : Nat} {f : Core → Core} (hf : ∀ a, (f a).gang = a.gang)
    (h : c ∈ (s.modCore k f).gangCores core) : c ∈ s.gangCores core := by
  have hg : ((s.modCore k f).core core).gang = (s.core core).gang := by
    rw [State.core_modCore]; split
    · subst_vars; exact hf _
    · rfl
  unfold State.gangCores at h ⊢
  rw [hg] at h
  cases hgang : (s.core core).gang with
  | none => rwa [hgang] at h
  | some g =>
    simp only [hgang, List.mem_map, List.mem_filter, decide_eq_true_eq] at h ⊢
    obtain ⟨p, ⟨hp, hpg⟩, rfl⟩ := h
    rw [State.modCore_cores] at hp
    rcases mem_tset hp with hp | rfl
    · exact ⟨p, ⟨hp, hpg⟩, rfl⟩
    · exact ⟨_, ⟨mem_cores_of_gang ((hf _).symm.trans hpg), (hf _).symm.trans hpg⟩, rfl⟩

theorem State.Unmapped.begun {s : State} {core va : Nat} (h : s.Unmapped core va) (iss : Issue) : (s.begun iss).Unmapped core va := by
  refine h.imp_right fun h c hc y hy => ?_
  rw [show ((s.begun iss).core c).windows = (s.core c).windows from (congrArg Core.windows (begun_core s iss c) :)] at hy
  refine h c ?_ y hy
  unfold State.begun at hc
  split at hc
  · refine mem_gangCores_of_modCore (fun a => ?_) hc
    exact (congrArg Core.gang (setSlot_plain a _ _) :)
  · exact hc

theorem rest_congr {s y : State} {α : Sort _} (h : y.rest = s.rest) (f : State → α) (hf : ∀ s, f s.rest = f s) : f y = f s := by
  rw [← hf y, h, hf]

section
variable {s y : State} (h : y.rest = s.rest) (hc : ∀ c, (y.core c).plain = (s.core c).plain)
include h hc

theorem scratchRead_of_rest (k n : Nat) : y.scratchRead k n = s.scratchRead k n := by
  induction n generalizing k with
  | zero => rfl
  | succ n ih =>
    have hscratch := rest_congr h State.scratch fun _ => rfl
    have hepoch : ∀ c, (y.core c).epoch = (s.core c).epoch := fun c => (congrArg Core.epoch (hc c) :)
    have hpin : ∀ c, (y.core c).pinEpoch = (s.core c).pinEpoch := fun c => (congrArg Core.pinEpoch (hc c) :)
    simp only [State.scratchRead, State.scratchByte, hscratch, hepoch, hpin, ih]

/-- The latest values are told by memory and the scratchpads. -/
theorem wordVal_of_rest (w : Nat) : y.wordVal w = s.wordVal w := by
  have hcopies := rest_congr h State.copies fun _ => rfl
  have howners := rest_congr h State.ownerOf fun _ => rfl
  have hmsgs := rest_congr h State.msgs fun _ => rfl
  have hhome := rest_congr h State.homeWord fun _ => rfl
  have hval : ∀ c, y.copyVal c = s.copyVal c := fun c => by simp only [State.copyVal, scratchRead_of_rest h hc]
  simp only [State.wordVal, howners, hhome, State.agentData, State.dieData, State.copy, hcopies, hval, State.buffered, hmsgs]

theorem byteAt_of_rest (a : Nat) : y.byteAt a = s.byteAt a := by rw [State.byteAt, State.byteAt, wordVal_of_rest h hc]

end

theorem Holds.of_rest {s y : State} {x : Who} {w : Nat} (h : Holds s x w) (hr : y.rest = s.rest) : Holds y x w := by
  have hcopies := rest_congr hr State.copies fun _ => rfl
  have howners := rest_congr hr State.ownerOf fun _ => rfl
  obtain ⟨hplace, hhere, hhome, hdie⟩ := h
  simp only [State.copy, ← hcopies, ← howners] at hhere hhome hdie
  exact ⟨hplace, hhere, hhome, hdie⟩

/-- An access reaches its words whatever the registers, the cores and the rest of the threads hold. -/
theorem Reaches.of_rest {s y : State} {x : Who} {va pa : Nat} {write : Bool} (h : Reaches s x va write pa) (hr : y.rest = s.rest)
    (hp : (y.thread x.tid).pending = (s.thread x.tid).pending) : Reaches y x va write pa where
  mapped := (rest_congr hr (·.Mapped x va write pa) fun _ => rfl) ▸ h.mapped
  low := h.low.of_rest hr
  high := h.high.of_rest hr
  free := by
    have hm : ∀ id, y.msg id = s.msg id := fun id => rest_congr hr (·.msg id) fun _ => rfl
    rw [← h.free, State.overlaps, State.overlaps, hp]
    simp only [hm]
  acked := (rest_congr hr (·.wbPending x.agent [pa / 4, pa / 4 + 1]) fun _ => rfl).trans h.acked

theorem uncachedPending_of_rest {s y : State} {t : Nat} (hr : y.rest = s.rest) (hp : (y.thread t).pending = (s.thread t).pending) :
    y.uncachedPending t = s.uncachedPending t := by
  have hm : ∀ id, y.msg id = s.msg id := fun id => rest_congr hr (·.msg id) fun _ => rfl
  simp only [State.uncachedPending, hp, hm]

theorem recordFault_of_mapped {s : State} {x : Who} {va : Nat} {write : Bool} {pa : Nat → Nat}
    (h : ∀ k < 17, s.Mapped x ((va + 8 * k) % 2 ^ 64) write (pa k)) : s.recordFault x va write = none := by
  rw [State.recordFault, List.findSome?_eq_none_iff]
  intro k hk
  rw [translate_of_mapped (h k (List.mem_range.1 hk))]

/-! ### LPSAVE and LPREST of a group of one thread (09 R224) -/

theorem lpsave_latchOf {o : Ops} (h : (Instr.lpsave o).WellFormed = true) : latchOf o = none := by
  obtain ⟨-, -, -, -, hl⟩ := fields_of_wellFormed h rfl rfl rfl
  exact hl rfl

theorem lprest_latchOf {o : Ops} (h : (Instr.lprest o).WellFormed = true) : latchOf o = none := by
  obtain ⟨-, -, -, -, hl⟩ := fields_of_wellFormed h rfl rfl rfl
  exact hl rfl

theorem begun_who (s : State) (iss : Issue) (t : Nat) : (s.begun iss).who t = s.who t := by
  simp only [State.who, State.ctxKey, begun_squad, begun_thread]

theorem done_of_hole {s : State} (h : s.hole = false) : done s = .next s := by rw [done, h]; rfl

theorem Still.hole {iss : Issue} {f : Nat → Thread → Thread} {x r : State} (h : Still iss f x r) : r.hole = x.hole :=
  rest_congr h.kept.rest State.hole fun _ => rfl

section
variable {s y : State} {iss : Issue} {i : Instr} {o : Ops} {t : Nat}

theorem begun_globalAddr (h : Issues s iss i o) (ht : t ∈ iss.threads) : (s.begun iss).globalAddr iss t i o = s.globalAddr iss t i o := by
  rw [State.globalAddr, begun_srcA h ht, begun_offset h ht]; rfl

/-- A first attempt at an aligned address whose accesses all have a translation. -/
theorem recordBody_of_fresh {write : Bool} (run : State → Who → Nat → State × Ret) (h : Issues s iss i o) (ht : t ∈ iss.threads) (hf : (s.thread t).fresh)
    (ha : 8 ∣ s.globalAddr iss t i o) (hr : (s.begun iss).recordFault (s.who t) (s.globalAddr iss t i o) write = none) :
    recordBody i o write run iss (s.begun iss) (s.begun iss) t = run ((s.begun iss).recordWait t 0 0 0) (s.who t) (s.globalAddr iss t i o) := by
  obtain ⟨hfailed, hphase, -⟩ := hf
  simp only [recordBody, begun_thread, begun_who, begun_globalAddr h ht, hfailed, hphase, hr, Nat.mod_eq_zero_of_dvd ha, ne_eq, not_true, if_false,
    Nat.zero_ne_one, false_and]

/-- The instruction's effect on its thread y, and the thread goes on, jumps or stays. -/
theorem exec_of_body {body : Issue → Body} {r : Ret} (h : Alone s iss i o t) (hl : latchOf o = none)
    (hb : body iss (s.begun iss) (s.begun iss) t = (y, r)) (hg : r.strikes = false) (hy : y.hole = false) :
    ∃ z, done (runGroup i o body s) = .next z ∧ Still iss (fun _ th => r.thread iss.pc (iss.next i) th) y z := by
  have hst := runGroup_alone (body := body) (r := r) h (by rw [cleared_of_latchOf hl, hb]) hg
  rw [cleared_of_latchOf hl, hb] at hst
  exact ⟨_, done_of_hole (hst.hole.trans hy), hst⟩

theorem lpsave_passes (h : Alone s iss (.lpsave o) o t) (hf : (s.thread t).fresh) (ha : 8 ∣ s.globalAddr iss t (.lpsave o) o)
    (hr : (s.begun iss).recordFault (s.who t) (s.globalAddr iss t (.lpsave o) o) true = none)
    (hs : ((s.begun iss).recordWait t 0 0 0).saveRecord (s.who t) (s.globalAddr iss t (.lpsave o) o) (s.thread t).loopRecord 0 17 = (y, .next))
    (hy : y.hole = false) : s.Passes iss (.lpsave o) y := by
  have ht : t ∈ iss.threads := by simp [h.only]
  have hth : ((s.begun iss).recordWait t 0 0 0).thread t = { s.thread t with heldA := 0, heldB := 0, phase := 0 } := by
    rw [State.recordWait, State.thread_modThread, if_pos rfl, begun_thread]
  refine exec_of_body (r := .next) h (lpsave_latchOf h.issues.formed) ?_ rfl hy
  rw [recordBody_of_fresh _ h.issues ht hf ha hr, ← hs]
  simp only [State.who, hth]
  rfl

theorem lprest_goes (h : Alone s iss (.lprest o) o t) (hf : (s.thread t).fresh) (ha : 8 ∣ s.globalAddr iss t (.lprest o) o)
    (hr : (s.begun iss).recordFault (s.who t) (s.globalAddr iss t (.lprest o) o) false = none)
    (hs : ((s.begun iss).recordWait t 0 0 0).loadRecord (s.who t) (s.globalAddr iss t (.lprest o) o) 0 0 17 = (y, .jump 0))
    (hy : y.hole = false) : s.Goes iss (.lprest o) (iss.next (.lprest o)) y := by
  have ht : t ∈ iss.threads := by simp [h.only]
  have hth : ((s.begun iss).recordWait t 0 0 0).thread (s.who t).tid = { s.thread t with heldA := 0, heldB := 0, phase := 0 } := by
    rw [State.recordWait, State.who, State.thread_modThread, if_pos rfl, begun_thread]
  refine exec_of_body (r := .jump (iss.next (.lprest o))) h (lprest_latchOf h.issues.formed) ?_ rfl hy
  simp only [recordBody_of_fresh _ h.issues ht hf ha hr, hth, Nat.zero_ne_one, if_false, Nat.sub_zero, hs]
  rfl

end

/-! ### LPSAVE at words that the requester owns -/

theorem Still.core_plain {iss : Issue} {f : Nat → Thread → Thread} {x r : State} (h : Still iss f x r) (c : Nat) : (r.core c).plain = (x.core c).plain := by
  by_cases hc : c = iss.core
  · rw [hc]; exact h.kept.core
  · rw [h.kept.cores c hc]

/-- Seventeen accesses from an address, each to words that the requester owns. -/
structure Prepared (s : State) (x : Who) (va : Nat) (write : Bool) (pa : Nat → Nat) : Prop where
  reaches : ∀ k < 17, Reaches s x ((va + 8 * k) % 2 ^ 64) write (pa k)
  apart : Apart pa

theorem prepared_of_owned {s : State} {x : Who} {va : Nat} {write : Bool} {pa : Nat → Nat}
    (h : ∀ k < 17, s.Mapped x ((va + 8 * k) % 2 ^ 64) write (pa k) ∧ 8 ∣ pa k ∧ pa k < 2 ^ 52 ∧ (∀ j < 17, j ≠ k → pa j ≠ pa k) ∧
      (∀ j ∈ itemsOf (pa k) 8 0, Holds s x j.w) ∧ s.overlaps x.tid ((itemsOf (pa k) 8 0).map (·.w)) = false ∧
      s.wbPending x.agent ((itemsOf (pa k) 8 0).map (·.w)) = false) : Prepared s x va write pa where
  reaches k hk := by
    obtain ⟨hm, -, -, -, hown, hfree, hacked⟩ := h k hk
    simp only [itemsOf_eight, List.forall_mem_cons, List.map_cons, List.map_nil] at hown hfree hacked
    exact ⟨hm, hown.1, hown.2.1, hfree, hacked⟩
  apart := by
    refine ⟨fun k hk => ?_, fun k hk => ?_, fun j hj k hk hne => ?_⟩
    · obtain ⟨-, hd, -⟩ := h k hk
      exact hd
    · obtain ⟨-, -, hs, -⟩ := h k hk
      exact hs
    · obtain ⟨-, -, -, hn, -⟩ := h k hk
      exact hn j hj hne

section
variable {s : State} {iss : Issue} {o : Ops} {t : Nat}

/-- The state that the accesses of a record begin in. -/
def State.recordBegun (s : State) (iss : Issue) (t : Nat) : State := (s.begun iss).recordWait t 0 0 0

theorem recordBegun_rest (s : State) (iss : Issue) (t : Nat) : (s.recordBegun iss t).rest = s.rest := begun_rest s iss

theorem recordBegun_thread (s : State) (iss : Issue) (t u : Nat) : (s.recordBegun iss t).thread u =
    if t = u then { s.thread u with heldA := 0, heldB := 0, phase := 0 } else s.thread u := by
  rw [State.recordBegun, State.recordWait, State.thread_modThread, begun_thread]

theorem recordBegun_core (s : State) (iss : Issue) (t c : Nat) : ((s.recordBegun iss t).core c).plain = (s.core c).plain := begun_core s iss c

theorem recordBegun_pending (s : State) (iss : Issue) (t u : Nat) : ((s.recordBegun iss t).thread u).pending = (s.thread u).pending := by
  rw [recordBegun_thread]; split <;> rfl

theorem Prepared.recordBegun {x : Who} {va : Nat} {write : Bool} {pa : Nat → Nat} (h : Prepared s x va write pa) (iss : Issue) (t : Nat) :
    Prepared (s.recordBegun iss t) x va write pa :=
  ⟨fun k hk => (h.reaches k hk).of_rest (recordBegun_rest s iss t) (recordBegun_pending s iss t _), h.apart⟩

theorem Prepared.recordFault {x : Who} {va : Nat} {write : Bool} {pa : Nat → Nat} (h : Prepared s x va write pa) (iss : Issue) :
    (s.begun iss).recordFault x va write = none :=
  recordFault_of_mapped fun k hk => (rest_congr (begun_rest s iss) (·.Mapped x ((va + 8 * k) % 2 ^ 64) write (pa k)) fun _ => rfl) ▸ (h.reaches k hk).mapped

theorem Thread.setLc_written (th : Thread) (i : Nat) (x : Lc) : (th.setLc i x).written = th.written := by unfold Thread.setLc; split <;> rfl

theorem Thread.past_written (th : Thread) (pc next : Nat) : (th.past pc next).written = th.written := by
  have hsame : (th.loopUpdate pc next).1.written = th.written := by
    unfold Thread.loopUpdate
    simp only
    split
    · rfl
    · split
      · rfl
      · split
        · split <;> split <;> exact Thread.setLc_written ..
        · rfl
  exact hsame

/-- What stores at owned words change: the copies, and what the thread has written. -/
theorem Keeps.rest {x : Who} {s y : State} (h : Keeps x s y) : y.rest = { s with copies := y.copies }.rest ∧ y.regs = s.regs ∧
    y.squads = s.squads ∧ y.cores = s.cores :=
  ⟨congrArg (fun z : State => { z.rest with copies := y.copies }) h.still, h.field State.regs fun _ => rfl, h.field State.squads fun _ => rfl,
    h.field State.cores fun _ => rfl⟩

/-- After the stores of a record: what the group's end changes besides, told of the state that the instruction found. -/
theorem still_of_stores {y r : State} {next : Nat} (hone : iss.threads = [t]) (hphase : (s.thread t).phase = 0)
    (hkeeps : Keeps (s.who t) (s.recordBegun iss t) y) (hst : Still iss (fun _ th => th.past iss.pc next) y r) :
    Still iss (fun _ th => { th with written := (r.thread t).written }.past iss.pc next) { s.begun iss with copies := r.copies } r := by
  have ht : t ∈ iss.threads := by simp [hone]
  obtain ⟨hrest, hregs, hsq, hcores⟩ := hkeeps.rest
  have hcopies : r.copies = y.copies := rest_congr hst.kept.rest State.copies fun _ => rfl
  have hwritten : (r.thread t).written = (y.thread t).written :=
    (congrArg Thread.written (hst.kept.threads t ht) :).trans (Thread.past_written _ _ _)
  have hbegun : ∀ u, ({ s.begun iss with copies := r.copies } : State).thread u = s.thread u := begun_thread s iss
  refine hst.of_plain (by rw [hcopies]; exact hrest) hregs hsq hcores (fun u hu => ?_) fun u hu => ?_
  · obtain rfl : u = t := by simpa [hone] using hu
    have hskin : (y.thread u).skin = { s.thread u with written := (r.thread u).written }.skin := by
      have hself : y.thread u = { (s.recordBegun iss u).thread u with written := (y.thread u).written } := (hkeeps.threads u).trans (if_pos rfl)
      rw [hwritten, hself, recordBegun_thread, if_pos rfl, ← hphase]
      rfl
    rw [hbegun, past_skin, past_skin { s.thread u with written := _ }, hskin]
  · have hne : u ≠ t := fun hc => hu (hc ▸ ht)
    rw [hbegun, hkeeps.threads u]
    exact (if_neg hne).trans ((recordBegun_thread s iss t u).trans (if_neg hne.symm))

theorem lpsave_saves {pa : Nat → Nat} (h : Alone s iss (.lpsave o) o t) (hf : (s.thread t).fresh) (ha : 8 ∣ s.globalAddr iss t (.lpsave o) o)
    (hp : Prepared s (s.who t) (s.globalAddr iss t (.lpsave o) o) true pa) (hu : s.uncachedPending t = false) (hhole : s.hole = false)
    (hw : ∀ k < 17, s.Unmapped iss.core ((s.globalAddr iss t (.lpsave o) o + 8 * k) % 2 ^ 64)) :
    ∃ r, exec (.lpsave o) s = .next r ∧
      (∀ k < 136, r.byteAt (pa (k / 8) + k % 8) = (s.thread t).loopRecord / 256 ^ k % 256) ∧
      (∀ a < 2 ^ 52, (∀ k < 17, a < pa k ∨ pa k + 8 ≤ a) → r.byteAt a = s.byteAt a) ∧
      Still iss (fun _ th => { th with written := (r.thread t).written }.past iss.pc (iss.next (.lpsave o))) { s.begun iss with copies := r.copies } r := by
  have ht : t ∈ iss.threads := by simp [h.only]
  have hcore : iss.core = (s.who t).core := (h.issues.core t ht).symm
  have hprep := hp.recordBegun iss t
  have huready : (s.recordBegun iss t).uncachedPending t = false := (uncachedPending_of_rest (recordBegun_rest s iss t) (recordBegun_pending s iss t t)).trans hu
  have hsave := saveRecord_of_reaches (n := 17) (k := 0) (s.thread t).loopRecord (s.recordBegun iss t) huready fun j _ hj =>
    ⟨hprep.reaches j (by omega), hcore ▸ (hw j (by omega)).begun iss⟩
  have hkeeps := putRecord_keeps (x := s.who t) pa (s.thread t).loopRecord 0 17 (s.recordBegun iss t)
  obtain ⟨hnew, hold⟩ := byteAt_putRecord hp.apart (who_proper s t) (s.thread t).loopRecord fun j hj => ⟨(hprep.reaches j hj).low, (hprep.reaches j hj).high⟩
  generalize (s.recordBegun iss t).putRecord (s.who t) pa (s.thread t).loopRecord 0 17 = y at hsave hkeeps hnew hold
  have hyhole : y.hole = false :=
    (hkeeps.field State.hole fun _ => rfl).trans ((rest_congr (recordBegun_rest s iss t) State.hole fun _ => rfl).trans hhole)
  obtain ⟨r, he, hst⟩ := lpsave_passes h hf ha (hp.recordFault iss) hsave hyhole
  have hbyte := byteAt_of_rest hst.kept.rest hst.core_plain
  refine ⟨r, he, fun k hk => (hbyte _).trans (hnew k hk), fun a h1 h2 => ?_, ?_⟩
  · exact (hbyte a).trans ((hold a h1 h2).trans (byteAt_of_rest (recordBegun_rest s iss t) (recordBegun_core s iss t) a))
  · obtain ⟨-, hphase, -⟩ := hf
    exact still_of_stores h.only hphase hkeeps hst

end

/-! ### LPREST at words that the requester owns -/

theorem levelWord_of_holds {s : State} {x : Who} {w : Nat} (h : Holds s x w) (hx : x.Proper) (bm r : Nat) : s.levelWord x 0 w bm r = .val (s.wordVal w) := by
  obtain ⟨c, hc, hval⟩ := h.wordVal hx
  obtain ⟨-, ⟨d, hd, hown, hpend, -, hwin⟩, -⟩ := h
  obtain rfl : c = d := Option.some.inj (hc.symm.trans hd)
  simp only [State.levelWord, hc, hpend, hown, Bool.false_eq_true, if_false, true_or, if_true, State.copyVal, hwin, hval]

section
variable {s : State} {x : Who} {va pa : Nat} {write : Bool}

theorem lookup_of_reaches (h : Reaches s x va write pa) (hx : x.Proper) (d : Nat) (sc : Scope) :
    s.lookup x (itemsOf pa 8 d) sc = .hit 0 [s.wordVal (pa / 4), s.wordVal (pa / 4 + 1)] := by
  have hfound : (itemsOf pa 8 d).map (fun i => s.levelWord x 0 i.w i.bm (scopeRank sc)) = [.val (s.wordVal (pa / 4)), .val (s.wordVal (pa / 4 + 1))] := by
    simp only [itemsOf_eight, List.map_cons, List.map_nil, levelWord_of_holds h.low hx, levelWord_of_holds h.high hx]
  have hfirst : ∀ p : Nat → Bool, p 0 = true → (List.range 3).find? p = some 0 := fun p hp => List.find?_cons_of_pos hp
  unfold State.lookup
  simp only [hfound]
  rw [if_neg (by simp), hfirst _ (by rw [hfound]; rfl)]
  simp only [if_true]
  rw [hfound, itemsOf_eight]
  rfl

theorem keepWord_here (s : State) (level agent w : Nat) (v : Word) (region : Nat) : s.keepWord level agent 0 w v region .all = s := by
  simp only [State.keepWord, State.expel, gt_iff_lt, Nat.not_lt_zero, false_and, if_false]

/-- The eight bytes of two words. -/
def State.eightAt (s : State) (pa : Nat) : Nat := (s.wordVal (pa / 4)).toNat + 2 ^ 32 * (s.wordVal (pa / 4 + 1)).toNat

theorem bytesOf_eight (ha : 8 ∣ pa) (a b : Word) : bytesOf pa 8 [a, b] = a.toNat + 2 ^ 32 * b.toNat := by
  have ha4 : pa % 4 = 0 := by omega
  have hlow := a.isLt
  have hhigh := b.isLt
  simp only [bytesOf, joinWords, List.foldr_cons, List.foldr_nil, ha4]
  omega

theorem loadAt_of_reaches (h : Reaches s x va write pa) (hx : x.Proper) (ha : 8 ∣ pa) : s.loadAt x (.cached pa) va 8 .grp .all = (s, .inl (s.eightAt pa)) := by
  have hlook := lookup_of_reaches h hx 0 .grp
  rw [itemsOf_eight] at hlook
  simp only [State.loadAt, itemsOf_eight, hlook, true_or, if_true, List.zip_cons_cons, List.zip_nil_right, List.foldl_cons, List.foldl_nil,
    keepWord_here, bytesOf_eight ha, State.eightAt]

end

/-- A word whose four bytes are those of a number. -/
theorem eq_mod_of_bytes {v n : Nat} (hv : v < 2 ^ 32) (h : ∀ r < 4, v / 2 ^ (8 * r) % 256 = n / 256 ^ r % 256) : v = n % 2 ^ 32 := by
  have h0 := h 0 (by decide)
  have h1 := h 1 (by decide)
  have h2 := h 2 (by decide)
  have h3 := h 3 (by decide)
  simp only [Nat.mul_zero, Nat.pow_zero, Nat.div_one, Nat.reduceMul, Nat.reducePow] at h0 h1 h2 h3 ⊢
  omega

section
variable {s : State} {x : Who} {pa : Nat → Nat} {rec : Nat}

/-- The record stands at its places. -/
def State.Stands (s : State) (pa : Nat → Nat) (rec : Nat) : Prop := ∀ k < 136, s.byteAt (pa (k / 8) + k % 8) = rec / 256 ^ k % 256

theorem eightAt_of_stands (h : s.Stands pa rec) {k : Nat} (hk : k < 17) (ha : 8 ∣ pa k) : s.eightAt (pa k) = rec / 2 ^ (64 * k) % 2 ^ 64 := by
  have hword : ∀ i < 2, (s.wordVal (pa k / 4 + i)).toNat = rec / 256 ^ (8 * k + 4 * i) % 2 ^ 32 := by
    intro i hi
    refine eq_mod_of_bytes (BitVec.isLt _) fun r hr => ?_
    have hb := h (8 * k + 4 * i + r) (by omega)
    have hk8 : (8 * k + 4 * i + r) / 8 = k := by omega
    have hw : (pa k + (8 * k + 4 * i + r) % 8) / 4 = pa k / 4 + i := by omega
    have hr4 : (pa k + (8 * k + 4 * i + r) % 8) % 4 = r := by omega
    rw [State.byteAt, hk8, hw, hr4] at hb
    rw [hb, Nat.div_div_eq_div_mul, ← Nat.pow_add]
  have hlow := hword 0 (by decide)
  have hhigh := hword 1 (by decide)
  have hbase : rec / 256 ^ (8 * k) = rec / 2 ^ (64 * k) := by
    rw [show (256 : Nat) = 2 ^ 8 from rfl, ← Nat.pow_mul]
    congr 2
    omega
  rw [Nat.mul_zero, Nat.add_zero, Nat.add_zero, hbase] at hlow
  rw [Nat.mul_one, Nat.pow_add, ← Nat.div_div_eq_div_mul, hbase, show (256 : Nat) ^ 4 = 2 ^ 32 from rfl] at hhigh
  rw [State.eightAt, hlow, hhigh]
  generalize rec / 2 ^ (64 * k) = n
  omega

theorem mod_add_eight (rec k : Nat) : rec % 2 ^ (64 * k) + rec / 2 ^ (64 * k) % 2 ^ 64 * 2 ^ (64 * k) = rec % 2 ^ (64 * (k + 1)) := by
  rw [Nat.mul_succ, Nat.pow_add, Nat.mod_mul, Nat.mul_comm (rec / _ % _)]

theorem loadRecord_of_reaches (hx : x.Proper) (hp : Apart pa) {va : Nat} (h : s.Stands pa rec) (n k : Nat) (hn : k + n = 17)
    (hr : ∀ j < 17, Reaches s x ((va + 8 * j) % 2 ^ 64) false (pa j)) :
    s.loadRecord x va k (rec % 2 ^ (64 * k)) n = s.loadRecord x va 17 (rec % 2 ^ (64 * 17)) 0 := by
  induction n generalizing k with
  | zero =>
    obtain rfl : k = 17 := hn
    rfl
  | succ n ih =>
    have hk : k < 17 := by omega
    have hreach := hr k hk
    have hfree : s.overlaps x.tid ((itemsOf (pa k) 8 0).map (·.w)) = false := by rw [itemsOf_eight]; exact hreach.free
    rw [← ih (k + 1) (by omega), ← mod_add_eight]
    conv_lhs => unfold State.loadRecord
    simp only [translate_of_mapped hreach.mapped, hfree, Bool.false_eq_true, if_false, loadAt_of_reaches hreach hx (hp.aligned k hk),
      eightAt_of_stands h hk (hp.aligned k hk)]

theorem loadRecord_end {va k : Nat} (h : recordOk rec = true) : s.loadRecord x va k rec 0 = (s.modThread x.tid fun th => th.setRecord rec, .jump 0) := by
  rw [State.loadRecord, if_pos h]

end

section
variable {s : State} {iss : Issue} {o : Ops} {t : Nat}

theorem setLc_four (th : Thread) (a b c d : Lc) : (((th.setLc 0 a).setLc 1 b).setLc 2 c).setLc 3 d = { th with lc0 := a, lc1 := b, lc2 := c, lc3 := d } := rfl

/-- A record installed writes over neither what the thread holds of an access nor what its next instruction begins with. -/
theorem setRecord_plain (th : Thread) (rec pc p : Nat) :
    ((({ th with heldA := 0, heldB := 0, phase := p } : Thread).setRecord rec).jumped pc).plain = ((th.setRecord rec).jumped pc).plain := by
  simp only [Thread.setRecord, foldl_range_four, setLc_four, Thread.setHeader, Thread.jumped, Thread.plain]

theorem lprest_installs {pa : Nat → Nat} {rec : Nat} (h : Alone s iss (.lprest o) o t) (hf : (s.thread t).fresh) (ha : 8 ∣ s.globalAddr iss t (.lprest o) o)
    (hp : Prepared s (s.who t) (s.globalAddr iss t (.lprest o) o) false pa) (hhole : s.hole = false) (hrec : rec < 2 ^ 1088) (hs : s.Stands pa rec)
    (hok : recordOk rec = true) : ∃ r, exec (.lprest o) s = .next r ∧
      Still iss (fun _ th => th.jumped (iss.next (.lprest o))) ((s.begun iss).modThread t fun th => th.setRecord rec) r := by
  have hstands : (s.recordBegun iss t).Stands pa rec := fun k hk => (byteAt_of_rest (recordBegun_rest s iss t) (recordBegun_core s iss t) _).trans (hs k hk)
  have hload := loadRecord_of_reaches (who_proper s t) hp.apart hstands 17 0 rfl (hp.recordBegun iss t).reaches
  rw [Nat.mul_zero, Nat.pow_zero, Nat.mod_one, show 64 * 17 = 1088 from rfl, Nat.mod_eq_of_lt hrec, loadRecord_end hok] at hload
  have hyhole : ((s.recordBegun iss t).modThread t fun th => th.setRecord rec).hole = false :=
    (rest_congr (recordBegun_rest s iss t) State.hole fun _ => rfl).trans hhole
  obtain ⟨r, he, hst⟩ := lprest_goes h hf ha (hp.recordFault iss) hload hyhole
  refine ⟨r, he, hst.of_plain rfl rfl rfl rfl (fun u hu => ?_) fun u hu => ?_⟩
  · obtain rfl : u = t := by simpa [h.only] using hu
    rw [State.thread_modThread, State.thread_modThread, recordBegun_thread, begun_thread]
    simp only [State.who, if_true, setRecord_plain]
  · have hne : t ≠ u := fun hc => hu (hc ▸ by simp [h.only])
    rw [State.thread_modThread, State.thread_modThread, recordBegun_thread, begun_thread]
    simp only [State.who, hne, if_false]

end

theorem unmapped_of_windows {s : State} {core va : Nat} (h : isMarl core = true ∨ ∀ c ∈ s.gangCores core, ∀ y ∈ (s.core c).windows, y.2.st = .unbound ∨
    ∀ k < 17, (va + 8 * k) % 2 ^ 64 < y.2.base ∨ y.2.base + y.2.size ≤ (va + 8 * k) % 2 ^ 64) : ∀ k < 17, s.Unmapped core ((va + 8 * k) % 2 ^ 64) :=
  fun k hk => h.imp_right fun hw c hc y hy => (hw c hc y hy).imp_right fun hy => hy k hk

/-- A thread's record, installed, gives its loop state back. -/
theorem setRecord_loopRecord {th : Thread} (hd : th.depth ≤ 4) (hr : th.rot < 64) (hc : th.callDepth < 2 ^ 16) (hl : ∀ i < th.depth, (th.lc i).Fits) :
    (th.setRecord th.loopRecord).depth = th.depth ∧ (th.setRecord th.loopRecord).rot = th.rot ∧
    (th.setRecord th.loopRecord).callDepth = th.callDepth ∧ ∀ i < th.depth, (th.setRecord th.loopRecord).lc i = th.lc i := by
  obtain ⟨-, -, hset⟩ := Thread.loopRecord_parts hd hr hc hl
  obtain ⟨hdepth, hrot, hcall, -⟩ := Thread.loopRecord_header hd hr hc hl
  obtain ⟨hdepth', hrot', hcall'⟩ := Thread.setRecord_header th th.loopRecord
  refine ⟨hdepth'.trans hdepth, hrot'.trans hrot, hcall'.trans hcall, fun i hi => ?_⟩
  have hi4 : i < 4 := Nat.lt_of_lt_of_le hi hd
  rw [Thread.setRecord_lc th _ hi4, hset i hi4, Thread.setWord, if_pos hi, Lc.ofWord_word (hl i hi)]

/-- Settles O32: each store goes to two words that the requester owns and leaves everything else, each load gives the bytes of the record that stands there, and
the record's fields are apart. -/
theorem loopStateIsSavedAndRestored : Obligations.LoopStateIsSavedAndRestored := by
  intro o s y iss t x va owned
  refine ⟨fun pa hf h ha howned => ?_, fun pa rec hf h ha howned hrec hs hok => ?_, fun hf h => lpsave_passes h hf, fun hf h => lprest_goes h hf,
    fun th hd hr hc hl => ?_⟩
  · obtain ⟨hacc, hu, hhole, hw⟩ := howned
    exact lpsave_saves h hf ha (prepared_of_owned hacc) hu hhole (unmapped_of_windows hw)
  · obtain ⟨hacc, -, hhole, -⟩ := howned
    exact lprest_installs h hf ha (prepared_of_owned hacc) hhole hrec hs hok
  · have hfits : ∀ i < th.depth, (th.lc i).Fits := fun i hi => by
      obtain ⟨hstart, hstop, hlen, hpos, hcount, hfeed, hstages, hframe⟩ := hl i hi
      exact ⟨hstart, hstop, hlen, ⟨hpos, hcount⟩, hfeed, hstages, hframe⟩
    obtain ⟨hlt, -⟩ := Thread.loopRecord_parts hd hr hc hfits
    exact ⟨Thread.recordOk_loopRecord hd hr hc hfits, hlt, setRecord_loopRecord hd hr hc hfits⟩

end Sys2Proof.Machine
end
section
/-! Requests on their way (21 R366, R372, R373): what sending, answering and ending them leaves alone, and where the table of requests has them. -/

namespace Sys2Proof.Machine

/-! ### What a request's way leaves alone -/

/-- The machine without its requests and packets. -/
def State.unsent (s : State) : State := { s with msgs := [], seqs := [], windows := [], upward := [], ingress := [], nextId := 0 }

/-- What reads neither requests nor packets. -/
theorem unsent_field {α : Sort _} {r s : State} (h : r.unsent = s.unsent) (f : State → α) (hf : ∀ s, f s.unsent = f s := by intro s; rfl) : f r = f s := by
  rw [← hf r, h, hf]

section
variable (s : State)

theorem sendPacket_unsent (p a : Nat) (away : Bool) (f : Flit) (n : Nat) : (s.sendPacket p a away f n).unsent = s.unsent := by
  unfold State.sendPacket
  dsimp only
  split <;> split <;> rfl

theorem launchCopy_unsent (id : Nat) (m : Msg) : (s.launchCopy id m).unsent = s.unsent := by
  unfold State.launchCopy
  dsimp only
  split
  · rfl
  · exact sendPacket_unsent _ _ _ _ _ _

theorem post_unsent (id : Nat) (m : Msg) : (s.post id m).unsent = s.unsent := by
  unfold State.post
  split
  · rfl
  · split
    · rfl
    · exact launchCopy_unsent _ _ _

theorem send_unsent (m : Msg) : (s.send m).1.unsent = s.unsent := post_unsent _ _ _

theorem postQueued_unsent (id a b n : Nat) : (s.postQueued id a b n).unsent = s.unsent := by
  induction n generalizing s with
  | zero => rfl
  | succ n ih =>
    unfold State.postQueued
    split
    · split
      · rw [ih, post_unsent]
      · rfl
    · rfl

theorem finishMsg_unsent (id : Nat) : (s.finishMsg id).unsent = s.unsent := by
  unfold State.finishMsg
  split
  · rfl
  · dsimp only
    rw [postQueued_unsent]
    split <;> split <;> rfl

theorem answer_unsent (id : Nat) (m : Msg) (e : Nat) : (s.answer id m e).unsent = s.unsent := by
  unfold State.answer State.answerFlit
  dsimp only
  split
  · rfl
  · exact sendPacket_unsent _ _ _ _ _ _

theorem ack_unsent (id : Nat) : (s.ack id).unsent = s.unsent := by
  unfold State.ack
  split
  · rfl
  · split
    · exact finishMsg_unsent _ _
    · exact answer_unsent _ _ _ _

theorem writeBack_unsent (a : Nat) (items : List Item) (c : Client) (o : Nat) : (s.writeBack a items c o).1.unsent = s.unsent := send_unsent _ _

theorem ask_unsent (k : MsgKind) (o w : Nat) (items : List Item) (q : Bool) : (s.ask k o w items q).unsent = s.unsent := send_unsent _ _

end

/-! ### The table of requests -/

/-- A fold that takes an element of its list, or keeps what it has, ends with one of them. -/
theorem foldl_pick {α : Type} {f : Option α → α → Option α} (hf : ∀ r x, f r x = some x ∨ f r x = r) (l : List α) (r : Option α) {y : α}
    (h : l.foldl f r = some y) : y ∈ l ∨ r = some y := by
  induction l generalizing r with
  | nil => exact .inr h
  | cons x l ih =>
    rcases ih _ h with hmem | hfirst
    · exact .inl (List.mem_cons_of_mem _ hmem)
    · rcases hf r x with hx | hr
      · exact .inl (Option.some.inj (hx.symm.trans hfirst) ▸ List.mem_cons_self)
      · exact .inr (hr.symm.trans hfirst)

section
variable (s : State)

/-- A request as its sender made it: without its place on the way. -/
def Msg.made (m : Msg) : Msg := { m with st := .queued, seq := 0, flying := 0, arrived := 0, lwms := [] }

/-- What reads nothing of a request's way. -/
theorem made_field {α : Sort _} {m n : Msg} (h : n.made = m.made) (f : Msg → α) (hf : ∀ m, f m.made = f m := by intro m; rfl) : f n = f m := by
  rw [← hf n, h, hf]

theorem sendPacket_msgs (p a : Nat) (away : Bool) (f : Flit) (n : Nat) : (s.sendPacket p a away f n).msgs = s.msgs := by
  unfold State.sendPacket
  dsimp only
  split <;> split <;> rfl

theorem sendPacket_nextId (p a : Nat) (away : Bool) (f : Flit) (n : Nat) : s.nextId ≤ (s.sendPacket p a away f n).nextId := by
  unfold State.sendPacket
  dsimp only
  split <;> split <;> simp

theorem launchCopy_msgs (id : Nat) (m : Msg) : ∃ n, (s.launchCopy id m).msgs = tset s.msgs id n ∧ n.made = m.made := by
  unfold State.launchCopy
  dsimp only
  split
  · exact ⟨_, rfl, rfl⟩
  · exact ⟨m, sendPacket_msgs _ _ _ _ _ _, rfl⟩

theorem launchCopy_nextId (id : Nat) (m : Msg) : s.nextId ≤ (s.launchCopy id m).nextId := by
  unfold State.launchCopy
  dsimp only
  split
  · exact Nat.le_refl _
  · refine Nat.le_trans ?_ (sendPacket_nextId _ _ _ _ _ _)
    exact Nat.le_refl _

/-- A request that is posted enters the table under its number, as its sender made it. -/
theorem post_msgs (id : Nat) (m : Msg) : ∃ n, (s.post id m).msgs = tset s.msgs id n ∧ n.made = m.made := by
  unfold State.post
  split
  · exact ⟨_, rfl, rfl⟩
  · split
    · exact ⟨_, rfl, rfl⟩
    · exact launchCopy_msgs _ _ _

theorem post_nextId (id : Nat) (m : Msg) : s.nextId ≤ (s.post id m).nextId := by
  unfold State.post
  split
  · exact Nat.le_refl _
  · split
    · exact Nat.le_refl _
    · refine Nat.le_trans ?_ (launchCopy_nextId _ _ _)
      exact Nat.le_refl _

theorem send_msgs (m : Msg) : ∃ n, (s.send m).1.msgs = tset s.msgs s.nextId n ∧ n.made = m.made := post_msgs _ _ _

theorem send_nextId (m : Msg) : s.nextId < (s.send m).1.nextId := post_nextId { s with nextId := s.nextId + 1 } s.nextId m

/-- A new request stands in the table under the next number, as its sender made it. -/
theorem send_msg (m : Msg) : ∃ n, (s.send m).1.msg s.nextId = some n ∧ n.made = m.made := by
  obtain ⟨n, htab, hn⟩ := send_msgs s m
  exact ⟨n, by rw [State.msg, htab, tget?_tset_self], hn⟩

theorem send_msg_ne (m : Msg) {k : Nat} (h : k ≠ s.nextId) : (s.send m).1.msg k = s.msg k := by
  obtain ⟨n, htab, -⟩ := send_msgs s m
  rw [State.msg, htab, tget?_tset_ne _ _ h.symm, State.msg]

theorem answer_msgs (id : Nat) (m : Msg) (e : Nat) : (s.answer id m e).msgs = tset s.msgs id { m with st := .answered, away := !m.near e } := by
  unfold State.answer State.answerFlit
  dsimp only
  split
  · rfl
  · exact sendPacket_msgs _ _ _ _ _ _

theorem answer_msg_self (id : Nat) (m : Msg) (e : Nat) : (s.answer id m e).msg id = some { m with st := .answered, away := !m.near e } := by
  rw [State.msg, answer_msgs, tget?_tset_self]

theorem answer_msg_ne (m : Msg) (e : Nat) {id k : Nat} (h : k ≠ id) : (s.answer id m e).msg k = s.msg k := by
  rw [State.msg, answer_msgs, tget?_tset_ne _ _ h.symm, State.msg]

/-- What waits to be numbered is a queued request of the table, other than the one that makes room for it. -/
theorem nextQueued_mem {id a b : Nat} {x : Nat × Msg} (h : s.nextQueued id a b = some x) : x ∈ s.msgs ∧ x.1 ≠ id ∧ x.2.st = .queued := by
  rcases foldl_pick (fun r y => by cases r with | none => exact .inl rfl | some z => dsimp only; split <;> simp) _ _ h with hmem | hnone
  · obtain ⟨hin, hcond⟩ := List.mem_filter.1 hmem
    obtain ⟨hne, hst, -⟩ := of_decide_eq_true hcond
    exact ⟨hin, hne, hst⟩
  · cases hnone

/-- A number under which nothing waits keeps its request while others are numbered. -/
theorem postQueued_msg {id k : Nat} (a b n : Nat) (hk : k = id ∨ ∀ z, (k, z) ∈ s.msgs → z.st ≠ .queued) : (s.postQueued id a b n).msg k = s.msg k := by
  induction n generalizing s with
  | zero => rfl
  | succ n ih =>
    unfold State.postQueued
    split
    · next x hx =>
      obtain ⟨hmem, hid, hst⟩ := nextQueued_mem s hx
      have hne : x.1 ≠ k := by
        rintro rfl
        exact hk.elim hid fun h => h x.2 hmem hst
      obtain ⟨y, htab, -⟩ := post_msgs s x.1 x.2
      split
      · rw [ih, State.msg, htab, tget?_tset_ne _ _ hne, State.msg]
        refine hk.imp_right fun h z hz => ?_
        rw [htab] at hz
        exact (mem_tset hz).elim (h z) fun he => absurd (congrArg Prod.fst he).symm hne
      · rfl
    · rfl

end

/-! ### The end of a request -/

theorem mem_tdel {α : Type} {t : Tab α} {i : Nat} {p : Nat × α} (h : p ∈ tdel t i) : p ∈ t := by
  induction t with
  | nil => exact h
  | cons q t ih =>
    obtain ⟨k, w⟩ := q
    rw [tdel] at h
    split at h
    · exact List.mem_cons_of_mem _ (ih h)
    · exact (List.mem_cons.1 h).elim (fun he => he ▸ List.mem_cons_self) fun ht => List.mem_cons_of_mem _ (ih ht)

/-- A selection that keeps the first entry of a number keeps what the table has there. -/
theorem tget?_filter_some {α : Type} {t : Tab α} {p : Nat × α → Bool} {j : Nat} {v : α} (h : tget? t j = some v) (hp : p (j, v) = true) :
    tget? (t.filter p) j = some v := by
  induction t with
  | nil => exact absurd h (by simp [tget?])
  | cons q t ih =>
    obtain ⟨k, w⟩ := q
    by_cases hk : k = j
    · subst hk
      obtain rfl : w = v := by simpa [tget?] using h
      simp [hp, tget?]
    · rw [tget?, if_neg hk] at h
      rw [List.filter_cons]
      split
      · rw [tget?, if_neg hk, ih h]
      · exact ih h

theorem tget?_filter_none {α : Type} {t : Tab α} (p : Nat × α → Bool) {j : Nat} (h : tget? t j = none) : tget? (t.filter p) j = none := by
  induction t with
  | nil => rfl
  | cons q t ih =>
    obtain ⟨k, w⟩ := q
    by_cases hk : k = j
    · exact absurd h (by simp [tget?, hk])
    · rw [tget?, if_neg hk] at h
      rw [List.filter_cons]
      split
      · rw [tget?, if_neg hk, ih h]
      · exact ih h

/-- The table without a request that has ended: it leaves, or stays until its copies have arrived. -/
def State.ended (s : State) (id : Nat) (m : Msg) : State :=
  if m.flying ≤ m.arrived ∧ s.keepsForward m = false then { s with msgs := tdel s.msgs id }
  else s.setMsg id { m with st := .finished, flying := m.flying - m.arrived, arrived := 0, lwms := [] }

/-- The forwards that served a load leave with it. -/
def State.unforwarded (s : State) (id : Nat) (m : Msg) : State :=
  if m.kind = .load ∧ (s.msgs.any fun x => x.2.orig = id && x.2.kind = .fwd && x.2.st = .finished && x.2.flying = 0) = true then
    { s with msgs := s.msgs.filter fun x => !(x.2.orig = id && x.2.kind = .fwd && x.2.st = .finished && x.2.flying = 0) } else s

theorem finishMsg_eq {s : State} {id : Nat} {m : Msg} (h : s.msg id = some m) :
    s.finishMsg id = ((s.ended id m).unforwarded id m).postQueued id m.src m.dst 64 := by
  unfold State.finishMsg
  simp only [h]
  rfl

theorem ended_msg (s : State) (id : Nat) (m : Msg) : (s.ended id m).msg id = none ∨
    ∃ n, (s.ended id m).msg id = some n ∧ n.st = .finished ∧ n.kind = m.kind := by
  unfold State.ended
  split
  · exact .inl (tget?_tdel_self _ _)
  · exact .inr ⟨_, tget?_tset_self _ _ _, rfl, rfl⟩

theorem unforwarded_msg_none {s : State} {k : Nat} (h : s.msg k = none) (id : Nat) (m : Msg) : (s.unforwarded id m).msg k = none := by
  unfold State.unforwarded
  split
  · exact tget?_filter_none _ h
  · exact h

/-- What is no forward stays. -/
theorem unforwarded_msg_some {s : State} {k : Nat} {n : Msg} (h : s.msg k = some n) (id : Nat) (m : Msg) (hn : m.kind = .load → n.kind ≠ .fwd) :
    (s.unforwarded id m).msg k = some n := by
  unfold State.unforwarded
  split
  · next hc => exact tget?_filter_some h (by simp [hn hc.1])
  · exact h

/-- A request that is over is in the table no more, or finished. -/
theorem finishMsg_msg (s : State) (id : Nat) : (s.finishMsg id).msg id = none ∨ ∃ n, (s.finishMsg id).msg id = some n ∧ n.st = .finished := by
  cases h : s.msg id with
  | none =>
    left
    unfold State.finishMsg
    simp only [h]
  | some m =>
    rw [finishMsg_eq h, postQueued_msg _ _ _ _ (.inl rfl)]
    rcases ended_msg s id m with hnone | ⟨n, hn, hst, hkind⟩
    · exact .inl (unforwarded_msg_none hnone id m)
    · exact .inr ⟨n, unforwarded_msg_some hn id m fun hl => by rw [hkind, hl]; decide, hst⟩

theorem live_finishMsg (s : State) (id : Nat) : (s.finishMsg id).live id = false := by
  unfold State.live
  rcases finishMsg_msg s id with h | ⟨n, h, hst⟩
  · rw [h]
  · rw [h]; simp [hst]

/-- A request that has had its effect is answered, or over. -/
theorem performed_ack (s : State) (id : Nat) : (s.ack id).performed id = true := by
  unfold State.ack
  split
  · next h => simp only [State.performed, h]
  · split
    · unfold State.performed
      rcases finishMsg_msg (s.storeAnswer _) id with h | ⟨n, h, hst⟩
      · rw [h]
      · rw [h]; simp [hst]
    · unfold State.performed
      rw [answer_msg_self]
      simp

theorem ack_of_far {s : State} {id : Nat} {m : Msg} (h : s.msg id = some m) (hfar : m.near m.dst = false) : s.ack id = s.answer id m m.dst := by
  unfold State.ack
  simp only [h, hfar, Bool.false_eq_true, if_false]

end Sys2Proof.Machine
end
section
/-! Words at the levels and at their homes (03 R55, R59 to R62): what dropping and keeping them leaves alone, a word that comes home, the write-back buffer. -/

namespace Sys2Proof.Machine

/-! ### Levels -/

/-- The machine without the words that its levels hold, and without its cores, whose windows hold some of them. -/
def State.uncached (s : State) : State := { s with copies := [], cores := [] }

/-- What reads neither copies nor cores. -/
theorem uncached_field {α : Sort _} {r s : State} (h : r.uncached = s.uncached) (f : State → α) (hf : ∀ s, f s.uncached = f s := by intro s; rfl) :
    f r = f s := by
  rw [← hf r, h, hf]

section
variable (s : State)

theorem modWindowWord_uncached (k : Nat) (f : Nat → Window → Window) : (s.modWindowWord k f).uncached = s.uncached := by
  unfold State.modWindowWord
  dsimp only
  split <;> rfl

theorem modWindowWord_copies (k : Nat) (f : Nat → Window → Window) : (s.modWindowWord k f).copies = s.copies := by
  unfold State.modWindowWord
  dsimp only
  split <;> rfl

theorem dropAt_uncached (l w : Nat) : (s.dropAt l w).uncached = s.uncached := by
  unfold State.dropAt
  split
  · split
    · rfl
    · split
      · exact modWindowWord_uncached _ _ _
      · rfl
  · rfl

theorem keepAt_uncached (l w : Nat) (v : Word) : (s.keepAt l w v).uncached = s.uncached := by
  unfold State.keepAt
  split
  · split
    · rfl
    · split
      · exact modWindowWord_uncached _ _ _
      · rfl
  · rfl

theorem dropAgent_uncached (a w : Nat) : (s.dropAgent a w).uncached = s.uncached :=
  List.foldlRecOn (motive := fun y : State => y.uncached = s.uncached) _ _ rfl fun y h l _ => (dropAt_uncached y l w).trans h

theorem keepAgent_uncached (a w : Nat) (v : Word) : (s.keepAgent a w v).uncached = s.uncached :=
  List.foldlRecOn (motive := fun y : State => y.uncached = s.uncached) _ _ rfl fun y h l _ => (keepAt_uncached y l w v).trans h

/-- A level that drops a word loses its copy, unless bytes there wait for their grant. -/
theorem dropAt_copies (l w : Nat) : (s.dropAt l w).copies = s.copies ∧ (∀ c, s.copy l w = some c → c.pend = true) ∨
    (s.dropAt l w).copies = tdel s.copies (copyKey l w) := by
  unfold State.dropAt
  split
  · next c hc =>
    split
    · next hp => exact .inl ⟨rfl, fun d hd => by obtain rfl := Option.some.inj (hc.symm.trans hd); exact hp⟩
    · right
      split
      · exact congrArg (tdel · _) (modWindowWord_copies _ _ _)
      · rfl
  · next hc => exact .inl ⟨rfl, fun d hd => absurd (hc.symm.trans hd) (by simp)⟩

variable {s}

theorem copy_dropAt_none {k u : Nat} (h : s.copy k u = none) (l w : Nat) : (s.dropAt l w).copy k u = none := by
  rcases dropAt_copies s l w with ⟨hsame, -⟩ | hdel
  · rw [State.copy, hsame]; exact h
  · rw [State.copy, hdel, tget?_tdel]
    split
    · rfl
    · exact h

theorem copy_dropAt_self {l w : Nat} (h : ∀ c, s.copy l w = some c → c.pend = false) : (s.dropAt l w).copy l w = none := by
  rcases dropAt_copies s l w with ⟨hsame, hpend⟩ | hdel
  · rw [State.copy, hsame]
    cases hc : s.copy l w with
    | none => exact hc
    | some c => exact absurd ((hpend c hc).symm.trans (h c hc)) (by decide)
  · rw [State.copy, hdel, tget?_tdel_self]

theorem copy_dropAt_ne {l k w : Nat} (h : l ≠ k) : (s.dropAt l w).copy k w = s.copy k w := by
  have hkey : copyKey l w ≠ copyKey k w := by
    unfold copyKey
    omega
  rcases dropAt_copies s l w with ⟨hsame, -⟩ | hdel
  · rw [State.copy, hsame, State.copy]
  · rw [State.copy, hdel, tget?_tdel_ne _ hkey, State.copy]

/-- Every level that drops a word, and has no bytes of it that wait for their grant, has lost it. -/
theorem copy_dropAll (w : Nat) {l : Nat} (ls : List Nat) (hl : l ∈ ls) (s : State) (h : ∀ c, s.copy l w = some c → c.pend = false) :
    (ls.foldl (fun s l => s.dropAt l w) s).copy l w = none := by
  induction ls generalizing s with
  | nil => exact absurd hl List.not_mem_nil
  | cons k ls ih =>
    rw [List.foldl_cons]
    by_cases hk : k = l
    · subst hk
      exact List.foldlRecOn (motive := fun y : State => y.copy k w = none) _ _ (copy_dropAt_self h) fun y hy j _ => copy_dropAt_none hy j w
    · exact ih ((List.mem_cons.1 hl).resolve_left (Ne.symm hk)) _ (by rw [copy_dropAt_ne hk]; exact h)

theorem copy_dropAgent {a l w : Nat} (hl : l ∈ agentLevels a) (h : ∀ c, s.copy l w = some c → c.pend = false) : (s.dropAgent a w).copy l w = none :=
  copy_dropAll w _ hl s h

theorem copy_setCopy_self (l w : Nat) (c : Copy) : (s.setCopy l w c).copy l w = some c := tget?_tset_self _ _ _

end

/-! ### A word comes home -/

section
variable (s : State)

theorem setHomeWord_of_ram {w : Nat} (h : inRam (4 * w) = true) (v : Word) : s.setHomeWord w v = { s with mem := memWrite s.mem (4 * w) 4 v.toNat } := if_pos h

/-- Only the bytes of the word change. -/
theorem memGet_setHomeWord {s : State} (hwf : s.Wf) {w a : Nat} (h : inRam (4 * w) = true) (v : Word) (ha : a / 4 ≠ w) :
    memGet (s.setHomeWord w v).mem a = memGet s.mem a := by
  rw [setHomeWord_of_ram s h]
  exact (memGet_memWrite hwf _ _ _ _).trans (if_neg (by omega))

/-- The home takes a word from its owner a: it has the value, nobody owns the word, and no mirror holds it (03 R59, 20 R361). -/
def State.bringHome (a w : Nat) (v : Word) : State := ((s.setHomeWord w v).unregister w a).dropMirror a w

theorem dropMirror_eq (a w : Nat) : s.dropMirror a w = { s with mirror := (s.dropMirror a w).mirror } := by
  unfold State.dropMirror
  split <;> rfl

variable {s}

theorem bringHome_eq {w : Nat} (h : inRam (4 * w) = true) (a : Nat) (v : Word) : s.bringHome a w v =
    { s with mem := (s.setHomeWord w v).mem, owners := (s.unregister w a).owners, mirror := (s.bringHome a w v).mirror } := by
  have hm := dropMirror_eq ((s.setHomeWord w v).unregister w a) a w
  rw [setHomeWord_of_ram s h] at hm
  rw [State.bringHome, setHomeWord_of_ram s h]
  exact hm

theorem bringHome_homeWord (hwf : s.Wf) {w : Nat} (h : inRam (4 * w) = true) (a : Nat) (v : Word) : (s.bringHome a w v).homeWord w = v := by
  rw [bringHome_eq h]
  exact (homeWord_setHomeWord hwf w w v h).trans (if_pos rfl)

theorem ownerOf_of_single {w : Nat} {e : OwnerEntry} (he : s.entries w = [e]) (hb : e.mask.testBit (w % 16) = true) : s.ownerOf w = some e := by
  simp [State.ownerOf, he, hb]

theorem entries_setEntries (w u : Nat) (l : List OwnerEntry) : (s.setEntries w l).entries u = if w / 16 = u / 16 then l else s.entries u := by
  unfold State.setEntries State.entries
  split
  · next h => rw [tget, tget?_tdel]; split <;> simp [h, tget]
  · rw [tget_tset]

theorem testBit_sub_two_pow {m j : Nat} (h : m.testBit j = true) : (m - 2 ^ j).testBit j = false := by
  have hle : 2 ^ j ≤ m := Nat.ge_two_pow_of_testBit h
  have hsum : 2 ^ j + (m - 2 ^ j) = m := by omega
  have := Nat.testBit_two_pow_add_eq (m - 2 ^ j) j
  rw [hsum, h] at this
  simpa using this

theorem unregister_ownerOf {w a : Nat} {e : OwnerEntry} (he : s.entries w = [e]) (hb : e.mask.testBit (w % 16) = true) (ha : e.agent = a) :
    (s.unregister w a).ownerOf w = none := by
  rw [State.ownerOf, State.unregister, entries_setEntries, if_pos rfl, he]
  simp only [List.map_cons, List.map_nil, ha, hb, and_self, if_true]
  refine List.find?_eq_none.2 fun x hx => ?_
  rw [List.mem_singleton.1 (List.mem_filter.1 hx).1]
  exact Bool.eq_false_iff.1 (testBit_sub_two_pow hb)

theorem bringHome_ownerOf {w a : Nat} {e : OwnerEntry} (h : inRam (4 * w) = true) (v : Word) (he : s.entries w = [e]) (hb : e.mask.testBit (w % 16) = true)
    (ha : e.agent = a) : (s.bringHome a w v).ownerOf w = none := by
  rw [bringHome_eq h]
  exact unregister_ownerOf he hb ha

theorem bringHome_memGet (hwf : s.Wf) {w b : Nat} (h : inRam (4 * w) = true) (a : Nat) (v : Word) (hb : b / 4 ≠ w) :
    memGet (s.bringHome a w v).mem b = memGet s.mem b := by
  rw [bringHome_eq h]
  exact memGet_setHomeWord hwf h v hb

end

/-! ### The write-back buffer (03 R62) -/

/-- True of a write-back by agent a that holds word w. -/
def Msg.buffers (m : Msg) (a w : Nat) : Bool := m.kind = .wb && m.agent = a && m.st ≠ .finished && m.st ≠ .answered && m.items.any fun i => i.w = w

theorem buffered_eq (s : State) (a w : Nat) : s.buffered a w =
    (s.msgs.find? fun m => m.2.buffers a w).bind fun m => (m.2.items.find? fun i => i.w = w).map (·.val) := by
  have h : s.buffered a w = match s.msgs.find? fun m => m.2.buffers a w with
    | some m => (m.2.items.find? fun i => i.w = w).map (·.val)
    | none => none := rfl
  rw [h]
  cases s.msgs.find? fun m => m.2.buffers a w <;> rfl

theorem buffers_of_buffered {s : State} {a w : Nat} (h : s.buffered a w = none) {p : Nat × Msg} (hp : p ∈ s.msgs) : p.2.buffers a w = false := by
  rw [buffered_eq] at h
  cases hf : s.msgs.find? fun m => m.2.buffers a w with
  | none => exact Bool.eq_false_iff.2 (List.find?_eq_none.1 hf p hp)
  | some m =>
    have hm : m.2.buffers a w = true := List.find?_some (p := fun m : Nat × Msg => m.2.buffers a w) hf
    simp only [Msg.buffers, Bool.and_eq_true, List.any_eq_true, decide_eq_true_eq] at hm
    obtain ⟨-, i, hi, hw⟩ := hm
    rw [hf, Option.bind_some, Option.map_eq_none_iff, List.find?_eq_none] at h
    exact absurd (decide_eq_true hw) (h i hi)

/-- A buffer all of whose write-backs of a word hold the same value holds it, or nothing. -/
theorem buffered_of_all {s : State} {a w : Nat} {v : Word}
    (h : ∀ p ∈ s.msgs, p.2.buffers a w = true → (p.2.items.find? fun i => i.w = w).map (·.val) = some v) :
    s.buffered a w = none ∨ s.buffered a w = some v := by
  rw [buffered_eq]
  cases hf : s.msgs.find? fun m => m.2.buffers a w with
  | none => exact .inl rfl
  | some m => exact .inr (h m (List.mem_of_find?_eq_some hf) (List.find?_some (p := fun m : Nat × Msg => m.2.buffers a w) hf))

/-- The owned data that an agent's levels hold. -/
def State.heldData (s : State) (a w : Nat) : Option Word :=
  if a % 1024 < 8 then s.dieData (agentDie a) w
  else if a % 1024 < 104 then
    match s.copy (marlLevel (agentMarl a)) w with
    | some c => if c.owned then some c.val else none
    | none => none
  else none

theorem agentData_eq (s : State) (a w : Nat) : s.agentData a w = (s.heldData a w).or (s.buffered a w) := by
  have h : s.agentData a w = match s.heldData a w with | some v => some v | none => s.buffered a w := rfl
  rw [h]
  cases s.heldData a w <;> rfl

end Sys2Proof.Machine
end
section
/-! Invalidate notices, revocations and write-backs (03 R59 to R62). -/

namespace Sys2Proof.Machine

/-! ### A message of the home to an owner -/

/-- A message of the home about one word has come to the word's one owner, which has released since it was made up (03 R59, R75). -/
structure Notified (s : State) (id : Nat) (n : Msg) (i : Item) (e : OwnerEntry) : Prop where
  msg : s.msg id = some n
  here : n.st = .accepted
  items : n.items = [i]
  settled : s.granting i.w = false
  entries : s.entries i.w = [e]
  bit : e.mask.testBit (i.w % 16) = true
  agent : e.agent = n.agent
  released : s.releases n.agent ≠ n.rel
  hole : s.hole = false

section
variable {s : State} {id : Nat} {n : Msg} {i : Item} {e : OwnerEntry}

theorem Notified.ownerOf (h : Notified s id n i e) : s.ownerOf i.w = some e := ownerOf_of_single h.entries h.bit

/-- An owner that has released since the registration reports no race. -/
theorem verdict_of_released (orig w kind : Nat) (h : s.releases e.agent ≠ e.relcount) : s.verdict orig w kind e = (s, false) := by
  have hr : s.races e = false := decide_eq_false h
  unfold State.verdict
  split
  · rfl
  · exact if_pos (.inr (.inl hr))

theorem Notified.verdicts (h : Notified s id n i e) (kind : Nat) (act : State → Nat → State) : s.verdicts n kind act = (act s i.w, false) := by
  have hv : s.verdict n.orig i.w kind { e with relcount := n.rel } = (s, false) := verdict_of_released _ _ _ (by rw [h.agent]; exact h.released)
  unfold State.verdicts
  rw [h.items, List.foldl_cons, List.foldl_nil]
  simp only [h.ownerOf, h.agent, ne_eq, not_true_eq_false, if_false, Bool.false_eq_true]
  rw [← h.agent, hv, ite_self, if_neg Bool.false_ne_true]

theorem Notified.unsettled (h : Notified s id n i e) : (n.items.any fun i => s.granting i.w) = false := by
  simp [h.items, h.settled]

/-! ### Invalidate notices (03 R59, R61) -/

/-- The home has the word, no level of its owner does, and nobody owns it. -/
def State.invalidated (s : State) (a w : Nat) : State := (s.dropAgent a w).bringHome a w (s.wordVal w)

theorem invalidated_eq {a w : Nat} (h : inRam (4 * w) = true) : ∃ m o r, s.invalidated a w =
    { s.dropAgent a w with mem := m, owners := o, mirror := r } := ⟨_, _, _, bringHome_eq h a _⟩

theorem invalidated_msgs {a w : Nat} (h : inRam (4 * w) = true) : (s.invalidated a w).msgs = s.msgs := by
  obtain ⟨_, _, _, he⟩ := invalidated_eq (s := s) (a := a) h
  rw [he]
  exact uncached_field (dropAgent_uncached s a w) State.msgs

/-- A notice that has been carried out serves its request until the acknowledgement is back. -/
theorem serving_of_msg {k : Nat} (h : s.msg k = some n) (hk : n.kind = .inv) (hst : n.st = .answered) : s.serving n.orig = true := by
  exact List.any_eq_true.2 ⟨_, mem_of_tget? h, by simp [hk, hst]⟩

theorem Notified.exec_inv (h : Notified s id n i e) (hram : inRam (4 * i.w) = true) {x : Msg} (hk : n.kind = .inv) (hfar : n.near n.dst = false)
    (hne : n.orig ≠ id) (hx : s.msg n.orig = some x) :
    exec (.invalidateNotice id) s = .next ((s.invalidated n.agent i.w).answer id n n.dst) := by
  have hmsgs := invalidated_msgs (s := s) (a := n.agent) hram
  have hack : (s.invalidated n.agent i.w).ack id = (s.invalidated n.agent i.w).answer id n n.dst :=
    ack_of_far (by rw [State.msg, hmsgs]; exact h.msg) hfar
  generalize hz : (s.invalidated n.agent i.w).answer id n n.dst = z at hack ⊢
  have hzx : z.msg n.orig = some x := by
    rw [← hz, answer_msg_ne _ _ _ hne, State.msg, hmsgs]
    exact hx
  have hserving : z.serving n.orig = true :=
    serving_of_msg (s := z) (k := id) (n := { n with st := .answered, away := !n.near n.dst }) (by rw [← hz, answer_msg_self]) hk rfl
  have hhole : z.hole = false := by
    rw [← hz, unsent_field (answer_unsent _ _ _ _) State.hole]
    obtain ⟨_, _, _, he⟩ := invalidated_eq (s := s) (a := n.agent) hram
    rw [he]
    exact (uncached_field (dropAgent_uncached s n.agent i.w) State.hole).trans h.hole
  rw [← done_of_hole hhole]
  have hv := h.verdicts 1 fun s w => (((s.dropAgent n.agent w).setHomeWord w (s.wordVal w)).unregister w n.agent).dropMirror n.agent w
  show execInvalidateNotice id s = _
  unfold execInvalidateNotice
  simp only [h.msg, hk, h.here, h.unsettled, ne_eq, not_true_eq_false, Bool.false_eq_true, or_self, if_false, hv]
  rw [show ((((s.dropAgent n.agent i.w).setHomeWord i.w (s.wordVal i.w)).unregister i.w n.agent).dropMirror n.agent i.w).ack id = z from hack]
  simp only [hzx, State.homeRegister, hserving, if_true]

/-! ### Revocations (03 R60, R62) -/

/-- The write-back of words as the agent makes it. -/
def homeward (a : Nat) (items : List Item) (c : Client) (o : Nat) : Msg :=
  { kind := .wb, src := a, dst := homeEnd ((items.headD ⟨0, 0, 0⟩).w), agent := a, items := items, client := c, past := true,
    pa := 4 * (items.headD ⟨0, 0, 0⟩).w, orig := o }

theorem writeBack_eq (s : State) (a : Nat) (items : List Item) (c : Client) (o : Nat) : s.writeBack a items c o = s.send (homeward a items c o) := rfl

/-- The owner of a revoked word has written it back, and the home's message is answered. -/
def State.revoked (s : State) (id : Nat) (n : Msg) (i : Item) : State :=
  (s.writeBack n.agent [{ i with bm := 15, val := s.wordVal i.w }] .none n.orig).1.answer id n n.dst

theorem revoked_unsent : (s.revoked id n i).unsent = s.unsent := (answer_unsent _ _ _ _).trans (writeBack_unsent _ _ _ _ _)

/-- The write-back that answers a revocation. -/
theorem revoked_msg (hid : id < s.nextId) : ∃ z, (s.revoked id n i).msg s.nextId = some z ∧ z.kind = .wb ∧ z.agent = n.agent ∧ z.orig = n.orig ∧
    z.items = [{ i with bm := 15, val := s.wordVal i.w }] := by
  obtain ⟨z, hz, hmade⟩ := send_msg s (homeward n.agent [{ i with bm := 15, val := s.wordVal i.w }] .none n.orig)
  refine ⟨z, ?_, made_field hmade Msg.kind, made_field hmade Msg.agent, made_field hmade Msg.orig, made_field hmade Msg.items⟩
  rw [State.revoked, answer_msg_ne _ _ _ (Nat.ne_of_gt hid), writeBack_eq]
  exact hz

/-- Of the requests that stand after a revocation, the new write-back alone holds the word. -/
theorem revoked_buffered (hk : n.kind = .rev) (hb : s.buffered n.agent i.w = none) :
    (s.revoked id n i).buffered n.agent i.w = none ∨ (s.revoked id n i).buffered n.agent i.w = some (s.wordVal i.w) := by
  refine buffered_of_all fun p hp hholds => ?_
  obtain ⟨z, htab, hmade⟩ := send_msgs s (homeward n.agent [{ i with bm := 15, val := s.wordVal i.w }] .none n.orig)
  rw [State.revoked, answer_msgs, writeBack_eq] at hp
  rcases mem_tset hp with hp | rfl
  · have hp' : p ∈ tset s.msgs s.nextId z := htab ▸ hp
    rcases mem_tset hp' with hp | rfl
    · rw [buffers_of_buffered hb hp] at hholds
      cases hholds
    · rw [show z.items = [_] from made_field hmade Msg.items]
      simp
  · simp [Msg.buffers, hk] at hholds

theorem Notified.wordVal_revoked (h : Notified s id n i e) (hk : n.kind = .rev) (hb : s.buffered n.agent i.w = none) :
    (s.revoked id n i).wordVal i.w = s.wordVal i.w := by
  have hsame := revoked_unsent (s := s) (id := id) (n := n) (i := i)
  have howner : (s.revoked id n i).ownerOf i.w = some e := (unsent_field hsame (·.ownerOf i.w)).trans h.ownerOf
  have hhome : (s.revoked id n i).homeWord i.w = s.homeWord i.w := unsent_field hsame (·.homeWord i.w)
  have hheld : (s.revoked id n i).heldData n.agent i.w = s.heldData n.agent i.w := unsent_field hsame (·.heldData n.agent i.w)
  have hval : s.wordVal i.w = (s.heldData n.agent i.w).getD (s.homeWord i.w) := by
    simp only [State.wordVal, h.ownerOf, h.agent, agentData_eq, hb, Option.or_none]
  rw [State.wordVal, howner]
  simp only [h.agent, agentData_eq, hheld, hhome]
  cases hd : s.heldData n.agent i.w with
  | some v => simp [hval, hd]
  | none =>
    rcases revoked_buffered (id := id) hk hb with hnone | hsome
    · simp [hval, hd, hnone]
    · simp [hsome]

theorem Notified.exec_rev (h : Notified s id n i e) (hk : n.kind = .rev) (hfar : n.near n.dst = false) (hid : id < s.nextId) (hb : s.buffered n.agent i.w = none) :
    exec (.revocation id) s = .next (s.revoked id n i) := by
  have hhole : (s.revoked id n i).hole = false := (unsent_field revoked_unsent State.hole).trans h.hole
  have hmsg : (s.writeBack n.agent [{ i with bm := 15, val := s.wordVal i.w }] .none n.orig).1.msg id = some n :=
    (send_msg_ne _ _ (Nat.ne_of_lt hid)).trans h.msg
  rw [← done_of_hole hhole, State.revoked, ← ack_of_far hmsg hfar]
  show execRevocation id s = _
  unfold execRevocation
  simp only [h.msg, hk, h.here, h.unsettled, ne_eq, not_true_eq_false, Bool.false_eq_true, or_self, if_false, h.verdicts]
  rw [h.items, List.filter_singleton]
  simp [h.ownerOf, h.agent, hb]

end

/-! ### Write-backs at the home (03 R59, R62) -/

section
variable {s : State} {id : Nat} {x : Msg} {i : Item}

/-- The home has the word that its owner wrote back, and keeps it as nobody's; the agent keeps valid copies (03 R60). -/
def State.wroteBack (s : State) (a w : Nat) : State := (s.keepAgent a w (s.wordVal w)).bringHome a w (s.wordVal w)

theorem exec_writeBack_of_owner {e : OwnerEntry} (h : s.msg id = some x) (hk : x.kind = .wb) (hst : x.st = .accepted) (hi : x.items = [i])
    (he : s.ownerOf i.w = some e) (ha : e.agent = x.agent) :
    exec (.writeBack id) s = done ((s.wroteBack x.agent i.w).answer id x x.dst) := by
  show execWriteBack id s = _
  unfold execWriteBack
  simp only [h, hk, hst, hi, he, ha, ne_eq, not_true_eq_false, or_self, if_false, if_true, List.foldl_cons, List.foldl_nil]
  rfl

theorem exec_writeBack_of_other (h : s.msg id = some x) (hk : x.kind = .wb) (hst : x.st = .accepted) (hi : x.items = [i])
    (he : ∀ e, s.ownerOf i.w = some e → e.agent ≠ x.agent) : exec (.writeBack id) s = done (s.answer id x x.dst) := by
  show execWriteBack id s = _
  unfold execWriteBack
  cases ho : s.ownerOf i.w with
  | none => simp only [h, hk, hst, hi, ho, ne_eq, not_true_eq_false, or_self, if_false, List.foldl_cons, List.foldl_nil]
  | some e => simp only [h, hk, hst, hi, ho, he e ho, ne_eq, not_true_eq_false, or_self, if_false, List.foldl_cons, List.foldl_nil]

/-- What a drain goes on with are write-backs, and a note of them in the window. -/
theorem pumpDrain_unsent (s : State) (core slot : Nat) : (s.pumpDrain core slot).unsent.uncached = s.unsent.uncached :=
  List.foldlRecOn (motive := fun y : State => y.unsent.uncached = s.unsent.uncached) _ _ rfl fun _ h _ _ =>
    (congrArg State.uncached (writeBack_unsent _ _ _ _ _)).trans h

/-- The acknowledgement ends the write-back; a drain of a window goes on. -/
theorem exec_writeBackAck (h : s.msg id = some x) (hk : x.kind = .wb) (hst : x.st = .answered) (haway : x.away = false) :
    ∃ y : State, exec (.writeBackAck id) s = .next (y.finishMsg id) ∧ y.unsent.uncached = s.unsent.uncached := by
  show ∃ y : State, execWriteBackAck id s = _ ∧ _
  unfold execWriteBackAck
  simp only [h, hk, hst, haway, ne_eq, not_true_eq_false, Bool.false_eq_true, or_self, if_false]
  split
  · exact ⟨_, rfl, pumpDrain_unsent _ _ _⟩
  · exact ⟨_, rfl, rfl⟩

end

/-- Settles O45: a notice and a revocation by the way of a released owner's message, a write-back by who owns the word, the acknowledgement by the end of
its request. -/
theorem noticesAndWriteBacks : Obligations.NoticesAndWriteBacks := by
  unfold Obligations.NoticesAndWriteBacks
  refine ⟨fun s id n i e hmsg hst hi hset hent hbit ha hrel hhole hwf hram => ?_, fun s id x i hmsg hk hi hhole hwf hram => ⟨?_, ?_, ?_⟩⟩
  · have h : Notified s id n i e := ⟨hmsg, hst, hi, hset, hent, hbit, ha, hrel, hhole⟩
    refine ⟨fun x hk hfar hne hx _ _ _ _ _ _ _ => ?_, fun hk hfar hid hb => ?_⟩
    · have hdrop := dropAgent_uncached s n.agent i.w
      have hwf' : (s.dropAgent n.agent i.w).Wf := by rw [State.Wf, dropAgent_mem]; exact hwf
      have hmsgs := invalidated_msgs (s := s) (a := n.agent) hram
      have hz := answer_unsent (s.invalidated n.agent i.w) id n n.dst
      refine ⟨_, h.exec_inv hram hk hfar hne hx, ?_, ?_, fun l hl hc => ?_, ?_, ?_, ?_, ?_⟩
      · exact (unsent_field hz (·.homeWord i.w)).trans (bringHome_homeWord hwf' hram _ _)
      · exact (unsent_field hz (·.ownerOf i.w)).trans
          (bringHome_ownerOf hram _ ((uncached_field hdrop (·.entries i.w)).trans hent) hbit ha)
      · rw [unsent_field hz (·.copy l i.w), State.invalidated, bringHome_eq hram]
        exact copy_dropAgent hl hc
      · rw [answer_msg_ne _ _ _ hne, State.msg, hmsgs]
        exact hx
      · exact serving_of_msg (n := { n with st := .answered, away := !n.near n.dst }) (answer_msg_self _ _ _ _) hk rfl
      · simp [State.performed, answer_msg_self]
      · rw [unsent_field hz State.regs, State.invalidated, bringHome_eq hram]
        exact uncached_field hdrop State.regs
    · obtain ⟨z, hz⟩ := revoked_msg (n := n) (i := i) hid
      have hsame := revoked_unsent (s := s) (id := id) (n := n) (i := i)
      obtain ⟨hzmsg, hzk, hza, hzo, hzi⟩ := hz
      exact ⟨_, z, h.exec_rev hk hfar hid hb, hzmsg, hzk, hza, hzo, hzi, h.wordVal_revoked hk hb, unsent_field hsame State.mem, unsent_field hsame State.owners,
        by simp [State.performed, State.revoked, answer_msg_self], unsent_field hsame State.regs⟩
  · intro e hst he ha
    have hkeep := keepAgent_uncached s x.agent i.w (s.wordVal i.w)
    have hwf' : (s.keepAgent x.agent i.w (s.wordVal i.w)).Wf := by rw [State.Wf, keepAgent_mem]; exact hwf
    have hz := answer_unsent (s.wroteBack x.agent i.w) id x x.dst
    have heq := bringHome_eq (s := s.keepAgent x.agent i.w (s.wordVal i.w)) hram x.agent (s.wordVal i.w)
    have hdone : ((s.wroteBack x.agent i.w).answer id x x.dst).hole = false := by
      rw [unsent_field hz State.hole, State.wroteBack, heq]
      exact (uncached_field hkeep State.hole).trans hhole
    refine ⟨_, (exec_writeBack_of_owner hmsg hk hst hi he ha).trans (done_of_hole hdone), ?_, ?_, fun hent => ?_, fun b hb => ?_, ?_⟩
    · exact (unsent_field hz (·.homeWord i.w)).trans (bringHome_homeWord hwf' hram _ _)
    · rw [answer_msg_self]; rfl
    · have hbit : e.mask.testBit (i.w % 16) = true := List.find?_some (p := fun e : OwnerEntry => e.mask.testBit (i.w % 16)) he
      exact (unsent_field hz (·.ownerOf i.w)).trans
        (bringHome_ownerOf hram _ ((uncached_field hkeep (·.entries i.w)).trans hent) hbit ha)
    · rw [unsent_field hz State.mem]
      exact (bringHome_memGet hwf' hram _ _ hb).trans (by rw [keepAgent_mem])
    · rw [unsent_field hz State.regs, State.wroteBack, heq]
      exact uncached_field hkeep State.regs
  · intro hst he
    have hz := answer_unsent s id x x.dst
    exact ⟨_, (exec_writeBack_of_other hmsg hk hst hi he).trans (done_of_hole ((unsent_field hz State.hole).trans hhole)), answer_msg_self _ _ _ _,
      unsent_field hz State.mem, unsent_field hz State.owners, unsent_field hz State.copies, unsent_field hz State.regs⟩
  · intro hst haway
    obtain ⟨y, hexec, hy⟩ := exec_writeBackAck hmsg hk hst haway
    have hz := (congrArg State.uncached (finishMsg_unsent y id)).trans hy
    exact ⟨_, hexec, live_finishMsg y id, uncached_field hz State.mem, uncached_field hz State.regs, uncached_field hz State.owners⟩

end Sys2Proof.Machine
end
section
/-! Forwarded loads (03 R58): a machine whose table of requests names a forward twice, where the statement speaks of its first entry alone. -/

namespace Sys2Proof.Machine

/-- A load of word 0 by cluster 0, accepted at its home. -/
def twiceLoad : Msg := { kind := .load, src := 0, dst := homeEnd 0, agent := 0, items := [{ w := 0 }], client := .none, st := .accepted }

/-- The home's forward of that load, accepted by agent 0, which has released since. -/
def twiceForward : Msg := { kind := .fwd, src := homeEnd 0, dst := 0, agent := 0, items := [{ w := 0 }], client := .none, orig := 50, st := .accepted }

/-- A machine with the load as request 50 and the forward as request 60, which has a second entry, still in flight, behind its first. -/
def twiceState : State := { msgs := [(50, twiceLoad), (60, twiceForward), (60, { twiceForward with st := .flying })], relcount := [(0, 9)], nextId := 100 }

/-- The owner's verdict leaves the load at its home, as the second entry is a forward that has not arrived. -/
theorem exec_forwardedLoad_twice : ∃ r, exec (.forwardedLoad 60) twiceState = .next r ∧ (r.msg 50).map (·.st) = some .accepted :=
  ⟨_, rfl, by decide +kernel⟩

/-- Every other entry that serves the load has finished: there is none. -/
theorem twiceState_others (n : Nat) (z : Msg) (h : (n, z) ∈ twiceState.msgs) (hn : n ≠ 60) : z.orig ≠ twiceForward.orig := by
  simp only [twiceState, List.mem_cons, Prod.mk.injEq, List.not_mem_nil, or_false] at h
  obtain ⟨-, rfl⟩ : n = 50 ∧ z = twiceLoad := h.resolve_right fun h => hn (h.elim And.left And.left)
  decide

/-- Refutes O44: the entries of a forward's own number are left out of "the others have finished", and a second one, behind that which the forward is found
by, keeps the load from being answered. -/
theorem not_loadsAndAnswers : ¬ Obligations.LoadsAndAnswers := by
  unfold Obligations.LoadsAndAnswers
  rintro ⟨hforward, -⟩
  obtain ⟨-, hfwd⟩ := hforward twiceState 60 twiceForward rfl rfl
  obtain ⟨hanswer, -⟩ := hfwd twiceLoad { w := 0 } rfl rfl rfl (by decide) rfl rfl (by decide) (fun e he => by cases he) (by decide) (by decide) (by decide)
    (by decide)
  obtain ⟨r, hexec, hmsg, -⟩ := hanswer rfl rfl fun n z hz hn ho => absurd ho (twiceState_others n z hz hn)
  obtain ⟨z, hz, hst⟩ := exec_forwardedLoad_twice
  obtain rfl : r = z := by
    rw [hexec] at hz
    injection hz
  rw [show r.msg 50 = _ from hmsg] at hst
  simp at hst

end Sys2Proof.Machine
end
section
/-! Registration at the home (03 R59, R63): who owns the words after it, the ways it can go, the grant that it sends. -/

namespace Sys2Proof.Machine

/-! ### Owner entries after a registration -/

section
variable {s : State} {w a : Nat}

/-- A change of entries that keeps their bit of a word keeps which entry the word is registered in. -/
theorem find?_entries_map {l : List OwnerEntry} {g : OwnerEntry → OwnerEntry} {j : Nat} (h : ∀ e ∈ l, (g e).mask.testBit j = e.mask.testBit j) :
    ((l.map g).filter fun e => e.mask ≠ 0).find? (fun e => e.mask.testBit j) = (l.find? fun e => e.mask.testBit j).map g := by
  have hzero : ∀ e : OwnerEntry, (decide (e.mask ≠ 0) && e.mask.testBit j) = e.mask.testBit j := by
    intro e
    by_cases hm : e.mask = 0
    · simp [hm]
    · simp [hm]
  rw [List.find?_filter, List.find?_map]
  simp only [Function.comp_def, decide_eq_true_eq, Bool.decide_and, Bool.decide_eq_true, hzero]
  congr 1
  exact List.find?_congr h

/-- A bit that is added where it was clear leaves the others alone. -/
theorem testBit_add_two_pow_ne {m i j : Nat} (h : m.testBit i = false) (hij : j ≠ i) : (m + 2 ^ i).testBit j = m.testBit j := by
  induction i generalizing m j with
  | zero =>
    obtain ⟨k, rfl⟩ := Nat.exists_eq_succ_of_ne_zero hij
    rw [Nat.testBit_zero, decide_eq_false_iff_not] at h
    rw [Nat.succ_eq_add_one, Nat.testBit_add_one, Nat.testBit_add_one]
    congr 1
    omega
  | succ i ih =>
    cases j with
    | zero => rw [Nat.testBit_zero, Nat.testBit_zero, Nat.pow_succ, Nat.add_mul_mod_self_right]
    | succ k =>
      rw [Nat.testBit_add_one] at h ⊢
      rw [Nat.pow_succ, Nat.add_mul_div_right _ _ (by decide), ih h (by omega), Nat.testBit_add_one]

theorem testBit_sub_two_pow_ne {m i j : Nat} (h : m.testBit i = true) (hij : j ≠ i) : (m - 2 ^ i).testBit j = m.testBit j := by
  rw [← testBit_add_two_pow_ne (testBit_sub_two_pow h) hij, Nat.sub_add_cancel (Nat.ge_two_pow_of_testBit h)]

/-- An entry f of agent a as it is when f takes the word: f has its bit and the release count n, another entry of the agent has it no more. -/
def OwnerEntry.taking (f : OwnerEntry) (a j n : Nat) (e : OwnerEntry) : OwnerEntry :=
  if e = f then { e with mask := e.mask + 2 ^ j, relcount := n }
  else if e.agent = a ∧ e.mask.testBit j = true then { e with mask := e.mask - 2 ^ j } else e

section
variable {f e : OwnerEntry} {j n : Nat}

theorem OwnerEntry.taking_agent : (f.taking a j n e).agent = e.agent := by
  unfold taking
  split
  · rfl
  · split <;> rfl

theorem OwnerEntry.taking_relcount : (f.taking a j n e).relcount = e.relcount ∨ (f.taking a j n e).relcount = n := by
  unfold taking
  split
  · exact .inr rfl
  · split <;> exact .inl rfl

theorem OwnerEntry.taking_bit_ne {i : Nat} (hf : f.mask.testBit j = false) (hi : i ≠ j) : (f.taking a j n e).mask.testBit i = e.mask.testBit i := by
  unfold taking
  split
  · next he => exact testBit_add_two_pow_ne (he ▸ hf) hi
  · split
    · next hb => exact testBit_sub_two_pow_ne hb.2 hi
    · rfl

theorem OwnerEntry.taking_self : f.taking a j n f = { f with mask := f.mask + 2 ^ j, relcount := n } := if_pos rfl

theorem OwnerEntry.taking_other (he : e.agent ≠ a) (hf : f.agent = a) : f.taking a j n e = e := by
  unfold taking
  rw [if_neg (by rintro rfl; exact he hf), if_neg (fun h => he h.1)]

end

/-! What a registration makes of the entries, by the agent's own. -/

theorem register_of_owned {f : OwnerEntry} (hf : (s.entries w).find? (fun e => e.agent = a) = some f) (hb : f.mask.testBit (w % 16) = true) :
    s.register w a = s := by
  simp only [State.register, hf, hb, if_true]

theorem register_of_entry {f : OwnerEntry} (hf : (s.entries w).find? (fun e => e.agent = a) = some f) (hb : f.mask.testBit (w % 16) = false) :
    s.register w a = s.setEntries w (((s.entries w).map (f.taking a (w % 16) (s.releases a))).filter fun e => e.mask ≠ 0) := by
  simp only [State.register, hf, hb, Bool.false_eq_true, if_false]
  rfl

theorem register_of_none (h : (s.entries w).find? (fun e => e.agent = a) = none) :
    s.register w a = s.setEntries w (s.entries w ++ [{ relcount := s.releases a, mask := 2 ^ (w % 16), agent := a }]) := by
  simp only [State.register, h]

theorem register_eq (s : State) (w a : Nat) : s.register w a = { s with owners := (s.register w a).owners } := by
  cases hf : (s.entries w).find? (fun e => e.agent = a) with
  | none => rw [register_of_none hf]; rfl
  | some f =>
    cases hb : f.mask.testBit (w % 16) with
    | true => rw [register_of_owned hf hb]
    | false => rw [register_of_entry hf hb]; rfl

/-- True where a word is nobody's, or agent a's. -/
def State.freeFor (s : State) (a w : Nat) : Prop := ∀ e, s.ownerOf w = some e → e.agent = a

/-- A registration of a word that no other agent owns: the word is the agent's, as it was or with the present release count. -/
theorem register_ownerOf_self (h : s.freeFor a w) : ∃ e, (s.register w a).ownerOf w = some e ∧ e.agent = a ∧
    (s.ownerOf w = some e ∨ e.relcount = s.releases a) := by
  cases hf : (s.entries w).find? (fun e => e.agent = a) with
  | none =>
    have hnone : (s.entries w).find? (fun e => e.mask.testBit (w % 16)) = none := by
      cases ho : (s.entries w).find? (fun e => e.mask.testBit (w % 16)) with
      | none => rfl
      | some e => exact absurd (h e ho) (by simpa using List.find?_eq_none.1 hf e (List.mem_of_find?_eq_some ho))
    rw [register_of_none hf, State.ownerOf, entries_setEntries, if_pos rfl, List.find?_append, hnone]
    exact ⟨{ relcount := s.releases a, mask := 2 ^ (w % 16), agent := a }, by simp, rfl, .inr rfl⟩
  | some f =>
    have hagent : f.agent = a := by simpa using List.find?_some hf
    cases hb : f.mask.testBit (w % 16) with
    | true =>
      rw [register_of_owned hf hb]
      obtain ⟨e, he⟩ := Option.isSome_iff_exists.1
        (List.find?_isSome (p := fun e : OwnerEntry => e.mask.testBit (w % 16)) |>.2 ⟨f, List.mem_of_find?_eq_some hf, hb⟩)
      exact ⟨e, he, h e he, .inl he⟩
    | false =>
      obtain ⟨-, pre, post, hl, hpre⟩ := List.find?_eq_some_iff_append.1 hf
      have hother : ∀ e ∈ pre, e.agent ≠ a := fun e he => by simpa using hpre e he
      have hnone : pre.find? (fun e => e.mask.testBit (w % 16)) = none := by
        cases ho : pre.find? (fun e => e.mask.testBit (w % 16)) with
        | none => rfl
        | some e =>
          refine absurd (h e ?_) (hother e (List.mem_of_find?_eq_some ho))
          rw [State.ownerOf, hl, List.find?_append, ho, Option.some_or]
      have hfilter : (pre.filter fun e => e.mask ≠ 0).find? (fun e => e.mask.testBit (w % 16)) = none :=
        List.find?_eq_none.2 fun e he => List.find?_eq_none.1 hnone e (List.mem_filter.1 he).1
      have hset : (f.mask + 2 ^ (w % 16)).testBit (w % 16) = true := by rw [Nat.add_comm, Nat.testBit_two_pow_add_eq, hb]; rfl
      have hpos : f.mask + 2 ^ (w % 16) ≠ 0 := fun h0 => absurd hset (by rw [h0, Nat.zero_testBit]; decide)
      have hpre' : pre.map (f.taking a (w % 16) (s.releases a)) = pre := 
        (List.map_congr_left fun e he => OwnerEntry.taking_other (hother e he) hagent).trans (List.map_id' _)
      rw [register_of_entry hf hb, State.ownerOf, entries_setEntries, if_pos rfl, hl, List.map_append, List.map_cons, OwnerEntry.taking_self,
        hpre', List.filter_append, List.filter_cons, if_pos (decide_eq_true hpos), List.find?_append, hfilter, Option.none_or, List.find?_cons, hset]
      exact ⟨{ f with mask := f.mask + 2 ^ (w % 16), relcount := s.releases a }, rfl, hagent, .inr rfl⟩

/-- Other words keep their owners, whose entry may get the agent's present release count. -/
theorem register_ownerOf_ne {u : Nat} (hu : u ≠ w) : ∃ g : OwnerEntry → OwnerEntry, (s.register w a).ownerOf u = (s.ownerOf u).map g ∧
    ∀ e, (g e).agent = e.agent ∧ ((g e).relcount = e.relcount ∨ (g e).relcount = s.releases a) := by
  by_cases hline : w / 16 = u / 16
  · have hbit : u % 16 ≠ w % 16 := by omega
    have hsame : s.entries u = s.entries w := by rw [State.entries, State.entries, hline]
    cases hf : (s.entries w).find? (fun e => e.agent = a) with
    | none =>
      refine ⟨id, ?_, fun e => ⟨rfl, .inl rfl⟩⟩
      rw [register_of_none hf, State.ownerOf, entries_setEntries, if_pos hline, List.find?_append, State.ownerOf, hsame]
      simp [Nat.testBit_two_pow_of_ne hbit.symm]
    | some f =>
      cases hb : f.mask.testBit (w % 16) with
      | true => exact ⟨id, by rw [register_of_owned hf hb, Option.map_id_fun, id], fun e => ⟨rfl, .inl rfl⟩⟩
      | false =>
        refine ⟨f.taking a (w % 16) (s.releases a), ?_, fun e => ⟨OwnerEntry.taking_agent, OwnerEntry.taking_relcount⟩⟩
        rw [register_of_entry hf hb, State.ownerOf, entries_setEntries, if_pos hline,
          find?_entries_map fun e _ => OwnerEntry.taking_bit_ne hb hbit, State.ownerOf, hsame]
  · refine ⟨id, ?_, fun e => ⟨rfl, .inl rfl⟩⟩
    rw [Option.map_id_fun, id, State.ownerOf, State.ownerOf]
    cases hf : (s.entries w).find? (fun e => e.agent = a) with
    | none => rw [register_of_none hf, entries_setEntries, if_neg hline]
    | some f =>
      cases hb : f.mask.testBit (w % 16) with
      | true => rw [register_of_owned hf hb]
      | false => rw [register_of_entry hf hb, entries_setEntries, if_neg hline]

end

/-! ### Registrations of several words -/

/-- The machine without the words at its levels and without owner entries. -/
def State.unowned (s : State) : State := { s.uncached with owners := [] }

/-- What reads neither copies, nor cores, nor owners. -/
theorem unowned_field {α : Sort _} {r s : State} (h : r.unowned = s.unowned) (f : State → α) (hf : ∀ s, f s.unowned = f s := by intro s; rfl) : f r = f s := by
  rw [← hf r, h, hf]

theorem register_unowned (s : State) (w a : Nat) : (s.register w a).unowned = s.unowned := by
  rw [register_eq]
  rfl

theorem passLlc_uncached (s : State) (a w : Nat) : (s.passLlc a w).uncached = s.uncached := by
  unfold State.passLlc
  split
  · exact dropAt_uncached _ _ _
  · rfl

/-- Words registered one after another by a request of agent a that passes through its package's LLC. -/
def State.taken (s : State) (a : Nat) (l : List Item) : State := l.foldl (fun s i => (s.register i.w a).passLlc a i.w) s

theorem taken_unowned (s : State) (a : Nat) (l : List Item) : (s.taken a l).unowned = s.unowned :=
  List.foldlRecOn (motive := fun y : State => y.unowned = s.unowned) _ _ rfl fun y h i _ =>
    (congrArg (fun z : State => ({ z with owners := [] } : State)) (passLlc_uncached _ _ _)).trans ((register_unowned y i.w a).trans h)

/-- In y the word is nobody's, or agent a's, which has its release count in s where s knew no owner. -/
def State.ownable (s y : State) (a u : Nat) : Prop := ∀ e, y.ownerOf u = some e → e.agent = a ∧ (s.ownerOf u = none → e.relcount = s.releases a)

section
variable {s y : State} {a u w : Nat}

theorem taking_ownable (hr : y.releases a = s.releases a) (hw : s.ownable y a w) (hu : s.ownable y a u) :
    s.ownable ((y.register w a).passLlc a w) a u ∧
    (u = w ∨ (y.ownerOf u).isSome = true → (((y.register w a).passLlc a w).ownerOf u).isSome = true) := by
  have hsame : ((y.register w a).passLlc a w).ownerOf u = (y.register w a).ownerOf u := uncached_field (passLlc_uncached _ _ _) (·.ownerOf u)
  rw [State.ownable, hsame]
  by_cases hne : u = w
  · subst hne
    obtain ⟨e, he, hagent, hrel⟩ := register_ownerOf_self (s := y) (w := u) fun e he => (hu e he).1
    rw [he]
    refine ⟨?_, fun _ => rfl⟩
    rintro _ ⟨⟩
    exact ⟨hagent, fun hn => hrel.elim (fun ho => (hu e ho).2 hn) fun hrel => hrel.trans hr⟩
  · obtain ⟨g, hmap, hg⟩ := register_ownerOf_ne (s := y) (a := a) hne
    rw [hmap]
    refine ⟨fun e he => ?_, fun h => by simpa using h.resolve_left hne⟩
    obtain ⟨e₀, he₀, rfl⟩ := Option.map_eq_some_iff.1 he
    obtain ⟨hagent, hrel⟩ := hg e₀
    obtain ⟨ha, hn⟩ := hu e₀ he₀
    exact ⟨hagent.trans ha, fun h => hrel.elim (fun h' => h'.trans (hn h)) fun h' => h'.trans hr⟩

/-- Every word of the list is registered, and those before keep their owner. -/
theorem taken_ownable (l : List Item) (y : State) (hr : y.releases a = s.releases a) (hl : ∀ i ∈ l, s.ownable y a i.w) (hu : s.ownable y a u)
    (hin : (∃ i ∈ l, i.w = u) ∨ (y.ownerOf u).isSome = true) : s.ownable (y.taken a l) a u ∧ ((y.taken a l).ownerOf u).isSome = true := by
  induction l generalizing y with
  | nil => exact ⟨hu, hin.resolve_left (by simp)⟩
  | cons i l ih =>
    have hi := hl i List.mem_cons_self
    obtain ⟨hu', hsome⟩ := taking_ownable hr hi hu
    refine ih _ ?_ (fun j hj => (taking_ownable hr hi (hl j (List.mem_cons_of_mem _ hj))).1) hu' ?_
    · exact (unowned_field (taken_unowned y a [i]) (·.releases a)).trans hr
    · rcases hin with ⟨j, hj, rfl⟩ | hin
      · exact (List.mem_cons.1 hj).elim (fun h => .inr (hsome (.inl (by rw [h])))) fun h => .inl ⟨j, h, rfl⟩
      · exact .inr (hsome (.inr hin))

/-- Words that no other agent owns are registered to the agent, those that it gains with its release count. -/
theorem taken_ownerOf {l : List Item} (h : ∀ i ∈ l, s.freeFor a i.w) {i : Item} (hi : i ∈ l) :
    ∃ e, (s.taken a l).ownerOf i.w = some e ∧ e.agent = a ∧ (s.ownerOf i.w = none → e.relcount = s.releases a) := by
  have hown : ∀ j ∈ l, s.ownable s a j.w := fun j hj e he => ⟨h j hj e he, fun hn => absurd (he.symm.trans hn) (by simp)⟩
  obtain ⟨hall, hsome⟩ := taken_ownable l s rfl hown (hown i hi) (.inl ⟨i, hi, rfl⟩)
  obtain ⟨e, he⟩ := Option.isSome_iff_exists.1 hsome
  exact ⟨e, he, hall e he⟩

end

/-! ### The ways of a registration at the home -/

section
variable {s : State} {id : Nat} {m : Msg}

/-- The first of a registration's words that another agent owns. -/
def State.contended (s : State) (m : Msg) : Option Item := m.items.find? fun i => match s.ownerOf i.w with | some e => e.agent ≠ m.agent | none => false

theorem contended_eq_none (h : ∀ i ∈ m.items, s.freeFor m.agent i.w) : s.contended m = none := by
  refine List.find?_eq_none.2 fun i hi => ?_
  cases ho : s.ownerOf i.w with
  | none => simp
  | some e => simp [h i hi e ho]

theorem homeRegister_of_serving (h : s.serving id = true) : s.homeRegister id m = s := if_pos h

/-- The other owner of a word is sent an invalidate notice about all its words. -/
theorem homeRegister_of_contended {i : Item} {e : OwnerEntry} (hs : s.serving id = false) (hi : s.contended m = some i) (he : s.ownerOf i.w = some e) :
    s.homeRegister id m = s.ask .inv id e.agent (m.items.filter fun j => (s.ownerOf j.w).map (·.agent) = some e.agent) false := by
  unfold State.homeRegister
  rw [if_neg (by simp [hs])]
  dsimp only
  split
  · next j hj =>
    obtain rfl : j = i := Option.some.inj (hj.symm.trans hi)
    simp only [he]
  · next hnone => cases hnone.symm.trans hi

/-- With no other owner and room in the line and in the LLC slice the words are granted. -/
theorem homeRegister_of_free (hs : s.serving id = false) (hi : s.contended m = none) (hc : ∀ k, m.client ≠ .copy k)
    (hl : (s.entries (m.items.headD ⟨0, 0, 0⟩).w).length < 4) (hroom : s.entries (m.items.headD ⟨0, 0, 0⟩).w = [] →
      s.llcRoom (m.items.headD ⟨0, 0, 0⟩).w = .enough) : s.homeRegister id m = s.grantAll id m := by
  have hgive : (match m.client with | .copy _ => s.engineAll id m | _ => s.grantAll id m) = s.grantAll id m := by
    split
    · next k hk => exact absurd hk (hc k)
    · rfl
  unfold State.homeRegister
  rw [if_neg (by simp [hs])]
  dsimp only
  split
  · next j hj => cases hj.symm.trans hi
  · split
    · rw [if_neg (by omega)]
      exact hgive
    · next hnil =>
      rw [hroom hnil]
      exact hgive

/-! ### The grant -/

/-- A registration's words are the agent's; the request waits for its grant, and a store-release raises its agent's release count (03 R69). -/
def State.registered (s : State) (id : Nat) (m : Msg) : State :=
  let r := s.taken m.agent m.items
  (if m.bump then r.bumpRelease m.agent else r).setMsg id { m with st := .answered }

/-- The grant of a registration's words. -/
def State.grantOf (s : State) (id : Nat) (m : Msg) : Msg :=
  { kind := .grant, src := m.dst, dst := m.agent, agent := m.agent, orig := id, past := true, items := m.items.map fun i => { i with val := s.wordVal i.w } }

/-- A registration changes who owns words, what levels hold, the release count of its agent and the request. -/
theorem registered_eq : ∃ r : State, r.unowned = s.unowned ∧ r.owners = (s.taken m.agent m.items).owners ∧
    ∃ c t, s.registered id m = { r with relcount := c, msgs := t } := by
  refine ⟨s.taken m.agent m.items, taken_unowned _ _ _, rfl, ?_⟩
  unfold State.registered
  dsimp only
  split <;> exact ⟨_, _, rfl⟩

theorem registered_ownerOf (w : Nat) : (s.registered id m).ownerOf w = (s.taken m.agent m.items).ownerOf w := by
  obtain ⟨r, -, ho, c, t, heq⟩ := registered_eq (s := s) (id := id) (m := m)
  rw [heq, State.ownerOf, State.ownerOf, State.entries, State.entries, ← ho]

/-- What reads neither levels, cores, owners, release counts nor requests. -/
theorem registered_field {α : Sort _} (f : State → α)
    (hf : ∀ (s : State) c t, f { s.unowned with relcount := c, msgs := t } = f s := by intros; rfl) : f (s.registered id m) = f s := by
  obtain ⟨r, hr, -, c, t, heq⟩ := registered_eq (s := s) (id := id) (m := m)
  have h : f ({ r with relcount := c, msgs := t } : State) = f r := (hf { r with relcount := c, msgs := t } [] []).symm.trans (hf r [] [])
  rw [heq, h, ← hf r [] [], hr, hf s [] []]

theorem grantAll_field {α : Sort _} (f : State → α) (hs : ∀ s, f s.unsent = f s := by intro s; rfl)
    (hf : ∀ (s : State) c t, f { s.unowned with relcount := c, msgs := t } = f s := by intros; rfl) : f (s.grantAll id m) = f s :=
  (unsent_field (send_unsent _ _) f hs).trans (registered_field f hf)

theorem grantAll_ownerOf (w : Nat) : (s.grantAll id m).ownerOf w = (s.taken m.agent m.items).ownerOf w :=
  (unsent_field (send_unsent _ _) (·.ownerOf w)).trans (registered_ownerOf w)

/-- The grant is the next request. -/
theorem grantAll_msg : ∃ g, (s.grantAll id m).msg s.nextId = some g ∧ g.kind = .grant ∧ g.orig = id ∧ g.agent = m.agent ∧
    g.items.map (·.w) = m.items.map (·.w) := by
  obtain ⟨g, hg, hmade⟩ := send_msg (s.registered id m) ((s.registered id m).grantOf id m)
  rw [registered_field State.nextId] at hg
  refine ⟨g, hg, made_field hmade Msg.kind, made_field hmade Msg.orig, made_field hmade Msg.agent, ?_⟩
  rw [made_field hmade Msg.items, State.grantOf, List.map_map]
  rfl

end

/-! ### Registrations at their home -/

section
variable {s : State} {id : Nat} {m : Msg}

/-- The message of the home to an owner as it is made. -/
def State.asking (s : State) (k : MsgKind) (o w : Nat) (items : List Item) (q : Bool) : Msg :=
  { kind := k, src := homeEnd ((items.headD ⟨0, 0, 0⟩).w), dst := w, agent := w, items := items, orig := o, quiet := q, past := true,
    rel := ((s.ownerOf (items.headD ⟨0, 0, 0⟩).w).map (·.relcount)).getD 0 }

theorem ask_nextId (s : State) (k : MsgKind) (o w : Nat) (items : List Item) (q : Bool) : s.nextId < (s.ask k o w items q).nextId := send_nextId _ _

theorem ask_msg_ne (s : State) (k : MsgKind) (o w : Nat) (items : List Item) (q : Bool) {j : Nat} (h : j ≠ s.nextId) :
    (s.ask k o w items q).msg j = s.msg j := send_msg_ne _ _ h

/-- The message of the home to an owner is the next request. -/
theorem ask_msg (s : State) (k : MsgKind) (o w : Nat) (items : List Item) (q : Bool) : ∃ n, (s.ask k o w items q).msg s.nextId = some n ∧ n.kind = k ∧
    n.dst = w ∧ n.orig = o ∧ n.items = items ∧ n.quiet = q := by
  obtain ⟨n, hn, hmade⟩ := send_msg s (s.asking k o w items q)
  exact ⟨n, hn, made_field hmade Msg.kind, made_field hmade Msg.dst, made_field hmade Msg.orig, made_field hmade Msg.items, made_field hmade Msg.quiet⟩

/-- A registration waits for lower lanes' and lower agents' accesses, and for what it already waits for. -/
theorem exec_registration_of_waiting (h : s.msg id = some m) (hk : m.kind = .reg) (hp : m.past = true) (hst : m.st = .accepted)
    (hw : s.lowerAgent id m = true ∨ s.laneBlocked id m = true ∨ s.serving id = true) : exec (.registrationRequest id) s = done s := by
  show execRegistrationRequest id s = _
  unfold execRegistrationRequest
  simp only [h, hk, hp, hst, ne_eq, not_true_eq_false, if_false, if_true, false_or]
  congr 1
  split
  · rfl
  · next hfree => exact homeRegister_of_serving (by tauto)

theorem exec_registration (h : s.msg id = some m) (hk : m.kind = .reg) (hp : m.past = true) (hst : m.st = .accepted)
    (hb : s.laneBlocked id m = false) (ha : s.lowerAgent id m = false) : exec (.registrationRequest id) s = done (s.homeRegister id m) := by
  show execRegistrationRequest id s = _
  unfold execRegistrationRequest
  simp only [h, hk, hp, hst, ha, hb, ne_eq, not_true_eq_false, Bool.false_eq_true, or_self, if_false, if_true]

end

end Sys2Proof.Machine
end
section
/-! The grant of a word to a Marl core (03 R56, R57, R61). -/

namespace Sys2Proof.Machine

/-! ### A request that stays while others end -/

/-- True where a number is that of grants that have been numbered, whatever entries the table has under it. -/
def State.onlyGrants (s : State) (k : Nat) : Prop := ∀ z, (k, z) ∈ s.msgs → z.kind = .grant ∧ z.st ≠ .queued

section
variable {s : State} {k id : Nat}

theorem ended_rows {m z : Msg} (h : (k, z) ∈ (s.ended id m).msgs) :
    (k, z) ∈ s.msgs ∨ k = id ∧ z = { m with st := .finished, flying := m.flying - m.arrived, arrived := 0, lwms := [] } := by
  unfold State.ended at h
  split at h
  · exact .inl (mem_tdel h)
  · exact (mem_tset h).imp_right Prod.mk.inj

theorem unforwarded_rows {m z : Msg} (h : (k, z) ∈ (s.unforwarded id m).msgs) : (k, z) ∈ s.msgs := by
  unfold State.unforwarded at h
  split at h
  · exact (List.mem_filter.1 h).1
  · exact h

theorem State.onlyGrants.ended (h : s.onlyGrants k) (m : Msg) (hm : k = id → m.kind = .grant) : (s.ended id m).onlyGrants k := fun z hz => by
  rcases ended_rows hz with hz | ⟨hk, rfl⟩
  · exact h z hz
  · exact ⟨hm hk, nofun⟩

theorem State.onlyGrants.unforwarded (h : s.onlyGrants k) (m : Msg) : (s.unforwarded id m).onlyGrants k := fun z hz => h z (unforwarded_rows hz)

/-- Grants keep their place in the table while other requests are numbered. -/
theorem postQueued_rows {z : Msg} (a b n : Nat) (h : (k, z) ∈ (s.postQueued id a b n).msgs) (hk : s.onlyGrants k) : (k, z) ∈ s.msgs := by
  induction n generalizing s with
  | zero => exact h
  | succ n ih =>
    unfold State.postQueued at h
    split at h
    · next x hx =>
      obtain ⟨hmem, -, hst⟩ := nextQueued_mem s hx
      obtain ⟨y, htab, -⟩ := post_msgs s x.1 x.2
      have hne : k ≠ x.1 := by
        rintro rfl
        exact (hk x.2 hmem).2 hst
      have hback : ∀ z, (k, z) ∈ (s.post x.1 x.2).msgs → (k, z) ∈ s.msgs := fun z hz =>
        (mem_tset (htab ▸ hz : (k, z) ∈ tset s.msgs x.1 y)).resolve_right fun he => hne (congrArg Prod.fst he)
      split at h
      · exact hback z (ih h fun z hz => hk z (hback z hz))
      · exact h
    · exact h

theorem State.onlyGrants.postQueued (h : s.onlyGrants k) (a b n : Nat) : (s.postQueued id a b n).onlyGrants k := fun z hz => h z (postQueued_rows a b n hz h)

theorem State.onlyGrants.finishMsg (h : s.onlyGrants k) (hk : ∀ m, k = id → s.msg id = some m → m.kind = .grant) : (s.finishMsg id).onlyGrants k := by
  cases hm : s.msg id with
  | none => rwa [show s.finishMsg id = s by simp only [State.finishMsg, hm]]
  | some m =>
    rw [finishMsg_eq hm]
    exact ((h.ended m fun he => hk m he hm).unforwarded m).postQueued _ _ _

/-- The end of a request leaves a grant where it is. -/
theorem finishMsg_msg_ne (hne : k ≠ id) (h : s.onlyGrants k) : (s.finishMsg id).msg k = s.msg k := by
  cases hm : s.msg id with
  | none => rw [show s.finishMsg id = s by simp only [State.finishMsg, hm]]
  | some m =>
    have hend : (s.ended id m).msg k = s.msg k := by
      unfold State.ended
      split
      · exact tget?_tdel_ne _ hne.symm
      · exact tget?_tset_ne _ _ hne.symm
    have hgrants := h.ended (id := id) m fun he => absurd he hne
    rw [finishMsg_eq hm, postQueued_msg _ _ _ _ (.inr fun z hz => (hgrants.unforwarded m z hz).2), ← hend]
    cases hz : (s.ended id m).msg k with
    | none => exact unforwarded_msg_none hz _ _
    | some z =>
      have hzk := (hgrants z (mem_of_tget? hz)).1
      exact unforwarded_msg_some hz _ _ fun _ => by rw [hzk]; decide

/-- The acknowledgement of a grant leaves grants alone under its number. -/
theorem State.onlyGrants.ack (h : s.onlyGrants k) (hk : ∀ m, k = id → s.msg id = some m → m.kind = .grant) : (s.ack id).onlyGrants k := by
  cases hm : s.msg id with
  | none => rwa [show s.ack id = s by simp only [State.ack, hm]]
  | some m =>
    unfold State.ack
    simp only [hm]
    split
    · exact State.onlyGrants.finishMsg (s := s.storeAnswer m) h hk
    · intro z hz
      rw [answer_msgs] at hz
      rcases mem_tset hz with hz | he
      · exact h z hz
      · obtain ⟨rfl, rfl⟩ := Prod.mk.inj he
        exact ⟨hk m rfl hm, nofun⟩

end

/-! ### Windows that lose a word (08 R165) -/

section
variable (s : State)

/-- A late store leaves requests other than loads, and all but cores and requests, as they are. -/
def State.sheds (s r : State) : Prop := r.unsent.uncached = s.unsent.uncached ∧ r.copies = s.copies ∧
  ∃ f : Msg → Msg, r.msgs = s.msgs.map (fun p => (p.1, f p.2)) ∧ ∀ m, m.kind ≠ .load → f m = m

theorem sheds_refl : s.sheds s := ⟨rfl, rfl, id, by simp, fun _ _ => rfl⟩

variable {s}

theorem sheds_trans {r t : State} (h : s.sheds r) (h' : r.sheds t) : s.sheds t := by
  obtain ⟨hsame, hcopies, f, hf, hid⟩ := h
  obtain ⟨hsame', hcopies', f', hf', hid'⟩ := h'
  refine ⟨hsame'.trans hsame, hcopies'.trans hcopies, f' ∘ f, by rw [hf', hf, List.map_map]; rfl, fun m hm => ?_⟩
  rw [Function.comp, hid m hm, hid' m hm]

theorem sheds_foldl {β : Type} (f : State → β → State) (hf : ∀ (s : State) (b : β), s.sheds (f s b)) (l : List β) (s : State) : s.sheds (l.foldl f s) :=
  List.foldlRecOn (motive := fun y : State => s.sheds y) _ _ (sheds_refl s) fun y hy b _ => sheds_trans hy (hf y b)

/-- A window's sector fetch without the words that a store has written. -/
def Msg.stripped (m : Msg) (c slot : Nat) (ws : List Nat) : Msg :=
  if m.client = .window c slot ∧ m.kind = .load then
    { m with
      items := m.items.filter fun i => !ws.contains i.w
      ans := if m.st = .answered then ((m.items.zip m.ans).filter fun y => !ws.contains y.1.w).map (·.2) else m.ans }
  else m

theorem sheds_stripFetch (s : State) (c slot : Nat) (ws : List Nat) : s.sheds (s.stripFetch c slot ws) := by
  refine ⟨rfl, rfl, (·.stripped c slot ws), List.map_congr_left fun p _ => ?_, fun m hm => if_neg fun h => hm h.2⟩
  unfold Msg.stripped
  dsimp only
  split
  · rfl
  · rfl

theorem sheds_dropWindowWord (s : State) (k : Nat) : s.sheds (s.dropWindowWord k) := by
  have hmsgs : (s.dropWindowWord k).msgs = s.msgs := uncached_field (modWindowWord_uncached _ _ _) State.msgs
  refine ⟨?_, modWindowWord_copies _ _ _, id, by simp [hmsgs], fun _ _ => rfl⟩
  exact congrArg State.unsent (modWindowWord_uncached _ _ _)

theorem sheds_staleWindows (s : State) (core va pa n : Nat) : s.sheds (s.staleWindows core va pa n) := by
  unfold State.staleWindows
  split
  · exact sheds_refl s
  · refine sheds_foldl _ (fun s c => sheds_foldl _ (fun s y => ?_) _ s) _ s
    dsimp only
    split
    · exact sheds_refl s
    · refine sheds_foldl _ (fun s j => ?_) _ s
      split
      · exact sheds_refl s
      · split
        · exact sheds_trans (sheds_stripFetch s _ _ _) (sheds_dropWindowWord _ _)
        · exact sheds_stripFetch s _ _ _

theorem sheds_staleAfter (s : State) (m : Msg) : s.sheds (s.staleAfter m) := by
  unfold State.staleAfter
  split
  · split
    · exact sheds_staleWindows _ _ _ _ _
    · exact sheds_refl s
  · exact sheds_refl s

theorem tget?_map_snd {α : Type} (f : α → α) (t : Tab α) (k : Nat) : tget? (t.map fun p => (p.1, f p.2)) k = (tget? t k).map f := by
  induction t with
  | nil => rfl
  | cons p t ih =>
    obtain ⟨i, v⟩ := p
    rw [List.map_cons, tget?, tget?]
    split
    · rfl
    · exact ih

/-- Grants are no loads. -/
theorem State.onlyGrants.sheds {k : Nat} {r : State} (h : s.onlyGrants k) (hr : s.sheds r) : r.onlyGrants k ∧ r.msg k = s.msg k := by
  obtain ⟨-, -, f, hf, hid⟩ := hr
  have hgrant : ∀ z, (k, z) ∈ s.msgs → f z = z := fun z hz => hid z (by rw [(h z hz).1]; decide)
  refine ⟨fun z hz => ?_, ?_⟩
  · rw [hf] at hz
    obtain ⟨⟨j, y⟩, hp, he⟩ := List.mem_map.1 hz
    obtain ⟨rfl, rfl⟩ := Prod.mk.inj he
    rw [hgrant y hp]
    exact h y hp
  · rw [State.msg, hf, tget?_map_snd]
    cases hz : tget? s.msgs k with
    | none => exact hz.symm
    | some z => rw [Option.map_some, hgrant z (mem_of_tget? hz)]; exact hz.symm

end

/-! ### The grant -/

/-- A Marl core's registration of one word, whose bytes wait in its caches for the grant, while the home still has the core as the word's owner. -/
structure Granting (s : State) (core : Nat) (g m : Msg) (i : Item) (e : OwnerEntry) (c : Copy) : Prop where
  marl : isMarl core = true
  num : numOf core < 352
  agent : g.agent = marlAgent core
  same : m.agent = g.agent
  level : m.level = marlLevel core
  held : m.held = []
  items : g.items = [i]
  owner : s.ownerOf i.w = some e
  owns : e.agent = g.agent
  copy : s.copy m.level i.w = some c
  pend : c.pend = true
  win : c.win = none
  pol : c.pol = .all
  buffer : s.buffered g.agent i.w = none
  unowned : c.owned = false

/-- A copy whose bytes stood while the grant brought the others: it holds the word owned. -/
def Copy.completed (c : Copy) (v : Word) : Copy := { c with pend := false, owned := true, mask := 15, val := mergeWord c.mask c.val v }

section
variable {s : State} {core id : Nat} {g m : Msg} {i : Item} {e : OwnerEntry} {c : Copy}

/-- A Marl core whose caches do not own a word, and that writes none back, has no data of it. -/
theorem Granting.agentData (h : Granting s core g m i e c) : s.agentData g.agent i.w = none := by
  obtain ⟨h8, h104, hback⟩ := marlAgent_place h.marl h.num
  have hheld : s.heldData g.agent i.w = none := by
    rw [State.heldData, h.agent, if_neg h8, if_pos h104, hback, ← h.level, h.copy]
    simp [h.unowned]
  rw [agentData_eq, hheld, h.buffer, Option.or_none]

/-- The bytes that waited stand, the others come with the grant. -/
theorem Granting.grantItem (h : Granting s core g m i e c) {r : State} (hc : r.copies = s.copies) :
    r.grantItem m i.w i.val = r.setCopy m.level i.w (c.completed i.val) := by
  obtain ⟨h8, -, -⟩ := marlAgent_place h.marl h.num
  have hcopy : r.copy m.level i.w = some c := by rw [State.copy, hc]; exact h.copy
  have hagent : ¬ m.agent % 1024 < 8 := by rwa [h.same, h.agent]
  have hmirror : ∀ v, r.setMirror m.agent i.w v = r := fun v => if_neg fun hm => hagent hm.1
  unfold State.grantItem
  simp only [hagent, if_false, hmirror, hcopy, h.pend, if_true, h.win, Option.isSome_none, Bool.false_eq_true, State.copyVal, Copy.completed]

/-- The state after the word is granted. -/
def State.grantedTo (s : State) (id : Nat) (g m : Msg) (i : Item) (c : Copy) : State :=
  (((s.ack id).setCopy m.level i.w (c.completed i.val)).staleAfter m).finishMsg g.orig

theorem Granting.granted (h : Granting s core g m i e c) : (s.ack id).granted g.orig m [(i.w, i.val)] = s.grantedTo id g m i c := by
  have hlost : (s.ack id).lostHeld m = [] := by rw [State.lostHeld, h.held, List.filter_nil]
  unfold State.granted
  simp only [hlost, if_true, List.foldl_cons, List.foldl_nil, h.grantItem (unsent_field (ack_unsent s id) State.copies), h.held]
  rfl

theorem grantedTo_field {α : Sort _} (f : State → α) (hs : ∀ s, f s.unsent = f s := by intro s; rfl) (hu : ∀ s, f s.uncached = f s := by intro s; rfl) :
    f (s.grantedTo id g m i c) = f s := by
  obtain ⟨hsame, -, -⟩ := sheds_staleAfter ((s.ack id).setCopy m.level i.w (c.completed i.val)) m
  have hboth : ∀ s : State, f s.unsent.uncached = f s := fun s => (hu s.unsent).trans (hs s)
  calc f (s.grantedTo id g m i c) = f (((s.ack id).setCopy m.level i.w (c.completed i.val)).staleAfter m) := unsent_field (finishMsg_unsent _ _) f hs
    _ = f ((s.ack id).setCopy m.level i.w (c.completed i.val)) := (hboth _).symm.trans ((congrArg f hsame).trans (hboth _))
    _ = f (s.ack id) := uncached_field (r := (s.ack id).setCopy m.level i.w (c.completed i.val)) (s := s.ack id) rfl f hu
    _ = f s := unsent_field (ack_unsent s id) f hs

theorem grantedTo_copy : (s.grantedTo id g m i c).copy m.level i.w = some (c.completed i.val) := by
  obtain ⟨-, hcopies, -⟩ := sheds_staleAfter ((s.ack id).setCopy m.level i.w (c.completed i.val)) m
  rw [State.copy, State.grantedTo, unsent_field (finishMsg_unsent _ _) State.copies, hcopies]
  exact copy_setCopy_self _ _ _

theorem grantedTo_msg (hne : id ≠ g.orig) (hg : s.onlyGrants id) : (s.grantedTo id g m i c).performed id = true := by
  have hack : (s.ack id).onlyGrants id := hg.ack fun x _ hx => (hg x (mem_of_tget? hx)).1
  obtain ⟨hgrants, hmsg⟩ := State.onlyGrants.sheds (s := (s.ack id).setCopy m.level i.w (c.completed i.val)) hack (sheds_staleAfter _ m)
  have hsame : (s.grantedTo id g m i c).msg id = (s.ack id).msg id := (finishMsg_msg_ne hne hgrants).trans hmsg
  have hperf := performed_ack s id
  unfold State.performed at hperf ⊢
  rw [hsame]
  exact hperf

/-- A grant that comes to a word that its agent still owns goes down its levels, and nothing else follows. -/
theorem Granting.applyGrant (h : Granting s core g m i e c) (hg : s.msg id = some g) (hm : s.msg g.orig = some m) :
    s.applyGrant id = s.grantedTo id g m i c := by
  have howner : (s.grantedTo id g m i c).ownerOf i.w = some e := (grantedTo_field (·.ownerOf i.w)).trans h.owner
  unfold State.applyGrant
  simp only [hg, hm, h.items, List.map_cons, List.map_nil, h.agentData, Option.getD_none, h.granted, List.foldl_cons, List.foldl_nil, howner, h.owns, if_true]
  unfold State.afterGrant
  simp only [grantedTo_copy, Copy.completed, h.win, and_self, if_true, h.pol, State.expel]

theorem Granting.exec (h : Granting s core g m i e c) (hg : s.msg id = some g) (hm : s.msg g.orig = some m) (hk : g.kind = .grant)
    (hst : g.st = .accepted) : exec (.registrationGrant id) s = done (s.grantedTo id g m i c) := by
  obtain ⟨h8, -, -⟩ := marlAgent_place h.marl h.num
  show execRegistrationGrant id s = _
  unfold execRegistrationGrant
  simp only [hg, hk, hst, h.agent, h8, false_and, ne_eq, not_true_eq_false, or_self, if_false, h.applyGrant hg hm]

end

/-- Settles O43: at the home by the ways that a registration can go there, at the Marl core by what its grant makes of the word's copy. -/
theorem registrationAndGrants : Obligations.RegistrationAndGrants := by
  unfold Obligations.RegistrationAndGrants
  refine ⟨fun s id m hm hk hp hst hhole hid hne hcopy => ⟨fun hw => ?_, fun hs hb hl hfree hroom => ?_, fun i e hs hb hl hi he => ?_⟩, ?_⟩
  · rw [exec_registration_of_waiting hm hk hp hst hw, done_of_hole hhole]
  · obtain ⟨i₀, rest, hitems⟩ := List.exists_cons_of_ne_nil hne
    obtain ⟨hlen, -, hslice⟩ := hroom i₀ (by rw [hitems]; exact List.mem_cons_self)
    have hhead : m.items.headD ⟨0, 0, 0⟩ = i₀ := by rw [hitems]; rfl
    have hgrant : s.homeRegister id m = s.grantAll id m := homeRegister_of_free hs (contended_eq_none hfree) hcopy (by rwa [hhead]) fun hnil => by
      rw [hhead] at hnil ⊢
      exact if_pos (.inr (hslice hnil))
    refine ⟨s.grantAll id m, ?_, fun i hi => ?_, grantAll_msg, grantAll_field State.mem, grantAll_field State.regs⟩
    · rw [exec_registration hm hk hp hst hb hl, hgrant]
      exact done_of_hole ((grantAll_field State.hole).trans hhole)
    · obtain ⟨e, he, hagent, hrel⟩ := taken_ownerOf hfree hi
      rw [grantAll_ownerOf, he]
      exact ⟨congrArg some hagent, fun hn => congrArg some (hrel hn)⟩
  · have hsame := ask_unsent s .inv id e.agent (m.items.filter fun j => (s.ownerOf j.w).map (·.agent) = some e.agent) false
    obtain ⟨n, hn, hkind, hdst, horig, hitems, -⟩ := ask_msg s .inv id e.agent (m.items.filter fun j => (s.ownerOf j.w).map (·.agent) = some e.agent) false
    refine ⟨_, ?_, ⟨n, hn, hkind, hdst, horig, ?_⟩, unsent_field hsame State.owners, unsent_field hsame State.copies, unsent_field hsame State.mem,
      unsent_field hsame State.regs⟩
    · rw [exec_registration hm hk hp hst hb hl, homeRegister_of_contended hs hi he]
      exact done_of_hole ((unsent_field hsame State.hole).trans hhole)
    · rw [hitems]
      exact List.mem_filter.2 ⟨List.mem_of_find?_eq_some hi, by simp [he]⟩
  · intro s id core g m i j e c hg hm hne hk hst hhole hmarl hnum hagent hsame hlevel hheld _ _ hi _ _ _ howner howns hcopy hpend hwin hpol hbuf hun honly
    have h : Granting s core g m i e c := ⟨hmarl, hnum, hagent, hsame, hlevel, hheld, hi, howner, howns, hcopy, hpend, hwin, hpol, hbuf, hun⟩
    have hgrants : s.onlyGrants id := fun z hz => by
      rw [honly z hz, hk, hst]
      exact ⟨rfl, nofun⟩
    refine ⟨s.grantedTo id g m i c, ?_, ⟨_, grantedTo_copy, rfl, rfl, rfl⟩, grantedTo_msg hne hgrants, live_finishMsg _ _, grantedTo_field State.mem,
      grantedTo_field State.owners, grantedTo_field State.regs⟩
    rw [h.exec hg hm hk hst]
    exact done_of_hole ((grantedTo_field State.hole).trans hhole)

end Sys2Proof.Machine
end
section
/-! Atomics and writes performed at the home (03 R71, R81, 08 R176). -/

namespace Sys2Proof.Machine

/-! ### The new value of an atomic -/

/-- The number read from the low bits of an integer format is the operand of 07 R134. -/
theorem readInt_eq_operand (f : Fmt) (x : Nat) : readInt f x = operand f x := by
  have hcast : ((x % 2 ^ f.width : Nat) : Int) = (x : Int) % (2 ^ f.width : Int) := by push_cast; rfl
  unfold readInt operand
  split
  · rw [BitVec.toInt_eq_toNat_cond, BitVec.toNat_ofNat, sext, ← hcast]
    split
    · next h => rw [if_pos (by exact_mod_cast h)]
    · next h =>
      rw [if_neg (by exact_mod_cast h)]
      push_cast
      rfl
  · rw [BitVec.toNat_ofNat, zext, hcast]

theorem operand_mod (f : Fmt) (x : Nat) : operand f (x % 2 ^ f.width) = operand f x := by
  have hsame : BitVec.ofNat f.width (x % 2 ^ f.width) = BitVec.ofNat f.width x := BitVec.eq_of_toNat_eq (by simp)
  rw [operand, operand, hsame]

/-- The machine's atomics compute 08 R176's values in every format of integers and floats. -/
theorem atomNew_eq_atomValue (op : AtomOp) {f : Fmt} (hf : f.isFloat = !f.isInt) (old c cmp : Nat) : atomNew op f old c cmp = atomValue op f old c cmp := by
  unfold atomNew atomValue
  cases op with
  | add => cases hi : f.isInt <;> simp [hf, hi]
  | min => cases hi : f.isInt <;> simp [hf, hi, readInt_eq_operand, operand_mod, apply_ite (· % 2 ^ f.width)]
  | max => cases hi : f.isInt <;> simp [hf, hi, readInt_eq_operand, operand_mod, apply_ite (· % 2 ^ f.width)]
  | and => simp
  | or => simp
  | xor => simp
  | exch => rfl
  | cas => simp [BitVec.toNat_eq]

/-! ### Bytes of a word -/

/-- Byte b of a merged word is that of the word that the mask's bit b selects. -/
theorem mergeWord_byte (bm : Nat) (x y : Word) {b : Nat} (hb : b < 4) :
    (mergeWord bm x y).toNat / 256 ^ b % 256 = (if bm.testBit b then x else y).toNat / 256 ^ b % 256 := by
  have hbyte : ∀ i, (if bm.testBit i then x else y).toNat / 256 ^ i % 256 < 256 := fun i => Nat.mod_lt _ (by decide)
  have h0 := hbyte 0
  have h1 := hbyte 1
  have h2 := hbyte 2
  have h3 := hbyte 3
  rw [mergeWord, foldl_range_four, BitVec.toNat_ofNat]
  interval_cases b <;> simp only [Nat.reduceMul, Nat.reducePow] at h0 h1 h2 h3 ⊢ <;> omega

theorem homeWord_byte (s : State) (w : Nat) {b : Nat} (hb : b < 4) : (s.homeWord w).toNat / 256 ^ b % 256 = (memGet s.mem (4 * w + b)).toNat := by
  have hbyte : ∀ a, (memGet s.mem a).toNat < 256 := fun a => (memGet s.mem a).isLt
  have h0 := hbyte (4 * w)
  have h1 := hbyte (4 * w + 1)
  have h2 := hbyte (4 * w + 2)
  have h3 := hbyte (4 * w + 3)
  rw [State.homeWord, BitVec.toNat_ofNat]
  simp only [memRead, Nat.add_assoc, Nat.reduceAdd]
  interval_cases b <;> simp only [Nat.reduceMul, Nat.reducePow, Nat.add_zero] at h0 h1 h2 h3 ⊢ <;> omega

/-- Bytes of a word merged at its home: those of the mask are the write's, the others stay. -/
theorem memGet_mergeHome {s : State} (hwf : s.Wf) {w b : Nat} (h : inRam (4 * w) = true) (hb : b < 4) (bm : Nat) (v : Word) :
    memGet (s.setHomeWord w (mergeWord bm v (s.homeWord w))).mem (4 * w + b) =
      if bm.testBit b then v.extractLsb' (8 * b) 8 else memGet s.mem (4 * w + b) := by
  rw [setHomeWord_of_ram s h]
  refine ((memGet_memWrite hwf _ _ _ _).trans (if_pos (by omega))).trans ?_
  apply BitVec.eq_of_toNat_eq
  rw [BitVec.toNat_ofNat, Nat.add_sub_cancel_left, mergeWord_byte _ _ _ hb]
  split
  · rw [BitVec.extractLsb'_toNat, Nat.shiftRight_eq_div_pow, Nat.pow_mul]
  · exact homeWord_byte s w hb

/-! ### At the home -/

theorem dropPath_uncached (s : State) (x : Msg) (w : Nat) : (s.dropPath x w).uncached = s.uncached := by
  have hdrop : ∀ (s : State) (l : Nat), (match s.copy l w with | some c => if c.owned then s else s.dropAt l w | none => s).uncached = s.uncached := by
    intro s l
    split
    · split
      · rfl
      · exact dropAt_uncached _ _ _
    · rfl
  unfold State.dropPath
  dsimp only
  split
  · exact (hdrop _ _).trans ((hdrop _ _).trans (hdrop _ _))
  · exact (hdrop _ _).trans (hdrop _ _)

theorem joinWords_single (v : Word) : joinWords [v] = v.toNat := by simp [joinWords]
theorem wordAt_zero (n : Nat) : wordAt n 0 = BitVec.ofNat 32 n := by simp [wordAt]
theorem wordAt_toNat (v : Word) : wordAt v.toNat 0 = v := by rw [wordAt_zero, BitVec.ofNat_toNat, BitVec.setWidth_eq]

section
variable {s : State} {id : Nat} {x : Msg} {i : Item}

/-- The home has an atomic's new value of a word that nobody owns, and the requester no old copy of it. -/
def State.atomDone (s : State) (x : Msg) (i : Item) (l : AtomLane) : State :=
  (s.setHomeWord i.w (wordAt (atomNew x.op x.size (s.homeWord i.w).toNat l.c l.cmp) 0)).dropPath x i.w

theorem exec_homeAtomic {l : AtomLane} (h : s.msg id = some x) (hk : x.kind = .atomic) (hst : x.st = .accepted) (hs : s.serving id = false)
    (hb : s.laneBlocked id x = false) (ha : x.attr = 0) (hi : x.items = [i]) (ho : s.ownerOf i.w = none) (hl : x.lanes = [l]) :
    exec (.homeAtomic id) s = done ((s.atomDone x i l).answer id { x with ans := [s.homeWord i.w] } x.dst) := by
  show execHomeAtomic id s = _
  unfold execHomeAtomic
  simp only [h, hk, hst, hs, hb, ha, hi, ho, ne_eq, not_true_eq_false, Bool.false_eq_true, or_self, if_false, List.find?_cons, List.find?_nil,
    Option.isSome_none, State.atomHome, hl, atomLanes, List.map_cons, List.map_nil, joinWords_single, List.zipIdx_cons, List.zipIdx_nil, List.foldl_cons,
    List.foldl_nil, wordAt_toNat]
  rfl

theorem exec_remoteWrite (h : s.msg id = some x) (hk : x.kind = .remote) (hst : x.st = .accepted) (hb : s.laneBlocked id x = false) (ha : x.attr = 3)
    (hi : x.items = [i]) (hram : inRam x.pa = true) :
    exec (.remoteWrite id) s = done ((s.setHomeWord i.w (mergeWord i.bm i.val (s.homeWord i.w))).ack id) := by
  have hlow : x.pa % 2 ^ 46 < 2 ^ 39 := of_decide_eq_true hram
  have hpage : inRegPage x.pa = false := by unfold inRegPage; simp; omega
  have hdrive : inDrive x.pa = false := by unfold inDrive; simp; omega
  show execRemoteWrite id s = _
  unfold execRemoteWrite
  simp only [h, hk, hst, hb, ha, hi, hpage, hdrive, ne_eq, not_true_eq_false, Bool.false_eq_true, or_self, if_false, List.foldl_cons, List.foldl_nil]

end

end Sys2Proof.Machine
end
section
/-! Evictions of lines from the LLC and of words from L1s and L2s (03 R59, R61). -/

namespace Sys2Proof.Machine

/-! ### What making room leaves alone -/

section
variable {s : State}

theorem evictAgent_frame (s : State) (a l w : Nat) : (s.evictAgent a l w).unsent.uncached = s.unsent.uncached := by
  unfold State.evictAgent
  split
  · split
    · exact (congrArg State.uncached (writeBack_unsent _ _ _ _ _)).trans rfl
    · exact congrArg State.unsent (dropAt_uncached _ _ _)
  · rfl

theorem giveUpHigh_frame (s : State) (l w : Nat) : (s.giveUpHigh l w).unsent.uncached = s.unsent.uncached := by
  unfold State.giveUpHigh
  split
  · dsimp only
    split
    · split
      · rfl
      · exact evictAgent_frame _ _ _ _
    · rfl
  · split
    · exact congrArg State.unsent (dropAt_uncached _ _ _)
    · dsimp only
      split
      · rfl
      · exact evictAgent_frame _ _ _ _

theorem copy_delCopy_self (s : State) (l w : Nat) : (s.delCopy l w).copy l w = none := tget?_tdel_self _ _

theorem copy_delCopy_none {k u : Nat} (h : s.copy k u = none) (l w : Nat) : (s.delCopy l w).copy k u = none := by
  rw [State.copy, State.delCopy, tget?_tdel]
  split
  · rfl
  · exact h

theorem copy_evictAgent_none {k u : Nat} (h : s.copy k u = none) (a l w : Nat) : (s.evictAgent a l w).copy k u = none := by
  unfold State.evictAgent
  split
  · split
    · exact (unsent_field (writeBack_unsent _ _ _ _ _) (·.copy k u)).trans (copy_delCopy_none h l w)
    · exact copy_dropAt_none h l w
  · exact h

theorem copy_giveUpHigh_none {k u : Nat} (h : s.copy k u = none) (l w : Nat) : (s.giveUpHigh l w).copy k u = none := by
  unfold State.giveUpHigh
  split
  · dsimp only
    split
    · split
      · exact h
      · exact copy_evictAgent_none h _ _ _
    · exact h
  · split
    · exact copy_dropAt_none h l w
    · dsimp only
      split
      · exact h
      · exact copy_evictAgent_none h _ _ _

/-- A level makes room by giving up a word, if it must. -/
theorem roomBy_cases (give : State → Nat → Nat → State) (s : State) (l w : Nat) :
    State.roomBy give s l w = s ∨ ∃ v, State.roomBy give s l w = give s l v := by
  unfold State.roomBy
  split
  · exact .inl rfl
  · dsimp only
    split
    · exact .inr ⟨_, rfl⟩
    · exact .inl rfl

end

/-! ### A line that leaves the LLC -/

section
variable {s : State}

/-- A line's revocations, without verdicts, sent to the agents of entries. -/
def State.revokeLine (s : State) (line : Nat) (l : List OwnerEntry) : State :=
  l.foldl (fun s e => s.ask .rev 0 e.agent ((lineWords line e.mask).map fun w => { w := w }) true) s

theorem revokeLine_unsent (s : State) (line : Nat) (l : List OwnerEntry) : (s.revokeLine line l).unsent = s.unsent :=
  List.foldlRecOn (motive := fun y : State => y.unsent = s.unsent) _ _ rfl fun _ h _ _ => (ask_unsent _ _ _ _ _ _).trans h

theorem revokeLine_msg (line : Nat) (l : List OwnerEntry) (s : State) {k : Nat} (hk : k < s.nextId) : (s.revokeLine line l).msg k = s.msg k := by
  induction l generalizing s with
  | nil => rfl
  | cons e l ih => exact (ih _ (Nat.lt_trans hk (ask_nextId _ _ _ _ _ _))).trans (ask_msg_ne _ _ _ _ _ _ (Nat.ne_of_lt hk))

/-- Every owner of a word of the line is sent a revocation of its words. -/
theorem revokeLine_sends (line : Nat) (l : List OwnerEntry) (s : State) : ∀ e ∈ l, ∃ k n, s.nextId ≤ k ∧ (s.revokeLine line l).msg k = some n ∧
    n.kind = .rev ∧ n.quiet = true ∧ n.dst = e.agent ∧ n.items.map (·.w) = lineWords line e.mask := by
  induction l generalizing s with
  | nil => exact fun e he => absurd he List.not_mem_nil
  | cons f l ih =>
    rintro e (_ | ⟨_, he⟩)
    · obtain ⟨n, hn, hkind, hdst, -, hitems, hquiet⟩ := ask_msg s .rev 0 f.agent ((lineWords line f.mask).map fun w => { w := w }) true
      refine ⟨s.nextId, n, Nat.le_refl _, (revokeLine_msg line l _ (ask_nextId _ _ _ _ _ _)).trans hn, hkind, hquiet, hdst, ?_⟩
      rw [hitems, List.map_map]
      exact List.map_id' _
    · obtain ⟨k, n, hk, hn⟩ := ih (s.ask .rev 0 f.agent ((lineWords line f.mask).map fun w => { w := w }) true) e he
      exact ⟨k, n, Nat.le_trans (Nat.le_of_lt (ask_nextId _ _ _ _ _ _)) hk, hn⟩

theorem exec_llcEvict_of_moving {line j : Nat} (hj : j < 16) (h : s.wordMoving (line * 16 + j) = true) : exec (.llcEvict line) s = done s := by
  have hany : (((List.range 16).map fun j => line * 16 + j).any s.wordMoving) = true :=
    List.any_eq_true.2 ⟨_, List.mem_map.2 ⟨j, List.mem_range.2 hj, rfl⟩, h⟩
  exact congrArg done (if_pos hany)

theorem exec_llcEvict {line : Nat} (h : ∀ j < 16, s.wordMoving (line * 16 + j) = false) :
    exec (.llcEvict line) s = done (s.revokeLine line (s.entries (16 * line))) := by
  have hany : ¬ (((List.range 16).map fun j => line * 16 + j).any s.wordMoving) = true := by
    rw [List.any_map, List.any_eq_true]
    rintro ⟨j, hj, hmoving⟩
    exact absurd ((h j (List.mem_range.1 hj)).symm.trans hmoving) (by decide)
  exact congrArg done (if_neg hany)

end

/-! ### A word that leaves a level -/

section
variable {s : State} {w : Nat} {c : Copy}

theorem exec_levelEvict {l : Nat} (h : l < 32768) : exec (.levelEvict l w) s = done (s.giveUp l w) := congrArg done (if_pos h)

/-- A copy that nobody owns and no store waits for is dropped. -/
theorem evictL1_of_valid {cluster : Nat} (h : s.copy cluster w = some c) (ho : c.owned = false) : s.evictL1 cluster w = s.dropAt cluster w := by
  unfold State.evictL1 l1Level
  simp only [h, ho, Bool.false_eq_true, if_false]

theorem giveUpHigh_of_llc {l : Nat} (h : 8192 ≤ l) (h' : l < 16384) : s.giveUpHigh l w = s.dropAt l w := by
  unfold State.giveUpHigh
  rw [if_neg (by omega), if_pos h']

/-- An L2's own word goes home. -/
theorem giveUpHigh_of_die {die : Nat} (hd : die < 4096) (h : s.copy (4096 + die) w = some c) (ho : c.owned = true) (hh : c.holder = 8)
    (hr : s.registering (dieAgent die) w = false) :
    s.giveUpHigh (4096 + die) w = ((s.delCopy (4096 + die) w).writeBack (dieAgent die) [{ w := w, val := c.val }] .none).1 := by
  unfold State.giveUpHigh
  rw [if_pos (by omega), Nat.add_sub_cancel_left]
  simp only [h, hh, hr, Nat.lt_irrefl, and_false, Bool.false_eq_true, or_self, if_false, State.evictAgent, ho, if_true]

/-- The machine with a copy's word in a window, if it lies there, kept as a valid one. -/
def State.windowKept (s : State) (c : Copy) : State := match c.win with | some k => s.keepWindowWord k | none => s

theorem windowKept_uncached (s : State) (c : Copy) : (s.windowKept c).uncached = s.uncached := by
  unfold State.windowKept
  split
  · exact modWindowWord_uncached _ _ _
  · rfl

theorem copy_setCopy_ne (s : State) {l k u v : Nat} (c : Copy) (h : copyKey l u ≠ copyKey k v) : (s.setCopy l u c).copy k v = s.copy k v :=
  tget?_tset_ne _ _ h

/-- The machine after an owned word has left its L1, and before the L2 holds it. -/
def State.leftL1 (s : State) (cluster w : Nat) (c : Copy) : State := (s.windowKept c).delCopy cluster w

/-- An owned word that leaves the L1 is put at the L2, which may have made room for it. -/
theorem evictL1_of_owned {cluster : Nat} (h : s.copy cluster w = some c) (ho : c.owned = true) (hp : tget? s.pinned (copyKey (cluster / 8) w) = none) :
    ∃ y d, s.evictL1 cluster w = State.setCopy y (4096 + cluster / 8) w d ∧ d.owned = true ∧ d.holder = 8 ∧ d.val = s.copyVal c ∧
      (y = s.leftL1 cluster w c ∨ ∃ v, y = (s.leftL1 cluster w c).giveUpHigh (4096 + cluster / 8) v) := by
  have hpin : tget? (s.leftL1 cluster w c).pinned (copyKey (cluster / 8) w) = none :=
    (congrArg (tget? · _) (uncached_field (windowKept_uncached s c) State.pinned)).trans hp
  unfold State.evictL1 l1Level l2Level
  unfold State.leftL1 State.windowKept at hpin ⊢
  simp only [h, ho, if_true]
  split at hpin
  · next k hwin =>
    simp only [hwin, hpin, Option.isSome_none, Bool.false_eq_true, if_false]
    split
    · exact ⟨_, _, rfl, rfl, rfl, rfl, .inl rfl⟩
    · exact ⟨_, _, rfl, rfl, rfl, rfl, roomBy_cases _ _ _ _⟩
  · next hwin =>
    simp only [hwin, hpin, Option.isSome_none, Bool.false_eq_true, if_false]
    split
    · exact ⟨_, _, rfl, rfl, rfl, rfl, .inl rfl⟩
    · exact ⟨_, _, rfl, rfl, rfl, rfl, roomBy_cases _ _ _ _⟩

/-- An owned word that leaves the L1 lies owned in the L2, and nothing but levels and requests changes. -/
theorem evictL1_owned {cluster : Nat} (hw : w < 2 ^ 50) (hc : cluster < 4096) (h : s.copy cluster w = some c) (ho : c.owned = true)
    (hp : tget? s.pinned (copyKey (cluster / 8) w) = none) :
    (s.evictL1 cluster w).unsent.uncached = s.unsent.uncached ∧ (s.evictL1 cluster w).copy cluster w = none ∧
    ∃ d, (s.evictL1 cluster w).copy (4096 + cluster / 8) w = some d ∧ d.owned = true ∧ d.holder = 8 ∧ d.val = s.copyVal c := by
  have hframe : (s.leftL1 cluster w c).unsent.uncached = s.unsent.uncached := congrArg State.unsent (windowKept_uncached s c)
  have hgone : (s.leftL1 cluster w c).copy cluster w = none := copy_delCopy_self _ _ _
  have hne : copyKey (4096 + cluster / 8) w ≠ copyKey cluster w := fun he => by
    have := (copyKey_inj hw hw he).1
    omega
  obtain ⟨y, d, heq, hdo, hdh, hdv, hy⟩ := evictL1_of_owned h ho hp
  have hkeeps : y.unsent.uncached = s.unsent.uncached ∧ y.copy cluster w = none := by
    rcases hy with rfl | ⟨v, rfl⟩
    · exact ⟨hframe, hgone⟩
    · exact ⟨(giveUpHigh_frame _ _ _).trans hframe, copy_giveUpHigh_none hgone _ _⟩
  rw [heq]
  exact ⟨hkeeps.1, (copy_setCopy_ne _ _ hne).trans hkeeps.2, d, copy_setCopy_self _ _ _, hdo, hdh, hdv⟩

end

/-- Settles O46: at the home by what an atomic and a write make of the word, for the evictions by the way that each level gives up a word. -/
theorem homeWritesAndEvictions : Obligations.HomeWritesAndEvictions := by
  unfold Obligations.HomeWritesAndEvictions
  refine ⟨fun s id x i hmsg hst hi hhole hwf hram hb => ⟨fun l hk ha hs ho hl hwidth => ?_, fun hk ha hpa hpram => ?_⟩,
    fun s hhole => ⟨fun line hmov => ?_, fun line hmov => ?_, fun cluster w c hc hw hcopy hown hpin => ?_, fun die w c hd hw hcopy hown hhold hreg => ?_,
      fun level w c hlevel hw hcopy hown hpend => ?_⟩⟩
  · have hdrop := dropPath_uncached (s.setHomeWord i.w (wordAt (atomNew x.op x.size (s.homeWord i.w).toNat l.c l.cmp) 0)) x i.w
    have hz := answer_unsent (s.atomDone x i l) id { x with ans := [s.homeWord i.w] } x.dst
    have hfloat : x.size.isFloat = !x.size.isInt := by
      revert hwidth
      cases x.size <;> decide
    refine ⟨_, (exec_homeAtomic hmsg hk hst hs hb ha hi ho hl).trans (done_of_hole ?_), ?_, ?_, fun a hne => ?_, ?_⟩
    · rw [unsent_field hz State.hole, State.atomDone, uncached_field hdrop State.hole, setHomeWord_of_ram s hram]
      exact hhole
    · rw [← atomNew_eq_atomValue _ hfloat, ← wordAt_zero]
      exact ((unsent_field hz (·.homeWord i.w)).trans (uncached_field hdrop (·.homeWord i.w))).trans ((homeWord_setHomeWord hwf _ _ _ hram).trans (if_pos rfl))
    · rw [answer_msg_self]
      rfl
    · rw [unsent_field hz State.mem, State.atomDone, uncached_field hdrop State.mem]
      exact memGet_setHomeWord hwf hram _ hne
    · rw [unsent_field hz State.regs, State.atomDone, uncached_field hdrop State.regs, setHomeWord_of_ram s hram]
  · have hz := ack_unsent (s.setHomeWord i.w (mergeWord i.bm i.val (s.homeWord i.w))) id
    refine ⟨_, (exec_remoteWrite hmsg hk hst hb ha hi hpram).trans (done_of_hole ?_), fun b hb4 => ?_, fun a hne => ?_, performed_ack _ _, ?_⟩
    · rw [unsent_field hz State.hole, setHomeWord_of_ram s hram]
      exact hhole
    · rw [unsent_field hz State.mem]
      exact memGet_mergeHome hwf hram hb4 _ _
    · rw [unsent_field hz State.mem]
      exact memGet_setHomeWord hwf hram _ hne
    · rw [unsent_field hz State.regs, setHomeWord_of_ram s hram]
  · have hz := revokeLine_unsent s line (s.entries (16 * line))
    exact ⟨_, (exec_llcEvict hmov).trans (done_of_hole ((unsent_field hz State.hole).trans hhole)), revokeLine_sends line _ s, unsent_field hz State.owners,
      unsent_field hz State.copies, unsent_field hz State.mem, unsent_field hz State.regs⟩
  · obtain ⟨j, hj, hmoving⟩ := hmov
    exact (exec_llcEvict_of_moving hj hmoving).trans (done_of_hole hhole)
  · obtain ⟨hframe, hgone, d, hd, hdo, hdh, hdv⟩ := evictL1_owned hw hc hcopy hown hpin
    have hgive : s.giveUp cluster w = s.evictL1 cluster w := if_pos hc
    refine ⟨s.evictL1 cluster w, d, ?_, hgone, hd, hdo, hdh, hdv, uncached_field hframe State.regs, uncached_field hframe State.mem⟩
    rw [exec_levelEvict (by omega), hgive]
    exact done_of_hole ((uncached_field hframe State.hole).trans hhole)
  · have hgive : s.giveUp (4096 + die) w = _ := (if_neg (by omega)).trans (giveUpHigh_of_die hd hcopy hown hhold hreg)
    have hz := writeBack_unsent (s.delCopy (4096 + die) w) (dieAgent die) [{ w := w, val := c.val }] .none 0
    obtain ⟨n, hn, hmade⟩ := send_msg (s.delCopy (4096 + die) w) (homeward (dieAgent die) [{ w := w, val := c.val }] .none 0)
    refine ⟨_, n, ?_, ?_, hn, made_field hmade Msg.kind, made_field hmade Msg.agent, made_field hmade Msg.items, ?_, ?_⟩
    · rw [exec_levelEvict (by omega), hgive]
      exact done_of_hole ((unsent_field hz State.hole).trans hhole)
    · exact (unsent_field hz (·.copy (4096 + die) w)).trans (copy_delCopy_self _ _ _)
    · exact unsent_field hz State.regs
    · exact unsent_field hz State.mem
  · have hgive : s.giveUp level w = s.dropAt level w := by
      unfold State.giveUp
      split
      · exact evictL1_of_valid hcopy hown
      · exact giveUpHigh_of_llc (by omega) (by omega)
    have hz := dropAt_uncached s level w
    refine ⟨s.dropAt level w, ?_, copy_dropAt_self fun d hd => ?_, uncached_field hz State.regs, uncached_field hz State.mem⟩
    · rw [exec_levelEvict (by omega), hgive]
      exact done_of_hole ((uncached_field hz State.hole).trans hhole)
    · obtain rfl := Option.some.inj (hcopy.symm.trans hd)
      exact hpend

end Sys2Proof.Machine
end
section
/-! Copies from local to local memory (08 R197, 03 R80): a command whose first sector changes whether its second may be written. -/

namespace Sys2Proof.Machine

/-! A word of a page table lies owned in a window, by its copy, though no window of the core covers its bytes. The first sector that the command writes makes it
a leaf that pins another context's page to the slot of the second sector, which is then refused (08 R166, cause 2). -/

/-- The copy: 16 bytes from 0x200 to 0xF8, in the sectors of 0xE0 and 0x100; its layout record at 0x10200. -/
def pinningCopy : CopyCmd := { ring := some (0, 5), active := true, src := 0x200, dst := 0xF8, layout := 0x10200, ctl := 3 }

/-- Its layout record: four blocks of one element of 4 bytes, in a row. -/
def pinningWord (i : Nat) : Word := if i = 0 then 2 else if i = 3 then 48 else 0
def pinningLayout : Layout := (layoutOf (joinWords ((List.range 8).map pinningWord)) 3).get!

/-- Context 1's page table at address 0: its first entry names itself as the next table, its second is word 2, in a window at 0xF8. Context 0's layout record is in
the cluster's L1. The bytes to copy, 0x43 the first, make word 2 a leaf for slot 0 of core 0. -/
def pinningState : State :=
  { copyCmds := [(77, pinningCopy)]
    ctxs := [(1, { ptroot := 0 })]
    mem := [(0, 1)]
    owners := [(0, [{ relcount := 0, mask := 4, agent := 0 }])]
    copies := (copyKey 0 2, { owned := true, win := some 0xF8 }) ::
      (List.range 8).map (fun i => (copyKey 0 (0x8080 + i), { val := pinningWord i })) ++ [(copyKey 4096 2, { owned := true })]
    tcs := [(2 ^ 20, [{ ctx := 0, base := 0x10000, log := 16, leaf := 0x2001F }])]
    scratch := (List.range 16).map (fun i => (0xF8 + i, 0)) ++ (0x200, 0x43) :: (List.range 15).map fun i => (0x201 + i, 0) }

/-- The cause with which a command's movement ends. -/
def Moved.cause : Moved → Option Nat
  | .ended _ n => some n
  | _ => none

theorem Moved.cause_eq_some {m : Moved} {n : Nat} (h : m.cause = some n) : ∃ s, m = .ended s n := by
  cases m with
  | ended s k => exact ⟨s, by rw [Option.some.inj h]⟩
  | on s => cases h
  | wait => cases h

/-- A command that does not move all its bytes does not complete. -/
theorem exec_copyComplete_of_cause {s : State} {id n : Nat} {c : CopyCmd} (h : tget? s.copyCmds id = some c) (hm : (s.runCopy id c).cause = some (n + 1)) :
    exec (.copyCommandComplete id) s = done s := by
  obtain ⟨s', hrun⟩ := Moved.cause_eq_some hm
  show execCopyCommandComplete id s = _
  unfold execCopyCommandComplete
  simp only [h, hrun, ite_self]

theorem pinningState_record : ∀ i < 8, pinningState.copyLoad pinningCopy (pinningCopy.layout / 4 + i) = (pinningState, .val (pinningWord i)) := by decide +kernel

theorem pinningState_allMoves : ((pinningState.copyMoves pinningCopy pinningLayout []).all fun m => match m.2, pinningState.copyLocal pinningCopy m.1 with
    | .inl _, .inl n => decide (n ≠ ringKey 0 5 + 28) | _, _ => false) = true := by decide +kernel

/-- Before the command goes on, every byte has come and has its place in the scratchpad, away from the ring entry. -/
theorem pinningState_moves : ∀ m ∈ pinningState.copyMoves pinningCopy pinningLayout [], ∃ b n, m.2 = .inl b ∧
    pinningState.copyLocal pinningCopy m.1 = .inl n ∧ n ≠ ringKey 0 5 + 28 := by
  intro m hm
  have h := List.all_eq_true.1 pinningState_allMoves m hm
  split at h
  · next b n hb hn => exact ⟨b, n, hb, hn, of_decide_eq_true h⟩
  · cases h

/-- The command ends with cause 2, and does not complete. -/
theorem pinningState_stays : exec (.copyCommandComplete 77) pinningState = .next pinningState :=
  (exec_copyComplete_of_cause (n := 1) (c := pinningCopy) rfl (by decide +kernel)).trans (done_of_hole rfl)

/-- Refutes O29: whether a local byte may be written depends on page tables, whose words may lie in scratchpads, so a sector that the command writes can make
the next one fail. -/
theorem not_copiesStartAndEnd : ¬ Obligations.CopiesStartAndEnd := by
  unfold Obligations.CopiesStartAndEnd
  intro h
  obtain ⟨-, -, -, -, -, -, hlocal⟩ := h pinningState 77 0 5 pinningCopy rfl rfl
  obtain ⟨r, hexec, hgone, -⟩ := hlocal pinningWord pinningLayout rfl rfl rfl rfl rfl rfl (by decide) (by decide) (by decide) (by decide) pinningState_record
    (by decide +kernel) (by decide +kernel) (by decide +kernel) (by decide) (by decide) pinningState_moves rfl rfl
  obtain rfl : pinningState = r := by
    rw [pinningState_stays] at hexec
    injection hexec
  rw [show tget? pinningState.copyCmds 77 = some pinningCopy from rfl] at hgone
  cases hgone

end Sys2Proof.Machine
end

section
/-! The function fields and extension words: what the decoder reads from the bits of each is what the encoder put there (05 R115, 06 R125 to R132). -/

namespace Sys2Proof

/-! ### Codes -/

theorem TrigKind.code_lt (m : TrigKind) : m.code < 8 := by cases m <;> decide
theorem Planes.code_lt (m : Planes) : m.code < 4 := by cases m <;> decide
theorem Sparsity.code_lt (m : Sparsity) : m.code < 4 := by cases m <;> decide

@[simp] theorem Fmt.ofCode_code (m : Fmt) : Fmt.ofCode m.code = some m := by cases m <;> rfl
@[simp] theorem Rm.ofCode_code (m : Rm) : Rm.ofCode m.code = some m := by cases m <;> rfl
@[simp] theorem Scope.ofCode_code (m : Scope) : Scope.ofCode m.code = some m := by cases m <;> rfl
@[simp] theorem Policy.ofCode_code (m : Policy) : Policy.ofCode m.code = some m := by cases m <;> rfl
@[simp] theorem Cond.ofCode_code (m : Cond) : Cond.ofCode m.code = some m := by cases m <;> rfl
@[simp] theorem FCond.ofCode_code (m : FCond) : FCond.ofCode m.code = some m := by cases m <;> rfl
@[simp] theorem PlogOp.ofCode_code (m : PlogOp) : PlogOp.ofCode m.code = some m := by cases m <;> rfl
@[simp] theorem ShflMode.ofCode_code (m : ShflMode) : ShflMode.ofCode m.code = some m := by cases m <;> rfl
@[simp] theorem VoteKind.ofCode_code (m : VoteKind) : VoteKind.ofCode m.code = some m := by cases m <;> rfl
@[simp] theorem RedOp.ofCode_code (m : RedOp) : RedOp.ofCode m.code = some m := by cases m <;> rfl
@[simp] theorem AtomOp.ofCode_code (m : AtomOp) : AtomOp.ofCode m.code = some m := by cases m <;> rfl
@[simp] theorem Level.ofCode_code (m : Level) : Level.ofCode m.code = some m := by cases m <;> rfl
@[simp] theorem TrigKind.ofCode_code (m : TrigKind) : TrigKind.ofCode m.code = some m := by cases m <;> rfl
@[simp] theorem Planes.ofCode_code (m : Planes) : Planes.ofCode m.code = some m := by cases m <;> rfl
@[simp] theorem Sparsity.ofCode_code (m : Sparsity) : Sparsity.ofCode m.code = some m := by cases m <;> rfl

/-! ### One field of a number -/

theorem testBit_of_div {x n : Nat} {b : Bool} (h : x / 2 ^ n % 2 = b.toNat) : x.testBit n = b := by
  rw [Nat.testBit_eq_decide_div_mod_eq, h]
  cases b <;> rfl

theorem ofNat_of_mod {n x : Nat} {v : BitVec n} (h : x % 2 ^ n = v.toNat) : BitVec.ofNat n x = v :=
  BitVec.eq_of_toNat_eq (by rw [BitVec.toNat_ofNat, h])

theorem ofNat_bits {n x h l : Nat} {v : BitVec n} (e : bits x h l = v.toNat) : BitVec.ofNat n (bits x h l) = v := by
  rw [e, BitVec.ofNat_toNat, BitVec.setWidth_eq]

/-! ### Function fields (06) -/

theorem intFn_intBits (f : IntFn) : intFn (intBits f) = some f := by
  have hf := f.fmt.code_lt
  have hn := f.sat.toNat_le
  have hs := f.sub.isLt
  have hfmt : bits (intBits f) 8 5 = f.fmt.code := by simp only [bits, intBits]; omega
  have hsat : (intBits f).testBit 4 = f.sat := testBit_of_div (by simp only [intBits]; omega)
  have hsub : BitVec.ofNat 4 (intBits f) = f.sub := ofNat_of_mod (by simp only [intBits]; omega)
  simp only [intFn, hfmt, hsat, hsub, Fmt.ofCode_code, Option.map_some]

theorem fltFn_fltBits (f : FltFn) : fltFn (fltBits f) = some f := by
  have hf := f.fmt.code_lt
  have hr := f.rm.code_lt
  have hn := f.packed.toNat_le
  have hlow : bits (fltBits f) 1 0 = 0 := by simp only [bits, fltBits]; omega
  have hfmt : bits (fltBits f) 8 5 = f.fmt.code := by simp only [bits, fltBits]; omega
  have hrm : bits (fltBits f) 4 3 = f.rm.code := by simp only [bits, fltBits]; omega
  have hpacked : (fltBits f).testBit 2 = f.packed := testBit_of_div (by simp only [fltBits]; omega)
  simp only [fltFn, hlow, hfmt, hrm, hpacked, if_true, Fmt.ofCode_code, Rm.ofCode_code, Option.bind_some, Option.map_some]

/-- CVTPK's function field has bit 2 clear: it is not packed. -/
theorem fltBits_low {f : FltFn} (h : f.packed = false) : bits (fltBits f) 2 0 = 0 := by
  simp only [bits, fltBits, h, Bool.toNat_false]; omega

theorem fcmpFn_fnBits (o : Ops) (f : FcmpFn) : fcmpFn (Instr.fcmp o f).fnBits = some f := by
  have hf := f.fmt.code_lt
  have hc := f.cond.code_lt
  have hlow : bits (Instr.fcmp o f).fnBits 1 0 = 0 := by simp only [bits, Instr.fnBits]; omega
  have hfmt : bits (Instr.fcmp o f).fnBits 8 5 = f.fmt.code := by simp only [bits, Instr.fnBits]; omega
  have hcond : bits (Instr.fcmp o f).fnBits 4 2 = f.cond.code := by simp only [bits, Instr.fnBits]; omega
  simp only [fcmpFn, hlow, hfmt, hcond, if_true, Fmt.ofCode_code, FCond.ofCode_code, Option.bind_some, Option.map_some]

theorem shflFn_fnBits (o : Ops) {f : ShflFn} (h : f.seg ≠ 7) : shflFn (Instr.shfl o f).fnBits = some f := by
  have hm := f.mode.code_lt
  have hw := f.wide.toNat_le
  have hs : f.seg.toNat < 7 := by have := f.seg.isLt; have : f.seg.toNat ≠ 7 := fun e => h (BitVec.eq_of_toNat_eq e); omega
  have hlow : bits (Instr.shfl o f).fnBits 2 0 = 0 := by simp only [bits, Instr.fnBits]; omega
  have hseg : bits (Instr.shfl o f).fnBits 6 4 = f.seg.toNat := by simp only [bits, Instr.fnBits]; omega
  have hmode : bits (Instr.shfl o f).fnBits 8 7 = f.mode.code := by simp only [bits, Instr.fnBits]; omega
  have hwide : (Instr.shfl o f).fnBits.testBit 3 = f.wide := testBit_of_div (by simp only [Instr.fnBits]; omega)
  have hle : bits (Instr.shfl o f).fnBits 6 4 < 7 := hseg ▸ hs
  simp only [shflFn, hlow, hle, hmode, hwide, ofNat_bits hseg, and_self, if_true, ShflMode.ofCode_code, Option.map_some]

theorem redFn_redBits (f : RedFn) : redFn (f.fmt.code * 32 + f.op.code * 4 + f.rm.code) = some f := by
  have hf := f.fmt.code_lt
  have ho := f.op.code_lt
  have hr := f.rm.code_lt
  have hfmt : bits (f.fmt.code * 32 + f.op.code * 4 + f.rm.code) 8 5 = f.fmt.code := by simp only [bits]; omega
  have hop : bits (f.fmt.code * 32 + f.op.code * 4 + f.rm.code) 4 2 = f.op.code := by simp only [bits]; omega
  have hrm : bits (f.fmt.code * 32 + f.op.code * 4 + f.rm.code) 1 0 = f.rm.code := by simp only [bits]; omega
  simp only [redFn, hfmt, hop, hrm, Fmt.ofCode_code, RedOp.ofCode_code, Rm.ofCode_code, Option.bind_some, Option.map_some]

theorem cvtFn_fnBits (o : Ops) (f : CvtFn) : cvtFn (Instr.cvt o f).fnBits f.src.code = some f := by
  have ht := f.tgt.code_lt
  have hs := f.src.code_lt
  have hr := f.rm.code_lt
  have hn := f.sat.toNat_le
  have hlow : bits (Instr.cvt o f).fnBits 1 0 = 0 := by simp only [bits, Instr.fnBits]; omega
  have htgt : bits (Instr.cvt o f).fnBits 8 5 = f.tgt.code := by simp only [bits, Instr.fnBits]; omega
  have hsrc : bits f.src.code 3 0 = f.src.code := by simp only [bits]; omega
  have hrm : bits (Instr.cvt o f).fnBits 4 3 = f.rm.code := by simp only [bits, Instr.fnBits]; omega
  have hsat : (Instr.cvt o f).fnBits.testBit 2 = f.sat := testBit_of_div (by simp only [Instr.fnBits]; omega)
  simp only [cvtFn, hlow, htgt, hsrc, hrm, hsat, if_true, Fmt.ofCode_code, Rm.ofCode_code, Option.bind_some, Option.map_some]

/-- A number's two top bits over seven zero ones: the field of a scope, a level or a vote's kind. -/
theorem topBits_fields {n : Nat} (h : n < 4) : bits (n * 128) 6 0 = 0 ∧ bits (n * 128) 8 7 = n := by
  simp only [bits]; omega

theorem scopeFn_code (s : Scope) : scopeFn (s.code * 128) = some s := by
  obtain ⟨hlow, htop⟩ := topBits_fields s.code_lt
  simp only [scopeFn, hlow, htop, if_true, Scope.ofCode_code]

theorem levelFn_code (l : Level) : levelFn (l.code * 128) = some l := by
  obtain ⟨hlow, htop⟩ := topBits_fields l.code_lt
  simp only [levelFn, hlow, htop, if_true, Level.ofCode_code]

/-! ### Memory, atomic, matrix and triggered extension words (05 R115) -/

/-- The fields of a memory extension word that carries offset v. -/
theorem memExt_fields (s : Scope) (p : Policy) (z : Fmt) {v : Nat} (hv : v < 2 ^ 48) :
    bits (memExt s p z + v) 63 62 = s.code ∧ bits (memExt s p z + v) 61 59 = p.code ∧ bits (memExt s p z + v) 58 55 = z.code ∧
      bits (memExt s p z + v) 54 48 = 0 := by
  have hs := s.code_lt
  have hp := p.code_lt
  have hz := z.code_lt
  simp only [bits, memExt]; omega

/-- The function field of a load, a store, a prefetch or an atomic in its short forms. -/
theorem sizeBits_fields {s p z : Nat} (hs : s < 4) (hp : p < 8) (hz : z < 16) :
    bits (s * 128 + p * 16 + z) 8 7 = s ∧ bits (s * 128 + p * 16 + z) 6 4 = p ∧ bits (s * 128 + p * 16 + z) 3 0 = z := by
  simp only [bits]; omega

theorem memFn_wide (f : MemFn) {v : Nat} (hv : v < 2 ^ 48) : memFn true 0 (memExt f.scope f.policy f.size + v) = some f := by
  obtain ⟨hs, hp, hz, h0⟩ := memExt_fields f.scope f.policy f.size hv
  simp only [memFn, hs, hp, hz, h0, and_self, if_true, Scope.ofCode_code, Policy.ofCode_code, Fmt.ofCode_code, Option.bind_some, Option.map_some]

theorem memFn_short (f : MemFn) (ext : Nat) : memFn false (f.scope.code * 128 + f.policy.code * 16 + f.size.code) ext = some f := by
  obtain ⟨hs, hp, hz⟩ := sizeBits_fields f.scope.code_lt f.policy.code_lt f.size.code_lt
  simp only [memFn, hs, hp, hz, Bool.false_eq_true, if_false, Scope.ofCode_code, Policy.ofCode_code, Fmt.ofCode_code, Option.bind_some, Option.map_some]

theorem atomFn_wide (f : AtomFn) {v : Nat} (hv : v < 2 ^ 48) : atomFn true (f.op.code * 16) (memExt f.scope .all f.size + v) = some f := by
  obtain ⟨hs, hp, hz, h0⟩ := memExt_fields f.scope .all f.size hv
  have ho := f.op.code_lt
  have htop : bits (f.op.code * 16) 8 7 = 0 := by simp only [bits]; omega
  have hmid : bits (f.op.code * 16) 6 4 = f.op.code := by simp only [bits]; omega
  have hlow : bits (f.op.code * 16) 3 0 = 0 := by simp only [bits]; omega
  simp only [atomFn, hs, hp, hz, h0, htop, hmid, hlow, Policy.code, and_self, if_true, Scope.ofCode_code, AtomOp.ofCode_code, Fmt.ofCode_code,
    Option.bind_some, Option.map_some]

theorem atomFn_short (f : AtomFn) (ext : Nat) : atomFn false (f.scope.code * 128 + f.op.code * 16 + f.size.code) ext = some f := by
  obtain ⟨hs, hp, hz⟩ := sizeBits_fields f.scope.code_lt f.op.code_lt f.size.code_lt
  simp only [atomFn, hs, hp, hz, Bool.false_eq_true, if_false, Scope.ofCode_code, AtomOp.ofCode_code, Fmt.ofCode_code, Option.bind_some, Option.map_some]

theorem matFn_matExt (f : MatFn) : matFn (matExt f) = some f := by
  have hacc := f.acc.isLt
  have hp := f.planes.code_lt
  have hs := f.structure'.code_lt
  have hf := f.fmt.code_lt
  have hb := f.bias.toNat_le
  have hr := f.relu.toNat_le
  have hn := f.rows.isLt
  have hoff := f.offset.isLt
  have h0 : bits (matExt f) 51 48 = 0 := by simp only [bits, matExt]; omega
  have hplanes : bits (matExt f) 61 60 = f.planes.code := by simp only [bits, matExt]; omega
  have hstructure : bits (matExt f) 59 58 = f.structure'.code := by simp only [bits, matExt]; omega
  have hfmt : bits (matExt f) 57 54 = f.fmt.code := by simp only [bits, matExt]; omega
  have hbias : (matExt f).testBit 53 = f.bias := testBit_of_div (by simp only [matExt]; omega)
  have hrelu : (matExt f).testBit 52 = f.relu := testBit_of_div (by simp only [matExt]; omega)
  have ha : bits (matExt f) 63 62 = f.acc.toNat := by simp only [bits, matExt]; omega
  have hrows : bits (matExt f) 47 32 = f.rows.toNat := by simp only [bits, matExt]; omega
  have hoffset : bits (matExt f) 31 0 = f.offset.toNat := by simp only [bits, matExt]; omega
  simp only [matFn, h0, hplanes, hstructure, hfmt, hbias, hrelu, ofNat_bits ha, ofNat_bits hrows, ofNat_bits hoffset, if_true, Planes.ofCode_code,
    Sparsity.ofCode_code, Fmt.ofCode_code, Option.bind_some, Option.map_some]

theorem matExt_lt (f : MatFn) : matExt f < 2 ^ 64 := by
  have hacc := f.acc.isLt
  have hp := f.planes.code_lt
  have hs := f.structure'.code_lt
  have hf := f.fmt.code_lt
  have hb := f.bias.toNat_le
  have hr := f.relu.toNat_le
  have hn := f.rows.isLt
  have hoff := f.offset.isLt
  simp only [matExt]; omega

theorem trigFn_trigExt {f : TrigFn} (h : (f.cen || f.done = 0) = true) : trigFn (trigExt f) = some f := by
  have hk := f.kind.code_lt
  have hs := f.scope.code_lt
  have hc := f.cen.toNat_le
  have ht := f.trigger.isLt
  have hd := f.done.isLt
  have hn := f.threshold.isLt
  have h0 : bits (trigExt f) 57 56 = 0 := by simp only [bits, trigExt]; omega
  have hkind : bits (trigExt f) 63 61 = f.kind.code := by simp only [bits, trigExt]; omega
  have hscope : bits (trigExt f) 60 59 = f.scope.code := by simp only [bits, trigExt]; omega
  have hcen : (trigExt f).testBit 58 = f.cen := testBit_of_div (by simp only [trigExt]; omega)
  have htrigger : bits (trigExt f) 55 44 = f.trigger.toNat := by simp only [bits, trigExt]; omega
  have hdone : bits (trigExt f) 43 32 = f.done.toNat := by simp only [bits, trigExt]; omega
  have hthreshold : bits (trigExt f) 31 0 = f.threshold.toNat := by simp only [bits, trigExt]; omega
  have hzero : f.cen = true ∨ bits (trigExt f) 43 32 = 0 := by
    rw [hdone]
    exact (Bool.or_eq_true _ _ ▸ h).imp_right fun e => by rw [of_decide_eq_true e]; rfl
  simp only [trigFn, h0, hkind, hscope, hcen, hzero, ofNat_bits htrigger, ofNat_bits hdone, ofNat_bits hthreshold, and_self, if_true,
    TrigKind.ofCode_code, Scope.ofCode_code, Option.bind_some, Option.map_some]

theorem trigExt_lt (f : TrigFn) : trigExt f < 2 ^ 64 := by
  have hk := f.kind.code_lt
  have hs := f.scope.code_lt
  have hc := f.cen.toNat_le
  have ht := f.trigger.isLt
  have hd := f.done.isLt
  have hn := f.threshold.isLt
  simp only [trigExt]; omega

end Sys2Proof
end

section
/-! The forms of an instruction, and what the decoder makes of its function field in each (05 R112 to R115, 06 R123 to R133). -/

namespace Sys2Proof

/-! ### Forms (05 R112, R114, R115) -/

/-- The bits above the base word, where ext is the extension word without immediate and offset. -/
def Ops.upper (o : Ops) (ext : Nat) : Nat :=
  match o.b with
  | .imm32 v => v.toNat
  | .imm61 v => 2 ^ 63 + v.toNat
  | .off48 v => ext + v.toNat
  | .fldOff _ v => ext + v.toNat
  | .fld _ => if o.h.long then ext else 0

/-- What stands in place of the code of B, or beside it: an immediate or an offset. -/
def Src.placed : Src → Option Src
  | .fld _ => none
  | .fldOff _ v => some (.off48 v)
  | s => some s

/-- The code in the field of B. -/
def Src.code : Src → Nat
  | .fld f => f.code
  | .fldOff f _ => f.code
  | _ => 324

/-- The operands with which the decoder checks function and immediate, before it has read the operand fields. -/
def Ops.bare (o : Ops) : Ops := ⟨o.h, .zero, .zero, o.b.placed.getD (.fld .zero), .zero⟩

/-- The forms that a row of the opcode map admits: source B and the long bit. -/
inductive Row.Form (r : Row) (op : Nat) : Src → Bool → Prop
  | short (f) : r.l64 = true → Form r op (.fld f) false
  | long (f) : r.l128 = true → r.ext ≠ .memory → (r.l64 = true ∨ r.imm = false) → Form r op (.fld f) true
  | imm32 (v) : r.l96 = true → (r.imm = true ∨ op = 0xC0 ∧ v = 0) → Form r op (.imm32 v) false
  | imm61 (v) : r.l128 = true → r.imm = true → r.ext = .generic → Form r op (.imm61 v) false
  | off48 (v) : r.l128 = true → r.ext = .memory → r.imm = true → Form r op (.off48 v) false
  | fldOff (f v) : r.l128 = true → r.ext = .memory → r.imm = false → Form r op (.fldOff f v) false

/-- An instruction's row is its opcode's, but for VOTE's D and MDRN's B. -/
theorem Instr.row_of_opcode {i : Instr} {op : Nat} {r : Row} (hop : i.opcode = some op) (hr : rowOf op = some r) :
    ∃ d b, i.row = some { r with d := d, b := b } ∧ (d = r.d ∨ d = .reg) ∧ (b = r.b ∨ r.b = .reg ∧ b = .none) := by
  rw [Instr.row, hop, Option.bind_some, hr, Option.map_some]
  split
  · exact ⟨_, _, rfl, .inr rfl, .inl rfl⟩
  · split
    · exact ⟨_, _, rfl, .inl rfl, .inl rfl⟩
    · cases hop; cases hr
      exact ⟨_, _, rfl, .inl rfl, .inr ⟨rfl, rfl⟩⟩
  · exact ⟨_, _, rfl, .inl rfl, .inl rfl⟩

theorem Instr.form {i : Instr} {o : Ops} {op : Nat} {r : Row} (hop : i.opcode = some op) (ho : i.ops = some o) (hr : rowOf op = some r)
    (hl : i.lenOk = true) (hi : i.immOk = true) : r.Form op o.b o.h.long := by
  obtain ⟨d, b, hrow, -, -⟩ := Instr.row_of_opcode hop hr
  unfold Instr.lenOk at hl
  rw [hrow, ho] at hl
  rcases o with ⟨⟨g, gn, ch, wb, lt, long⟩, od, oa, ob, oc⟩
  cases ob with
  | fld f =>
    cases long with
    | false =>
      simp only [Ops.lenCode, Ops.isWide, Bool.false_eq_true, if_false, Bool.and_eq_true] at hl
      exact .short f hl.1
    | true =>
      simp only [Ops.lenCode, Ops.isWide, if_true, Bool.true_and, Bool.not_true, Bool.false_or, Bool.and_eq_true, Bool.or_eq_true, Bool.not_eq_true',
        decide_eq_false_iff_not] at hl
      obtain ⟨h128, hext, himm⟩ := hl
      exact .long f h128 hext himm
  | imm32 v =>
    simp only [Ops.lenCode, Bool.and_eq_true, Bool.not_eq_true', Bool.or_eq_true] at hl
    obtain ⟨h96, hlong, himm⟩ := hl
    subst hlong
    refine .imm32 v h96 (himm.imp_right fun hnop => ?_)
    split at hnop
    · cases hop; cases ho
      simp only [Instr.immOk, Bool.and_eq_true, decide_eq_true_eq] at hi
      exact ⟨rfl, hi.1.1.1.1.1⟩
    · cases hnop
  | imm61 v =>
    simp only [Ops.lenCode, Ops.isWide, if_true, Bool.and_eq_true, Bool.not_eq_true', decide_eq_true_eq] at hl
    obtain ⟨h128, ⟨hlong, himm⟩, hext⟩ := hl
    subst hlong
    exact .imm61 v h128 himm hext
  | off48 v =>
    simp only [Ops.lenCode, Ops.isWide, if_true, Bool.and_eq_true, Bool.not_eq_true', decide_eq_true_eq] at hl
    obtain ⟨h128, ⟨hlong, hext⟩, himm⟩ := hl
    subst hlong
    exact .off48 v h128 hext himm
  | fldOff f v =>
    simp only [Ops.lenCode, Ops.isWide, if_true, Bool.and_eq_true, Bool.not_eq_true', decide_eq_true_eq] at hl
    obtain ⟨h128, ⟨hlong, hext⟩, himm⟩ := hl
    subst hlong
    exact .fldOff f v h128 hext himm

/-- What the extension word holds beside an immediate or an offset, in each layout (05 R114, R115). -/
def ExtKind.Fits : ExtKind → Nat → Prop
  | .generic, e => e = 0
  | .memory, e => e < 2 ^ 64 ∧ e % 2 ^ 48 = 0
  | .matrix, e => e < 2 ^ 64
  | .trig, e => e < 2 ^ 64

theorem memExt_fits (s : Scope) (p : Policy) (z : Fmt) : ExtKind.Fits .memory (memExt s p z) := by
  have hs := s.code_lt
  have hp := p.code_lt
  have hz := z.code_lt
  simp only [ExtKind.Fits, memExt]; omega

/-- A memory instruction's form is short, or 128 bits with an offset in place of B. -/
theorem Row.Form.wide_memory {r : Row} {op : Nat} {o : Ops} (h : r.Form op o.b o.h.long) (hm : r.ext = .memory) (hi : r.imm = true) (e : Nat) :
    o.isWide = false ∨ o.isWide = true ∧ ∃ v < 2 ^ 48, o.upper e = e + v := by
  rcases o with ⟨⟨g, gn, ch, wb, lt, long⟩, od, oa, ob, oc⟩
  cases h with
  | short | imm32 => exact .inl rfl
  | long _ _ hne => exact absurd hm hne
  | imm61 _ _ _ hg => rw [hm] at hg; cases hg
  | off48 v => exact .inr ⟨rfl, _, v.isLt, rfl⟩
  | fldOff _ _ _ _ hni => rw [hi] at hni; cases hni

/-- A matrix instruction and TRIGPOST have the long form only. -/
theorem Row.Form.upper_of_long {r : Row} {op : Nat} {o : Ops} (h : r.Form op o.b o.h.long) (h64 : r.l64 = false) (h96 : r.l96 = false) (hi : r.imm = false)
    (hm : r.ext ≠ .memory) (e : Nat) : o.upper e = e := by
  rcases o with ⟨⟨g, gn, ch, wb, lt, long⟩, od, oa, ob, oc⟩
  cases h with
  | short _ h => rw [h64] at h; cases h
  | long => rfl
  | imm32 _ h => rw [h96] at h; cases h
  | imm61 _ _ h => rw [hi] at h; cases h
  | off48 _ _ h => exact absurd h hm
  | fldOff _ _ _ h => exact absurd h hm

theorem memFn_of_form {r : Row} {op : Nat} {o : Ops} (h : r.Form op o.b o.h.long) (hm : r.ext = .memory) (hi : r.imm = true) (f : MemFn) :
    memFn o.isWide (if o.isWide then 0 else f.scope.code * 128 + f.policy.code * 16 + f.size.code) (o.upper (memExt f.scope f.policy f.size)) = some f := by
  rcases h.wide_memory hm hi (memExt f.scope f.policy f.size) with hw | ⟨hw, v, hv, hu⟩
  · rw [hw, if_neg Bool.false_ne_true, memFn_short]
  · rw [hw, hu, if_pos rfl, memFn_wide f hv]

theorem atomFn_of_form {r : Row} {op : Nat} {o : Ops} (h : r.Form op o.b o.h.long) (hm : r.ext = .memory) (hi : r.imm = true) (f : AtomFn) :
    atomFn o.isWide (if o.isWide then f.op.code * 16 else f.scope.code * 128 + f.op.code * 16 + f.size.code) (o.upper (memExt f.scope .all f.size)) = some f := by
  rcases h.wide_memory hm hi (memExt f.scope .all f.size) with hw | ⟨hw, v, hv, hu⟩
  · rw [hw, if_neg Bool.false_ne_true, atomFn_short]
  · rw [hw, hu, if_pos rfl, atomFn_wide f hv]

/-! ### Function fields that the decoder tests for zeros -/

theorem wmapExt_of_form {r : Row} {op : Nat} {o : Ops} (h : r.Form op o.b o.h.long) (hm : r.ext = .memory) (hi : r.imm = false) :
    o.isWide = false ∨ bits (o.upper 0) 63 48 = 0 := by
  rcases o with ⟨⟨g, gn, ch, wb, lt, long⟩, od, oa, ob, oc⟩
  cases h with
  | short | imm32 => exact .inl rfl
  | long _ _ hne => exact absurd hm hne
  | imm61 _ _ _ hg => rw [hm] at hg; cases hg
  | off48 _ _ _ h => rw [hi] at h; cases h
  | fldOff f v =>
    have hv := v.isLt
    exact .inr (by simp only [Ops.upper, bits]; omega)

theorem matFn_of_form {r : Row} {op : Nat} {o : Ops} (h : r.Form op o.b o.h.long) (h64 : r.l64 = false) (h96 : r.l96 = false) (hi : r.imm = false)
    (hm : r.ext ≠ .memory) (f : MatFn) : matFn (o.upper (matExt f)) = some f := by
  rw [h.upper_of_long h64 h96 hi hm, matFn_matExt]

theorem trigFn_of_form {r : Row} {op : Nat} {o : Ops} (h : r.Form op o.b o.h.long) (h64 : r.l64 = false) (h96 : r.l96 = false) (hi : r.imm = false)
    (hm : r.ext ≠ .memory) {f : TrigFn} (hf : (f.cen || f.done = 0) = true) : trigFn (o.upper (trigExt f)) = some f := by
  rw [h.upper_of_long h64 h96 hi hm, trigFn_trigExt hf]

theorem buildOp_cmp {b e : Nat} {w : Bool} (f : IntFn) {c : Cond} (h : f.sub = BitVec.ofNat 4 c.code) :
    buildOp 0x19 (intBits { f with sub := BitVec.ofNat 4 c.code }) b e w = some fun o => .cmp o f c := by
  have hc := c.code_lt
  have hsub : f.sub.toNat = c.code := by rw [h, BitVec.toNat_ofNat]; omega
  show (intFn (intBits { f with sub := BitVec.ofNat 4 c.code })).bind (fun f => (Cond.ofCode f.sub.toNat).map fun c o => Instr.cmp o f c) = _
  rw [← h, intFn_intBits, Option.bind_some, hsub, Cond.ofCode_code, Option.map_some]

theorem buildOp_plog {b e : Nat} {w : Bool} (p : PlogOp) : buildOp 0x1D p.code b e w = some fun o => .plog o p := by
  cases p <;> rfl

theorem buildOp_bcast {b e : Nat} {w : Bool} (wide : Bool) : buildOp 0x41 (wide.toNat * 8) b e w = some fun o => .bcast o wide := by
  cases wide <;> rfl

theorem buildOp_vote {b e : Nat} {w : Bool} (kind : VoteKind) : buildOp 0x42 (kind.code * 128) b e w = some fun o => .vote o kind := by
  cases kind <;> rfl

theorem packed_of_fltOk {f : FltFn} {m n : Bool} (h : fltOk f m n false = true) : f.packed = false := by
  simp only [fltOk, Bool.and_eq_true, Bool.false_and, Bool.or_false, Bool.not_eq_true'] at h
  exact h.2

theorem buildOp_cvtpk {b e : Nat} {w : Bool} {f : FltFn} (h : f.packed = false) : buildOp 0x55 (fltBits f) b e w = some fun o => .cvtpk o f :=
  (if_pos (fltBits_low h)).trans (congrArg (Option.map _) (fltFn_fltBits f))

theorem buildOp_macc {b e : Nat} {w : Bool} (isNew : Bool) {f : MatFn} (h : matFn e = some f) :
    buildOp 0xA3 isNew.toNat b e w = some fun o => .macc o isNew f := by
  cases isNew <;> exact congrArg (Option.map _) h

theorem buildOp_lpbeg {b e : Nat} {w : Bool} (f : LpbegFn) :
    buildOp 0xC8 (f.len.toNat * 32 + f.rotate.toNat * 16 + f.stages.toNat) b e w = some fun o => .lpbeg o f := by
  have hl := f.len.isLt
  have hr := f.rotate.toNat_le
  have hs := f.stages.isLt
  generalize hx : f.len.toNat * 32 + f.rotate.toNat * 16 + f.stages.toNat = x
  have htop : bits x 8 7 = 0 := by simp only [bits]; omega
  have hlen : bits x 6 5 = f.len.toNat := by simp only [bits]; omega
  have hrotate : x.testBit 4 = f.rotate := testBit_of_div (by omega)
  have hstages : bits x 3 0 = f.stages.toNat := by simp only [bits]; omega
  refine (if_pos htop).trans ?_
  rw [ofNat_bits hlen, hrotate, ofNat_bits hstages]

theorem buildOp_lpbrk {b e : Nat} {w : Bool} (d : BitVec 2) : buildOp 0xC9 d.toNat b e w = some fun o => .lpbrk o d := by
  have hd := d.isLt
  have htop : bits d.toNat 8 2 = 0 := by simp only [bits]; omega
  refine (if_pos htop).trans ?_
  rw [BitVec.ofNat_toNat, BitVec.setWidth_eq]

/-! ### What the decoder rebuilds -/

/-- mk is what the decoder makes of the opcode, the function field and the extension word of i; r is the row of the opcode. -/
structure Rebuilt (i : Instr) (o : Ops) (op : Nat) (r : Row) (mk : Ops → Instr) : Prop where
  build : buildOp op i.fnBits (i.bCode o) (o.upper i.extBits) o.isWide = some mk
  fn_lt : i.fnBits < 512
  self : mk o = i := by rfl
  fnOk : (mk o.bare).fnOk = i.fnOk := by rfl
  immOk : (mk o.bare).immOk = i.immOk := by rfl
  row : (mk o.bare).row = i.row := by rfl
  op_lt : op < 256 := by decide
  ext : r.ext.Fits i.extBits := by rfl
  kinds : r.d ≠ .konst ∧ r.a ≠ .konst ∧ r.c ≠ .konst := by decide
  bCode : r.b ≠ .konst ∧ i.bCode o = o.b.code ∨ r.b = .konst ∧ r.l96 = false ∧ r.l128 = false ∧ i.bCode o < 16 := by exact .inl ⟨by decide, rfl⟩

theorem Rebuilt.exists_mk {i : Instr} {o : Ops} {op : Nat} {r : Row} (hop : i.opcode = some op) (ho : i.ops = some o) (hr : rowOf op = some r)
    (hform : r.Form op o.b o.h.long) (hf : i.fnOk = true) : ∃ mk, Rebuilt i o op r mk := by
  cases i with
  | add o f | sub o f | mul o f | mulhi o f | mad o f | div o f | rem o f | neg o f | abs o f | min o f | max o f | and o f | or o f | xor o f | andn o f
  | shl o f | shr o f | rol o f | popc o f | clz o f | ctz o f | brev o f | bfx o f | bfi o f | sel o f | mov o f | lea o f =>
    cases hop; cases ho; cases hr
    exact ⟨_, { build := congrArg (Option.map _) (intFn_intBits f), fn_lt := intBits_lt f }⟩
  | cmp o f c =>
    cases hop; cases ho; cases hr
    exact ⟨_, { build := buildOp_cmp f (of_decide_eq_true (Bool.and_eq_true _ _ ▸ hf).2), fn_lt := intBits_lt _ }⟩
  | plog o p =>
    cases hop; cases ho; cases hr
    exact ⟨_, { build := buildOp_plog p, fn_lt := (Laws.Encoding.plog o p).2.2 }⟩
  | fadd o f | fsub o f | fmul o f | ffma o f | fmin o f | fmax o f | fcpsgn o f | fdiv o f =>
    cases hop; cases ho; cases hr
    exact ⟨_, { build := congrArg (Option.map _) (fltFn_fltBits f), fn_lt := fltBits_lt f
                immOk := by rcases o with ⟨_, _, _, _ | _ | _ | _ | _, _⟩ <;> rfl }⟩
  | fabs o f | fneg o f | fsqrt o f | frcp o f | frsq o f | fexp2 o f | flog2 o f | fsin o f | fcos o f | ftanh o f | frint o f | fclass o f | fscale o f =>
    cases hop; cases ho; cases hr
    exact ⟨_, { build := congrArg (Option.map _) (fltFn_fltBits f), fn_lt := fltBits_lt f }⟩
  | fcmp o f =>
    cases hop; cases ho; cases hr
    exact ⟨_, { build := congrArg (Option.map _) (fcmpFn_fnBits o f), fn_lt := (Laws.Encoding.fcmp o f).2.2
                immOk := by rcases o with ⟨_, _, _, _ | _ | _ | _ | _, _⟩ <;> rfl }⟩
  | shfl o f =>
    cases hop; cases ho; cases hr
    exact ⟨_, { build := congrArg (Option.map _) (shflFn_fnBits o (of_decide_eq_true hf)), fn_lt := (Laws.Encoding.shfl o f).2.2 }⟩
  | bcast o wide =>
    cases hop; cases ho; cases hr
    exact ⟨_, { build := buildOp_bcast wide, fn_lt := (Laws.Encoding.bcast o wide).2.2 }⟩
  | vote o kind =>
    cases hop; cases ho; cases hr
    exact ⟨_, { build := buildOp_vote kind, fn_lt := (Laws.Encoding.vote o kind).2.2, row := by cases kind <;> rfl }⟩
  | sred o f | sscan o f =>
    cases hop; cases ho; cases hr
    exact ⟨_, { build := congrArg (Option.map _) (redFn_redBits f), fn_lt := redBits_lt f }⟩
  | cvt o f =>
    cases hop; cases ho; cases hr
    exact ⟨_, { build := congrArg (Option.map _) (cvtFn_fnBits o f), fn_lt := (Laws.Encoding.cvt o f).2.2, bCode := .inr ⟨rfl, rfl, rfl, f.src.code_lt⟩ }⟩
  | cvtpk o f =>
    cases hop; cases ho; cases hr
    exact ⟨_, { build := buildOp_cvtpk (packed_of_fltOk hf), fn_lt := fltBits_lt f }⟩
  | ld o f | st o f | stRel o f | ldl o f | stl o f | pref o f =>
    cases hop; cases ho; cases hr
    exact ⟨_, { build := congrArg (Option.map _) (memFn_of_form hform rfl rfl f), fn_lt := memBits_lt o f, ext := memExt_fits _ _ _ }⟩
  | atom o f | atoml o f | atoms o f =>
    cases hop; cases ho; cases hr
    exact ⟨_, { build := congrArg (Option.map _) (atomFn_of_form hform rfl rfl f), fn_lt := atomBits_lt o f, ext := memExt_fits _ _ _ }⟩
  | acq o s | rel o s | fence o s | tcadd o s =>
    cases hop; cases ho; cases hr
    exact ⟨_, { build := congrArg (Option.map _) (scopeFn_code s), fn_lt := (Laws.Encoding.acq o s).2.2 }⟩
  | barinit o l | bararv o l | barwait o l | barsync o l =>
    cases hop; cases ho; cases hr
    exact ⟨_, { build := congrArg (Option.map _) (levelFn_code l), fn_lt := (Laws.Encoding.barinit o l).2.2 }⟩
  | wmap o =>
    cases hop; cases ho; cases hr
    exact ⟨_, { build := if_pos ⟨rfl, wmapExt_of_form hform rfl rfl⟩, fn_lt := Nat.zero_lt_succ 511, ext := ⟨Nat.two_pow_pos 64, rfl⟩ }⟩
  | mald o f | mwld o f | mstrm o f | mdrn o f | mzero o f | mwait o f =>
    cases hop; cases ho; cases hr
    exact ⟨_, { build := congrArg (Option.map _) (matFn_of_form hform rfl rfl rfl (by decide) f), fn_lt := Nat.zero_lt_succ 511, ext := matExt_lt f }⟩
  | macc o isNew f =>
    cases hop; cases ho; cases hr
    exact ⟨_, { build := buildOp_macc isNew (matFn_of_form hform rfl rfl rfl (by decide) f), fn_lt := (Laws.Encoding.macc o isNew f).2.2, ext := matExt_lt f }⟩
  | trigpost o f =>
    cases hop; cases ho; cases hr
    exact ⟨_, { build := congrArg (Option.map _) (trigFn_of_form hform rfl rfl rfl (by decide) hf), fn_lt := Nat.zero_lt_succ 511, ext := trigExt_lt f }⟩
  | lpbeg o f =>
    cases hop; cases ho; cases hr
    exact ⟨_, { build := buildOp_lpbeg f, fn_lt := (Laws.Encoding.lpbeg o f).2.2
                immOk := by rcases o with ⟨_, _, _, _ | _ | _ | _ | _, _⟩ <;> rfl }⟩
  | lpbrk o d =>
    cases hop; cases ho; cases hr
    exact ⟨_, { build := buildOp_lpbrk d, fn_lt := (Laws.Encoding.lpbrk o d).2.2 }⟩
  | nop o | bra o | call o =>
    cases hop; cases ho; cases hr
    exact ⟨_, { build := rfl, fn_lt := Nat.zero_lt_succ 511, immOk := by rcases o with ⟨_, _, _, _ | _ | _ | _ | _, _⟩ <;> rfl }⟩
  | region o | wunmap o | wfill o | wdrain o | wstat o | qcfg o | qpush o | qpop o | copy o | cbseal o | cbwait o | cbpoll o | mqsc o | mrmap o | brx o
  | callx o | ret o | exit o | yield o | lpsave o | lprest o | tcrd o | tcwait o | tcset o | trigcan o | trigprb o | launch o | tready o | tdec o | trap o
  | eret o | bkpt o | sysrd o | syswr o | shootdn o | cntcfg o | cntrd o =>
    cases hop; cases ho; cases hr
    exact ⟨_, { build := rfl, fn_lt := Nat.zero_lt_succ 511 }⟩
  | _ => cases ho

end Sys2Proof
end

section
/-! Decoding the encoding (05 R104 to R116): where each field lies in the word, and that the decoder's checks pass on it. -/

namespace Sys2Proof

/-! ### Where the fields lie (05 R104, R108) -/

theorem Fld.code_lt (f : Fld) : f.code < 512 := by
  cases f with
  | v n => have := n.isLt; simp only [Fld.code]; omega
  | k n => have := n.isLt; simp only [Fld.code]; omega
  | b n => have := n.isLt; simp only [Fld.code]; omega
  | zero => decide
  | pred n => have := n.isLt; simp only [Fld.code]; omega

theorem Src.code_lt (b : Src) : b.code < 512 := by
  cases b with
  | fld f => exact f.code_lt
  | fldOff f _ => exact f.code_lt
  | imm32 | imm61 | off48 => show 324 < 512; decide

theorem Ops.lenCode_lt (o : Ops) : o.lenCode < 3 := by
  unfold Ops.lenCode
  split
  · decide
  · split <;> decide

/-- The 64 bits of a base word, in the order of 05 R108. -/
def Ops.baseWord (o : Ops) (op b fn : Nat) : Nat :=
  o.lenCode + op * 2 ^ 2 + o.h.guard.toNat * 2 ^ 10 + o.h.gneg.toNat * 2 ^ 14 + o.h.chain.toNat * 2 ^ 15 +
    o.h.wbs.toNat * 2 ^ 16 + o.h.latch.toNat * 2 ^ 17 + o.d.code * 2 ^ 19 + o.a.code * 2 ^ 28 + b * 2 ^ 37 + o.c.code * 2 ^ 46 + fn * 2 ^ 55

theorem encode_eq {i : Instr} {o : Ops} {op : Nat} (hop : i.opcode = some op) (ho : i.ops = some o) :
    encode i = o.baseWord op (i.bCode o) i.fnBits + o.upper i.extBits * 2 ^ 64 := by
  unfold encode
  rw [hop, ho]
  rfl

/-- What stands in each field of the word w. -/
structure Laid (w : Nat) (o : Ops) (op b fn upper : Nat) : Prop where
  len : w % 4 = o.lenCode
  op : bits w 9 2 = op
  hdr : ∀ long, hdrOf w long = { o.h with long := long }
  d : bits w 27 19 = o.d.code
  a : bits w 36 28 = o.a.code
  b : bits w 45 37 = b
  c : bits w 54 46 = o.c.code
  fn : bits w 63 55 = fn
  imm32 : bits w 95 64 = upper % 2 ^ 32
  upper : bits w 127 64 = upper

theorem Ops.baseWord_lt (o : Ops) {op b fn : Nat} (hop : op < 256) (hb : b < 512) (hfn : fn < 512) : o.baseWord op b fn < 2 ^ 64 := by
  have hl := o.lenCode_lt
  have hg := o.h.guard.isLt
  have hgn := o.h.gneg.toNat_le
  have hch := o.h.chain.toNat_le
  have hw := o.h.wbs.toNat_le
  have hlt := o.h.latch.isLt
  have hd := o.d.code_lt
  have ha := o.a.code_lt
  have hc := o.c.code_lt
  unfold Ops.baseWord
  omega

theorem Ops.laid (o : Ops) {op b fn upper : Nat} (hop : op < 256) (hb : b < 512) (hfn : fn < 512) (hu : upper < 2 ^ 64) :
    Laid (o.baseWord op b fn + upper * 2 ^ 64) o op b fn upper := by
  have hbase := o.baseWord_lt hop hb hfn
  have hl := o.lenCode_lt
  have hg := o.h.guard.isLt
  have hgn := o.h.gneg.toNat_le
  have hch := o.h.chain.toNat_le
  have hw := o.h.wbs.toNat_le
  have hlt := o.h.latch.isLt
  have hd := o.d.code_lt
  have ha := o.a.code_lt
  have hc := o.c.code_lt
  generalize hx : o.baseWord op b fn + upper * 2 ^ 64 = x
  unfold Ops.baseWord at hx hbase
  have hguard : bits x 13 10 = o.h.guard.toNat := by simp only [bits]; omega
  have hgneg : x.testBit 14 = o.h.gneg := testBit_of_div (by omega)
  have hchain : x.testBit 15 = o.h.chain := testBit_of_div (by omega)
  have hwbs : x.testBit 16 = o.h.wbs := testBit_of_div (by omega)
  have hlatch : bits x 18 17 = o.h.latch.toNat := by simp only [bits]; omega
  exact
    { len := by omega
      op := by simp only [bits]; omega
      hdr := fun long => by rw [hdrOf, ofNat_bits hguard, hgneg, hchain, hwbs, ofNat_bits hlatch]
      d := by simp only [bits]; omega
      a := by simp only [bits]; omega
      b := by simp only [bits]; omega
      c := by simp only [bits]; omega
      fn := by simp only [bits]; omega
      imm32 := by simp only [bits]; omega
      upper := by simp only [bits]; omega }

/-! ### What stands above the base word -/

/-- The bits above the base word fit the instruction's length. -/
theorem Row.Form.upper_lt {r : Row} {op : Nat} {o : Ops} (h : r.Form op o.b o.h.long) {e : Nat} (he : r.ext.Fits e) :
    o.upper e < 2 ^ (32 * o.lenCode) := by
  rcases o with ⟨⟨g, gn, ch, wb, lt, long⟩, od, oa, ob, oc⟩
  cases h with
  | short => exact Nat.zero_lt_one
  | long _ _ hne =>
    show e < 2 ^ 64
    revert he hne
    cases r.ext with
    | generic => rintro rfl -; decide
    | memory => exact fun _ hne => absurd rfl hne
    | matrix | trig => exact fun he _ => he
  | imm32 v => exact v.isLt
  | imm61 v => have := v.isLt; show 2 ^ 63 + v.toNat < 2 ^ 64; omega
  | off48 v _ hm =>
    rw [hm] at he
    obtain ⟨hlt, hal⟩ := he
    have := v.isLt
    show e + v.toNat < 2 ^ 64
    omega
  | fldOff f v _ hm =>
    rw [hm] at he
    obtain ⟨hlt, hal⟩ := he
    have := v.isLt
    show e + v.toNat < 2 ^ 64
    omega

theorem Row.Form.length_allowed {r : Row} {op : Nat} {o : Ops} (h : r.Form op o.b o.h.long) :
    o.lenCode = 0 ∧ r.l64 = true ∨ o.lenCode = 1 ∧ r.l96 = true ∨ o.lenCode = 2 ∧ r.l128 = true := by
  rcases o with ⟨⟨g, gn, ch, wb, lt, long⟩, od, oa, ob, oc⟩
  cases h with
  | short _ h => exact .inl ⟨rfl, h⟩
  | imm32 _ h => exact .inr (.inl ⟨rfl, h⟩)
  | long _ h | imm61 _ h | off48 _ h | fldOff _ _ h => exact .inr (.inr ⟨rfl, h⟩)

/-- The long bit stands for a 128-bit form in which nothing takes the place of B. -/
theorem Row.Form.long_eq {r : Row} {op : Nat} {o : Ops} (h : r.Form op o.b o.h.long) : (decide (o.lenCode = 2) && o.b.placed.isNone) = o.h.long := by
  rcases o with ⟨⟨g, gn, ch, wb, lt, long⟩, od, oa, ob, oc⟩
  cases h <;> rfl

theorem Row.Form.isWide_eq {r : Row} {op : Nat} {o : Ops} (h : r.Form op o.b o.h.long) : decide (o.lenCode = 2) = o.isWide := by
  rcases o with ⟨⟨g, gn, ch, wb, lt, long⟩, od, oa, ob, oc⟩
  cases h <;> rfl

/-- The extension words of immediates and offsets (05 R114, R115). -/
theorem imm61_fields (v : BitVec 61) : bits (2 ^ 63 + v.toNat) 62 61 = 0 ∧ (2 ^ 63 + v.toNat).testBit 63 = true ∧
    BitVec.ofNat 61 (bits (2 ^ 63 + v.toNat) 60 0) = v := by
  have hv := v.isLt
  have hset : (2 ^ 63 + v.toNat) / 2 ^ 63 % 2 = true.toNat := by rw [Bool.toNat_true]; omega
  exact ⟨by simp only [bits]; omega, testBit_of_div hset, ofNat_bits (by simp only [bits]; omega)⟩

theorem off48_field {e : Nat} (he : ExtKind.Fits .memory e) (v : BitVec 48) : BitVec.ofNat 48 (bits (e + v.toNat) 47 0) = v := by
  have hv := v.isLt
  obtain ⟨-, hal⟩ := he
  exact ofNat_bits (by simp only [bits]; omega)

/-- The decoder finds what stands in place of B. -/
theorem Laid.immOf_eq {w op b fn e : Nat} {r : Row} {o : Ops} (l : Laid w o op b fn (o.upper e)) (h : r.Form op o.b o.h.long) (he : r.ext.Fits e)
    (hb : b = o.b.code ∨ r.l96 = false ∧ r.l128 = false) : immOf r op w = some o.b.placed := by
  rcases o with ⟨⟨g, gn, ch, wb, lt, long⟩, od, oa, ob, oc⟩
  obtain ⟨hlen, -, -, -, -, hbc, -, -, himm, hup⟩ := l
  unfold immOf
  simp only [hlen, hbc, himm, hup]
  cases h with
  | short f => rfl
  | long f _ hne hor =>
    cases hx : r.ext with
    | memory => exact absurd hx hne
    | matrix | trig => rfl
    | generic =>
      rw [hx] at he
      cases he
      have hor' : r.l64 = true ∨ ¬ r.imm = true := hor.imp_right fun hi => by rw [hi]; exact Bool.false_ne_true
      have h0 (h l : Nat) : bits 0 h l = 0 := by rw [bits, Nat.zero_div, Nat.zero_mod]
      simp only [Ops.lenCode, Ops.isWide, Ops.upper, if_true, ite_self, h0, Nat.zero_testBit, Bool.false_eq_true, if_false, ne_eq, not_true_eq_false,
        true_and, if_pos hor']
      rfl
  | imm32 v h96 hor =>
    obtain rfl : b = 324 := hb.resolve_right fun hn => by rw [h96] at hn; cases hn.1
    have hv : v.toNat % 2 ^ 32 = v.toNat := Nat.mod_eq_of_lt v.isLt
    show (if r.imm = true then _ else _) = _
    simp only [Ops.upper, hv, if_true, BitVec.ofNat_toNat, BitVec.setWidth_eq]
    split
    · rfl
    · next hni =>
      obtain ⟨hop, rfl⟩ := hor.resolve_left hni
      exact if_pos ⟨hop, rfl⟩
  | imm61 v h128 hi hx =>
    obtain rfl : b = 324 := hb.resolve_right fun hn => by rw [h128] at hn; cases hn.2
    obtain ⟨h0, hset, hval⟩ := imm61_fields v
    simp only [Ops.lenCode, Ops.isWide, Ops.upper, if_true, hx, hi, h0, hset, hval, ne_eq, not_true_eq_false, if_false, and_self]
    rfl
  | off48 v h128 hm hi =>
    obtain rfl : b = 324 := hb.resolve_right fun hn => by rw [h128] at hn; cases hn.2
    rw [hm] at he
    simp only [Ops.lenCode, Ops.isWide, Ops.upper, if_true, hm, off48_field he v, ne_eq, not_true_eq_false, and_false, if_false]
    rfl
  | fldOff f v h128 hm hi =>
    rw [hm] at he
    simp only [Ops.lenCode, Ops.isWide, Ops.upper, if_true, hm, hi, off48_field he v, Bool.false_eq_true, false_and, if_false]
    rfl

/-! ### The operand fields (05 R110) -/

theorem Fld.ofCode_code {k : Kind} {f : Fld} (hk : k ≠ .konst) (h : k.okFld f = true) : Fld.ofCode k f.code = some f := by
  cases k with
  | konst => exact absurd rfl hk
  | none => rw [of_decide_eq_true h]; rfl
  | pred =>
    cases f with
    | pred n => exact (if_pos n.isLt).trans (by rw [Fld.code, BitVec.ofNat_toNat, BitVec.setWidth_eq])
    | _ => cases h
  | reg =>
    cases f with
    | v n => exact (if_pos n.isLt).trans (by rw [Fld.code, BitVec.ofNat_toNat, BitVec.setWidth_eq])
    | k n =>
      have hn := n.isLt
      have hge : ¬ 256 + n.toNat < 256 := by omega
      have hlt : 256 + n.toNat < 320 := by omega
      simp only [Fld.ofCode, Fld.code, hge, hlt, if_true, if_false, Nat.add_sub_cancel_left, BitVec.ofNat_toNat, BitVec.setWidth_eq]
    | b n =>
      have hn := n.isLt
      have h256 : ¬ 320 + n.toNat < 256 := by omega
      have h320 : ¬ 320 + n.toNat < 320 := by omega
      have hlt : 320 + n.toNat < 324 := by omega
      simp only [Fld.ofCode, Fld.code, h256, h320, hlt, if_true, if_false, Nat.add_sub_cancel_left, BitVec.ofNat_toNat, BitVec.setWidth_eq]
    | zero => rfl
    | pred n => cases h

/-- The small constant of CVT leaves nothing in the operand. -/
theorem Fld.ofCode_konst {c : Nat} {f : Fld} (hc : c < 16) (h : Kind.konst.okFld f = true) : Fld.ofCode .konst c = some f := by
  rw [of_decide_eq_true h]
  exact if_pos hc

/-- The operand fields read at the kinds of row r' are those of o. -/
theorem Laid.opsOf_eq {w op b fn e : Nat} {r r' : Row} {o : Ops} (l : Laid w o op b fn e) (h : r.Form op o.b o.h.long) (himm : r'.imm = r.imm)
    (hd : Fld.ofCode r'.d o.d.code = some o.d) (ha : Fld.ofCode r'.a o.a.code = some o.a) (hc : Fld.ofCode r'.c o.c.code = some o.c)
    (hb : ∀ f, (o.b = .fld f ∨ ∃ v, o.b = .fldOff f v) → Fld.ofCode r'.b b = some f) (hplace : b = o.b.code ∨ r.l96 = false ∧ r.l128 = false) :
    opsOf r' w o.b.placed o.h = some o := by
  rcases o with ⟨⟨g, gn, ch, wb, lt, long⟩, od, oa, ob, oc⟩
  obtain ⟨-, -, -, hld, hla, hlb, hlc, -, -, -⟩ := l
  unfold opsOf
  simp only [hld, hla, hlb, hlc, hd, ha, hc, Option.bind_some]
  cases h with
  | short f | long f => simp only [Src.placed, hb f (.inl rfl), Option.map_some]
  | imm32 v h96 =>
    obtain rfl : b = 324 := hplace.resolve_right fun hn => by rw [h96] at hn; cases hn.1
    rfl
  | imm61 v h128 =>
    obtain rfl : b = 324 := hplace.resolve_right fun hn => by rw [h128] at hn; cases hn.2
    rfl
  | off48 v _ _ hi => simp only [Src.placed, himm, hi, if_true]
  | fldOff f v _ _ hi => simp only [Src.placed, himm, hi, Bool.false_eq_true, if_false, hb f (.inr ⟨v, rfl⟩), Option.map_some]

/-- B's field holds its code wherever an immediate can stand in it. -/
theorem Rebuilt.place {i : Instr} {o : Ops} {op : Nat} {r : Row} {mk : Ops → Instr} (hmk : Rebuilt i o op r mk) :
    i.bCode o = o.b.code ∨ r.l96 = false ∧ r.l128 = false :=
  hmk.bCode.imp And.right fun ⟨_, h96, h128, _⟩ => ⟨h96, h128⟩

theorem Rebuilt.bCode_lt {i : Instr} {o : Ops} {op : Nat} {r : Row} {mk : Ops → Instr} (hmk : Rebuilt i o op r mk) : i.bCode o < 512 := by
  rcases hmk.bCode with ⟨-, hb⟩ | ⟨-, -, -, hb⟩
  · rw [hb]; exact o.b.code_lt
  · omega

/-- The operand fields of a well-formed instruction, read at the kinds of its row. -/
theorem Rebuilt.opsOf_eq {i : Instr} {o : Ops} {op w e : Nat} {r r' : Row} {mk : Ops → Instr} (hmk : Rebuilt i o op r mk) (ho : i.ops = some o)
    (hop : i.opcode = some op) (hr : rowOf op = some r) (hrow : i.row = some r') (hok : i.operOk = true) (h : r.Form op o.b o.h.long)
    (l : Laid w o op (i.bCode o) i.fnBits e) : opsOf r' w o.b.placed o.h = some o := by
  obtain ⟨kd, kb, hrow', hkd, hkb⟩ := Instr.row_of_opcode hop hr
  obtain rfl : { r with d := kd, b := kb } = r' := Option.some.inj (hrow'.symm.trans hrow)
  obtain ⟨hd, ha, hc⟩ := hmk.kinds
  unfold Instr.operOk at hok
  rw [hop, ho, hrow] at hok
  simp only [Bool.and_eq_true] at hok
  obtain ⟨⟨⟨⟨⟨hod, hoa⟩, hoc⟩, hob⟩, -⟩, -⟩ := hok
  have hkd' : kd ≠ .konst := by rcases hkd with rfl | rfl; exacts [hd, Kind.noConfusion]
  refine l.opsOf_eq h rfl (Fld.ofCode_code hkd' hod) (Fld.ofCode_code ha hoa) (Fld.ofCode_code hc hoc) ?_ hmk.place
  intro f hf
  have hkf : kb.okFld f = true := by rcases hf with hf | ⟨v, hf⟩ <;> rwa [hf] at hob
  have hcode : o.b.code = f.code := by rcases hf with hf | ⟨v, hf⟩ <;> rw [hf] <;> rfl
  rcases hmk.bCode with ⟨hb, hplain⟩ | ⟨hb, -, -, hsmall⟩
  · have hkb' : kb ≠ .konst := by rcases hkb with rfl | ⟨-, rfl⟩; exacts [hb, Kind.noConfusion]
    rw [hplain, hcode]
    exact Fld.ofCode_code hkb' hkf
  · obtain rfl : kb = .konst := by
      rcases hkb with rfl | ⟨hreg, -⟩
      · exact hb
      · rw [hb] at hreg; cases hreg
    exact Fld.ofCode_konst hsmall hkf

/-! ### The round trip -/

/-- The checks 3, 4 and 5 of 05 R116 in their order. -/
theorem decode_of_checks {w op : Nat} {r : Row} {mk : Ops → Instr} {o : Ops} (hop : bits w 9 2 = op) (hr : rowOf op = some r)
    (hlen : w % 4 = 0 ∧ r.l64 = true ∨ w % 4 = 1 ∧ r.l96 = true ∨ w % 4 = 2 ∧ r.l128 = true)
    (hmk : buildOp op (bits w 63 55) (bits w 45 37) (bits w 127 64) (decide (w % 4 = 2)) = some mk) (himm : immOf r op w = some o.b.placed)
    (hh : hdrOf w (decide (w % 4 = 2) && o.b.placed.isNone) = o.h) (hfn : (mk o.bare).fnOk = true) (hok : (mk o.bare).immOk = true)
    (ho : opsOf ((mk o.bare).row.getD r) w o.b.placed o.h = some o) (hoper : (mk o).operOk = true) : decode w = .ok (mk o) := by
  rw [Ops.bare] at hfn hok ho
  unfold decode
  simp only [hop, hr]
  refine (if_neg ?_).trans ?_
  · rcases hlen with ⟨hw, hl⟩ | ⟨hw, hl⟩ | ⟨hw, hl⟩ <;> simp only [hw, hl, Bool.not_true, Bool.false_eq_true, not_false_eq_true]
  · simp only [hmk, himm, hh, hfn, hok, ho, hoper, Bool.not_true, Bool.and_self, Bool.false_eq_true, if_false, if_true]

theorem Instr.operOk_parts {i : Instr} (h : i.operOk = true) :
    ∃ op r r' o, i.opcode = some op ∧ rowOf op = some r ∧ i.row = some r' ∧ i.ops = some o := by
  unfold Instr.operOk at h
  split at h
  · next op r' o hop hrow ho =>
    cases hr : rowOf op with
    | none => rw [Instr.row, hop, Option.bind_some, hr, Option.map_none] at hrow; cases hrow
    | some r => exact ⟨op, r, r', o, hop, hr, hrow, ho⟩
  · cases h

theorem Instr.length_eq {i : Instr} {o : Ops} (ho : i.ops = some o) : i.length = 8 + 4 * o.lenCode := by rw [Instr.length, ho]

/-- Settles O3: the encoding lays out the fields, the decoder reads each of them back, and its checks pass because the instruction is well-formed. -/
theorem decodeOfEncode : Obligations.DecodeOfEncode := by
  intro i hwf hev
  rw [Instr.WellFormed, hev, Bool.false_or, Bool.and_eq_true, Bool.and_eq_true, Bool.and_eq_true] at hwf
  obtain ⟨⟨⟨hl, hf⟩, hi⟩, hok⟩ := hwf
  obtain ⟨op, r, r', o, hop, hr, hrow, ho⟩ := Instr.operOk_parts hok
  have hform := Instr.form hop ho hr hl hi
  obtain ⟨mk, hmk⟩ := Rebuilt.exists_mk hop ho hr hform hf
  have hupper := hform.upper_lt hmk.ext
  have hlc := o.lenCode_lt
  have hu64 : o.upper i.extBits < 2 ^ 64 := hupper.trans_le (Nat.pow_le_pow_right Nat.two_pos (by omega))
  have l := o.laid hmk.op_lt hmk.bCode_lt hmk.fn_lt hu64
  rw [encode_eq hop ho, Instr.length_eq ho]
  refine ⟨?_, by rw [l.len]; omega, ?_⟩
  · refine (decode_of_checks (mk := mk) l.op hr ?_ ?_ ?_ ?_ ?_ ?_ ?_ ?_).trans (congrArg _ hmk.self)
    · rw [l.len]; exact hform.length_allowed
    · rw [l.fn, l.b, l.upper, l.len, hform.isWide_eq]; exact hmk.build
    · exact l.immOf_eq hform hmk.ext hmk.place
    · rw [l.hdr, l.len, hform.long_eq]
    · rw [hmk.fnOk, hf]
    · rw [hmk.immOk, hi]
    · rw [hmk.row, hrow]; exact hmk.opsOf_eq ho hop hr hrow hok hform l
    · rw [hmk.self, hok]
  · have hbase := o.baseWord_lt hmk.op_lt hmk.bCode_lt hmk.fn_lt
    have hpow : 2 ^ (8 * (8 + 4 * o.lenCode)) = 2 ^ (32 * o.lenCode) * 2 ^ 64 := by rw [← pow_add]; congr 1; omega
    rw [hpow]
    generalize 2 ^ (32 * o.lenCode) = n at hupper ⊢
    omega

/-! ### The spec's worked encodings -/

/-- Settles O2: the decoder is run on each word. -/
theorem specWordsDecode : Obligations.SpecWordsDecode := by
  unfold Obligations.SpecWordsDecode
  exact ⟨rfl, rfl, rfl, rfl, rfl, rfl, rfl, rfl, rfl, rfl, rfl, rfl, rfl, rfl⟩

end Sys2Proof
end

section
/-! A BKPT that traps (10 R244): a machine in which a gang runs with its halt flag set, where the end of BKPT stops the gang although the BKPT halts nothing. -/

namespace Sys2Proof.Machine

/-- BKPT without guard, latch and chain. -/
def plainBkpt : Ops := ⟨⟨0, false, false, false, 0, false⟩, .zero, .zero, .fld .zero, .zero⟩

/-- Thread 0 of squad 0 of core 0, alone at a BKPT at 0x1000. -/
def bkptGroup : Issue := { core := 0, slot := 0, pc := 0x1000, nbytes := 8, threads := [0] }

/-- Thread 0 of squad 1 of core 0. -/
def chainedThread : Nat := threadKey 1 0

/-- Gang 1 runs on core 0 with its halt flag set and DBGCTL 0. The thread of squad 1 stands at 0x3008, past the first member of the chain that it has open in
slot 1 from 0x3000 on. -/
def flaggedState : State :=
  { gangs := [(1, { launch := 2, index := 0, die := 0, st := .running, cores := [0], halt := true })]
    cores := [(0, { gang := some 1, slot1 := { chain := some { head := 0x3000, alloc := 0, count := 1, members := [chainedThread] } } })]
    threads := [(0, { pc := 0x1000 }), (chainedThread, { pc := 0x3008 })]
    issue := some bkptGroup }

theorem flaggedState_alone : Alone flaggedState bkptGroup (.bkpt plainBkpt) plainBkpt 0 where
  issues :=
    { formed := by decide
      issue := rfl
      core := by decide
      lanes := by decide
      checks := by decide
      latches := by decide
      undone := by decide
      writers := by
        intro t ht f hf
        obtain rfl : t = 0 := List.mem_singleton.1 ht
        cases hf }
  only := rfl
  guard := by decide

theorem flaggedState_quiet : flaggedState.Quiet 0 := ⟨rfl, rfl, rfl, rfl, by decide, rfl⟩

/-- The BKPT traps, and the gang is stopped all the same: the other thread's chain is abandoned (01 R27), and it stands at its head. -/
theorem exec_bkpt_flagged : ∃ r, exec (.bkpt plainBkpt) flaggedState = .next r ∧ (r.thread chainedThread).pc = 0x3000 ∧
    (r.squad 0).trec = recordOf bkptGroup 0 15 0 0 0 0x1008 :=
  ⟨_, rfl, by decide +kernel, by decide +kernel⟩

/-- Refutes O36: a gang that runs with its halt flag set is stopped by a BKPT which takes its trap, and a thread in another open chain goes back to its head. -/
theorem not_trapsAreTaken : ¬ Obligations.TrapsAreTaken := by
  unfold Obligations.TrapsAreTaken
  rintro ⟨htraps, -⟩
  obtain ⟨-, hbkpt, -⟩ := htraps plainBkpt flaggedState bkptGroup 0
  obtain ⟨r, hexec, hr⟩ := hbkpt flaggedState_alone flaggedState_quiet (by decide)
  obtain ⟨x, hx, hpc, -⟩ := exec_bkpt_flagged
  obtain rfl : r = x := Host.Outcome.next.inj (hexec.symm.trans hx)
  rw [hr.others chainedThread (by decide)] at hpc
  cases hpc

end Sys2Proof.Machine
end

section
/-! Local memory, barriers of a gang and queues (08 R171, R188, R193): a machine whose table of cores does not stand in key order, where the first core of the
gang with workgroup index 0 is another one once the group's own core has been written. -/

namespace Sys2Proof.Machine

/-- No guard, latch or chain; D names v8 and A names v4 where the instruction has them. -/
def plainOps (d a : Fld) : Ops := ⟨⟨0, false, false, false, 0, false⟩, d, a, .fld .zero, .zero⟩

/-- Thread 0 of squad 0 of core 0, alone at 0x1000. -/
def soleGroup : Issue := { core := 0, slot := 0, pc := 0x1000, nbytes := 8, threads := [0] }

/-- Cores 1 and 0 hold workgroup 0 of gang 7, and stand in this order; byte 0 of their scratchpads holds 1 and 0; v4 of the thread holds 5. Queue 0 of the
cluster has a ring of four entries from local offset 0 on. -/
def swappedState : State :=
  { cores := [(1, { gang := some 7 }), (0, { gang := some 7 })]
    threads := [(0, { pc := 0x1000 })]
    regs := [(4, 5)]
    scratch := [(0, 0), (2 ^ 21, 1)]
    queues := [(0, { cap := 4 })]
    queueHolder := [(0, 7)]
    issue := some soleGroup }

/-- The gang's first workgroup as the statements find it is on core 1; the group's own core comes first once it has been written. -/
theorem swappedState_gangCore : swappedState.gangCore 0 0 = some 1 ∧ (swappedState.begun soleGroup).gangCore 0 0 = some 0 := by decide +kernel

/-- A group of the one thread that passes the checks at issue. -/
theorem swappedState_alone {i : Instr} {d a : Fld} (hf : i.WellFormed = true)
    (hp : swappedState.preTrap soleGroup i (plainOps d a) (swappedState.chainAt soleGroup).count 0 = none)
    (hl : (swappedState.begun soleGroup).latchTrap soleGroup i (plainOps d a) 0 = false) : Alone swappedState soleGroup i (plainOps d a) 0 where
  issues :=
    { formed := hf
      issue := rfl
      core := by decide
      lanes := by decide
      checks := by simpa [soleGroup] using hp
      latches := by simpa [soleGroup] using hl
      undone := by decide
      writers := by
        intro t ht f hf
        obtain rfl : t = 0 := List.mem_singleton.1 ht
        cases hf }
  only := rfl
  guard := rfl

/-! ### A load from the local space -/

def byteLoad : MemFn := { size := .n8, policy := .all, scope := .grp }

theorem exec_ldl_swapped : ∃ r, exec (.ldl (plainOps (.v 8) .zero) byteLoad) swappedState = .next r ∧ tget r.regs 8 0 = 0 :=
  ⟨_, rfl, by decide +kernel⟩

/-- Refutes O17: in a table of cores out of key order, LDL reads the scratchpad of another core than the one that local address 0 named before the group began. -/
theorem not_localMemory : ¬ Obligations.LocalMemory := by
  unfold Obligations.LocalMemory
  rintro ⟨hplain, -⟩
  obtain ⟨hldl, -⟩ := hplain (plainOps (.v 8) .zero) byteLoad default swappedState soleGroup 0 1 rfl ⟨rfl, rfl, rfl⟩ (by decide)
  obtain ⟨r, hexec, hr⟩ := hldl ⟨swappedState_alone (by decide) (by decide) (by decide), by decide, by decide, by decide +kernel, by decide +kernel, by decide +kernel⟩
  obtain ⟨x, hx, hzero⟩ := exec_ldl_swapped
  obtain rfl : r = x := Host.Outcome.next.inj (hexec.symm.trans hx)
  have hone := hr.low 0 (by simp) 8 rfl rfl
  rw [show (swappedState.begun soleGroup).regKey 0 (8 : BitVec 8).toNat = 8 by decide +kernel, hzero] at hone
  revert hone
  decide +kernel

/-! ### A barrier of the gang -/

theorem exec_barinit_swapped : ∃ r, exec (.barinit (plainOps .zero (.v 4)) .gang) swappedState = .next r ∧ (r.core 1).bars = [] :=
  ⟨_, rfl, by decide +kernel⟩

/-- Refutes O26: in a table of cores out of key order, BARINIT at .gang sets the barrier of another core than the one that held it before the group began. -/
theorem not_barriers : ¬ Obligations.Barriers := by
  unfold Obligations.Barriers
  rintro ⟨hgroup, -⟩
  obtain ⟨hinit, -⟩ := hgroup (plainOps .zero (.v 4)) .gang swappedState soleGroup 0 (by decide)
  obtain ⟨r, hexec, hr⟩ := hinit (swappedState_alone (by decide) (by decide) (by decide)) (by decide +kernel) (by decide +kernel) (by decide +kernel) (by decide +kernel)
  obtain ⟨x, hx, hnone⟩ := exec_barinit_swapped
  obtain rfl : r = x := Host.Outcome.next.inj (hexec.symm.trans hx)
  rw [hr.kept.cores 1 (by decide)] at hnone
  revert hnone
  decide +kernel

/-! ### A push into a queue -/

theorem exec_qpush_swapped : ∃ r, exec (.qpush (plainOps .zero (.v 4))) swappedState = .next r ∧ tget? r.scratch (2 ^ 21) = some 1 :=
  ⟨_, rfl, by decide +kernel⟩

/-- Refutes O27: in a table of cores out of key order, QPUSH writes the handle into the scratchpad of another core than the one that held the ring before the
group began. -/
theorem not_queuesAreFifo : ¬ Obligations.QueuesAreFifo := by
  unfold Obligations.QueuesAreFifo
  intro h
  obtain ⟨-, hpush, -⟩ := h (plainOps .zero (.v 4)) swappedState soleGroup 0 0
  obtain ⟨hroom, -⟩ := hpush ⟨swappedState_alone (by decide) (by decide) (by decide), by decide +kernel, by decide +kernel⟩ (by decide +kernel) (by decide +kernel)
  obtain ⟨r, hexec, hr⟩ := hroom (by decide +kernel) (by decide +kernel)
  obtain ⟨x, hx, hold⟩ := exec_qpush_swapped
  obtain rfl : r = x := Host.Outcome.next.inj (hexec.symm.trans hx)
  rw [rest_congr hr.kept.rest State.scratch fun _ => rfl] at hold
  revert hold
  decide +kernel

end Sys2Proof.Machine
end

section
/-! Prefetches (08 R172): a thread of a Marl core with a number above those of a package's cores, whose agent stands at a Silt die's socket. -/

namespace Sys2Proof.Machine

/-- Core 424 of package 0, which the package does not have: its agent number is that of the first port. -/
def strayCore : Nat := 424
def strayThread : Nat := threadKey (squadKey strayCore 0) 0

/-- PREF without guard, latch or chain, of address 0. -/
def strayOps : Ops := ⟨⟨0, false, false, false, 0, false⟩, .zero, .zero, .fld .zero, .zero⟩
def strayFn : MemFn := { size := .s8, policy := .all, scope := .grp }

/-- The core's one thread, alone at 0x1000. -/
def strayGroup : Issue := { core := strayCore, slot := 0, pc := 0x1000, nbytes := 8, threads := [strayThread] }

/-- The page of address 0 is Cached, at address 0 of package 1. -/
def strayState : State :=
  { threads := [(strayThread, { pc := 0x1000 })]
    cores := [(strayCore, {})]
    tcs := [(strayCore, [{ ctx := 0, base := 0, log := 16, leaf := 2 ^ 46 + 0x1F }])]
    issue := some strayGroup }

theorem strayState_alone : Alone strayState strayGroup (.pref strayOps strayFn) strayOps strayThread where
  issues :=
    { formed := by decide
      issue := rfl
      core := by decide
      lanes := by decide
      checks := by decide
      latches := by decide
      undone := by decide
      writers := by
        intro t ht f hf
        obtain rfl : t = strayThread := List.mem_singleton.1 ht
        cases hf }
  only := rfl
  guard := rfl

/-- The request goes to the other package through the very passenger that sends it, and stands there among the packets from the fabric side. -/
theorem exec_pref_stray : ∃ r, exec (.pref strayOps strayFn) strayState = .next r ∧ r.ingress ≠ [] :=
  ⟨_, rfl, by decide +kernel⟩

theorem strayState_translate : (strayState.begun strayGroup).translate (strayState.who strayThread).ctx (tcPath (strayState.who strayThread).core)
    (strayState.globalAddr strayGroup strayThread (.pref strayOps strayFn) strayOps) { user := (strayState.who strayThread).user } =
      (strayState.begun strayGroup, .inl (.cached (2 ^ 46))) := by decide +kernel

/-- Refutes O21: the request of a PREF whose sender stands at a Silt die's socket enters the packets at that passenger, which the statement leaves as they were. -/
theorem not_prefetchAndRegions : ¬ Obligations.PrefetchAndRegions := by
  unfold Obligations.PrefetchAndRegions
  rintro ⟨hpref, -⟩
  obtain ⟨hcached, -⟩ := hpref strayOps strayFn strayState (strayState.begun strayGroup) strayGroup strayThread strayState_alone rfl
  obtain ⟨-, hasks⟩ := hcached (2 ^ 46) strayState_translate
  obtain ⟨r, hexec, -, -, hr⟩ := hasks (by decide +kernel)
  obtain ⟨x, hx, hsent⟩ := exec_pref_stray
  obtain rfl : r = x := Host.Outcome.next.inj (hexec.symm.trans hx)
  rw [rest_congr hr.kept.rest State.ingress fun _ => rfl] at hsent
  change ((strayState.begun strayGroup).keepFound _ _ _ _ _).ingress ≠ [] at hsent
  revert hsent
  decide +kernel

end Sys2Proof.Machine
end

section
/-! Instructions of a variable latency, of a group of one thread (05 R111, 01 R26), and the bytes of a scratchpad (03 R50). -/

namespace Sys2Proof.Machine

/-! ### A group of one thread -/

section
variable {s y : State} {iss : Issue} {i : Instr} {o : Ops} {t : Nat}

theorem Alone.mem (h : Alone s iss i o t) : t ∈ iss.threads := by simp [h.only]

theorem Alone.coreOf_eq (h : Alone s iss i o t) : coreOf t = iss.core := h.issues.core t h.mem

theorem Alone.guarded_eq (h : Alone s iss i o t) : s.guarded iss o = [t] := by simp [State.guarded, h.only, h.guard]

/-- The one thread writes the k destination. -/
theorem Alone.kWriter_eq (h : Alone s iss i o t) : kWriter (s.begun iss) iss o t = true := by
  rw [Machine.kWriter_eq h.issues h.mem, h.guarded_eq]
  simp

/-- The instruction's effect is y, and the thread goes on, jumps or stays. -/
theorem Alone.still {body : Issue → Body} {r : Ret} (h : Alone s iss i o t) (hl : latchOf o = none)
    (hb : body iss (s.begun iss) (s.begun iss) t = (y, r)) (hg : r.strikes = false) :
    Still iss (fun _ th => r.thread iss.pc (iss.next i) th) y (runGroup i o body s) := by
  have hst := runGroup_alone (body := body) (r := r) h (by rw [cleared_of_latchOf hl, hb]) hg
  rwa [cleared_of_latchOf hl, hb] at hst

/-- The instruction's effect is y and a result, and the thread goes on. -/
theorem Alone.wrote {body : Issue → Body} {v n : Nat} (h : Alone s iss i o t) (hl : latchOf o = none)
    (hb : body iss (s.begun iss) (s.begun iss) t = (y.writeD iss o t v n true, .next)) :
    Wrote iss i o n [t] (fun _ => v) y (runGroup i o body s) := by
  have hone : ∀ u ∈ [t], u = t := fun u hu => List.mem_singleton.1 hu
  refine writes_wrote (kw := fun _ => true) (fun u hu => hone u hu ▸ h.mem) (fun u hu => ?_) ?_ (h.still hl hb rfl)
  · rw [hone u hu]
    simp
  · refine writes iss o n (fun _ => v) (fun _ => true) [t] (List.nodup_singleton t) ?_ (fun u hu => hone u hu ▸ h.coreOf_eq) ?_ y
    · exact fun a ha b hb _ => (hone a ha).trans (hone b hb).symm
    · exact fun a ha b hb _ _ _ => (hone a ha).trans (hone b hb).symm

end

/-! ### Bytes of a scratchpad -/

/-- A byte is told by the scratchpads, and by how often its core and the pinned page were set up. -/
theorem scratchByte_congr {s y : State} (hs : y.scratch = s.scratch)
    (hc : ∀ c, (y.core c).epoch = (s.core c).epoch ∧ (y.core c).pinEpoch = (s.core c).pinEpoch) (k : Nat) : y.scratchByte k = s.scratchByte k := by
  obtain ⟨hepoch, hpin⟩ := hc (k / 2 ^ 21)
  simp only [State.scratchByte, hs, hepoch, hpin]

theorem epochs_of_plain {a b : Core} (h : a.plain = b.plain) : a.epoch = b.epoch ∧ a.pinEpoch = b.pinEpoch :=
  ⟨(congrArg Core.epoch h :), (congrArg Core.pinEpoch h :)⟩

theorem Still.scratch {iss : Issue} {f : Nat → Thread → Thread} {x r : State} (h : Still iss f x r) : r.scratch = x.scratch :=
  rest_congr h.kept.rest State.scratch fun _ => rfl

theorem Still.scratchByte {iss : Issue} {f : Nat → Thread → Thread} {x r : State} (h : Still iss f x r) (k : Nat) : r.scratchByte k = x.scratchByte k :=
  scratchByte_congr h.scratch (fun c => epochs_of_plain (h.core_plain c)) k

theorem begun_scratchByte (s : State) (iss : Issue) (k : Nat) : (s.begun iss).scratchByte k = s.scratchByte k :=
  scratchByte_congr (rest_congr (begun_rest s iss) State.scratch fun _ => rfl) (fun c => epochs_of_plain (begun_core s iss c)) k

theorem scratchRead_congr {s y : State} {k n : Nat} (h : ∀ j, k ≤ j → j < k + n → y.scratchByte j = s.scratchByte j) :
    y.scratchRead k n = s.scratchRead k n := by
  induction n generalizing k with
  | zero => rfl
  | succ n ih => rw [State.scratchRead, State.scratchRead, h k (le_refl k) (by omega), ih fun j hj hn => h j (by omega) (by omega)]

theorem scratchByte_setScratchByte (s : State) (k j : Nat) (b : Byte) : (s.setScratchByte k b).scratchByte j = if k = j then b else s.scratchByte j := by
  by_cases h : k = j
  · simp [State.scratchByte, State.setScratchByte, h]
  · simp only [State.scratchByte, State.setScratchByte_scratch, tget?_tset, if_neg h]
    rfl

/-- Writing a scratchpad changes the scratchpads alone. -/
theorem scratchWrite_eq (s : State) (k n v : Nat) : s.scratchWrite k n v = { s with scratch := (s.scratchWrite k n v).scratch } := by
  induction n generalizing s k v with
  | zero => rfl
  | succ n ih => rw [State.scratchWrite, ih]; rfl

theorem scratchWrite_core (s : State) (k n v c : Nat) : (s.scratchWrite k n v).core c = s.core c := by
  induction n generalizing s k v with
  | zero => rfl
  | succ n ih => rw [State.scratchWrite, ih]; rfl

theorem scratchByte_scratchWrite_ne (s : State) {k n j : Nat} (v : Nat) (h : j < k ∨ k + n ≤ j) : (s.scratchWrite k n v).scratchByte j = s.scratchByte j := by
  induction n generalizing s k v with
  | zero => rfl
  | succ n ih => rw [State.scratchWrite, ih _ _ (by omega), scratchByte_setScratchByte, if_neg (by omega)]

theorem scratchRead_scratchWrite (s : State) (k n v : Nat) : (s.scratchWrite k n v).scratchRead k n = v % 256 ^ n := by
  induction n generalizing s k v with
  | zero => simp [State.scratchRead, Nat.mod_one]
  | succ n ih =>
    rw [State.scratchRead, State.scratchWrite, ih, scratchByte_scratchWrite_ne _ _ (Or.inl (Nat.lt_succ_self k)), scratchByte_setScratchByte, if_pos rfl,
      BitVec.toNat_ofNat]
    exact (Nat.mod_mul (x := v) (a := 256) (b := 256 ^ n)).symm.trans (by rw [pow_succ'])

end Sys2Proof.Machine
end

section
/-! Copies are posted: COPY, CBSEAL, CBWAIT, CBPOLL (08 R195, R198, R200, R201). -/

namespace Sys2Proof.Machine

/-! ### Batches (08 R200) -/

theorem Thread.unsealed_eq_false {th : Thread} {b : Nat}
    (h : (b + 2 ^ 16 - th.sealed) % 2 ^ 16 = 0 ∨ 2 ^ 15 ≤ (b + 2 ^ 16 - th.sealed) % 2 ^ 16) : th.unsealed b = false := by
  simp only [Thread.unsealed, decide_eq_false_iff_not]
  omega

theorem Thread.batchEnded_iff {th : Thread} {b : Nat} : th.batchEnded b = true ↔
    ∀ c ∈ th.copies, ¬ ((b + 2 ^ 16 - c.1) % 2 ^ 16 < 2 ^ 15 ∧ (th.sealed + 2 ^ 16 - c.1) % 2 ^ 16 < 2 ^ 15) := by
  simp only [Thread.batchEnded, upTo, List.all_eq_true, Bool.not_eq_true', Bool.and_eq_false_iff, decide_eq_false_iff_not, not_and_or]

theorem upTo_eq_false {a b : Nat} (h : 2 ^ 15 ≤ (b + 2 ^ 16 - a) % 2 ^ 16) : upTo a b = false := by
  simp only [upTo, decide_eq_false_iff_not]
  omega

/-! ### The ring (08 R195, R198) -/

/-- The 32 bytes of a ring entry as COPY writes it (08 R194). -/
def State.ringEntry (s : State) (t src dst layout ctl : Nat) : Nat :=
  src + dst * 2 ^ 64 + layout * 2 ^ 128 + ctl * 2 ^ 192 + 1 * 2 ^ 224 + laneOf t * 2 ^ 229 + squadOf t % 32 * 2 ^ 235 +
    ((s.thread t).sealed + 1) % 2 ^ 16 * 2 ^ 240

/-- The command that COPY posts. -/
def State.postedCmd (s : State) (t src dst layout ctl : Nat) : CopyCmd :=
  { ring := some (coreOf t, (s.core (coreOf t)).ringNext % 64), cluster := clusterOf (coreOf t), core := coreOf t, ctx := s.ctxKey t
    user := !(s.thread t).supervisor, tid := t, batch := ((s.thread t).sealed + 1) % 2 ^ 16, src := src, dst := dst, layout := layout, ctl := ctl }

/-- The ring's index advanced, with the scratchpads and the command given, and what its thread has posted. -/
def State.posted (s : State) (t : Nat) (sc : Tab Byte) (cmd : CopyCmd) : State :=
  { s.modCore (coreOf t) fun c => { c with ringNext := ((s.core (coreOf t)).ringNext % 64 + 1) % 64 } with
    scratch := sc, copyCmds := tset s.copyCmds s.nextId cmd, nextId := s.nextId + 1 }.modThread t fun th =>
      { th with copies := th.copies ++ [((th.sealed + 1) % 2 ^ 16, s.nextId)] }

theorem posted_epochs (s : State) (t : Nat) (sc : Tab Byte) (cmd : CopyCmd) (c : Nat) :
    ((s.posted t sc cmd).core c).epoch = (s.core c).epoch ∧ ((s.posted t sc cmd).core c).pinEpoch = (s.core c).pinEpoch := by
  have hcore : (s.posted t sc cmd).core c = (s.modCore (coreOf t) fun c => { c with ringNext := ((s.core (coreOf t)).ringNext % 64 + 1) % 64 }).core c := rfl
  rw [hcore, State.core_modCore]
  split <;> simp

theorem posted_scratch (s : State) (t : Nat) (sc : Tab Byte) (cmd : CopyCmd) : (s.posted t sc cmd).scratch = sc := rfl
theorem posted_copyCmds (s : State) (t : Nat) (sc : Tab Byte) (cmd : CopyCmd) : (s.posted t sc cmd).copyCmds = tset s.copyCmds s.nextId cmd := rfl

/-- The scratchpads with the ring's next entry written. -/
def State.ringWritten (s : State) (t entry : Nat) : State := s.scratchWrite (ringKey (coreOf t) ((s.core (coreOf t)).ringNext % 64)) 32 entry

theorem postCopy_eq (s : State) (t src dst layout ctl : Nat) : s.postCopy t src dst layout ctl =
    s.posted t (s.ringWritten t (s.ringEntry t src dst layout ctl)).scratch (s.postedCmd t src dst layout ctl) := by
  have hw : s.ringWritten t (s.ringEntry t src dst layout ctl) = { s with scratch := (s.ringWritten t (s.ringEntry t src dst layout ctl)).scratch } :=
    scratchWrite_eq s ..
  generalize hv : s.ringWritten t (s.ringEntry t src dst layout ctl) = y at hw ⊢
  unfold State.postCopy
  dsimp only
  rw [← State.ringEntry, ← State.ringWritten, hv, hw]
  rfl

theorem posted_scratchByte (s z : State) (t : Nat) (cmd : CopyCmd) (hz : ∀ c, z.core c = s.core c) (j : Nat) :
    (s.posted t z.scratch cmd).scratchByte j = z.scratchByte j :=
  scratchByte_congr (s := z) (y := s.posted t z.scratch cmd) rfl (fun c => (hz c).symm ▸ posted_epochs s t z.scratch cmd c) j

theorem ringWritten_core (s : State) (t entry c : Nat) : (s.ringWritten t entry).core c = s.core c :=
  scratchWrite_core ..

section
variable {s : State} {iss : Issue} {o : Ops} {t : Nat}

theorem begun_pairAt (f : Fld) (n : Nat) : (s.begun iss).pairAt iss t f n = s.pairAt iss t f n := by
  unfold State.pairAt
  split
  · exact begun_readFld (by simp) 2
  · exact begun_readFld (by simp) 2
  · rfl

theorem begun_ringEntry : (s.begun iss).ringEntry t = s.ringEntry t := by
  funext
  simp only [State.ringEntry, begun_thread]

theorem begun_ringNext (c : Nat) : ((s.begun iss).core c).ringNext = (s.core c).ringNext := (congrArg Core.ringNext (begun_core s iss c) :)

theorem begun_ringWait (c : Nat) : ((s.begun iss).core c).ringWait = (s.core c).ringWait := (congrArg Core.ringWait (begun_core s iss c) :)

/-- COPY's effect on its thread, where the ring has room and nobody waits at it. -/
theorem copy_still (h : Alone s iss (.copy o) o t) (hctl : ctlBad (s.srcB iss t (.copy o) o.b) = false) (hwait : (s.core iss.core).ringWait = [])
    (hroom : s.ringBusy iss.core ((s.core iss.core).ringNext % 64) = false) : ∃ r, exec (.copy o) s = .next r ∧
      Still iss (fun _ th => th.past iss.pc (iss.next (.copy o)))
        ((s.begun iss).postCopy t (s.pairAt iss t o.a 0) (s.pairAt iss t o.a 2) (s.pairAt iss t o.a 4) (s.srcB iss t (.copy o) o.b)) r := by
  obtain ⟨-, -, -, -, hl⟩ := fields_of_wellFormed h.issues.formed rfl rfl rfl
  have hbusy : (s.begun iss).ringBusy iss.core ((s.core iss.core).ringNext % 64) = false :=
    (rest_congr (begun_rest s iss) (·.ringBusy iss.core ((s.core iss.core).ringNext % 64)) fun _ => rfl).trans hroom
  refine ⟨_, rfl, h.still (r := .next) (hl rfl) ?_ rfl⟩
  simp only [begun_srcB h.issues h.mem, begun_pairAt, hctl, begun_ringWait, begun_ringNext, hwait, hbusy, ne_eq, not_true, Bool.false_eq_true, or_self, if_false]

theorem copy_posts (h : Alone s iss (.copy o) o t) (hctl : ctlBad (s.srcB iss t (.copy o) o.b) = false) (hwait : (s.core iss.core).ringWait = [])
    (hroom : s.ringBusy iss.core ((s.core iss.core).ringNext % 64) = false) :
    let k := ringKey iss.core ((s.core iss.core).ringNext % 64)
    let entry := s.ringEntry t (s.pairAt iss t o.a 0) (s.pairAt iss t o.a 2) (s.pairAt iss t o.a 4) (s.srcB iss t (.copy o) o.b)
    let cmd := (s.begun iss).postedCmd t (s.pairAt iss t o.a 0) (s.pairAt iss t o.a 2) (s.pairAt iss t o.a 4) (s.srcB iss t (.copy o) o.b)
    ∃ r, exec (.copy o) s = .next r ∧ r.scratchRead k 32 = entry % 2 ^ 256 ∧ (∀ j, j < k ∨ k + 32 ≤ j → r.scratchByte j = s.scratchByte j) ∧
      tget? r.copyCmds s.nextId = some cmd ∧
      Still iss (fun _ th => th.past iss.pc (iss.next (.copy o))) ((s.begun iss).posted t r.scratch cmd) r ∧ r.copyCmds = tset s.copyCmds s.nextId cmd := by
  intro k entry cmd
  obtain ⟨r, hexec, hst⟩ := copy_still h hctl hwait hroom
  rw [postCopy_eq, begun_ringEntry] at hst
  change Still iss _ ((s.begun iss).posted t ((s.begun iss).ringWritten t entry).scratch cmd) r at hst
  have hk : ringKey (coreOf t) (((s.begun iss).core (coreOf t)).ringNext % 64) = k := by rw [h.coreOf_eq, begun_ringNext]
  have hcmds : r.copyCmds = tset s.copyCmds s.nextId cmd := by
    rw [rest_congr hst.kept.rest State.copyCmds fun _ => rfl, posted_copyCmds, rest_congr (begun_rest s iss) State.copyCmds fun _ => rfl,
      rest_congr (begun_rest s iss) State.nextId fun _ => rfl]
  have hbyte : ∀ j, r.scratchByte j = ((s.begun iss).scratchWrite k 32 entry).scratchByte j := by
    intro j
    rw [hst.scratchByte, posted_scratchByte _ _ _ _ (ringWritten_core _ _ _), State.ringWritten, hk]
  refine ⟨r, hexec, ?_, fun j hj => ?_, ?_, ?_, hcmds⟩
  · rw [scratchRead_congr fun j _ _ => hbyte j, scratchRead_scratchWrite, show 256 ^ 32 = 2 ^ 256 by norm_num]
  · rw [hbyte, scratchByte_scratchWrite_ne _ _ hj, begun_scratchByte]
  · rw [hcmds]
    exact tget?_tset_self ..
  · rw [hst.scratch, posted_scratch]
    exact hst

/-! ### Batches sealed, waited for and polled -/

theorem cbseal_puts (h : Alone s iss (.cbseal o) o t) : s.Puts iss (.cbseal o) o 1 [t] (fun _ => ((s.thread t).sealed + 1) % 2 ^ 16)
    ((s.begun iss).modThread t fun th => { th with sealed := (th.sealed + 1) % 2 ^ 16 }) := by
  obtain ⟨-, -, -, -, hl⟩ := fields_of_wellFormed h.issues.formed rfl rfl rfl
  refine ⟨_, rfl, h.wrote (hl rfl) ?_⟩
  rw [h.kWriter_eq, ← begun_thread s iss t]
  rfl

theorem cbwait_passes (h : Alone s iss (.cbwait o) o t) (hsealed : (s.thread t).unsealed (s.srcB iss t (.cbwait o) o.b % 2 ^ 16) = false)
    (hended : (s.thread t).batchEnded (s.srcB iss t (.cbwait o) o.b % 2 ^ 16) = true)
    (hnote : ∀ n, (s.thread t).note = some n → upTo n.batch (s.srcB iss t (.cbwait o) o.b % 2 ^ 16) = false) :
    s.Passes iss (.cbwait o) (s.begun iss) := by
  obtain ⟨-, -, -, -, hl⟩ := fields_of_wellFormed h.issues.formed rfl rfl rfl
  refine ⟨_, rfl, h.still (r := .next) (hl rfl) ?_ rfl⟩
  simp only [begun_srcB h.issues h.mem, begun_thread, hsealed, hended, Bool.not_true, Bool.false_eq_true, if_false]
  cases hn : (s.thread t).note with
  | none => rfl
  | some n => simp only [hnote n hn, Bool.false_eq_true, if_false]

theorem cbpoll_puts (h : Alone s iss (.cbpoll o) o t) (hsealed : (s.thread t).unsealed (s.srcB iss t (.cbpoll o) o.b % 2 ^ 16) = false) :
    s.Puts iss (.cbpoll o) o 1 [t] (fun _ => ((s.thread t).batchEnded (s.srcB iss t (.cbpoll o) o.b % 2 ^ 16)).toNat) (s.begun iss) := by
  obtain ⟨-, -, -, -, hl⟩ := fields_of_wellFormed h.issues.formed rfl rfl rfl
  refine ⟨_, rfl, h.wrote (hl rfl) ?_⟩
  simp only [begun_srcB h.issues h.mem, begun_thread, hsealed, Bool.false_eq_true, if_false]

end

/-- Settles O28: a ring entry is read back as it was written, and a batch that has ended leaves CBWAIT and CBPOLL nothing to wait for. -/
theorem copiesArePosted : Obligations.CopiesArePosted := by
  unfold Obligations.CopiesArePosted
  intro o s iss t th idx batch sealed' ended
  refine ⟨fun h hctl hwait hroom => ?_, cbseal_puts, fun h hs he hn => ?_, fun h hs => ⟨fun he => ?_, fun he => ?_⟩⟩
  · obtain ⟨r, hexec, hread, hframe, hcmd, hst, hcmds⟩ := copy_posts h hctl hwait hroom
    refine ⟨r, hexec, hread, hframe, ⟨_, hcmd, ?_, rfl, ?_⟩, ?_⟩
    · simp only [State.postedCmd, h.coreOf_eq, begun_ringNext]
      rfl
    · simp only [State.postedCmd, begun_thread]
      rfl
    · rw [hcmds]
      have hbegun : (s.begun iss).copyCmds = s.copyCmds ∧ (s.begun iss).nextId = s.nextId :=
        ⟨rest_congr (begun_rest s iss) State.copyCmds fun _ => rfl, rest_congr (begun_rest s iss) State.nextId fun _ => rfl⟩
      rw [State.posted, hbegun.1, hbegun.2, h.coreOf_eq, begun_ringNext] at hst
      exact hst
  · exact cbwait_passes h (Thread.unsealed_eq_false hs) (Thread.batchEnded_iff.2 he) fun n hnote => upTo_eq_false (hn n hnote)
  · have hp := cbpoll_puts h (Thread.unsealed_eq_false hs)
    rwa [Thread.batchEnded_iff.2 he] at hp
  · have hp := cbpoll_puts h (Thread.unsealed_eq_false hs)
    rwa [Bool.eq_false_iff.2 fun hb => he (Thread.batchEnded_iff.1 hb)] at hp

end Sys2Proof.Machine
end

section
/-! The transfers of a window (08 R182 to R184): a word of a fetched sector, the end of a fill, the end of a drain. -/

namespace Sys2Proof.Machine

/-! ### Windows of a core -/

theorem window_modWindow (s : State) (c d n m : Nat) (f : Window → Window) :
    (s.modWindow c n f).window d m = if c = d ∧ n = m then f (s.window c n) else s.window d m := by
  simp only [State.window, State.modWindow, State.core_modCore]
  by_cases hc : c = d
  · subst hc
    by_cases hn : n = m
    · subst hn
      simp
    · simp [hn, tget_tset_ne]
  · simp [hc]

theorem window_modWindow_self (s : State) (c n : Nat) (f : Window → Window) : (s.modWindow c n f).window c n = f (s.window c n) := by
  rw [window_modWindow, if_pos ⟨rfl, rfl⟩]

theorem scratchWrite_window (s : State) (k n v c slot : Nat) : (s.scratchWrite k n v).window c slot = s.window c slot := by
  rw [State.window, scratchWrite_core]
  rfl

theorem window_unsent {r s : State} (h : r.unsent = s.unsent) (c slot : Nat) : r.window c slot = s.window c slot := unsent_field h (·.window c slot)

theorem modWindow_scratchByte (s : State) (c slot : Nat) (f : Window → Window) (k : Nat) : (s.modWindow c slot f).scratchByte k = s.scratchByte k := by
  refine scratchByte_congr (s := s) (y := s.modWindow c slot f) rfl (fun d => ?_) k
  rw [State.modWindow, State.core_modCore]
  split <;> simp

/-! ### What a fetched sector brings (03 R57, R61) -/

/-- An answer's words are taken as they came where the reader's own levels have nothing newer. -/
theorem ownWord_of_unowned {s : State} {level agent w : Nat} {v : Word}
    (hdie : agent % 1024 < 8 → (s.copy (l2Level (agentDie agent)) w).all (fun c => !c.owned) = true)
    (hlevel : (s.copy level w).all (fun c => !c.owned && !c.pend) = true) : s.ownWord level agent w v = v := by
  have hhigh : (if agent % 1024 < 8 then (s.dieData (agentDie agent) w).getD v else v) = v := by
    split
    · next h =>
      have hnone : s.dieData (agentDie agent) w = none := by
        unfold State.dieData
        have hd := hdie h
        split
        · next c hc =>
          rw [hc] at hd
          rw [if_neg (by simpa using hd)]
        · rfl
      rw [hnone]
      rfl
    · rfl
  rw [State.ownWord, hhigh]
  cases hc : s.copy level w with
  | none => rfl
  | some c =>
    rw [hc] at hlevel
    simp only [Option.all_some, Bool.and_eq_true, Bool.not_eq_true'] at hlevel
    simp [hlevel.1, hlevel.2]

theorem answerWords_single {s : State} {x : Msg} {i : Item} {v : Word} (hitems : x.items = [i]) (hans : x.ans = [v])
    (h : s.ownWord x.level x.agent i.w v = v) : (s.answerWords x).ans = [v] := by
  unfold State.answerWords
  split
  · exact hans
  · simp [hitems, hans, h]

/-! ### A word of a sector in its place -/

/-- A fetched word in the scratchpad, present in its window; the request is no longer one of the fill's. -/
def State.sectorTaken (s : State) (id core slot key n region : Nat) (v : Word) : State :=
  ((s.scratchWrite key 4 v.toNat).modWindow core slot fun z => { z with present := tset z.present n region }).modWindow core slot fun z =>
    { z with fills := z.fills.erase id }

theorem sectorTaken_scratchRead (s : State) (id core slot key n region : Nat) (v : Word) :
    (s.sectorTaken id core slot key n region v).scratchRead key 4 = v.toNat := by
  have hbyte : ∀ j, (s.sectorTaken id core slot key n region v).scratchByte j = (s.scratchWrite key 4 v.toNat).scratchByte j := fun j => by
    rw [State.sectorTaken, modWindow_scratchByte, modWindow_scratchByte]
  rw [scratchRead_congr fun j _ _ => hbyte j, scratchRead_scratchWrite]
  exact Nat.mod_eq_of_lt v.isLt

theorem sectorTaken_present (s : State) (id core slot key n region : Nat) (v : Word) :
    tget? ((s.sectorTaken id core slot key n region v).window core slot).present n = some region := by
  rw [State.sectorTaken, window_modWindow_self, window_modWindow_self]
  exact tget?_tset_self ..

theorem scratchWrite_hole (s : State) (k n v : Nat) : (s.scratchWrite k n v).hole = s.hole := by rw [scratchWrite_eq]
theorem scratchWrite_regs (s : State) (k n v : Nat) : (s.scratchWrite k n v).regs = s.regs := by rw [scratchWrite_eq]

theorem exec_windowSectorFetchDone {s : State} {id core slot key : Nat} {x : Msg} {i : Item} {v : Word} (hole : s.hole = false) (hx : s.msg id = some x)
    (hclient : x.client = .window core slot) (hwin : x.win = some key) (hst : x.st = .answered) (haway : x.away = false) (hneg : x.negative = false)
    (hitems : x.items = [i]) (hans : (s.answerWords x).ans = [v]) (hleft : (s.window core slot).fillLeft = []) (hfills : id ∈ (s.window core slot).fills)
    (habsent : tget? (s.window core slot).present ((key % 2 ^ 21 - (s.window core slot).off) / 4 + i.w % 8) = none) :
    exec (.windowSectorFetchDone id) s = .next ((s.sectorTaken id core slot (key + 4 * (i.w % 8))
      ((key % 2 ^ 21 - (s.window core slot).off) / 4 + i.w % 8) x.region v).finishMsg id) := by
  have hcontains : (s.window core slot).fills.contains id = true := List.elem_eq_true_of_mem hfills
  have hbody : exec (.windowSectorFetchDone id) s = done ((s.sectorTaken id core slot (key + 4 * (i.w % 8))
      ((key % 2 ^ 21 - (s.window core slot).off) / 4 + i.w % 8) x.region v).finishMsg id) := by
    unfold exec execWindowSectorFetchDone
    simp only [hx, hclient, hwin, hst, haway, hneg, hcontains, hitems, hans, hleft, List.zip_cons_cons, List.zip_nil_right, List.foldl_cons, List.foldl_nil,
      habsent, List.length_nil, State.pumpFill]
    rfl
  rw [hbody]
  refine done_of_hole ?_
  rw [unsent_field (finishMsg_unsent _ id) State.hole]
  exact (scratchWrite_hole ..).trans hole

/-- Settles O25: the ends of a fill and a drain leave the instruction's own case split one branch, and a fetched word is written where it is absent. -/
theorem windowTransfers : Obligations.WindowTransfers := by
  unfold Obligations.WindowTransfers
  intro s p c slot k w hole
  refine ⟨fun hst hlive hleft => ?_, fun hst hdrains hpend hown => ?_, ?_⟩
  · have hany : (w.fills.any fun id => s.live id) = false := by simpa using hlive
    have hfull : ((List.range (w.size / 4)).all fun j => (tget? w.present j).isSome) = decide (∀ j < w.size / 4, (tget? w.present j).isSome = true) := by
      rw [Bool.eq_iff_iff]
      simp
    have hbody : exec (.wfillComplete p c slot) s = done (s.modWindow k slot fun x =>
        { x with st := if ((List.range (w.size / 4)).all fun j => (tget? w.present j).isSome) then .full else .empty, fills := [] }) := by
      unfold exec execWfillComplete
      simp only [show (s.window (coreKey p c) slot).st = .filling from hst, show ((s.window (coreKey p c) slot).fills.any fun id => s.live id) = false from hany,
        show (s.window (coreKey p c) slot).fillLeft = [] from hleft]
      rfl
    rw [hbody, done_of_hole (s := s.modWindow _ _ _) hole]
    simp only [hfull, decide_eq_true_eq]
  · unfold exec execWdrainComplete
    simp only [show (s.window (coreKey p c) slot).st = .draining from hst, show (s.window (coreKey p c) slot).drains = [] from hdrains,
      show s.windowPending (coreKey p c) slot = false from hpend, show s.ownedWords (coreKey p c) slot = [] from hown]
    rfl
  · intro id x key i v hx hclient hwin hst haway hneg hitems hans hdie hlevel hleft hfills hcore hoff habsent
    refine ⟨_, exec_windowSectorFetchDone hole hx hclient hwin hst haway hneg hitems (answerWords_single hitems hans (ownWord_of_unowned hdie hlevel)) hleft
      hfills habsent, ?_, ?_, ?_⟩
    · rw [unsent_field (finishMsg_unsent _ id) fun z : State => z.scratchRead (key + 4 * (i.w % 8)) 4]
      exact sectorTaken_scratchRead ..
    · rw [window_unsent (finishMsg_unsent _ id)]
      exact sectorTaken_present ..
    · rw [unsent_field (finishMsg_unsent _ id) State.regs]
      exact scratchWrite_regs ..

end Sys2Proof.Machine
end

section
/-! Releases (08 R175, 03 R68, R69, R74): what holds one, and what it changes. -/

namespace Sys2Proof.Machine

/-! ### What a release changes (03 R68, 20 R361) -/

theorem setMirror_eq (s : State) (a w : Nat) (v : Word) :
    s.setMirror a w v = { s with mirror := (s.setMirror a w v).mirror, nextId := (s.setMirror a w v).nextId } := by
  unfold State.setMirror
  split
  · dsimp only
    split <;> rfl
  · rfl

/-- The written words that the agent owns, taken to the mirror. -/
def State.mirrored (s : State) (a : Nat) (ws : List Nat) : State :=
  ws.foldl (fun s w => match s.ownerOf w with
    | some e => if e.agent = a then s.setMirror e.agent w (s.wordVal w) else s
    | none => s) s

theorem mirrored_eq (s : State) (a : Nat) (ws : List Nat) :
    s.mirrored a ws = { s with mirror := (s.mirrored a ws).mirror, nextId := (s.mirrored a ws).nextId } := by
  induction ws generalizing s with
  | nil => rfl
  | cons w ws ih =>
    have hstep : ∃ mi n, (match s.ownerOf w with
        | some e => if e.agent = a then s.setMirror e.agent w (s.wordVal w) else s
        | none => s) = { s with mirror := mi, nextId := n } := by
      split
      · split
        · exact ⟨_, _, setMirror_eq ..⟩
        · exact ⟨_, _, rfl⟩
      · exact ⟨_, _, rfl⟩
    obtain ⟨mi, n, hz⟩ := hstep
    rw [State.mirrored, List.foldl_cons, hz]
    exact ih { s with mirror := mi, nextId := n }

theorem scopeRank_ge_two (sc : Scope) : scopeRank sc ≥ 2 ↔ sc = .pkg ∨ sc = .sys := by cases sc <;> decide

/-- A release writes the mirror and the release count. -/
def State.counted (s : State) (t : Nat) (sc : Scope) : State :=
  let x := s.who t
  let s := if sc = .grp then s else s.mirrored x.agent (s.thread t).written
  if scopeRank sc ≥ 2 then s.bumpRelease x.agent else s

theorem doRelease_eq (s : State) (t : Nat) (sc : Scope) : s.doRelease t sc = if sc = .grp then s.counted t sc
    else (s.counted t sc).modThread t fun th => { th with written := [], pending := th.pending.filter fun id => (s.counted t sc).live id } := rfl

theorem counted_eq (s : State) (t : Nat) (sc : Scope) : s.counted t sc =
    { s with relcount := (s.counted t sc).relcount, mirror := (s.counted t sc).mirror, nextId := (s.counted t sc).nextId } := by
  have hm : ∃ mi n, (if sc = .grp then s else s.mirrored (s.who t).agent (s.thread t).written) = { s with mirror := mi, nextId := n } := by
    split
    · exact ⟨_, _, rfl⟩
    · exact ⟨_, _, mirrored_eq ..⟩
  obtain ⟨mi, n, hz⟩ := hm
  rw [State.counted, hz]
  split <;> rfl

theorem counted_releases (s : State) (t : Nat) (sc : Scope) (a : Nat) : (s.counted t sc).releases a =
    if a = homeAgent (coreOf t) ∧ (sc = .pkg ∨ sc = .sys) then (s.releases a + 1) % 2 ^ 16 else s.releases a := by
  have hm : ∃ mi n, (if sc = .grp then s else s.mirrored (s.who t).agent (s.thread t).written) = { s with mirror := mi, nextId := n } := by
    split
    · exact ⟨_, _, rfl⟩
    · exact ⟨_, _, mirrored_eq ..⟩
  obtain ⟨mi, n, hz⟩ := hm
  have hagent : (s.who t).agent = homeAgent (coreOf t) := rfl
  rw [State.counted, hz, hagent]
  simp only [← scopeRank_ge_two]
  by_cases hr : scopeRank sc ≥ 2
  · by_cases ha : a = homeAgent (coreOf t)
    · subst ha
      simp [hr, State.bumpRelease, State.releases]
    · simp [hr, ha, State.bumpRelease, State.releases, tget_tset_ne _ _ _ (Ne.symm ha)]
  · simp [hr, State.releases]

theorem counted_rest (s : State) (t : Nat) (sc : Scope) : (s.counted t sc).rest =
    { s.rest with relcount := (s.counted t sc).relcount, mirror := (s.counted t sc).mirror, nextId := (s.counted t sc).nextId } :=
  congrArg State.rest (counted_eq s t sc)

theorem counted_field {α : Sort _} (s : State) (t : Nat) (sc : Scope) (f : State → α)
    (hf : ∀ s rc mi n, f { s with relcount := rc, mirror := mi, nextId := n } = f s := by intros; rfl) : f (s.counted t sc) = f s := by
  rw [counted_eq, hf]

/-- What a release leaves alone. -/
theorem doRelease_field {α : Sort _} (s : State) (t : Nat) (sc : Scope) (f : State → α)
    (hf : ∀ s rc mi n th, f { s with relcount := rc, mirror := mi, nextId := n, threads := th } = f s := by intros; rfl) : f (s.doRelease t sc) = f s := by
  rw [doRelease_eq]
  split
  · exact counted_field s t sc f fun s rc mi n => hf s rc mi n s.threads
  · exact (hf (s.counted t sc) _ _ _ _).trans (counted_field s t sc f fun s rc mi n => hf s rc mi n s.threads)

theorem doRelease_thread_ne (s : State) {t u : Nat} (sc : Scope) (h : u ≠ t) : (s.doRelease t sc).thread u = s.thread u := by
  have hc : (s.counted t sc).thread u = s.thread u := counted_field s t sc (·.thread u)
  rw [doRelease_eq]
  split
  · exact hc
  · rw [State.thread_modThread, if_neg (Ne.symm h), hc]

theorem doRelease_thread (s : State) (t : Nat) (sc : Scope) : (s.doRelease t sc).thread t =
    { s.thread t with written := ((s.doRelease t sc).thread t).written, pending := ((s.doRelease t sc).thread t).pending } := by
  have hc : (s.counted t sc).thread t = s.thread t := counted_field s t sc (·.thread t)
  rw [doRelease_eq]
  split
  · rw [hc]
  · rw [State.thread_modThread, if_pos rfl, hc]

theorem doRelease_written (s : State) (t : Nat) {sc : Scope} (h : sc ≠ .grp) : ((s.doRelease t sc).thread t).written = [] := by
  rw [doRelease_eq, if_neg h, State.thread_modThread, if_pos rfl]

theorem doRelease_releases (s : State) (t : Nat) (sc : Scope) (a : Nat) : (s.doRelease t sc).releases a = (s.counted t sc).releases a := by
  rw [doRelease_eq]
  split <;> rfl

theorem doRelease_rest (s : State) (t : Nat) (sc : Scope) : (s.doRelease t sc).rest =
    { s with relcount := (s.doRelease t sc).relcount, mirror := (s.doRelease t sc).mirror, nextId := (s.doRelease t sc).nextId }.rest := by
  have hd : (s.doRelease t sc).rest = (s.counted t sc).rest ∧ (s.doRelease t sc).relcount = (s.counted t sc).relcount ∧
      (s.doRelease t sc).mirror = (s.counted t sc).mirror ∧ (s.doRelease t sc).nextId = (s.counted t sc).nextId := by
    rw [doRelease_eq]
    split <;> exact ⟨rfl, rfl, rfl, rfl⟩
  obtain ⟨hrest, hrel, hmir, hnext⟩ := hd
  rw [hrest, hrel, hmir, hnext]
  exact counted_rest ..

/-! ### What holds a release -/

theorem releaseReady_iff (s : State) (t : Nat) (sc : Scope) : s.releaseReady t sc = true ↔
    (∀ id ∈ (s.thread t).pending, ∀ m, s.msg id = some m → m.st ≠ .finished →
      if m.attr = 3 ∧ endPkg m.dst ≠ pkgOf (coreOf t) ∧ m.kind ≠ .load then sc ≠ .sys else sc = .grp ∧ (m.kind = .reg ∨ m.kind = .load)) ∧
    (sc ≠ .grp → ∀ w ∈ (s.thread t).written, ∀ c, s.copy (s.who t).level w = some c → c.pend = false) := by
  have hcore : (s.who t).core = coreOf t := rfl
  have hholds : ∀ m : Msg, m.holdsRelease (pkgOf (coreOf t)) sc = false ↔
      if m.attr = 3 ∧ endPkg m.dst ≠ pkgOf (coreOf t) ∧ m.kind ≠ .load then sc ≠ .sys else sc = .grp ∧ (m.kind = .reg ∨ m.kind = .load) := by
    intro m
    unfold Msg.holdsRelease
    split
    · simp
    · simp [or_iff_not_imp_left]
  unfold State.releaseReady
  rw [Bool.and_eq_true, List.all_eq_true, Bool.or_eq_true, decide_eq_true_eq, or_iff_not_imp_left, List.all_eq_true]
  refine and_congr (forall₂_congr fun id _ => ?_) (imp_congr_right fun _ => forall₂_congr fun w _ => ?_)
  · rw [hcore]
    unfold State.live
    simp only [← hholds]
    cases s.msg id with
    | none => simp
    | some m => by_cases hf : m.st = .finished <;> simp [hf]
  · cases s.copy (s.who t).level w with
    | none => simp
    | some c => simp

/-! ### REL and FENCE -/

section
variable {s : State} {iss : Issue} {o : Ops} {t : Nat} {sc : Scope}

theorem begun_msg (id : Nat) : (s.begun iss).msg id = s.msg id := rest_congr (begun_rest s iss) (·.msg id) fun _ => rfl

theorem begun_loadsPending (t : Nat) : (s.begun iss).loadsPending t = s.loadsPending t := by
  simp only [State.loadsPending, begun_thread, begun_msg]

theorem begun_releaseReady (t : Nat) : (s.begun iss).releaseReady t sc = s.releaseReady t sc := by
  have hcopy : ∀ l w, (s.begun iss).copy l w = s.copy l w := fun l w => rest_congr (begun_rest s iss) (·.copy l w) fun _ => rfl
  have hlive : ∀ id, (s.begun iss).live id = s.live id := fun id => rest_congr (begun_rest s iss) (·.live id) fun _ => rfl
  simp only [State.releaseReady, begun_thread, begun_who, begun_msg, hcopy, hlive]

/-- What a release leaves behind it: the release count, the latest values, the thread's written words, and nothing else. -/
structure Released (iss : Issue) (i : Instr) (t : Nat) (sc : Scope) (s r : State) : Prop where
  releases : ∀ a, r.releases a = if a = homeAgent (coreOf t) ∧ (sc = .pkg ∨ sc = .sys) then (s.releases a + 1) % 2 ^ 16 else s.releases a
  wordVal : ∀ w, r.wordVal w = s.wordVal w
  written : sc ≠ .grp → (r.thread t).written = []
  still : Still iss (fun _ th => { th with written := (r.thread t).written, pending := (r.thread t).pending }.past iss.pc (iss.next i))
    { s.begun iss with relcount := r.relcount, mirror := r.mirror, nextId := r.nextId } r

theorem Thread.past_pending (th : Thread) (pc next : Nat) : (th.past pc next).pending = th.pending := by
  have hlc : ∀ (th : Thread) (i : Nat) (x : Lc), (th.setLc i x).pending = th.pending := by
    intro th i x
    unfold Thread.setLc
    split <;> rfl
  have hsame : (th.loopUpdate pc next).1.pending = th.pending := by
    unfold Thread.loopUpdate
    simp only
    split
    · rfl
    · split
      · rfl
      · split
        · split <;> split <;> exact hlc ..
        · rfl
  exact hsame

theorem released_of_still {i : Instr} {r : State} (hone : iss.threads = [t])
    (h : Still iss (fun _ th => th.past iss.pc (iss.next i)) ((s.begun iss).doRelease t sc) r) : Released iss i t sc s r := by
  have hmem : t ∈ iss.threads := by simp [hone]
  have hthread := h.kept.threads t hmem
  have hwritten : (r.thread t).written = (((s.begun iss).doRelease t sc).thread t).written :=
    (congrArg Thread.written hthread :).trans (Thread.past_written ..)
  have hpending : (r.thread t).pending = (((s.begun iss).doRelease t sc).thread t).pending :=
    (congrArg Thread.pending hthread :).trans (Thread.past_pending ..)
  have hrest := h.kept.rest
  refine ⟨fun a => ?_, fun w => ?_, fun hsc => ?_, ?_⟩
  · rw [rest_congr hrest (·.releases a) fun _ => rfl, doRelease_releases, counted_releases, rest_congr (begun_rest s iss) (·.releases a) fun _ => rfl]
  · rw [wordVal_of_rest hrest h.core_plain, doRelease_field (s.begun iss) t sc (·.wordVal w), wordVal_of_rest (begun_rest s iss) (begun_core s iss)]
  · rw [hwritten, doRelease_written _ _ hsc]
  · rw [hwritten, hpending]
    refine h.of_threads ?_ (doRelease_field _ _ _ State.regs) (doRelease_field _ _ _ State.squads) (doRelease_field _ _ _ State.cores) ?_ ?_
    · rw [doRelease_rest, rest_congr hrest State.relcount fun _ => rfl, rest_congr hrest State.mirror fun _ => rfl, rest_congr hrest State.nextId fun _ => rfl]
    · intro u hu
      obtain rfl : u = t := by simpa [hone] using hu
      exact congrArg (fun th : Thread => th.past iss.pc (iss.next i)) (doRelease_thread (s.begun iss) u sc)
    · intro u hu
      exact doRelease_thread_ne _ _ fun hut => hu (hut ▸ hmem)

theorem rel_releases (h : Alone s iss (.rel o sc) o t) (hole : s.hole = false) (hr : s.releaseReady t sc = true) :
    ∃ r, exec (.rel o sc) s = .next r ∧ Released iss (.rel o sc) t sc s r := by
  obtain ⟨-, -, -, -, hl⟩ := fields_of_wellFormed h.issues.formed rfl rfl rfl
  have hy : ((s.begun iss).doRelease t sc).hole = false :=
    (doRelease_field _ _ _ State.hole).trans ((rest_congr (begun_rest s iss) State.hole fun _ => rfl).trans hole)
  obtain ⟨r, hexec, hst⟩ := exec_of_body (body := fun _ => relBody sc) (r := .next) h (hl rfl)
    (by rw [relBody, begun_releaseReady, hr, if_pos rfl]) rfl hy
  exact ⟨r, hexec, released_of_still h.only hst⟩

theorem fence_releases (h : Alone s iss (.fence o sc) o t) (hole : s.hole = false) (hload : s.loadsPending t = false) (hr : s.releaseReady t sc = true) :
    ∃ r, exec (.fence o sc) s = .next r ∧ Released iss (.fence o sc) t sc s r := by
  obtain ⟨-, -, -, -, hl⟩ := fields_of_wellFormed h.issues.formed rfl rfl rfl
  have hy : ((s.begun iss).doRelease t sc).hole = false :=
    (doRelease_field _ _ _ State.hole).trans ((rest_congr (begun_rest s iss) State.hole fun _ => rfl).trans hole)
  obtain ⟨r, hexec, hst⟩ := exec_of_body (r := .next) h (hl rfl)
    (body := fun _ s0 s t => if s.loadsPending t then (s, .stay (.blocked .again)) else relBody sc s0 s t)
    (by rw [begun_loadsPending, hload, relBody, begun_releaseReady, hr]; rfl) rfl hy
  exact ⟨r, hexec, released_of_still h.only hst⟩

theorem rel_stays (h : Alone s iss (.rel o sc) o t) (hole : s.hole = false) (hr : s.releaseReady t sc = false) :
    s.Stays iss (.rel o sc) (.blocked .again) (s.begun iss) := by
  obtain ⟨-, -, -, -, hl⟩ := fields_of_wellFormed h.issues.formed rfl rfl rfl
  exact exec_of_body (body := fun _ => relBody sc) (r := .stay (.blocked .again)) h (hl rfl)
    (by rw [relBody, begun_releaseReady, hr]; rfl) rfl ((rest_congr (begun_rest s iss) State.hole fun _ => rfl).trans hole)

theorem fence_stays (h : Alone s iss (.fence o sc) o t) (hole : s.hole = false) (hr : s.loadsPending t = true ∨ s.releaseReady t sc = false) :
    s.Stays iss (.fence o sc) (.blocked .again) (s.begun iss) := by
  obtain ⟨-, -, -, -, hl⟩ := fields_of_wellFormed h.issues.formed rfl rfl rfl
  refine exec_of_body (body := fun _ s0 s t => if s.loadsPending t then (s, .stay (.blocked .again)) else relBody sc s0 s t)
    (r := .stay (.blocked .again)) h (hl rfl) ?_ rfl ((rest_congr (begun_rest s iss) State.hole fun _ => rfl).trans hole)
  rw [begun_loadsPending, relBody, begun_releaseReady]
  cases hload : s.loadsPending t with
  | true => rfl
  | false =>
    rw [hload] at hr
    rw [hr.resolve_left Bool.false_ne_true]
    rfl

end

/-- Settles O23: a release writes the mirror, the release count and the thread's own lists, of which no latest value is made. -/
theorem releaseCounts : Obligations.ReleaseCounts := by
  unfold Obligations.ReleaseCounts
  intro o sc s iss t ends
  have hends : ∀ i, (∃ r, exec i s = .next r ∧ Released iss i t sc s r) → ends i := by
    rintro i ⟨r, hexec, hrel, hval, hwritten, hst⟩
    exact ⟨r, hexec, hrel, hval, hwritten, hst⟩
  refine ⟨releaseReady_iff s t sc, fun hole => ⟨fun h hr => hends _ (rel_releases h hole hr), fun h hload hr => hends _ (fence_releases h hole hload hr),
    fun h hr => rel_stays h hole hr, fun h hr => fence_stays h hole hr⟩⟩

end Sys2Proof.Machine
end

section
/-! What a translation changes: caches of translations, and pages pinned (20 R348 to R352). -/

namespace Sys2Proof.Machine

/-- The machine without what a translation changes. -/
def State.untranslated (s : State) : State := { s with tcs := [], pinSlots := [], pins := [], pinnedPages := [], hole := false }

theorem admitLeaf_untranslated (s : State) (ctx leaf log va : Nat) : (s.admitLeaf ctx leaf log va).1.untranslated = s.untranslated := by
  unfold State.admitLeaf
  split
  · split <;> rfl
  · dsimp only
    split
    · rfl
    · split
      · rfl
      · split <;> rfl
  · rfl

theorem tcAdd_untranslated (path : List Nat) (e : TcEntry) (s : State) : (path.foldl (fun s id => s.tcAdd id e) s).untranslated = s.untranslated :=
  List.foldlRecOn (motive := fun y : State => y.untranslated = s.untranslated) _ _ rfl fun _ hy _ _ => hy

theorem translate_untranslated (s : State) (ctx : Nat) (path : List Nat) (va : Nat) (a : Access) :
    (s.translate ctx path va a).1.untranslated = s.untranslated := by
  have hadmit : ∀ (x : State) (l log va : Nat), x.untranslated = s.untranslated → (x.admitLeaf ctx l log va).1.untranslated = s.untranslated :=
    fun x l log va hx => (admitLeaf_untranslated x ctx l log va).trans hx
  unfold State.translate
  split
  · rfl
  · dsimp only
    -- the walk is left unevaluated
    generalize s.walkFrom (ctx / 64) (va % 2 ^ 57) 4 (ctx / 64 * 2 ^ 46 + (s.ctx ctx).ptroot % 2 ^ 46) = walk
    cases path.findSome? fun id => s.tcFind id ctx (va % 2 ^ 57) with
    | some e =>
      have hy := hadmit s e.leaf e.log (va % 2 ^ 57) rfl
      dsimp only
      split
      · split
        · exact hy
        · rw [← hy]
          split <;> rfl
      · rfl
    | none =>
      cases walk with
      | fault c => rfl
      | leaf l log =>
        have hx := tcAdd_untranslated path { ctx := ctx, base := va % 2 ^ 57 - va % 2 ^ 57 % 2 ^ log, log := log, leaf := l } s
        have hy := hadmit _ l log (va % 2 ^ 57) hx
        dsimp only
        split
        · split
          · exact hy
          · rw [← hy]
            split <;> rfl
        · exact hx

/-- What reads none of it. -/
theorem translate_field {α : Sort _} {s y : State} {ctx va : Nat} {path : List Nat} {a : Access} {tg : Target ⊕ Nat} (h : s.translate ctx path va a = (y, tg))
    (f : State → α) (hf : ∀ s, f s.untranslated = f s := by intro s; rfl) : f y = f s := by
  have hs := translate_untranslated s ctx path va a
  rw [h] at hs
  rw [← hf y, hs, hf]

end Sys2Proof.Machine
end

section
/-! Acquires (08 R174, 03 R67, R70): what one waits for, and what it drops. -/

namespace Sys2Proof.Machine

/-! ### The cores of a gang -/

theorem mem_tset_self {α : Type} (t : Tab α) (i : Nat) (v : α) : (i, v) ∈ tset t i v := mem_of_tget? (tget?_tset_self t i v)

/-- An entry stays when a key is set, unless it is the one found at the key. -/
theorem mem_tset_of_mem {α : Type} {t : Tab α} {p : Nat × α} (h : p ∈ t) (i : Nat) (v : α) : p ∈ tset t i v ∨ p.1 = i ∧ tget? t i = some p.2 := by
  induction t with
  | nil => cases h
  | cons q t ih =>
    obtain ⟨k, w⟩ := q
    rw [tset, tget?]
    split
    · exact .inl (List.mem_cons_of_mem _ h)
    · split
      · next hk =>
        rcases List.mem_cons.1 h with rfl | h
        · exact .inr ⟨hk, rfl⟩
        · exact .inl (List.mem_cons_of_mem _ h)
      · next hk =>
        rcases List.mem_cons.1 h with rfl | h
        · exact .inl List.mem_cons_self
        · exact (ih h).imp_left (List.mem_cons_of_mem _)

theorem gang_modCore {s : State} {k : Nat} {f : Core → Core} (hf : ∀ a, (f a).gang = a.gang) (c : Nat) : ((s.modCore k f).core c).gang = (s.core c).gang := by
  rw [State.core_modCore]
  split
  · subst_vars
    exact hf _
  · rfl

theorem mem_gangCores_modCore {s : State} {c k core : Nat} {f : Core → Core} (hf : ∀ a, (f a).gang = a.gang) :
    c ∈ (s.modCore k f).gangCores core ↔ c ∈ s.gangCores core := by
  refine ⟨mem_gangCores_of_modCore hf, fun h => ?_⟩
  unfold State.gangCores at h ⊢
  rw [gang_modCore hf]
  cases hgang : (s.core core).gang with
  | none => rwa [hgang] at h
  | some g =>
    simp only [hgang, List.mem_map, List.mem_filter, decide_eq_true_eq] at h ⊢
    obtain ⟨p, ⟨hp, hpg⟩, rfl⟩ := h
    rw [State.modCore_cores]
    rcases mem_tset_of_mem hp k (f (s.core k)) with hp | ⟨hk, hfound⟩
    · exact ⟨p, ⟨hp, hpg⟩, rfl⟩
    · refine ⟨_, ⟨mem_tset_self _ k _, ?_⟩, hk.symm⟩
      have hcore : s.core k = p.2 := by rw [State.core, tget, hfound]; rfl
      rw [hf, hcore]
      exact hpg

theorem mem_gangCores_begun (s : State) (iss : Issue) (c core : Nat) : c ∈ (s.begun iss).gangCores core ↔ c ∈ s.gangCores core := by
  unfold State.begun
  split
  · exact mem_gangCores_modCore fun a => (congrArg Core.gang (setSlot_plain a _ _) :)
  · rfl

/-! ### One change to every core of a list -/

/-- The cores of a list changed one after the other. -/
def State.modCores (s : State) (cs : List Nat) (f : Core → Core) : State := cs.foldl (fun s c => s.modCore c f) s

theorem core_modCores (s : State) (cs : List Nat) {f : Core → Core} (hf : ∀ a, f (f a) = f a) (c : Nat) :
    (s.modCores cs f).core c = if c ∈ cs then f (s.core c) else s.core c := by
  induction cs generalizing s with
  | nil => simp [State.modCores]
  | cons d cs ih =>
    rw [State.modCores, List.foldl_cons, ← State.modCores, ih, State.core_modCore]
    by_cases hd : d = c
    · simp [hd, hf]
    · simp [hd, Ne.symm hd]

theorem modCores_eq (s : State) (cs : List Nat) (f : Core → Core) : s.modCores cs f = { s with cores := (s.modCores cs f).cores } := by
  induction cs generalizing s with
  | nil => rfl
  | cons d cs ih => exact ih (s.modCore d f)

theorem mem_gangCores_modCores {s : State} {c core : Nat} {f : Core → Core} (hf : ∀ a, (f a).gang = a.gang) (cs : List Nat) :
    c ∈ (s.modCores cs f).gangCores core ↔ c ∈ s.gangCores core := by
  induction cs generalizing s with
  | nil => rfl
  | cons d cs ih => exact ih.trans (mem_gangCores_modCore hf)

/-! ### The windows of a gang (03 R70) -/

/-- True of a present word of a window that an acquire drops. -/
def Window.goes (w : Window) (mask : Nat) (e : Nat × Nat) : Bool := decide (w.st ≠ .unbound) && mask.testBit e.2 && !w.owned.contains e.1

theorem Window.acquire_eq (w : Window) (mask : Nat) : w.acquire mask = if w.present.any (w.goes mask) then
    { w with present := w.present.filter fun e => !w.goes mask e, st := if w.st = .full then .empty else w.st, wasFull := false } else w := by
  unfold Window.acquire
  by_cases hst : w.st = .unbound
  · have hgoes : w.present.any (w.goes mask) = false := by simp [Window.goes, hst]
    rw [if_pos hst, hgoes]
    rfl
  · have hgoes : (fun e : Nat × Nat => mask.testBit e.2 && !w.owned.contains e.1) = w.goes mask := by
      funext e
      simp [Window.goes, hst]
    rw [if_neg hst]
    simp only [← hgoes, List.filter_eq_nil_iff]
    by_cases hany : w.present.any (fun e => mask.testBit e.2 && !w.owned.contains e.1) = true
    · rw [if_pos hany, if_neg]
      simpa [List.any_eq_true] using hany
    · rw [if_neg hany, if_pos]
      simpa [List.any_eq_true] using hany

theorem Window.acquire_acquire (w : Window) (mask : Nat) : (w.acquire mask).acquire mask = w.acquire mask := by
  rw [Window.acquire_eq w]
  split
  · rw [Window.acquire_eq, if_neg]
    rw [Bool.not_eq_true, List.any_eq_false]
    intro e he
    obtain ⟨-, hstay⟩ := List.mem_filter.1 he
    have hgoes : w.goes mask e = false := by simpa using hstay
    by_cases hfull : w.st = .full
    · simpa [Window.goes, hfull] using hgoes
    · simpa only [Window.goes, if_neg hfull, Bool.not_eq_true] using hgoes
  · rw [Window.acquire_eq, if_neg ‹_›]

/-- An acquire's effect on a core. -/
def Core.acquire (mask : Nat) (c : Core) : Core := { c with windows := c.windows.map fun y => (y.1, y.2.acquire mask) }

theorem Core.acquire_acquire (mask : Nat) (c : Core) : (c.acquire mask).acquire mask = c.acquire mask := by
  simp [Core.acquire, Window.acquire_acquire]

/-! ### Valid copies dropped by tag (03 R67) -/

/-- True of a copy that an acquire drops at a level of a list. -/
def Copy.tagged (levels : List Nat) (mask : Nat) (e : Nat × Copy) : Prop :=
  e.1 / 2 ^ 50 ∈ levels ∧ e.2.owned = false ∧ e.2.pend = false ∧ mask.testBit e.2.region = true

theorem mem_dropTagged (s : State) (level mask : Nat) (e : Nat × Copy) :
    e ∈ (s.dropTagged level mask).copies ↔ e ∈ s.copies ∧ ¬ Copy.tagged [level] mask e := by
  simp only [State.dropTagged, List.mem_filter, Copy.tagged, List.mem_singleton]
  refine and_congr_right fun _ => ?_
  generalize e.1 / 2 ^ 50 = l
  by_cases hl : l = level <;> cases e.2.owned <;> cases e.2.pend <;> simp [hl]

/-- The levels dropped one after the other. -/
def State.dropLevels (s : State) (levels : List Nat) (mask : Nat) : State := levels.foldl (fun s l => s.dropTagged l mask) s

theorem mem_dropLevels (s : State) (levels : List Nat) (mask : Nat) (e : Nat × Copy) :
    e ∈ (s.dropLevels levels mask).copies ↔ e ∈ s.copies ∧ ¬ Copy.tagged levels mask e := by
  induction levels generalizing s with
  | nil => simp [State.dropLevels, Copy.tagged]
  | cons l levels ih =>
    have hstep : s.dropLevels (l :: levels) mask = (s.dropTagged l mask).dropLevels levels mask := rfl
    rw [hstep, ih, mem_dropTagged, and_assoc]
    refine and_congr_right fun _ => ?_
    simp only [Copy.tagged, List.mem_cons, List.not_mem_nil, or_false]
    tauto

theorem dropLevels_eq (s : State) (levels : List Nat) (mask : Nat) : s.dropLevels levels mask = { s with copies := (s.dropLevels levels mask).copies } := by
  induction levels generalizing s with
  | nil => rfl
  | cons l levels ih => exact ih (s.dropTagged l mask)

/-! ### Words of the windows on their way -/

/-- True of a fetch of a word of a window of the cores cs, in a region that an acquire names. -/
def Msg.fetches (cs : List Nat) (mask : Nat) (m : Msg) : Prop :=
  m.kind = .load ∧ mask.testBit m.region = true ∧ ∃ c slot, m.client = .window c slot ∧ c ∈ cs

/-- What an acquire makes of a request. -/
def Msg.acquired (cs : List Nat) (mask : Nat) (m : Msg) : Msg :=
  match m.client with
  | .window c _ => if m.kind = .load && cs.contains c && mask.testBit m.region then
      (if m.st = .answered then { m with items := [], ans := [] } else { m with got := [] }) else m
  | _ => m

theorem dropFetched_eq (s : State) (core mask : Nat) :
    s.dropFetched core mask = { s with msgs := s.msgs.map fun p => (p.1, p.2.acquired (s.gangCores core) mask) } := by
  unfold State.dropFetched
  refine congrArg (fun f => { s with msgs := s.msgs.map f }) (funext fun p => ?_)
  obtain ⟨k, m⟩ := p
  rw [Msg.acquired]
  dsimp only
  cases m.client with
  | window c slot =>
    dsimp only
    split <;> rfl
  | _ => rfl

theorem Msg.acquired_of_fetches {cs : List Nat} {mask : Nat} {m : Msg} (h : m.fetches cs mask) :
    m.acquired cs mask = if m.st = .answered then { m with items := [], ans := [] } else { m with got := [] } := by
  obtain ⟨hkind, hmask, c, slot, hclient, hc⟩ := h
  simp [Msg.acquired, hclient, hkind, hmask, hc]

theorem Msg.acquired_of_not_fetches {cs : List Nat} {mask : Nat} {m : Msg} (h : ¬ m.fetches cs mask) : m.acquired cs mask = m := by
  unfold Msg.acquired
  split
  · next c slot hclient =>
    refine if_neg fun hc => h ?_
    simp only [Bool.and_eq_true, decide_eq_true_eq, List.contains_iff_mem] at hc
    obtain ⟨⟨hkind, hmem⟩, hmask⟩ := hc
    exact ⟨hkind, hmask, c, slot, hclient, hmem⟩
  · rfl

/-! ### An acquire -/

/-- The levels below a scope that an acquire by a core's thread drops copies of, the LLC first. -/
def acquireLevels (core : Nat) (sc : Scope) : List Nat :=
  (if sc = .sys then [llcLevel (pkgOf core)] else []) ++
    (if isMarl core then (if sc = .pkg ∨ sc = .sys then [marlLevel core] else [])
     else (if sc = .grp then [] else [l1Level (clusterOf core)]) ++ (if sc = .pkg ∨ sc = .sys then [l2Level (dieOf core)] else []))

/-- The cores whose windows an acquire changes. -/
def State.acquireCores (s : State) (core : Nat) : List Nat := if isMarl core then [] else s.gangCores core

/-- The machine without copies, cores and requests. -/
def State.unacquired (s : State) : State := { s with copies := [], cores := [], msgs := [] }

/-- What an acquire changes: copies by their levels, windows and what is on its way into them. -/
structure Acquired (s r : State) (core : Nat) (sc : Scope) (mask : Nat) : Prop where
  copies : ∀ e, e ∈ r.copies ↔ e ∈ s.copies ∧ ¬ Copy.tagged (acquireLevels core sc) mask e
  cores : ∀ c, r.core c = if c ∈ s.acquireCores core then (s.core c).acquire mask else s.core c
  msg : ∀ id, r.msg id = (s.msg id).map (Msg.acquired (s.acquireCores core) mask)
  rest : r.unacquired = s.unacquired

theorem Msg.acquired_nil (mask : Nat) : Msg.acquired [] mask = id := by
  funext m
  exact Msg.acquired_of_not_fetches fun ⟨_, _, c, _, _, hc⟩ => nomatch hc

theorem Msg.acquired_congr {cs ds : List Nat} (h : ∀ c, c ∈ cs ↔ c ∈ ds) (mask : Nat) : Msg.acquired cs mask = Msg.acquired ds mask := by
  funext m
  have hf : m.fetches cs mask ↔ m.fetches ds mask := by simp only [Msg.fetches, h]
  by_cases hm : m.fetches cs mask
  · rw [Msg.acquired_of_fetches hm, Msg.acquired_of_fetches (hf.1 hm)]
  · rw [Msg.acquired_of_not_fetches hm, Msg.acquired_of_not_fetches fun h => hm (hf.2 h)]

theorem acquired_of_marl {s : State} {core : Nat} (hm : isMarl core = true) (sc : Scope) (mask : Nat) :
    Acquired s (s.dropLevels (acquireLevels core sc) mask) core sc mask where
  copies := mem_dropLevels s _ mask
  cores c := by
    rw [State.acquireCores, if_pos hm, dropLevels_eq]
    simp
    rfl
  msg id := by
    rw [State.acquireCores, if_pos hm, Msg.acquired_nil, Option.map_id, dropLevels_eq]
    rfl
  rest := by
    rw [dropLevels_eq]
    rfl

theorem dropLevels_field {α : Sort _} (s : State) (levels : List Nat) (mask : Nat) (f : State → α)
    (hf : ∀ s cp, f { s with copies := cp } = f s := by intros; rfl) : f (s.dropLevels levels mask) = f s := by
  rw [dropLevels_eq, hf]

theorem modCores_field {α : Sort _} (s : State) (cs : List Nat) (g : Core → Core) (f : State → α)
    (hf : ∀ s cs, f { s with cores := cs } = f s := by intros; rfl) : f (s.modCores cs g) = f s := by
  rw [modCores_eq, hf]

theorem dropFetched_field {α : Sort _} (s : State) (core mask : Nat) (f : State → α)
    (hf : ∀ s ms, f { s with msgs := ms } = f s := by intros; rfl) : f (s.dropFetched core mask) = f s := by
  rw [dropFetched_eq, hf]

theorem dropFetched_msg (s : State) (core mask id : Nat) : (s.dropFetched core mask).msg id = (s.msg id).map (Msg.acquired (s.gangCores core) mask) := by
  rw [dropFetched_eq]
  exact tget?_map_snd ..

/-- The gang's windows, and what is on its way into them. -/
def State.acquireWindows (s : State) (core mask : Nat) : State := (s.modCores (s.gangCores core) (Core.acquire mask)).dropFetched core mask

theorem acquireWindows_msg (s : State) (core mask id : Nat) :
    (s.acquireWindows core mask).msg id = (s.msg id).map (Msg.acquired (s.gangCores core) mask) := by
  rw [State.acquireWindows, dropFetched_msg, modCores_field s _ _ (·.msg id)]
  exact congrArg (fun f => (s.msg id).map f) (Msg.acquired_congr (fun c => mem_gangCores_modCores (f := Core.acquire mask) (fun _ => rfl) _) mask)

theorem acquireWindows_core (s : State) (core mask c : Nat) :
    (s.acquireWindows core mask).core c = if c ∈ s.gangCores core then (s.core c).acquire mask else s.core c := by
  rw [State.acquireWindows, dropFetched_field _ _ _ (·.core c), core_modCores _ _ (Core.acquire_acquire mask)]

theorem acquireWindows_copies (s : State) (core mask : Nat) : (s.acquireWindows core mask).copies = s.copies :=
  (dropFetched_field _ _ _ State.copies).trans (modCores_field _ _ _ State.copies)

theorem acquired_of_loam {s : State} {core : Nat} (hm : isMarl core = false) (sc : Scope) (mask : Nat) {levels levels' : List Nat}
    (hl : acquireLevels core sc = levels ++ levels') :
    Acquired s (((s.dropLevels levels mask).acquireWindows core mask).dropLevels levels' mask) core sc mask := by
  have hgang : (s.dropLevels levels mask).gangCores core = s.gangCores core := dropLevels_field s levels mask (·.gangCores core)
  have hcores : s.acquireCores core = s.gangCores core := by rw [State.acquireCores, hm]; rfl
  refine ⟨fun e => ?_, fun c => ?_, fun id => ?_, ?_⟩
  · rw [mem_dropLevels, acquireWindows_copies, mem_dropLevels, hl]
    simp only [Copy.tagged, List.mem_append]
    tauto
  · rw [hcores, dropLevels_field _ levels' mask (·.core c), acquireWindows_core, hgang, dropLevels_field s levels mask (·.core c)]
  · rw [hcores, dropLevels_field _ levels' mask (·.msg id), acquireWindows_msg, hgang, dropLevels_field s levels mask (·.msg id)]
  · rw [dropLevels_field _ levels' mask State.unacquired, State.acquireWindows, dropFetched_field _ _ _ State.unacquired,
      modCores_field _ _ _ State.unacquired, dropLevels_field _ _ _ State.unacquired]

theorem acquire_acquired (s : State) (core : Nat) (sc : Scope) (mask : Nat) : Acquired s (s.acquire core sc mask) core sc mask := by
  cases hm : isMarl core with
  | true =>
    have hr : s.acquire core sc mask = s.dropLevels (acquireLevels core sc) mask := by
      unfold State.acquire acquireLevels
      rw [hm]
      cases sc <;> rfl
    exact hr ▸ acquired_of_marl hm sc mask
  | false =>
    have hl : acquireLevels core sc = (if sc = .sys then [llcLevel (pkgOf core)] else []) ++
        ((if sc = .grp then [] else [l1Level (clusterOf core)]) ++ (if sc = .pkg ∨ sc = .sys then [l2Level (dieOf core)] else [])) := by
      rw [acquireLevels, hm]
      rfl
    have hr := acquired_of_loam (s := s) hm sc mask hl
    revert hr
    unfold State.acquire
    rw [hm]
    cases sc <;> exact id

/-! ### ACQ of a group of one thread -/

/-- The end of a group's instruction, told of a state in which every core is found alike. -/
theorem Still.of_cores {iss : Issue} {f : Nat → Thread → Thread} {x y r : State} (h : Still iss f y r) (hrest : y.rest = x.rest) (hregs : y.regs = x.regs)
    (hthreads : y.threads = x.threads) (hsq : y.squads = x.squads) (hcores : ∀ c, y.core c = x.core c) : Still iss f x r := by
  have ht : ∀ t, y.thread t = x.thread t := fun t => by simp only [State.thread, hthreads]
  have hs : ∀ q, y.squad q = x.squad q := fun q => by simp only [State.squad, hsq]
  obtain ⟨⟨rest, threads, others, squads, core, cores, slot⟩, regs, k, latch⟩ := h
  exact ⟨⟨rest.trans hrest, fun t h => by rw [threads t h, ht], fun t h => by rw [others t h, ht], fun q => by rw [squads, hs],
    by rw [core, hcores], fun c h => by rw [cores c h, hcores], fun j h => by rw [slot j h, hcores]⟩, regs.trans hregs, fun q => by rw [k, hs],
    by rw [latch, hcores]⟩

theorem loadsPending_iff (s : State) (t : Nat) : s.loadsPending t = true ↔
    ∃ id ∈ (s.thread t).pending, ∃ m, s.msg id = some m ∧ m.st ≠ .finished ∧ (m.kind = .load ∨ m.kind = .atomic) := by
  unfold State.loadsPending
  rw [List.any_eq_true]
  refine exists_congr fun id => and_congr_right fun _ => ?_
  cases s.msg id with
  | none => simp
  | some m => simp

theorem fillsPending_iff (s : State) (core ctx mask : Nat) : s.fillsPending core ctx mask = true ↔ mask ≠ 0 ∧
    ∃ c ∈ s.gangCores core, ∃ w ∈ (s.core c).windows, w.2.st = .filling ∧ ∃ j < w.2.size / 256, mask.testBit (s.regionOf ctx (w.2.base + 256 * j)) = true := by
  have hnames : ∀ w : Window, s.names ctx w mask = true ↔ mask ≠ 0 ∧ ∃ j < w.size / 256, mask.testBit (s.regionOf ctx (w.base + 256 * j)) = true := fun w => by
    simp [State.names]
  simp only [State.fillsPending, List.any_eq_true, Bool.and_eq_true, decide_eq_true_eq, hnames]
  constructor
  · rintro ⟨c, hc, w, hw, hst, hmask, hj⟩
    exact ⟨hmask, c, hc, w, hw, hst, hj⟩
  · rintro ⟨hmask, c, hc, w, hw, hst, hj⟩
    exact ⟨c, hc, w, hw, hst, hmask, hj⟩

section
variable {s : State} {iss : Issue} {o : Ops} {t : Nat} {sc : Scope}

theorem begun_windows (c : Nat) : ((s.begun iss).core c).windows = (s.core c).windows := (congrArg Core.windows (begun_core s iss c) :)

theorem begun_ctxKey (t : Nat) : (s.begun iss).ctxKey t = s.ctxKey t := by simp only [State.ctxKey, begun_squad]

theorem begun_fillsPending (core ctx mask : Nat) : (s.begun iss).fillsPending core ctx mask = s.fillsPending core ctx mask := by
  have hregion : ∀ va, (s.begun iss).regionOf ctx va = s.regionOf ctx va := fun va => rest_congr (begun_rest s iss) (·.regionOf ctx va) fun _ => rfl
  rw [Bool.eq_iff_iff, fillsPending_iff, fillsPending_iff]
  simp only [mem_gangCores_begun, begun_windows, hregion]

theorem acq_stays (h : Alone s iss (.acq o sc) o t)
    (hp : s.loadsPending t = true ∨ (isMarl iss.core = false ∧ s.fillsPending iss.core (s.ctxKey t) (s.srcB iss t (.acq o sc) o.b) = true)) :
    s.Stays iss (.acq o sc) (.blocked .again) (s.begun iss) := by
  obtain ⟨-, -, -, -, hl⟩ := fields_of_wellFormed h.issues.formed rfl rfl rfl
  refine ⟨_, rfl, h.still (r := .stay (.blocked .again)) (hl rfl) ?_ rfl⟩
  simp only [begun_srcB h.issues h.mem, begun_loadsPending, begun_ctxKey, begun_fillsPending]
  refine if_pos ?_
  rcases hp with hp | ⟨hm, hp⟩
  · rw [hp]
    rfl
  · rw [hm, hp]
    simp

theorem acq_still (h : Alone s iss (.acq o sc) o t) (hload : s.loadsPending t = false)
    (hfill : isMarl iss.core = false → s.fillsPending iss.core (s.ctxKey t) (s.srcB iss t (.acq o sc) o.b) = false) : ∃ r, exec (.acq o sc) s = .next r ∧
      Still iss (fun _ th => th.past iss.pc (iss.next (.acq o sc))) ((s.begun iss).acquire iss.core sc (s.srcB iss t (.acq o sc) o.b)) r := by
  obtain ⟨-, -, -, -, hl⟩ := fields_of_wellFormed h.issues.formed rfl rfl rfl
  refine ⟨_, rfl, h.still (r := .next) (hl rfl) ?_ rfl⟩
  simp only [begun_srcB h.issues h.mem, begun_loadsPending, begun_ctxKey, begun_fillsPending, hload, Bool.false_or]
  refine if_neg ?_
  cases hm : isMarl iss.core with
  | true => simp
  | false => simp [hfill hm]

/-- The state in which an acquire leaves the windows, told of the gang's cores as the group finds them. -/
theorem acquired_core {x : State} {mask : Nat} (h : Acquired (s.begun iss) x iss.core sc mask) (c : Nat) :
    x.core c = (if isMarl iss.core then s.begun iss else (s.begun iss).modCores (s.gangCores iss.core) (Core.acquire mask)).core c := by
  rw [h.cores, State.acquireCores]
  cases hm : isMarl iss.core with
  | true => simp
  | false => simp [core_modCores _ _ (Core.acquire_acquire mask), mem_gangCores_begun]

theorem acq_acquires (h : Alone s iss (.acq o sc) o t) (hload : s.loadsPending t = false)
    (hfill : isMarl iss.core = false → s.fillsPending iss.core (s.ctxKey t) (s.srcB iss t (.acq o sc) o.b) = false) :
    let mask := s.srcB iss t (.acq o sc) o.b
    let y := if isMarl iss.core then s.begun iss else (s.begun iss).modCores (s.gangCores iss.core) (Core.acquire mask)
    ∃ r, exec (.acq o sc) s = .next r ∧
      (∀ e, e ∈ r.copies ↔ e ∈ s.copies ∧ ¬ Copy.tagged (acquireLevels iss.core sc) mask e) ∧
      (∀ c, (r.core c).windows = (y.core c).windows) ∧
      (∀ id, r.msg id = (s.msg id).map (Msg.acquired (s.acquireCores iss.core) mask)) ∧
      Still iss (fun _ th => th.past iss.pc (iss.next (.acq o sc))) { y with copies := r.copies, msgs := r.msgs } r := by
  intro mask y
  obtain ⟨r, hexec, hst⟩ := acq_still h hload hfill
  have hacq := acquire_acquired (s.begun iss) iss.core sc mask
  change Still iss _ ((s.begun iss).acquire iss.core sc mask) r at hst
  generalize (s.begun iss).acquire iss.core sc mask = x at hst hacq
  have hcopies : r.copies = x.copies := rest_congr hst.kept.rest State.copies fun _ => rfl
  have hmsgs : r.msgs = x.msgs := rest_congr hst.kept.rest State.msgs fun _ => rfl
  have hcore : ∀ c, x.core c = y.core c := acquired_core hacq
  have hy : y.unacquired = (s.begun iss).unacquired := by
    unfold y
    split
    · rfl
    · exact modCores_field _ _ _ State.unacquired
  have hxy : x.unacquired = y.unacquired := hacq.rest.trans hy.symm
  have hcores : ∀ c, c ∈ (s.begun iss).acquireCores iss.core ↔ c ∈ s.acquireCores iss.core := fun c => by
    unfold State.acquireCores
    split
    · rfl
    · exact mem_gangCores_begun ..
  refine ⟨r, hexec, fun e => ?_, fun c => ?_, fun id => ?_, ?_⟩
  · rw [hcopies, hacq.copies, rest_congr (begun_rest s iss) State.copies fun _ => rfl]
  · rw [← hcore]
    exact (congrArg Core.windows (hst.core_plain c) :)
  · rw [State.msg, hmsgs, ← State.msg, hacq.msg, begun_msg, Msg.acquired_congr hcores]
  · refine hst.of_cores ?_ (congrArg State.regs hxy :) (congrArg State.threads hxy :) (congrArg State.squads hxy :) hcore
    rw [hcopies, hmsgs]
    exact congrArg (fun z : State => { z.rest with copies := x.copies, msgs := x.msgs }) hxy

end

/-- Settles O22: an acquire filters the copies by tag, and its change to a window, made twice, is the change made once. -/
theorem acquireDropsValidCopies : Obligations.AcquireDropsValidCopies := by
  unfold Obligations.AcquireDropsValidCopies
  intro o sc s iss t i mask levels gone left fetched y
  have hleft : ∀ w : Window, left w = w.acquire mask := fun w => (Window.acquire_eq w mask).symm
  have hy : y = if isMarl iss.core then s.begun iss else (s.begun iss).modCores (s.gangCores iss.core) (Core.acquire mask) := by
    simp only [y, hleft]
    rfl
  have hfetched : ∀ m : Msg, fetched m ↔ m.fetches (s.acquireCores iss.core) mask := by
    intro m
    unfold Msg.fetches State.acquireCores
    cases hm : isMarl iss.core <;> simp [fetched, hm]
  refine ⟨loadsPending_iff s t, fillsPending_iff s _ _ _, acq_stays, fun h hload hfill => ?_⟩
  obtain ⟨r, hexec, hcopies, hwindows, hmsg, hst⟩ := acq_acquires h hload hfill
  rw [← hy] at hst
  refine ⟨r, hexec, hcopies, fun c => ?_, fun id hid => ?_, fun id m hm hf => ?_, hst⟩
  · rw [hwindows]
    simp only [hleft]
    cases hm : isMarl iss.core with
    | true => simp [begun_windows]
    | false =>
      simp only [Bool.false_eq_true, if_false, true_and, core_modCores _ _ (Core.acquire_acquire _)]
      split
      · simp only [Core.acquire, begun_windows]
        rfl
      · exact begun_windows c
  · rw [hmsg]
    cases hm : s.msg id with
    | none => rfl
    | some m => exact congrArg some (Msg.acquired_of_not_fetches fun hf => hid m hm ((hfetched m).2 hf))
  · rw [hmsg, hm]
    exact congrArg some (Msg.acquired_of_fetches ((hfetched m).1 hf))

end Sys2Proof.Machine
end

section
/-! Scratchpad windows: WMAP, WFILL, WDRAIN, WUNMAP and WSTAT of a group of one thread (08 R181 to R186). -/

namespace Sys2Proof.Machine

/-! ### What a window maps, whatever words it holds -/

/-- State, range and filler of a window. -/
def Window.mapping (w : Window) : WinState × Nat × Nat × Nat × Nat := (w.st, w.off, w.size, w.base, w.filler)

/-- Every window of r maps what it maps in s. -/
structure State.MapsAs (s r : State) : Prop where
  mapping : ∀ c slot, (r.window c slot).mapping = (s.window c slot).mapping

section
variable {s : State}

theorem State.MapsAs.refl : s.MapsAs s := ⟨fun _ _ => rfl⟩
theorem State.MapsAs.trans {r y : State} (h : s.MapsAs r) (h' : r.MapsAs y) : s.MapsAs y :=
  ⟨fun c slot => (h'.mapping c slot).trans (h.mapping c slot)⟩
theorem State.MapsAs.of_cores {r : State} (h : r.cores = s.cores) : s.MapsAs r := ⟨fun c slot => by simp only [State.window, State.core, h]⟩
theorem State.MapsAs.of_unsent {r : State} (h : r.unsent = s.unsent) : s.MapsAs r := ⟨fun c slot => by rw [window_unsent h]⟩

theorem State.MapsAs.foldl {β : Type} {f : State → β → State} (hf : ∀ (s : State) (b : β), s.MapsAs (f s b)) (l : List β) : s.MapsAs (l.foldl f s) :=
  List.foldlRecOn (motive := fun y : State => s.MapsAs y) _ _ .refl fun y hy b _ => hy.trans (hf y b)

theorem mapsAs_modWindow {c n : Nat} {f : Window → Window} (hf : ∀ w, (f w).mapping = w.mapping) : s.MapsAs (s.modWindow c n f) := by
  refine ⟨fun d m => ?_⟩
  rw [window_modWindow]
  split
  · next h => rw [hf, h.1, h.2]
  · rfl

theorem mapsAs_modWindowWord {k : Nat} {f : Nat → Window → Window} (hf : ∀ j w, (f j w).mapping = w.mapping) : s.MapsAs (s.modWindowWord k f) := by
  unfold State.modWindowWord
  dsimp only
  split
  · exact mapsAs_modWindow fun w => hf _ w
  · exact .refl

theorem mapsAs_dropWindowWord (k : Nat) : s.MapsAs (s.dropWindowWord k) := mapsAs_modWindowWord fun _ _ => rfl
theorem mapsAs_keepWindowWord (k : Nat) : s.MapsAs (s.keepWindowWord k) := mapsAs_modWindowWord fun _ _ => rfl
theorem mapsAs_setCopy (l w : Nat) (c : Copy) : s.MapsAs (s.setCopy l w c) := .of_cores (rfl)
theorem mapsAs_delCopy (l w : Nat) : s.MapsAs (s.delCopy l w) := .of_cores (rfl)

theorem mapsAs_dropAt (l w : Nat) : s.MapsAs (s.dropAt l w) := by
  unfold State.dropAt
  split
  · dsimp only
    split
    · exact .refl
    · refine .trans ?_ (mapsAs_delCopy l w)
      split
      · exact mapsAs_dropWindowWord _
      · exact .refl
  · exact .refl

theorem mapsAs_evictAgent (a l w : Nat) : s.MapsAs (s.evictAgent a l w) := by
  unfold State.evictAgent
  split
  · split
    · exact (mapsAs_delCopy l w).trans (.of_unsent (writeBack_unsent _ _ _ _ _))
    · exact mapsAs_dropAt l w
  · exact .refl

theorem mapsAs_giveUpHigh (l w : Nat) : s.MapsAs (s.giveUpHigh l w) := by
  unfold State.giveUpHigh
  dsimp only
  split
  · split
    · split
      · exact .refl
      · exact mapsAs_evictAgent _ _ _
    · exact .refl
  · split
    · exact mapsAs_dropAt _ _
    · split
      · exact .refl
      · exact mapsAs_evictAgent _ _ _

theorem mapsAs_roomBy {give : State → Nat → Nat → State} (hg : ∀ (s : State) l w, s.MapsAs (give s l w)) (l w : Nat) : s.MapsAs (State.roomBy give s l w) := by
  rcases roomBy_cases give s l w with h | ⟨v, h⟩ <;> rw [h]
  · exact .refl
  · exact hg s l v

theorem mapsAs_evictL1 (cluster w : Nat) : s.MapsAs (s.evictL1 cluster w) := by
  unfold State.evictL1
  split
  · next c hc =>
    split
    · have hwin : ∀ c : Copy, s.MapsAs ((match c.win with | some k => s.keepWindowWord k | none => s).delCopy (l1Level cluster) w) := by
        intro c
        refine .trans ?_ (mapsAs_delCopy _ _)
        split
        · exact mapsAs_keepWindowWord _
        · exact .refl
      have hleft := hwin c
      dsimp only
      generalize State.delCopy _ (l1Level cluster) w = y at hleft ⊢
      split
      · exact hleft.trans (.of_cores rfl)
      · split
        · exact hleft.trans (mapsAs_setCopy _ _ _)
        · exact hleft.trans ((mapsAs_roomBy (fun s l w => mapsAs_giveUpHigh l w) _ _).trans (mapsAs_setCopy _ _ _))
    · exact mapsAs_dropAt _ _
  · exact .refl

theorem mapsAs_giveUp (l w : Nat) : s.MapsAs (s.giveUp l w) := by
  unfold State.giveUp
  split
  · exact mapsAs_evictL1 _ _
  · exact mapsAs_giveUpHigh _ _

theorem mapsAs_fill (l w : Nat) (v : Word) (region : Nat) (first : Bool) : s.MapsAs (s.fill l w v region first) := by
  unfold State.fill
  split
  · split
    · exact .refl
    · exact mapsAs_setCopy _ _ _
  · dsimp only
    have hroom : s.MapsAs (s.makeRoom l w) := mapsAs_roomBy (fun s l w => mapsAs_giveUp l w) _ _
    split
    · exact hroom
    · exact hroom.trans (mapsAs_setCopy _ _ _)

theorem mapsAs_markFirst (l w : Nat) : s.MapsAs (s.markFirst l w) := by
  unfold State.markFirst
  split
  · exact mapsAs_setCopy _ _ _
  · exact .refl

theorem mapsAs_ite {p : Prop} [Decidable p] {a b : State} (ha : s.MapsAs a) (hb : s.MapsAs b) : s.MapsAs (if p then a else b) := by
  split
  · exact ha
  · exact hb

theorem mapsAs_expel (l a w : Nat) (pol : Policy) : s.MapsAs (s.expel l a w pol) := by
  have hgive : ∀ pol : Policy, s.MapsAs (
      let s := s.giveUp l w
      let s := if a % 1024 < 8 ∧ pol ≠ .nl1 then s.giveUp (l2Level (agentDie a)) w else s
      if pol = .nllc then s.dropAt (llcLevel (a / 1024)) w else s) := by
    intro pol
    have h1 := mapsAs_giveUp (s := s) l w
    have h2 := h1.trans (mapsAs_ite (p := a % 1024 < 8 ∧ pol ≠ .nl1) (mapsAs_giveUp (l2Level (agentDie a)) w) .refl)
    exact h2.trans (mapsAs_ite (mapsAs_dropAt _ _) .refl)
  cases pol with
  | all => exact .refl
  | strm =>
    have h := (mapsAs_markFirst (s := s) l w).trans (mapsAs_markFirst (llcLevel (a / 1024)) w)
    exact h.trans (mapsAs_ite (mapsAs_markFirst _ _) .refl)
  | nl1 => exact hgive .nl1
  | nl2 => exact hgive .nl2
  | nllc => exact hgive .nllc

theorem mapsAs_keepWord (l a d w : Nat) (v : Word) (region : Nat) (pol : Policy) : s.MapsAs (s.keepWord l a d w v region pol) := by
  unfold State.keepWord
  dsimp only
  refine .trans ?_ (mapsAs_expel _ _ _ _)
  refine .trans ?_ (mapsAs_ite (mapsAs_fill _ _ _ _ _) .refl)
  refine .trans ?_ (mapsAs_ite (mapsAs_fill _ _ _ _ _) .refl)
  exact mapsAs_ite (mapsAs_fill _ _ _ _ _) .refl

theorem mapsAs_keepFound (x : Who) (items : List Item) (sc : Scope) (pol : Policy) (va : Nat) : s.MapsAs (s.keepFound x items sc pol va) := by
  refine .foldl (fun s i => ?_) items
  split
  · exact mapsAs_keepWord _ _ _ _ _ _ _
  · exact .refl

theorem mapsAs_translate (ctx : Nat) (path : List Nat) (va : Nat) (a : Access) : s.MapsAs (s.translate ctx path va a).1 :=
  .of_cores (congrArg State.cores (translate_untranslated s ctx path va a) :)

theorem mapsAs_count (c e n : Nat) : s.MapsAs (s.count c e n) := .of_cores rfl

theorem mapsAs_fetchSector (x : Who) (core slot key va pa : Nat) (absent : List Nat) (touch : Bool) :
    s.MapsAs (s.fetchSector x core slot key va pa absent touch).1 := by
  unfold State.fetchSector
  dsimp only
  refine .trans ?_ (mapsAs_modWindow fun _ => rfl)
  generalize absent.map (fun j => ({ w := (pa - pa % 32) / 4 + j } : Item)) = items
  have hkept : s.MapsAs ((if (items.any fun i => (s.levelWord x 0 i.w 15 0).isVal = false) = true then s.count x.core 6 1 else s).keepFound x items .grp .all va) :=
    (mapsAs_ite (mapsAs_count _ _ _) .refl).trans (mapsAs_keepFound _ _ _ _ _)
  split
  · exact hkept.trans (.of_cores rfl)
  · exact hkept.trans (.of_unsent (send_unsent _ _))

theorem mapsAs_pumpFill (core slot n : Nat) : s.MapsAs (s.pumpFill core slot n) := by
  induction n generalizing s with
  | zero => exact .refl
  | succ n ih =>
    rw [State.pumpFill]
    dsimp only
    split
    · exact .refl
    · next j left _ =>
      have hmod : s.MapsAs (s.modWindow core slot fun y => { y with fillLeft := left }) := mapsAs_modWindow fun _ => rfl
      split
      · exact .refl
      · refine .trans (hmod.trans ?_) ih
        generalize (s.modWindow core slot fun y => { y with fillLeft := left }) = y
        split
        · exact .refl
        · have htr := mapsAs_translate (s := y) (y.who (s.window core slot).filler).ctx (tcPath core) (((s.window core slot).base + 32 * j) % 2 ^ 64)
            { user := (y.who (s.window core slot).filler).user }
          split
          · next z pa heq =>
            rw [heq] at htr
            exact htr.trans (mapsAs_fetchSector _ _ _ _ _ _ _ _)
          · next z _ _ heq =>
            rw [heq] at htr
            exact htr

end

/-! ### WMAP -/

section
variable {s : State} {iss : Issue} {o : Ops} {t : Nat}

theorem begun_window (c slot : Nat) : (s.begun iss).window c slot = s.window c slot := by rw [State.window, begun_windows]; rfl

theorem begun_wg (c : Nat) : ((s.begun iss).core c).wg = (s.core c).wg := (congrArg Core.wg (begun_core s iss c) :)

theorem begun_gang (c : Nat) : ((s.begun iss).core c).gang = (s.core c).gang := (congrArg Core.gang (begun_core s iss c) :)

theorem begun_tableEntries (base n : Nat) : (s.begun iss).tableEntries base n = s.tableEntries base n := by
  have hcopies : (s.begun iss).copies = s.copies := rest_congr (begun_rest s iss) State.copies fun _ => rfl
  have hmem : (s.begun iss).mem = s.mem := rest_congr (begun_rest s iss) State.mem fun _ => rfl
  have hread : ∀ n a, (s.begun iss).cohRead a n = s.cohRead a n := by
    intro n
    induction n with
    | zero => exact fun _ => rfl
    | succ n ih =>
      intro a
      rw [State.cohRead, State.cohRead, ih, wordVal_of_rest (begun_rest s iss) (begun_core s iss)]
  unfold State.tableEntries
  rw [hcopies, hmem]
  simp only [hread]

theorem begun_pinLeaves (p n base : Nat) : (s.begun iss).pinLeaves p n base = s.pinLeaves p n base := by
  have hown : ∀ pa, (s.begun iss).ownPa p pa = s.ownPa p pa := fun pa => rest_congr (begun_rest s iss) (·.ownPa p pa) fun _ => rfl
  induction n generalizing base with
  | zero => rw [State.pinLeaves, State.pinLeaves, begun_tableEntries]
  | succ n ih =>
    rw [State.pinLeaves, State.pinLeaves, begun_tableEntries]
    simp only [ih, hown]

theorem begun_pinnedOn (core : Nat) : (s.begun iss).pinnedOn core = s.pinnedOn core := by
  have hslots : (s.begun iss).pinSlots = s.pinSlots := rest_congr (begun_rest s iss) State.pinSlots fun _ => rfl
  have hctxs : (s.begun iss).ctxs = s.ctxs := rest_congr (begun_rest s iss) State.ctxs fun _ => rfl
  have hown : ∀ p tg, (s.begun iss).ownTarget p tg = s.ownTarget p tg := fun p tg => rest_congr (begun_rest s iss) (·.ownTarget p tg) fun _ => rfl
  simp only [State.pinnedOn, hslots, hctxs, begun_pinLeaves, hown]

theorem begun_wmapOk (core slot base off size : Nat) : (s.begun iss).wmapOk core slot base off size = s.wmapOk core slot base off size := by
  have hqueues : (s.begun iss).queues = s.queues := rest_congr (begun_rest s iss) State.queues fun _ => rfl
  have hholder : (s.begun iss).queueHolder = s.queueHolder := rest_congr (begun_rest s iss) State.queueHolder fun _ => rfl
  simp only [State.wmapOk, State.queueRings, begun_wg, begun_gang, begun_windows, begun_pinnedOn, hqueues, hholder]

/-- A range of a window lies below the copy-ring area. -/
theorem rangesMeet_of_wmapOk {core slot base off size : Nat} (h : s.wmapOk core slot base off size = true) :
    rangesMeet off size ((s.core core).wg * scratchSize + ringBase) (scratchSize - ringBase) = false := by
  simp only [State.wmapOk, Bool.and_eq_true, decide_eq_true_eq] at h
  obtain ⟨⟨⟨⟨⟨-, hme⟩, hring⟩, -⟩, -⟩, -⟩ := h
  simp only [rangesMeet, decide_eq_false_iff_not]
  omega

theorem rangesMeet_zero (a b m : Nat) : rangesMeet a 0 b m = false := by simp [rangesMeet]

theorem sext_toNat {n : Nat} (v : BitVec n) : sext v.toNat n = v.toInt := by
  have hv : (v.toNat : Int) % (2 ^ n : Int) = (v.toNat : Int) := by
    have hlt : (v.toNat : Int) < 2 ^ n := by exact_mod_cast v.isLt
    exact Int.emod_eq_of_lt (Int.natCast_nonneg _) hlt
  rw [sext, hv, BitVec.toInt_eq_toNat_cond]
  split
  · next h => rw [if_pos (by exact_mod_cast h)]
  · next h =>
    rw [if_neg (by exact_mod_cast h)]
    push_cast
    rfl

/-- WMAP's base, with the offset of the long form (08 R181). -/
def wmapBase (a : Nat) (b : Src) : Nat := lowBits ((a : Int) + match b with | .fldOff _ v => sext v.toNat 48 | _ => 0) 64

theorem wmapBase_eq (a : Nat) (b : Src) : wmapBase a b = (((a : Int) + match b with | .fldOff _ v => v.toInt | _ => 0) % 2 ^ 64).toNat := by
  cases b with
  | fldOff f v =>
    show lowBits ((a : Int) + sext v.toNat 48) 64 = (((a : Int) + v.toInt) % 2 ^ 64).toNat
    rw [sext_toNat]
    rfl
  | _ => rfl

theorem wmap_unmaps (h : Alone s iss (.wmap o) o t) (hreserved : s.srcC iss t (.wmap o) o / 32 % 8 = 0)
    (hst : (s.window iss.core (s.srcC iss t (.wmap o) o % 32)).st = .unbound) (hsize : s.srcC iss t (.wmap o) o / 256 * 256 = 0) :
    s.Passes iss (.wmap o) ((s.begun iss).modWindow iss.core (s.srcC iss t (.wmap o) o % 32) fun _ => {}) := by
  obtain ⟨-, -, -, -, hl⟩ := fields_of_wellFormed h.issues.formed rfl rfl rfl
  have hbits : bits (s.srcC iss t (.wmap o) o) 7 5 = 0 := hreserved
  refine ⟨_, rfl, h.still (r := .next) (hl rfl) ?_ rfl⟩
  simp only [begun_srcC h.issues h.mem, begun_window, hsize, rangesMeet_zero, hbits, hst, Bool.false_eq_true, ne_eq, not_true, if_false, if_true]

theorem wmap_maps (h : Alone s iss (.wmap o) o t) (hreserved : s.srcC iss t (.wmap o) o / 32 % 8 = 0)
    (hst : (s.window iss.core (s.srcC iss t (.wmap o) o % 32)).st = .unbound) (hsize : s.srcC iss t (.wmap o) o / 256 * 256 ≠ 0)
    {base : Nat} (hbase : wmapBase (s.srcA iss t (.wmap o) o) o.b = base) (hok : s.wmapOk iss.core (s.srcC iss t (.wmap o) o % 32) base (s.srcB iss t (.wmap o) o.b) (s.srcC iss t (.wmap o) o / 256 * 256) = true) :
    s.Passes iss (.wmap o) ((s.begun iss).modWindow iss.core (s.srcC iss t (.wmap o) o % 32) fun _ =>
      { st := .empty, off := s.srcB iss t (.wmap o) o.b - (s.core iss.core).wg * scratchSize, size := s.srcC iss t (.wmap o) o / 256 * 256, base := base
        filler := t }) := by
  obtain ⟨-, -, -, -, hl⟩ := fields_of_wellFormed h.issues.formed rfl rfl rfl
  have hbits : bits (s.srcC iss t (.wmap o) o) 7 5 = 0 := hreserved
  refine ⟨_, rfl, h.still (r := .next) (hl rfl) ?_ rfl⟩
  simp only [begun_srcA h.issues h.mem, begun_srcB h.issues h.mem, begun_srcC h.issues h.mem, begun_window, begun_wg, begun_wmapOk,
    rangesMeet_of_wmapOk hok, hsize, hbits, hst, Bool.false_eq_true, ne_eq, not_true, if_false]
  subst hbase
  exact if_pos hok

/-! ### WFILL and WDRAIN -/

theorem windowBody_of_slot {i : Instr} {f : Issue → State → Nat → Nat → State × Ret} (h : Issues s iss i o) (ht : t ∈ iss.threads)
    (hslot : s.srcA iss t i o ≤ 31) : windowBody i o f iss (s.begun iss) (s.begun iss) t = f iss (s.begun iss) (s.srcA iss t i o) t := by
  rw [windowBody, begun_srcA h ht]
  exact if_neg (by omega)

theorem begun_hole : (s.begun iss).hole = s.hole := rest_congr (begun_rest s iss) State.hole fun _ => rfl

/-- A fill begun. -/
def State.startFill (s : State) (t core slot : Nat) : State :=
  (s.modWindow core slot fun y => { y with st := .filling, filler := t, fillLeft := List.range ((s.window core slot).size / 32) }).pumpFill core slot
    ((s.window core slot).size / 32)

theorem wfill_fills (h : Alone s iss (.wfill o) o t) (hslot : s.srcA iss t (.wfill o) o ≤ 31)
    (hst : (s.window iss.core (s.srcA iss t (.wfill o) o)).st = .empty)
    (hole : ((s.begun iss).startFill t iss.core (s.srcA iss t (.wfill o) o)).hole = false) :
    s.Passes iss (.wfill o) ((s.begun iss).startFill t iss.core (s.srcA iss t (.wfill o) o)) := by
  obtain ⟨-, -, -, -, hl⟩ := fields_of_wellFormed h.issues.formed rfl rfl rfl
  refine exec_of_body (r := .next) h (hl rfl) ?_ rfl hole
  rw [windowBody_of_slot h.issues h.mem hslot]
  simp only [begun_window, hst, State.startFill]

theorem wfill_passes (h : Alone s iss (.wfill o) o t) (hslot : s.srcA iss t (.wfill o) o ≤ 31) (hole : s.hole = false)
    (hst : (s.window iss.core (s.srcA iss t (.wfill o) o)).st = .filling ∨ (s.window iss.core (s.srcA iss t (.wfill o) o)).st = .full) :
    s.Passes iss (.wfill o) (s.begun iss) := by
  obtain ⟨-, -, -, -, hl⟩ := fields_of_wellFormed h.issues.formed rfl rfl rfl
  refine exec_of_body (r := .next) h (hl rfl) ?_ rfl (begun_hole.trans hole)
  rw [windowBody_of_slot h.issues h.mem hslot]
  rcases hst with hst | hst <;> simp only [begun_window, hst]

/-- A fill keeps what the window maps. -/
theorem startFill_mapping (s : State) (t core slot : Nat) : ((s.startFill t core slot).window core slot).mapping =
    (.filling, (s.window core slot).off, (s.window core slot).size, (s.window core slot).base, t) := by
  rw [State.startFill, (mapsAs_pumpFill _ _ _).mapping, window_modWindow_self]
  rfl

/-- Write-backs of runs of words of a window, one after the other. -/
theorem drains_foldl (a core slot : Nat) (rs : List (List Nat)) (s : State) :
    ∃ ids, ids.length = rs.length ∧ (rs.foldl (fun s r =>
      let x := s.writeBack a (r.map fun w => { w := w, val := s.wordVal w }) (.window core slot)
      x.1.modWindow core slot fun y => { y with drains := x.2 :: y.drains }) s).window core slot =
      { s.window core slot with drains := ids ++ (s.window core slot).drains } := by
  induction rs generalizing s with
  | nil => exact ⟨[], rfl, rfl⟩
  | cons r rs ih =>
    obtain ⟨ids, hlen, hw⟩ := ih ((s.writeBack a (r.map fun w => { w := w, val := s.wordVal w }) (.window core slot)).1.modWindow core slot fun y =>
      { y with drains := (s.writeBack a (r.map fun w => { w := w, val := s.wordVal w }) (.window core slot)).2 :: y.drains })
    refine ⟨ids ++ [(s.writeBack a (r.map fun w => { w := w, val := s.wordVal w }) (.window core slot)).2], by simp [hlen], ?_⟩
    rw [List.foldl_cons, hw, window_modWindow_self, window_unsent (writeBack_unsent _ _ _ _ _)]
    simp

theorem ownedWords_congr {y : State} {core slot : Nat} (hc : y.copies = s.copies) (hoff : (y.window core slot).off = (s.window core slot).off)
    (hsize : (y.window core slot).size = (s.window core slot).size) : y.ownedWords core slot = s.ownedWords core slot := by
  simp only [State.ownedWords, hc, hoff, hsize]

/-- The window of a drain begun. -/
theorem startDrain_window (s : State) (core slot : Nat) : ∃ ids,
    ids.length = min (32 - (s.window core slot).drains.length)
      (runsOf ((s.ownedWords core slot).filter fun w => (s.buffered (dieAgent (dieOf core)) w).isNone)).length ∧
    (s.startDrain core slot).window core slot = { s.window core slot with
      st := .draining, wasFull := decide ((s.window core slot).st = .full), drains := ids ++ (s.window core slot).drains } := by
  have hown : (s.modWindow core slot fun x => { x with st := .draining, wasFull := decide ((s.window core slot).st = .full) }).ownedWords core slot =
      s.ownedWords core slot := ownedWords_congr rfl (by rw [window_modWindow_self]) (by rw [window_modWindow_self])
  unfold State.startDrain State.pumpDrain
  dsimp only
  rw [hown]
  obtain ⟨ids, hlen, hw⟩ := drains_foldl (dieAgent (dieOf core)) core slot
    ((runsOf ((s.ownedWords core slot).filter fun w => (s.buffered (dieAgent (dieOf core)) w).isNone)).take (32 - (s.window core slot).drains.length))
    (s.modWindow core slot fun x => { x with st := .draining, wasFull := decide ((s.window core slot).st = .full) })
  rw [window_modWindow_self] at hw
  refine ⟨ids, by rw [hlen, List.length_take], ?_⟩
  rw [window_modWindow_self]
  exact hw

theorem startDrain_hole (s : State) (core slot : Nat) : (s.startDrain core slot).hole = s.hole :=
  (congrArg State.hole (pumpDrain_unsent (s.modWindow core slot fun x =>
    { x with st := .draining, wasFull := decide ((s.window core slot).st = .full) }) core slot) :)

theorem begun_ownedWords (core slot : Nat) : (s.begun iss).ownedWords core slot = s.ownedWords core slot :=
  ownedWords_congr (rest_congr (begun_rest s iss) State.copies fun _ => rfl) (by rw [begun_window]) (by rw [begun_window])

theorem wdrain_drains (h : Alone s iss (.wdrain o) o t) (hslot : s.srcA iss t (.wdrain o) o ≤ 31) (hole : s.hole = false)
    (hst : (s.window iss.core (s.srcA iss t (.wdrain o) o)).st = .empty ∨ (s.window iss.core (s.srcA iss t (.wdrain o) o)).st = .full) :
    s.Passes iss (.wdrain o) ((s.begun iss).startDrain iss.core (s.srcA iss t (.wdrain o) o)) := by
  obtain ⟨-, -, -, -, hl⟩ := fields_of_wellFormed h.issues.formed rfl rfl rfl
  refine exec_of_body (r := .next) h (hl rfl) ?_ rfl ((startDrain_hole _ _ _).trans (begun_hole.trans hole))
  rw [windowBody_of_slot h.issues h.mem hslot]
  rcases hst with hst | hst <;> simp only [begun_window, hst]

theorem wdrain_passes (h : Alone s iss (.wdrain o) o t) (hslot : s.srcA iss t (.wdrain o) o ≤ 31) (hole : s.hole = false)
    (hst : (s.window iss.core (s.srcA iss t (.wdrain o) o)).st = .draining) : s.Passes iss (.wdrain o) (s.begun iss) := by
  obtain ⟨-, -, -, -, hl⟩ := fields_of_wellFormed h.issues.formed rfl rfl rfl
  refine exec_of_body (r := .next) h (hl rfl) ?_ rfl (begun_hole.trans hole)
  rw [windowBody_of_slot h.issues h.mem hslot]
  simp only [begun_window, hst]

/-! ### WUNMAP and WSTAT -/

theorem begun_windowPending (core slot : Nat) : (s.begun iss).windowPending core slot = s.windowPending core slot := by
  have hcopies : (s.begun iss).copies = s.copies := rest_congr (begun_rest s iss) State.copies fun _ => rfl
  have hmsgs : (s.begun iss).msgs = s.msgs := rest_congr (begun_rest s iss) State.msgs fun _ => rfl
  simp only [State.windowPending, begun_window, hcopies, hmsgs]

theorem emptyWindow_window (s : State) (core slot : Nat) (st : WinState) : (s.emptyWindow core slot st).window core slot =
    { s.window core slot with st := st, present := [], owned := [], part := [], fillLeft := [], fills := [], drains := [] } := by
  rw [State.emptyWindow, window_modWindow_self]
  rfl

theorem wunmap_empties (h : Alone s iss (.wunmap o) o t) (hslot : s.srcA iss t (.wunmap o) o ≤ 31) (hole : s.hole = false)
    (hst : (s.window iss.core (s.srcA iss t (.wunmap o) o)).st = .empty ∨ (s.window iss.core (s.srcA iss t (.wunmap o) o)).st = .full)
    (hpend : s.windowPending iss.core (s.srcA iss t (.wunmap o) o) = false) (hown : s.ownedWords iss.core (s.srcA iss t (.wunmap o) o) = []) :
    s.Passes iss (.wunmap o) ((s.begun iss).emptyWindow iss.core (s.srcA iss t (.wunmap o) o) .unbound) := by
  obtain ⟨-, -, -, -, hl⟩ := fields_of_wellFormed h.issues.formed rfl rfl rfl
  refine exec_of_body (r := .next) h (hl rfl) ?_ rfl (begun_hole.trans hole)
  rw [windowBody_of_slot h.issues h.mem hslot]
  rcases hst with hst | hst <;>
    simp only [begun_window, hst, begun_windowPending, hpend, begun_ownedWords, hown, Bool.false_eq_true, if_false, if_true]

theorem wunmap_passes (h : Alone s iss (.wunmap o) o t) (hslot : s.srcA iss t (.wunmap o) o ≤ 31) (hole : s.hole = false)
    (hphase : (s.thread t).phase = 1) (hst : (s.window iss.core (s.srcA iss t (.wunmap o) o)).st = .unbound) :
    s.Passes iss (.wunmap o) (s.begun iss) := by
  obtain ⟨-, -, -, -, hl⟩ := fields_of_wellFormed h.issues.formed rfl rfl rfl
  refine exec_of_body (r := .next) h (hl rfl) ?_ rfl (begun_hole.trans hole)
  rw [windowBody_of_slot h.issues h.mem hslot]
  simp only [begun_window, hst, begun_thread, hphase, decide_true, if_true]

theorem wunmap_stays (h : Alone s iss (.wunmap o) o t) (hslot : s.srcA iss t (.wunmap o) o ≤ 31) (hole : s.hole = false)
    (hst : (s.window iss.core (s.srcA iss t (.wunmap o) o)).st = .filling ∨ (s.window iss.core (s.srcA iss t (.wunmap o) o)).st = .draining) :
    s.Stays iss (.wunmap o) (.blocked .again) ((s.begun iss).modThread t fun th => { th with phase := 1 }) := by
  obtain ⟨-, -, -, -, hl⟩ := fields_of_wellFormed h.issues.formed rfl rfl rfl
  refine exec_of_body (r := .stay (.blocked .again)) h (hl rfl) ?_ rfl (begun_hole.trans hole)
  rw [windowBody_of_slot h.issues h.mem hslot]
  rcases hst with hst | hst <;> simp only [begun_window, hst]

theorem wstat_puts (h : Alone s iss (.wstat o) o t) (hslot : s.srcA iss t (.wstat o) o ≤ 31) :
    s.Puts iss (.wstat o) o 1 [t] (fun _ => (s.window iss.core (s.srcA iss t (.wstat o) o)).owned.length * 256 +
      WinState.code (s.window iss.core (s.srcA iss t (.wstat o) o)).st) (s.begun iss) := by
  obtain ⟨-, -, -, -, hl⟩ := fields_of_wellFormed h.issues.formed rfl rfl rfl
  refine ⟨_, rfl, h.wrote (hl rfl) ?_⟩
  rw [windowBody_of_slot h.issues h.mem hslot, h.kWriter_eq, begun_window]

end

/-- Settles O24: each of the five instructions leaves, in the window's state, one branch of its case split; a fill keeps what its window maps, a drain counts its
write-backs. -/
theorem windows : Obligations.Windows := by
  unfold Obligations.Windows
  refine ⟨?_, ?_, ?_, ?_⟩
  · intro o s iss t i c slot size off base h hreserved hst
    exact ⟨wmap_unmaps h hreserved hst, fun hsize hok => wmap_maps h hreserved hst hsize (wmapBase_eq _ _) hok⟩
  · intro o s iss t i slot w y h hslot hole hy
    have hwindow : (s.begun iss).window iss.core slot = w := begun_window ..
    have hfill : y = (s.begun iss).startFill t iss.core slot := by rw [State.startFill, hwindow]
    have hmap := startFill_mapping (s.begun iss) t iss.core slot
    rw [hwindow] at hmap
    simp only [Window.mapping, Prod.mk.injEq] at hmap
    rw [hfill] at hy ⊢
    refine ⟨fun hst => ?_, wfill_passes h hslot hole⟩
    obtain ⟨r, hexec, hr⟩ := wfill_fills h hslot hst hy
    exact ⟨r, hexec, hr, hmap⟩
  · intro o s iss t i slot w y h hslot hole
    refine ⟨fun hst => ?_, wdrain_passes h hslot hole⟩
    obtain ⟨r, hexec, hr⟩ := wdrain_drains h hslot hole hst
    obtain ⟨ids, hlen, hw⟩ := startDrain_window (s.begun iss) iss.core slot
    have hbuf : ∀ a x, (s.begun iss).buffered a x = s.buffered a x := fun a x => rest_congr (begun_rest s iss) (·.buffered a x) fun _ => rfl
    simp only [begun_window, begun_ownedWords, hbuf] at hlen hw
    refine ⟨r, hexec, hr, ?_, ?_, ?_⟩
    · rw [hw]
    · rw [hw]
    · rw [hw, List.length_append, hlen, Nat.add_comm]
  · intro o s iss t u slot w y
    refine ⟨fun h hslot hole hst hpend hown => ?_, fun h hslot hole hphase hst => wunmap_passes h hslot hole hphase hst,
      fun h hslot hole hst => wunmap_stays h hslot hole hst, fun h hslot => ?_⟩
    · obtain ⟨r, hexec, hr⟩ := wunmap_empties h hslot hole hst hpend hown
      refine ⟨r, hexec, hr, ?_⟩
      rw [emptyWindow_window, begun_window]
    · obtain ⟨r, hexec, hr⟩ := wstat_puts h hslot
      refine ⟨r, hexec, ?_⟩
      revert hr
      cases hst : (w (.wstat o)).st <;> exact fun hr => by simpa only [WinState.code, show (s.window iss.core (s.srcA iss t (.wstat o) o)).st = _ from hst] using hr

end Sys2Proof.Machine
end

section
/-! Loads of words that a level holds (03 R58, R61), on a package number and at page numbers above the spec's 64 packages: there the key of a copy of a word at one
level is the key of another word at the level above it. -/

namespace Sys2Proof.Machine

/-! ### A level that is full but for two words -/

/-- Cluster 4682, whose level has the number of die 586's L2 and that die's room; the L2 of its own die 585 has the level below. -/
def aliasLevel : Nat := 4682
/-- Word 5 at the cluster's level. -/
def crowdKey : Nat := copyKey aliasLevel 5
/-- The die's own owned copy, marked first for eviction. -/
def crowdCopy : Copy := { owned := true, holder := 8, first := true }
/-- n such copies, and others behind them. -/
def crowd (n : Nat) (l : Tab Copy) : Tab Copy := List.replicate n (crowdKey, crowdCopy) ++ l

theorem tget?_crowd {k : Nat} (n : Nat) (l : Tab Copy) (h : crowdKey ≠ k) : tget? (crowd n l) k = tget? l k := by
  induction n with
  | zero => rfl
  | succ n ih => exact (if_neg h).trans ih

theorem tget?_crowd_self (n : Nat) (l : Tab Copy) : tget? (crowd (n + 1) l) crowdKey = some crowdCopy := if_pos rfl

theorem tset_crowd {k : Nat} (n : Nat) (l : Tab Copy) (c : Copy) (h : crowdKey < k) : tset (crowd n l) k c = crowd n (tset l k c) := by
  induction n with
  | zero => rfl
  | succ n ih =>
    change (if k < crowdKey then _ else if crowdKey = k then _ else (crowdKey, crowdCopy) :: tset (crowd n l) k c) = _
    rw [if_neg (by omega), if_neg (by omega), ih]
    rfl

theorem filter_crowd (n : Nat) (l : Tab Copy) (f : Nat × Copy → Bool) (h : f (crowdKey, crowdCopy) = true) :
    (crowd n l).filter f = crowd n (l.filter f) := by
  induction n with
  | zero => rfl
  | succ n ih => exact (List.filter_cons_of_pos h).trans (congrArg _ ih)

theorem filter_crowd_of_not (n : Nat) (l : Tab Copy) (f : Nat × Copy → Bool) (h : f (crowdKey, crowdCopy) = false) :
    (crowd n l).filter f = l.filter f := by
  induction n with
  | zero => rfl
  | succ n ih => exact (List.filter_cons_of_neg (by simp [h])).trans ih

/-- A machine whose copies are the crowd and some others, where nothing else takes room or is on its way. -/
structure Crowded (n : Nat) (l : Tab Copy) (s : State) : Prop where
  copies : s.copies = crowd n l
  msgs : s.msgs = []
  pinned : s.pinned = []
  owners : s.owners = []
  ctxs : s.ctxs = []

section
variable {n : Nat} {l : Tab Copy} {s : State}

theorem Crowded.copy (h : Crowded n l s) {level w : Nat} (hk : crowdKey ≠ copyKey level w) : s.copy level w = tget? l (copyKey level w) := by
  rw [State.copy, h.copies, tget?_crowd n l hk]

/-- What a level other than the crowd's holds, and what the crowd's holds. -/
theorem Crowded.occupied_of_ne (h : Crowded n l s) {level : Nat} (hl : level ≠ aliasLevel) (w : Nat) :
    s.occupied level w = (l.filter fun c => c.1 / 2 ^ 50 = level && c.2.win = none && sharesRoom level w (c.1 % 2 ^ 50)).length := by
  have hnone : s.ownedLines (level - 8192) w = [] := by simp [State.ownedLines, h.owners]
  have hcrowd : (decide (crowdKey / 2 ^ 50 = level) && decide (crowdCopy.win = none) && sharesRoom level w (crowdKey % 2 ^ 50)) = false := by
    have hcl : crowdKey / 2 ^ 50 = aliasLevel := by decide
    rw [hcl, decide_eq_false (Ne.symm hl)]
    rfl
  rw [State.occupied, h.copies, filter_crowd_of_not n l _ hcrowd]
  simp [h.pinned, hnone]

theorem Crowded.occupied (h : Crowded n l s) (w : Nat) :
    s.occupied aliasLevel w = n + (l.filter fun c => c.1 / 2 ^ 50 = aliasLevel && c.2.win = none).length := by
  have hcrowd : (decide (crowdKey / 2 ^ 50 = aliasLevel) && decide (crowdCopy.win = none) && sharesRoom aliasLevel w (crowdKey % 2 ^ 50)) = true := by
    simp [sharesRoom, crowdCopy, aliasLevel, crowdKey, copyKey]
  have hshare : ∀ v, sharesRoom aliasLevel w v = true := fun v => by simp [sharesRoom, aliasLevel]
  have hlev : ¬ (8192 ≤ aliasLevel ∧ aliasLevel < 16384) := by decide
  rw [State.occupied, h.copies, filter_crowd n l _ hcrowd, if_neg hlev]
  simp [h.pinned, hshare, crowd]

/-- A level with room takes a word that it has not. -/
theorem Crowded.fill (h : Crowded n l s) {level w : Nat} (hk : crowdKey < copyKey level w) (hn : tget? l (copyKey level w) = none)
    (hf : s.full level w = false) (v : Word) (region : Nat) (first : Bool) :
    Crowded n (tset l (copyKey level w) { val := v, region := region, first := first }) (s.fill level w v region first) := by
  have hnone : s.copy level w = none := (h.copy hk.ne).trans hn
  have hfill : s.fill level w v region first = s.setCopy level w { val := v, region := region, first := first } := by
    simp [State.fill, hnone, State.makeRoom, State.roomBy, hf]
  rw [hfill]
  exact ⟨by rw [State.setCopy, h.copies, tset_crowd n l _ hk], h.msgs, h.pinned, h.owners, h.ctxs⟩

/-- The crowd's level, full, gives up the crowd's word before it takes another. -/
theorem Crowded.fill_full (h : Crowded (n + 1) l s) {w : Nat} (hk : crowdKey < copyKey aliasLevel w) (hn : tget? l (copyKey aliasLevel w) = none)
    (hf : s.full aliasLevel w = true) (v : Word) (region : Nat) (first : Bool) : (s.fill aliasLevel w v region first).copy aliasLevel 5 = none := by
  have hnone : s.copy aliasLevel w = none := (h.copy hk.ne).trans hn
  have hself : s.copy aliasLevel 5 = some crowdCopy := by
    change tget? s.copies crowdKey = _
    rw [h.copies, tget?_crowd_self]
  have hroom : s.makeRoom aliasLevel w = s.giveUp aliasLevel 5 := by
    have hpick : (decide (crowdKey / 2 ^ 50 = aliasLevel) && !crowdCopy.pend && decide (crowdCopy.win = none) && sharesRoom aliasLevel w (crowdKey % 2 ^ 50) &&
        !(decide (aliasLevel ≥ 4096) && crowdCopy.owned && decide (crowdCopy.holder < 8))) = true := by
      simp [sharesRoom, crowdCopy, aliasLevel, crowdKey, copyKey]
    have hfirst : (s.copies.filter fun c => c.1 / 2 ^ 50 = aliasLevel && !c.2.pend && c.2.win = none && sharesRoom aliasLevel w (c.1 % 2 ^ 50) &&
        !(decide (aliasLevel ≥ 4096) && c.2.owned && decide (c.2.holder < 8))).filter (fun c => c.2.first) =
          (crowdKey, crowdCopy) :: crowd n ((l.filter fun c => c.1 / 2 ^ 50 = aliasLevel && !c.2.pend && c.2.win = none &&
            sharesRoom aliasLevel w (c.1 % 2 ^ 50) && !(decide (aliasLevel ≥ 4096) && c.2.owned && decide (c.2.holder < 8))).filter fun c => c.2.first) := by
      rw [h.copies, filter_crowd (n + 1) l _ hpick, filter_crowd (n + 1) _ _ rfl]
      rfl
    rw [State.makeRoom, State.roomBy, if_neg (by simp [hnone, hf])]
    dsimp only
    rw [hfirst]
    rfl
  have hgone : (s.giveUp aliasLevel 5).copy aliasLevel 5 = none := by
    have hidle : s.registering (dieAgent (aliasLevel - 4096)) 5 = false := by simp [State.registering, h.msgs]
    have hgive : s.giveUp aliasLevel 5 = ((s.delCopy aliasLevel 5).writeBack (dieAgent (aliasLevel - 4096)) [{ w := 5, val := crowdCopy.val }] .none).1 := by
      rw [State.giveUp, if_neg (by decide), State.giveUpHigh, if_pos (by decide)]
      dsimp only
      rw [hself]
      dsimp only
      rw [if_neg (by simp [hidle, crowdCopy]), State.evictAgent, hself]
      rfl
    rw [hgive, State.copy, unsent_field (writeBack_unsent _ _ _ _ _) State.copies (fun _ => rfl)]
    exact copy_delCopy_self s aliasLevel 5
  rw [State.fill, hnone]
  dsimp only
  rw [hroom]
  split
  · exact hgone
  · exact (copy_setCopy_ne _ _ hk.ne').trans hgone

end

/-! ### A load of two words -/

theorem next_of_done {s r : State} (h : done s = .next r) : r = s := by
  unfold done at h
  split at h
  · cases h
  · exact (Host.Outcome.next.inj h).symm

theorem exec_ld (o : Ops) (f : MemFn) (s : State) :
    exec (.ld o f) s = done (runGroup (.ld o f) o (loadBody (.ld o f) o f.size f.scope f.policy) s) := rfl

/-- A load of words that a level of the requester holds: the copies afterwards are those of the access. -/
theorem exec_ld_of_hit {s y : State} {iss : Issue} {o : Ops} {f : MemFn} {t pa d : Nat} {vs : List Word} (h : Alone s iss (.ld o f) o t) (hf : (s.thread t).fresh)
    (ha : f.size.width / 8 ∣ s.globalAddr iss t (.ld o f) o)
    (ht : (s.begun iss).translate (s.who t).ctx (tcPath (s.who t).core) (s.globalAddr iss t (.ld o f) o) { user := (s.who t).user } = (y, .inl (.cached pa)))
    (hv : y.overlaps t ((itemsOf pa (f.size.width / 8) 0).map (·.w)) = false)
    (hl : y.lookup (s.who t) (itemsOf pa (f.size.width / 8) 0) f.scope = .hit d vs) :
    (runGroup (.ld o f) o (loadBody (.ld o f) o f.size f.scope f.policy) s).copies =
      (y.loadAt (s.who t) (.cached pa) (s.globalAddr iss t (.ld o f) o) (f.size.width / 8) f.scope f.policy).1.copies := by
  obtain ⟨hfailed, hphase, -⟩ := hf
  obtain ⟨-, -, -, -, hlatch⟩ := fields_of_wellFormed h.issues.formed rfl rfl rfl
  have hbody : loadBody (.ld o f) o f.size f.scope f.policy iss (s.begun iss) (s.begun iss) t =
      ((y.loadAt (s.who t) (.cached pa) (s.globalAddr iss t (.ld o f) o) (f.size.width / 8) f.scope f.policy).1.writeD iss o t
        (loadOut f.size (bytesOf pa (f.size.width / 8) vs)) (regsOf f.size) true, .next) := by
    simp only [loadBody, begun_thread, begun_who, begun_globalAddr h.issues h.mem, hfailed, hphase, sizeBytes, Nat.mod_eq_zero_of_dvd ha, ne_eq, not_true, if_false,
      Nat.zero_ne_one, ht, hv, Bool.false_eq_true, h.kWriter_eq, State.loadAt, hl]
  exact rest_congr (h.wrote (hlatch rfl) hbody).kept.rest State.copies fun _ => rfl

/-- Core 40 of package 73, in cluster 4682. -/
def aliasCore : Nat := coreKey 73 40
def aliasThread : Nat := threadKey (squadKey aliasCore 0) 0
/-- The first word of package 74's memory. -/
def aliasWord : Nat := 74 * 2 ^ 44
/-- LD of eight bytes at address 0, without guard, latch or chain. -/
def aliasOps : Ops := ⟨⟨0, false, false, false, 0, false⟩, .zero, .zero, .fld .zero, .zero⟩
def aliasLoad : MemFn := { size := .n64, policy := .all, scope := .grp }
/-- The core's one thread, alone at 0x1000. -/
def aliasGroup : Issue := { core := aliasCore, slot := 0, pc := 0x1000, nbytes := 8, threads := [aliasThread] }
/-- The copies of the two words at the LLC of the core's package. -/
def aliasTail : Tab Copy := [(copyKey (llcLevel 73) aliasWord, {}), (copyKey (llcLevel 73) (aliasWord + 1), {})]
/-- The thread's context is number 0 of package 74; its address 0 is Cached, in that package's memory. -/
def aliasState (n : Nat) : State :=
  { threads := [(aliasThread, { pc := 0x1000 })]
    cores := [(aliasCore, {})]
    squads := [(squadOf aliasThread, { ctx := 64 })]
    tcs := [(aliasCore, [{ ctx := 74 * 64, base := 0, log := 16, leaf := 0x1F }])]
    copies := crowd n aliasTail
    issue := some aliasGroup }

theorem aliasState_alone (n : Nat) : Alone (aliasState n) aliasGroup (.ld aliasOps aliasLoad) aliasOps aliasThread where
  issues :=
    { formed := by decide
      issue := rfl
      core := by decide
      lanes := by decide
      checks := by
        intro t ht
        obtain rfl : t = aliasThread := List.mem_singleton.1 ht
        rfl
      latches := by
        intro t ht
        obtain rfl : t = aliasThread := List.mem_singleton.1 ht
        rfl
      undone := by
        intro t ht
        obtain rfl : t = aliasThread := List.mem_singleton.1 ht
        rfl
      writers := by
        intro t ht f hf
        obtain rfl : t = aliasThread := List.mem_singleton.1 ht
        cases hf }
  only := rfl
  guard := rfl

theorem aliasState_globalAddr (n : Nat) : (aliasState n).globalAddr aliasGroup aliasThread (.ld aliasOps aliasLoad) aliasOps = 0 := by
  have ha : (aliasState n).srcA aliasGroup aliasThread (.ld aliasOps aliasLoad) aliasOps = 0 := rfl
  have hb : (aliasState n).offset aliasGroup aliasThread aliasOps.b = sext 0 32 := rfl
  rw [State.globalAddr, ha, hb]
  decide

theorem aliasState_mapped (n : Nat) : ((aliasState n).begun aliasGroup).Mapped ((aliasState n).who aliasThread) 0 false (4 * aliasWord) := by
  refine ⟨by decide, by decide, { ctx := 74 * 64, base := 0, log := 16, leaf := 0x1F }, ?_, rfl, ?_⟩
  · have htcs : ((aliasState n).begun aliasGroup).tcs = [(aliasCore, [{ ctx := 74 * 64, base := 0, log := 16, leaf := 0x1F }])] := rfl
    have hctx : ((aliasState n).who aliasThread).ctx = 74 * 64 := rfl
    have hcore : ((aliasState n).who aliasThread).core = aliasCore := rfl
    simp only [State.tcFind, htcs, hctx, hcore]
    decide
  · have hnum : ((aliasState n).begun aliasGroup).pkgNum 74 = 0 := rfl
    have htarget : targetOf 0x1F 16 (0 % 2 ^ 57) = .cached 0 := by decide
    have hctx : ((aliasState n).who aliasThread).ctx = 74 * 64 := rfl
    rw [hctx, htarget]
    exact congrArg Target.cached (if_pos (hnum.symm ▸ rfl))

theorem aliasState_crowded (n : Nat) : Crowded n aliasTail ((aliasState n).begun aliasGroup) where
  copies := rest_congr (begun_rest _ _) State.copies fun _ => rfl
  msgs := rest_congr (begun_rest _ _) State.msgs fun _ => rfl
  pinned := rest_congr (begun_rest _ _) State.pinned fun _ => rfl
  owners := rest_congr (begun_rest _ _) State.owners fun _ => rfl
  ctxs := rest_congr (begun_rest _ _) State.ctxs fun _ => rfl

/-- The words lie in the LLC alone. -/
theorem aliasState_lookup (n : Nat) : ((aliasState n).begun aliasGroup).lookup ((aliasState n).who aliasThread) (itemsOf (4 * aliasWord) 8 0) .grp =
    .hit 2 [0, 0] := by
  have h := aliasState_crowded n
  generalize (aliasState n).begun aliasGroup = s at h
  have hlevel : ((aliasState n).who aliasThread).level = aliasLevel := rfl
  have hcore : ((aliasState n).who aliasThread).core = aliasCore := rfl
  have hagent : ((aliasState n).who aliasThread).agent = dieAgent 585 := rfl
  have hremote : ∀ w ∈ [aliasWord, aliasWord + 1], ((aliasState n).who aliasThread).remote w = true := fun w hw => by
    rw [Who.remote, hcore]
    revert w
    decide
  have hl1 : ∀ w ∈ [aliasWord, aliasWord + 1], s.copy aliasLevel w = none := by
    intro w hw
    rw [h.copy (by revert w; decide)]
    revert w
    decide
  have hl2 : ∀ w ∈ [aliasWord, aliasWord + 1], s.copy (l2Level 585) w = none := by
    intro w hw
    rw [h.copy (by revert w; decide)]
    revert w
    decide
  have hllc : ∀ w ∈ [aliasWord, aliasWord + 1], s.copy (llcLevel 73) w = some {} := by
    intro w hw
    rw [h.copy (by revert w; decide)]
    revert w
    decide
  have hdepth0 : ∀ w ∈ [aliasWord, aliasWord + 1], ∀ bm r, s.levelWord ((aliasState n).who aliasThread) 0 w bm r = .miss := fun w hw bm r => by
    simp only [State.levelWord, hlevel, hl1 w hw]
  have hdepth1 : ∀ w ∈ [aliasWord, aliasWord + 1], ∀ bm r, s.levelWord ((aliasState n).who aliasThread) 1 w bm r = .miss := fun w hw bm r => by
    have hmarl : isMarl aliasCore = false := by decide
    have hdie : dieOf aliasCore = 585 := by decide
    simp only [State.levelWord, hcore, hmarl, hdie, hl2 w hw, Bool.false_eq_true, if_false]
  have hdepth2 : ∀ w ∈ [aliasWord, aliasWord + 1], ∀ bm, s.levelWord ((aliasState n).who aliasThread) 2 w bm 0 = .val 0 := fun w hw bm => by
    have hpkg : pkgOf aliasCore = 73 := by decide
    simp [State.levelWord, hremote w hw, hcore, hpkg, hllc w hw]
  have hown : ∀ w ∈ [aliasWord, aliasWord + 1], s.ownWord aliasLevel (dieAgent 585) w 0 = 0 := fun w hw => by
    obtain ⟨h8, hdie⟩ := dieAgent_place 585
    simp only [State.ownWord, h8, if_true, hdie, State.dieData, hl2 w hw, hl1 w hw, Option.getD_none]
  have hown' := hown aliasWord (by decide)
  have hown'' := hown (aliasWord + 1) (by decide)
  have hitems : itemsOf (4 * aliasWord) 8 0 = [{ w := aliasWord }, { w := aliasWord + 1 }] := by decide
  simp [State.lookup, hitems, scopeRank, List.range_succ, hdepth0, hdepth1, hdepth2, hlevel, hagent, Found.isVal, Found.get]
  exact ⟨hown _ (by decide), hown _ (by decide)⟩

/-- The two words placed at the L2 and at the cluster's level, but the second at the latter. -/
def aliasFills : Tab Copy := (copyKey (l2Level 585) aliasWord, {}) :: (copyKey (l2Level 585) (aliasWord + 1), {}) ::
  (copyKey aliasLevel aliasWord, {}) :: aliasTail

theorem aliasRoom : levelRoom (l2Level 585) = some (2 ^ 24) ∧ levelRoom aliasLevel = some (2 ^ 24) ∧ l2Level 585 ≠ aliasLevel := by decide

/-- A word that the LLC has is placed at the two levels below. -/
theorem keepWord_alias (s : State) (w r : Nat) : s.keepWord aliasLevel (dieAgent 585) 2 w 0 r .all =
    (s.fill (l2Level 585) w 0 r false).fill aliasLevel w 0 r false := by
  obtain ⟨h8, hdie⟩ := dieAgent_place 585
  simp [State.keepWord, State.expel, h8, hdie]

section
variable {n : Nat} {s : State} (hn : n + 3 = 2 ^ 24)
include hn

/-- The first word finds room at the L2 and at the cluster's level. -/
theorem Crowded.fill_low (h : Crowded (n + 1) aliasTail s) :
    Crowded (n + 1) ((copyKey (l2Level 585) aliasWord, {}) :: (copyKey aliasLevel aliasWord, {}) :: aliasTail)
      ((s.fill (l2Level 585) aliasWord 0 63 false).fill aliasLevel aliasWord 0 63 false) := by
  obtain ⟨hl2, hl1, hne⟩ := aliasRoom
  have h1 : Crowded (n + 1) ((copyKey (l2Level 585) aliasWord, {}) :: aliasTail) (s.fill (l2Level 585) aliasWord 0 63 false) :=
    h.fill (level := l2Level 585) (w := aliasWord) (by decide) (by decide) (by rw [State.full, hl2, h.occupied_of_ne hne]; decide) 0 63 false
  have hcount : (((copyKey (l2Level 585) aliasWord, ({} : Copy)) :: aliasTail).filter fun c => c.1 / 2 ^ 50 = aliasLevel && c.2.win = none).length = 1 := by
    decide
  refine h1.fill (level := aliasLevel) (w := aliasWord) (by decide) (by decide) ?_ 0 63 false
  rw [State.full, hl1, h1.occupied, hcount]
  exact decide_eq_false (by omega)

/-- The second finds room at the L2 alone, and one of the crowd's words has to leave. -/
theorem Crowded.fill_high (h : Crowded (n + 1) ((copyKey (l2Level 585) aliasWord, {}) :: (copyKey aliasLevel aliasWord, {}) :: aliasTail) s) :
    ((s.fill (l2Level 585) (aliasWord + 1) 0 63 false).fill aliasLevel (aliasWord + 1) 0 63 false).copy aliasLevel 5 = none := by
  obtain ⟨hl2, hl1, hne⟩ := aliasRoom
  have h1 : Crowded (n + 1) aliasFills (s.fill (l2Level 585) (aliasWord + 1) 0 63 false) :=
    h.fill (level := l2Level 585) (w := aliasWord + 1) (by decide) (by decide) (by rw [State.full, hl2, h.occupied_of_ne hne]; decide) 0 63 false
  have hcount : (aliasFills.filter fun c => c.1 / 2 ^ 50 = aliasLevel && c.2.win = none).length = 2 := by decide
  refine h1.fill_full (by decide) (by decide) ?_ _ _ _
  rw [State.full, hl1, h1.occupied, hcount]
  exact decide_eq_true (by omega)

theorem Crowded.loadAt (h : Crowded (n + 1) aliasTail s) {x : Who} (hl : x.level = aliasLevel) (ha : x.agent = dieAgent 585)
    (hit : s.lookup x (itemsOf (4 * aliasWord) 8 0) .grp = .hit 2 [0, 0]) : (s.loadAt x (.cached (4 * aliasWord)) 0 8 .grp .all).1.copy aliasLevel 5 = none := by
  have hitems : itemsOf (4 * aliasWord) 8 0 = [{ w := aliasWord }, { w := aliasWord + 1 }] := by decide
  have hregion : ∀ {l : Tab Copy} {y : State}, Crowded (n + 1) l y → y.regionOf x.ctx 0 = 63 := fun hy => by
    simp [State.regionOf, State.ctx, tget, tget?, hy.ctxs]
  have hcount : Crowded (n + 1) aliasTail (if 2 = 0 ∨ isMarl x.core = true then s else s.count x.core 6 1) := by
    split
    · exact h
    · exact ⟨h.copies, h.msgs, h.pinned, h.owners, h.ctxs⟩
  have hlow := hcount.fill_low hn
  rw [hitems] at hit
  simp only [State.loadAt, hit, hitems, List.zip_cons_cons, List.zip_nil_right, List.foldl_cons, List.foldl_nil, hl, ha, keepWord_alias, hregion hcount,
    hregion hlow]
  exact hlow.fill_high hn

end

/-- Room for two words at every level. -/
theorem aliasState_room {n : Nat} (hn : n + 3 = 2 ^ 24) {level k : Nat} (hk : levelRoom level = some k) (w : Nat) :
    ((aliasState (n + 1)).begun aliasGroup).occupied level w + 2 ≤ k := by
  have h := aliasState_crowded (n + 1)
  by_cases hl : level = aliasLevel
  · subst hl
    have hcount : (aliasTail.filter fun c => c.1 / 2 ^ 50 = aliasLevel && c.2.win = none).length = 0 := by decide
    obtain ⟨-, hroom, -⟩ := aliasRoom
    rw [h.occupied, hcount]
    have := Option.some.inj (hk.symm.trans hroom)
    omega
  · have hle := List.length_filter_le (fun c : Nat × Copy => c.1 / 2 ^ 50 = level && c.2.win = none && sharesRoom level w (c.1 % 2 ^ 50)) aliasTail
    have htail : aliasTail.length = 2 := rfl
    have hfour : 4 ≤ k := by
      unfold levelRoom at hk
      split at hk
      · rw [← Option.some.inj hk]; decide
      · split at hk
        · rw [← Option.some.inj hk]; decide
        · split at hk
          · rw [← Option.some.inj hk]; decide
          · cases hk
    rw [h.occupied_of_ne hl]
    omega

/-- Refutes O18: the second word that the load places in the cluster's L1 makes that level give up an owned copy, though two more words had room there before: the
words at the L2 have the keys of words at the cluster's level. -/
theorem not_loadOfHeldWords : ¬ Obligations.LoadOfHeldWords := by
  unfold Obligations.LoadOfHeldWords
  rintro ⟨hheld, -⟩
  obtain ⟨n, hn⟩ : ∃ n, n + 3 = 2 ^ 24 := ⟨2 ^ 24 - 3, Nat.sub_add_cancel (by decide)⟩
  have hcrowd := aliasState_crowded (n + 1)
  have halone := aliasState_alone (n + 1)
  have haddr : aliasLoad.size.width / 8 ∣ (aliasState (n + 1)).globalAddr aliasGroup aliasThread (.ld aliasOps aliasLoad) aliasOps :=
    aliasState_globalAddr (n + 1) ▸ Nat.dvd_zero _
  have hmap := translate_of_mapped (aliasState_mapped (n + 1))
  have hlook := aliasState_lookup (n + 1)
  have hover : ((aliasState (n + 1)).begun aliasGroup).overlaps aliasThread ((itemsOf (4 * aliasWord) 8 0).map (·.w)) = false := rfl
  rw [← aliasState_globalAddr (n + 1)] at hmap
  obtain ⟨r, z, hexec, -, -, -, -, -, -, -, hkept⟩ := hheld aliasOps aliasLoad (aliasState (n + 1)) ((aliasState (n + 1)).begun aliasGroup) aliasGroup aliasThread
    (4 * aliasWord) 2 [0, 0] halone ⟨rfl, rfl, rfl⟩ haddr hmap rfl hover hlook
  obtain ⟨-, hstay⟩ := hkept (.inl rfl) fun level k hk j _ => aliasState_room hn hk j.w
  have hcopy : ((aliasState (n + 1)).begun aliasGroup).copy aliasLevel 5 = some crowdCopy := by
    rw [State.copy, hcrowd.copies]
    exact tget?_crowd_self n aliasTail
  have hown : r.copy aliasLevel 5 = some crowdCopy := hstay aliasLevel 5 crowdCopy hcopy rfl
  have hwidth : aliasLoad.size.width / 8 = 8 := rfl
  have hscope : aliasLoad.scope = .grp := rfl
  have hpolicy : aliasLoad.policy = .all := rfl
  rw [exec_ld] at hexec
  have hr := exec_ld_of_hit halone ⟨rfl, rfl, rfl⟩ haddr hmap hover hlook
  rw [← next_of_done hexec, aliasState_globalAddr, hwidth, hscope, hpolicy] at hr
  have hgone := hcrowd.loadAt hn (x := (aliasState (n + 1)).who aliasThread) rfl rfl hlook
  rw [State.copy, hr] at hown
  rw [State.copy, hown] at hgone
  cases hgone

end Sys2Proof.Machine
end

section
/-! A word that an agent gives up, word by word: what the other words, their copies and the requests keep (03 R61, R62, 05 R115). -/

namespace Sys2Proof.Machine

/-! ### The table of requests -/

/-- No request stands under a number that has yet to be given. -/
def State.Fresh (s : State) : Prop := ∀ k, s.nextId ≤ k → s.msg k = none

theorem find?_tset {α : Type} {f : Nat × α → Bool} {i : Nat} {v : α} (hf : f (i, v) = false) (t : Tab α) (h : tget? t i = none) :
    (tset t i v).find? f = t.find? f := by
  induction t with
  | nil => simp [tset, hf]
  | cons p t ih =>
    obtain ⟨k, w⟩ := p
    rw [tget?] at h
    split at h
    · cases h
    · next hk =>
      rw [tset]
      split
      · simp [hf]
      · rw [List.find?_cons, List.find?_cons, ih h]

theorem mem_tset_new {α : Type} (t : Tab α) (i : Nat) (v : α) : (i, v) ∈ tset t i v := mem_of_tget? (tget?_tset_self t i v)

section
variable (s : State)

theorem launchCopy_st (id : Nat) (m : Msg) : ∃ n, (s.launchCopy id m).msgs = tset s.msgs id n ∧ n.made = m.made ∧ n.st = m.st := by
  unfold State.launchCopy
  dsimp only
  split
  · exact ⟨_, rfl, rfl, rfl⟩
  · exact ⟨m, sendPacket_msgs _ _ _ _ _ _, rfl, rfl⟩

/-- A new request waits to be sent, or is on its way. -/
theorem send_st (m : Msg) : ∃ n, (s.send m).1.msgs = tset s.msgs s.nextId n ∧ n.made = m.made ∧ (n.st = .flying ∨ n.st = .queued) := by
  unfold State.send State.post
  dsimp only
  split
  · exact ⟨_, rfl, rfl, .inl rfl⟩
  · split
    · exact ⟨_, rfl, rfl, .inr rfl⟩
    · obtain ⟨n, hmsgs, hmade, hst⟩ := launchCopy_st { s with
        nextId := s.nextId + 1
        seqs := tset s.seqs (pairKey m.src m.dst) ((tget s.seqs (pairKey m.src m.dst) 0 + 1) % 2 ^ 16) } s.nextId
        { m with st := .flying, seq := tget s.seqs (pairKey m.src m.dst) 0, flying := 1, arrived := 0, lwms := [] }
      exact ⟨n, hmsgs, hmade, .inl hst⟩

variable {s}

theorem State.Fresh.send (h : s.Fresh) (m : Msg) : (s.send m).1.Fresh := fun k hk => by
  have hlt := send_nextId s m
  rw [send_msg_ne s m (by omega)]
  exact h k (by omega)

/-- A request that is no write-back of a word leaves the word's buffers alone. -/
theorem buffered_send (h : s.Fresh) {m : Msg} {a u : Nat} (hm : ∀ i ∈ m.items, i.w ≠ u) : (s.send m).1.buffered a u = s.buffered a u := by
  obtain ⟨n, hmsgs, hmade, -⟩ := send_st s m
  have hn : n.buffers a u = false := by
    have hany : (n.items.any fun i => i.w = u) = false := by
      rw [made_field hmade Msg.items]
      exact List.any_eq_false.2 fun i hi => by simp [hm i hi]
    rw [Msg.buffers, hany, Bool.and_false]
  rw [buffered_eq, buffered_eq, hmsgs, find?_tset (f := fun m => m.2.buffers a u) hn _ (h _ (Nat.le_refl _))]

/-- A word that an agent has written back is in its buffer. -/
theorem buffered_writeBack {a w : Nat} {v : Word} (h : s.buffered a w = none) : (s.writeBack a [{ w := w, val := v }] .none).1.buffered a w = some v := by
  obtain ⟨n, hmsgs, hmade, hst⟩ := send_st s (homeward a [{ w := w, val := v }] .none 0)
  have hitems : n.items = [{ w := w, val := v }] := made_field hmade Msg.items
  have hn : n.buffers a w = true := by
    have hkind : n.kind = .wb := made_field hmade Msg.kind
    have hagent : n.agent = a := made_field hmade Msg.agent
    rcases hst with hst | hst <;> simp [Msg.buffers, hkind, hagent, hst, hitems]
  have hmsgs' : (s.writeBack a [{ w := w, val := v }] .none).1.msgs = tset s.msgs s.nextId n := hmsgs
  have hsome := buffered_of_all (s := (s.writeBack a [{ w := w, val := v }] .none).1) (a := a) (w := w) (v := v) fun p hp hb => by
    rw [hmsgs'] at hp
    rcases mem_tset hp with hp | rfl
    · rw [buffers_of_buffered h hp] at hb
      cases hb
    · simp [hitems]
  refine hsome.resolve_left fun hnone => ?_
  have := buffers_of_buffered hnone (hmsgs' ▸ mem_tset_new s.msgs s.nextId n)
  exact absurd (hn.symm.trans this) nofun

end

/-! ### What changes at some words alone -/

/-- From s to y only levels, windows and requests have changed, and none of these of a word other than ws. -/
structure Touches (ws : List Nat) (s y : State) : Prop where
  frame : y.unsent.uncached = s.unsent.uncached
  bytes : ∀ k, y.scratchByte k = s.scratchByte k
  copies : ∀ l u, u < 2 ^ 50 → u ∉ ws → y.copy l u = s.copy l u
  msgs : s.Fresh → y.Fresh ∧ ∀ a u, u ∉ ws → y.buffered a u = s.buffered a u

section
variable {ws : List Nat} {s y z : State}

theorem Touches.refl (ws : List Nat) (s : State) : Touches ws s s := ⟨rfl, fun _ => rfl, fun _ _ _ _ => rfl, fun h => ⟨h, fun _ _ _ => rfl⟩⟩

theorem Touches.trans (h : Touches ws s y) (k : Touches ws y z) : Touches ws s z where
  frame := k.frame.trans h.frame
  bytes j := (k.bytes j).trans (h.bytes j)
  copies l u hu hn := (k.copies l u hu hn).trans (h.copies l u hu hn)
  msgs hf :=
    have ⟨hy, hb⟩ := h.msgs hf
    have ⟨hz, hc⟩ := k.msgs hy
    ⟨hz, fun a u hn => (hc a u hn).trans (hb a u hn)⟩

theorem Touches.mono {vs : List Nat} (h : Touches ws s y) (hs : ws ⊆ vs) : Touches vs s y where
  frame := h.frame
  bytes := h.bytes
  copies l u hu hn := h.copies l u hu fun hm => hn (hs hm)
  msgs hf := (h.msgs hf).imp_right fun hb a u hn => hb a u fun hm => hn (hs hm)

/-- What reads neither levels, windows nor requests. -/
theorem Touches.field {α : Sort _} (h : Touches ws s y) (f : State → α) (hf : ∀ s, f s.unsent.uncached = f s := by intro s; rfl) : f y = f s := by
  rw [← hf y, h.frame, hf]

theorem Touches.copyVal (h : Touches ws s y) (c : Copy) : y.copyVal c = s.copyVal c := by
  unfold State.copyVal
  split
  · rw [scratchRead_congr fun j _ _ => h.bytes j]
  · rfl

/-- What the latest value of a word is read from (03 R55, R58, R62). -/
theorem wordVal_congr {u : Nat} (ho : y.ownerOf u = s.ownerOf u) (hh : y.homeWord u = s.homeWord u) (hc : ∀ l, y.copy l u = s.copy l u)
    (hv : y.copyVal = s.copyVal) (hb : ∀ a, y.buffered a u = s.buffered a u) : y.wordVal u = s.wordVal u := by
  simp only [State.wordVal, ho, hh, State.agentData, State.dieData, hc, hv, hb]

theorem Touches.wordVal (h : Touches ws s y) (hf : s.Fresh) {u : Nat} (hu : u < 2 ^ 50) (hn : u ∉ ws) : y.wordVal u = s.wordVal u := by
  obtain ⟨-, hb⟩ := h.msgs hf
  exact wordVal_congr (h.field (·.ownerOf u)) (h.field (·.homeWord u)) (fun l => h.copies l u hu hn) (funext h.copyVal) fun a => hb a u hn

theorem Touches.holds (h : Touches ws s y) {x : Who} {u : Nat} (hu : u < 2 ^ 50) (hn : u ∉ ws) (hs : Holds s x u) : Holds y x u := by
  obtain ⟨hplace, hhere, hhome, hdie⟩ := hs
  refine ⟨hplace, ?_, (h.field (·.ownerOf u)).symm ▸ hhome, fun hm => ?_⟩
  · rw [h.copies _ u hu hn]
    exact hhere
  · rw [h.copies _ u hu hn]
    exact hdie hm

theorem touches_setCopy (s : State) (l : Nat) {w : Nat} (c : Copy) (hw : w < 2 ^ 50) : Touches [w] s (s.setCopy l w c) where
  frame := rfl
  bytes _ := rfl
  copies _ _ hu hn := copy_setCopy_ne s c fun he => hn (List.mem_singleton.2 (copyKey_inj hw hu he).2.symm)
  msgs h := ⟨h, fun _ _ _ => rfl⟩

theorem touches_delCopy (s : State) (l : Nat) {w : Nat} (hw : w < 2 ^ 50) : Touches [w] s (s.delCopy l w) where
  frame := rfl
  bytes _ := rfl
  copies _ _ hu hn := tget?_tdel_ne _ fun he => hn (List.mem_singleton.2 (copyKey_inj hw hu he).2.symm)
  msgs h := ⟨h, fun _ _ _ => rfl⟩

theorem touches_modWindowWord (ws : List Nat) (s : State) (k : Nat) (f : Nat → Window → Window) : Touches ws s (s.modWindowWord k f) where
  frame := congrArg State.unsent (modWindowWord_uncached s k f)
  bytes j := by
    unfold State.modWindowWord
    dsimp only
    split
    · exact modWindow_scratchByte _ _ _ _ _
    · rfl
  copies l u _ _ := by rw [State.copy, modWindowWord_copies, State.copy]
  msgs h := by
    have hm : (s.modWindowWord k f).msgs = s.msgs := uncached_field (modWindowWord_uncached s k f) State.msgs
    have hn : (s.modWindowWord k f).nextId = s.nextId := uncached_field (modWindowWord_uncached s k f) State.nextId
    refine ⟨fun j hj => ?_, fun a u _ => ?_⟩
    · rw [State.msg, hm]
      exact h j (hn ▸ hj)
    · rw [buffered_eq, buffered_eq, hm]

theorem touches_dropAt (s : State) (l : Nat) {w : Nat} (hw : w < 2 ^ 50) : Touches [w] s (s.dropAt l w) := by
  unfold State.dropAt
  split
  · split
    · exact Touches.refl _ s
    · dsimp only
      split
      · exact (touches_modWindowWord [w] s _ _).trans (touches_delCopy _ l hw)
      · exact touches_delCopy s l hw
  · exact Touches.refl _ s

theorem touches_writeBack (s : State) (a : Nat) (i : Item) : Touches [i.w] s (s.writeBack a [i] .none).1 where
  frame := congrArg State.uncached (writeBack_unsent s a [i] .none 0)
  bytes k := unsent_field (writeBack_unsent s a [i] .none 0) (·.scratchByte k)
  copies l u _ _ := unsent_field (writeBack_unsent s a [i] .none 0) (·.copy l u)
  msgs h := ⟨h.send _, fun a' u hn => buffered_send h fun j hj => by
    obtain rfl := List.mem_singleton.1 hj
    exact fun he => hn (List.mem_singleton.2 he.symm)⟩

theorem touches_evictAgent (s : State) (a l : Nat) {w : Nat} (hw : w < 2 ^ 50) : Touches [w] s (s.evictAgent a l w) := by
  unfold State.evictAgent
  split
  · split
    · exact (touches_delCopy s l hw).trans (touches_writeBack _ a { w := w, val := _ })
    · exact touches_dropAt s l hw
  · exact Touches.refl _ s

theorem touches_giveUpHigh (s : State) (l : Nat) {w : Nat} (hw : w < 2 ^ 50) : Touches [w] s (s.giveUpHigh l w) := by
  unfold State.giveUpHigh
  split
  · dsimp only
    split
    · split
      · exact Touches.refl _ s
      · exact touches_evictAgent s _ l hw
    · exact Touches.refl _ s
  · split
    · exact touches_dropAt s l hw
    · dsimp only
      split
      · exact Touches.refl _ s
      · exact touches_evictAgent s _ l hw

theorem touches_markFirst (s : State) (l : Nat) {w : Nat} (hw : w < 2 ^ 50) : Touches [w] s (s.markFirst l w) := by
  unfold State.markFirst
  split
  · exact touches_setCopy s l _ hw
  · exact Touches.refl _ s

theorem touches_putWord (s : State) (x : Who) {w : Nat} (v : Word) (hw : w < 2 ^ 50) : Touches [w] s (s.putWord x w v) := by
  unfold State.putWord
  split
  · exact touches_setCopy s x.level _ hw
  · exact Touches.refl _ s

end

end Sys2Proof.Machine
end

section
/-! Words that a requester owns, written by a store and given up as its policy says (03 R56, 05 R115). -/

namespace Sys2Proof.Machine

/-! ### The owned data of an agent -/

theorem clusterOf_div (c : Nat) : clusterOf c / 8 = dieOf c := by
  have := clusterOf_eq c
  omega

theorem clusterOf_lt {c : Nat} (hp : pkgOf c < 64) (hm : isMarl c = false) : clusterOf c < 4096 := by
  have hn : numOf c < 256 := Nat.lt_of_not_le (of_decide_eq_false hm)
  unfold clusterOf
  omega

section
variable {s : State} {w : Nat} {c : Copy}

/-- The data lies at the die's L2. -/
theorem agentData_of_l2 {die : Nat} (h : s.copy (l2Level die) w = some c) (ho : c.owned = true) (hh : c.holder = 8) :
    s.agentData (dieAgent die) w = some c.val := by
  obtain ⟨h8, hdie⟩ := dieAgent_place die
  rw [agentData_eq]
  simp [State.heldData, h8, hdie, State.dieData, h, ho, hh]

/-- The data is on its way home. -/
theorem agentData_of_no_l2 {die : Nat} (h : s.copy (l2Level die) w = none) : s.agentData (dieAgent die) w = s.buffered (dieAgent die) w := by
  obtain ⟨h8, hdie⟩ := dieAgent_place die
  rw [agentData_eq]
  simp [State.heldData, h8, hdie, State.dieData, h]

theorem agentData_of_marl {core : Nat} (hm : isMarl core = true) (hn : numOf core < 352) (h : s.copy (marlLevel core) w = some c) (ho : c.owned = true) :
    s.agentData (marlAgent core) w = some c.val := by
  obtain ⟨h8, h104, hback⟩ := marlAgent_place hm hn
  rw [agentData_eq]
  simp [State.heldData, h8, h104, hback, h, ho]

theorem agentData_of_no_marl {core : Nat} (hm : isMarl core = true) (hn : numOf core < 352) (h : s.copy (marlLevel core) w = none) :
    s.agentData (marlAgent core) w = s.buffered (marlAgent core) w := by
  obtain ⟨h8, h104, hback⟩ := marlAgent_place hm hn
  rw [agentData_eq]
  simp [State.heldData, h8, h104, hback, h]

theorem wordVal_of_agentData {e : OwnerEntry} {v : Word} (he : s.ownerOf w = some e) (h : s.agentData e.agent w = some v) : s.wordVal w = v := by
  rw [State.wordVal, he]
  simp [h]

/-- An agent gives up an owned word: its data is on its way home. -/
theorem evictAgent_buffered {a l : Nat} (h : s.copy l w = some c) (ho : c.owned = true) (hb : s.buffered a w = none) :
    (s.evictAgent a l w).copy l w = none ∧ (s.evictAgent a l w).buffered a w = some c.val := by
  have hevict : s.evictAgent a l w = ((s.delCopy l w).writeBack a [{ w := w, val := c.val }] .none).1 := by
    unfold State.evictAgent
    rw [h]
    exact if_pos ho
  rw [hevict]
  exact ⟨(unsent_field (writeBack_unsent _ _ _ _ _) (·.copy l w)).trans (copy_delCopy_self s l w), buffered_writeBack (s := s.delCopy l w) hb⟩

/-- The data of an agent's word lies owned at one of its levels, for no cluster, or is on its way home. -/
def State.LiesAt (s : State) (l a w : Nat) (v : Word) : Prop :=
  (∃ c, s.copy l w = some c ∧ c.owned = true ∧ (c.holder = 8 ∨ 16384 ≤ l) ∧ c.val = v) ∨ (s.copy l w = none ∧ s.buffered a w = some v)

section
variable {v : Word}

theorem State.LiesAt.die {die : Nat} (h : s.LiesAt (l2Level die) (dieAgent die) w v) (hd : die < 4096) : s.agentData (dieAgent die) w = some v := by
  rcases h with ⟨c, hc, ho, hh, rfl⟩ | ⟨hc, hb⟩
  · refine agentData_of_l2 hc ho (hh.resolve_right ?_)
    unfold l2Level
    omega
  · exact (agentData_of_no_l2 hc).trans hb

theorem State.LiesAt.marl {core : Nat} (h : s.LiesAt (marlLevel core) (marlAgent core) w v) (hm : isMarl core = true) (hn : numOf core < 352) :
    s.agentData (marlAgent core) w = some v := by
  rcases h with ⟨c, hc, ho, -, rfl⟩ | ⟨hc, hb⟩
  · exact agentData_of_marl hm hn hc ho
  · exact (agentData_of_no_marl hm hn hc).trans hb

theorem liesAt_evictAgent {a l : Nat} (h : s.copy l w = some c) (ho : c.owned = true) (hb : s.buffered a w = none) :
    (s.evictAgent a l w).LiesAt l a w c.val := .inr (evictAgent_buffered h ho hb)

theorem liesAt_giveUpHigh_l2 {die : Nat} (hd : die < 4096) (h : s.copy (l2Level die) w = some c) (ho : c.owned = true) (hh : c.holder = 8)
    (hb : s.buffered (dieAgent die) w = none) : (s.giveUpHigh (l2Level die) w).LiesAt (l2Level die) (dieAgent die) w c.val := by
  have hlevel : l2Level die - 4096 = die := Nat.add_sub_cancel_left ..
  have hlt : l2Level die < 8192 := by unfold l2Level; omega
  rw [State.giveUpHigh, if_pos hlt]
  dsimp only
  rw [h, hlevel]
  dsimp only
  split
  · exact .inl ⟨c, h, ho, .inl hh, rfl⟩
  · exact liesAt_evictAgent h ho hb

theorem liesAt_giveUpHigh_marl {core : Nat} (hm : isMarl core = true) (hn : numOf core < 352) (h : s.copy (marlLevel core) w = some c) (ho : c.owned = true)
    (hb : s.buffered (marlAgent core) w = none) : (s.giveUpHigh (marlLevel core) w).LiesAt (marlLevel core) (marlAgent core) w c.val := by
  have hlow : 256 ≤ numOf core := of_decide_eq_true hm
  have hback : coreKey ((marlLevel core - 16384) / 96) ((marlLevel core - 16384) % 96 + 256) = core := by
    unfold coreKey marlLevel pkgOf numOf at *
    omega
  have hge : ¬ marlLevel core < 8192 ∧ ¬ marlLevel core < 16384 := by unfold marlLevel; omega
  rw [State.giveUpHigh, if_neg hge.1, if_neg hge.2]
  dsimp only
  rw [hback]
  split
  · exact .inl ⟨c, h, ho, .inr (Nat.le_of_not_lt hge.2), rfl⟩
  · exact liesAt_evictAgent h ho hb

/-- A copy at another level is no owner's data. -/
theorem State.LiesAt.dropAt {l k a : Nat} (h : s.LiesAt l a w v) (hl : k ≠ l) : (s.dropAt k w).LiesAt l a w v := by
  have hcopy : (s.dropAt k w).copy l w = s.copy l w := copy_dropAt_ne hl
  have hbuf : (s.dropAt k w).buffered a w = s.buffered a w := uncached_field (dropAt_uncached s k w) (·.buffered a w)
  unfold State.LiesAt at h ⊢
  rwa [hcopy, hbuf]

end

end

/-! ### A word that its requester owns -/

section
variable {s : State} {x : Who} {w : Nat}

/-- The first level of a Loam core's cluster. -/
theorem Who.Proper.loam (hx : x.Proper) (hm : isMarl x.core = false) : x.level = clusterOf x.core ∧ x.agent = dieAgent (dieOf x.core) := by
  refine ⟨?_, ?_⟩
  · rw [hx.level, hm]; rfl
  · rw [hx.agent, homeAgent, hm]; rfl

theorem Who.Proper.marl (hx : x.Proper) (hm : isMarl x.core = true) : x.level = marlLevel x.core ∧ x.agent = marlAgent x.core := by
  refine ⟨?_, ?_⟩
  · rw [hx.level, hm]; rfl
  · rw [hx.agent, homeAgent, hm]; rfl

/-- An owned word leaves the L1: the L2 holds it for the die. -/
theorem evictL1_of_holds (h : Holds s x w) (hx : x.Proper) (hm : isMarl x.core = false) (hw : w < 2 ^ 50)
    (hp : tget? s.pinned (copyKey (dieOf x.core) w) = none) :
    ∃ d : Copy, s.evictL1 x.level w = (s.delCopy x.level w).setCopy (l2Level (dieOf x.core)) w d ∧ d.owned = true ∧ d.holder = 8 ∧ d.val = s.wordVal w := by
  obtain ⟨hlevel, -⟩ := hx.loam hm
  obtain ⟨c', hc', hval⟩ := h.wordVal hx
  obtain ⟨⟨hpkg, -⟩, ⟨c, hc, hown, -, -, hwin⟩, -, hdie⟩ := h
  obtain rfl : c = c' := Option.some.inj (hc.symm.trans hc')
  obtain ⟨d, hd, -⟩ := hdie hm
  have hlt := clusterOf_lt hpkg hm
  have hne : copyKey x.level w ≠ copyKey (l2Level (dieOf x.core)) w := fun he => by
    have := (copyKey_inj hw hw he).1
    rw [hlevel, l2Level] at this
    omega
  have hdel : (s.delCopy x.level w).copy (l2Level (x.level / 8)) w = some d := by
    rw [hlevel, clusterOf_div, ← hlevel]
    exact (tget?_tdel_ne _ hne).trans hd
  have hpin : tget? (s.delCopy x.level w).pinned (copyKey (x.level / 8) w) = none := by
    rw [hlevel, clusterOf_div]
    exact hp
  refine ⟨{ d with val := c.val, owned := true, holder := 8 }, ?_, rfl, rfl, hval.symm⟩
  unfold State.evictL1 l1Level
  simp only [hc, hown, if_true, hwin, hpin, Option.isSome_none, Bool.false_eq_true, if_false, hdel, State.copyVal]
  rw [hlevel, clusterOf_div]

/-- An owned word leaves the requester's first level; its die or its Marl core has its value still. -/
theorem giveUp_of_holds (h : Holds s x w) (hx : x.Proper) (hw : w < 2 ^ 50) (hb : s.buffered x.agent w = none)
    (hp : tget? s.pinned (copyKey (dieOf x.core) w) = none) : Touches [w] s (s.giveUp x.level w) ∧
      (isMarl x.core = true → (s.giveUp x.level w).LiesAt (marlLevel x.core) (marlAgent x.core) w (s.wordVal w)) ∧
      (isMarl x.core = false → (s.giveUp x.level w).buffered x.agent w = none ∧ ∃ c, (s.giveUp x.level w).copy (l2Level (dieOf x.core)) w = some c ∧
        c.owned = true ∧ c.holder = 8 ∧ c.val = s.wordVal w) := by
  cases hm : isMarl x.core with
  | true =>
    obtain ⟨hlevel, hagent⟩ := hx.marl hm
    obtain ⟨c, hc, hval⟩ := h.wordVal hx
    obtain ⟨c', hc', hown, -⟩ := owned_of_holds h
    obtain rfl : c = c' := Option.some.inj (hc.symm.trans hc')
    have hgive : s.giveUp x.level w = s.giveUpHigh x.level w := if_neg (by rw [hlevel]; unfold marlLevel; omega)
    refine ⟨hgive ▸ touches_giveUpHigh s x.level hw, fun _ => ?_, nofun⟩
    rw [hgive, hval, hlevel]
    exact liesAt_giveUpHigh_marl hm h.place.2 (hlevel ▸ hc) hown (hagent ▸ hb)
  | false =>
    obtain ⟨hlevel, hagent⟩ := hx.loam hm
    have hgive : s.giveUp x.level w = s.evictL1 x.level w := if_pos (by rw [hlevel]; exact clusterOf_lt h.place.1 hm)
    obtain ⟨d, heq, hdo, hdh, hdv⟩ := evictL1_of_holds h hx hm hw hp
    rw [hgive, heq]
    exact ⟨(touches_delCopy s _ hw).trans (touches_setCopy _ _ d hw), nofun, fun _ => ⟨hb, d, copy_setCopy_self _ _ d, hdo, hdh, hdv⟩⟩

theorem copy_markFirst {l k u : Nat} {c : Copy} (h : s.copy k u = some c) : ∃ b, (s.markFirst l w).copy k u = some { c with first := b } := by
  unfold State.markFirst
  split
  · next d hd =>
    by_cases hk : copyKey l w = copyKey k u
    · obtain rfl : c = d := Option.some.inj (h.symm.trans ((congrArg (tget? s.copies) hk).symm.trans hd))
      exact ⟨true, by rw [State.copy, State.setCopy, hk, tget?_tset_self]⟩
    · exact ⟨c.first, (copy_setCopy_ne s _ hk).trans h⟩
  · exact ⟨c.first, h⟩

/-- A mark is no part of what a requester holds. -/
theorem markFirst_of_holds (h : Holds s x w) (hx : x.Proper) (l : Nat) : Holds (s.markFirst l w) x w ∧ (s.markFirst l w).wordVal w = s.wordVal w := by
  have howner : (s.markFirst l w).ownerOf w = s.ownerOf w := by
    unfold State.markFirst
    split <;> rfl
  obtain ⟨c', hc', hval⟩ := h.wordVal hx
  obtain ⟨hplace, ⟨c, hc, hown, hpend, hholder, hwin⟩, hhome, hdie⟩ := h
  obtain rfl : c = c' := Option.some.inj (hc.symm.trans hc')
  obtain ⟨b, hb⟩ := copy_markFirst (l := l) (w := w) hc
  have hheld : Holds (s.markFirst l w) x w := by
    refine ⟨hplace, ⟨_, hb, hown, hpend, hholder, hwin⟩, howner ▸ hhome, fun hm => ?_⟩
    obtain ⟨d, hd, hdo, hdh⟩ := hdie hm
    obtain ⟨f, hf⟩ := copy_markFirst (l := l) (w := w) hd
    exact ⟨_, hf, hdo, hdh⟩
  obtain ⟨e, he, heval⟩ := hheld.wordVal hx
  refine ⟨hheld, ?_⟩
  rw [heval, hval, ← Option.some.inj (hb.symm.trans he)]

/-- What a policy leaves of a word that the requester owns. -/
theorem expel_of_holds (h : Holds s x w) (hx : x.Proper) (hw : w < 2 ^ 50) (hb : s.buffered x.agent w = none) {pol : Policy}
    (hp : pol = .all ∨ pol = .strm ∨ tget? s.pinned (copyKey (dieOf x.core) w) = none) :
    Touches [w] s (s.expel x.level x.agent w pol) ∧ (s.expel x.level x.agent w pol).wordVal w = s.wordVal w := by
  have hmark : Touches [w] s (s.expel x.level x.agent w .strm) ∧ (s.expel x.level x.agent w .strm).wordVal w = s.wordVal w := by
    obtain ⟨h1, hv1⟩ := markFirst_of_holds h hx x.level
    obtain ⟨h2, hv2⟩ := markFirst_of_holds h1 hx (llcLevel (x.agent / 1024))
    obtain ⟨-, hv3⟩ := markFirst_of_holds h2 hx (l2Level (agentDie x.agent))
    have ht := (touches_markFirst s x.level hw).trans (touches_markFirst _ (llcLevel (x.agent / 1024)) hw)
    rw [State.expel]
    split
    · exact ⟨ht.trans (touches_markFirst _ _ hw), hv3.trans (hv2.trans hv1)⟩
    · exact ⟨ht, hv2.trans hv1⟩
  have hgive : tget? s.pinned (copyKey (dieOf x.core) w) = none → pol ≠ .all → pol ≠ .strm →
      Touches [w] s (s.expel x.level x.agent w pol) ∧ (s.expel x.level x.agent w pol).wordVal w = s.wordVal w := by
    intro hpin hall hstrm
    obtain ⟨ht, hmarl, hloam⟩ := giveUp_of_holds h hx hw hb hpin
    obtain ⟨e, he, hagent⟩ := h.home
    have hexpel : s.expel x.level x.agent w pol =
        (let y := s.giveUp x.level w
        let y := if x.agent % 1024 < 8 ∧ pol ≠ .nl1 then y.giveUp (l2Level (agentDie x.agent)) w else y
        if pol = .nllc then y.dropAt (llcLevel (x.agent / 1024)) w else y) := by
      cases pol with
      | all => exact absurd rfl hall
      | strm => exact absurd rfl hstrm
      | _ => rfl
    have hpkg : x.agent / 1024 < 64 := by
      obtain ⟨⟨hpkg, hnum⟩, -⟩ := h
      cases hm : isMarl x.core with
      | true =>
        rw [(hx.marl hm).2]
        unfold marlAgent
        omega
      | false =>
        have hn : numOf x.core < 256 := Nat.lt_of_not_le (of_decide_eq_false hm)
        rw [(hx.loam hm).2]
        unfold dieAgent dieOf
        omega
    have hlast : ∀ (y : State) (l : Nat), Touches [w] s y → y.LiesAt l x.agent w (s.wordVal w) → (l < 8192 ∨ 16384 ≤ l) →
        Touches [w] s (if pol = .nllc then y.dropAt (llcLevel (x.agent / 1024)) w else y) ∧
          (if pol = .nllc then y.dropAt (llcLevel (x.agent / 1024)) w else y).LiesAt l x.agent w (s.wordVal w) := fun y l hy hl hrange => by
      split
      · exact ⟨hy.trans (touches_dropAt y _ hw), hl.dropAt (by unfold llcLevel; omega)⟩
      · exact ⟨hy, hl⟩
    cases hm : isMarl x.core with
    | true =>
      obtain ⟨-, hxa⟩ := hx.marl hm
      obtain ⟨h8, -, -⟩ := marlAgent_place hm h.place.2
      have hlies := hmarl hm
      rw [← hxa] at hlies
      obtain ⟨hy, hl⟩ := hlast _ _ ht hlies (.inr (by unfold marlLevel; omega))
      have hskip : ¬ (x.agent % 1024 < 8 ∧ pol ≠ .nl1) := fun hc => h8 (hxa ▸ hc.1)
      simp only [hexpel, if_neg hskip]
      rw [hxa] at hl
      exact ⟨hy, wordVal_of_agentData ((hy.field (·.ownerOf w)).trans he) (by rw [hagent, hxa]; exact hl.marl hm h.place.2)⟩
    | false =>
      obtain ⟨-, hxa⟩ := hx.loam hm
      obtain ⟨h8, hdie⟩ := dieAgent_place (dieOf x.core)
      obtain ⟨hbuf, c, hc, hco, hch, hcv⟩ := hloam hm
      have hd : dieOf x.core < 512 := by
        have hp64 := h.place.1
        have hn : numOf x.core < 256 := Nat.lt_of_not_le (of_decide_eq_false hm)
        unfold dieOf
        omega
      have hl2 : l2Level (dieOf x.core) < 8192 := by unfold l2Level; omega
      have hmid : Touches [w] s (if x.agent % 1024 < 8 ∧ pol ≠ .nl1 then (s.giveUp x.level w).giveUp (l2Level (agentDie x.agent)) w else s.giveUp x.level w) ∧
          (if x.agent % 1024 < 8 ∧ pol ≠ .nl1 then (s.giveUp x.level w).giveUp (l2Level (agentDie x.agent)) w else s.giveUp x.level w).LiesAt
            (l2Level (dieOf x.core)) x.agent w (s.wordVal w) := by
        split
        · have hgive : (s.giveUp x.level w).giveUp (l2Level (agentDie x.agent)) w = (s.giveUp x.level w).giveUpHigh (l2Level (dieOf x.core)) w := by
            rw [hxa, hdie]
            exact if_neg (by unfold l2Level; omega)
          rw [hgive, hxa, ← hcv]
          exact ⟨ht.trans (touches_giveUpHigh _ _ hw), liesAt_giveUpHigh_l2 (by omega) hc hco hch (hxa ▸ hbuf)⟩
        · exact ⟨ht, .inl ⟨c, hc, hco, .inl hch, hcv⟩⟩
      obtain ⟨hy, hl⟩ := hlast _ _ hmid.1 hmid.2 (.inl hl2)
      simp only [hexpel]
      refine ⟨hy, wordVal_of_agentData ((hy.field (·.ownerOf w)).trans he) ?_⟩
      rw [hagent]
      generalize (if pol = .nllc then _ else _ : State) = y at hl ⊢
      rw [hxa] at hl ⊢
      exact hl.die (by omega)
  by_cases hall : pol = .all
  · subst hall
    exact ⟨Touches.refl _ s, rfl⟩
  · by_cases hstrm : pol = .strm
    · subst hstrm
      exact hmark
    · exact hgive ((hp.resolve_left hall).resolve_left hstrm) hall hstrm

/-- Under these policies the word stays at its level. -/
theorem expel_copies (s : State) (level a w : Nat) {pol : Policy} (hp : pol = .all ∨ pol = .strm) :
    s.expel level a w pol = { s with copies := (s.expel level a w pol).copies } := by
  have hmark : ∀ (y : State) (l : Nat), y.markFirst l w = { y with copies := (y.markFirst l w).copies } := fun y l => by
    unfold State.markFirst
    split <;> rfl
  rcases hp with rfl | rfl
  · rfl
  · rw [State.expel]
    split
    · rw [hmark, hmark s, hmark]
    · rw [hmark, hmark s]

end

end Sys2Proof.Machine
end

section
/-! Stores of several words that the requester owns, and the bytes that they leave (03 R56, 08 R170). -/

namespace Sys2Proof.Machine

/-! ### One word after the other -/

/-- The bytes of an item written at the requester's first level, and what the policy leaves of the word there. -/
def State.put (s : State) (x : Who) (pol : Policy) (i : Item) : State :=
  (s.putWord x i.w (mergeWord i.bm i.val (s.wordVal i.w))).expel x.level x.agent i.w pol

/-- Words that a store may write at once. -/
structure Ready (items : List Item) (x : Who) (pol : Policy) (s : State) : Prop where
  holds : ∀ i ∈ items, Holds s x i.w
  small : ∀ i ∈ items, i.w < 2 ^ 50
  distinct : (items.map (·.w)).Nodup
  acked : ∀ i ∈ items, s.buffered x.agent i.w = none
  fresh : s.Fresh
  unpinned : pol = .all ∨ pol = .strm ∨ ∀ i ∈ items, tget? s.pinned (copyKey (dieOf x.core) i.w) = none

/-- y is s but for some words' data and their levels, and these have the items' bytes. -/
structure StoredWords (items : List Item) (s y : State) : Prop where
  touches : Touches (items.map (·.w)) s y
  val : ∀ i ∈ items, y.wordVal i.w = mergeWord i.bm i.val (s.wordVal i.w)

section
variable {s y : State} {x : Who} {pol : Policy} {i : Item} {items : List Item}

theorem storeWord_of_owned {w : Nat} (h : Holds s x w) (hx : x.Proper) (bm : Nat) (v : Word) (region : Nat) (late : Bool) :
    s.storeWord x w bm v region none pol late = .done (s.put x pol ⟨w, bm, v⟩) := by
  obtain ⟨c', hc', hval⟩ := h.wordVal hx
  obtain ⟨-, ⟨c, hc, hown, hpend, hholder, hwin⟩, -⟩ := h
  obtain rfl : c = c' := Option.some.inj (hc.symm.trans hc')
  simp only [State.storeWord, hc, hpend, hown, Bool.false_eq_true, if_false, if_true, State.moveCopy, hwin, hholder, State.putCopy,
    State.setCopy_setCopy, State.put, State.putWord, hval]

theorem put_of_holds (h : Holds s x i.w) (hx : x.Proper) (hw : i.w < 2 ^ 50) (hb : s.buffered x.agent i.w = none)
    (hp : pol = .all ∨ pol = .strm ∨ tget? s.pinned (copyKey (dieOf x.core) i.w) = none) :
    Touches [i.w] s (s.put x pol i) ∧ (s.put x pol i).wordVal i.w = mergeWord i.bm i.val (s.wordVal i.w) := by
  have hk := putWord_keeps s x i.w (mergeWord i.bm i.val (s.wordVal i.w))
  have hpin : (s.putWord x i.w (mergeWord i.bm i.val (s.wordVal i.w))).pinned = s.pinned := hk.field State.pinned fun _ => rfl
  obtain ⟨ht, hv⟩ := expel_of_holds (h.of_keeps hk) hx hw ((hk.field (·.buffered x.agent i.w) fun _ => rfl).trans hb) (hpin.symm ▸ hp)
  exact ⟨(touches_putWord s x _ hw).trans ht, hv.trans (wordVal_putWord hx h _)⟩

theorem Ready.head (h : Ready (i :: items) x pol s) (hx : x.Proper) :
    Touches [i.w] s (s.put x pol i) ∧ (s.put x pol i).wordVal i.w = mergeWord i.bm i.val (s.wordVal i.w) :=
  put_of_holds (h.holds i List.mem_cons_self) hx (h.small i List.mem_cons_self) (h.acked i List.mem_cons_self)
    (h.unpinned.imp_right (Or.imp_right fun hp => hp i List.mem_cons_self))

theorem Ready.tail (h : Ready (i :: items) x pol s) (hx : x.Proper) : Ready items x pol (s.put x pol i) := by
  obtain ⟨ht, -⟩ := h.head hx
  obtain ⟨hfresh, hbuf⟩ := ht.msgs h.fresh
  obtain ⟨hhead, htail⟩ := List.nodup_cons.1 h.distinct
  have hne : ∀ j ∈ items, j.w ∉ [i.w] := fun j hj he => by
    exact hhead (List.mem_map.2 ⟨j, hj, List.mem_singleton.1 he⟩)
  exact {
    holds := fun j hj => ht.holds (h.small j (List.mem_cons_of_mem i hj)) (hne j hj) (h.holds j (List.mem_cons_of_mem i hj))
    small := fun j hj => h.small j (List.mem_cons_of_mem i hj)
    distinct := htail
    acked := fun j hj => (hbuf _ _ (hne j hj)).trans (h.acked j (List.mem_cons_of_mem i hj))
    fresh := hfresh
    unpinned := h.unpinned.imp_right (Or.imp_right fun hp j hj =>
      (congrArg (tget? · _) (ht.field State.pinned)).trans (hp j (List.mem_cons_of_mem i hj))) }

/-- The store of one word and then of the others. -/
theorem Ready.stored (h : Ready items x pol s) (hx : x.Proper) : StoredWords items s (items.foldl (fun s i => s.put x pol i) s) := by
  induction items generalizing s with
  | nil => exact ⟨Touches.refl _ s, nofun⟩
  | cons i items ih =>
    obtain ⟨ht, hv⟩ := h.head hx
    obtain ⟨ht', hv'⟩ := ih (h.tail hx)
    obtain ⟨hfresh, -⟩ := ht.msgs h.fresh
    obtain ⟨hhead, -⟩ := List.nodup_cons.1 h.distinct
    refine ⟨(ht.mono (by simp)).trans (ht'.mono (by simp)), fun j hj => ?_⟩
    rw [List.foldl_cons]
    rcases List.mem_cons.1 hj with rfl | hj
    · exact (ht'.wordVal hfresh (h.small j List.mem_cons_self) hhead).trans hv
    · rw [hv' j hj]
      congr 1
      exact ht.wordVal h.fresh (h.small j (List.mem_cons_of_mem i hj)) fun he =>
      hhead (List.mem_map.2 ⟨j, hj, List.mem_singleton.1 he⟩)

/-- Every word is written at once; none is to be registered. -/
theorem Ready.storeWords (h : Ready items x pol s) (hx : x.Proper) (region : Nat) (late : Bool) (acc : List Item) :
    items.foldl (fun (acc : State × List Item) i => match acc.1.storeWord x i.w i.bm i.val region none pol late with
      | .done s => (s, acc.2)
      | .register s => (s, acc.2 ++ [i])) (s, acc) = (items.foldl (fun s i => s.put x pol i) s, acc) := by
  induction items generalizing s with
  | nil => rfl
  | cons i items ih =>
    rw [List.foldl_cons, List.foldl_cons, ← ih (h.tail hx)]
    congr 1
    dsimp only
    rw [storeWord_of_owned (h.holds i List.mem_cons_self) hx]

/-- Under these policies only copies change. -/
theorem put_copies (hp : pol = .all ∨ pol = .strm) (s : State) (items : List Item) :
    items.foldl (fun s i => s.put x pol i) s = { s with copies := (items.foldl (fun s i => s.put x pol i) s).copies } := by
  have hput : ∀ (s : State) (w : Nat) (v : Word), s.putWord x w v = { s with copies := (s.putWord x w v).copies } := fun s w v => by
    unfold State.putWord
    split <;> rfl
  induction items generalizing s with
  | nil => rfl
  | cons i items ih =>
    rw [List.foldl_cons, ih, State.put, expel_copies _ _ _ _ hp, hput]

end

/-! ### Bytes -/

/-- The sizes of an access to the global space. -/
theorem access_size {f : Fmt} (h : f ≠ .s4) : f.width / 8 = 1 ∨ f.width / 8 = 2 ∨ f.width / 8 = 4 ∨ f.width / 8 = 8 := by
  revert h
  cases f <;> decide

/-- Byte r of word i of eight bytes. -/
theorem wordAt_byte_eight (d i : Nat) {r : Nat} (hr : r < 4) : (wordAt d i).toNat / 2 ^ (8 * r) % 256 = d / 256 ^ (4 * i + r) % 256 := by
  have h256 : (256 : Nat) = 2 ^ 8 := rfl
  rw [wordAt, BitVec.toNat_ofNat, h256, mod_div_mod _ (by omega), Nat.div_div_eq_div_mul, ← Nat.pow_add, ← Nat.pow_mul]
  congr 3
  omega

theorem pow256 (r : Nat) : 256 ^ r = 2 ^ (8 * r) := by rw [Nat.pow_mul]

section
variable {pa n d : Nat}

/-- The words of an access, apart from each other. -/
theorem itemsOf_words (hn : n = 1 ∨ n = 2 ∨ n = 4 ∨ n = 8) : (itemsOf pa n d).map (·.w) = (List.range ((n + 3) / 4)).map (pa / 4 + ·) := by
  rcases hn with rfl | rfl | rfl | rfl <;> rfl

theorem itemsOf_small (hn : n = 1 ∨ n = 2 ∨ n = 4 ∨ n = 8) (hd : n ∣ pa) (hp : pa < 2 ^ 52) : ∀ i ∈ itemsOf pa n d, i.w < 2 ^ 50 := by
  intro i hi
  have hmem : i.w ∈ (List.range ((n + 3) / 4)).map (pa / 4 + ·) := itemsOf_words hn ▸ List.mem_map_of_mem hi
  obtain ⟨j, hj, he⟩ := List.mem_map.1 hmem
  have := List.mem_range.1 hj
  obtain ⟨k, rfl⟩ := hd
  rcases hn with rfl | rfl | rfl | rfl <;> omega

theorem itemsOf_distinct (hn : n = 1 ∨ n = 2 ∨ n = 4 ∨ n = 8) : ((itemsOf pa n d).map (·.w)).Nodup := by
  rw [itemsOf_words hn]
  exact List.nodup_range.map fun a b => Nat.add_left_cancel

/-- The bits of a byte mask of n bytes from byte b on. -/
theorem mask_testBit : ∀ n ∈ [1, 2, 4], ∀ b < 4, ∀ r < 4, b + n ≤ 4 → ((2 ^ n - 1) * 2 ^ b % 16).testBit r = decide (b ≤ r ∧ r < b + n) := by decide

/-- The one word of an access of at most four bytes. -/
theorem itemsOf_one (h8 : n ≠ 8) : itemsOf pa n d =
    [{ w := pa / 4, bm := (2 ^ n - 1) * 2 ^ (pa % 4) % 16, val := BitVec.ofNat 32 (d * 2 ^ (8 * (pa % 4))) }] := if_neg h8

theorem small_size (hn : n = 1 ∨ n = 2 ∨ n = 4 ∨ n = 8) (hd : n ∣ pa) (h8 : n ≠ 8) : n ∈ [1, 2, 4] ∧ pa % 4 + n ≤ 4 := by
  obtain ⟨k, rfl⟩ := hd
  rcases hn with rfl | rfl | rfl | rfl
  · exact ⟨by decide, by omega⟩
  · exact ⟨by decide, by omega⟩
  · exact ⟨by decide, by omega⟩
  · exact absurd rfl h8

/-- The word of byte k of an access, and what the item has of it. -/
theorem itemsOf_byte (hn : n = 1 ∨ n = 2 ∨ n = 4 ∨ n = 8) (hd : n ∣ pa) {k : Nat} (hk : k < n) :
    ∃ i ∈ itemsOf pa n d, i.w = (pa + k) / 4 ∧ i.bm.testBit ((pa + k) % 4) = true ∧ i.val.toNat / 2 ^ (8 * ((pa + k) % 4)) % 256 = d / 256 ^ k % 256 := by
  by_cases h8 : n = 8
  · subst h8
    have hbit : ∀ r < 4, Nat.testBit 15 r = true := by decide
    have hr : (pa + k) % 4 < 4 := Nat.mod_lt _ (by decide)
    rcases Nat.lt_or_ge k 4 with h4 | h4
    · refine ⟨_, by rw [itemsOf_eight]; exact List.mem_cons_self, by dsimp only; omega, hbit _ hr, ?_⟩
      rw [wordAt_byte_eight d _ hr]
      congr 3
      omega
    · refine ⟨_, by rw [itemsOf_eight]; exact List.mem_cons_of_mem _ List.mem_cons_self, by dsimp only; omega, hbit _ hr, ?_⟩
      rw [wordAt_byte_eight d _ hr]
      congr 3
      omega
  · obtain ⟨hsmall, hfit⟩ := small_size hn hd h8
    have hplace : (pa + k) % 4 = pa % 4 + k := by omega
    refine ⟨_, by rw [itemsOf_one h8]; exact List.mem_cons_self, by dsimp only; omega, ?_, ?_⟩
    · rw [hplace, mask_testBit n hsmall _ (by omega) _ (by omega) hfit]
      exact decide_eq_true ⟨by omega, by omega⟩
    · have h256 : (256 : Nat) = 2 ^ 8 := rfl
      rw [hplace, BitVec.toNat_ofNat, h256, mod_div_mod _ (by omega), Nat.mul_add, Nat.pow_add, Nat.mul_comm d, Nat.mul_div_mul_left _ _ (Nat.two_pow_pos _), ← Nat.pow_mul]

/-- A byte beside an access is none of its items'. -/
theorem itemsOf_beside (hn : n = 1 ∨ n = 2 ∨ n = 4 ∨ n = 8) (hd : n ∣ pa) {a : Nat} (ha : a < pa ∨ pa + n ≤ a) :
    ∀ i ∈ itemsOf pa n d, i.w = a / 4 → i.bm.testBit (a % 4) = false := by
  intro i hi hw
  by_cases h8 : n = 8
  · subst h8
    rw [itemsOf_eight, List.mem_cons, List.mem_singleton] at hi
    rcases hi with rfl | rfl <;> dsimp only at hw <;> omega
  · obtain ⟨hsmall, hfit⟩ := small_size hn hd h8
    rw [itemsOf_one h8, List.mem_singleton] at hi
    subst hi
    dsimp only at hw ⊢
    rw [mask_testBit n hsmall _ (by omega) _ (by omega) hfit]
    exact decide_eq_false (by omega)

/-- The bytes of an access whose words are written and which leaves the others. -/
theorem byteAt_of_words {s y : State} (hval : ∀ i ∈ itemsOf pa n d, y.wordVal i.w = mergeWord i.bm i.val (s.wordVal i.w))
    (hrest : ∀ u < 2 ^ 50, u ∉ (itemsOf pa n d).map (·.w) → y.wordVal u = s.wordVal u) (hn : n = 1 ∨ n = 2 ∨ n = 4 ∨ n = 8) (hd : n ∣ pa) :
    (∀ k < n, y.byteAt (pa + k) = d / 256 ^ k % 256) ∧ ∀ a < 2 ^ 52, a < pa ∨ pa + n ≤ a → y.byteAt a = s.byteAt a := by
  have hbyte : ∀ i ∈ itemsOf pa n d, ∀ r < 4, (y.wordVal i.w).toNat / 2 ^ (8 * r) % 256 =
      (if i.bm.testBit r then i.val else s.wordVal i.w).toNat / 2 ^ (8 * r) % 256 := fun i hi r hr => by
    rw [hval i hi, ← pow256, mergeWord_byte _ _ _ hr]
  refine ⟨fun k hk => ?_, fun a ha hout => ?_⟩
  · obtain ⟨i, hi, hw, hbit, hitem⟩ := itemsOf_byte (d := d) hn hd hk
    rw [State.byteAt, ← hw, hbyte i hi _ (Nat.mod_lt _ (by decide)), if_pos hbit, hitem]
  · rw [State.byteAt, State.byteAt]
    by_cases hm : a / 4 ∈ (itemsOf pa n d).map (·.w)
    · obtain ⟨i, hi, hw⟩ := List.mem_map.1 hm
      have hbit := itemsOf_beside hn hd hout i hi hw
      rw [← hw, hbyte i hi _ (Nat.mod_lt _ (by decide)), if_neg (by simp [hbit])]
    · rw [hrest _ (by omega) hm]

/-- The bytes of an access that stores. -/
theorem StoredWords.byteAt {s y : State} (h : StoredWords (itemsOf pa n d) s y) (hf : s.Fresh) (hn : n = 1 ∨ n = 2 ∨ n = 4 ∨ n = 8) (hd : n ∣ pa) :
    (∀ k < n, y.byteAt (pa + k) = d / 256 ^ k % 256) ∧ ∀ a < 2 ^ 52, a < pa ∨ pa + n ≤ a → y.byteAt a = s.byteAt a :=
  byteAt_of_words h.val (fun _ hu hm => h.touches.wordVal hf hu hm) hn hd

end

end Sys2Proof.Machine
end

section
/-! A store at words that the core's level owns (08 R170, 03 R56). -/

namespace Sys2Proof.Machine

/-! ### Windows that lose a word (08 R165) -/

theorem Touches.foldl {β : Type} (ws : List Nat) {f : State → β → State} (hf : ∀ s b, Touches ws s (f s b)) (l : List β) (s : State) :
    Touches ws s (l.foldl f s) :=
  List.foldlRecOn (motive := fun y : State => Touches ws s y) _ _ (Touches.refl ws s) fun y hy b _ => hy.trans (hf y b)

theorem Msg.stripped_kind (m : Msg) (c slot : Nat) (ws : List Nat) : (m.stripped c slot ws).kind = m.kind := by
  unfold Msg.stripped
  split <;> rfl

theorem Msg.stripped_of_ne {m : Msg} (h : m.kind ≠ .load) (c slot : Nat) (ws : List Nat) : m.stripped c slot ws = m := if_neg fun hc => h hc.2

theorem stripFetch_msgs (s : State) (c slot : Nat) (ws : List Nat) : (s.stripFetch c slot ws).msgs = s.msgs.map fun p => (p.1, p.2.stripped c slot ws) := by
  refine List.map_congr_left fun p _ => ?_
  unfold Msg.stripped
  dsimp only
  split <;> rfl

theorem tget?_map {α β : Type} (f : α → β) (t : Tab α) (k : Nat) : tget? (t.map fun p => (p.1, f p.2)) k = (tget? t k).map f := by
  induction t with
  | nil => rfl
  | cons p t ih =>
    rw [List.map_cons, tget?, tget?, ih]
    split <;> rfl

theorem stripFetch_buffered (s : State) (c slot : Nat) (ws : List Nat) (a u : Nat) : (s.stripFetch c slot ws).buffered a u = s.buffered a u := by
  have hsame : ∀ p : Nat × Msg, (p.2.stripped c slot ws).buffers a u = p.2.buffers a u := fun p => by
    by_cases hk : p.2.kind = .load
    · have hk' : (p.2.stripped c slot ws).kind = .load := (p.2.stripped_kind c slot ws).trans hk
      simp [Msg.buffers, hk, hk']
    · rw [Msg.stripped_of_ne hk]
  rw [buffered_eq, buffered_eq, stripFetch_msgs, List.find?_map]
  have hfun : ((fun m : Nat × Msg => m.2.buffers a u) ∘ fun p : Nat × Msg => (p.1, p.2.stripped c slot ws)) = fun m => m.2.buffers a u := funext hsame
  rw [hfun]
  cases hf : s.msgs.find? fun m => m.2.buffers a u with
  | none => rfl
  | some p =>
    have hp : p.2.buffers a u = true := List.find?_some (p := fun m : Nat × Msg => m.2.buffers a u) hf
    have hk : p.2.kind ≠ .load := fun hk => by simp [Msg.buffers, hk] at hp
    simp only [Option.map_some, Option.bind_some, Msg.stripped_of_ne hk]

theorem touches_stripFetch (vs : List Nat) (s : State) (c slot : Nat) (ws : List Nat) : Touches vs s (s.stripFetch c slot ws) where
  frame := rfl
  bytes _ := rfl
  copies _ _ _ _ := rfl
  msgs h := ⟨fun k hk => by
    rw [State.msg, stripFetch_msgs]
    exact (tget?_map (·.stripped c slot ws) _ _).trans (congrArg _ (h k hk)), fun a u _ => stripFetch_buffered s c slot ws a u⟩

theorem touches_staleWindows (ws : List Nat) (s : State) (core va pa n : Nat) : Touches ws s (s.staleWindows core va pa n) := by
  unfold State.staleWindows
  split
  · exact Touches.refl ws s
  · refine Touches.foldl ws (fun s c => Touches.foldl ws (fun s y => ?_) _ s) _ s
    dsimp only
    split
    · exact Touches.refl ws s
    · refine Touches.foldl ws (fun s j => ?_) _ s
      split
      · exact Touches.refl ws s
      · split
        · exact (touches_stripFetch ws s _ _ _).trans (touches_modWindowWord ws _ _ _)
        · exact touches_stripFetch ws s _ _ _

theorem modWindowWord_buffered (s : State) (k : Nat) (f : Nat → Window → Window) (a u : Nat) : (s.modWindowWord k f).buffered a u = s.buffered a u := by
  unfold State.modWindowWord
  dsimp only
  split <;> rfl

/-- Windows that lose words take none from a buffer. -/
theorem staleWindows_buffered (s : State) (core va pa n a u : Nat) : (s.staleWindows core va pa n).buffered a u = s.buffered a u := by
  have hfold : ∀ {β : Type} {f : State → β → State} (_ : ∀ s b, (f s b).buffered a u = s.buffered a u) (l : List β) (s : State),
      (l.foldl f s).buffered a u = s.buffered a u := fun {β f} hf l s =>
    List.foldlRecOn (motive := fun y : State => y.buffered a u = s.buffered a u) l f rfl fun y hy b _ => (hf y b).trans hy
  unfold State.staleWindows
  split
  · rfl
  · refine hfold (fun s c => hfold (fun s y => ?_) _ s) _ s
    dsimp only
    split
    · rfl
    · refine hfold (fun s j => ?_) _ s
      split
      · rfl
      · split
        · exact (modWindowWord_buffered _ _ _ _ _).trans (stripFetch_buffered ..)
        · exact stripFetch_buffered ..

theorem staleWindows_wordVal (s : State) (core va pa n : Nat) {u : Nat} (hu : u < 2 ^ 50) : (s.staleWindows core va pa n).wordVal u = s.wordVal u := by
  have h := touches_staleWindows [] s core va pa n
  exact wordVal_congr (h.field (·.ownerOf u)) (h.field (·.homeWord u)) (fun l => h.copies l u hu List.not_mem_nil) (funext h.copyVal) fun a =>
    staleWindows_buffered ..

/-- The machine with the copies, threads, registers, squads and event counts of another. -/
def State.dress (s d : State) : State :=
  { s with copies := d.copies, threads := d.threads, regs := d.regs, squads := d.squads, evCount := d.evCount }

theorem foldl_dress {β : Type} (d : State) {f : State → β → State} (hf : ∀ s b, f (s.dress d) b = (f s b).dress d) (l : List β) (s : State) :
    l.foldl f (s.dress d) = (l.foldl f s).dress d := by
  induction l generalizing s with
  | nil => rfl
  | cons b l ih => rw [List.foldl_cons, List.foldl_cons, hf, ih]

theorem dropWindowWord_dress (s d : State) (k : Nat) : (s.dress d).dropWindowWord k = (s.dropWindowWord k).dress d := by
  have hat : (s.dress d).windowAt (k / 2 ^ 21) (k % 2 ^ 21) = s.windowAt (k / 2 ^ 21) (k % 2 ^ 21) := rfl
  unfold State.dropWindowWord State.modWindowWord
  dsimp only
  rw [hat]
  cases s.windowAt (k / 2 ^ 21) (k % 2 ^ 21) <;> rfl

/-- Windows lose words whatever copies, threads and registers there are. -/
theorem staleWindows_dress (s d : State) (core va pa n : Nat) : (s.dress d).staleWindows core va pa n = (s.staleWindows core va pa n).dress d := by
  unfold State.staleWindows
  split
  · rfl
  · refine foldl_dress d (fun s c => ?_) (s.gangCores core) s
    refine foldl_dress d (fun s y => ?_) (s.core c).windows s
    dsimp only
    split
    · rfl
    · refine foldl_dress d (fun s j => ?_) (List.range n) s
      have hw : ∀ c j, (s.dress d).window c j = s.window c j := fun _ _ => rfl
      have hstrip : ∀ c j ws, (s.dress d).stripFetch c j ws = (s.stripFetch c j ws).dress d := fun _ _ _ => rfl
      have hw' : ∀ c j ws a b, ((s.stripFetch c j ws).dress d).window a b = (s.stripFetch c j ws).window a b := fun _ _ _ _ _ => rfl
      simp only [hw, hstrip, hw', dropWindowWord_dress]
      split
      · rfl
      · split <;> rfl

end Sys2Proof.Machine
end

section
/-! A store of a group of one thread (08 R170), at words that the core's level owns (03 R56). -/

namespace Sys2Proof.Machine

/-! ### The way of a store -/

/-- The machine after the release of a store-release, if the store is one (03 R69). -/
def State.releasing (s : State) (t : Nat) : Option Scope → State
  | some sc => s.doRelease t sc
  | none => s

/-- True of a store whose registration raises the release count once more. -/
def bumps : Option Scope → Bool
  | some sc => decide (scopeRank sc ≥ 2)
  | none => false

/-- A thread that has written words. -/
def Thread.notes (th : Thread) (ws : List Nat) : Thread := { th with written := (ws ++ th.written).eraseDups }

/-- A first attempt, of a group of one thread, to write at an aligned address that translates to a Cached page; y: the state after translation. -/
structure Meets (s y : State) (iss : Issue) (i : Instr) (o : Ops) (t n pa : Nat) : Prop where
  alone : Alone s iss i o t
  fresh : (s.thread t).fresh
  aligned : n ∣ s.globalAddr iss t i o
  maps : (s.begun iss).translate (s.who t).ctx (tcPath (s.who t).core) (s.globalAddr iss t i o) { user := (s.who t).user, write := true } = (y, .inl (.cached pa))
  hole : y.hole = false

section
variable {s y : State} {iss : Issue} {i : Instr} {o : Ops} {t : Nat}

theorem releasing_field {α : Sort _} (s : State) (t : Nat) (rel : Option Scope) (f : State → α)
    (hf : ∀ s rc mi n th, f { s with relcount := rc, mirror := mi, nextId := n, threads := th } = f s := by intros; rfl) : f (s.releasing t rel) = f s := by
  cases rel with
  | none => rfl
  | some sc => exact doRelease_field s t sc f hf

/-- No lane of a group of one stands below it. -/
theorem Alone.lowerLanes (h : Alone s iss i o t) (s0 : State) : s0.lowerLanes iss i o t = [] := by
  rw [State.lowerLanes, h.only]
  simp

/-- The store of a thread that has not to wait. -/
theorem storeBody_eq {size : Fmt} {pa : Nat} (h : Meets s y iss i o t (size.width / 8) pa) (pol : Policy) {rel : Option Scope}
    (hw : y.storeWaits (s.who t) (itemsOf pa (size.width / 8) 0) = false) (hr : ∀ sc, rel = some sc → y.releaseReady t sc = true) :
    storeBody i o size pol rel iss (s.begun iss) (s.begun iss) t = (y.releasing t rel).storeTo (s.who t) (.cached pa) (s.globalAddr iss t i o) (size.width / 8)
      (s.srcC iss t i o % 2 ^ (8 * (size.width / 8))) pol (bumps rel) := by
  obtain ⟨h, hf, ha, ht, -⟩ := h
  obtain ⟨hfailed, hphase, -⟩ := hf
  have hself : ({ s.who t with tid := t } : Who) = s.who t := rfl
  simp only [storeBody, begun_thread, begun_who, begun_globalAddr h.issues h.mem, begun_srcC h.issues h.mem, hfailed, hphase, sizeBytes,
    Nat.mod_eq_zero_of_dvd ha, ne_eq, not_true, if_false, Nat.zero_ne_one, ht, h.lowerLanes, hself, hw, List.any_nil, Bool.or_false, Bool.false_or]
  cases rel with
  | none => rfl
  | some sc => simp only [hr sc rfl, Bool.not_true, Bool.false_eq_true, if_false]; rfl

/-- The words written, and noted as such; the gang's windows lose older copies. -/
theorem storeTo_of_ready {x : Who} {pa n d : Nat} {pol : Policy} (h : Ready (itemsOf pa n d) x pol s) (hx : x.Proper) (va : Nat) (bump : Bool) :
    s.storeTo x (.cached pa) va n d pol bump = ((((itemsOf pa n d).foldl (fun s i => s.put x pol i) s).modThread x.tid (·.notes ((itemsOf pa n d).map (·.w)))).staleWindows x.core va pa
      (itemsOf pa n d).length, .next) := by
  have hmixed := mixed_of_holds h.holds
  have hwords := h.storeWords hx (s.regionOf x.ctx va) (s.trapsRaces x.ctx) []
  simp only [State.storeTo, State.storeAt, State.storeBy, hmixed, Bool.or_false, Bool.false_eq_true, if_false, Option.map_none, Option.isSome_none]
  erw [hwords]
  simp only [if_true, State.afterStore]
  rfl

end

/-! ### What it leaves -/

/-- The state after a store at owned words. -/
def State.wroteOwned (s : State) (x : Who) (va pa n d : Nat) (pol : Policy) : State :=
  (((itemsOf pa n d).foldl (fun s i => s.put x pol i) s).modThread x.tid (·.notes ((itemsOf pa n d).map (·.w)))).staleWindows x.core va pa
    (itemsOf pa n d).length

/-- Where the policy keeps the words at their level, but copies and the thread's words nothing is left but what the windows lose. -/
theorem wroteOwned_dress (z : State) (x : Who) (va pa n d : Nat) {pol : Policy} (hp : pol = .all ∨ pol = .strm) : z.wroteOwned x va pa n d pol =
    { z.staleWindows x.core va pa (itemsOf pa n d).length with
      copies := (z.wroteOwned x va pa n d pol).copies
      threads := (z.modThread x.tid (·.notes ((itemsOf pa n d).map (·.w)))).threads } := by
  have hput := put_copies (x := x) hp z (itemsOf pa n d)
  generalize hy : (itemsOf pa n d).foldl (fun s i => s.put x pol i) z = y at hput
  have hdress : y.modThread x.tid (·.notes ((itemsOf pa n d).map (·.w))) = z.dress (y.modThread x.tid (·.notes ((itemsOf pa n d).map (·.w)))) := by
    rw [hput]
    rfl
  have hstale := touches_staleWindows [] z x.core va pa (itemsOf pa n d).length
  have hall : z.wroteOwned x va pa n d pol = (z.staleWindows x.core va pa (itemsOf pa n d).length).dress
      (y.modThread x.tid (·.notes ((itemsOf pa n d).map (·.w)))) := by
    rw [State.wroteOwned, hy, hdress, staleWindows_dress]
    rfl
  rw [hall]
  have hregs : (z.staleWindows x.core va pa (itemsOf pa n d).length).regs = z.regs := hstale.field State.regs
  have hsquads : (z.staleWindows x.core va pa (itemsOf pa n d).length).squads = z.squads := hstale.field State.squads
  have hcount : (z.staleWindows x.core va pa (itemsOf pa n d).length).evCount = z.evCount := hstale.field State.evCount
  have hkeep : ∀ (q : State) (c : Tab Copy) (th : Tab Thread), q.regs = z.regs → q.squads = z.squads → q.evCount = z.evCount →
      { q with copies := c, threads := th, regs := z.regs, squads := z.squads, evCount := z.evCount } = { q with copies := c, threads := th } :=
    fun q c th hr hs he => by rw [← hr, ← hs, ← he]
  rw [hput]
  exact hkeep _ _ _ hregs hsquads hcount

section
variable {z : State} {x : Who} {va pa n d : Nat} {pol : Policy} (h : Ready (itemsOf pa n d) x pol z) (hx : x.Proper)
include h hx

theorem wroteOwned_field {α : Sort _} (f : State → α) (hf : ∀ s, f { s.unsent.uncached with threads := [] } = f s := by intro s; rfl) :
    f (z.wroteOwned x va pa n d pol) = f z := by
  have hst := (h.stored hx).touches
  have hstale : (z.wroteOwned x va pa n d pol).unsent.uncached = (State.modThread _ _ _).unsent.uncached := (touches_staleWindows [] _ _ _ _ _).frame
  calc f (z.wroteOwned x va pa n d pol) = f { (z.wroteOwned x va pa n d pol).unsent.uncached with threads := [] } := (hf _).symm
    _ = f { ((itemsOf pa n d).foldl (fun s i => s.put x pol i) z).unsent.uncached with threads := [] } := by rw [hstale]; rfl
    _ = f { z.unsent.uncached with threads := [] } := by rw [hst.frame]
    _ = f z := hf z

theorem wroteOwned_thread (u : Nat) : (z.wroteOwned x va pa n d pol).thread u =
    if u = x.tid then (z.thread u).notes ((itemsOf pa n d).map (·.w)) else z.thread u := by
  have hst := (h.stored hx).touches
  have hthread : ∀ u, ((itemsOf pa n d).foldl (fun s i => s.put x pol i) z).thread u = z.thread u := fun u => hst.field (·.thread u)
  rw [State.wroteOwned, (touches_staleWindows [] _ _ _ _ _).field (·.thread u), State.thread_modThread]
  by_cases hu : u = x.tid
  · rw [if_pos hu, if_pos hu.symm, hthread]
  · rw [if_neg hu, if_neg (Ne.symm hu), hthread]

theorem wroteOwned_byteAt (hn : n = 1 ∨ n = 2 ∨ n = 4 ∨ n = 8) (hd : n ∣ pa) (hp : pa < 2 ^ 52) :
    (∀ k < n, (z.wroteOwned x va pa n d pol).byteAt (pa + k) = d / 256 ^ k % 256) ∧
    ∀ a < 2 ^ 52, a < pa ∨ pa + n ≤ a → (z.wroteOwned x va pa n d pol).byteAt a = z.byteAt a := by
  have hst := h.stored hx
  obtain ⟨hin, hout⟩ := hst.byteAt h.fresh hn hd
  have hsame : ∀ a < 2 ^ 52, (z.wroteOwned x va pa n d pol).byteAt a = ((itemsOf pa n d).foldl (fun s i => s.put x pol i) z).byteAt a := fun a ha => by
    rw [State.byteAt, State.byteAt, State.wroteOwned, staleWindows_wordVal _ _ _ _ _ (by omega)]
    rfl
  refine ⟨fun k hk => ?_, fun a ha hbeside => (hsame a ha).trans (hout a ha hbeside)⟩
  have hfit : pa + n ≤ 2 ^ 52 := by
    obtain ⟨q, rfl⟩ := hd
    rcases hn with rfl | rfl | rfl | rfl <;> omega
  exact (hsame _ (by omega)).trans (hin k hk)

end

/-! ### The statement's two stores -/

theorem exec_st (o : Ops) (f : MemFn) (s : State) : exec (.st o f) s = done (runGroup (.st o f) o (storeBody (.st o f) o f.size f.policy none) s) := rfl

theorem exec_stRel (o : Ops) (f : MemFn) (s : State) :
    exec (.stRel o f) s = done (runGroup (.stRel o f) o (storeBody (.stRel o f) o f.size f.policy (some f.scope)) s) := rfl

theorem Holds.of_levels {s y : State} {x : Who} {w : Nat} (h : Holds s x w) (hc : ∀ l u, y.copy l u = s.copy l u) (ho : y.ownerOf w = s.ownerOf w) : Holds y x w := by
  obtain ⟨hplace, hhere, hhome, hdie⟩ := h
  simp only [← hc, ← ho] at hhere hhome hdie
  exact ⟨hplace, hhere, hhome, hdie⟩

/-- The words of an access whatever it writes. -/
theorem mem_itemsOf {pa n d : Nat} (hn : n = 1 ∨ n = 2 ∨ n = 4 ∨ n = 8) {P : Nat → Prop} (h : ∀ j ∈ itemsOf pa n 0, P j.w) : ∀ j ∈ itemsOf pa n d, P j.w := by
  intro j hj
  have hw : j.w ∈ (itemsOf pa n 0).map (·.w) := by
    rw [itemsOf_words hn, ← itemsOf_words (d := d) hn]
    exact List.mem_map_of_mem hj
  obtain ⟨i, hi, he⟩ := List.mem_map.1 hw
  exact he ▸ h i hi

/-- Where a store finds its words owned. -/
theorem ready_itemsOf {z : State} {x : Who} {pa n : Nat} {pol : Policy} (d : Nat) (hn : n = 1 ∨ n = 2 ∨ n = 4 ∨ n = 8) (hd : n ∣ pa) (hp : pa < 2 ^ 52)
    (hheld : ∀ j ∈ itemsOf pa n 0, Holds z x j.w) (hfresh : z.Fresh) (hwb : z.wbPending x.agent ((itemsOf pa n 0).map (·.w)) = false)
    (hpin : pol = .all ∨ pol = .strm ∨ ∀ j ∈ itemsOf pa n 0, tget? z.pinned (copyKey (dieOf x.core) j.w) = none) : Ready (itemsOf pa n d) x pol z where
  holds := mem_itemsOf (P := (Holds z x ·)) hn hheld
  small := itemsOf_small hn hd hp
  distinct := itemsOf_distinct hn
  acked := mem_itemsOf (P := (z.buffered x.agent · = none)) hn fun j hj => by
    have := List.any_eq_false.1 hwb j.w (List.mem_map_of_mem hj)
    simpa using this
  fresh := hfresh
  unpinned := hpin.imp_right (Or.imp_right fun h => mem_itemsOf (P := fun w => tget? z.pinned (copyKey (dieOf x.core) w) = none) hn h)

section
variable {s y : State} {iss : Issue} {i : Instr} {o : Ops} {f : MemFn} {t pa : Nat} {rel : Option Scope}

/-- A store, or a store-release, of one thread at owned words. -/
theorem exec_store_owned (hexec : exec i s = done (runGroup i o (storeBody i o f.size f.policy rel) s)) (hl : latchOf o = none)
    (h : Meets s y iss i o t (f.size.width / 8) pa) (hrel : ∀ sc, rel = some sc → y.releaseReady t sc = true)
    (hover : y.overlaps t ((itemsOf pa (f.size.width / 8) 0).map (·.w)) = false)
    (hready : ∀ d, Ready (itemsOf pa (f.size.width / 8) d) (s.who t) f.policy (y.releasing t rel)) :
    ∃ r, exec i s = .next r ∧ Still iss (fun _ th => th.past iss.pc (iss.next i)) ((y.releasing t rel).wroteOwned (s.who t) (s.globalAddr iss t i o) pa
      (f.size.width / 8) (s.srcC iss t i o % 2 ^ (8 * (f.size.width / 8))) f.policy) r := by
  have hx := who_proper s t
  have hheld : ∀ j ∈ itemsOf pa (f.size.width / 8) 0, Holds y (s.who t) j.w := fun j hj => ((hready 0).holds j hj).of_levels
    (fun l u => (releasing_field y t rel (·.copy l u)).symm) (releasing_field y t rel (·.ownerOf j.w)).symm
  have hwb : y.wbPending (s.who t).agent ((itemsOf pa (f.size.width / 8) 0).map (·.w)) = false := List.any_eq_false.2 fun w hw => by
    obtain ⟨j, hj, rfl⟩ := List.mem_map.1 hw
    have := (releasing_field y t rel (·.buffered (s.who t).agent j.w)).symm.trans ((hready 0).acked j hj)
    simp [this]
  have hbody := (storeBody_eq h f.policy (storeWaits_of_holds hheld hover hwb) hrel).trans (storeTo_of_ready (hready _) hx (s.globalAddr iss t i o) (bumps rel))
  rw [hexec]
  refine exec_of_body h.alone hl hbody rfl ?_
  exact (wroteOwned_field (hready _) hx State.hole).trans ((releasing_field y t rel State.hole).trans h.hole)

end

/-- What a store at owned words leaves, as the statement has it. -/
theorem storeOwned {s y z : State} {iss : Issue} {i : Instr} {o : Ops} {f : MemFn} {t pa : Nat} {rel : Option Scope} (hz : z = y.releasing t rel)
    (hexec : exec i s = done (runGroup i o (storeBody i o f.size f.policy rel) s)) (hl : latchOf o = none) (hsize : f.size ≠ .s4)
    (h : Meets s y iss i o t (f.size.width / 8) pa) (hrel : ∀ sc, rel = some sc → y.releaseReady t sc = true)
    (hover : y.overlaps t ((itemsOf pa (f.size.width / 8) 0).map (·.w)) = false) (hd : f.size.width / 8 ∣ pa) (hp : pa < 2 ^ 52)
    (hready : ∀ d, Ready (itemsOf pa (f.size.width / 8) d) (s.who t) f.policy z) :
    ∃ r, exec i s = .next r ∧
      (∀ k < f.size.width / 8, r.byteAt (pa + k) = s.srcC iss t i o / 256 ^ k % 256) ∧
      (∀ a < 2 ^ 52, a < pa ∨ pa + f.size.width / 8 ≤ a → r.byteAt a = z.byteAt a) ∧
      (f.policy = .all ∨ f.policy = .strm → Still iss (fun _ th => { th with written := (r.thread t).written }.past iss.pc (iss.next i))
        { z.staleWindows (s.who t).core (s.globalAddr iss t i o) pa ((f.size.width / 8 + 3) / 4) with copies := r.copies } r) ∧
      r.regs = s.regs ∧ r.mem = z.mem ∧ (r.thread t).run = .ready ∧ (∀ u, u ≠ t → r.thread u = z.thread u) ∧
      (∀ w ∈ (itemsOf pa (f.size.width / 8) 0).map (·.w), w ∈ (r.thread t).written) := by
  have hn := access_size hsize
  have hx := who_proper s t
  have hxt : (s.who t).tid = t := rfl
  obtain ⟨r, hr, hst⟩ := exec_store_owned hexec hl h hrel hover (hz ▸ hready)
  rw [← hz] at hst
  have hready' := hready (s.srcC iss t i o % 2 ^ (8 * (f.size.width / 8)))
  have hwords : ∀ d, (itemsOf pa (f.size.width / 8) d).map (·.w) = (itemsOf pa (f.size.width / 8) 0).map (·.w) := fun d => by
    rw [itemsOf_words hn, itemsOf_words hn]
  have hlen : ∀ d, (itemsOf pa (f.size.width / 8) d).length = (f.size.width / 8 + 3) / 4 := fun d => by
    rw [← List.length_map (·.w), itemsOf_words hn, List.length_map, List.length_range]
  have hthread := hst.kept.threads t h.alone.mem
  rw [wroteOwned_thread hready' hx, if_pos hxt.symm, hwords] at hthread
  have hwritten : (r.thread t).written = ((z.thread t).notes ((itemsOf pa (f.size.width / 8) 0).map (·.w))).written :=
    (congrArg Thread.written hthread :).trans (Thread.past_written ..)
  obtain ⟨hin, hout⟩ := wroteOwned_byteAt (va := s.globalAddr iss t i o) hready' hx hn hd hp
  refine ⟨r, hr, fun k hk => ?_, fun a ha hbeside => ?_, fun hpol => ?_, ?_, ?_, (congrArg Thread.run hthread :), fun u hu => ?_, fun w hw => ?_⟩
  · rw [byteAt_of_rest hst.kept.rest hst.core_plain, hin k hk]
    have h256 : (256 : Nat) = 2 ^ 8 := rfl
    rw [h256, ← Nat.pow_mul, mod_div_mod _ (by omega)]
  · rw [byteAt_of_rest hst.kept.rest hst.core_plain, hout a ha hbeside]
  · have hdress := wroteOwned_dress z (s.who t) (s.globalAddr iss t i o) pa (f.size.width / 8) (s.srcC iss t i o % 2 ^ (8 * (f.size.width / 8))) hpol
    have hcopies : r.copies = _ := rest_congr hst.kept.rest State.copies fun _ => rfl
    have hstale : ∀ u, (z.staleWindows (s.who t).core (s.globalAddr iss t i o) pa ((f.size.width / 8 + 3) / 4)).thread u = z.thread u :=
      fun u => (touches_staleWindows [] z _ _ _ _).field (·.thread u)
    rw [hcopies]
    refine hst.of_threads ?_ ?_ ?_ ?_ (fun u hu => ?_) fun u hu => ?_
    · rw [hdress, hlen]; rfl
    · rw [hdress, hlen]
    · rw [hdress, hlen]
    · rw [hdress, hlen]
    · obtain rfl : u = t := by simpa [h.alone.only] using hu
      rw [wroteOwned_thread hready' hx, if_pos hxt.symm, hwords, hwritten]
      refine congrArg (fun th : Thread => th.past iss.pc (iss.next i)) ?_
      exact congrArg (fun th : Thread => { th with written := ((z.thread u).notes ((itemsOf pa (f.size.width / 8) 0).map fun j : Item => j.w)).written }) (hstale u).symm
    · have hu' : u ≠ t := by simpa [h.alone.only] using hu
      rw [wroteOwned_thread hready' hx, hxt, if_neg hu']
      exact (hstale u).symm
  · rw [hst.regs, wroteOwned_field hready' hx State.regs, hz, releasing_field y t rel State.regs, translate_field h.maps State.regs, begun_regs]
  · exact (rest_congr hst.kept.rest State.mem fun _ => rfl).trans (wroteOwned_field hready' hx State.mem)
  · rw [hst.kept.others u (by simpa [h.alone.only] using hu), wroteOwned_thread hready' hx, hxt, if_neg hu]
  · rw [hwritten]
    exact List.mem_eraseDups.2 (List.mem_append_left _ hw)


theorem st_latchOf {o : Ops} {f : MemFn} (h : (Instr.st o f).WellFormed = true) : latchOf o = none := by
  obtain ⟨-, -, -, -, hl⟩ := fields_of_wellFormed h rfl rfl rfl
  exact hl rfl

theorem stRel_latchOf {o : Ops} {f : MemFn} (h : (Instr.stRel o f).WellFormed = true) : latchOf o = none := by
  obtain ⟨-, -, -, -, hl⟩ := fields_of_wellFormed h rfl rfl rfl
  exact hl rfl

theorem fnOk_of_wellFormed {i : Instr} (h : i.WellFormed = true) {op : Nat} (ho : i.opcode = some op) : i.fnOk = true := by
  simp only [Instr.WellFormed, Instr.isEvent, ho, Option.isNone_some, Bool.false_or, Bool.and_eq_true] at h
  exact h.1.1.2

theorem st_size {o : Ops} {f : MemFn} (h : (Instr.st o f).WellFormed = true) : f.size ≠ .s4 := of_decide_eq_true (fnOk_of_wellFormed h rfl)
theorem stRel_size {o : Ops} {f : MemFn} (h : (Instr.stRel o f).WellFormed = true) : f.size ≠ .s4 := of_decide_eq_true (fnOk_of_wellFormed h rfl)

end Sys2Proof.Machine
end

section
/-! A store at words of which the core's level has no copy: the bytes wait there, and the words are registered (03 R56, R57). -/

namespace Sys2Proof.Machine

/-! ### A level that makes room -/

/-- A level has no copy of a word, or bytes that wait for their grant. -/
def State.Waits (s : State) (l u : Nat) : Prop := ∀ c, s.copy l u = some c → c.pend = true ∧ c.owned = false

section
variable {s : State} {l u v w : Nat}

theorem dropAt_of_waits (h : s.Waits l u) : s.dropAt l u = s := by
  unfold State.dropAt
  split
  · next c hc => exact if_pos (h c hc).1
  · rfl

theorem evictAgent_of_waits (h : s.Waits l u) (a : Nat) : s.evictAgent a l u = s := by
  unfold State.evictAgent
  split
  · next c hc =>
    rw [if_neg (by simp [(h c hc).2])]
    exact dropAt_of_waits h
  · rfl

theorem giveUpHigh_of_waits (h : s.Waits l u) : s.giveUpHigh l u = s := by
  unfold State.giveUpHigh
  split
  · dsimp only
    split
    · split
      · rfl
      · exact evictAgent_of_waits h _
    · rfl
  · split
    · exact dropAt_of_waits h
    · dsimp only
      split
      · rfl
      · exact evictAgent_of_waits h _

section
variable {k : Nat} (hk : copyKey l v ≠ copyKey k u)
include hk

theorem copy_dropAt_other : (s.dropAt l v).copy k u = s.copy k u := by
  rcases dropAt_copies s l v with ⟨hsame, -⟩ | hdel
  · rw [State.copy, hsame, State.copy]
  · rw [State.copy, hdel, tget?_tdel_ne _ hk, State.copy]

theorem copy_evictAgent_other (a : Nat) : (s.evictAgent a l v).copy k u = s.copy k u := by
  unfold State.evictAgent
  split
  · split
    · exact (unsent_field (writeBack_unsent _ _ _ _ _) (·.copy k u)).trans (tget?_tdel_ne _ hk)
    · exact copy_dropAt_other hk
  · rfl

theorem copy_giveUpHigh_other : (s.giveUpHigh l v).copy k u = s.copy k u := by
  unfold State.giveUpHigh
  split
  · dsimp only
    split
    · split
      · rfl
      · exact copy_evictAgent_other hk _
    · rfl
  · split
    · exact copy_dropAt_other hk
    · dsimp only
      split
      · rfl
      · exact copy_evictAgent_other hk _

end

/-- A level gives up a word of its own, if it must. -/
theorem roomBy_word (give : State → Nat → Nat → State) (s : State) (l w : Nat) :
    State.roomBy give s l w = s ∨ ∃ v < 2 ^ 50, State.roomBy give s l w = give s l v := by
  unfold State.roomBy
  split
  · exact .inl rfl
  · dsimp only
    split
    · exact .inr ⟨_, Nat.mod_lt _ (Nat.two_pow_pos 50), rfl⟩
    · exact .inl rfl

/-- The words of an L1 and those of its L2. -/
theorem l2_key_ne (hl : l < 4096) (hv : v < 2 ^ 50) (hu : u < 2 ^ 51) : copyKey (l2Level (l / 8)) v ≠ copyKey l u := by
  unfold copyKey l2Level
  omega

end

/-- A word that has left an L1 comes to lie at the L2, or in the home that the L2 is for it. -/
def State.toL2 (s : State) (cluster w : Nat) (v : Word) (region : Nat) : State :=
  if (tget? s.pinned (copyKey (cluster / 8) w)).isSome then
    { s.delCopy (l2Level (cluster / 8)) w with pinned := tset s.pinned (copyKey (cluster / 8) w) v }
  else
    match s.copy (l2Level (cluster / 8)) w with
    | some d => s.setCopy (l2Level (cluster / 8)) w { d with val := v, owned := true, holder := 8 }
    | none => (s.roomBy State.giveUpHigh (l2Level (cluster / 8)) w).setCopy (l2Level (cluster / 8)) w { val := v, owned := true, holder := 8, region := region }

/-- The machine but for requests, levels and the words of pages pinned to a die. -/
def State.unroomed (s : State) : State := { s.unsent.uncached with pinned := [] }

section
variable {s : State} {l u v w : Nat}

theorem evictL1_eq {cluster : Nat} {c : Copy} (h : s.copy cluster w = some c) (ho : c.owned = true) :
    s.evictL1 cluster w = (s.leftL1 cluster w c).toL2 cluster w (s.copyVal c) c.region := by
  unfold State.evictL1 l1Level
  simp only [h, ho, if_true]
  unfold State.toL2 State.leftL1 State.windowKept
  cases c.win <;> rfl

theorem roomBy_high_frame (s : State) (l w : Nat) : (s.roomBy State.giveUpHigh l w).unsent.uncached = s.unsent.uncached := by
  rcases roomBy_cases State.giveUpHigh s l w with h | ⟨v, h⟩
  · rw [h]
  · rw [h]
    exact giveUpHigh_frame s l v

theorem toL2_frame (s : State) (cluster w : Nat) (v : Word) (region : Nat) : (s.toL2 cluster w v region).unroomed = s.unroomed := by
  unfold State.toL2
  split
  · rfl
  · split
    · rfl
    · exact congrArg (fun y : State => { y with pinned := [] }) (roomBy_high_frame s _ w)

theorem copy_toL2 (hl : l < 4096) (hw : w < 2 ^ 50) (hu : u < 2 ^ 51) (s : State) (x : Word) (region : Nat) :
    (s.toL2 l w x region).copy l u = s.copy l u := by
  have hne := l2_key_ne hl hw hu
  unfold State.toL2
  split
  · exact tget?_tdel_ne _ hne
  · split
    · exact copy_setCopy_ne s _ hne
    · rw [copy_setCopy_ne _ _ hne]
      rcases roomBy_word State.giveUpHigh s (l2Level (l / 8)) w with h | ⟨v, hv, h⟩
      · rw [h]
      · rw [h]
        exact copy_giveUpHigh_other (l2_key_ne hl hv hu)

theorem windowKept_copies (s : State) (c : Copy) : (s.windowKept c).copies = s.copies := by
  unfold State.windowKept
  split
  · exact modWindowWord_copies _ _ _
  · rfl

theorem copy_evictL1_of_waits (hl : l < 4096) (hv : v < 2 ^ 50) (hu : u < 2 ^ 51) (h : s.Waits l u) : (s.evictL1 l v).copy l u = s.copy l u := by
  cases hc : s.copy l v with
  | none =>
    unfold State.evictL1 l1Level
    simp only [hc]
  | some c =>
    cases ho : c.owned with
    | true =>
      have hne : copyKey l v ≠ copyKey l u := fun he => by
        have hself : s.copy l u = some c := (congrArg (tget? s.copies) he).symm.trans hc
        exact absurd (ho.symm.trans (h c hself).2) nofun
      rw [evictL1_eq hc ho, copy_toL2 hl hv hu]
      exact (tget?_tdel_ne _ hne).trans (congrArg (tget? · (copyKey l u)) (windowKept_copies s c))
    | false =>
      rw [evictL1_of_valid hc ho]
      by_cases hvu : v = u
      · rw [hvu, dropAt_of_waits h]
      · exact copy_dropAt_other (by unfold copyKey; omega)

theorem evictL1_frame (s : State) (cluster w : Nat) : (s.evictL1 cluster w).unroomed = s.unroomed := by
  cases hc : s.copy cluster w with
  | none =>
    unfold State.evictL1 l1Level
    simp only [hc]
  | some c =>
    cases ho : c.owned with
    | true =>
      rw [evictL1_eq hc ho, toL2_frame]
      exact congrArg (fun y : State => { y.unsent with pinned := [] }) (windowKept_uncached s c)
    | false =>
      rw [evictL1_of_valid hc ho]
      exact congrArg (fun y : State => { y.unsent with pinned := [] }) (dropAt_uncached s cluster w)

theorem giveUp_frame (s : State) (l w : Nat) : (s.giveUp l w).unroomed = s.unroomed := by
  unfold State.giveUp
  split
  · exact evictL1_frame s l w
  · exact congrArg (fun y : State => { y with pinned := [] }) (giveUpHigh_frame s l w)

theorem makeRoom_frame (s : State) (l w : Nat) : (s.makeRoom l w).unroomed = s.unroomed := by
  rcases roomBy_cases State.giveUp s l w with h | ⟨v, h⟩
  · rw [State.makeRoom, h]
  · rw [State.makeRoom, h]
    exact giveUp_frame s l v

/-- A level that makes room gives up no bytes that wait for their grant, and takes none of the words above. -/
theorem copy_makeRoom_of_waits (hu : u < 2 ^ 51 ∨ 4096 ≤ l) (h : s.Waits l u) (w : Nat) : (s.makeRoom l w).copy l u = s.copy l u := by
  rw [State.makeRoom]
  rcases roomBy_word State.giveUp s l w with heq | ⟨v, hv, heq⟩
  · rw [heq]
  · rw [heq, State.giveUp]
    split
    · next hl => exact copy_evictL1_of_waits hl hv (by omega) h
    · by_cases hvu : v = u
      · rw [hvu, giveUpHigh_of_waits h]
      · exact copy_giveUpHigh_other (by unfold copyKey; omega)

end

end Sys2Proof.Machine
end

section
/-! A store at words of which the core's level has no copy: the bytes wait there, and the words are registered (08 R170, 03 R56, R57). -/

namespace Sys2Proof.Machine

/-- Bytes of a word that wait for their grant. -/
def Item.waiting (i : Item) (x : Who) (region : Nat) (pol : Policy) : Copy :=
  { pend := true, mask := i.bm, holder := x.holder, region := region, pol := pol, val := mergeWord i.bm i.val 0 }

/-- The bytes of an item kept at the requester's first level. -/
def State.await (s : State) (x : Who) (region : Nat) (pol : Policy) (i : Item) : State :=
  (s.makeRoom x.level i.w).setCopy x.level i.w (i.waiting x region pol)

section
variable {s : State} {x : Who} {region : Nat} {pol : Policy} {items : List Item}

theorem storeWord_of_none {w : Nat} (h : s.copy x.level w = none) (bm : Nat) (v : Word) :
    s.storeWord x w bm v region none pol false = .register (s.await x region pol ⟨w, bm, v⟩) := by
  simp only [State.storeWord, h, Bool.false_eq_true, if_false, State.putCopy, State.setCopy_setCopy, State.await, Item.waiting]

theorem await_frame (s : State) (x : Who) (region : Nat) (pol : Policy) (i : Item) : (s.await x region pol i).unroomed = s.unroomed :=
  makeRoom_frame s x.level i.w

theorem awaits_frame (x : Who) (region : Nat) (pol : Policy) (items : List Item) (s : State) :
    (items.foldl (fun s i => s.await x region pol i) s).unroomed = s.unroomed :=
  List.foldlRecOn (motive := fun y : State => y.unroomed = s.unroomed) _ _ rfl fun y hy i _ => (await_frame y x region pol i).trans hy

/-- Another word of the level, without a copy or with bytes that wait too, stays as it is. -/
theorem copy_await_of_waits {i : Item} {u : Nat} (hu : u < 2 ^ 51 ∨ 4096 ≤ x.level) (h : s.Waits x.level u) (hne : i.w ≠ u) :
    (s.await x region pol i).copy x.level u = s.copy x.level u := by
  have hk : copyKey x.level i.w ≠ copyKey x.level u := by unfold copyKey; omega
  exact (copy_setCopy_ne _ _ hk).trans (copy_makeRoom_of_waits hu h i.w)

theorem copy_awaits_of_waits {u : Nat} (hu : u < 2 ^ 51 ∨ 4096 ≤ x.level) (hne : ∀ i ∈ items, i.w ≠ u) (h : s.Waits x.level u) :
    (items.foldl (fun s i => s.await x region pol i) s).copy x.level u = s.copy x.level u := by
  induction items generalizing s with
  | nil => rfl
  | cons i items ih =>
    have hi := copy_await_of_waits (region := region) (pol := pol) hu h (hne i List.mem_cons_self)
    rw [List.foldl_cons, ih (fun j hj => hne j (List.mem_cons_of_mem i hj)) (by unfold State.Waits; rw [hi]; exact h), hi]

/-- Words of which a store finds no copy at the requester's first level. -/
structure Absent (items : List Item) (x : Who) (s : State) : Prop where
  empty : ∀ i ∈ items, s.copy x.level i.w = none
  distinct : (items.map (·.w)).Nodup
  reach : ∀ i ∈ items, i.w < 2 ^ 51 ∨ 4096 ≤ x.level

theorem waits_of_none {l u : Nat} (h : s.copy l u = none) : s.Waits l u := fun _ hc => absurd (h.symm.trans hc) nofun

theorem Absent.tail {i : Item} (h : Absent (i :: items) x s) : Absent items x (s.await x region pol i) := by
  obtain ⟨hhead, htail⟩ := List.nodup_cons.1 h.distinct
  refine ⟨fun j hj => ?_, htail, fun j hj => h.reach j (List.mem_cons_of_mem i hj)⟩
  have hnone := h.empty j (List.mem_cons_of_mem i hj)
  rw [copy_await_of_waits (h.reach j (List.mem_cons_of_mem i hj)) (waits_of_none hnone) fun he => hhead (List.mem_map.2 ⟨j, hj, he.symm⟩), hnone]

/-- The bytes of every item wait at the level. -/
theorem Absent.copy (h : Absent items x s) : ∀ i ∈ items,
    (items.foldl (fun s i => s.await x region pol i) s).copy x.level i.w = some (i.waiting x region pol) := by
  induction items generalizing s with
  | nil => exact nofun
  | cons i items ih =>
    intro j hj
    rw [List.foldl_cons]
    rcases List.mem_cons.1 hj with rfl | hj
    · obtain ⟨hhead, -⟩ := List.nodup_cons.1 h.distinct
      have hself : (s.await x region pol j).copy x.level j.w = some (j.waiting x region pol) := copy_setCopy_self _ _ _
      have hwaits : (s.await x region pol j).Waits x.level j.w := fun c hc => by
        obtain rfl := Option.some.inj (hself.symm.trans hc)
        exact ⟨rfl, rfl⟩
      rw [copy_awaits_of_waits (h.reach j List.mem_cons_self) (fun i hi he => hhead (List.mem_map.2 ⟨i, hi, he⟩)) hwaits, hself]
    · exact ih h.tail j hj

/-- Every word is to be registered. -/
theorem Absent.storeWords (h : Absent items x s) (acc : List Item) :
    items.foldl (fun (acc : State × List Item) i => match acc.1.storeWord x i.w i.bm i.val region none pol false with
      | .done s => (s, acc.2)
      | .register s => (s, acc.2 ++ [i])) (s, acc) = (items.foldl (fun s i => s.await x region pol i) s, acc ++ items) := by
  induction items generalizing s acc with
  | nil => simp
  | cons i items ih =>
    have happend : acc ++ i :: items = (acc ++ [i]) ++ items := List.append_cons ..
    rw [List.foldl_cons, List.foldl_cons, happend, ← ih (h.tail (region := region) (pol := pol))]
    congr 1
    dsimp only
    rw [storeWord_of_none (h.empty i List.mem_cons_self)]

theorem Absent.unmixed (h : Absent items x s) : s.mixed x.level items = false := by
  rw [State.mixed, Bool.and_eq_false_iff]
  refine .inl (List.any_eq_false.2 fun i hi => ?_)
  rw [h.empty i hi]
  exact Bool.false_ne_true

end

/-! ### The request -/

/-- The registration of the words of a store whose thread goes on. -/
def State.registers (s : State) (x : Who) (va pa : Nat) (items : List Item) (pol : Policy) (bump : Bool) : Msg :=
  { s.baseMsg x .reg va pa items with
    policy := pol, win := none, bump := bump, past := isMarl x.core, late := false, strict := false, raceTrap := false, held := []
    dst := if isMarl x.core then homeEnd (pa / 4) else x.agent }

/-- The machine as the registration is sent. -/
def State.awaited (s : State) (x : Who) (va pa : Nat) (items : List Item) (pol : Policy) : State :=
  ((((items.foldl (fun y i => y.await x (s.regionOf x.ctx va) pol i) s).modThread x.tid (·.notes (items.map (·.w)))).staleWindows x.core va pa
    items.length).count x.core 8 1)

/-- The machine after the registration has been sent. -/
def State.regSent (s : State) (x : Who) (va pa : Nat) (items : List Item) (pol : Policy) (bump : Bool) : State :=
  ((s.awaited x va pa items pol).send ((s.awaited x va pa items pol).registers x va pa items pol bump)).1.modThread x.tid
    fun th => { th with pending := (s.awaited x va pa items pol).nextId :: th.pending }

section
variable {s : State} {x : Who} {va pa n d : Nat} {pol : Policy} {bump : Bool}

theorem itemsOf_ne_nil (pa n d : Nat) : itemsOf pa n d ≠ [] := by
  unfold itemsOf
  split <;> exact List.cons_ne_nil _ _

theorem afterStore_send (s : State) (m : Msg) (t : Nat) : (s.send m).1.afterStore t (some s.nextId) = if m.strict then (s.send m).1.waitMsg t s.nextId else
    ((s.send m).1.modThread t fun th => { th with pending := s.nextId :: th.pending }, .next) := by
  obtain ⟨q, hq, hmade⟩ := send_msg s m
  have hstrict : q.strict = m.strict := made_field hmade Msg.strict
  simp only [State.afterStore, hq, hstrict]

theorem storeTo_of_absent (h : Absent (itemsOf pa n d) x s) (ht : s.trapsRaces x.ctx = false) (hr : x.remote (pa / 4) = false) :
    s.storeTo x (.cached pa) va n d pol bump = (s.regSent x va pa (itemsOf pa n d) pol bump, .next) := by
  have hmixed := h.unmixed
  have hwords := h.storeWords (region := s.regionOf x.ctx va) (pol := pol) []
  simp only [State.storeTo, State.storeAt, State.storeBy, hmixed, ht, hr, Bool.or_false, Bool.false_eq_true, if_false, Option.map_none, Option.isSome_none]
  erw [hwords]
  simp only [List.nil_append, itemsOf_ne_nil, if_false, Bool.and_false]
  generalize hy : State.staleWindows _ _ _ _ _ = y
  have ha : s.awaited x va pa (itemsOf pa n d) pol = y.count x.core 8 1 := congrArg (fun y : State => y.count x.core 8 1) hy
  rw [State.regSent, ha]
  exact (afterStore_send (y.count x.core 8 1) ((y.count x.core 8 1).registers x va pa (itemsOf pa n d) pol bump) x.tid).trans (if_neg Bool.false_ne_true)

/-- The machine but for requests, levels, threads and event counts. -/
def State.unawaited (s : State) : State := { s.unroomed with threads := [], evCount := [] }

section
variable (s : State) (x : Who) (va pa : Nat) (items : List Item) (pol : Policy) (bump : Bool)

theorem awaited_unawaited : (s.awaited x va pa items pol).unawaited = s.unawaited := by
  have hfold := congrArg (fun y : State => { y with threads := [], evCount := [] }) (awaits_frame x (s.regionOf x.ctx va) pol items s)
  rw [State.awaited]
  generalize items.foldl (fun y i => y.await x (s.regionOf x.ctx va) pol i) s = y at hfold
  have hstale := congrArg (fun y : State => { y with threads := [], evCount := [], pinned := [] })
    (touches_staleWindows [] (y.modThread x.tid (·.notes (items.map (·.w)))) x.core va pa items.length).frame
  exact hstale.trans hfold

theorem regSent_unawaited : (s.regSent x va pa items pol bump).unawaited = s.unawaited :=
  (congrArg (fun y : State => { y.uncached with threads := [], evCount := [], pinned := [] })
    (send_unsent (s.awaited x va pa items pol) ((s.awaited x va pa items pol).registers x va pa items pol bump))).trans (awaited_unawaited s x va pa items pol)

theorem regSent_field {α : Sort _} (f : State → α) (hf : ∀ s, f s.unawaited = f s := by intro s; rfl) : f (s.regSent x va pa items pol bump) = f s := by
  rw [← hf (s.regSent x va pa items pol bump), regSent_unawaited, hf]

theorem regSent_copy (l u : Nat) : (s.regSent x va pa items pol bump).copy l u =
    (items.foldl (fun y i => y.await x (s.regionOf x.ctx va) pol i) s).copy l u := by
  have hsend : (s.regSent x va pa items pol bump).copy l u = (s.awaited x va pa items pol).copy l u :=
    unsent_field (send_unsent (s.awaited x va pa items pol) _) (·.copy l u)
  obtain ⟨-, hcopies, -⟩ := sheds_staleWindows ((items.foldl (fun y i => y.await x (s.regionOf x.ctx va) pol i) s).modThread x.tid (·.notes (items.map (·.w))))
    x.core va pa items.length
  exact hsend.trans (congrArg (tget? · (copyKey l u)) hcopies)

theorem regSent_thread : (s.regSent x va pa items pol bump).thread x.tid =
    { (s.thread x.tid).notes (items.map (·.w)) with pending := (s.awaited x va pa items pol).nextId :: (s.thread x.tid).pending } := by
  have hsend : ((s.awaited x va pa items pol).send ((s.awaited x va pa items pol).registers x va pa items pol bump)).1.thread x.tid =
      (s.awaited x va pa items pol).thread x.tid := unsent_field (send_unsent _ _) (·.thread x.tid)
  have hfold : (items.foldl (fun y i => y.await x (s.regionOf x.ctx va) pol i) s).thread x.tid = s.thread x.tid := by
    have h := awaits_frame x (s.regionOf x.ctx va) pol items s
    exact (congrArg (fun y : State => y.thread x.tid) h :)
  have hnoted : (s.awaited x va pa items pol).thread x.tid = (s.thread x.tid).notes (items.map (·.w)) := by
    have hstale := (touches_staleWindows [] ((items.foldl (fun y i => y.await x (s.regionOf x.ctx va) pol i) s).modThread x.tid (·.notes (items.map (·.w))))
      x.core va pa items.length).field (·.thread x.tid)
    refine hstale.trans ?_
    rw [State.thread_modThread, if_pos rfl, hfold]
  rw [State.regSent, State.thread_modThread, if_pos rfl, hsend, hnoted]
  rfl

/-- The request, as its sender made it. -/
theorem regSent_msg : ∃ q, (s.regSent x va pa items pol bump).msg (s.awaited x va pa items pol).nextId = some q ∧
    q.made = ((s.awaited x va pa items pol).registers x va pa items pol bump).made := send_msg _ _

end

/-! ### Where the thread goes on -/

/-- The PC after an instruction (02 R37). -/
def Thread.goesTo (th : Thread) (pc next : Nat) : Nat :=
  if th.depth = 0 ∨ th.inHandler = true then next
  else if pc / 4 % 2 ^ 55 ≠ (th.lc (th.depth - 1)).stop then next
  else if (th.lc (th.depth - 1)).count > 1 then (th.lc (th.depth - 1)).start * 4
  else exitPc (th.lc (th.depth - 1)).stop (th.lc (th.depth - 1)).len

theorem Thread.past_pc (th : Thread) (pc next : Nat) : (th.past pc next).pc = th.goesTo pc next := by
  change (th.loopUpdate pc next).2 = _
  unfold Thread.loopUpdate Thread.goesTo
  split
  · rfl
  · dsimp only
    split
    · rfl
    · split <;> rfl

end

end Sys2Proof.Machine
end

section
/-! Stores at owned words, and at words of which the core's level has no copy (08 R170, 03 R56, R57). -/

namespace Sys2Proof.Machine

section
variable {s y z : State} {iss : Issue} {i : Instr} {o : Ops} {f : MemFn} {t pa : Nat} {rel : Option Scope}

/-- A core of a package below 64 reaches words of its package's memory alone without a registration elsewhere. -/
theorem absent_itemsOf {x : Who} {n d : Nat} (hx : x.Proper) (hn : n = 1 ∨ n = 2 ∨ n = 4 ∨ n = 8) (hr : x.remote (pa / 4) = false)
    (h : ∀ j ∈ itemsOf pa n d, z.copy x.level j.w = none) : Absent (itemsOf pa n d) x z := by
  refine ⟨h, itemsOf_distinct hn, fun j hj => ?_⟩
  have hpkg : pa / 4 / 2 ^ 44 = pkgOf x.core := by simpa [Who.remote] using hr
  have hw : j.w ∈ (List.range ((n + 3) / 4)).map (pa / 4 + ·) := itemsOf_words hn ▸ List.mem_map_of_mem hj
  obtain ⟨k, hk, he⟩ := List.mem_map.1 hw
  have hk2 : k < 2 := by
    have hlt := List.mem_range.1 hk
    omega
  cases hm : isMarl x.core with
  | true =>
    have hbig : 16384 ≤ marlLevel x.core := by
      unfold marlLevel
      omega
    rw [(hx.marl hm).1]
    exact .inr (Nat.le_trans (by decide) hbig)
  | false =>
    rw [(hx.loam hm).1, clusterOf]
    omega

theorem releasing_thread (s : State) (t : Nat) (rel : Option Scope) : (s.releasing t rel).thread t =
    { s.thread t with written := ((s.releasing t rel).thread t).written, pending := ((s.releasing t rel).thread t).pending } := by
  cases rel with
  | none => rfl
  | some sc => exact doRelease_thread s t sc

theorem bumps_some (sc : Scope) : bumps (some sc) = decide (sc = .pkg ∨ sc = .sys) := by cases sc <;> rfl

/-- What a store leaves that registers its words, as the statement has it. -/
theorem storeAwaits (hz : z = y.releasing t rel) (hexec : exec i s = done (runGroup i o (storeBody i o f.size f.policy rel) s)) (hl : latchOf o = none)
    (hsize : f.size ≠ .s4) (h : Meets s y iss i o t (f.size.width / 8) pa) (hrel : ∀ sc, rel = some sc → y.releaseReady t sc = true)
    (hwaits : y.storeWaits (s.who t) (itemsOf pa (f.size.width / 8) 0) = false) (hraces : y.trapsRaces (s.who t).ctx = false)
    (hremote : (s.who t).remote (pa / 4) = false)
    (hnone : ∀ j ∈ itemsOf pa (f.size.width / 8) (s.srcC iss t i o % 2 ^ (8 * (f.size.width / 8))), y.copy (s.who t).level j.w = none) :
    let items := itemsOf pa (f.size.width / 8) (s.srcC iss t i o % 2 ^ (8 * (f.size.width / 8)))
    let x := s.who t
    ∃ r id m, exec i s = .next r ∧ r.msg id = some m ∧ m.kind = .reg ∧ m.src = x.agent ∧ m.dst = (if isMarl x.core then homeEnd (pa / 4) else x.agent) ∧
      m.items = items ∧ m.client = .thread t ∧ m.bump = bumps rel ∧ id ∈ (r.thread t).pending ∧ (∀ j ∈ items, j.w ∈ (r.thread t).written) ∧
      (∀ j ∈ items, ∃ c, r.copy x.level j.w = some c ∧ c.pend = true ∧ c.mask = j.bm ∧ c.holder = x.holder ∧
        ∀ b < 4, j.bm.testBit b = true → c.val.toNat / 2 ^ (8 * b) % 256 = j.val.toNat / 2 ^ (8 * b) % 256) ∧
      (r.thread t).run = .ready ∧ (r.thread t).pc = ((s.thread t).past iss.pc (iss.next i)).pc ∧ r.regs = s.regs ∧ r.mem = s.mem ∧ r.owners = z.owners := by
  intro items x
  have hx := who_proper s t
  have habsent : Absent items x z := absent_itemsOf hx (access_size hsize) hremote fun j hj => by
    rw [hz, releasing_field y t rel (·.copy x.level j.w)]
    exact hnone j hj
  have htraps : z.trapsRaces x.ctx = false := by
    rw [hz, releasing_field y t rel (·.trapsRaces x.ctx)]
    exact hraces
  have hbody := storeBody_eq h f.policy hwaits hrel
  rw [← hz, storeTo_of_absent (va := s.globalAddr iss t i o) (pol := f.policy) (bump := bumps rel) habsent htraps hremote] at hbody
  have hfield : ∀ {α : Type} (f' : State → α) (_ : ∀ s, f' s.unawaited = f' s) (_ : ∀ s rc mi n th, f' { s with relcount := rc, mirror := mi, nextId := n, threads := th } = f' s)
      (_ : ∀ s, f' s.untranslated = f' s), f' (z.regSent x (s.globalAddr iss t i o) pa items f.policy (bumps rel)) = f' (s.begun iss) := by
    intro α f' h1 h2 h3
    rw [regSent_field _ _ _ _ _ _ _ f' h1, hz, releasing_field y t rel f' h2, translate_field h.maps f' h3]
  obtain ⟨r, hr, hst⟩ := exec_of_body h.alone hl hbody rfl ((regSent_field _ _ _ _ _ _ _ State.hole).trans
    (hz ▸ (releasing_field y t rel State.hole).trans h.hole))
  have hrest := hst.kept.rest
  obtain ⟨q, hq, hmade⟩ := regSent_msg z x (s.globalAddr iss t i o) pa items f.policy (bumps rel)
  have hthread := hst.kept.threads t h.alone.mem
  have hsent := regSent_thread z x (s.globalAddr iss t i o) pa items f.policy (bumps rel)
  have hwritten : (r.thread t).written = _ := (congrArg Thread.written hthread :).trans (Thread.past_written ..)
  have hpending : (r.thread t).pending = _ := (congrArg Thread.pending hthread :).trans (Thread.past_pending ..)
  have hxt : x.tid = t := rfl
  rw [hxt] at hsent
  refine ⟨r, (z.awaited x (s.globalAddr iss t i o) pa items f.policy).nextId, q, hexec.trans hr, (rest_congr hrest (·.msg _) fun _ => rfl).trans hq,
    made_field hmade Msg.kind, made_field hmade Msg.src, made_field hmade Msg.dst, made_field hmade Msg.items, made_field hmade Msg.client,
    made_field hmade Msg.bump, ?_, fun j hj => ?_, fun j hj => ?_, (congrArg Thread.run hthread :), ?_, ?_, ?_, ?_⟩
  · rw [hpending, hsent]
    exact List.mem_cons_self
  · rw [hwritten, hsent]
    exact List.mem_eraseDups.2 (List.mem_append_left _ (List.mem_map_of_mem hj))
  · refine ⟨_, ((rest_congr hrest (·.copy x.level j.w) fun _ => rfl).trans (regSent_copy z x _ pa items f.policy (bumps rel) x.level j.w)).trans
      (habsent.copy j hj), rfl, rfl, rfl, fun b hb hbit => ?_⟩
    rw [← pow256]
    exact (mergeWord_byte _ _ _ hb).trans (by rw [if_pos hbit])
  · have hpc : (r.thread t).pc = ((State.regSent _ _ _ _ _ _ _).thread t).goesTo iss.pc (iss.next i) := (congrArg Thread.pc hthread :).trans (Thread.past_pc ..)
    have hbegun : y.thread t = s.thread t := (translate_field h.maps (·.thread t)).trans (begun_thread s iss t)
    rw [hpc, hsent, Thread.past_pc, hz, releasing_thread, hbegun]
    rfl
  · exact hst.regs.trans (hfield State.regs (fun _ => rfl) (fun _ _ _ _ _ => rfl) fun _ => rfl) |>.trans (begun_regs s iss)
  · exact ((rest_congr hrest State.mem fun _ => rfl).trans (hfield State.mem (fun _ => rfl) (fun _ _ _ _ _ => rfl) fun _ => rfl)).trans
      (rest_congr (begun_rest s iss) State.mem fun _ => rfl)
  · exact (rest_congr hrest State.owners fun _ => rfl).trans (regSent_field _ _ _ _ _ _ _ State.owners)

end

/-- Settles O19: a store at owned words word by word, with what its policy leaves of each; one at words without a copy by what making room leaves of the level. -/
theorem storeToOwnedWords : Obligations.StoreToOwnedWords := by
  unfold Obligations.StoreToOwnedWords
  refine ⟨fun o f s y iss t pa => ⟨?_, fun hrel => ?_⟩, fun o f s y iss t pa => ⟨?_, fun hrel => ?_⟩⟩
  · intro halone hfresh hn hmap hhole hover hwb hp hd hheld hids hpin
    have hsize := st_size halone.issues.formed
    exact storeOwned (rel := none) rfl (exec_st o f s) (st_latchOf halone.issues.formed) hsize ⟨halone, hfresh, hn, hmap, hhole⟩ nofun hover hd hp fun d =>
      ready_itemsOf d (access_size hsize) hd hp hheld hids hwb hpin
  · intro halone hfresh hn hmap hhole hover hwb hp hd hheld hids hpin
    have hsize := stRel_size halone.issues.formed
    refine storeOwned (rel := some f.scope) rfl (exec_stRel o f s) (stRel_latchOf halone.issues.formed) hsize ⟨halone, hfresh, hn, hmap, hhole⟩ ?_ hover hd hp fun d =>
      ready_itemsOf d (access_size hsize) hd hp hheld hids ?_ hpin
    · rintro sc ⟨⟩
      exact hrel
    · exact (doRelease_field y t f.scope (·.wbPending (s.who t).agent _)).trans hwb
  · intro halone hfresh hn hmap hhole hwaits hraces hremote hnone
    exact storeAwaits (rel := none) rfl (exec_st o f s) (st_latchOf halone.issues.formed) (st_size halone.issues.formed) ⟨halone, hfresh, hn, hmap, hhole⟩ nofun
      hwaits hraces hremote hnone
  · intro halone hfresh hn hmap hhole hwaits hraces hremote hnone
    have h := storeAwaits (rel := some f.scope) rfl (exec_stRel o f s) (stRel_latchOf halone.issues.formed) (stRel_size halone.issues.formed)
      ⟨halone, hfresh, hn, hmap, hhole⟩ (fun sc hsc => Option.some.inj hsc ▸ hrel) hwaits hraces hremote hnone
    rw [← bumps_some]
    exact h

end Sys2Proof.Machine
end

section
/-! The lanes of one atomic: the values that they fetch and where these go (03 R72, 08 R177, R178). -/

namespace Sys2Proof.Machine

/-! ### The destination of a variable-latency result (02 R41, 05 R111) -/

/-- A result goes to registers alone: to no latch and no predicate. -/
structure Lands (o : Ops) : Prop where
  latch : latchOf o = none
  wbs : o.h.wbs = false
  pred : ∀ p, o.d ≠ .pred p

theorem wbs_of_wellFormed {i : Instr} {o : Ops} {r : Row} {op : Nat} (h : i.WellFormed = true) (ho : i.opcode = some op) (hr : i.row = some r)
    (hi : i.ops = some o) (hv : variableLatency op = true) : o.h.wbs = false := by
  have hok := operOk_of_wellFormed h ho
  unfold Instr.operOk at hok
  rw [ho, hi, hr] at hok
  simp only [hv, if_true, Bool.and_eq_true, Bool.not_eq_true'] at hok
  exact hok.1.2.1.2

theorem lands_of_wellFormed {i : Instr} {o : Ops} {r : Row} {op : Nat} (h : i.WellFormed = true) (ho : i.opcode = some op) (hr : i.row = some r)
    (hi : i.ops = some o) (hv : variableLatency op = true) (hd : r.d = .reg) : Lands o := by
  obtain ⟨hok, -, -, -, hl⟩ := fields_of_wellFormed h ho hr hi
  refine ⟨hl hv, wbs_of_wellFormed h ho hr hi hv, fun p hp => ?_⟩
  rw [hd, hp] at hok
  cases hok

theorem atom_lands {o : Ops} {f : AtomFn} (h : (Instr.atom o f).WellFormed = true) : Lands o := lands_of_wellFormed h rfl rfl rfl rfl rfl
theorem atoml_lands {o : Ops} {f : AtomFn} (h : (Instr.atoml o f).WellFormed = true) : Lands o := lands_of_wellFormed h rfl rfl rfl rfl rfl

/-- The formats of an atomic (06 R129). -/
theorem atomOk_size {f : AtomFn} (h : atomOk f = true) : f.size.isFloat = !f.size.isInt ∧ (f.size.width / 8 = 4 ∨ f.size.width / 8 = 8) := by
  have hsize : f.size.isWideSet = true ∨ f.size = .f32 ∨ f.size = .f64 := by
    simp only [atomOk, Bool.or_eq_true, Bool.and_eq_true, decide_eq_true_eq] at h
    exact h.imp_right And.left
  revert hsize
  cases f.size <;> decide

theorem atom_size {o : Ops} {f : AtomFn} (h : (Instr.atom o f).WellFormed = true) :
    f.size.isFloat = !f.size.isInt ∧ (f.size.width / 8 = 4 ∨ f.size.width / 8 = 8) := atomOk_size (fnOk_of_wellFormed h rfl)
theorem atoml_size {o : Ops} {f : AtomFn} (h : (Instr.atoml o f).WellFormed = true) :
    f.size.isFloat = !f.size.isInt ∧ (f.size.width / 8 = 4 ∨ f.size.width / 8 = 8) := atomOk_size (fnOk_of_wellFormed h rfl)

theorem modSquad_modSquad (s : State) (q : Nat) (f g : Squad → Squad) : (s.modSquad q f).modSquad q g = s.modSquad q fun x => g (f x) := by
  have hq : (s.modSquad q f).squad q = f (s.squad q) := by simp
  rw [State.modSquad, hq]
  simp only [State.modSquad, State.setSquad, tset_tset]

section
variable {iss : Issue} {o : Ops} {t v n : Nat} {kw : Bool}

/-- A value delivered is one written to the destination fixed at issue. -/
theorem deliver_destOf (h : Lands o) {s0 s : State} (hkey : ∀ r, s0.regKey t r = s.regKey t r) :
    s.deliver (s0.destOf o t n kw).1 (s0.destOf o t n kw).2 n v = s.writeD iss o t v n kw := by
  obtain ⟨hl, hw, hp⟩ := h
  simp only [State.destOf, State.writeD, hl, hw, Bool.false_eq_true, if_false]
  cases hd : o.d with
  | v r =>
    dsimp only
    rw [hkey, hkey]
    by_cases hn : n = 2
    · rw [if_pos hn, if_pos hn]; rfl
    · rw [if_neg hn, if_neg hn]; rfl
  | k r =>
    cases kw with
    | false => rfl
    | true =>
      by_cases hn : n = 2
      · simp only [State.deliver, if_pos hn, if_true, State.writeK, modSquad_modSquad]
      · simp only [State.deliver, if_neg hn, if_true, State.writeK]
  | pred p => exact absurd hd (hp p)
  | b r => rfl
  | zero => rfl

/-! ### Registers apart from the rest -/

/-- The machine with the registers and k registers of another. -/
def State.over (s d : State) : State := { s with regs := d.regs, squads := d.squads }

theorem writeD_over (h : Lands o) {s d : State} (hr : (s.thread t).rotNow = (d.thread t).rotNow) :
    (s.over d).writeD iss o t v n kw = s.over (d.writeD iss o t v n kw) := by
  obtain ⟨hl, hw, hp⟩ := h
  have hkey : ∀ j, (s.over d).regKey t j = d.regKey t j := fun j => by
    have hthread : (s.over d).thread t = s.thread t := rfl
    rw [State.regKey, State.regKey, hthread, hr]
    rfl
  simp only [State.writeD, hl, hw, Bool.false_eq_true, if_false]
  cases hd : o.d with
  | v r =>
    have hone : ∀ m w, (s.over d).writeV t m w = s.over (d.writeV t m w) := fun m w => by
      rw [State.writeV, hkey]; rfl
    have htwo : ∀ m w j x, (s.over (d.writeV t m w)).writeV t j x = s.over ((d.writeV t m w).writeV t j x) := fun m w j x => by
      have hj : (s.over (d.writeV t m w)).regKey t j = d.regKey t j := hkey j
      rw [State.writeV, hj]; rfl
    dsimp only
    rw [hone]
    split
    · exact htwo ..
    · rfl
  | k r =>
    dsimp only
    split
    · split <;> rfl
    · rfl
  | pred p => exact absurd hd (hp p)
  | b r => rfl
  | zero => rfl

/-- A result of each thread in turn. -/
def State.writeAll (s : State) (iss : Issue) (o : Ops) (n : Nat) (kw : Nat → Bool) (v : Nat → Nat) (ts : List Nat) : State :=
  ts.foldl (fun a u => a.writeD iss o u (v u) n (kw u)) s

theorem writeD_lands_thread (h : Lands o) (s : State) (u : Nat) : (s.writeD iss o t v n kw).thread u = s.thread u := by
  rw [writeD_thread]
  cases hd : o.d with
  | pred p => exact absurd hd (h.pred p)
  | _ => rfl

theorem writeAll_over (h : Lands o) (kw : Nat → Bool) (v : Nat → Nat) (ts : List Nat) {s d : State} (hr : ∀ u ∈ ts, (s.thread u).rotNow = (d.thread u).rotNow) :
    (s.over d).writeAll iss o n kw v ts = s.over (d.writeAll iss o n kw v ts) := by
  unfold State.writeAll
  induction ts generalizing d with
  | nil => rfl
  | cons u ts ih =>
    rw [List.foldl_cons, List.foldl_cons, writeD_over h (hr u List.mem_cons_self)]
    exact ih fun w hw => (hr w (List.mem_cons_of_mem _ hw)).trans (congrArg Thread.rotNow (writeD_lands_thread h d w).symm)

/-! ### The lanes in ascending order (03 R72) -/

/-- The value that a lane fetches: what those before it left. -/
def fetches (next : Nat → Nat → Nat) (old : Nat) (ts : List Nat) (u : Nat) : Nat := (ts.takeWhile (· ≠ u)).foldl (fun old w => next w old) old

theorem fetches_head (next : Nat → Nat → Nat) (old t : Nat) (ts : List Nat) : fetches next old (t :: ts) t = old := by
  simp [fetches]

theorem fetches_tail (next : Nat → Nat → Nat) (old : Nat) {t u : Nat} (ts : List Nat) (h : t ≠ u) :
    fetches next old (t :: ts) u = fetches next (next t old) ts u := by
  simp [fetches, h]

/-- Lanes whose operands and destinations are told thread by thread. -/
theorem atomLanes_snd (op : AtomOp) (z : Fmt) (lane : Nat → AtomLane) (ts : List Nat) (old : Nat) :
    (atomLanes op z old (ts.map lane)).2 = ts.foldl (fun old u => atomNew op z old (lane u).c (lane u).cmp) old := by
  induction ts generalizing old with
  | nil => rfl
  | cons t ts ih => exact ih _

/-- Each lane's fetched value in its destination. -/
theorem deliverLanes_writeAll (h : Lands o) (op : AtomOp) (z : Fmt) {lane : Nat → AtomLane} {s0 : State} {kw : Nat → Bool}
    (hdest : ∀ u, ((lane u).dest, (lane u).kdest) = s0.destOf o u (regsOf z) (kw u)) {ts : List Nat} (hnd : ts.Nodup) (old : Nat) {s : State}
    (hkey : ∀ u r, s0.regKey u r = s.regKey u r) :
    s.deliverLanes z (ts.map lane) (atomLanes op z old (ts.map lane)).1 =
      s.writeAll iss o (regsOf z) kw (fetches (fun u old => atomNew op z old (lane u).c (lane u).cmp) old ts) ts := by
  induction ts generalizing old s with
  | nil => rfl
  | cons t ts ih =>
    obtain ⟨hnot, hnd⟩ := List.nodup_cons.1 hnd
    obtain ⟨hdest1, hdest2⟩ := Prod.ext_iff.1 (hdest t)
    dsimp only at hdest1 hdest2
    have hhead : s.deliver (lane t).dest (lane t).kdest (regsOf z) old = s.writeD iss o t old (regsOf z) (kw t) := by
      rw [hdest1, hdest2, deliver_destOf h (hkey t)]
    have hrest := ih hnd (atomNew op z old (lane t).c (lane t).cmp) (s := s.writeD iss o t old (regsOf z) (kw t))
      fun u r => (hkey u r).trans (writeD_regKey ..).symm
    have hstep : s.deliverLanes z ((t :: ts).map lane) (atomLanes op z old ((t :: ts).map lane)).1 =
        (s.deliver (lane t).dest (lane t).kdest (regsOf z) old).deliverLanes z (ts.map lane)
          (atomLanes op z (atomNew op z old (lane t).c (lane t).cmp) (ts.map lane)).1 := rfl
    rw [hstep, hhead, hrest, State.writeAll, State.writeAll, List.foldl_cons, fetches_head]
    refine List.foldl_ext _ _ _ fun a u hu => ?_
    have hne : t ≠ u := fun he => hnot (he ▸ hu)
    rw [fetches_tail _ _ _ hne]

end

end Sys2Proof.Machine
end

section
/-! The words of an atomic, read and rewritten at the level that owns them (03 R71, 08 R176). -/

namespace Sys2Proof.Machine

/-! ### Words at a level -/

/-- A whole word rewritten at a level. -/
def State.setAt (level : Nat) (s : State) (i : Item) : State :=
  match s.copy level i.w with
  | some c => s.putCopy level i.w c 15 i.val
  | none => s

section
variable {pa n : Nat}

theorem aligned_four (hn : n = 4 ∨ n = 8) (hd : n ∣ pa) : pa % 4 = 0 := by
  obtain ⟨k, rfl⟩ := hd
  rcases hn with rfl | rfl <;> omega

/-- The words of four or eight bytes are whole. -/
theorem itemsOf_whole (hn : n = 4 ∨ n = 8) (hd : n ∣ pa) (v : Nat) : ∀ i ∈ itemsOf pa n v, i.bm = 15 := by
  intro i hi
  rcases hn with rfl | rfl
  · rw [itemsOf_one (by decide), aligned_four (.inl rfl) hd, List.mem_singleton] at hi
    rw [hi]
    rfl
  · rw [itemsOf_eight, List.mem_cons, List.mem_singleton] at hi
    rcases hi with rfl | rfl <;> rfl

theorem putWords_setAt (hn : n = 4 ∨ n = 8) (hd : n ∣ pa) (s : State) (level v d : Nat) :
    s.putWords level ((itemsOf pa n d).map (·.w)) v = (itemsOf pa n v).foldl (State.setAt level) s := by
  rcases hn with rfl | rfl
  · have hval : BitVec.ofNat 32 (v * 2 ^ (8 * (pa % 4))) = wordAt v 0 := by
      rw [aligned_four (.inl rfl) hd, wordAt]
      simp
    rw [itemsOf_one (by decide), itemsOf_one (by decide), hval]
    rfl
  · rw [itemsOf_eight, itemsOf_eight]
    rfl

/-- The bytes of whole words are the words' values. -/
theorem bytesOf_whole (hn : n = 4 ∨ n = 8) (hd : n ∣ pa) (d : Nat) (f : Nat → Word) :
    bytesOf pa n ((itemsOf pa n d).map fun j => f j.w) = joinWords ((itemsOf pa n d).map fun j => f j.w) := by
  rcases hn with rfl | rfl
  · rw [itemsOf_one (by decide)]
    have := (f (pa / 4)).isLt
    simp only [List.map_cons, List.map_nil, bytesOf, aligned_four (.inl rfl) hd, joinWords_single]
    omega
  · rw [itemsOf_eight]
    simp only [List.map_cons, List.map_nil, bytesOf_eight hd, joinWords, List.foldr_cons, List.foldr_nil]
    omega

theorem getWords_eq (hn : n = 4 ∨ n = 8) (hd : n ∣ pa) {s : State} {level d : Nat} {f : Nat → Word}
    (h : ∀ j ∈ itemsOf pa n d, ∃ c, s.copy level j.w = some c ∧ s.copyVal c = f j.w) :
    s.getWords level ((itemsOf pa n d).map (·.w)) = bytesOf pa n ((itemsOf pa n d).map fun j => f j.w) := by
  rw [bytesOf_whole hn hd, State.getWords, List.map_map]
  refine congrArg joinWords (List.map_congr_left fun j hj => ?_)
  obtain ⟨c, hc, hv⟩ := h j hj
  simp only [Function.comp, hc, hv]

end

/-! ### Registers apart -/

section
variable (s d : State)

theorem scratchWrite_over (k n v : Nat) : (s.over d).scratchWrite k n v = (s.scratchWrite k n v).over d := by
  induction n generalizing s k v with
  | zero => rfl
  | succ n ih => exact ih (s.setScratchByte k (BitVec.ofNat 8 v)) _ _

theorem setAt_over (level : Nat) (i : Item) : (s.over d).setAt level i = (s.setAt level i).over d := by
  have hc : (s.over d).copy level i.w = s.copy level i.w := rfl
  have hv : ∀ c, (s.over d).copyVal c = s.copyVal c := fun c => rfl
  unfold State.setAt
  rw [hc]
  cases s.copy level i.w with
  | none => rfl
  | some c =>
    dsimp only [State.putCopy]
    rw [hv]
    cases c.win with
    | none => rfl
    | some k => exact scratchWrite_over ..

theorem setAll_over (level : Nat) (items : List Item) : items.foldl (State.setAt level) (s.over d) = (items.foldl (State.setAt level) s).over d := by
  induction items generalizing s with
  | nil => rfl
  | cons i items ih => rw [List.foldl_cons, List.foldl_cons, setAt_over, ih]

/-- The words that a thread has written, noted, and older copies of them dropped from its gang's windows. -/
def State.noted (s : State) (x : Who) (va pa : Nat) (ws : List Nat) : State := (s.modThread x.tid (·.notes ws)).staleWindows x.core va pa ws.length

/-- The copies, threads, registers, squads and counts in which a machine may differ from one whose windows lose the same words. -/
theorem staleWindows_over (core va pa n : Nat) : (s.over d).staleWindows core va pa n = (s.staleWindows core va pa n).over d := by
  have hover : (s.over d).staleWindows core va pa n = (s.staleWindows core va pa n).dress (s.over d) := staleWindows_dress s (s.over d) core va pa n
  have hself : s.staleWindows core va pa n = (s.staleWindows core va pa n).dress s := staleWindows_dress s s core va pa n
  rw [hover]
  conv_rhs => rw [hself]
  rfl

theorem noted_over (x : Who) (va pa : Nat) (ws : List Nat) : (s.over d).noted x va pa ws = (s.noted x va pa ws).over d :=
  staleWindows_over (s.modThread x.tid (·.notes ws)) d x.core va pa ws.length

end

/-- What is noted of a machine that differs from y in copies and counts. -/
theorem noted_eq (y : State) (copies : Tab Copy) (evCount : Tab Nat) (x : Who) (va pa : Nat) (ws : List Nat) :
    ({ y with copies := copies, evCount := evCount } : State).noted x va pa ws =
      { y.staleWindows x.core va pa ws.length with copies := copies, evCount := evCount }.modThread x.tid (·.notes ws) := by
  have hstale := touches_staleWindows [] y x.core va pa ws.length
  have hregs : (y.staleWindows x.core va pa ws.length).regs = y.regs := hstale.field State.regs
  have hsquads : (y.staleWindows x.core va pa ws.length).squads = y.squads := hstale.field State.squads
  have hthreads : (y.staleWindows x.core va pa ws.length).threads = y.threads := hstale.field State.threads
  have hdress : ({ y with copies := copies, evCount := evCount } : State).modThread x.tid (·.notes ws) =
      y.dress (({ y with copies := copies, evCount := evCount } : State).modThread x.tid (·.notes ws)) := rfl
  rw [State.noted, hdress, staleWindows_dress]
  generalize y.staleWindows x.core va pa ws.length = q at hregs hsquads hthreads
  simp only [State.dress, State.modThread, State.setThread, State.thread, ← hregs, ← hsquads, ← hthreads]

/-- What is noted changes no byte. -/
theorem noted_byteAt (p : State) (x : Who) (va pa : Nat) (ws : List Nat) {a : Nat} (ha : a < 2 ^ 52) : (p.noted x va pa ws).byteAt a = p.byteAt a := by
  rw [State.byteAt, State.byteAt, State.noted, staleWindows_wordVal _ _ _ _ _ (by omega)]
  rfl

end Sys2Proof.Machine
end

section
/-! Words rewritten at the level whose copies tell their values (03 R55, R71). -/

namespace Sys2Proof.Machine

/-- The copy at a level is the word's latest value: what is put there is. -/
def State.Decides (s : State) (l w : Nat) : Prop :=
  ∃ c, s.copy l w = some c ∧ c.win = none ∧ ∀ v, (s.setCopy l w { c with val := v }).wordVal w = v

/-- y is s but for the data of the items' copies, which decide the items' words. -/
structure Rewritten (items : List Item) (s y : State) : Prop where
  frame : y = { s with copies := y.copies }
  val : ∀ i ∈ items, y.wordVal i.w = i.val
  copies : ∀ l u, u < 2 ^ 50 → u ∉ items.map (·.w) → y.copy l u = s.copy l u
  flags : ∀ l u, (y.copy l u).map Copy.blank = (s.copy l u).map Copy.blank

section
variable {s y : State} {l u w : Nat}

theorem copy_setCopy_other {k : Nat} (c : Copy) (hw : w < 2 ^ 50) (hu : u < 2 ^ 50) (h : w ≠ u) : (s.setCopy l w c).copy k u = s.copy k u :=
  copy_setCopy_ne s c fun hk => h (copyKey_inj hw hu hk).2

/-- The value of a word is told by its own copies. -/
theorem wordVal_of_copies (hy : y = { s with copies := y.copies }) (hc : ∀ k, y.copy k u = s.copy k u) : y.wordVal u = s.wordVal u := by
  refine wordVal_congr ?_ ?_ hc ?_ fun a => ?_ <;> rw [hy] <;> rfl

theorem State.Decides.of_copies (h : s.Decides l u) (hy : y = { s with copies := y.copies }) (hc : ∀ k, y.copy k u = s.copy k u) : y.Decides l u := by
  obtain ⟨c, hl, hwin, hval⟩ := h
  refine ⟨c, (hc l).trans hl, hwin, fun v => ?_⟩
  refine (wordVal_of_copies ?_ fun k => ?_).trans (hval v)
  · rw [hy]; rfl
  · by_cases hk : copyKey l u = copyKey k u
    · rw [State.copy, State.copy, ← hk]
      exact (tget?_tset_self ..).trans (tget?_tset_self ..).symm
    · rw [copy_setCopy_ne _ _ hk, copy_setCopy_ne _ _ hk, hc]

/-- One word rewritten. -/
theorem setAt_rewritten {i : Item} (h : s.Decides l i.w) (hw : i.w < 2 ^ 50) : Rewritten [i] s (s.setAt l i) := by
  obtain ⟨c, hc, hwin, hval⟩ := h
  have hset : s.setAt l i = s.setCopy l i.w { c with val := i.val } := by
    simp only [State.setAt, hc, State.putCopy, hwin, mergeWord_all]
  rw [hset]
  refine ⟨rfl, fun j hj => ?_, fun k u hu hn => ?_, fun k u => ?_⟩
  · rw [List.mem_singleton.1 hj]
    exact hval i.val
  · exact copy_setCopy_other _ hw hu fun he => hn (by simp [he])
  · by_cases hk : copyKey l i.w = copyKey k u
    · have hcu : s.copy k u = some c := by rw [State.copy, ← hk]; exact hc
      have hsu : (s.setCopy l i.w { c with val := i.val }).copy k u = some { c with val := i.val } := by
        rw [State.copy, State.setCopy, hk, tget?_tset_self]
      rw [hcu, hsu]
      rfl
    · rw [copy_setCopy_ne _ _ hk]

/-- Every word rewritten. -/
theorem setAll_rewritten {items : List Item} (h : ∀ i ∈ items, s.Decides l i.w) (hsmall : ∀ i ∈ items, i.w < 2 ^ 50) (hnd : (items.map (·.w)).Nodup) :
    Rewritten items s (items.foldl (State.setAt l) s) := by
  induction items generalizing s with
  | nil => exact ⟨rfl, nofun, fun _ _ _ _ => rfl, fun _ _ => rfl⟩
  | cons i items ih =>
    obtain ⟨hhead, htail⟩ := List.nodup_cons.1 hnd
    have hw := hsmall i List.mem_cons_self
    obtain ⟨hf, hv, hc, hl⟩ := setAt_rewritten (h i List.mem_cons_self) hw
    have hother : ∀ j ∈ items, ∀ k, (s.setAt l i).copy k j.w = s.copy k j.w := fun j hj k =>
      hc k j.w (hsmall j (List.mem_cons_of_mem i hj)) fun he => hhead (List.mem_map.2 ⟨j, hj, by simpa using he⟩)
    obtain ⟨hf', hv', hc', hl'⟩ := ih (s := s.setAt l i) (fun j hj => (h j (List.mem_cons_of_mem i hj)).of_copies hf (hother j hj))
      (fun j hj => hsmall j (List.mem_cons_of_mem i hj)) htail
    refine ⟨?_, fun j hj => ?_, fun k u hu hn => ?_, fun k u => (hl' k u).trans (hl k u)⟩
    · rw [List.foldl_cons, hf', hf]
    · rw [List.foldl_cons]
      rcases List.mem_cons.1 hj with rfl | hj
      · exact (wordVal_of_copies hf' fun k => hc' k _ hw hhead).trans (hv _ (List.mem_singleton_self _))
      · exact hv' j hj
    · rw [List.map_cons, List.mem_cons, not_or] at hn
      exact (hc' k u hu hn.2).trans (hc k u hu (by simpa using hn.1))

theorem Rewritten.wordVal {items : List Item} (h : Rewritten items s y) (hu : u < 2 ^ 50) (hn : u ∉ items.map (·.w)) : y.wordVal u = s.wordVal u :=
  wordVal_of_copies h.frame fun k => h.copies k u hu hn

/-- The first level's copy is an owned word's value. -/
theorem decides_of_holds {x : Who} (h : Holds s x w) (hx : x.Proper) : s.Decides x.level w := by
  have hput := fun v => wordVal_putWord hx h v
  obtain ⟨-, ⟨c, hc, -, -, -, hwin⟩, -⟩ := h
  refine ⟨c, hc, hwin, fun v => ?_⟩
  have := hput v
  rwa [State.putWord, hc] at this

/-- The L2's copy is the value of a word that the die itself owns. -/
theorem decides_of_l2 {die : Nat} {e : OwnerEntry} {c : Copy} (he : s.ownerOf w = some e) (ha : e.agent = dieAgent die)
    (hc : s.copy (l2Level die) w = some c) (ho : c.owned = true) (hh : c.holder = 8) (hwin : c.win = none) : s.Decides (l2Level die) w :=
  ⟨c, hc, hwin, fun v => wordVal_of_agentData (s := s.setCopy (l2Level die) w { c with val := v }) he
    (ha ▸ agentData_of_l2 (copy_setCopy_self _ _ _) ho hh)⟩

end

end Sys2Proof.Machine
end

section
/-! The lane that acts for a group of lanes at one address, and the lanes that follow it (03 R71, R72, 08 R177, R178). -/

namespace Sys2Proof.Machine

/-! ### The way of an atomic -/

/-- A first attempt of thread t, among the lanes ts, at an aligned address of a Cached page; nothing holds it up. -/
structure Clear (s : State) (iss : Issue) (i : Instr) (o : Ops) (t n pa : Nat) (ts : List Nat) : Prop where
  issues : Issues s iss i o
  mem : t ∈ iss.threads
  fresh : (s.thread t).fresh
  aligned : n ∣ s.globalAddr iss t i o
  group : atomGroup i o iss (s.begun iss) t = ts
  apart : ∀ u ∈ ts ++ (s.begun iss).lowerLanes iss i o t, s.overlaps u ((itemsOf pa n 0).map (·.w)) = false
  acked : s.wbPending (s.who t).agent ((itemsOf pa n 0).map (·.w)) = false
  granted : ∀ w ∈ (itemsOf pa n 0).map (·.w), ∀ c, s.copy (s.who t).level w = some c → c.pend = false

/-- What follows an atomic's access: nothing, or a request for which the thread or its result waits. -/
def State.atomEnd (s : State) (o : Ops) (t : Nat) (z : Fmt) : Option Msg → State × Ret
  | none => (s, .next)
  | some m => if m.strict then (s.send m).1.waitMsg t (s.send m).2 else ((s.send m).1.awaitMsg o t (regsOf z) (s.send m).2, .next)

section
variable {s y : State} {iss : Issue} {i : Instr} {o : Ops} {f : AtomFn} {t n pa : Nat} {ts : List Nat}

/-- What neither the chain's start nor a translation changes. -/
theorem met_field {α : Sort _} {ctx va : Nat} {path : List Nat} {a : Access} {tg : Target ⊕ Nat}
    (h : (s.begun iss).translate ctx path va a = (y, tg)) (g : State → α) (hg : ∀ s, g s.untranslated = g s := by intro s; rfl)
    (hr : ∀ s, g s.rest = g s := by intro s; rfl) : g y = g s :=
  (translate_field h g hg).trans (rest_congr (begun_rest s iss) g hr)

theorem begun_overlaps (s : State) (iss : Issue) (t : Nat) (ws : List Nat) : (s.begun iss).overlaps t ws = s.overlaps t ws := by
  have hmsg : ∀ id, (s.begun iss).msg id = s.msg id := fun id => rest_congr (begun_rest s iss) (·.msg id) fun _ => rfl
  unfold State.overlaps
  simp only [begun_thread, hmsg]

theorem Clear.overlaps (h : Clear s iss i o t n pa ts) :
    ((ts ++ (s.begun iss).lowerLanes iss i o t).any fun u => (s.begun iss).overlaps u ((itemsOf pa n 0).map (·.w))) = false :=
  List.any_eq_false.2 fun u hu => by simp [begun_overlaps, h.apart u hu]

theorem Clear.wbPending (h : Clear s iss i o t n pa ts) : (s.begun iss).wbPending (s.who t).agent ((itemsOf pa n 0).map (·.w)) = false :=
  (rest_congr (begun_rest s iss) (·.wbPending (s.who t).agent ((itemsOf pa n 0).map fun j : Item => j.w)) fun _ => rfl).trans h.acked

theorem Clear.pending (h : Clear s iss i o t n pa ts) : (((itemsOf pa n 0).map (·.w)).any fun w =>
    match (s.begun iss).copy (s.who t).level w with | some c => c.pend | none => false) = false :=
  List.any_eq_false.2 fun w hw => by
    have hcopy : (s.begun iss).copy (s.who t).level w = s.copy (s.who t).level w := rest_congr (begun_rest s iss) (·.copy (s.who t).level w) fun _ => rfl
    rw [hcopy]
    cases hc : s.copy (s.who t).level w with
    | none => simp
    | some c => simp [h.granted w hw c hc]

/-- The first lane at the address acts. -/
theorem atomBody_of_lead {x : State} (h : Clear s iss i o t (f.size.width / 8) pa ts) (hlead : ts.head? = some t)
    (hmaps : x.translate (s.who t).ctx (tcPath (s.who t).core) (s.globalAddr iss t i o) { user := (s.who t).user, write := true } = (y, .inl (.cached pa)))
    {q : State} {m : Option Msg}
    (hat : y.atomAt (s.who t) (.cached pa) (s.globalAddr iss t i o) (f.size.width / 8) f.op f.size (atomLanesOf i o f.size iss (s.begun iss) ts) = (q, m)) :
    atomBody i o f iss (s.begun iss) x t = q.atomEnd o t f.size m := by
  have hpend := h.pending
  obtain ⟨hfailed, hphase, -⟩ := h.fresh
  simp only [atomBody, begun_thread, begun_who, begun_globalAddr h.issues h.mem, hfailed, hphase, sizeBytes, Nat.mod_eq_zero_of_dvd h.aligned, ne_eq, not_true,
    if_false, Nat.zero_ne_one, hmaps, h.group, hlead, h.overlaps, h.wbPending, hat, Bool.or_false, Bool.false_or]
  erw [hpend]
  cases m <;> rfl

/-- A later lane at the address has been acted for. -/
theorem atomBody_of_later {x : State} {u : Nat} (h : Clear s iss i o u (f.size.width / 8) pa (t :: ts)) (hne : t ≠ u)
    (hmaps : x.translate (s.who u).ctx (tcPath (s.who u).core) (s.globalAddr iss u i o) { user := (s.who u).user, write := true } = (y, .inl (.cached pa)))
    (hidle : (y.thread t).pending = []) : atomBody i o f iss (s.begun iss) x u = (y, .next) := by
  have hpend := h.pending
  have hhead : ¬ some t = some u := fun he => hne (Option.some.inj he)
  obtain ⟨hfailed, hphase, -⟩ := h.fresh
  simp only [atomBody, begun_thread, begun_who, begun_globalAddr h.issues h.mem, hfailed, hphase, sizeBytes, Nat.mod_eq_zero_of_dvd h.aligned, ne_eq, not_true,
    if_false, Nat.zero_ne_one, hmaps, h.group, h.overlaps, h.wbPending, Bool.or_false, Bool.false_or, List.head?_cons, List.headD_cons, hhead, hidle,
    List.head?_nil, not_false_eq_true, if_true]
  erw [hpend]
  rfl

end

/-! ### Lanes in turn -/

section
variable {s F : State} {iss : Issue} {i : Instr} {o : Ops} {t : Nat} {rest : List Nat} {body : Issue → Body}

theorem runThread_plain {b : Body} {s0 a a' : State} {n : Nat} {u : Nat} (hl : s0.latchTrap iss i o u = false) (hd : (s0.thread u).done = false)
    (hc : s0.preTrap iss i o n u = none) (hb : (s0.thread u).guard o.h = true → b s0 a u = (a', .next))
    (hn : (s0.thread u).guard o.h = false → a' = a) (l : List (Nat × Ret)) : runThread i o b s0 iss n (a, l) u = (a', (u, .next) :: l) := by
  simp only [runThread, hc, hl, hd, Bool.false_eq_true, if_false]
  cases hg : (s0.thread u).guard o.h with
  | true => rw [if_pos rfl, hb hg]
  | false => rw [if_neg Bool.false_ne_true, hn hg]

/-- Threads that leave the machine as it is. -/
theorem runThread_followers {b : Body} {s0 : State} {n : Nat} (us : List Nat) (hl : ∀ u ∈ us, s0.latchTrap iss i o u = false)
    (hd : ∀ u ∈ us, (s0.thread u).done = false) (hc : ∀ u ∈ us, s0.preTrap iss i o n u = none)
    (hb : ∀ u ∈ us, (s0.thread u).guard o.h = true → b s0 F u = (F, .next)) (l : List (Nat × Ret)) :
    us.foldl (runThread i o b s0 iss n) (F, l) = (F, (us.map fun u => (u, Ret.next)).reverse ++ l) := by
  induction us generalizing l with
  | nil => rfl
  | cons u us ih =>
    have hu := List.mem_cons_self (a := u) (l := us)
    rw [List.foldl_cons, runThread_plain (hl u hu) (hd u hu) (hc u hu) (hb u hu) (fun _ => rfl),
      ih (fun v hv => hl v (List.mem_cons_of_mem u hv)) (fun v hv => hd v (List.mem_cons_of_mem u hv)) (fun v hv => hc v (List.mem_cons_of_mem u hv))
        fun v hv => hb v (List.mem_cons_of_mem u hv)]
    simp

/-- The first guard-true thread acts, and leaves the others nothing to do. -/
theorem runThread_led {b : Body} {s0 a : State} {n : Nat} (us : List Nat) (hl : ∀ u ∈ us, s0.latchTrap iss i o u = false)
    (hd : ∀ u ∈ us, (s0.thread u).done = false) (hc : ∀ u ∈ us, s0.preTrap iss i o n u = none)
    (hg : us.filter (fun u => (s0.thread u).guard o.h) = t :: rest) (hlead : b s0 a t = (F, .next)) (hb : ∀ u ∈ rest, b s0 F u = (F, .next))
    (l : List (Nat × Ret)) : us.foldl (runThread i o b s0 iss n) (a, l) = (F, (us.map fun u => (u, Ret.next)).reverse ++ l) := by
  induction us generalizing l with
  | nil => cases hg
  | cons u us ih =>
    have hu := List.mem_cons_self (a := u) (l := us)
    have hl' : ∀ v ∈ us, _ := fun v hv => hl v (List.mem_cons_of_mem u hv)
    have hd' : ∀ v ∈ us, _ := fun v hv => hd v (List.mem_cons_of_mem u hv)
    have hc' : ∀ v ∈ us, _ := fun v hv => hc v (List.mem_cons_of_mem u hv)
    rw [List.foldl_cons]
    rw [List.filter_cons] at hg
    cases hguard : (s0.thread u).guard o.h with
    | true =>
      rw [if_pos hguard] at hg
      obtain ⟨rfl, hrest⟩ := List.cons.inj hg
      rw [runThread_plain (hl u hu) (hd u hu) (hc u hu) (fun _ => hlead) (fun hf => absurd (hguard.symm.trans hf) nofun),
        runThread_followers us hl' hd' hc' fun v hv hvg => hb v (hrest ▸ List.mem_filter.2 ⟨hv, hvg⟩)]
      simp
    | false =>
      have hng : ¬ (s0.thread u).guard o.h = true := by simp [hguard]
      rw [if_neg hng] at hg
      rw [runThread_plain (a' := a) (hl u hu) (hd u hu) (hc u hu) (fun ht => absurd ht hng) (fun _ => rfl), ih hl' hd' hc' hg]
      simp

/-- A group whose first guard-true thread acts for all. -/
theorem runGroup_led (h : Issues s iss i o) (hlatch : latchOf o = none) (hg : s.guarded iss o = t :: rest)
    (hlead : body iss (s.begun iss) (s.begun iss) t = (F, .next)) (hb : ∀ u ∈ rest, body iss (s.begun iss) F u = (F, .next)) :
    Still iss (fun _ th => th.past iss.pc (iss.next i)) F (runGroup i o body s) := by
  have hfold := runThread_led (b := body iss) (s0 := s.begun iss) (n := (s.chainAt iss).count) iss.threads h.latches (by simpa using h.undone)
    (by simpa using h.checks) (by simpa [State.guarded] using hg) hlead hb []
  have hr : runGroup i o body s = F.finish iss i o (s.chainAt iss) (iss.threads.map fun u => (u, Ret.next)) := by
    simp only [runGroup, h.issue, hlatch, hfold, List.append_nil, List.reverse_reverse]
  rw [hr]
  exact finish_still (g := fun _ => .next) h.nodup h.core (fun _ _ => rfl) (Or.inl fun _ _ => rfl)

end

end Sys2Proof.Machine
end

section
/-! What an atomic leaves where it runs: the words rewritten, each lane's fetched value in its destination (03 R71, R72, 08 R176). -/

namespace Sys2Proof.Machine

/-- The value that a thread's lane makes of the old one (08 R176). -/
def State.atomNext (s : State) (iss : Issue) (i : Instr) (o : Ops) (f : AtomFn) (u old : Nat) : Nat :=
  atomValue f.op f.size old (s.srcC iss u i o) (s.readFld iss u o.d (regsOf f.size))

/-- The words of an access. -/
abbrev wordsOf (pa n : Nat) : List Nat := (itemsOf pa n 0).map (·.w)

/-- The words of an atomic rewritten at a level, noted for the thread that acts. -/
def State.acted (q : State) (level : Nat) (x : Who) (va pa n v : Nat) : State :=
  ((itemsOf pa n v).foldl (State.setAt level) q).noted x va pa (wordsOf pa n)

/-- The values that the lanes of an atomic have fetched, in their destinations. -/
def State.fetched (q s : State) (iss : Issue) (i : Instr) (o : Ops) (f : AtomFn) (old : Nat) (ts : List Nat) : State :=
  q.writeAll iss o (regsOf f.size) (kWriter (s.begun iss) iss o) (fetches (s.atomNext iss i o f) old ts) ts

section
variable {s q : State} {iss : Issue} {i : Instr} {o : Ops} {f : AtomFn} {ts : List Nat}

/-- Lanes fetch what the lanes of the group below them left. -/
theorem fetches_congr {next next' : Nat → Nat → Nat} {u : Nat} (h : ∀ w ∈ ts, next w = next' w) (old : Nat) : fetches next old ts u = fetches next' old ts u :=
  List.foldl_ext _ _ _ fun a w hw => by rw [h w ((List.takeWhile_prefix _).subset hw)]

theorem writeAll_congr {n : Nat} {kw : Nat → Bool} {v v' : Nat → Nat} (h : ∀ u ∈ ts, v u = v' u) (q : State) :
    q.writeAll iss o n kw v ts = q.writeAll iss o n kw v' ts :=
  List.foldl_ext _ _ _ fun a u hu => by rw [h u hu]

theorem over_self (q : State) : q.over q = q := rfl

/-- Results change registers alone. -/
theorem writeAll_self (hl : Lands o) (n : Nat) (kw : Nat → Bool) (v : Nat → Nat) (ts : List Nat) (q : State) :
    q.writeAll iss o n kw v ts = q.over (q.writeAll iss o n kw v ts) :=
  (congrArg (State.writeAll · iss o n kw v ts) (over_self q).symm).trans (writeAll_over hl kw v ts fun _ _ => rfl)

/-- The lanes' operands are read before the group's instruction. -/
theorem atomRun_eq (h : Issues s iss i o) (hl : Lands o) (hf : f.size.isFloat = !f.size.isInt) (hts : ∀ u ∈ ts, u ∈ iss.threads) (hnd : ts.Nodup)
    (hq : ∀ u r, s.regKey u r = q.regKey u r) (old : Nat) : q.atomRun f.op f.size (atomLanesOf i o f.size iss (s.begun iss) ts) old =
      (q.over (q.fetched s iss i o f old ts), ts.foldl (fun old u => s.atomNext iss i o f u old) old) := by
  have hnext : ∀ u ∈ ts, (fun old => atomNew f.op f.size old ((s.begun iss).srcC iss u i o) ((s.begun iss).readFld iss u o.d (regsOf f.size))) =
      s.atomNext iss i o f u := fun u hu => funext fun old => by
    have hlatch : ∀ b, o.d = .b b → (s.begun iss).latchAt iss u b.toNat = true := fun b hb => by
      have := hl.latch
      rw [latchOf, hb] at this
      cases this
    rw [atomNew_eq_atomValue _ hf, begun_srcC h (hts u hu), begun_readFld hlatch]
    rfl
  have hlanes : atomLanesOf i o f.size iss (s.begun iss) ts = ts.map fun u =>
      { tid := u, c := (s.begun iss).srcC iss u i o, cmp := (s.begun iss).readFld iss u o.d (regsOf f.size)
        dest := ((s.begun iss).destOf o u (regsOf f.size) (kWriter (s.begun iss) iss o u)).1
        kdest := ((s.begun iss).destOf o u (regsOf f.size) (kWriter (s.begun iss) iss o u)).2 } := rfl
  rw [State.atomRun, hlanes, atomLanes_snd]
  dsimp only
  rw [deliverLanes_writeAll (s0 := s.begun iss) (iss := iss) (kw := kWriter (s.begun iss) iss o) hl f.op f.size (fun u => rfl) hnd old
    fun u r => (begun_regKey s iss u r).trans (hq u r)]
  refine Prod.ext ?_ (List.foldl_ext _ _ _ fun a u hu => congrFun (hnext u hu) a)
  exact (writeAll_congr (fun u _ => fetches_congr hnext old) q).trans (writeAll_self hl _ _ _ _ q)

theorem acted_over (q d : State) (level : Nat) (x : Who) (va pa n v : Nat) : (q.over d).acted level x va pa n v = (q.acted level x va pa n v).over d := by
  rw [State.acted, setAll_over, noted_over]
  rfl

/-- An atomic at words of a level that answers for them. -/
theorem ran_eq {pa n : Nat} (hn : n = 4 ∨ n = 8) (hd : n ∣ pa) (h : Issues s iss i o) (hl : Lands o) (hf : f.size.isFloat = !f.size.isInt)
    (hts : ∀ u ∈ ts, u ∈ iss.threads) (hnd : ts.Nodup) (hq : ∀ u r, s.regKey u r = q.regKey u r) (level : Nat) (x : Who) (va old : Nat) :
    (((q.atomRun f.op f.size (atomLanesOf i o f.size iss (s.begun iss) ts) old).1.putWords level (wordsOf pa n)
        (q.atomRun f.op f.size (atomLanesOf i o f.size iss (s.begun iss) ts) old).2).noted x va pa (wordsOf pa n)) =
      (q.acted level x va pa n (ts.foldl (fun old u => s.atomNext iss i o f u old) old)).over (q.fetched s iss i o f old ts) := by
  rw [atomRun_eq h hl hf hts hnd hq, putWords_setAt hn hd]
  exact acted_over q _ level x va pa n _

end

/-! ### What is left -/

section
variable {s y q r : State} {iss : Issue} {i : Instr} {o : Ops} {f : AtomFn} {x : Who} {level va pa n v : Nat}

theorem setAll_frame (hq : q = { y with copies := q.copies, evCount := q.evCount })
    (hp : (itemsOf pa n v).foldl (State.setAt level) q = { q with copies := ((itemsOf pa n v).foldl (State.setAt level) q).copies }) :
    q.acted level x va pa n v = { y.staleWindows x.core va pa (wordsOf pa n).length with
      copies := ((itemsOf pa n v).foldl (State.setAt level) q).copies, evCount := q.evCount }.modThread x.tid (·.notes (wordsOf pa n)) := by
  rw [State.acted, ← noted_eq]
  congr 1
  rw [hp, hq]

theorem acted_rotNow (hp : (itemsOf pa n v).foldl (State.setAt level) q = { q with copies := ((itemsOf pa n v).foldl (State.setAt level) q).copies }) (u : Nat) :
    ((q.acted level x va pa n v).thread u).rotNow = (q.thread u).rotNow := by
  have hthread : ((itemsOf pa n v).foldl (State.setAt level) q).thread u = q.thread u := by rw [hp]; rfl
  rw [State.acted, State.noted, (touches_staleWindows [] _ _ _ _ _).field (·.thread u), State.thread_modThread, hthread]
  split <;> rfl

/-- Each lane has its value, and nothing else has changed but copies, the words that the thread has written and what the windows lose. -/
theorem acted_wrote {t old : Nat} {val : Nat → Nat} (hval : ∀ u ∈ s.guarded iss o, val u = fetches (s.atomNext iss i o f) old (s.guarded iss o) u)
    (h : Issues s iss i o) (hl : Lands o) (ht : t ∈ iss.threads) (hx : x.tid = t)
    (hq : q = { y with copies := q.copies, evCount := q.evCount })
    (hp : (itemsOf pa n v).foldl (State.setAt level) q = { q with copies := ((itemsOf pa n v).foldl (State.setAt level) q).copies })
    (hst : Still iss (fun _ th => th.past iss.pc (iss.next i)) ((q.acted level x va pa n v).over (q.fetched s iss i o f old (s.guarded iss o))) r) :
    Wrote iss i o (regsOf f.size) (s.guarded iss o) val
      ({ y.staleWindows x.core va pa (wordsOf pa n).length with copies := r.copies, evCount := r.evCount }.modThread t fun th =>
        { th with written := (r.thread t).written }) r := by
  have hall : (q.acted level x va pa n v).over (q.fetched s iss i o f old (s.guarded iss o)) =
      (q.acted level x va pa n v).writeAll iss o (regsOf f.size) (kWriter (s.begun iss) iss o) val (s.guarded iss o) := by
    have hself : (q.acted level x va pa n v).over q = q.acted level x va pa n v := (acted_over q q level x va pa n v).symm
    exact (writeAll_over hl _ _ _ fun u _ => acted_rotNow hp u).symm.trans ((congrArg (State.fetched · s iss i o f old (s.guarded iss o)) hself).trans
      (writeAll_congr (fun u hu => (hval u hu).symm) _))
  rw [hall] at hst
  have hwrote : Wrote iss i o (regsOf f.size) (s.guarded iss o) val (q.acted level x va pa n v) r :=
    writes_wrote (fun u hu => (List.mem_filter.1 hu).1) (fun u hu => kWriter_eq h (List.mem_filter.1 hu).1)
      (writes iss o _ _ _ _ (guarded_nodup h) (fun u hu w hw => lane_inj h hu hw) (fun u hu => guarded_core h hu) (fun u hu w hw => kWriter_inj h hu hw) _) hst
  have hframe := setAll_frame (x := x) (va := va) hq hp
  have hcopies : r.copies = (q.acted level x va pa n v).copies := (rest_congr hwrote.kept.rest State.copies fun _ => rfl)
  have hcount : r.evCount = (q.acted level x va pa n v).evCount := (rest_congr hwrote.kept.rest State.evCount fun _ => rfl)
  have hwritten : (r.thread t).written = ((q.acted level x va pa n v).thread t).written := by
    have hthread := (congrArg Thread.written (hwrote.kept.threads t ht) :)
    refine hthread.trans ((Thread.past_written ..).trans ?_)
    split
    · next p hp => exact absurd hp (hl.pred p)
    · rfl
  have hmarked : (q.acted level x va pa n v) = { y.staleWindows x.core va pa (wordsOf pa n).length with
      copies := r.copies, evCount := r.evCount }.modThread t fun th => { th with written := (r.thread t).written } := by
    rw [hwritten, hcopies, hcount, hframe, hx]
    simp only [State.modThread, State.setThread, State.thread, tget_tset_self]
    rfl
  rwa [← hmarked]

end

end Sys2Proof.Machine
end

section
/-! A translation to a Cached page is kept by the caches of its path (20 R351, R352): an access by another lane finds it there. -/

namespace Sys2Proof.Machine

section
variable {s x y : State} {ctx l log va pa p : Nat} {path : List Nat} {a : Access}

/-- A leaf of a Cached page. -/
theorem targetOf_cached {q : Nat} (h : s.ownTarget p (targetOf l log va) = .cached q) : ∃ b, targetOf l log va = .cached b := by
  cases ht : targetOf l log va with
  | cached b => exact ⟨b, rfl⟩
  | _ => rw [ht] at h; cases h

theorem admitLeaf_cached {b : Nat} (h : targetOf l log va = .cached b) (s : State) (ctx : Nat) : s.admitLeaf ctx l log va = (s, none) := by
  simp only [State.admitLeaf, h, State.ownTarget]

/-- A translation by a leaf: its checks against the access, and its target (20 R351). -/
def State.byLeaf (s : State) (ctx l log va : Nat) (a : Access) : State × (Target ⊕ Nat) :=
  match leafCause l a with
  | 0 =>
    let y := s.admitLeaf ctx l log va
    match y.2 with
    | some c => (y.1, .inr c)
    | none =>
      let tg := y.1.ownTarget (ctx / 64) (targetOf l log va)
      (if tg.exists' then y.1 else { y.1 with hole := true }, .inl tg)
  | c => (s, .inr c)

theorem translate_of_hit {e : TcEntry} (hcan : canonical va = true) (h : (path.findSome? fun id => s.tcFind id ctx (va % 2 ^ 57)) = some e) :
    s.translate ctx path va a = s.byLeaf ctx e.leaf e.log (va % 2 ^ 57) a := by
  unfold State.translate
  rw [if_neg (by simp [hcan])]
  dsimp only
  -- the walk is left unevaluated
  generalize s.walkFrom (ctx / 64) (va % 2 ^ 57) 4 (ctx / 64 * 2 ^ 46 + (s.ctx ctx).ptroot % 2 ^ 46) = walk
  generalize va % 2 ^ 57 = v at h ⊢
  rw [h]
  rfl

/-- The entry that a walk to a leaf leaves in the caches of its path. -/
def walkEntry (ctx va l log : Nat) : TcEntry := { ctx := ctx, base := va - va % 2 ^ log, log := log, leaf := l }

theorem translate_of_miss (hcan : canonical va = true) (h : (path.findSome? fun id => s.tcFind id ctx (va % 2 ^ 57)) = none)
    (hw : s.walkFrom (ctx / 64) (va % 2 ^ 57) 4 (ctx / 64 * 2 ^ 46 + (s.ctx ctx).ptroot % 2 ^ 46) = .leaf l log) :
    s.translate ctx path va a = (path.foldl (fun s id => s.tcAdd id (walkEntry ctx (va % 2 ^ 57) l log)) s).byLeaf ctx l log (va % 2 ^ 57) a := by
  unfold State.translate
  rw [if_neg (by simp [hcan])]
  dsimp only
  rw [hw]
  generalize va % 2 ^ 57 = v at h ⊢
  rw [h]
  rfl

theorem translate_of_fault {c : Nat} (hcan : canonical va = true) (h : (path.findSome? fun id => s.tcFind id ctx (va % 2 ^ 57)) = none)
    (hw : s.walkFrom (ctx / 64) (va % 2 ^ 57) 4 (ctx / 64 * 2 ^ 46 + (s.ctx ctx).ptroot % 2 ^ 46) = .fault c) : s.translate ctx path va a = (s, .inr c) := by
  unfold State.translate
  rw [if_neg (by simp [hcan])]
  dsimp only
  rw [hw]
  generalize va % 2 ^ 57 = v at h ⊢
  rw [h]

/-- What a translation by a leaf of a Cached page has checked. -/
theorem cached_of_byLeaf (h : x.byLeaf ctx l log va a = (y, .inl (.cached pa))) (hy : y.hole = false) :
    leafCause l a = 0 ∧ y = x ∧ x.ownTarget (ctx / 64) (targetOf l log va) = .cached pa ∧ placed pa = true := by
  unfold State.byLeaf at h
  split at h
  · next hcause =>
    dsimp only at h
    split at h
    · cases h
    · obtain ⟨hstate, htarget⟩ := Prod.ext_iff.1 h
      have htarget := Sum.inl.inj htarget
      obtain ⟨b, hb⟩ := targetOf_cached htarget
      rw [admitLeaf_cached hb] at hstate htarget
      dsimp only at hstate htarget
      rw [htarget] at hstate
      have hplaced : (Target.cached pa).exists' = true := by
        by_contra hp
        rw [if_neg hp] at hstate
        rw [← hstate] at hy
        cases hy
      rw [if_pos hplaced] at hstate
      exact ⟨hcause, hstate.symm, htarget, hplaced⟩
  · cases h

/-- The newest entry stands first in the caches of its path. -/
theorem tcFind_tcAdd (s : State) (path : List Nat) (id : Nat) {e : TcEntry} (he : va / 2 ^ e.log = e.base / 2 ^ e.log) (hid : id ∈ path ∨ s.tcFind id e.ctx va = some e) :
    (path.foldl (fun s id => s.tcAdd id e) s).tcFind id e.ctx va = some e := by
  induction path generalizing s with
  | nil => exact hid.resolve_left List.not_mem_nil
  | cons k path ih =>
    refine ih (s.tcAdd k e) ?_
    have hsize : ∃ m, tcSize k = m + 1 := by
      unfold tcSize
      split
      · split <;> exact ⟨_, rfl⟩
      · split
        · exact ⟨_, rfl⟩
        · split <;> exact ⟨_, rfl⟩
    obtain ⟨m, hm⟩ := hsize
    by_cases hk : k = id
    · refine .inr ?_
      simp only [State.tcFind, State.tcAdd, hk ▸ hm, hk, tget_tset_self, List.take_succ_cons, List.find?_cons, he, and_self, decide_true]
    · refine hid.imp (fun hmem => (List.mem_cons.1 hmem).resolve_left fun h => hk h.symm) fun hfind => ?_
      simpa only [State.tcFind, State.tcAdd, tget_tset_ne _ _ _ hk] using hfind

/-- An address that has been translated to a Cached page is mapped by the caches of the path. -/
theorem mapped_of_translate {x : Who} {write : Bool}
    (h : s.translate x.ctx (tcPath x.core) va { user := x.user, write := write } = (y, .inl (.cached pa))) (hy : y.hole = false) : y.Mapped x va write pa := by
  have hpath : x.core ∈ tcPath x.core ∧ ∃ ids, tcPath x.core = x.core :: ids := by
    unfold tcPath
    split <;> exact ⟨List.mem_cons_self, _, rfl⟩
  obtain ⟨hcore, ids, hids⟩ := hpath
  have hcan : canonical va = true := by
    by_contra hno
    unfold State.translate at h
    rw [if_pos (by simp [hno])] at h
    cases h
  cases hhit : (tcPath x.core).findSome? fun id => s.tcFind id x.ctx (va % 2 ^ 57) with
  | some e =>
    rw [translate_of_hit hcan hhit] at h
    obtain ⟨hcause, rfl, htarget, hplaced⟩ := cached_of_byLeaf h hy
    exact ⟨hcan, hplaced, e, hhit, hcause, htarget⟩
  | none =>
    cases hwalk : s.walkFrom (x.ctx / 64) (va % 2 ^ 57) 4 (x.ctx / 64 * 2 ^ 46 + (s.ctx x.ctx).ptroot % 2 ^ 46) with
    | fault c =>
      rw [translate_of_fault hcan hhit hwalk] at h
      cases h
    | leaf l log =>
      rw [translate_of_miss hcan hhit hwalk] at h
      obtain ⟨hcause, rfl, htarget, hplaced⟩ := cached_of_byLeaf h hy
      have hbase : va % 2 ^ 57 / 2 ^ log = (va % 2 ^ 57 - va % 2 ^ 57 % 2 ^ log) / 2 ^ log := by
        have hsplit := Nat.div_add_mod (va % 2 ^ 57) (2 ^ log)
        have hsub : va % 2 ^ 57 - va % 2 ^ 57 % 2 ^ log = 2 ^ log * (va % 2 ^ 57 / 2 ^ log) := by omega
        rw [hsub, Nat.mul_div_cancel_left _ (Nat.two_pow_pos log)]
      have hfind := tcFind_tcAdd (va := va % 2 ^ 57) s (tcPath x.core) x.core (e := walkEntry x.ctx (va % 2 ^ 57) l log) hbase (.inl hcore)
      refine ⟨hcan, hplaced, walkEntry x.ctx (va % 2 ^ 57) l log, ?_, hcause, htarget⟩
      rw [hids, List.findSome?_cons, ← hids]
      erw [hfind]

end

end Sys2Proof.Machine
end

section
/-! A group of lanes whose first acts for all of them (03 R72), and atomics at words that the requester's level owns (03 R71, 08 R177, R178). -/

namespace Sys2Proof.Machine

/-! ### The state that an atomic leaves -/

/-- The machine without what an atomic at a level changes. -/
def State.bare (s : State) : State := { s.unsent.uncached with threads := [], regs := [], squads := [], evCount := [] }

section
variable {s y q d : State} {iss : Issue} {i : Instr} {o : Ops} {f : AtomFn} {x : Who} {level va pa n v t : Nat} {rest : List Nat}

theorem acted_bare (hq : q = { y with copies := q.copies, evCount := q.evCount })
    (hp : (itemsOf pa n v).foldl (State.setAt level) q = { q with copies := ((itemsOf pa n v).foldl (State.setAt level) q).copies }) (d : State) :
    ((q.acted level x va pa n v).over d).bare = y.bare := by
  have hstale := touches_staleWindows [] y x.core va pa (wordsOf pa n).length
  rw [setAll_frame hq hp]
  exact congrArg (fun z : State => { z with threads := [], regs := [], squads := [], evCount := [] }) hstale.frame

/-- What reads neither levels, requests, threads nor registers. -/
theorem bare_field {α : Sort _} {r s : State} (h : r.bare = s.bare) (g : State → α) (hg : ∀ s, g s.bare = g s := by intro s; rfl) : g r = g s := by
  rw [← hg r, h, hg]

theorem acted_pending (hq : q = { y with copies := q.copies, evCount := q.evCount })
    (hp : (itemsOf pa n v).foldl (State.setAt level) q = { q with copies := ((itemsOf pa n v).foldl (State.setAt level) q).copies }) (d : State) (u : Nat) :
    (((q.acted level x va pa n v).over d).thread u).pending = (y.thread u).pending := by
  have hstale : (y.staleWindows x.core va pa (wordsOf pa n).length).thread u = y.thread u := (touches_staleWindows [] y _ _ _ _).field (·.thread u)
  have hover : ((q.acted level x va pa n v).over d).thread u = (q.acted level x va pa n v).thread u := rfl
  rw [hover, setAll_frame hq hp, State.thread_modThread]
  split <;> exact (congrArg Thread.pending hstale :)

/-- The bytes of the words are the new value's. -/
theorem acted_byteAt (hn : n = 4 ∨ n = 8) (hd : n ∣ pa) (hpa : pa < 2 ^ 52) (hr : Rewritten (itemsOf pa n v) q ((itemsOf pa n v).foldl (State.setAt level) q)) :
    (∀ k < n, ((q.acted level x va pa n v).over d).byteAt (pa + k) = v / 256 ^ k % 256) ∧
      ∀ a < 2 ^ 52, a < pa ∨ pa + n ≤ a → ((q.acted level x va pa n v).over d).byteAt a = q.byteAt a := by
  have hsize : n = 1 ∨ n = 2 ∨ n = 4 ∨ n = 8 := by omega
  have hsame : ∀ a < 2 ^ 52, ((q.acted level x va pa n v).over d).byteAt a = ((itemsOf pa n v).foldl (State.setAt level) q).byteAt a :=
    fun a ha => noted_byteAt _ x va pa _ ha
  have hval : ∀ j ∈ itemsOf pa n v, ((itemsOf pa n v).foldl (State.setAt level) q).wordVal j.w = mergeWord j.bm j.val (q.wordVal j.w) := fun j hj => by
    rw [itemsOf_whole hn hd v j hj, mergeWord_all, hr.val j hj]
  obtain ⟨hin, hout⟩ := byteAt_of_words hval (fun u hu hm => hr.wordVal hu hm) hsize hd
  refine ⟨fun k hk => ?_, fun a ha hbeside => (hsame a ha).trans (hout a ha hbeside)⟩
  have hfit : pa + n ≤ 2 ^ 52 := by
    obtain ⟨m, rfl⟩ := hd
    rcases hn with rfl | rfl <;> omega
  exact (hsame _ (by omega)).trans (hin k hk)

/-! ### The group -/

/-- The guard-true lanes of a group aim at one address of a Cached page, and nothing holds any of them up. y: the state after translation. -/
structure Gathers (s y : State) (iss : Issue) (i : Instr) (o : Ops) (t n va pa : Nat) (rest : List Nat) : Prop where
  issues : Issues s iss i o
  guarded : s.guarded iss o = t :: rest
  clear : ∀ u ∈ t :: rest, Clear s iss i o u n pa (t :: rest)
  same : ∀ u ∈ t :: rest, s.globalAddr iss u i o = va ∧ (s.who u).ctx = (s.who t).ctx ∧ (s.who u).user = (s.who t).user
  maps : (s.begun iss).translate (s.who t).ctx (tcPath (s.who t).core) va { user := (s.who t).user, write := true } = (y, .inl (.cached pa))
  hole : y.hole = false
  idle : rest ≠ [] → (s.thread t).pending = []

theorem Mapped.of_same {x x' : Who} {write : Bool} (h : s.Mapped x va write pa) (hcore : x'.core = x.core) (hctx : x'.ctx = x.ctx) (huser : x'.user = x.user) :
    s.Mapped x' va write pa := by
  unfold State.Mapped at h ⊢
  rwa [hcore, hctx, huser]

theorem Gathers.mem (h : Gathers s y iss i o t n va pa rest) {u : Nat} (hu : u ∈ t :: rest) : u ∈ iss.threads :=
  (List.mem_filter.1 (h.guarded ▸ hu : u ∈ s.guarded iss o)).1

theorem Gathers.nodup (h : Gathers s y iss i o t n va pa rest) : (t :: rest).Nodup := h.guarded ▸ guarded_nodup h.issues

/-- The atomic runs at a level, once for the group. -/
theorem Gathers.runs {old : Nat} (h : Gathers s y iss i o t (f.size.width / 8) va pa rest) (hexec : exec i s = done (runGroup i o (atomBody i o f) s))
    (hl : Lands o) (hq : q = { y with copies := q.copies, evCount := q.evCount })
    (hp : (itemsOf pa (f.size.width / 8) v).foldl (State.setAt level) q =
      { q with copies := ((itemsOf pa (f.size.width / 8) v).foldl (State.setAt level) q).copies })
    (hat : y.atomAt (s.who t) (.cached pa) va (f.size.width / 8) f.op f.size (atomLanesOf i o f.size iss (s.begun iss) (t :: rest)) =
      ((q.acted level (s.who t) va pa (f.size.width / 8) v).over (q.fetched s iss i o f old (t :: rest)), none)) :
    ∃ r, exec i s = .next r ∧ Still iss (fun _ th => th.past iss.pc (iss.next i))
      ((q.acted level (s.who t) va pa (f.size.width / 8) v).over (q.fetched s iss i o f old (t :: rest))) r := by
  have ht : t ∈ t :: rest := List.mem_cons_self
  obtain ⟨rfl, -, -⟩ := h.same t ht
  have hlead : atomBody i o f iss (s.begun iss) (s.begun iss) t = (_, .next) := atomBody_of_lead (h.clear t ht) rfl h.maps hat
  generalize hF : (q.acted level (s.who t) (s.globalAddr iss t i o) pa (f.size.width / 8) v).over (q.fetched s iss i o f old (t :: rest)) = F at hlead ⊢
  have hbare : F.bare = y.bare := hF ▸ acted_bare hq hp _
  have hmapped : F.Mapped (s.who t) (s.globalAddr iss t i o) true pa := (bare_field hbare (·.Mapped (s.who t) (s.globalAddr iss t i o) true pa)).symm ▸ mapped_of_translate h.maps h.hole
  have hlater : ∀ u ∈ rest, atomBody i o f iss (s.begun iss) F u = (F, .next) := fun u hu => by
    have hmem : u ∈ t :: rest := List.mem_cons_of_mem t hu
    obtain ⟨hva, hctx, huser⟩ := h.same u hmem
    have hcore : (s.who u).core = (s.who t).core := (h.issues.core u (h.mem hmem)).trans (h.issues.core t (h.mem ht)).symm
    have hne : t ≠ u := fun he => (List.nodup_cons.1 h.nodup).1 (he ▸ hu)
    have hidle : (F.thread t).pending = [] := by
      rw [← hF, acted_pending hq hp]
      have hthread : y.thread t = s.thread t := (translate_field h.maps (·.thread t)).trans (begun_thread s iss t)
      rw [hthread, h.idle (List.ne_nil_of_mem hu)]
    exact atomBody_of_later (h.clear u hmem) hne (hva.symm ▸ translate_of_mapped (Mapped.of_same hmapped hcore hctx huser)) hidle
  have hst := runGroup_led h.issues hl.latch h.guarded hlead hlater
  have hhole : F.hole = false := (bare_field hbare State.hole).trans h.hole
  exact ⟨_, hexec.trans (done_of_hole (hst.hole.trans hhole)), hst⟩

/-- An atomic that runs at a level whose copies are its words' values: q is the state in which it does. -/
theorem Gathers.ran {val : Nat → Nat} {old : Nat} (h : Gathers s y iss i o t (f.size.width / 8) va pa rest)
    (hexec : exec i s = done (runGroup i o (atomBody i o f) s)) (hl : Lands o)
    (hsize : f.size.isFloat = !f.size.isInt ∧ (f.size.width / 8 = 4 ∨ f.size.width / 8 = 8)) (hpa : pa < 2 ^ 52) (hd : f.size.width / 8 ∣ pa)
    (hq : q = { y with copies := q.copies, evCount := q.evCount }) (hdecides : ∀ j ∈ itemsOf pa (f.size.width / 8) 0, q.Decides level j.w)
    (hat : y.atomAt (s.who t) (.cached pa) va (f.size.width / 8) f.op f.size (atomLanesOf i o f.size iss (s.begun iss) (t :: rest)) =
      (((q.atomRun f.op f.size (atomLanesOf i o f.size iss (s.begun iss) (t :: rest)) old).1.putWords level (wordsOf pa (f.size.width / 8))
        (q.atomRun f.op f.size (atomLanesOf i o f.size iss (s.begun iss) (t :: rest)) old).2).noted (s.who t) va pa (wordsOf pa (f.size.width / 8)), none))
    (hval : ∀ u ∈ t :: rest, val u = fetches (s.atomNext iss i o f) old (t :: rest) u) :
    ∃ r, exec i s = .next r ∧
      (∀ k < f.size.width / 8, r.byteAt (pa + k) = (t :: rest).foldl (fun old u => s.atomNext iss i o f u old) old / 256 ^ k % 256) ∧
      (∀ a < 2 ^ 52, a < pa ∨ pa + f.size.width / 8 ≤ a → r.byteAt a = q.byteAt a) ∧ r.evCount = q.evCount ∧
      (∀ l u, (r.copy l u).map Copy.blank = (q.copy l u).map Copy.blank) ∧
      Wrote iss i o (regsOf f.size) (t :: rest) val
        ({ y.staleWindows (s.who t).core va pa ((f.size.width / 8 + 3) / 4) with copies := r.copies, evCount := r.evCount }.modThread t fun th =>
          { th with written := (r.thread t).written }) r := by
  obtain ⟨hf, hn⟩ := hsize
  have hsizes : f.size.width / 8 = 1 ∨ f.size.width / 8 = 2 ∨ f.size.width / 8 = 4 ∨ f.size.width / 8 = 8 := by omega
  have hkey : ∀ u m, s.regKey u m = q.regKey u m := fun u m => by
    have hy := (translate_field h.maps (·.regKey u m)).trans (begun_regKey s iss u m)
    rw [hq]
    exact hy.symm
  have hr : ∀ v, Rewritten (itemsOf pa (f.size.width / 8) v) q ((itemsOf pa (f.size.width / 8) v).foldl (State.setAt level) q) := fun v =>
    setAll_rewritten (mem_itemsOf (P := (q.Decides level ·)) hsizes hdecides) (itemsOf_small hsizes hd hpa) (itemsOf_distinct hsizes)
  have hat := hat.trans (congrArg (·, none) (ran_eq hn hd h.issues hl hf (fun u hu => h.mem hu) h.nodup hkey level (s.who t) va old))
  generalize hnew : (t :: rest).foldl (fun old u => s.atomNext iss i o f u old) old = new at hat ⊢
  obtain ⟨r, hexecr, hst⟩ := h.runs hexec hl hq (hr _).frame hat
  obtain ⟨hin, hout⟩ := acted_byteAt (x := s.who t) (va := va) (d := q.fetched s iss i o f old (t :: rest)) hn hd hpa (hr new)
  have hframe := setAll_frame (x := s.who t) (va := va) hq (hr new).frame
  have hcopies : r.copies = ((itemsOf pa (f.size.width / 8) new).foldl (State.setAt level) q).copies :=
    (rest_congr hst.kept.rest State.copies fun _ => rfl).trans (congrArg State.copies hframe :)
  refine ⟨r, hexecr, fun k hk => ?_, fun a ha hbeside => ?_, ?_, fun l u => ?_, ?_⟩
  · rw [byteAt_of_rest hst.kept.rest hst.core_plain, hin k hk]
  · rw [byteAt_of_rest hst.kept.rest hst.core_plain, hout a ha hbeside]
  · exact (rest_congr hst.kept.rest State.evCount fun _ => rfl).trans (congrArg State.evCount hframe :)
  · rw [State.copy, hcopies]
    exact (hr new).flags l u
  · have hlen : (wordsOf pa (f.size.width / 8)).length = (f.size.width / 8 + 3) / 4 := by
      rw [wordsOf, itemsOf_words hsizes, List.length_map, List.length_range]
    rw [← h.guarded] at hst hval ⊢
    rw [← hlen]
    exact acted_wrote hval h.issues hl (h.mem List.mem_cons_self) rfl hq (hr new).frame hst

/-- The words lie at the requester's first level. -/
theorem atomAt_here {ls : List AtomLane} (hown : y.ownsHere x (wordsOf pa n) = true) (op : AtomOp) (z : Fmt) : y.atomAt x (.cached pa) va n op z ls =
    (((y.atomRun op z ls (y.getWords x.level (wordsOf pa n))).1.putWords x.level (wordsOf pa n) (y.atomRun op z ls (y.getWords x.level (wordsOf pa n))).2).noted
      x va pa (wordsOf pa n), none) := by
  simp only [State.atomAt, hown, if_true]
  rfl

theorem ownsHere_of_holds (h : ∀ j ∈ itemsOf pa n 0, Holds y x j.w) : y.ownsHere x (wordsOf pa n) = true := by
  refine List.all_eq_true.2 fun w hw => ?_
  obtain ⟨j, hj, rfl⟩ := List.mem_map.1 hw
  obtain ⟨c, hc, hown, -⟩ := owned_of_holds (h j hj)
  simp [hc, hown]

/-- An atomic at words that the requester's first level owns. -/
theorem Gathers.held {val : Nat → Nat} (h : Gathers s y iss i o t (f.size.width / 8) va pa rest)
    (hexec : exec i s = done (runGroup i o (atomBody i o f) s)) (hl : Lands o)
    (hsize : f.size.isFloat = !f.size.isInt ∧ (f.size.width / 8 = 4 ∨ f.size.width / 8 = 8)) (hpa : pa < 2 ^ 52) (hd : f.size.width / 8 ∣ pa)
    (hheld : ∀ j ∈ itemsOf pa (f.size.width / 8) 0, Holds y (s.who t) j.w)
    (hval : ∀ u ∈ t :: rest, val u = fetches (s.atomNext iss i o f) (bytesOf pa (f.size.width / 8) ((itemsOf pa (f.size.width / 8) 0).map fun j => y.wordVal j.w))
      (t :: rest) u) :
    ∃ r, exec i s = .next r ∧
      (∀ k < f.size.width / 8, r.byteAt (pa + k) = (t :: rest).foldl (fun old u => s.atomNext iss i o f u old)
        (bytesOf pa (f.size.width / 8) ((itemsOf pa (f.size.width / 8) 0).map fun j => y.wordVal j.w)) / 256 ^ k % 256) ∧
      (∀ a < 2 ^ 52, a < pa ∨ pa + f.size.width / 8 ≤ a → r.byteAt a = y.byteAt a) ∧
      Wrote iss i o (regsOf f.size) (t :: rest) val
        ({ y.staleWindows (s.who t).core va pa ((f.size.width / 8 + 3) / 4) with copies := r.copies }.modThread t fun th =>
          { th with written := (r.thread t).written }) r := by
  have hx := who_proper s t
  have hget : y.getWords (s.who t).level (wordsOf pa (f.size.width / 8)) =
      bytesOf pa (f.size.width / 8) ((itemsOf pa (f.size.width / 8) 0).map fun j => y.wordVal j.w) :=
    getWords_eq hsize.2 hd fun j hj => by
      obtain ⟨c, hc, hvc⟩ := (hheld j hj).wordVal hx
      obtain ⟨-, ⟨c', hc', -, -, -, hwin⟩, -⟩ := hheld j hj
      obtain rfl : c = c' := Option.some.inj (hc.symm.trans hc')
      exact ⟨c, hc, by rw [State.copyVal, hwin]; exact hvc.symm⟩
  have hat := atomAt_here (va := va) (ls := atomLanesOf i o f.size iss (s.begun iss) (t :: rest)) (ownsHere_of_holds hheld) f.op f.size
  rw [hget] at hat
  obtain ⟨r, hexecr, hin, hout, hcount, -, hwrote⟩ :=
    h.ran hexec hl hsize hpa hd rfl (fun j hj => decides_of_holds (hheld j hj) hx) hat hval
  have hsame : r.evCount = (y.staleWindows (s.who t).core va pa ((f.size.width / 8 + 3) / 4)).evCount :=
    hcount.trans ((touches_staleWindows [] y _ _ _ _).field State.evCount).symm
  rw [hsame] at hwrote
  exact ⟨r, hexecr, hin, hout, hwrote⟩

end

end Sys2Proof.Machine
end

section
/-! An atomic at words that the requester's die owns (03 R61, R71): it runs at the L2. -/

namespace Sys2Proof.Machine

/-- The requester's die owns a word, at its L2 or in the L1 of one of its clusters; the requester's own level, not the L2, may be without it. -/
structure DieOwns (s : State) (x : Who) (w : Nat) : Prop where
  apart : x.level ≠ l2Level (dieOf x.core)
  agent : x.agent = dieAgent (dieOf x.core)
  home : ∃ e, s.ownerOf w = some e ∧ e.agent = x.agent
  l2 : ∃ d, s.copy (l2Level (dieOf x.core)) w = some d ∧ d.owned = true ∧ d.win = none ∧
    (d.holder = 8 ∨ d.holder < 8 ∧ ∃ c, s.copy (l1Level (dieOf x.core * 8 + d.holder)) w = some c ∧ c.owned = true ∧ c.pend = false ∧ c.win = none)
  first : ∀ c, s.copy x.level w = some c → c.pend = false ∧ c.win = none

/-- The words' data come to the L2, and leave the requester's level. -/
def State.pulled (s : State) (x : Who) (w : Nat) : State := (s.pullToL2 (dieOf x.core) w).dropAt x.level w

/-- y is s but that the die itself holds the words, with their values. -/
structure Pulled (ws : List Nat) (x : Who) (s y : State) : Prop where
  frame : y = { s with copies := y.copies }
  copies : ∀ l u, u < 2 ^ 50 → u ∉ ws → y.copy l u = s.copy l u
  gone : ∀ w ∈ ws, y.copy x.level w = none
  here : ∀ w ∈ ws, ∃ d, y.copy (l2Level (dieOf x.core)) w = some d ∧ d.owned = true ∧ d.holder = 8 ∧ d.win = none ∧ d.val = s.wordVal w

section
variable {s y : State} {x : Who} {l u w : Nat} {ws : List Nat}

/-- A copy outside a window is dropped alone. -/
theorem dropAt_frame (h : ∀ c, s.copy l w = some c → c.win = none) : s.dropAt l w = { s with copies := (s.dropAt l w).copies } := by
  unfold State.dropAt
  cases hc : s.copy l w with
  | none => rfl
  | some c =>
    simp only [h c hc]
    split <;> rfl

theorem copy_of_dropAt {k v : Nat} {c : Copy} (h : (s.dropAt l w).copy k v = some c) : s.copy k v = some c := by
  by_contra hne
  cases hc : s.copy k v with
  | none => exact absurd ((copy_dropAt_none hc l w).symm.trans h) nofun
  | some d =>
    rcases dropAt_copies s l w with ⟨hsame, -⟩ | hdel
    · rw [State.copy, hsame] at h
      exact hne h
    · rw [State.copy, hdel, tget?_tdel] at h
      split at h
      · cases h
      · exact hne h

theorem copy_dropAt_apart {k : Nat} (hw : w < 2 ^ 50) (hu : u < 2 ^ 50) (h : w ≠ u) : (s.dropAt l w).copy k u = s.copy k u :=
  copy_dropAt_other fun hk => h (copyKey_inj hw hu hk).2

/-- The die's data is the word's value. -/
theorem DieOwns.data (h : DieOwns s x w) : s.dieData (dieOf x.core) w = some (s.wordVal w) := by
  obtain ⟨-, hagent, ⟨e, he, hea⟩, ⟨d, hd, hown, -, hholder⟩, -⟩ := h
  obtain ⟨v, hv⟩ : ∃ v, s.dieData (dieOf x.core) w = some v := by
    rcases hholder with h8 | ⟨hlt, c, hc, hco, -⟩
    · exact ⟨d.val, by simp [State.dieData, hd, hown, h8]⟩
    · exact ⟨s.copyVal c, by simp [State.dieData, hd, hown, hc, hco, Nat.ne_of_lt hlt]⟩
  obtain ⟨h8, hdie⟩ := dieAgent_place (dieOf x.core)
  have hdata : s.agentData e.agent w = some v := by
    rw [hea, hagent, agentData_eq]
    simp [State.heldData, h8, hdie, hv]
  rw [hv, wordVal_of_agentData he hdata]

/-- A cluster's copy is dropped, and the die itself holds the word. -/
theorem pullToL2_eq (h : DieOwns s x w) : ∃ (z : State) (d : Copy), s.pullToL2 (dieOf x.core) w = z.setCopy (l2Level (dieOf x.core)) w d ∧
    z = { s with copies := z.copies } ∧ (∀ l c, z.copy l w = some c → s.copy l w = some c) ∧
    (∀ l u, w < 2 ^ 50 → u < 2 ^ 50 → w ≠ u → z.copy l u = s.copy l u) ∧ d.owned = true ∧ d.holder = 8 ∧ d.win = none ∧ d.val = s.wordVal w := by
  have hdata := h.data
  obtain ⟨-, -, -, ⟨d, hd, hown, hwin, hholder⟩, -⟩ := h
  have hpull : s.pullToL2 (dieOf x.core) w = (if d.holder < 8 then s.dropAt (l1Level (dieOf x.core * 8 + d.holder)) w else s).setCopy
      (l2Level (dieOf x.core)) w { d with val := s.wordVal w, holder := 8 } := by
    simp only [State.pullToL2, hdata, hd]
  refine ⟨_, _, hpull, ?_, fun l c hc => ?_, fun l u hw hu hne => ?_, hown, rfl, hwin, rfl⟩
  · rcases hholder with h8 | ⟨hlt, c, hc, -, -, hcw⟩
    · rw [if_neg (by omega)]
    · rw [if_pos hlt]
      exact dropAt_frame fun c' hc' => by rw [← Option.some.inj (hc.symm.trans hc')]; exact hcw
  · split at hc
    · exact copy_of_dropAt hc
    · exact hc
  · split
    · exact copy_dropAt_apart hw hu hne
    · rfl

/-- One word. -/
theorem pulled_one (h : DieOwns s x w) (hw : w < 2 ^ 50) : Pulled [w] x s (s.pulled x w) := by
  obtain ⟨z, d, hpull, hz, hsub, hother, hown, hholder, hwin, hval⟩ := pullToL2_eq h
  have hne : copyKey (l2Level (dieOf x.core)) w ≠ copyKey x.level w := fun hk => h.apart (copyKey_inj hw hw hk).1.symm
  have hfirst : ∀ c, (z.setCopy (l2Level (dieOf x.core)) w d).copy x.level w = some c → c.pend = false ∧ c.win = none := fun c hc => by
    rw [copy_setCopy_ne _ _ hne] at hc
    exact h.first c (hsub _ _ hc)
  have hframe := dropAt_frame fun c hc => (hfirst c hc).2
  rw [State.pulled, hpull]
  refine ⟨?_, fun l u hu hn => ?_, fun v hv => ?_, fun v hv => ?_⟩
  · rw [hframe, hz]
    rfl
  · have hwu : w ≠ u := fun he => hn (by simp [he])
    rw [copy_dropAt_apart hw hu hwu, copy_setCopy_other d hw hu hwu, hother l u hw hu hwu]
  · rw [List.mem_singleton.1 hv]
    exact copy_dropAt_self fun c hc => (hfirst c hc).1
  · rw [List.mem_singleton.1 hv]
    exact ⟨d, (copy_dropAt_ne h.apart).trans (copy_setCopy_self _ _ _), hown, hholder, hwin, hval⟩

theorem DieOwns.of_copies (h : DieOwns s x u) (hy : y = { s with copies := y.copies }) (hc : ∀ k, y.copy k u = s.copy k u) : DieOwns y x u := by
  obtain ⟨hapart, hagent, hhome, hl2, hfirst⟩ := h
  have howner : y.ownerOf u = s.ownerOf u := by rw [hy]; rfl
  simp only [← hc, ← howner] at hhome hl2 hfirst
  exact ⟨hapart, hagent, hhome, hl2, hfirst⟩

/-- Every word. -/
theorem pulled_all (h : ∀ w ∈ ws, DieOwns s x w) (hsmall : ∀ w ∈ ws, w < 2 ^ 50) (hnd : ws.Nodup) : Pulled ws x s (ws.foldl (·.pulled x ·) s) := by
  induction ws generalizing s with
  | nil => exact ⟨rfl, fun _ _ _ _ => rfl, nofun, nofun⟩
  | cons w ws ih =>
    obtain ⟨hhead, htail⟩ := List.nodup_cons.1 hnd
    have hw := hsmall w List.mem_cons_self
    obtain ⟨hf, hc, hg, hh⟩ := pulled_one (h w List.mem_cons_self) hw
    have hother : ∀ v ∈ ws, ∀ k, (s.pulled x w).copy k v = s.copy k v := fun v hv k =>
      hc k v (hsmall v (List.mem_cons_of_mem w hv)) fun he => hhead (List.mem_singleton.1 he ▸ hv)
    obtain ⟨hf', hc', hg', hh'⟩ := ih (s := s.pulled x w) (fun v hv => (h v (List.mem_cons_of_mem w hv)).of_copies hf (hother v hv))
      (fun v hv => hsmall v (List.mem_cons_of_mem w hv)) htail
    rw [List.foldl_cons]
    refine ⟨?_, fun l u hu hn => ?_, fun v hv => ?_, fun v hv => ?_⟩
    · rw [hf', hf]
    · rw [List.mem_cons, not_or] at hn
      exact (hc' l u hu hn.2).trans (hc l u hu (by simpa using hn.1))
    · rcases List.mem_cons.1 hv with rfl | hv
      · exact (hc' _ _ hw hhead).trans (hg _ (List.mem_singleton_self _))
      · exact hg' v hv
    · rcases List.mem_cons.1 hv with rfl | hv
      · obtain ⟨d, hd, hrest⟩ := hh _ (List.mem_singleton_self _)
        exact ⟨d, (hc' _ _ hw hhead).trans hd, hrest⟩
      · obtain ⟨d, hd, hown, hholder, hwin, hval⟩ := hh' v hv
        exact ⟨d, hd, hown, hholder, hwin, hval.trans (wordVal_of_copies hf (hother v hv))⟩

/-- The words' values are as they were. -/
theorem Pulled.wordVal (h : Pulled ws x s y) (howns : ∀ w ∈ ws, DieOwns s x w) (hu : u < 2 ^ 50) : y.wordVal u = s.wordVal u := by
  by_cases hm : u ∈ ws
  · obtain ⟨d, hd, hown, hholder, -, hval⟩ := h.here u hm
    obtain ⟨-, hagent, ⟨e, he, hea⟩, -, -⟩ := howns u hm
    have howner : y.ownerOf u = s.ownerOf u := by rw [h.frame]; rfl
    rw [wordVal_of_agentData (howner.trans he) (by rw [hea, hagent]; exact agentData_of_l2 hd hown hholder), hval]
  · exact wordVal_of_copies h.frame fun k => h.copies k u hu hm

/-- The L2's copies are the words' values. -/
theorem Pulled.decides (h : Pulled ws x s y) (howns : ∀ w ∈ ws, DieOwns s x w) (hw : w ∈ ws) : y.Decides (l2Level (dieOf x.core)) w := by
  obtain ⟨d, hd, hown, hholder, hwin, -⟩ := h.here w hw
  obtain ⟨-, hagent, ⟨e, he, hea⟩, -, -⟩ := howns w hw
  have howner : y.ownerOf w = s.ownerOf w := by rw [h.frame]; rfl
  exact decides_of_l2 (howner.trans he) (hea.trans hagent) hd hown hholder hwin

end

/-! ### The atomic -/

section
variable {s y : State} {iss : Issue} {i : Instr} {o : Ops} {f : AtomFn} {x : Who} {va pa n t : Nat} {ls : List AtomLane}

theorem ownsDie_of_dieOwns (hm : isMarl x.core = false) (h : ∀ w ∈ wordsOf pa n, DieOwns y x w) : y.ownsDie x (wordsOf pa n) = true := by
  have hall : ((wordsOf pa n).all fun w => match y.copy (l2Level (dieOf x.core)) w with | some c => c.owned | none => false) = true :=
    List.all_eq_true.2 fun w hw => by
      obtain ⟨d, hd, hown, -⟩ := (h w hw).l2
      simp [hd, hown]
  rw [State.ownsDie, hm]
  exact hall

/-- The words lie with the requester's die. -/
theorem atomAt_die (hhere : y.ownsHere x (wordsOf pa n) = false) (hm : isMarl x.core = false) (hdie : y.ownsDie x (wordsOf pa n) = true) (op : AtomOp) (z : Fmt) :
    y.atomAt x (.cached pa) va n op z ls =
      (((((wordsOf pa n).foldl (·.pulled x ·) (y.count x.core 6 1)).atomRun op z ls
          (((wordsOf pa n).foldl (·.pulled x ·) (y.count x.core 6 1)).getWords (l2Level (dieOf x.core)) (wordsOf pa n))).1.putWords
        (l2Level (dieOf x.core)) (wordsOf pa n)
        (((wordsOf pa n).foldl (·.pulled x ·) (y.count x.core 6 1)).atomRun op z ls
          (((wordsOf pa n).foldl (·.pulled x ·) (y.count x.core 6 1)).getWords (l2Level (dieOf x.core)) (wordsOf pa n))).2).noted x va pa (wordsOf pa n), none) := by
  simp only [State.atomAt, hhere, hm, hdie, Bool.false_eq_true, if_false, if_true]
  rfl

theorem Gathers.atDie {val : Nat → Nat} (h : Gathers s y iss i o t (f.size.width / 8) va pa [])
    (hexec : exec i s = done (runGroup i o (atomBody i o f) s)) (hl : Lands o)
    (hsize : f.size.isFloat = !f.size.isInt ∧ (f.size.width / 8 = 4 ∨ f.size.width / 8 = 8)) (hpa : pa < 2 ^ 52) (hd : f.size.width / 8 ∣ pa)
    (hm : isMarl (s.who t).core = false) (hhere : y.ownsHere (s.who t) (wordsOf pa (f.size.width / 8)) = false)
    (howns : ∀ w ∈ wordsOf pa (f.size.width / 8), DieOwns y (s.who t) w)
    (hval : val t = bytesOf pa (f.size.width / 8) ((wordsOf pa (f.size.width / 8)).map y.wordVal)) :
    ∃ r, exec i s = .next r ∧
      (∀ k < f.size.width / 8, r.byteAt (pa + k) = s.atomNext iss i o f t (val t) / 256 ^ k % 256) ∧
      (∀ a < 2 ^ 52, a < pa ∨ pa + f.size.width / 8 ≤ a → r.byteAt a = y.byteAt a) ∧
      (∀ w ∈ wordsOf pa (f.size.width / 8), r.copy (s.who t).level w = none ∧
        ∃ d, r.copy (l2Level (dieOf (s.who t).core)) w = some d ∧ d.owned = true ∧ d.holder = 8) ∧
      Wrote iss i o (regsOf f.size) [t] val
        ({ y.staleWindows (s.who t).core va pa ((f.size.width / 8 + 3) / 4) with copies := r.copies, evCount := r.evCount }.modThread t fun th =>
          { th with written := (r.thread t).written }) r := by
  have hsizes : f.size.width / 8 = 1 ∨ f.size.width / 8 = 2 ∨ f.size.width / 8 = 4 ∨ f.size.width / 8 = 8 := by omega
  have hcount : ∀ w, DieOwns y (s.who t) w → DieOwns (y.count (s.who t).core 6 1) (s.who t) w := fun w ⟨h1, h2, h3, h4, h5⟩ => ⟨h1, h2, h3, h4, h5⟩
  have hsmall : ∀ w ∈ wordsOf pa (f.size.width / 8), w < 2 ^ 50 := fun w hw => by
    obtain ⟨j, hj, rfl⟩ := List.mem_map.1 hw
    exact itemsOf_small hsizes hd hpa j hj
  have howns' := fun w hw => hcount w (howns w hw)
  have hpulled := pulled_all howns' hsmall (itemsOf_distinct hsizes)
  have hat := atomAt_die (va := va) (ls := atomLanesOf i o f.size iss (s.begun iss) [t]) hhere hm (ownsDie_of_dieOwns hm howns) f.op f.size
  generalize hq : (wordsOf pa (f.size.width / 8)).foldl (·.pulled (s.who t) ·) (y.count (s.who t).core 6 1) = q at hpulled hat
  have hframe : q = { y with copies := q.copies, evCount := q.evCount } := by
    rw [hpulled.frame]
    rfl
  have hget : q.getWords (l2Level (dieOf (s.who t).core)) (wordsOf pa (f.size.width / 8)) =
      bytesOf pa (f.size.width / 8) ((itemsOf pa (f.size.width / 8) 0).map fun j => y.wordVal j.w) :=
    getWords_eq hsize.2 hd fun j hj => by
      obtain ⟨d, hd, -, -, hwin, hv⟩ := hpulled.here j.w (List.mem_map_of_mem hj)
      exact ⟨d, hd, by rw [State.copyVal, hwin]; exact hv⟩
  rw [hget] at hat
  have hval' : val t = bytesOf pa (f.size.width / 8) ((itemsOf pa (f.size.width / 8) 0).map fun j => y.wordVal j.w) := by
    rw [hval, wordsOf, List.map_map]
    rfl
  obtain ⟨r, hexecr, hin, hout, -, hflags, hwrote⟩ := h.ran (val := val) hexec hl hsize hpa hd hframe
    (fun j hj => hpulled.decides howns' (List.mem_map_of_mem hj)) hat
    fun u hu => by rw [List.mem_singleton.1 hu, fetches_head, hval']
  refine ⟨r, hexecr, fun k hk => ?_, fun a ha hbeside => ?_, fun w hw => ⟨?_, ?_⟩, hwrote⟩
  · rw [hin k hk, hval']
    rfl
  · rw [hout a ha hbeside, State.byteAt, State.byteAt, hpulled.wordVal howns' (by omega)]
    rfl
  · have hnone := hflags (s.who t).level w
    rw [hpulled.gone w hw] at hnone
    simpa using hnone
  · obtain ⟨d, hd, hown, hholder, -⟩ := hpulled.here w hw
    have hsome := hflags (l2Level (dieOf (s.who t).core)) w
    rw [hd] at hsome
    cases hc : r.copy (l2Level (dieOf (s.who t).core)) w with
    | none => rw [hc] at hsome; cases hsome
    | some c =>
      rw [hc] at hsome
      have hblank : c.blank = d.blank := Option.some.inj hsome
      exact ⟨c, rfl, (congrArg Copy.owned hblank :).trans hown, (congrArg Copy.holder hblank :).trans hholder⟩

end

end Sys2Proof.Machine
end

section
/-! An atomic at words that the requester's die does not own is asked of the home (03 R71). -/

namespace Sys2Proof.Machine

/-- The machine without what asking changes. -/
def State.unasked (s : State) : State := { s.unsent with threads := [], squads := [], evCount := [] }

/-- The request of an atomic at a Cached page. -/
def State.asks (s : State) (x : Who) (va pa n : Nat) (op : AtomOp) (z : Fmt) (ls : List AtomLane) : Msg :=
  { s.baseMsg x .atomic va pa (itemsOf pa n 0) with op := op, size := z, lanes := ls, past := true }

section
variable (s : State) (o : Ops) (t : Nat) (z : Fmt) (m : Msg)

theorem kFly_unasked (q : Nat) (l : List Busy) (ck : Nat) : (s.kFly q l ck).unasked = s.unasked := by
  unfold State.kFly
  split <;> rfl

theorem kFly_thread (q : Nat) (l : List Busy) (ck u : Nat) : (s.kFly q l ck).thread u = s.thread u := by
  unfold State.kFly
  split <;> rfl

theorem kFly_msg (q : Nat) (l : List Busy) (ck id : Nat) : (s.kFly q l ck).msg id = s.msg id := by
  unfold State.kFly
  split <;> rfl

/-- The thread waits for its request, or goes on with its result in flight (01 R28, 03 R75). -/
theorem atomEnd_ask : s.atomEnd o t z (some m) = if m.strict then (s.send m).1.waitMsg t s.nextId else ((s.send m).1.awaitMsg o t (regsOf z) s.nextId, .next) := rfl

theorem atomEnd_unasked : (s.atomEnd o t z (some m)).1.unasked = s.unasked := by
  have hsend := congrArg (fun y : State => { y with threads := [], squads := [], evCount := [] }) (send_unsent s m)
  rw [atomEnd_ask]
  split
  · exact hsend
  · exact (kFly_unasked ..).trans hsend

theorem atomEnd_pending : s.nextId ∈ ((s.atomEnd o t z (some m)).1.thread t).pending := by
  rw [atomEnd_ask]
  split
  · rw [State.waitMsg, State.thread_modThread, if_pos rfl]
    exact List.mem_cons_self
  · rw [State.awaitMsg]
    dsimp only
    rw [kFly_thread, State.thread_modThread, if_pos rfl]
    exact List.mem_cons_self

theorem atomEnd_msg : ∃ q, (s.atomEnd o t z (some m)).1.msg s.nextId = some q ∧ q.made = m.made := by
  obtain ⟨q, hq, hmade⟩ := send_msg s m
  refine ⟨q, ?_, hmade⟩
  rw [atomEnd_ask]
  split
  · exact hq
  · exact (kFly_msg ..).trans hq

theorem atomEnd_ret : (s.atomEnd o t z (some m)).2 = if m.strict then .stay (.blocked .msgs) else .next := by
  rw [atomEnd_ask]
  split <;> rfl

end

section
variable {s y : State} {iss : Issue} {i : Instr} {o : Ops} {f : AtomFn} {x : Who} {va pa n t : Nat} {ls : List AtomLane}

theorem atomAt_home (hhere : y.ownsHere x (wordsOf pa n) = false) (hdie : y.ownsDie x (wordsOf pa n) = false) (op : AtomOp) (z : Fmt) :
    y.atomAt x (.cached pa) va n op z ls = (if isMarl x.core then y else y.count x.core 6 1, some (y.asks x va pa n op z ls)) := by
  simp only [State.atomAt, hhere, hdie, Bool.false_eq_true, if_false]
  rfl

theorem begun_destOf (s : State) (iss : Issue) (o : Ops) (t n : Nat) (kw : Bool) : (s.begun iss).destOf o t n kw = s.destOf o t n kw := by
  simp only [State.destOf, begun_regKey]

theorem Gathers.asked (h : Gathers s y iss i o t (f.size.width / 8) va pa []) (ha : Alone s iss i o t)
    (hexec : exec i s = done (runGroup i o (atomBody i o f) s)) (hl : Lands o)
    (hhere : y.ownsHere (s.who t) (wordsOf pa (f.size.width / 8)) = false) (hdie : y.ownsDie (s.who t) (wordsOf pa (f.size.width / 8)) = false) :
    ∃ r m, exec i s = .next r ∧ r.msg y.nextId = some m ∧ m.kind = .atomic ∧ m.src = (s.who t).agent ∧ m.dst = homeEnd (pa / 4) ∧
      m.items = itemsOf pa (f.size.width / 8) 0 ∧ m.op = f.op ∧ m.size = f.size ∧ (m.lanes.map fun l => (l.tid, l.c, l.cmp, l.dest, l.kdest)) =
        [(t, s.srcC iss t i o, s.readFld iss t o.d (regsOf f.size), s.destOf o t (regsOf f.size) true)] ∧
      m.strict = (y.trapsRaces (s.who t).ctx || (s.who t).remote (pa / 4)) ∧ y.nextId ∈ (r.thread t).pending ∧
      (r.thread t).run = (if m.strict then .blocked .msgs else .ready) ∧ r.regs = s.regs ∧ r.mem = s.mem ∧ r.copies = y.copies ∧ r.owners = y.owners := by
  have ht : t ∈ [t] := List.mem_cons_self
  obtain ⟨rfl, -, -⟩ := h.same t ht
  have hbody : atomBody i o f iss (s.begun iss) (s.begun iss) t = _ := atomBody_of_lead (h.clear t ht) rfl h.maps (atomAt_home hhere hdie f.op f.size)
  generalize hm : y.asks (s.who t) (s.globalAddr iss t i o) pa (f.size.width / 8) f.op f.size (atomLanesOf i o f.size iss (s.begun iss) [t]) = m at hbody
  generalize hz : (if isMarl (s.who t).core then y else y.count (s.who t).core 6 1) = z at hbody
  have hcount : z.unasked = y.unasked ∧ z.nextId = y.nextId := by
    rw [← hz]
    split <;> exact ⟨rfl, rfl⟩
  obtain ⟨hsame, hid⟩ := hcount
  have hframe := (atomEnd_unasked z o t f.size m).trans hsame
  have hpending := atomEnd_pending z o t f.size m
  obtain ⟨q, hq, hmade⟩ := atomEnd_msg z o t f.size m
  have hret := atomEnd_ret z o t f.size m
  rw [hid] at hpending hq
  have hfield : ∀ {α : Type} (g : State → α) (_ : ∀ s, g s.unasked = g s), g (z.atomEnd o t f.size (some m)).1 = g y := fun g hg => by
    rw [← hg, hframe, hg]
  obtain ⟨r, hr, hst⟩ := exec_of_body (r := (z.atomEnd o t f.size (some m)).2) ha hl.latch hbody (by rw [hret]; split <;> rfl)
    ((hfield State.hole fun _ => rfl).trans h.hole)
  have hthread := hst.kept.threads t ha.mem
  have hrest := hst.kept.rest
  have hstrict : q.strict = m.strict := made_field hmade Msg.strict
  have hlanes : q.lanes = m.lanes := made_field hmade Msg.lanes
  have hlatch : ∀ b, o.d = .b b → (s.begun iss).latchAt iss t b.toNat = true := fun b hb => by
    have := hl.latch
    rw [latchOf, hb] at this
    cases this
  refine ⟨r, q, hexec.trans hr, (rest_congr hrest (·.msg y.nextId) fun _ => rfl).trans hq, (made_field hmade Msg.kind).trans (hm ▸ rfl),
    (made_field hmade Msg.src).trans (hm ▸ rfl), (made_field hmade Msg.dst).trans (hm ▸ rfl), (made_field hmade Msg.items).trans (hm ▸ rfl),
    (made_field hmade Msg.op).trans (hm ▸ rfl), (made_field hmade Msg.size).trans (hm ▸ rfl), ?_, hstrict.trans (hm ▸ rfl), ?_, ?_, ?_, ?_, ?_, ?_⟩
  · rw [hlanes, ← hm]
    simp only [State.asks, atomLanesOf, List.map_cons, List.map_nil, begun_srcC h.issues ha.mem, begun_readFld hlatch, begun_destOf, ha.kWriter_eq]
  · have hsent : (r.thread t).pending = ((z.atomEnd o t f.size (some m)).1.thread t).pending := by
      refine (congrArg Thread.pending hthread :).trans ?_
      rw [hret]
      split
      · rfl
      · exact Thread.past_pending ..
    rw [hsent]
    exact hpending
  · refine (congrArg Thread.run hthread :).trans ?_
    rw [hret, hstrict]
    split <;> rfl
  · exact hst.regs.trans ((hfield State.regs fun _ => rfl).trans ((translate_field h.maps State.regs).trans (begun_regs s iss)))
  · exact (rest_congr hrest State.mem fun _ => rfl).trans ((hfield State.mem fun _ => rfl).trans (met_field h.maps State.mem))
  · exact (rest_congr hrest State.copies fun _ => rfl).trans (hfield State.copies fun _ => rfl)
  · exact (rest_congr hrest State.owners fun _ => rfl).trans (hfield State.owners fun _ => rfl)

end

end Sys2Proof.Machine
end

section
/-! Atomics at owned words: of one thread, at its core's level or its die's L2, asked of the home, and of a group of lanes (08 R176 to R178, 03 R71, R72). -/

namespace Sys2Proof.Machine

section
variable {s y : State} {iss : Issue} {i : Instr} {o : Ops} {f : AtomFn} {t n va pa : Nat} {rest : List Nat}

theorem exec_atom (o : Ops) (f : AtomFn) (s : State) : exec (.atom o f) s = done (runGroup (.atom o f) o (atomBody (.atom o f) o f) s) := rfl
theorem exec_atoml (o : Ops) (f : AtomFn) (s : State) : exec (.atoml o f) s = done (runGroup (.atoml o f) o (atomBody (.atoml o f) o f) s) := rfl

/-- The lanes of an ATOML group that aim at one address are its guard-true lanes. -/
theorem atomGroup_atoml (h : Issues s iss (.atoml o f) o) (hsame : ∀ u ∈ s.guarded iss o, (s.thread u).phase = 0 ∧ s.globalAddr iss u (.atoml o f) o = va)
    {u : Nat} (hu : u ∈ s.guarded iss o) : atomGroup (.atoml o f) o iss (s.begun iss) u = s.guarded iss o := by
  refine List.filter_congr fun v hv => ?_
  have hmem := (List.mem_filter.1 hu).1
  rw [begun_thread, begun_globalAddr h hv, begun_globalAddr h hmem, (hsame u hu).2]
  cases hg : (s.thread v).guard o.h with
  | false => rfl
  | true =>
    obtain ⟨hphase, haddr⟩ := hsame v (List.mem_filter.2 ⟨hv, hg⟩)
    simp [hphase, haddr]

/-- A group of one thread. -/
theorem gathers_alone (ha : Alone s iss i o t) (hf : (s.thread t).fresh) (hd : n ∣ s.globalAddr iss t i o)
    (hgroup : atomGroup i o iss (s.begun iss) t = [t])
    (hmaps : (s.begun iss).translate (s.who t).ctx (tcPath (s.who t).core) (s.globalAddr iss t i o) { user := (s.who t).user, write := true } = (y, .inl (.cached pa)))
    (hhole : y.hole = false) (hover : s.overlaps t (wordsOf pa n) = false) (hacked : y.wbPending (s.who t).agent (wordsOf pa n) = false)
    (hgranted : ∀ w ∈ wordsOf pa n, ∀ c, y.copy (s.who t).level w = some c → c.pend = false) :
    Gathers s y iss i o t n (s.globalAddr iss t i o) pa [] where
  issues := ha.issues
  guarded := ha.guarded_eq
  clear u hu := by
    rw [List.mem_singleton.1 hu]
    exact {
      issues := ha.issues
      mem := ha.mem
      fresh := hf
      aligned := hd
      group := hgroup
      apart := fun v hv => by
        rw [ha.lowerLanes, List.append_nil] at hv
        rw [List.mem_singleton.1 hv]
        exact hover
      acked := (met_field hmaps (·.wbPending (s.who t).agent (wordsOf pa n))).symm.trans hacked
      granted := fun w hw c hc => hgranted w hw c ((met_field hmaps (·.copy (s.who t).level w)).trans hc) }
  same u hu := by
    rw [List.mem_singleton.1 hu]
    exact ⟨rfl, rfl, rfl⟩
  maps := hmaps
  hole := hhole
  idle h := absurd rfl h

theorem atomGroup_alone (ha : Alone s iss (.atoml o f) o t) (hf : (s.thread t).fresh) : atomGroup (.atoml o f) o iss (s.begun iss) t = [t] := by
  have hg := ha.guarded_eq
  refine (atomGroup_atoml (va := s.globalAddr iss t (.atoml o f) o) ha.issues (fun u hu => ?_) (hg ▸ List.mem_cons_self)).trans hg
  rw [hg] at hu
  obtain ⟨-, hphase, -⟩ := hf
  rw [List.mem_singleton.1 hu]
  exact ⟨hphase, rfl⟩

/-- An ATOML group whose guard-true lanes share one address. -/
theorem gathers_atoml (hi : Issues s iss (.atoml o f) o) (hguarded : s.guarded iss o = t :: rest)
    (hsame : ∀ u ∈ s.guarded iss o, (s.thread u).fresh ∧ (s.thread u).pending = [] ∧ s.globalAddr iss u (.atoml o f) o = va ∧
      (s.who u).ctx = (s.who t).ctx ∧ (s.who u).user = (s.who t).user)
    (hd : n ∣ va) (hmaps : (s.begun iss).translate (s.who t).ctx (tcPath (s.who t).core) va { user := (s.who t).user, write := true } = (y, .inl (.cached pa)))
    (hhole : y.hole = false) (hacked : y.wbPending (s.who t).agent (wordsOf pa n) = false) (hheld : ∀ j ∈ itemsOf pa n 0, Holds y (s.who t) j.w) :
    Gathers s y iss (.atoml o f) o t n va pa rest where
  issues := hi
  guarded := hguarded
  clear u hu := by
    rw [← hguarded] at hu ⊢
    have hmem := (List.mem_filter.1 hu).1
    have ht : t ∈ iss.threads := (List.mem_filter.1 (hguarded ▸ List.mem_cons_self : t ∈ s.guarded iss o)).1
    have hcore : coreOf u = coreOf t := (hi.core u hmem).trans (hi.core t ht).symm
    have hagent : (s.who u).agent = (s.who t).agent := congrArg homeAgent hcore
    have hlevel : (s.who u).level = (s.who t).level := by
      simp only [State.who, hcore]
    obtain ⟨hfresh, -, haddr, -⟩ := hsame u hu
    have hgroup := atomGroup_atoml hi (fun v hv => ⟨(hsame v hv).1.2.1, (hsame v hv).2.2.1⟩) hu
    have hidle : ∀ v ∈ s.guarded iss o, s.overlaps v (wordsOf pa n) = false := fun v hv => by
      obtain ⟨-, hpending, -⟩ := hsame v hv
      rw [State.overlaps, hpending]
      rfl
    exact {
      issues := hi
      mem := hmem
      fresh := hfresh
      aligned := haddr.symm ▸ hd
      group := hgroup
      apart := fun v hv => hidle v (by
        rcases List.mem_append.1 hv with hv | hv
        · exact hv
        · obtain ⟨hv, hlow⟩ := List.mem_filter.1 hv
          simp only [Bool.and_eq_true, begun_thread] at hlow
          exact List.mem_filter.2 ⟨hv, hlow.1.1.2⟩)
      acked := by
        rw [hagent]
        exact (met_field hmaps (·.wbPending (s.who t).agent (wordsOf pa n))).symm.trans hacked
      granted := fun w hw c hc => by
        obtain ⟨j, hj, rfl⟩ := List.mem_map.1 hw
        obtain ⟨c', hc', -, hpend⟩ := owned_of_holds (hheld j hj)
        rw [hlevel] at hc
        have hcy : y.copy (s.who t).level j.w = some c := (met_field hmaps (·.copy (s.who t).level j.w)).trans hc
        rw [Option.some.inj (hcy.symm.trans hc')]
        exact hpend }
  same u hu := by
    obtain ⟨-, -, haddr, hctx, huser⟩ := hsame u (hguarded.symm ▸ hu)
    exact ⟨haddr, hctx, huser⟩
  maps := hmaps
  hole := hhole
  idle _ := (hsame t (hguarded.symm ▸ List.mem_cons_self)).2.1

theorem granted_of_holds {x : Who} (h : ∀ j ∈ itemsOf pa n 0, Holds y x j.w) : ∀ w ∈ wordsOf pa n, ∀ c, y.copy x.level w = some c → c.pend = false := by
  intro w hw c hc
  obtain ⟨j, hj, rfl⟩ := List.mem_map.1 hw
  obtain ⟨c', hc', -, hpend⟩ := owned_of_holds (h j hj)
  rw [Option.some.inj (hc.symm.trans hc')]
  exact hpend

/-- The requester's level is not the L2, where the one owns the words and the other does not. -/
theorem level_ne_l2 {x : Who} (hhere : y.ownsHere x (wordsOf pa n) = false)
    (h : ∀ w ∈ wordsOf pa n, ∃ d, y.copy (l2Level (dieOf x.core)) w = some d ∧ d.owned = true) : x.level ≠ l2Level (dieOf x.core) := by
  intro he
  refine absurd (hhere.symm.trans (List.all_eq_true.2 fun w hw => ?_)) nofun
  obtain ⟨d, hd, hown⟩ := h w hw
  rw [he, hd]
  exact hown

end

/-- What the two instructions share for a group of one thread. -/
structure Begins (s : State) (iss : Issue) (i : Instr) (o : Ops) (f : AtomFn) (t : Nat) : Prop where
  exec : exec i s = done (runGroup i o (atomBody i o f) s)
  lands : Lands o
  size : f.size.isFloat = !f.size.isInt ∧ (f.size.width / 8 = 4 ∨ f.size.width / 8 = 8)
  group : atomGroup i o iss (s.begun iss) t = [t]

theorem begins_atom {s : State} {iss : Issue} {o : Ops} {f : AtomFn} {t : Nat} (h : Alone s iss (.atom o f) o t) : Begins s iss (.atom o f) o f t :=
  ⟨exec_atom o f s, atom_lands h.issues.formed, atom_size h.issues.formed, rfl⟩

theorem begins_atoml {s : State} {iss : Issue} {o : Ops} {f : AtomFn} {t : Nat} (h : Alone s iss (.atoml o f) o t) (hf : (s.thread t).fresh) :
    Begins s iss (.atoml o f) o f t :=
  ⟨exec_atoml o f s, atoml_lands h.issues.formed, atoml_size h.issues.formed, atomGroup_alone h hf⟩

/-- Settles O20: the lane that acts rewrites the words at the level whose copies are their values and delivers to each lane what the lanes below it left;
the lanes that follow find nothing left to do. -/
theorem atomicAtOwnedWords : Obligations.AtomicAtOwnedWords := by
  unfold Obligations.AtomicAtOwnedWords
  refine ⟨fun o f s y iss t pa => ?_, fun o f s y iss t pa => ?_, fun o f s y iss t pa va rest => ?_⟩
  · intro n x old run
    have hrun : ∀ i, (Alone s iss i o t → (s.thread t).fresh → Begins s iss i o f t) → run i :=
      fun i hbegins ha hf hd hmaps hhole hover hacked hpa hdp hheld => by
        obtain ⟨hexec, hl, hsize, hgroup⟩ := hbegins ha hf
        have hg := gathers_alone ha hf hd hgroup hmaps hhole hover hacked (granted_of_holds hheld)
        exact hg.held hexec hl hsize hpa hdp hheld fun u hu => by rw [List.mem_singleton.1 hu, fetches_head]
    exact ⟨hrun _ fun ha _ => begins_atom ha, hrun _ begins_atoml⟩
  · intro n x ws old begins atDie asks
    have hgathers : ∀ i, begins i → atomGroup i o iss (s.begun iss) t = [t] → Gathers s y iss i o t n (s.globalAddr iss t i o) pa [] :=
      fun i ⟨ha, hf, hd, hmaps, hhole, hover, hacked, _, _, hfree⟩ hgroup =>
        gathers_alone ha hf hd hgroup hmaps hhole hover hacked fun w hw c hc => (hfree w hw c hc).1
    have hdie : ∀ i, (begins i → Begins s iss i o f t) → atDie i := fun i hmeets hb hm hpa howns => by
      obtain ⟨hexec, hl, hsize, hgroup⟩ := hmeets hb
      have hg := hgathers i hb hgroup
      obtain ⟨-, -, -, -, -, -, -, hhere, hdp, hfree⟩ := hb
      have hapart := level_ne_l2 hhere fun w hw => by
        obtain ⟨-, d, hd, hown, -⟩ := howns w hw
        exact ⟨d, hd, hown⟩
      have hx := who_proper s t
      exact hg.atDie (val := fun _ => old) hexec hl hsize hpa hdp hm hhere
        (fun w hw => ⟨hapart, (hx.loam hm).2, (howns w hw).1, (howns w hw).2, hfree w hw⟩) rfl
    have hasks : ∀ i, (begins i → Begins s iss i o f t) → asks i := fun i hmeets hb hnot => by
      obtain ⟨hexec, hl, -, hgroup⟩ := hmeets hb
      have hg := hgathers i hb hgroup
      obtain ⟨ha, -, -, -, -, -, -, hhere, -⟩ := hb
      exact hg.asked ha hexec hl hhere hnot
    have hatom : begins (.atom o f) → Begins s iss (.atom o f) o f t := fun hb => begins_atom hb.1
    have hatoml : begins (.atoml o f) → Begins s iss (.atoml o f) o f t := fun hb => begins_atoml hb.1 hb.2.1
    exact ⟨hdie _ hatom, hdie _ hatoml, hasks _ hatom, hasks _ hatoml⟩
  · intro i n x ts ws next before hi hlanes hguarded hsame hd hmaps hhole hacked hpa hdp hheld
    have hg := gathers_atoml hi hguarded hsame hd hmaps hhole hacked hheld
    have hmap : (itemsOf pa n 0).map (fun j => y.wordVal j.w) = ws.map y.wordVal := (List.map_map (g := y.wordVal) (f := fun j : Item => j.w)).symm
    have hrun := hg.held (val := fun u => before (ts.takeWhile (· ≠ u))) (exec_atoml o f s) (atoml_lands hi.formed) (atoml_size hi.formed) hpa hdp hheld
      fun u hu => by
        rw [hmap, ← hguarded]
        rfl
    rw [hmap, ← hguarded] at hrun
    exact hrun

end Sys2Proof.Machine
end
